-- ==== Sys2Proof/Word.lean ====
section
/-! DEFINITION. The word types of the CV512 block model: bytes and 64-bit words, as the manual's
register maps and packet layouts use them (R11, R67). Nothing else stands here: the bit-field and
byte-order helpers are in Machine/Bits.lean. -/

namespace Sys2Proof

/-- One byte: the smallest addressable unit (R54, R56). -/
abbrev Byte := BitVec 8

/-- One 64-bit register word; a 32-bit register is held zero-extended (R67). -/
abbrev Word := BitVec 64

end Sys2Proof
end

