-- ==== Sys2Proof/Syntax.lean ====
section
/-! DEFINITION. The commands of the CV512, one constructor of `Instr` for each of the 239 rows of
spec/opcode_table.json, with the operands each takes from outside. The table gives no row any bits, so the
operands are the model's own choice (DESIGN CHOICE, log 1): unit numbers are `Fin`s, so that a command can name only
units of the largest grade; packets carry the fields of R213 and R214; a slot of a long word carries its 52 operand
bits (R558, R560). -/

namespace Sys2Proof

/-! ### Unit numbers (R21) -/

/-- A fabric die, 0 to 3. -/
abbrev DieNo := Fin 4
/-- Any die, 4 being the control die (R22). -/
abbrev AnyDie := Fin 5
/-- A device-wide port group (R21). -/
abbrev GroupNo := Fin 64
/-- A physical port place: device-wide group × 8 + k (R180). The logical number is BASE_PORT + k (R181). -/
abbrev PortNo := Fin 512
/-- A device-wide logical port number (R181). -/
abbrev LogPort := Fin 256
/-- A device-wide core (R21). -/
abbrev CoreNo := Fin 256
/-- A device-wide hardware thread, core × 16 + t (R545). -/
abbrev ThreadNo := Fin 4096
/-- A device-wide cluster, die × 8 + cluster (R21). -/
abbrev ClusterNo := Fin 32
/-- A device stack, die × 4 + stack (R21). -/
abbrev StackNo := Fin 16
/-- A virtual channel (R195). -/
abbrev Vc := Fin 8

/-- The privilege mode of a hart (R729). -/
inductive HartMode where
  | m | hs | vs | u
  deriving DecidableEq, Repr

/-- Who makes a register access (R64, R66, R732, R750). -/
inductive Initiator where
  /-- Control core `n` in mode `mode`. -/
  | hart (n : Fin 16) (mode : HartMode)
  /-- JTAG REG_ACCESS (R749). -/
  | jtag
  /-- A hardware thread of a compute core. -/
  | thread (t : ThreadNo)
  /-- An access arriving in a Porone packet of this partition. -/
  | porone (part : Fin 16)
  deriving DecidableEq, Repr

/-- The collective extension of a packet (R214). -/
structure Ext where
  group   : BitVec 24
  epoch   : BitVec 16
  chunk   : BitVec 32
  rank    : BitVec 20
  pattern : BitVec 3
  func    : BitVec 3
  fmt     : BitVec 5
  form    : BitVec 2
  ckind   : BitVec 3
  status  : BitVec 8
  sat     : Bool
  seg     : BitVec 7
  deriving DecidableEq, Repr

/-- A Porone packet: the header of R213, the extension of R214 when EXT is 1, the payload and the trailer of
R218. `length` is the header's LENGTH field, which a malformed packet may hold wrong (R226). -/
structure Packet where
  dst     : BitVec 64
  src     : BitVec 20
  tag     : BitVec 12
  length  : BitVec 14
  part    : BitVec 4
  cls     : BitVec 3
  vc      : BitVec 3
  itag    : BitVec 2
  ptype   : BitVec 5
  ext     : Option Ext
  payload : List Byte
  trailer : List Byte
  deriving DecidableEq, Repr

/-- A PARAM message (R210). -/
structure ParamMsg where
  role     : Byte
  lossless : Byte
  prev     : Byte
  node     : BitVec 20
  maxp     : Byte
  deriving DecidableEq, Repr

/-- The messages of a CONTROL flit (R208); an empty slot is no message. -/
inductive CtlMsg where
  | creditAll (counts : List (BitVec 20))
  | timeReq (replayed : Bool) (t1 : BitVec 72)
  | timeResp (aligned replayed : Bool) (domain : BitVec 16) (hops : Byte) (t2 t3 : BitVec 72)
  | release (group : BitVec 24) (epoch : BitVec 16) (relBeat : BitVec 64)
  | width (accept : Bool) (newWidth clean : Byte)
  | param (m : ParamMsg)
  /-- A reserved type. -/
  | reserved (type : Byte)
  deriving DecidableEq, Repr

/-- Flit header fields (R195). -/
structure FlitHdr where
  ftype   : Nat
  vc      : Nat
  sop     : Bool
  eop     : Bool
  nak     : Bool
  seq     : BitVec 16
  ackSeq  : BitVec 16
  crVc    : Nat
  crValid : Bool
  crCount : Nat
  deriving DecidableEq, Repr

/-- What carries flits to a port: one flit as the decoders hand it on, or the next codeword of each lane in use, in the order
of the lanes, before decoding (R178, R179). `frac` is the fraction of the beat at which it came (R209). -/
inductive Wire where
  | flit (bytes : List Byte) (frac : Byte)
  | words (lanes : List (List (BitVec 10))) (frac : Byte)
  deriving DecidableEq, Repr

/-- A port whose lanes have locked, with the counter that each lane's LOCK pattern shows, in the order of the lanes (R179). -/
structure Locked where
  port     : PortNo
  counters : List (BitVec 16)
  deriving DecidableEq, Repr

/-- A lane that has lost its signal, or codeword lock alone (R187). -/
structure LaneLoss where
  lane     : Fin 8
  lockOnly : Bool
  deriving DecidableEq, Repr

/-- A TIME_RESP message with its arrival fraction (R208, R209). Timestamps are 72 bits: 64 bits of beat over an
8-bit fraction. -/
structure TimeRespMsg where
  aligned  : Bool
  replayed : Bool
  domain   : BitVec 16
  hops     : Byte
  t2       : BitVec 72
  t3       : BitVec 72
  /-- The fraction of the count at which the flit reached the ball; the beats are BEAT_NOW's. -/
  t4frac   : Byte
  deriving DecidableEq, Repr

/-- The key of a context: group, epoch and chunk index. -/
structure CtxKey where
  group : BitVec 24
  epoch : BitVec 16
  chunk : BitVec 32
  deriving DecidableEq, Repr

/-- A logical queue of an egress port (R293) and, on VC2 and VC3, the group child of R295 (`none`: the shared
child, and every queue of the other VCs). -/
structure QueueSel where
  vc    : Vc
  cls   : Fin 8
  part  : Fin 16
  child : Option (BitVec 24)
  deriving DecidableEq, Repr

/-- What an ECC-protected read meets (R662). -/
inductive Ecc where
  | clean | corrected | uncorrectable
  deriving DecidableEq, Repr

/-- The five engines of a core, numbered as in R606. -/
inductive Engine where
  | reduction | vector | tile | sparse | sort
  deriving DecidableEq, Repr

/-- The queues of asynchronous operations of a core: one per engine, and the move slot's (R569). -/
inductive AsyncQ where
  | reduction | tile | sparse | sort | move
  deriving DecidableEq, Repr

/-- The slots of a long word in ascending header bit order (R554). -/
inductive SlotKind where
  | reduction | vector0 | vector1 | tile | sparse | sort | move | control
  deriving DecidableEq, Repr

/-- Where a slot stands: its thread, its guard (R558), the count of present slots of its word (R554), and whether
it is the last of them, which takes the thread's step. -/
structure SlotCtx where
  thread : ThreadNo
  pred   : Fin 8
  neg    : Bool
  slots  : Fin 9
  last   : Bool
  deriving DecidableEq, Repr

/-- The owner against whose charge a block is returned (R341, R372). -/
inductive Owner where
  /-- Port-VC owner with the index of R341. -/
  | portVc (i : Fin 1024)
  /-- Packet-buffer partition owner. -/
  | partPb (t : Fin 16)
  /-- A group slot (when the entry names one) and a partition in cluster `c` of the die. -/
  | rm (c : Fin 8) (slot : Option (Fin 256)) (t : Fin 16)
  deriving DecidableEq, Repr

/-- What the sensors report over one 1,024-beat window (R791, R803). A die with no valid sensor reports `none`. -/
structure PowerWindow where
  watts : BitVec 16
  temps : List (Option Byte)
  mv    : List (BitVec 16)
  cur   : List (BitVec 16)
  deriving DecidableEq, Repr

/-- The commands. Each constructor is one row of spec/opcode_table.json, in the table's order. -/
inductive Instr where
  -- register pages and instars (02)
  | registerWrite (i : Initiator) (addr : BitVec 64) (wide : Bool) (v : Word)
  | pairLowWrite (i : Initiator) (addr : BitVec 64) (v : BitVec 32)
  | pairHighWrite (i : Initiator) (addr : BitVec 64) (v : BitVec 32)
  | pairWrite64 (i : Initiator) (addr : BitVec 64) (v : Word)
  | arm (drained : Bool)
  | armNow (drained : Bool)
  | cancel
  | rollbackArm (drained : Bool)
  | rollbackNow (drained : Bool)
  | malformedCmd (seven : Bool)
  | molt
  | holdEnd
  | retireRelease
  | earlyTagExpire (p : PortNo)
  | insSignStart
  | insSignDone (ok : Bool)
  -- fabric time (03)
  | beatCtrlRoleWrite (v : BitVec 32)
  | loadPulse
  | checkPulse
  | beatRefLoss
  | beatRefReturn
  | timeReqSend
  | timeReq (p : PortNo) (t1 : BitVec 72) (replayed : Bool) (t2frac : Byte)
  | timeResp (p : PortNo) (m : TimeRespMsg)
  | holdoverExpire
  | alarmArm (d : DieNo) (n : Fin 64) (v : Word)
  | alarmDisarm (d : DieNo) (n : Fin 64)
  | alarmFire (d : DieNo) (n : Fin 64)
  | snapshotWriteDone (d : DieNo)
  | beatLaunch (t : ThreadNo)
  | release (p : PortNo) (group : BitVec 24) (epoch : BitVec 16) (relBeat : BitVec 64)
  | beatRelease (group : BitVec 24) (epoch : BitVec 16)
  -- lanes, ports and the link (04)
  | signalDetect (p : PortNo)
  | trainDone (p : PortNo)
  | trainTimeout (p : PortNo) (unlocked : BitVec 8)
  | lockAcquired (l : Locked)
  | param (p : PortNo) (m : ParamMsg)
  | mismatchRetry (p : PortNo)
  | laneSignalLoss (g : GroupNo) (l : LaneLoss)
  | laneErrWindow (g : GroupNo) (lane : Fin 8)
  | width (p : PortNo) (accept : Bool) (newWidth : Fin 9) (clean : BitVec 8)
  | retrainDone (l : Locked)
  | lnkGroupReset (g : GroupNo) (on : Bool)
  | flitReceive (p : PortNo) (w : Wire)
  | replay (p : PortNo) (ackSeq : BitVec 16)
  | creditAll (p : PortNo) (counts : List (BitVec 20))
  -- packets
  | packetForward (p : PortNo) (pkt : Packet)
  | memReadReq (p : PortNo) (pkt : Packet) (ecc : Ecc)
  | memReadResp (p : PortNo) (pkt : Packet)
  | memWrite (p : PortNo) (pkt : Packet)
  | memWriteAcked (p : PortNo) (pkt : Packet)
  | memStatus (p : PortNo) (pkt : Packet)
  | doorbell (p : PortNo) (pkt : Packet)
  | completion (p : PortNo) (pkt : Packet)
  | contribution (p : PortNo) (sop : BitVec 16) (pkt : Packet)
  | contributionFlit (p : PortNo) (sop : BitVec 16) (bytes : List Byte)
  | contributionConfirm (p : PortNo) (sop : BitVec 16)
  | contributionFail (p : PortNo) (sop : BitVec 16)
  | roundingDone (k : CtxKey)
  | collPartial (p : PortNo) (pkt : Packet)
  | collResult (p : PortNo) (pkt : Packet)
  | collAck (p : PortNo) (pkt : Packet)
  | retainExpire (k : CtxKey)
  | resendTimeout (k : CtxKey) (child : LogPort)
  | contextTimeout (k : CtxKey)
  | colGrpReset (d : DieNo) (group : BitVec 24)
  | resetGuardEnd (group : BitVec 24)
  | faultSummary (p : PortNo) (pkt : Packet)
  | tableReq (p : PortNo) (pkt : Packet) (ecc : Ecc)
  | tableGatherRead (k : CtxKey) (src : BitVec 20) (ecc : Ecc)
  | tableResp (p : PortNo) (pkt : Packet)
  | dispatchRows (p : PortNo) (pkt : Packet)
  | combineRows (p : PortNo) (pkt : Packet)
  | mgmt (p : PortNo) (pkt : Packet)
  | ethFrame (p : PortNo) (pkt : Packet)
  | ethFrameRx (p : PortNo) (frame : List Byte) (fcsOk : Bool)
  | pfcFrameRx (p : PortNo) (prio : Vc) (quanta : BitVec 16)
  | pfcPauseSend (p : PortNo) (vc : Vc)
  | adpWrStart (d : DieNo) (g : Fin 16) (q : Fin 256)
  | adpRetry (g : GroupNo) (q : Fin 256) (tag : BitVec 12)
  | adpCompletionWrite (g : GroupNo) (q : Fin 256)
  -- switch core and scheduling (05, 06)
  | packetSelect (p : PortNo)
  | ageDrop (p : PortNo) (sel : QueueSel)
  | escapeMove (p : PortNo) (sel : QueueSel)
  | shaperTick
  | flushEnd (p : PortNo)
  | d2dPathMove (a b : DieNo)
  | d2dLinkUp (d : DieNo) (peer : AnyDie)
  | d2dLinkTimeout (d : DieNo) (peer : AnyDie)
  | telWindowEnd
  | telBlockWriteDone (d : DieNo) (ok : Bool)
  | telRingConfigWrite (d : DieNo) (blocks : Bool) (v : Word)
  | congMapClose
  -- buffer pools (07)
  | blockReturn (d : DieNo) (ptr : BitVec 32) (unit : BitVec 32) (owner : Owner)
  | creditGrant (p : PortNo) (vc : Vc)
  | parkedOffer (c : ClusterNo)
  | retainRetry (k : CtxKey)
  | spillPass (k : CtxKey)
  | laneSteal (c : CoreNo) (lane : Fin 16)
  | segmentDone (c : CoreNo) (lane : Fin 16)
  -- threads (11)
  | threadStart (t : ThreadNo) (pc : BitVec 44)
  | threadStop (t : ThreadNo)
  | threadPendingRun (t : ThreadNo)
  | wordSkip (t : ThreadNo) (hdr : BitVec 16)
  | wordEmpty (t : ThreadNo) (hdr : BitVec 16)
  | wordMalformed (t : ThreadNo) (hdr : BitVec 16)
  | slotReservedOp (sc : SlotCtx) (kind : SlotKind) (op : BitVec 8) (x : BitVec 52)
  | cset (sc : SlotCtx) (x : BitVec 52)
  | csethi (sc : SlotCtx) (x : BitVec 52)
  | cadd (sc : SlotCtx) (x : BitVec 52)
  | caddi (sc : SlotCtx) (x : BitVec 52)
  | cmuli (sc : SlotCtx) (x : BitVec 52)
  | cshl (sc : SlotCtx) (x : BitVec 52)
  | cshr (sc : SlotCtx) (x : BitVec 52)
  | cmpset (sc : SlotCtx) (x : BitVec 52)
  | cmprun (sc : SlotCtx) (x : BitVec 52)
  | setvl (sc : SlotCtx) (x : BitVec 52)
  | jmp (sc : SlotCtx) (x : BitVec 52)
  | jmpc (sc : SlotCtx) (x : BitVec 52)
  | waitobj (sc : SlotCtx) (x : BitVec 52)
  | waitbeat (sc : SlotCtx) (x : BitVec 52)
  | waitcnt (sc : SlotCtx) (x : BitVec 52)
  | waitTimeout (t : ThreadNo)
  | signal (sc : SlotCtx) (x : BitVec 52)
  | launch (sc : SlotCtx) (x : BitVec 52)
  | desc (sc : SlotCtx) (x : BitVec 52)
  | sync (sc : SlotCtx) (x : BitVec 52)
  | syncPublish (t : ThreadNo)
  | halt (sc : SlotCtx) (x : BitVec 52)
  | cqhead (sc : SlotCtx) (x : BitVec 52)
  | vld (sc : SlotCtx) (x : BitVec 52)
  | vst (sc : SlotCtx) (x : BitVec 52)
  | ldc (sc : SlotCtx) (x : BitVec 52)
  | stc (sc : SlotCtx) (x : BitVec 52)
  | copy (sc : SlotCtx) (x : BitVec 52) (ecc : Ecc)
  | coll (sc : SlotCtx) (x : BitVec 52)
  | vadd (sc : SlotCtx) (second : Bool) (x : BitVec 52)
  | vmul (sc : SlotCtx) (second : Bool) (x : BitVec 52)
  | vfma (sc : SlotCtx) (second : Bool) (x : BitVec 52)
  | vmin (sc : SlotCtx) (second : Bool) (x : BitVec 52)
  | vmax (sc : SlotCtx) (second : Bool) (x : BitVec 52)
  | vcmp (sc : SlotCtx) (second : Bool) (x : BitVec 52)
  | vsel (sc : SlotCtx) (second : Bool) (x : BitVec 52)
  | vred (sc : SlotCtx) (second : Bool) (x : BitVec 52)
  -- engines (12)
  | rsum (sc : SlotCtx) (sat : Bool) (x : BitVec 52)
  | rmin (sc : SlotCtx) (sat : Bool) (x : BitVec 52)
  | rmax (sc : SlotCtx) (sat : Bool) (x : BitVec 52)
  | rand (sc : SlotCtx) (sat : Bool) (x : BitVec 52)
  | ror (sc : SlotCtx) (sat : Bool) (x : BitVec 52)
  | rxor (sc : SlotCtx) (sat : Bool) (x : BitVec 52)
  | rargmin (sc : SlotCtx) (sat : Bool) (x : BitVec 52)
  | rargmax (sc : SlotCtx) (sat : Bool) (x : BitVec 52)
  | mma (sc : SlotCtx) (x : BitVec 52)
  | mmac (sc : SlotCtx) (x : BitVec 52)
  | mmaf (sc : SlotCtx) (x : BitVec 52)
  | mmacf (sc : SlotCtx) (x : BitVec 52)
  | tileFeedSend (t : ThreadNo)
  | senc (sc : SlotCtx) (x : BitVec 52)
  | sdec (sc : SlotCtx) (x : BitVec 52)
  | sgather (sc : SlotCtx) (x : BitVec 52)
  | sscatterAdd (sc : SlotCtx) (x : BitVec 52)
  | sort (sc : SlotCtx) (x : BitVec 52)
  | merge (sc : SlotCtx) (x : BitVec 52)
  | topk (sc : SlotCtx) (x : BitVec 52)
  | filter (sc : SlotCtx) (x : BitVec 52)
  | asyncComplete (c : CoreNo) (q : AsyncQ)
  | cqEntryWrite (t : ThreadNo)
  | coreCtrlReset (c : CoreNo) (on : Bool)
  -- memory (13)
  | hbmScrubRead (st : StackNo) (pc : Fin 32) (ecc : Ecc)
  | rmemScrubRead (c : ClusterNo) (rm : Ecc) (ws : List (Fin 8 × Ecc))
  | hbmErrWindow (st : StackNo) (pc : Fin 32)
  | hbmGroupClearDone (st : StackNo) (g : Fin 8)
  | hbmTrainDone (st : StackNo) (ok : Bool)
  | hbmInitDone (st : StackNo)
  -- faults (14)
  | faultReport (d : AnyDie) (block : Byte) (inst : Byte) (bit : Fin 64) (unit reporter detail : BitVec 32)
  | peerSilence (p : PortNo)
  | noticeSend (d : DieNo) (unit : BitVec 32)
  | noticeWindowClose (d : DieNo) (unit : BitVec 32)
  | summarySend
  | quietEnd (d : DieNo) (unit : BitVec 32)
  | unitCheckDone (d : DieNo) (unit : BitVec 32) (ok : Bool)
  | recoveryDecay (d : DieNo) (unit : BitVec 32)
  | fltClearClear (d : DieNo) (unit : BitVec 32)
  | fltClearFence (d : DieNo) (unit : BitVec 32)
  | fltClearForget (d : DieNo) (unit : BitVec 32)
  | fltClearReserved (d : DieNo) (cmd : Byte) (unit : BitVec 32)
  | injectArm (d : DieNo) (v : BitVec 32)
  | injectFire (d : DieNo)
  -- control complex and security (15)
  | hartRun (v : BitVec 16)
  | hartCpEccError (h : Fin 16) (addr : BitVec 44)
  | llcCarWrite
  | mgmtTx (tail : BitVec 32)
  | mgmtEthRx (k : Fin 2) (frame : List Byte) (fcsOk : Bool)
  | mgmtEthPauseRx (k : Fin 2) (quanta : BitVec 16)
  | mgmtEthTx (k : Fin 2) (tail : BitVec 32)
  | spiCmd (v : Word)
  | spiCmdDone (data : List Byte)
  | uartTxWrite (b : Byte)
  | uartRxByte (b : Byte)
  | uartDataRead
  | i3cIndexWrite (i : Byte)
  | i3cRead (n : Fin 256)
  | resetReq (b : Byte)
  | i3cDynAddr (a : BitVec 7)
  | extest (scan : List Bool)
  | samplePreload (scan : List Bool)
  | idcode
  | regAccess (dr : BitVec 112)
  | coreDebug (dr : Word)
  | bypass (code : Byte)
  | wdogKick (w : Fin 4)
  | wdogExpire (w : Fin 4)
  | verify (ecc : Ecc)
  | extend (ecc : Ecc)
  | quote
  | bootDone
  | advanceSvn
  | revokeKey
  | advanceLifecycle
  | fuseProgram (ecc : Ecc)
  | secCmdReserved (op : Byte)
  | secCmdDone
  | newChallenge
  | submit
  | relock
  -- power and reset (16)
  | railStep (step : Fin 5)
  | railFault (i : Fin 12)
  | throttleWindow (m : PowerWindow)
  | thermtrip (d : AnyDie) (t : Byte)
  | powerOnReset
  | powerOnResetRelease (straps : BitVec 3)
  | warmResetN
  | pwrResetCtrlWrite (v : BitVec 32)
  -- rows the table lists last
  | remoteRetry (t : ThreadNo) (tag : BitVec 12)
  | mgmtEthLinkChange (k : Fin 2) (st : Fin 3)
  | uartTxByte
  | pfcPauseExpire (p : PortNo) (prio : Vc)
  | mgmtEthPauseExpire (k : Fin 2)
  | hbmTempReport (st : StackNo) (t : Byte)
  deriving DecidableEq, Repr

end Sys2Proof
end

