-- ==== Sys2Proof/Machine/State.lean ====
section
/-! DEFINITION. The state of the CV512 as plain data: everything the manual gives the block, and the queue of
waiting commands. Registers live in register files keyed by local address (R58); internal state the manual implies
(queues, contexts, threads, sequencers) has typed fields. INVENTORY.md lists every piece with its rule. -/

namespace Sys2Proof.Machine

/-! ### Storage -/

/-- A register file: (local address, word) pairs, addresses strictly rising, no entry equal to the word an unlisted
address reads as (its reset value, Machine/PageMap.lean). A register of 64 bits or fewer has one entry at its own
address; a wider register and the table region have one entry for each aligned 8 bytes. -/
abbrev RegFile := List (Nat × Word)

/-- Memory: (local address, byte) pairs, addresses strictly rising, no entry equal to zero, which an unlisted
address reads as (R672). -/
abbrev Memory := List Host.Cell

/-- A sparse map from unit numbers, keys strictly rising; an absent key stands for the unit's reset value. -/
abbrev Map (α : Type) := List (Nat × α)

/-! ### Configuration and time (02, 03) -/

/-- An instar other than the active and staged one: its number and content (R83, R84). -/
structure Instar where
  number  : BitVec 32
  content : RegFile
  deriving DecidableEq, Repr

/-- One audit record (R115). DIGEST and PREV_HEAD are functions of `content` and of the records before it. -/
structure AuditRec where
  kind    : Fin 4
  instar  : BitVec 32
  source  : BitVec 32
  seq     : Nat
  beat    : BitVec 64
  content : RegFile
  deriving DecidableEq, Repr

/-- The molt being armed or run: what the arm sampled (R91, R94). -/
structure MoltSt where
  beat     : BitVec 64
  drained  : Bool
  rollback : Bool
  /-- Armed by ARM or ROLLBACK_ARM: cancelled when alignment is lost (R97). -/
  timed    : Bool
  deriving DecidableEq, Repr

/-- An armed alarm as sampled at its arm write (R154). -/
structure Alarm where
  die    : Nat
  n      : Nat
  atBeat : BitVec 64
  kind   : Nat
  isLoc  : Bool
  target : BitVec 24
  deriving DecidableEq, Repr

/-- Fabric-time state that the BEAT registers do not hold. -/
structure TimeSt where
  /-- BEAT_REF is stopped or outside the lock range (R129). -/
  refLost     : Bool
  /-- Tick at which the holdover limit elapses (R134). -/
  holdoverEnd : Option Nat
  /-- t1 of the request in flight (R135). -/
  t1          : Option (BitVec 72)
  /-- Tick at which the last request was sent. -/
  lastReq     : Nat
  /-- Consecutive exchanges within and beyond tolerance (R134, R140, R141). -/
  good        : Nat
  bad         : Nat
  /-- The next exchange is the first of this acquisition (R144). -/
  first       : Bool
  /-- Tick at which the 5/2 divider phase was last reset (R127). -/
  phase       : Nat
  /-- The offset, in 1/256 beat, that frequency steering is still to take out (R138). -/
  steer       : Int
  deriving DecidableEq, Repr

/-- A held BEAT-mode release (R168). -/
structure Rel where
  group : BitVec 24
  epoch : BitVec 16
  beat  : BitVec 64
  deriving DecidableEq, Repr

/-- A source of a group at this device (R390): a child's peer node, a child port whose peer node is not known (log 94), or a
member slot by its COL_MEMBER index. -/
inductive Src where
  | child (node : BitVec 20)
  | port (lp : Nat)
  | slot (i : Nat)
  deriving DecidableEq, Repr

/-! ### Packets in the switch (04 to 07) -/

/-- A packet queued toward a port (R293). -/
structure QPkt where
  /-- Its number in the order in which packets arrived or were formed (R258); the copies of one packet share it. -/
  id     : Nat
  pkt    : Packet
  /-- The die whose packet buffer holds it, and its allocation there (R36). -/
  die    : Nat
  alloc  : Nat
  /-- The port it arrived on; `none` for a packet formed inside. -/
  ingress : Option Nat
  /-- Tick at which its SOP flit entered the packet buffer (R274). -/
  tick   : Nat
  /-- The replication it is a copy of (R261). -/
  mcast  : Option Nat
  /-- Tick since which it has stood at the head of its queue without credit (R276). -/
  since  : Option Nat
  /-- Its blocked escape wait has been counted (R277). -/
  escCnt : Bool
  /-- Its VC before it moved to VC6 (R279). -/
  escaped : Option (BitVec 3)
  /-- It left before its check completed, which failed: it ends with the complement of its CRC (R223). -/
  stomp  : Bool
  deriving DecidableEq, Repr

/-- What the 244 bytes of a flit carry: nothing, flit `i` of a packet whose CRC is correct or stomped (R197, R223), or messages
(R207). -/
inductive FlitBody where
  | idle
  | data (pkt : Packet) (i : Nat) (stomp : Bool)
  | control (msgs : List CtlMsg)
  deriving DecidableEq, Repr

/-- A flit sent and not yet acknowledged (R202); a DATA flit's packet holds its blocks till then. -/
structure SentFlit where
  seq  : BitVec 16
  vc   : Nat
  eop  : Bool
  body : FlitBody
  die  : Nat
  alloc : Nat
  mcast : Option Nat
  deriving DecidableEq, Repr

/-- Where a formed packet goes: by the forwarding tables, or to one of a parent set's ports (R255, R257). -/
inductive Via where
  | table
  | parents (ports : List Nat)
  /-- Replicated to a port set (R261); the context whose result it is, and the place where that result arrived (R262). -/
  | copies (ports : List Nat) (key : Option CtxKey) (ingress : Option Nat)
  /-- Kept here: the contribution of a member slot (by its COL_MEMBER index; none for a ROUTE packet) to a context of this
  device (R342). -/
  | inside (slot : Option Nat)
  deriving DecidableEq, Repr

/-- A packet admitted but held: by a drained molt (R100), an early tag (R107) or a flush (R284). -/
structure HeldPkt where
  pkt   : Packet
  /-- The place where it arrived; 512 for a packet formed here. -/
  port  : Nat
  tick  : Nat
  die   : Nat
  alloc : Nat
  /-- Its number in the order of arrivals (R258), and how its egress is chosen. -/
  id    : Nat
  via   : Via
  deriving DecidableEq, Repr

/-- A packet whose end-of-packet check has passed and that has not been acted on (R223): the tick of its SOP flit (R274), and the
length of the frame that carried it, FCS included, where one did (R302). -/
structure Arrived where
  port  : Nat
  pkt   : Packet
  sop   : Nat
  frame : Option Nat
  deriving DecidableEq, Repr

/-- The deficit round robin of one level of a port (R296, R297): its deficits by child, the current child and the
weight-0 child served last. -/
structure Drr where
  deficits : Map Nat
  cur      : Nat
  zeroLast : Nat
  deriving DecidableEq, Repr

/-- The link, queue and scheduler state of one port, beside its registers. -/
structure Port where
  /-- The peer's PARAM (R210). -/
  peer    : Option ParamMsg
  /-- Cumulative credits granted by the peer, flits sent, and credits this device has granted, for each VC,
  modulo 2^20 (R198). -/
  granted : List Nat
  used    : List Nat
  ours    : List Nat
  /-- Next sequence to send, unacknowledged flits, and how often in a row the same sequence was asked for again
  (R195, R202, R205). -/
  txSeq   : BitVec 16
  unacked : List SentFlit
  lastNak : BitVec 16
  resends : Nat
  /-- Next sequence expected, highest sequence kept, and whether a resend is awaited (R201 to R204). -/
  rxSeq   : BitVec 16
  ackSeq  : BitVec 16
  nak     : Bool
  /-- The last CONTROL flit acted on (R204). -/
  ctlSeq  : BitVec 16
  /-- The packet being assembled: its bytes, SOP sequence and VC, and the tick of its SOP flit (R197, R274). -/
  asm     : List Byte
  asmSop  : BitVec 16
  asmVc   : Nat
  asmOpen : Bool
  asmTick : Nat
  /-- Tick of the last intact flit (R694) and of entry into the present state. -/
  lastOk  : Nat
  since   : Nat
  /-- The logical lanes in use, ascending, and those agreed by WIDTH messages, to be taken at retraining (R188, R190). -/
  lanes    : List Nat
  newLanes : List Nat
  /-- The width that a port with REWIDEN 0 keeps until its group is reset (R191); 0 for none. -/
  kept     : Nat
  /-- Codewords of each lane in use still to be passed over and decoded messages waiting for the other lanes (R179), and the
  bytes of flits that have begun. -/
  skip    : List Nat
  waiting : List (List (List (BitVec 10)))
  rxBytes : List Byte
  /-- Messages waiting for a CONTROL flit (R206, R207). -/
  ctlWait : List CtlMsg
  /-- Egress queue in arrival order; packets held while the port's flush runs (R284), and whether it runs. -/
  queue   : List QPkt
  flushHeld : List HeldPkt
  flushing : Bool
  /-- Ingress packets held by a drained molt (R100) and early-tagged packets (R107). -/
  held    : List HeldPkt
  early   : List HeldPkt
  /-- Scheduler levels: 0 the VC level, 1 + vc the class level, and so on (R295). -/
  sched   : Map Drr
  /-- Shapers (index as SCH_SHAPER) and policers (by tenant), in 2^-16 bytes (R303). -/
  shapers : Map Int
  policers : Map Int
  /-- Priorities paused by the peer (R242), with the tick the pause ends; pauses this port has in force toward the
  peer, with the tick of the last frame (R357). -/
  paused  : Map Nat
  pausing : Map Nat
  /-- The port is to restart at the beat STATE leaves HOLD (R192). -/
  restart : Bool
  deriving DecidableEq, Repr

/-- A replicated packet: the copies still to be acknowledged or dropped, and the ports not delivered (R264, R265). -/
structure Mcast where
  id     : Nat
  die    : Nat
  alloc  : Nat
  key    : Option CtxKey
  left   : Nat
  missed : List Nat
  started : Bool
  deriving DecidableEq, Repr

/-- A formed packet that waits for cells (R361). -/
structure Stalled where
  die : Nat
  pkt : Packet
  via : Via
  deriving DecidableEq, Repr

/-- One granted request: its blocks in the order taken, as (pool, first cell), and its owner (R336, R341). -/
structure Alloc where
  id     : Nat
  die    : Nat
  region : Nat
  owner  : Owner
  blocks : List (Nat × Nat)
  /-- Cells of it drawn from the result escape reservation (R368). -/
  esc    : Nat
  deriving DecidableEq, Repr

/-- A parked contribution (R363): its packet, the die and the port where it entered, its charge, when it was first parked, and its
source where a member slot here sent it. -/
structure Parked where
  cluster : Nat
  die     : Nat
  port    : Nat
  pkt     : Packet
  alloc   : Nat
  tick    : Nat
  src     : Option Src
  deriving DecidableEq, Repr

/-! ### Collectives (08 to 10) -/

/-- A group entry (R388). -/
structure GEntry where
  groupId   : BitVec 24
  valid     : Bool
  root      : Bool
  relBeat   : Bool
  slotValid : Bool
  part      : Nat
  slot      : Nat
  weight    : Nat
  salt      : BitVec 64
  parentSet : Nat
  childValid : Bool
  childSet  : Nat
  localBase : Nat
  localCount : Nat
  members   : Nat
  rootRank  : Nat
  keyLo     : BitVec 64
  keyHi     : BitVec 64
  deriving DecidableEq, Repr

/-- What an epoch latches when it opens (R403, R480), and the sources it counts lost (R700). -/
structure EpochSt where
  epoch   : BitVec 16
  entry   : GEntry
  parents : List Nat
  children : List Nat
  slots   : List (Nat × Word)
  cores   : List Nat
  arith   : Word
  seed    : Word
  detLock : Bool
  lost    : List Src
  /-- The source that each port of the child port set leads to (R390). -/
  kids    : List (Nat × Src)
  /-- GATHER_ARRIVAL: chunks landed so far in the epoch (R421). -/
  arrivals : Nat
  /-- The TOP_ARITH entries and seeds of the sixteen partitions, for tables of a PART of their own (R480, R526). -/
  ariths  : List (Word × Word)
  /-- The latched core set of each of the sixteen partitions, for tables of a PART of their own (R519). -/
  partCores : List (List Nat)
  /-- DISPATCH chunks that have gone up here, and the lost ranks that the root has been told of for each (R541). -/
  seen    : List (BitVec 32)
  told    : List (BitVec 32 × Nat)
  deriving DecidableEq, Repr

/-- The running state of one fabric group, by its identifier. -/
structure GroupSt where
  group   : BitVec 24
  /-- The current epoch (R402, R404), open or not. -/
  number  : Option (BitVec 16)
  /-- What the current epoch and the one after it have latched, while open. -/
  current : Option EpochSt
  next    : Option EpochSt
  /-- The release barrier of the epoch after the current one has completed and is held (R404). -/
  relHeld : Bool
  /-- Closed epochs, newest first, as their contexts still need them. -/
  past    : List EpochSt
  /-- Tick at which the guard of a group reset ends (R440). -/
  guardEnd : Option Nat
  /-- Tick of its last reset (R159). -/
  resetAt : Option Nat
  deriving DecidableEq, Repr

/-- One exact record (R456): FIX modulo its width, and the tallies. -/
structure Rec where
  fix  : Nat
  pinf : Nat
  ninf : Nat
  nz   : Nat
  deriving DecidableEq, Repr

/-- Parameters of a context (R405). -/
structure Params where
  pattern : Nat
  func    : Nat
  fmt     : Nat
  sat     : Bool
  length  : Nat
  fused   : List Byte
  deriving DecidableEq, Repr

/-- A confirmed input that its function combines when the context completes: the rank it is ordered by, whether it
is a partial, and its bytes (R409, R418). -/
structure Kept where
  rank : Nat
  /-- The contributions' LENGTH (R410). -/
  len  : Nat
  part : Bool
  data : List Byte
  deriving DecidableEq, Repr

/-- An input under way: streamed and not yet checked (R222, R418). -/
structure Input where
  port : Nat
  sop  : BitVec 16
  pkt  : Packet
  src  : Option Src
  /-- The context it goes to; `none` when its key names no group (R420). -/
  key  : Option CtxKey
  data : List Byte
  /-- Elements (or, for a partial, image bytes) already added speculatively. -/
  spec : Nat
  /-- Held aside: its parameters differ from the context's (R406), or its OPEN was refused (R363). -/
  wait : Bool
  /-- Its end-of-packet check has passed. -/
  passed : Bool
  /-- Packet-buffer allocation. -/
  alloc : Nat
  /-- Tick of its SOP flit while it streams, then that at which it came whole (R168, R274). -/
  tick  : Nat
  deriving DecidableEq, Repr

/-- The per-source state of a context: confirmed or lost, and for a partial the segments confirmed, SEGS once
segment 0 is confirmed, INCLUDED and FLAGS (R410, R411). -/
structure SrcSt where
  src   : Src
  conf  : Bool
  lost  : Bool
  segs  : List (Nat × List Byte)
  segCount : Nat
  included : Nat
  flags : Nat
  rank  : Nat
  deriving DecidableEq, Repr

/-- Where a context's records lie (R648). -/
inductive Place where
  | none
  /-- Reduction memory of the home core's cluster: the allocation. -/
  | resident (alloc : Nat)
  /-- Spill units of the home core's die (R651). -/
  | spilled (units : List Nat)
  deriving DecidableEq, Repr

/-- Progress of a context. -/
inductive Phase where
  /-- Waiting for its sources. -/
  | open
  /-- Complete; the rounding of the result is under way (R39). -/
  | complete
  /-- A non-root context whose partial has left (R409). -/
  | sentUp
  /-- Spilled and complete: waiting for a RETAIN (R368). -/
  | retainWait
  /-- The result is retained and has been sent (R426). -/
  | retained
  /-- A non-root device's copy of the result is lost; the resend has been asked for (R428). -/
  | copyLost
  deriving DecidableEq, Repr

/-- One selected expert of a row (R532): origin rank, row, expert, weight bits, slot once kept, and whether its
output has been returned. -/
structure Assign where
  rank   : Nat
  row    : Nat
  expert : Nat
  weight : BitVec 32
  slot   : Nat
  back   : Bool
  deriving DecidableEq, Repr

/-- The route state of a DISPATCH context (R528 to R540). -/
structure Route where
  /-- The 32-byte route header, fixed by the first contribution, FMT, SAT and rows per rank. -/
  header  : List Byte
  fmt     : Nat
  sat     : Bool
  rows    : Nat
  /-- Contributions held: rank, payload, packet-buffer allocation (R539). -/
  contribs : List (Nat × List Byte × Nat)
  /-- Ranks counted lost (R541), and ranks that have acknowledged their combined rows (R539). -/
  lost    : List Nat
  acks    : List Nat
  assigns : List Assign
  /-- One record for each output element, rank by rank, row by row (R538). -/
  recs    : List Rec
  /-- The DISPATCH half is done and the COMBINE half runs; the combined rows have been sent. -/
  combining : Bool
  sent    : Bool
  deriving DecidableEq, Repr

/-- A context (R645). -/
structure Ctx where
  key     : CtxKey
  home    : Nat
  /-- Partition of its group entry, and the CLASS of the first input, which its partial and its result carry. -/
  part    : Nat
  cls     : Nat
  place   : Place
  params  : Option Params
  fixed   : Bool
  opened  : Nat
  recs    : List Rec
  bits    : List Byte
  kept    : List Kept
  srcs    : List SrcSt
  phase   : Phase
  status  : Nat
  dropped : Bool
  lostFlag : Bool
  /-- Confirmed inputs of a spilled context that the next pass applies (R654). -/
  passQ   : List Input
  /-- Allocation of the retained result, when it is not in the context's own blocks (R368). -/
  retain  : Option Nat
  result  : List Byte
  digest  : List Byte
  form    : Nat
  retainedAt : Nat
  /-- Tick at which the last of its inputs came (R168). -/
  lastIn  : Nat
  /-- The parameters that it held last, once it has returned to empty (R405). -/
  was     : Params
  /-- The place at which its result arrived from the parent (R262). -/
  came    : Option Nat
  /-- Children that have not ACKed: logical port, tick of the last copy, resends so far. -/
  unacked : List (Nat × Nat × Nat)
  undelivered : List Nat
  delivered : Nat
  acked   : Bool
  /-- The copies of the result have left once (R415, R427). -/
  sent    : Bool
  /-- The release of the next epoch, held for the current one (R404). -/
  held    : Bool
  route   : Option Route
  deriving DecidableEq, Repr

/-- Who runs a COLL work request: a thread, or queue `q` of port group `g`. -/
inductive Member where
  | thread (t : Nat)
  | adapter (g q : Nat)
  deriving DecidableEq, Repr

/-- A COLL work request under way (R232, R584): the sampled image's fields, the chunks landed, and the counter to
increment at its end. -/
structure Work where
  who     : Member
  slot    : Nat
  wrId    : BitVec 32
  localA  : BitVec 64
  remote  : BitVec 64
  length  : Nat
  count   : Nat
  group   : BitVec 24
  epoch   : BitVec 16
  first   : BitVec 32
  rank    : Nat
  pattern : Nat
  func    : Nat
  fmt     : Nat
  sat     : Bool
  landed  : List Nat
  /-- Bytes landed. -/
  moved   : Nat
  expected : Nat
  cnt     : Nat
  status  : Nat
  /-- TABLE requests sent: chunk and COUNT (R520). -/
  reqs    : List (Nat × Nat)
  /-- ROUTE chunks: slots or rows landed so far, and how many are to land once that is known (R536, R540). -/
  prog    : List (Nat × Nat × Option Nat)
  /-- Tiles of a feed still to be sent, in order (R629, R630). -/
  tiles   : List (List Byte)
  sentTiles : Nat
  deriving DecidableEq, Repr

/-- What the device of a member slot keeps of a DISPATCH for the COMBINE that follows it (R537, R540): the route header,
FMT and rows of the member's contributions, and the slots per expert of each chunk. -/
structure RouteInfo where
  group  : BitVec 24
  epoch  : BitVec 16
  rank   : Nat
  header : List Byte
  fmt    : Nat
  rows   : Nat
  counts : List (Nat × List Nat)
  deriving DecidableEq, Repr

/-- A scatter-add batch slot (R522): the table's header address, the epoch, the row and its exact records. -/
structure BatchSlot where
  table : Nat
  group : BitVec 24
  epoch : BitVec 16
  row   : Nat
  recs  : List Rec
  deriving DecidableEq, Repr

/-- A SCATTER_ADD_ROWS request being worked (R522): the segments still running, what enters when the last has finished,
and the answer. -/
structure TableWork where
  id    : Nat
  core  : Nat
  left  : Nat
  table : Nat
  group : BitVec 24
  epoch : BitVec 16
  fmt   : Nat
  adds  : List (Nat × List Rec)
  resp  : Packet
  deriving DecidableEq, Repr

/-- A gather waiting for a row with a pending earlier batch (R527). -/
structure GatherWait where
  key : CtxKey
  src : BitVec 20
  port : Nat
  pkt : Packet
  deriving DecidableEq, Repr

/-! ### Cores (11, 12) -/

/-- What a register write of a slot will change (R564). -/
inductive WriteTo where
  | counter (i : Nat) (v : Word)
  | cmp (k : Nat) (a rel b : Nat) (imm : BitVec 32) (target : Nat)
  | pred (i : Nat) (v : Bool)
  | vl (v : Nat)
  | vreg (i : Nat) (mask v : BitVec 2048)
  | mem (addr : Nat) (bytes : List Byte)
  /-- A jump (R561): the next word issued is the target. -/
  | pc (v : BitVec 44)
  /-- An increment of R570 that came while a word was being issued. -/
  | inc (i : Nat)
  deriving DecidableEq, Repr

/-- A write that becomes visible at step `vis` (R565); `order` is its issue order. -/
structure PendWrite where
  vis   : Nat
  order : Nat
  w     : WriteTo
  deriving DecidableEq, Repr

/-- A comparator's configuration (R562). -/
structure Cmp where
  a : Nat
  rel : Nat
  b : Nat
  imm : BitVec 32
  target : Nat
  deriving DecidableEq, Repr

/-- What a thread in WAITING waits for (R592, R595, R561), with the predicate to write. -/
inductive Wait where
  | obj (o : Nat) (mode : Nat) (bound : Nat) (gen : Nat)
  | beat (b : BitVec 64)
  | cnt (c : Nat) (bound : Int)
  deriving DecidableEq, Repr

/-- A wait with the predicate it writes, the tick it began at and its order among waits (R593, R594). -/
structure WaitSt where
  on    : Wait
  p     : Nat
  start : Nat
  deriving DecidableEq, Repr

/-- A hardware thread (R546). STATE, REASON, LAST and PC also show in CORE_THREAD_STATUS_t. -/
structure Thread where
  pc     : BitVec 44
  state  : Nat
  reason : Nat
  last   : Nat
  preds  : List Bool
  ctrs   : List Word
  cmps   : List Cmp
  vregs  : List (BitVec 2048)
  vl     : Nat
  step   : Nat
  order  : Nat
  pend   : List PendWrite
  wait   : Option WaitSt
  /-- The beat a launch waits for (R597), when it is beat-timed. -/
  launchAt : Option (BitVec 64)
  /-- Die of the core that issued that launch (R170). -/
  launchDie : Nat
  /-- Asynchronous operations outstanding (R548). -/
  outstanding : Nat
  /-- A SYNC has been issued and not published (R580). -/
  syncing : Bool
  /-- Address of the long word being issued, for WR_ID (R572), and whether some of its slots have been issued. -/
  word   : BitVec 44
  mid    : Bool
  /-- Order number of the first write that the word under way issues (R568). -/
  mark   : Nat
  /-- The launch argument of a pending start (R597). -/
  arg    : Word
  deriving DecidableEq, Repr

/-- An asynchronous operation in its queue (R569): the thread, its completion counter, its status, the WR_ID of its
entry, whether its COLL work still runs, and the tags of the remote transactions it waits for (R552). -/
structure AsyncOp where
  thread : Nat
  cnt    : Nat
  status : Nat
  wrId   : BitVec 32
  coll   : Bool
  /-- Its completion entry has been owed already (a COLL's WR entry). -/
  owed   : Bool
  remote : List Nat
  deriving DecidableEq, Repr

/-- What a remote transaction of a thread is for (R552). -/
inductive RemoteFor where
  /-- A COPY's read, with the global address its data goes to, and a COPY's write. -/
  | copyTo (dst : Nat)
  | copied
  /-- A COLL chunk's source, with the member slot; one expert slot of a COMBINE chunk. -/
  | source (slot c : Nat)
  | rows (slot c : Nat)
  /-- The landing of a chunk, with the status of its result. -/
  | land (c status : Nat)
  deriving DecidableEq, Repr

/-- A remote transaction of a thread (R552): its tag, request packet, purpose, the WR_ID of its operation, tries and the
tick of the last try. -/
structure RemoteTx where
  tag   : BitVec 12
  /-- It waits for a free tag (R213), and how its operation knows it. -/
  held  : Bool
  handle : Nat
  pkt   : Packet
  use   : RemoteFor
  wrId  : BitVec 32
  tries : Nat
  tick  : Nat
  deriving DecidableEq, Repr

/-- A completion entry waiting for room (R573). -/
structure CqEntry where
  bytes : List Byte
  deriving DecidableEq, Repr

/-- A segment of sparse work (R508): its row, how many updates it holds and their exact sum. The first segment of a
lane's queue is the one that runs. -/
structure Segment where
  /-- The request it belongs to. -/
  req     : Nat
  row     : Nat
  updates : Nat
  recs    : List Rec
  deriving DecidableEq, Repr

/-- A core beside its page (R569, R575, R587, R508, R503). -/
structure CoreSt where
  queues   : List (List AsyncOp)
  descs    : Map (List Byte)
  descPend : Map (Nat × List Byte)
  objs     : Map (BitVec 32 × BitVec 32)
  lanes    : List (List Segment)
  inReset  : Bool
  cqWait   : List (Nat × CqEntry)
  remote   : List (Nat × RemoteTx)
  deriving DecidableEq, Repr

/-- An adapter transaction (R233). -/
structure AdpTx where
  tag   : BitVec 12
  /-- It waits for a free tag (R213). -/
  held  : Bool
  pkt   : Packet
  /-- For landings: the status of the result that lands. -/
  status : Nat
  /-- For COLL source reads: the chunk; for landings: the chunk; otherwise 0. -/
  chunk : Nat
  landing : Bool
  /-- A write split to fit MAXP: what its pieces share, its bytes, the slots or rows it lands of a ROUTE chunk, and the
  counts it lands (R212, R536, R540). -/
  wid   : Nat
  total : Nat
  rows  : Nat
  counts : List Byte
  tries : Nat
  tick  : Nat
  deriving DecidableEq, Repr

/-- The adapter transport state of one queue pair (R231 to R236). -/
structure AdpQ where
  sqHead : Nat
  sqTail : Nat
  cqHead : Nat
  cqTail : Nat
  /-- The work request under way: opcode, WR_ID, status so far, bytes moved; and the bytes read of it, or of the next one. -/
  cur    : Option (Nat × BitVec 32 × Nat × Nat)
  wr     : List Byte
  txs    : List AdpTx
  /-- Completion entries not yet written: (status, kind, WR_ID, info). -/
  done   : List (Nat × Nat × BitVec 32 × BitVec 32)
  eyespot : Map (List Byte)
  deriving DecidableEq, Repr

/-! ### Faults (14) -/

/-- A collector entry (R701), with the ticks its timers run from (R704, R713, R715). -/
structure FEntry where
  unit     : BitVec 32
  reporter : BitVec 32
  first    : BitVec 64
  last     : BitVec 64
  count    : Nat
  state    : Nat
  cls      : Nat
  injected : Bool
  recov    : Nat
  firstBit : Nat
  /-- Tick of the last report; of the last DEGRADED or FENCED report, from which the quiet end is counted (R713);
  and the tick from which the decay of R715 is counted. -/
  lastTick : Nat
  /-- Tick at which the entry took its slot (R703). -/
  slotTick : Nat
  quietFrom : Option Nat
  /-- Its check under way, and whether it is an automatic exit's (R714, R716). -/
  checking : Option Bool
  decayFrom : Nat
  /-- The notice window: the tick it opened, whether its notice has been sent, whether reports followed. -/
  window   : Option (Nat × Bool × Bool)
  deriving DecidableEq, Repr

/-- A report as its entry takes it: reporting unit, bit, class, and whether it was injected. -/
structure Report where
  reporter : BitVec 32
  bit      : Nat
  cls      : Nat
  injected : Bool
  deriving DecidableEq, Repr

/-- The collector of one die. -/
structure Collector where
  /-- The coalescing table by slot; a slot not listed is FREE. -/
  entries : Map FEntry
  /-- Units fenced on this die, entry or not (R692, R718). -/
  fenced  : List (BitVec 32)
  /-- Units without an entry whose check FLT_CLEAR has started (R716, R718). -/
  bare    : List (BitVec 32)
  /-- The tick at which each check under way started (R714). -/
  trials  : List (BitVec 32 × Nat)
  /-- The reports of tick `heardAt`, by unit, beside the unit's entry before the first of them (R703). -/
  heardAt : Nat
  heard   : List (BitVec 32 × Option FEntry × List Report)
  /-- Tick and reporter of the report that FLT_FATAL_LOG holds (R703, R719). -/
  fatalBy : Option (Nat × BitVec 32)
  /-- The armed injection (R723): unit, beat, bit, data. -/
  inj     : Option (BitVec 32 × BitVec 64 × Nat × Bool)
  /-- Units of which an injection corrupts the next ECC-protected word or flit (R723). -/
  hurt    : List (BitVec 32)
  deriving DecidableEq, Repr

/-- The fault summary in the making (R708, R709): the bits of own nodes seen at fault, each with the beat of its report, and child
maps by CHUNK and node. -/
structure Summary where
  own   : List (Nat × Nat)
  kids  : List (BitVec 32 × BitVec 20 × List Byte)
  /-- The beat that ended the last period sent. -/
  last  : Option Nat
  deriving DecidableEq, Repr

/-! ### Control complex, security, power (15, 16) -/

/-- The fuse array (R752). -/
structure Fuses where
  lifecycle : BitVec 3
  debugDisable : Bool
  grade     : BitVec 16
  svn       : Nat
  keyHash   : List (List Byte)
  keyRevoke : BitVec 4
  dbgHash   : List (List Byte)
  dbgRevoke : BitVec 2
  uds       : Option (List Byte)
  serial    : BitVec 64
  macBase   : BitVec 48
  deriving DecidableEq, Repr

/-- A SEC command under way (R760): its opcode, argument, the outcome it will report, and for a quote the message
as latched (R766). -/
structure SecRun where
  op   : Nat
  arg  : Word
  res  : Nat
  data : List Byte
  deriving DecidableEq, Repr

/-- A request of the signing and verifying engine (R761): a signature of the audit head, a SEC command, or the check of a debug token
with the challenge that its SUBMIT consumed. -/
inductive SecJob where
  | sign
  | command
  | token (bytes : List Byte) (challenge : Option (List Byte))
  deriving DecidableEq, Repr

/-- Security-block state beside the SEC page. -/
structure SecSt where
  fuses    : Fuses
  /-- Lifecycle code latched at power-on (R753), and GRADE as sensed then. -/
  latched  : Nat
  grade    : BitVec 16
  /-- The 57-byte identity secret, derived at power-on (R753). -/
  secret   : List Byte
  run      : Option SecRun
  /-- The audit-head message being signed (R119, R120). -/
  signMsg  : Option (List Byte)
  challenge : Bool
  /-- The engine's requests in the order it serves them, each with the tick of its arrival (R761). -/
  jobs     : List (Nat × SecJob)
  /-- KEY_SLOT of the running stage-1 image, when one booted (R760 REVOKE_KEY). -/
  bootSlot : Option Nat
  deriving DecidableEq, Repr

/-- A hart: running, and the address its last start set (R731); `fault` once it took an access fault (R730, R733, R734). -/
structure Hart where
  run   : Bool
  start : BitVec 64
  fault : Bool
  deriving DecidableEq, Repr

/-- Control-complex state beside the CTL page. -/
structure CtlSt where
  harts   : List Hart
  rxFifo  : List Byte
  txFifo  : List Byte
  spi     : Option Word
  i3cIdx  : Byte
  i3cArm  : Bool
  ir      : Byte
  dr      : Word
  /-- What the last REG_ACCESS read returned (R749). -/
  lastRead : Word
  scan    : List Bool
  wdog    : List (Nat × Bool)
  /-- Management port k is paused until this tick (R742). -/
  pause   : List (Option Nat)
  /-- Last-level cache as RAM (R735). -/
  llc     : Memory
  /-- Boot flash as the SPI controller sees it. -/
  flash   : Memory
  deriving DecidableEq, Repr

/-- Power and pins (16). -/
structure PwrSt where
  level    : Nat
  railStep : Nat
  porLow   : Bool
  tripLow  : Bool
  straps   : BitVec 3
  /-- Tick at which the last reset sequence began its last step, and the tick of the last warm reset's trigger. -/
  resetAt  : Nat
  warmAt   : Option Nat
  /-- Tick at which the last throttle window ended, or the last reset completed (R791). -/
  winAt    : Nat
  deriving DecidableEq, Repr

/-- Memory-controller state beside the HBM and RMEM pages. -/
structure MemSt where
  /-- Uncorrectable errors in the present window, by stack × 32 + pseudo-channel (R667). -/
  pcErr    : Map Nat
  /-- Bursts that each pseudo-channel's scrubber has read, and words that each cluster's has (R663, R664). -/
  hbmScrub : Map Nat
  rmScrub  : Map Nat
  /-- Tick at which each stack last came to read READY: the first error window begins there (R667). -/
  ready    : Map Nat
  /-- Bursts found uncorrectable and not written since (R666). -/
  bad      : List Nat
  deriving DecidableEq, Repr

/-- Telemetry of one port and VC in the present window and map interval (R312, R316). -/
structure TelStat where
  maxDepth : Nat
  maxSoj   : Nat
  drops    : Nat
  mapSoj   : Nat
  deriving DecidableEq, Repr

/-- Telemetry state beside the TEL pages. -/
structure TelSt where
  stats   : Map TelStat
  /-- For each die: a block or map is being written, and a block was skipped since the last one written. -/
  writing : List Bool
  skipped : List Bool
  /-- Beat at which the present window began, and the present map interval. -/
  winBeat : BitVec 64
  mapBeat : BitVec 64
  /-- Snapshot of each die being written (R165); where its records lie, and how many they are. -/
  snap    : List Bool
  /-- Dies whose levels have not reached die 0 for the map that closes next (R320). -/
  mapLost : List Bool
  snapAt  : Map (Nat × Nat)
  deriving DecidableEq, Repr

/-- What leaves the device, in order: the model's own trace, not a register of the manual (log 9). -/
inductive Emit where
  /-- A flit on a port (R194); `Emit.flitBytes` gives its 256 bytes. -/
  | flit (p : Nat) (h : FlitHdr) (b : FlitBody)
  | frame (p : Nat) (bytes : List Byte)
  | pause (p : Nat) (prio : Nat) (quanta : BitVec 16)
  | mgmtFrame (k : Nat) (bytes : List Byte)
  | spi (cmd : Word) (data : List Byte)
  | uart (b : Byte)
  | i3c (bytes : List Byte)
  | ibi (health : Byte)
  | jtag (w : Word)
  deriving DecidableEq, Repr

/-- Derived signals, recomputed after every command: HEALTH (R746), CTL_IRQ_PEND and the interrupt lines (R736), and
FATAL_N (R785). -/
structure Signals where
  health : Byte
  irq    : BitVec 64
  /-- External interrupt lines of the 16 harts, machine and supervisor level (R736). -/
  meip   : BitVec 16
  seip   : BitVec 16
  fatalN : Bool
  deriving DecidableEq, Repr

/-! ### The device -/

/-- Everything but the queue of waiting commands. -/
structure Dev where
  /-- BEAT_NOW (R173) and elapsed beat ticks (R151). -/
  beat     : BitVec 64
  ticks    : Nat
  /-- Live registers, the holding latches of R78, and the instars (R84). -/
  live     : RegFile
  latches  : RegFile
  /-- Addresses of the live registers that pair commands have written as pairs (R78, log 60). -/
  pairs    : List Nat
  staged   : RegFile
  active   : RegFile
  number   : BitVec 32
  previous : Option Instar
  retiring : Option (Instar × Nat)
  molt     : Option MoltSt
  /-- Table entries whose memory is damaged until the next molt rewrites it: the die of the copy, the storage key and the
  bytes (R288, R320, R445). -/
  damaged  : List (Nat × Nat × Nat)
  audit    : List AuditRec
  /-- HBM, working SRAM and reduction memory by local address (R56). -/
  mem      : Memory
  memSt    : MemSt
  time     : TimeSt
  alarms   : List Alarm
  releases : List Rel
  ports    : Map Port
  /-- Uncorrectable codewords of each lane in its window, by group × 8 + logical lane (R187). -/
  laneErr  : Map Nat
  /-- Packets checked at the link and not yet acted on (R223). -/
  arrived  : List Arrived
  mcasts   : List Mcast
  /-- Packets formed inside that wait for their partition owner's cells (R361). -/
  stalled  : List Stalled
  /-- Answers that this device owes itself, taken as the beat ends: requests formed here that have no route, or whose port is fenced
  (R255, R283). -/
  ownAnswers : List Packet
  allocs   : List Alloc
  /-- Lossless credit granted and unused by port-VC owner, die × 1,024 + index (R344), and lost cells by
  die × 9 + region (R372). -/
  credit   : Map Nat
  lost     : Map Nat
  /-- Regions whose shared cells may have moved in this beat, and those that stood in CFG_ERR when last judged, as die × 9 + region
  (R348, R349, R374). -/
  touched  : List Nat
  cfgErr   : List Nat
  /-- Cells no longer charged to an owner although their return was refused, by `ownerKey` (R372). -/
  uncharged : Map Nat
  parked   : List Parked
  groups   : Map GroupSt
  ctxs     : List Ctx
  /-- Chunks of open epochs whose result has been released here: what their ACK said (R416, R425). -/
  released : List (CtxKey × Nat × List Nat)
  /-- Chunks whose result has landed at a member slot, by COL_MEMBER number (R416, R425). -/
  gotten   : List (CtxKey × Nat)
  /-- Chunks told CHUNK_LOST in this beat (R444). -/
  lostNow  : List CtxKey
  /-- ROUTE chunks lost with their root's home core: the members here replay their DISPATCH at the end of the beat (R542). -/
  replays  : List CtxKey
  inputs   : List Input
  works    : List Work
  routeInfo : List RouteInfo
  batches  : List BatchSlot
  tableWorks : List TableWork
  gathers  : List GatherWait
  threads  : Map Thread
  cores    : Map CoreSt
  adapters : Map AdpQ
  collectors : List Collector
  summary  : Summary
  fatal    : Bool
  tel      : TelSt
  sec      : SecSt
  ctl      : CtlSt
  pwr      : PwrSt
  /-- Counter of identifiers handed out, and of free values used (log 4). -/
  nextId   : Nat
  fresh    : Nat
  sent     : List Emit
  sig      : Signals
  deriving DecidableEq, Repr

/-- The state: the device and the commands waiting, first in, first out. -/
structure State extends Dev where
  pending : List Instr
  deriving DecidableEq, Repr

/-! ### Why a step can stop -/

/-- Faults. The manual stops the block on no command: an access it forbids is dropped and counted (R62), and a
failing operation completes with a status (R18). So there is no fault to raise. -/
inductive Fault where
  deriving DecidableEq, Repr

/-- Refusals. -/
inductive Refusal where
  /-- A command that has no meaning yet, by its mnemonic. Raised by Machine/Dispatch.lean only. Safe: nothing can be
  proved of what the command does. -/
  | notModelled (mnemonic : String)
  deriving DecidableEq, Repr

/-! ### Reset -/

/-- Fuses of an unprogrammed part of grade YQ-CV512-A (log 3: the manual gives no fuse values). -/
def Fuses.blank : Fuses :=
  { lifecycle := 0, debugDisable := false, grade := 1, svn := 0,
    keyHash := List.replicate 4 (List.replicate 64 0), keyRevoke := 0,
    dbgHash := List.replicate 2 (List.replicate 64 0), dbgRevoke := 0,
    uds := none, serial := 0, macBase := 0 }

/-- Security block at reset, over the fuses it has. -/
def SecSt.reset (f : Fuses) : SecSt :=
  { fuses := f, latched := 0, grade := f.grade, secret := [], run := none, signMsg := none, challenge := false, jobs := [], bootSlot := none }

/-- Control complex at reset (R731): hart 0 is to start, the others are held. -/
def CtlSt.reset (flash : Memory) : CtlSt :=
  { harts := List.replicate 16 { run := false, start := 0, fault := false }, rxFifo := [], txFifo := [],
    spi := none, i3cIdx := 0, i3cArm := false, ir := 0x02, dr := 0, lastRead := 0, scan := [],
    wdog := List.replicate 4 (0, false), pause := [none, none], llc := [], flash := flash }

/-- Power state with PWR_ON_RESET_N low. -/
def PwrSt.reset : PwrSt :=
  { level := 0, railStep := 4, porLow := true, tripLow := false, straps := 0, resetAt := 0, warmAt := none, winAt := 0 }

/-- Fabric time at reset: FREE, BEAT_REF present (R130). -/
def TimeSt.reset : TimeSt :=
  { refLost := false, holdoverEnd := none, t1 := none, lastReq := 0, good := 0, bad := 0, first := false,
    phase := 0, steer := 0 }

def Collector.reset : Collector := 
  { entries := [], fenced := [], bare := [], trials := [], heardAt := 0, heard := [], fatalBy := none, inj := none, hurt := [] }

def TelSt.reset : TelSt :=
  { stats := [], writing := List.replicate 4 false, skipped := List.replicate 4 false, winBeat := 0, mapBeat := 0,
    snap := List.replicate 4 false, mapLost := List.replicate 4 false, snapAt := [] }

/-- The device in power-on reset, over the fuses and the board's flash: every register at its reset value, memory
zero (R672), no instar but 0 (R83). -/
def Dev.powerOn (f : Fuses) (flash : Memory) : Dev :=
  { beat := 0, ticks := 0, live := [], latches := [], pairs := [], staged := [], active := [], number := 0, previous := none,
    retiring := none, molt := none, damaged := [], audit := [], mem := [], memSt := { pcErr := [], hbmScrub := [], rmScrub := [], ready := [], bad := [] },
    time := TimeSt.reset, alarms := [], releases := [], ports := [], laneErr := [], arrived := [], mcasts := [], stalled := [],
    ownAnswers := [], allocs := [], credit := [], lost := [], touched := [], cfgErr := [], uncharged := [], parked := [], groups := [], ctxs := [], released := [], gotten := [], lostNow := [], replays := [], inputs := [], works := [], routeInfo := [],
    batches := [], tableWorks := [], gathers := [], threads := [], cores := [], adapters := [],
    collectors := List.replicate 4 Collector.reset, summary := { own := [], kids := [], last := none }, fatal := false,
    tel := TelSt.reset, sec := SecSt.reset f, ctl := CtlSt.reset flash, pwr := PwrSt.reset, nextId := 1, fresh := 0,
    sent := [], sig := { health := 0, irq := 0, meip := 0, seip := 0, fatalN := true } }

/-- The block right after power-on reset: PWR_ON_RESET_N is still low, and the first event is its rising edge
(POWER_ON_RESET_RELEASE, log 2). -/
def State.reset : State := { toDev := Dev.powerOn Fuses.blank [], pending := [] }

end Sys2Proof.Machine
end

