-- ==== Sys2Proof/Machine/Bits.lean ====
section
/-! DEFINITION. Bit-field, byte-order and saturation helpers shared by every block (R11 to R14, R16). -/

namespace Sys2Proof.Machine

/-- Bits `hi:lo` of a number. -/
def bits (n hi lo : Nat) : Nat := (n / 2 ^ lo) % 2 ^ (hi + 1 - lo)

/-- Bit `i` of a number. -/
def bit (n i : Nat) : Bool := (n / 2 ^ i) % 2 == 1

/-- The number with bits `hi:lo` replaced by `v`. -/
def setBits (n hi lo v : Nat) : Nat :=
  n / 2 ^ (hi + 1) * 2 ^ (hi + 1) + (v % 2 ^ (hi + 1 - lo)) * 2 ^ lo + n % 2 ^ lo

/-- Field `hi:lo` of a register word. -/
def fld (w : Word) (hi lo : Nat) : Nat := bits w.toNat hi lo

/-- A register word with field `hi:lo` replaced. -/
def setFld (w : Word) (hi lo v : Nat) : Word := BitVec.ofNat 64 (setBits w.toNat hi lo v)

/-- One bit of a register word. -/
def flag (w : Word) (i : Nat) : Bool := bit w.toNat i

/-- 1 for true. -/
def b2n (b : Bool) : Nat := if b then 1 else 0

/-- The word with ones in bits `hi:lo`. -/
def ones (hi lo : Nat) : Word := BitVec.ofNat 64 ((2 ^ (hi + 1 - lo) - 1) * 2 ^ lo)

/-- The least significant `n` bytes of a number, lowest first (R11). -/
def leBytes : Nat → Nat → List Byte
  | 0, _ => []
  | n + 1, v => BitVec.ofNat 8 v :: leBytes n (v / 256)

/-- The number that little-endian bytes hold (R11). -/
def leNat : List Byte → Nat
  | [] => 0
  | b :: t => b.toNat + 256 * leNat t

/-- The number that big-endian bytes hold, continued from `acc`. -/
def beNat (acc : Nat) : List Byte → Nat
  | [] => acc
  | b :: t => beNat (acc * 256 + b.toNat) t

/-- The bytes `off` to `off + n - 1` of a list, zeros beyond its end. -/
def slice (l : List Byte) (off n : Nat) : List Byte :=
  let t := (l.drop off).take n
  t ++ List.replicate (n - t.length) 0

/-- The number in bytes `off` to `off + n - 1`, little-endian. -/
def leAt (l : List Byte) (off n : Nat) : Nat := leNat (slice l off n)

/-- Pad or cut to exactly `n` bytes. -/
def fit (l : List Byte) (n : Nat) : List Byte := slice l 0 n

/-- The list with the bytes at `off` replaced by `v` (the list is long enough). -/
def patch (l : List Byte) (off : Nat) (v : List Byte) : List Byte :=
  l.take off ++ v ++ l.drop (off + v.length)

/-- A `w`-bit pattern read as a two's complement integer. -/
def sext (w n : Nat) : Int :=
  let m := n % 2 ^ w
  if m < 2 ^ (w - 1) then (m : Int) else (m : Int) - (2 ^ w : Nat)

/-- An integer as a `w`-bit two's complement pattern. -/
def wrapN (w : Nat) (x : Int) : Nat := (x % ((2 ^ w : Nat) : Int)).toNat

/-- An integer limited to the signed range of `w` bits. -/
def clampS (w : Nat) (x : Int) : Int :=
  let hi : Int := (2 ^ (w - 1) : Nat) - 1
  if x > hi then hi else if x < -hi - 1 then -hi - 1 else x

/-- `a + n`, saturating at the largest `w`-bit number (R121, R52). -/
def satAdd (w a n : Nat) : Nat := min (a + n) (2 ^ w - 1)

/-- The numbers 0 to `n - 1` for which `p` holds. -/
def setOf (n : Nat) (p : Nat → Bool) : List Nat := (List.range n).filter p

/-- The positions of the ones of an `n`-bit mask, ascending. -/
def maskList (n m : Nat) : List Nat := setOf n (bit m)

/-- The mask with ones at the listed positions. -/
def listMask (l : List Nat) : Nat := l.foldl (fun m i => m ||| 2 ^ i) 0

/-- The first element with the least key. -/
def minBy {α : Type} (key : α → Nat) : List α → Option α
  | [] => none
  | a :: t =>
    match minBy key t with
    | none => some a
    | some b => if key b < key a then some b else some a

/-- Replace the elements for which `p` holds. -/
def updWhere {α : Type} (p : α → Bool) (f : α → α) (l : List α) : List α := l.map fun a => if p a then f a else a

/-- Insert before the first element that `before a` holds of. -/
def insertBy {α : Type} (before : α → α → Bool) (a : α) : List α → List α
  | [] => [a]
  | b :: t => if before a b then a :: b :: t else b :: insertBy before a t

/-- Stable sort: `before a b` when a belongs strictly before b. -/
def sortBy {α : Type} (before : α → α → Bool) (l : List α) : List α := l.foldl (fun acc a => insertBy before a acc) []

/-- Ceiling of a quotient. -/
def ceilDiv (a b : Nat) : Nat := (a + b - 1) / b

/-- Floor of the binary logarithm, 0 for 0. -/
def log2 (n : Nat) : Nat := Nat.log2 n

end Sys2Proof.Machine
end

