-- ==== Sys2Proof/Machine/Arith.lean ====
section
/-! DEFINITION. Number formats, exact accumulation and rounding (chapter 09: R450 to R476), and the fabric hash
(R394). Every value is decoded exactly, combined exactly, and rounded once. -/

namespace Sys2Proof.Machine

/-- The fabric hash h over a list of 64-bit words (R394). -/
def fabricHash (ws : List Nat) : Nat :=
  ws.foldl (fun x w => let y := ((x ^^^ (w % 2 ^ 64)) * 0xC3A51E7B90D24F61) % 2 ^ 64; y ^^^ (y / 2 ^ 29))
    0x7A31D2C50B8E64F9

/-! ### Exact values -/

/-- A decoded element: a NaN, an infinity, or exactly ± m × 2^e (m = 0: a signed zero). -/
inductive Num where
  | nan
  | inf (neg : Bool)
  | num (neg : Bool) (m : Nat) (e : Int)
  deriving DecidableEq, Repr

/-- Signed numerator of a finite value when its exponent is brought down to `e0`. -/
def Num.intAt (e0 : Int) : Num → Int
  | .num neg m e => (if neg then -1 else 1) * (m * 2 ^ (e - e0).toNat : Nat)
  | _ => 0

/-- The finite value of a signed integer times 2^e; a zero takes the sign given. -/
def Num.ofInt (x : Int) (e : Int) (zneg : Bool) : Num := .num (if x = 0 then zneg else decide (x < 0)) x.natAbs e

/-- Exact negation. -/
def Num.neg : Num → Num
  | .nan => .nan
  | .inf n => .inf (!n)
  | .num n m e => .num (!n) m e

def Num.isNeg : Num → Bool
  | .nan => false
  | .inf n => n
  | .num n _ _ => n

def Num.isZero : Num → Bool
  | .num _ 0 _ => true
  | _ => false

/-- Exact sum; a zero sum is −0 only when both operands are −0 (the nearest-even rule of IEEE 754). -/
def Num.add : Num → Num → Num
  | .nan, _ | _, .nan => .nan
  | .inf a, .inf b => if a = b then .inf a else .nan
  | .inf a, _ | _, .inf a => .inf a
  | .num n1 m1 e1, .num n2 m2 e2 =>
    let e := min e1 e2
    Num.ofInt (Num.intAt e (.num n1 m1 e1) + Num.intAt e (.num n2 m2 e2)) e
      (decide (m1 = 0) && decide (m2 = 0) && n1 && n2)

/-- Exact product. -/
def Num.mul : Num → Num → Num
  | .nan, _ | _, .nan => .nan
  | .inf a, b | b, .inf a => if b.isZero then .nan else .inf (a != b.isNeg)
  | .num n1 m1 e1, .num n2 m2 e2 => .num (n1 != n2) (m1 * m2) (e1 + e2)

/-- Numeric order with −0 below +0 (R472); `a < b`, neither a NaN. -/
def Num.lt (a b : Num) : Bool :=
  match a, b with
  | .nan, _ | _, .nan => false
  | .inf x, .inf y => x && !y
  | .inf x, _ => x
  | _, .inf y => !y
  | .num n1 m1 e1, .num n2 m2 e2 =>
    let e := min e1 e2
    let x := Num.intAt e (.num n1 m1 e1); let y := Num.intAt e (.num n2 m2 e2)
    decide (x < y) || (decide (x = y) && decide (m1 = 0) && n1 && !n2)

/-! ### Floating-point formats (R451) -/

/-- A binary format: exponent and mantissa bits, bias, and its special values: 0 IEEE infinities and NaNs, 1 only
S.1…1.1…1 is NaN, 2 none. -/
structure FF where
  eb : Nat
  mb : Nat
  bias : Nat
  special : Nat

def ff64 : FF := ⟨11, 52, 1023, 0⟩
def ff32 : FF := ⟨8, 23, 127, 0⟩
def ff16 : FF := ⟨5, 10, 15, 0⟩
def ffB16 : FF := ⟨8, 7, 127, 0⟩
def ffE4M3 : FF := ⟨4, 3, 7, 1⟩
def ffE5M2 : FF := ⟨5, 2, 15, 0⟩
def ffE3M2 : FF := ⟨3, 2, 3, 2⟩
def ffE2M3 : FF := ⟨2, 3, 1, 2⟩
def ffE2M1 : FF := ⟨2, 1, 1, 2⟩

/-- The scalar floating-point format of a FMT code. -/
def fltOf (fmt : Nat) : Option FF :=
  match fmt with
  | 0x00 | 0x01 | 0x02 => some ff64
  | 0x03 => some ff32
  | 0x04 => some ff16
  | 0x05 => some ffB16
  | 0x06 => some ffE4M3
  | 0x07 => some ffE5M2
  | _ => none

/-- The element format of an MX code; MXINT8 has none. -/
def mxOf (fmt : Nat) : Option FF :=
  match fmt with
  | 0x08 => some ffE4M3
  | 0x09 => some ffE5M2
  | 0x0A => some ffE3M2
  | 0x0B => some ffE2M3
  | 0x0C => some ffE2M1
  | _ => none

def isMx (fmt : Nat) : Bool := decide (8 ≤ fmt) && decide (fmt ≤ 13)
def isInt (fmt : Nat) : Bool := decide (14 ≤ fmt) && decide (fmt ≤ 21)

/-- Bits of an MX element (R452). -/
def mxBits (fmt : Nat) : Nat := match fmt with | 0x0A | 0x0B => 6 | 0x0C => 4 | _ => 8

/-- Bytes of an element, or of a block of 32 for MX formats (R451); 0 for a reserved code. -/
def elemBytes (fmt : Nat) : Nat :=
  match fmt with
  | 0x00 | 0x01 | 0x02 | 0x14 | 0x15 | 0x16 => 8
  | 0x03 | 0x12 | 0x13 => 4
  | 0x04 | 0x05 | 0x10 | 0x11 => 2
  | 0x06 | 0x07 | 0x0E | 0x0F | 0x1A => 1
  | 0x08 | 0x09 | 0x0D => 33
  | 0x0A | 0x0B => 25
  | 0x0C => 17
  | 0x17 | 0x18 => 12
  | 0x19 => 16
  | _ => 0

/-- Bits and signedness of an integer format. -/
def intWidth (fmt : Nat) : Nat := 8 * elemBytes fmt
def intSigned (fmt : Nat) : Bool := fmt % 2 == 0

/-- Key bytes of a key and payload format: 4, 4, 8, 8. -/
def keyBytes (fmt : Nat) : Nat := match fmt with | 0x16 | 0x17 => 4 | _ => 8

/-- Elements in `len` bytes: 32 for each MX block. -/
def elemCount (fmt len : Nat) : Nat := len / elemBytes fmt * (if isMx fmt then 32 else 1)

/-- R453: the length is a whole number of elements or blocks, and at most 4,096 elements. -/
def lenOk (fmt len : Nat) : Bool :=
  decide (elemBytes fmt ≠ 0) && decide (len % elemBytes fmt = 0) && decide (elemCount fmt len ≤ 4096)

/-- Decode one floating-point element exactly (R454); `flush` turns a subnormal into a zero of its sign. -/
def FF.dec (f : FF) (flush : Bool) (n : Nat) : Num :=
  let s := bit n (f.eb + f.mb)
  let e := bits n (f.eb + f.mb - 1) f.mb
  let m := n % 2 ^ f.mb
  if f.special = 0 ∧ e = 2 ^ f.eb - 1 then (if m = 0 then .inf s else .nan)
  else if f.special = 1 ∧ e = 2 ^ f.eb - 1 ∧ m = 2 ^ f.mb - 1 then .nan
  else if e = 0 then .num s (if flush then 0 else m) (1 - (f.bias : Int) - f.mb)
  else .num s (2 ^ f.mb + m) ((e : Int) - f.bias - f.mb)

/-- Largest finite magnitude as mantissa and exponent. -/
def FF.maxM (f : FF) : Nat := if f.special = 1 then 2 ^ (f.mb + 1) - 2 else 2 ^ (f.mb + 1) - 1
def FF.maxE (f : FF) : Int :=
  (if f.special = 0 then 2 ^ f.eb - 2 else 2 ^ f.eb - 1 : Nat) - (f.bias : Int) - f.mb
/-- Exponent of the subnormals' unit. -/
def FF.minE (f : FF) : Int := 1 - (f.bias : Int) - f.mb

/-- Encode mantissa `k` and exponent `q` (`k < 2^(mb+1)`, `q ≥ minE`, in range). -/
def FF.enc (f : FF) (neg : Bool) (k : Nat) (q : Int) : Nat :=
  let sign := b2n neg * 2 ^ (f.eb + f.mb)
  if k < 2 ^ f.mb then sign + k else sign + (q + f.bias + f.mb).toNat * 2 ^ f.mb + (k - 2 ^ f.mb)

/-- The canonical NaN (R451). -/
def FF.nan (f : FF) : Nat :=
  if f.special = 0 then (2 ^ f.eb - 1) * 2 ^ f.mb + 2 ^ (f.mb - 1) else 2 ^ (f.eb + f.mb) - 1

/-- The largest magnitude and infinity with a sign. -/
def FF.largest (f : FF) (neg : Bool) : Nat := f.enc neg f.maxM f.maxE
def FF.infinity (f : FF) (neg : Bool) : Nat := b2n neg * 2 ^ (f.eb + f.mb) + (2 ^ f.eb - 1) * 2 ^ f.mb

/-- Rounding modes of TOP_ARITH.ROUND (R464, R488), the stochastic one with its 32-bit draw. -/
inductive Mode where
  | rne | rz | rp | rm
  | sr (u : Nat)
  deriving DecidableEq, Repr

/-- The remainder `rem` of `2^sh` rounds away from zero. -/
def Mode.up (mode : Mode) (neg : Bool) (k rem sh : Nat) : Bool :=
  match mode with
  | .rne => decide (2 * rem > 2 ^ sh) || (decide (2 * rem = 2 ^ sh) && k % 2 == 1)
  | .rz => false
  | .rp => !neg && decide (rem ≠ 0)
  | .rm => neg && decide (rem ≠ 0)
  | .sr u => decide (u < rem * 2 ^ 32 / 2 ^ sh)

/-- Round m × 2^e, m > 0, to the format with unbounded exponent: mantissa and exponent (R464, R468). -/
def FF.round (f : FF) (mode : Mode) (neg : Bool) (m : Nat) (e : Int) : Nat × Int :=
  let q : Int := max (e + (log2 m + 1 : Nat) - (f.mb + 1 : Nat)) f.minE
  if q ≤ e then (m * 2 ^ (e - q).toNat, q)
  else
    let sh := (q - e).toNat
    let k0 := m / 2 ^ sh
    let k := k0 + b2n (mode.up neg k0 (m % 2 ^ sh) sh)
    if k = 2 ^ (f.mb + 1) then (2 ^ f.mb, q + 1) else (k, q)

/-- The rounded value lies beyond the largest magnitude. -/
def FF.beyond (f : FF) (k : Nat) (q : Int) : Bool :=
  decide (q > f.maxE) || (decide (q = f.maxE) && decide (k > f.maxM))

/-- The value of an overflow (R466); `inf`: of step 2 or 3 of R463. SAT acts on the FP8 formats only. -/
def FF.overflow (f : FF) (fp8 sat : Bool) (mode : Mode) (neg inf : Bool) : Nat :=
  let big := if f.special = 0 then f.infinity neg else f.nan
  if fp8 && sat then f.largest neg
  else if inf then big
  else
    match mode with
    | .rne | .sr _ => big
    | .rz => f.largest neg
    | .rp => if neg then f.largest true else big
    | .rm => if neg then big else f.largest false

/-- Round a nonzero finite value into the format, with overflow and output flush (R463 step 5, R466, R467). -/
def FF.fin (f : FF) (fp8 sat flush : Bool) (mode : Mode) (neg : Bool) (m : Nat) (e : Int) : Nat :=
  let r := f.round mode neg m e
  if f.beyond r.1 r.2 then f.overflow fp8 sat mode neg false
  else if flush ∧ r.1 < 2 ^ f.mb then b2n neg * 2 ^ (f.eb + f.mb)
  else f.enc neg r.1 r.2

/-- Round any value to nearest-even in the format, infinities kept, canonical NaN. -/
def FF.rne (f : FF) : Num → Nat
  | .nan => f.nan
  | .inf n => f.overflow false false .rne n true
  | .num n 0 _ => b2n n * 2 ^ (f.eb + f.mb)
  | .num n (m + 1) e => f.fin false false false .rne n (m + 1) e

/-- A value rounded to nearest-even in the format, as a value again. -/
def FF.roundNum (f : FF) (x : Num) : Num := f.dec false (f.rne x)

/-! ### Decoding a payload (R452, R454) -/

/-- Element `i` of an MX block held in `w` bits from byte 1 on. -/
def mxElem (block : List Byte) (w i : Nat) : Nat := leNat (block.drop 1) / 2 ^ (i * w) % 2 ^ w

/-- The 32 elements of an MX block. -/
def decBlock (fmt : Nat) (flush : Bool) (block : List Byte) : List Num :=
  let s := (block.getD 0 0).toNat
  (List.range 32).map fun i =>
    if s = 255 then .nan
    else
      let n := mxElem block (mxBits fmt) i
      let v := match mxOf fmt with
        | some f => f.dec flush n
        | none => Num.ofInt (sext 8 n) (-6) false
      v.mul (.num false 1 ((s : Int) - 127))

/-- One scalar element as a value. -/
def decElem (fmt : Nat) (flush : Bool) (n : Nat) : Num :=
  match fltOf fmt with
  | some f => f.dec flush n
  | none => if intSigned fmt then Num.ofInt (sext (intWidth fmt) n) 0 false else .num false (n % 2 ^ intWidth fmt) 0

/-- Cut a payload into pieces of `n` bytes, at most `k` of them. -/
def cut (n : Nat) : Nat → List Byte → List (List Byte)
  | 0, _ => []
  | k + 1, l => if l.length < n ∨ n = 0 then [] else l.take n :: cut n k (l.drop n)

/-- The elements of a payload as values. -/
def decodeAll (fmt : Nat) (flush : Bool) (l : List Byte) : List Num :=
  let ps := cut (elemBytes fmt) l.length l
  if isMx fmt then ps.flatMap (decBlock fmt flush) else ps.map fun p => decElem fmt flush (leNat p)

/-! ### Records (R456 to R462) -/

/-- FIX bytes, record bytes and L of a format's record (R456). -/
def recLayout (fmt : Nat) : Nat × Nat × Int :=
  match fmt with
  | 0x00 => (285, 288, -1074)
  | 0x03 | 0x05 => (37, 40, -149)
  | 0x04 | 0x07 => (13, 16, -24)
  | 0x06 => (5, 8, -9)
  | 0x08 => (37, 40, -136)
  | 0x09 => (37, 40, -143)
  | 0x0A => (37, 40, -131)
  | 0x0B => (37, 40, -130)
  | 0x0C => (37, 40, -128)
  | 0x0D => (37, 40, -133)
  | 0x14 | 0x15 => (16, 16, 0)
  -- not a FMT code: the record of exact FP32 products (R538)
  | 0x20 => (77, 80, -298)
  | _ => (8, 8, 0)

def recBytes (fmt : Nat) : Nat := (recLayout fmt).2.1
def fixBits (fmt : Nat) : Nat := 8 * (recLayout fmt).1
def recL (fmt : Nat) : Int := (recLayout fmt).2.2

/-- The empty record. -/
def Rec.zero : Rec := { fix := 0, pinf := 0, ninf := 0, nz := 0 }

/-- A tally moved by `d`, saturating at 255; a saturated byte is not decremented (R459). -/
def tally (t : Nat) (d : Int) : Nat :=
  if d < 0 then (if t = 255 then 255 else t - d.natAbs) else min 255 (t + d.toNat)

/-- FIX moved by `d`, modulo its width (R460). -/
def fixAdd (w fix : Nat) (d : Int) : Nat := wrapN w ((fix : Int) + d)

/-- Enter (`dir` 1) or remove (`dir` −1) one value (R457, R462). -/
def Rec.step (fmt : Nat) (dir : Int) (r : Rec) (x : Num) : Rec :=
  if isInt fmt then { r with fix := fixAdd (fixBits fmt) r.fix (dir * x.intAt 0) }
  else
    match x with
    | .nan => { r with pinf := tally r.pinf dir, ninf := tally r.ninf dir, nz := tally r.nz dir }
    | .inf false => { r with pinf := tally r.pinf dir, nz := tally r.nz dir }
    | .inf true => { r with ninf := tally r.ninf dir, nz := tally r.nz dir }
    | .num true 0 _ => r
    | .num n m e =>
      { r with fix := fixAdd (fixBits fmt) r.fix (dir * Num.intAt (recL fmt) (.num n m e)), nz := tally r.nz dir }

def Rec.enter (fmt : Nat) (r : Rec) (x : Num) : Rec := r.step fmt 1 x
def Rec.remove (fmt : Nat) (r : Rec) (x : Num) : Rec := r.step fmt (-1) x

/-- A partial's record enters or leaves as one input (R458, R462). -/
def Rec.merge (fmt : Nat) (dir : Int) (r p : Rec) : Rec :=
  { fix := fixAdd (fixBits fmt) r.fix (dir * p.fix)
    pinf := if p.pinf = 0 then r.pinf else tally r.pinf dir
    ninf := if p.ninf = 0 then r.ninf else tally r.ninf dir
    nz := if p.nz = 0 then r.nz else tally r.nz dir }

/-- The bytes of a record (R456). -/
def Rec.bytes (fmt : Nat) (r : Rec) : List Byte :=
  let fb := (recLayout fmt).1
  leBytes fb r.fix ++
    (if recBytes fmt = fb then [] else [BitVec.ofNat 8 r.pinf, BitVec.ofNat 8 r.ninf, BitVec.ofNat 8 r.nz])

/-- A record from its bytes. -/
def Rec.ofBytes (fmt : Nat) (l : List Byte) : Rec :=
  let fb := (recLayout fmt).1
  { fix := leNat (l.take fb), pinf := (l.getD fb 0).toNat, ninf := (l.getD (fb + 1) 0).toNat,
    nz := (l.getD (fb + 2) 0).toNat }

/-- Enter a list of values into the records from index `i` on. -/
def enterAll (fmt : Nat) (dir : Int) : List Rec → List Num → List Rec
  | rs, [] => rs
  | [], x :: xs => Rec.zero.step fmt dir x :: enterAll fmt dir [] xs
  | r :: rs, x :: xs => r.step fmt dir x :: enterAll fmt dir rs xs

/-- The exact sum of a record. -/
def Rec.sum (fmt : Nat) (r : Rec) : Int := sext (fixBits fmt) r.fix

/-! ### Final rounding (R463 to R471) -/

/-- The settings that decide result bits (R479): ROUND, FLUSH and SEED of a TOP_ARITH entry. -/
structure ArithCfg where
  round : Nat
  flush : Nat
  seed : Nat
  deriving DecidableEq, Repr

def ArithCfg.flushIn (a : ArithCfg) : Bool := a.flush % 2 == 1
def ArithCfg.flushOut (a : ArithCfg) : Bool := decide (a.flush ≥ 2)

/-- The rounding mode of element `e` of a chunk (R468). -/
def ArithCfg.mode (a : ArithCfg) (grp chunk e : Nat) : Mode :=
  match a.round with
  | 1 => .rz
  | 2 => .rp
  | 3 => .rm
  | 4 => .sr (fabricHash [a.seed, grp, chunk, e] / 2 ^ 32)
  | _ => .rne

/-- An integer output (R465). -/
def intOut (fmt : Nat) (sat : Bool) (s : Int) : Nat :=
  let w := intWidth fmt
  if !sat then wrapN w s
  else if intSigned fmt then wrapN w (clampS w s)
  else (min (max s 0) ((2 ^ w - 1 : Nat) : Int)).toNat

/-- One scalar element of a completed exact sum held in a record of layout `rl` (R463). -/
def roundFrom (rl fmt : Nat) (sat : Bool) (a : ArithCfg) (mode : Mode) (r : Rec) : Nat :=
  match fltOf fmt with
  | none => intOut fmt sat (r.sum rl)
  | some f =>
    let fp8 := fmt == 6 || fmt == 7
    if r.pinf > 0 ∧ r.ninf > 0 then f.nan
    else if r.pinf > 0 then f.overflow fp8 sat mode false true
    else if r.ninf > 0 then f.overflow fp8 sat mode true true
    else
      let s := r.sum rl
      if s = 0 then (if r.nz = 0 then 2 ^ (f.eb + f.mb) else 0)
      else f.fin fp8 sat a.flushOut mode (decide (s < 0)) s.natAbs (recL rl)

def roundScalar (fmt : Nat) (sat : Bool) (a : ArithCfg) (mode : Mode) (r : Rec) : Nat := roundFrom fmt fmt sat a mode r

/-- Pack elements of `w` bits from bit 0 of the first byte on. -/
def packBits (w : Nat) (es : List Nat) : List Byte :=
  leBytes (es.length * w / 8) (es.foldr (fun n acc => n % 2 ^ w + 2 ^ w * acc) 0)

/-- emax of an MX format (R469). -/
def mxEmax (fmt : Nat) : Int :=
  match fmt with | 0x08 => 8 | 0x09 => 15 | 0x0A => 4 | 0x0B => 2 | 0x0C => 2 | _ => 0

/-- Quantize one finite element by the scale 2^x (R469 step 4, step 5). -/
def mxQuant (fmt : Nat) (x : Int) (r : Rec) : Nat :=
  let s := r.sum fmt
  match mxOf fmt with
  | some f =>
    if s = 0 then (if r.nz = 0 then 2 ^ (f.eb + f.mb) else 0)
    else
      let q := f.round .rne (decide (s < 0)) s.natAbs (recL fmt - x)
      if f.beyond q.1 q.2 then f.largest (decide (s < 0)) else f.enc (decide (s < 0)) q.1 q.2
  | none =>
    -- MXINT8: the element counts units of 2^-6; round to nearest-even, then clamp to ±127
    let e := recL fmt - x + 6
    let m := s.natAbs
    let k := if 0 ≤ e then m * 2 ^ e.toNat
      else
        let sh := (-e).toNat
        m / 2 ^ sh + b2n (Mode.rne.up false (m / 2 ^ sh) (m % 2 ^ sh) sh)
    wrapN 8 (if s < 0 then -(min k 127 : Nat) else (min k 127 : Nat))

/-- One MX output block of 32 records (R469 to R471). -/
def roundBlock (fmt : Nat) (sat : Bool) (rs : List Rec) : List Byte :=
  let w := mxBits fmt
  let isNan := fun (r : Rec) => decide (r.pinf > 0 ∧ r.ninf > 0)
  let isInf := fun (r : Rec) => decide ((r.pinf > 0) ≠ (r.ninf > 0))
  let fin := rs.filter fun r => !isNan r && !isInf r
  let big := (fin.map fun r => (r.sum fmt).natAbs).foldl max 0
  let e0 : Int := if big = 0 then -127 else (log2 big : Int) + recL fmt - mxEmax fmt
  let e := max e0 (-127)
  let past := decide (e > 127)
  let anyInf := rs.any isInf
  let anyNan := rs.any isNan
  let narrow := decide (fmt ≥ 0x0A)
  let blockNan := (past && !sat) || (narrow && (anyNan || (anyInf && !sat)))
  if blockNan then 0xFF#8 :: List.replicate (32 * w / 8) 0
  else
    let x : Int := if past || (anyInf && sat) then 127 else e
    let elem := fun (r : Rec) =>
      if isNan r then (if fmt = 8 then 0x7F else 0x7E)
      else if isInf r then
        let neg := decide (r.ninf > 0)
        match mxOf fmt with
        | some f => if sat then f.largest neg else if fmt = 8 then 0x7F else f.infinity neg
        | none => if neg then wrapN 8 (-127) else 127
      else mxQuant fmt x r
    BitVec.ofInt 8 (x + 127) :: packBits w (rs.map elem)

/-- Take the records of successive blocks of 32. -/
def blocksOf : Nat → List Rec → List (List Rec)
  | 0, _ => []
  | n + 1, rs => rs.take 32 :: blocksOf n (rs.drop 32)

/-- The result payload of a completed exact sum (R450). -/
def roundAll (fmt : Nat) (sat : Bool) (a : ArithCfg) (grp chunk base : Nat) (rs : List Rec) : List Byte :=
  if isMx fmt then (blocksOf (rs.length / 32) rs).flatMap (roundBlock fmt sat)
  else (rs.zipIdx base).flatMap fun p => leBytes (elemBytes fmt) (roundScalar fmt sat a (a.mode grp chunk p.2) p.1)

/-! ### The other reduction functions (R472 to R475) -/

/-- Bits of a value in its own format, as it stands after decoding (R472). -/
def encSame (fmt : Nat) (x : Num) : Nat :=
  match fltOf fmt with
  | some f => f.rne x
  | none => wrapN (intWidth fmt) (x.intAt 0)

/-- MIN or MAX of two elements, as bits (R472). -/
def minMax (isMax : Bool) (a b : Num) : Num :=
  match a, b with
  | .nan, _ | _, .nan => .nan
  | _, _ => if isMax then (if a.lt b then b else a) else (if b.lt a then b else a)

/-- Combine two payloads element by element. -/
def zipBytes (n : Nat) (f : Nat → Nat → Nat) (a b : List Byte) : List Byte :=
  ((cut n a.length a).zip (cut n b.length b)).flatMap fun p => leBytes n (f (leNat p.1) (leNat p.2))

/-- AND, OR and XOR by FUNC code 3, 4, 5. -/
def bitFn (func : Nat) : Nat → Nat → Nat :=
  match func with
  | 3 => (· &&& ·)
  | 4 => (· ||| ·)
  | _ => (· ^^^ ·)

/-- ARGMIN or ARGMAX of two 8-byte elements, value low and rank high; a tie takes the lowest rank (R396, R473). -/
def argPick (fmt : Nat) (isMax : Bool) (a b : Nat) : Nat :=
  let va := decElem fmt false (a % 2 ^ 32); let vb := decElem fmt false (b % 2 ^ 32)
  let ra := a / 2 ^ 32; let rb := b / 2 ^ 32
  match va, vb with
  | .nan, .nan => if ra ≤ rb then a else b
  | .nan, _ => a
  | _, .nan => b
  | _, _ =>
    let better := if isMax then va.lt vb else vb.lt va
    let worse := if isMax then vb.lt va else va.lt vb
    if better then b else if worse then a else if ra ≤ rb then a else b

/-- One binary64 addition rounded to nearest-even (R474). -/
def add64 (a b : Num) : Num := ff64.roundNum (a.add b)

/-- One round of adjacent pairs (R474). -/
def pairRound : List Num → List Num
  | a :: b :: t => add64 a b :: pairRound t
  | l => l

/-- FP64 fast mode: rounds of adjacent pairs until one value is left (R474). -/
def pairTree : Nat → List Num → Num
  | 0, l => l.headD (.num false 0 0)
  | n + 1, l => match l with | [] => .num false 0 0 | [x] => x | _ => pairTree n (pairRound l)

end Sys2Proof.Machine
end

