-- ==== Sys2Proof/Machine/Crypto.lean ====
section
/-! DEFINITION. The public standard functions that the manual names and does not restate: SHAKE256 (FIPS 202), Ed448
(RFC 8032) with an empty context, CRC-32C and the Ethernet CRC-32. PRESUMED (log 6): taken from those standards. -/

namespace Sys2Proof.Machine

/-! ### SHAKE256 -/

/-- Rotate a 64-bit lane left. -/
def rotl (x : BitVec 64) (n : Nat) : BitVec 64 := x.rotateLeft n

/-- The rotation offsets of rho, by lane x + 5y. -/
def rhoOffsets : List Nat :=
  [0, 1, 62, 28, 27, 36, 44, 6, 55, 20, 3, 10, 43, 25, 39, 41, 45, 15, 21, 8, 18, 2, 61, 56, 14]

/-- The round constants of iota. -/
def iotaConsts : List (BitVec 64) :=
  [0x0000000000000001#64, 0x0000000000008082#64, 0x800000000000808A#64, 0x8000000080008000#64, 0x000000000000808B#64,
   0x0000000080000001#64, 0x8000000080008081#64, 0x8000000000008009#64, 0x000000000000008A#64, 0x0000000000000088#64,
   0x0000000080008009#64, 0x000000008000000A#64] ++
  [0x000000008000808B#64, 0x800000000000008B#64, 0x8000000000008089#64, 0x8000000000008003#64, 0x8000000000008002#64,
   0x8000000000000080#64, 0x000000000000800A#64, 0x800000008000000A#64, 0x8000000080008081#64, 0x8000000000008080#64,
   0x0000000080000001#64, 0x8000000080008008#64]

/-- One round of Keccak-f[1600]. -/
def keccakRound (a : Array (BitVec 64)) (rc : BitVec 64) : Array (BitVec 64) :=
  let at_ := fun (m : Array (BitVec 64)) (i : Nat) => m.getD i 0
  let c := ((List.range 5).map fun x => at_ a x ^^^ at_ a (x + 5) ^^^ at_ a (x + 10) ^^^ at_ a (x + 15) ^^^ at_ a (x + 20)).toArray
  let d := ((List.range 5).map fun x => at_ c ((x + 4) % 5) ^^^ rotl (at_ c ((x + 1) % 5)) 1).toArray
  let e := ((List.range 25).map fun i => at_ a i ^^^ at_ d (i % 5)).toArray
  -- pi: the lane at (x, y) comes from ((x + 3y) mod 5, x)
  let b := ((List.range 25).map fun i =>
    let x := i % 5; let y := i / 5; let j := (x + 3 * y) % 5 + 5 * x
    rotl (at_ e j) (rhoOffsets.getD j 0)).toArray
  let f := ((List.range 25).map fun i =>
    let x := i % 5; let y := i / 5
    at_ b i ^^^ (~~~ (at_ b ((x + 1) % 5 + 5 * y)) &&& at_ b ((x + 2) % 5 + 5 * y))).toArray
  f.setIfInBounds 0 (at_ f 0 ^^^ rc)

/-- Keccak-f[1600]. -/
def keccakF (a : Array (BitVec 64)) : Array (BitVec 64) := iotaConsts.foldl keccakRound a

/-- Little-endian lanes of a block of bytes. -/
def lanesOf : Nat → List Byte → List (BitVec 64)
  | 0, _ => []
  | n + 1, l => BitVec.ofNat 64 (leAt l 0 8) :: lanesOf n (l.drop 8)

/-- Absorb one block of `17` lanes. -/
def absorb (st : Array (BitVec 64)) (block : List Byte) : Array (BitVec 64) :=
  let ls := (lanesOf 17 block).toArray
  keccakF (((List.range 25).map fun i => st.getD i 0 ^^^ ls.getD i 0).toArray)

/-- Absorb padded data, block by block. -/
def absorbAll : Nat → Array (BitVec 64) → List Byte → Array (BitVec 64)
  | 0, st, _ => st
  | n + 1, st, l => absorbAll n (absorb st (l.take 136)) (l.drop 136)

/-- Squeeze `n` blocks. -/
def squeeze : Nat → Array (BitVec 64) → List Byte
  | 0, _ => []
  | n + 1, st => ((st.toList.take 17).flatMap fun w => leBytes 8 w.toNat) ++ squeeze n (keccakF st)

/-- SHAKE256 of a message, `n` bytes of output. -/
def shake256 (msg : List Byte) (n : Nat) : List Byte :=
  let pad := 136 - msg.length % 136
  let tail : List Byte := if pad = 1 then [0x9F#8] else 0x1F#8 :: (List.replicate (pad - 2) 0 ++ [0x80#8])
  let st := absorbAll (msg.length / 136 + 1) (Array.replicate 25 0) (msg ++ tail)
  (squeeze ((n + 135) / 136) st).take n

/-! ### Ed448 -/

/-- The field prime 2^448 − 2^224 − 1, the group order L, and the curve constant d = −39081. -/
def edP : Nat := 2 ^ 448 - 2 ^ 224 - 1
def edL : Nat := 2 ^ 446 - 13818066809895115352007386748515426880336692474882178609894547503885
def edD : Nat := edP - 39081

/-- `b ^ e mod m`, `e` below 2^n. -/
def powMod (m : Nat) : Nat → Nat → Nat → Nat
  | 0, _, _ => 1
  | n + 1, b, e => let r := powMod m n (b * b % m) (e / 2); if e % 2 = 1 then r * b % m else r

/-- Inverse in the field. -/
def edInv (x : Nat) : Nat := powMod edP 449 x (edP - 2)

/-- A point in projective coordinates X, Y, Z. -/
structure EdPoint where
  x : Nat
  y : Nat
  z : Nat

/-- Subtraction in the field. -/
def edSub (a b : Nat) : Nat := (a + edP - b % edP) % edP

/-- The addition law of RFC 8032, 5.2.4. -/
def EdPoint.add (p q : EdPoint) : EdPoint :=
  let a := p.z * q.z % edP
  let b := a * a % edP
  let c := p.x * q.x % edP
  let d := p.y * q.y % edP
  let e := edD * (c * d % edP) % edP
  let f := edSub b e
  let g := (b + e) % edP
  let h := (p.x + p.y) * (q.x + q.y) % edP
  { x := a * f % edP * edSub (edSub h c) d % edP, y := a * g % edP * edSub d c % edP, z := f * g % edP }

/-- `k` times a point, `k` below 2^n. -/
def EdPoint.mul : Nat → Nat → EdPoint → EdPoint
  | 0, _, _ => { x := 0, y := 1, z := 1 }
  | n + 1, k, p =>
    let r := EdPoint.mul n (k / 2) (p.add p)
    if k % 2 = 1 then r.add p else r

/-- The base point. -/
def edBase : EdPoint :=
  { x := 224580040295924300187604334099896036246789641632564134246125461686950415467406032909029192869357953282578032075146446173674602635247710,
    y := 298819210078481492676017930443930673437544040154080242095928241372331506189835876003536878655418784733982303233503462500531545062832660,
    z := 1 }

/-- The 57-byte encoding of a point. -/
def EdPoint.enc (p : EdPoint) : List Byte :=
  let zi := edInv p.z
  let x := p.x * zi % edP
  let y := p.y * zi % edP
  leBytes 56 y ++ [BitVec.ofNat 8 (x % 2 * 128)]

/-- Decode a point; `none` when the bytes name no point of the curve. -/
def EdPoint.dec (b : List Byte) : Option EdPoint :=
  let sign := (b.getD 56 0).toNat / 128
  let y := leNat (b.take 56)
  if y ≥ edP ∨ (b.getD 56 0).toNat % 128 ≠ 0 ∨ b.length ≠ 57 then none
  else
    let u := edSub (y * y % edP) 1
    let v := edSub (edD * (y * y % edP) % edP) 1
    -- x = u^3 v (u^5 v^3)^((p-3)/4)
    let u2 := u * u % edP
    let u3v := u2 * u % edP * v % edP
    let u5v3 := u3v * u2 % edP * (v * v % edP) % edP
    let x := u3v * powMod edP 449 u5v3 ((edP - 3) / 4) % edP
    if v * (x * x % edP) % edP ≠ u % edP then none
    else if x = 0 ∧ sign = 1 then none
    else some { x := if x % 2 = sign then x else edP - x, y := y, z := 1 }

/-- The domain prefix dom4 with an empty context. -/
def dom4 : List Byte :=
  [0x53#8, 0x69#8, 0x67#8, 0x45#8, 0x64#8, 0x34#8, 0x34#8, 0x38#8, 0#8, 0#8]

/-- The pruned secret scalar and the prefix of a 57-byte secret. -/
def edExpand (sk : List Byte) : Nat × List Byte :=
  let h := shake256 sk 114
  let a := leNat (h.take 57)
  -- clear the two lowest bits and the last byte, set the highest bit of the byte before it
  (setBits (a % 2 ^ 448) 1 0 0 % 2 ^ 447 + 2 ^ 447, h.drop 57)

/-- The public key of a secret. -/
def edPublic (sk : List Byte) : List Byte := (EdPoint.mul 448 (edExpand sk).1 edBase).enc

/-- The 114-byte signature of a message. -/
def edSign (sk msg : List Byte) : List Byte :=
  let (s, pre) := edExpand sk
  let pk := edPublic sk
  let r := leNat (shake256 (dom4 ++ pre ++ msg) 114) % edL
  let rb := (EdPoint.mul 448 r edBase).enc
  let k := leNat (shake256 (dom4 ++ rb ++ pk ++ msg) 114) % edL
  rb ++ leBytes 57 ((r + k * s) % edL)

/-- The signature is valid under the public key. -/
def edVerify (pk msg sig : List Byte) : Bool :=
  match EdPoint.dec pk, EdPoint.dec (sig.take 57) with
  | some a, some r =>
    let s := leNat (sig.drop 57)
    let k := leNat (shake256 (dom4 ++ sig.take 57 ++ pk ++ msg) 114) % edL
    -- [4][S]B = [4]R + [4][k]A
    let four := fun (p : EdPoint) => EdPoint.mul 3 4 p
    decide (sig.length = 114) && decide (s < edL) &&
      (four (EdPoint.mul 448 s edBase)).enc == ((four r).add (four (EdPoint.mul 448 k a))).enc
  | _, _ => false

/-! ### Cyclic redundancy checks -/

/-- One byte through a reflected CRC register. -/
def crcByte (poly : Nat) : Nat → Nat → Nat
  | 0, c => c
  | n + 1, c => crcByte poly n (if c % 2 = 1 then c / 2 ^^^ poly else c / 2)

/-- A reflected 32-bit CRC with all-ones start and final complement. -/
def crc32With (poly : Nat) (l : List Byte) : Nat :=
  l.foldl (fun c b => crcByte poly 8 (c ^^^ b.toNat)) 0xFFFFFFFF ^^^ 0xFFFFFFFF

/-- CRC-32C (Castagnoli). -/
def crc32c (l : List Byte) : Nat := crc32With 0x82F63B78 l
/-- The Ethernet frame check sequence (IEEE 802.3). -/
def crc32 (l : List Byte) : Nat := crc32With 0xEDB88320 l

end Sys2Proof.Machine
end

