-- ==== Sys2Proof/Machine/Packet.lean ====
section
/-! DEFINITION. Packets and flits: header and extension fields (R213, R214), the packet types and what makes a packet
malformed (R217, R218, R225, R226), packet bytes and lengths (R197, R302), and the flit header (R194, R195). -/

namespace Sys2Proof

open Sys2Proof.Machine

/-! ### Packet types (R225) -/

def ptMemReadReq : BitVec 5 := 0x01
def ptMemReadResp : BitVec 5 := 0x02
def ptMemWrite : BitVec 5 := 0x03
def ptMemWriteAcked : BitVec 5 := 0x04
def ptMemStatus : BitVec 5 := 0x05
def ptDoorbell : BitVec 5 := 0x06
def ptCompletion : BitVec 5 := 0x07
def ptColl : BitVec 5 := 0x08
def ptTableReq : BitVec 5 := 0x09
def ptTableResp : BitVec 5 := 0x0A
def ptDispatchRows : BitVec 5 := 0x0B
def ptCombineRows : BitVec 5 := 0x0C
def ptMgmt : BitVec 5 := 0x0D
def ptEthFrame : BitVec 5 := 0x0E

/-- Kinds of collective packets (R217). -/
def ckContribution : BitVec 3 := 0
def ckPartial : BitVec 3 := 1
def ckResult : BitVec 3 := 2
def ckAck : BitVec 3 := 3

/-- Destination node and local address (R54, R213). -/
def Packet.node (p : Packet) : Nat := p.dst.toNat / 2 ^ 44
def Packet.laddr (p : Packet) : Nat := p.dst.toNat % 2 ^ 44

/-- The header as a 128-bit number (R213). -/
def Packet.header (p : Packet) : Nat :=
  p.ptype.toNat + 2 ^ 5 * b2n p.ext.isSome + 2 ^ 6 * p.itag.toNat + 2 ^ 8 * p.vc.toNat + 2 ^ 11 * p.cls.toNat
    + 2 ^ 14 * p.part.toNat + 2 ^ 18 * p.length.toNat + 2 ^ 32 * p.tag.toNat + 2 ^ 44 * p.src.toNat
    + 2 ^ 64 * p.dst.toNat

/-- The extension as a 128-bit number (R214). -/
def Ext.word (e : Ext) : Nat :=
  2 ^ 4 * e.seg.toNat + 2 ^ 11 * b2n e.sat + 2 ^ 12 * e.status.toNat + 2 ^ 20 * e.ckind.toNat + 2 ^ 23 * e.form.toNat
    + 2 ^ 25 * e.fmt.toNat + 2 ^ 30 * e.func.toNat + 2 ^ 33 * e.pattern.toNat + 2 ^ 36 * e.rank.toNat
    + 2 ^ 56 * e.chunk.toNat + 2 ^ 88 * e.epoch.toNat + 2 ^ 104 * e.group.toNat

/-- The extension that a 128-bit number holds. -/
def Ext.ofWord (n : Nat) : Ext :=
  { group := BitVec.ofNat 24 (n / 2 ^ 104), epoch := BitVec.ofNat 16 (n / 2 ^ 88), chunk := BitVec.ofNat 32 (n / 2 ^ 56),
    rank := BitVec.ofNat 20 (n / 2 ^ 36), pattern := BitVec.ofNat 3 (n / 2 ^ 33), func := BitVec.ofNat 3 (n / 2 ^ 30),
    fmt := BitVec.ofNat 5 (n / 2 ^ 25), form := BitVec.ofNat 2 (n / 2 ^ 23), ckind := BitVec.ofNat 3 (n / 2 ^ 20),
    status := BitVec.ofNat 8 (n / 2 ^ 12), sat := bit n 11, seg := BitVec.ofNat 7 (n / 2 ^ 4) }

/-- The header fields that a 128-bit number holds, with the extension, payload and trailer given. -/
def Packet.ofHeader (n : Nat) (ext : Option Ext) (payload trailer : List Byte) : Packet :=
  { dst := BitVec.ofNat 64 (n / 2 ^ 64), src := BitVec.ofNat 20 (n / 2 ^ 44), tag := BitVec.ofNat 12 (n / 2 ^ 32),
    length := BitVec.ofNat 14 (n / 2 ^ 18), part := BitVec.ofNat 4 (n / 2 ^ 14), cls := BitVec.ofNat 3 (n / 2 ^ 11),
    vc := BitVec.ofNat 3 (n / 2 ^ 8), itag := BitVec.ofNat 2 (n / 2 ^ 6), ptype := BitVec.ofNat 5 n,
    ext := ext, payload := payload, trailer := trailer }

/-- The packet carries the result trailer (R218). -/
def Packet.hasTrailer (p : Packet) : Bool :=
  match p.ext with
  | some e => e.ckind == ckResult
  | none => false

/-- The packet's bytes in sending order: header, extension, payload, trailer. -/
def Packet.toBytes (p : Packet) : List Byte :=
  leBytes 16 p.header ++ (match p.ext with | some e => leBytes 16 e.word | none => []) ++ p.payload ++ p.trailer

/-- Bytes of the packet as LENGTH gives them. -/
def Packet.size (p : Packet) : Nat :=
  16 + (if p.ext.isSome then 16 else 0) + p.length.toNat + (if p.hasTrailer then 8 else 0)

/-- Flits of a packet of `n` bytes (R197). -/
def flitsOf (n : Nat) : Nat := ceilDiv (n + 4) 244
/-- Bytes that the packet carried, whatever LENGTH says. -/
def Packet.carried (p : Packet) : Nat := 16 + (if p.ext.isSome then 16 else 0) + p.payload.length + p.trailer.length
def Packet.flits (p : Packet) : Nat := flitsOf p.size

/-- Read a packet from the bytes carried up to EOP (its CRC and padding apart). -/
def Packet.ofBytes (l : List Byte) : Packet :=
  let h := leAt l 0 16
  let hasExt := bit h 5
  let ext := if hasExt then some (Ext.ofWord (leAt l 16 16)) else none
  let off := if hasExt then 32 else 16
  let len := bits h 31 18
  let tr := match ext with | some e => if e.ckind = ckResult then 8 else 0 | none => 0
  Packet.ofHeader h ext ((l.drop off).take len) ((l.drop (off + len)).take tr)

/-- The packet CRC (R221). -/
def Packet.crc (p : Packet) : Nat := crc32 p.toBytes

/-! ### Malformed packets -/

/-- Names a defined operation (R215). -/
def opOk (pattern func : Nat) : Bool :=
  match pattern with
  | 3 => decide (func ≤ 4)
  | 4 => decide (func ≤ 3)
  | 5 | 6 => decide (func ≤ 1)
  | 7 => func == 0
  | _ => true

/-- A reserved value of the extension (R217, R19). -/
def Ext.reserved (e : Ext) : Bool :=
  !opOk e.pattern.toNat e.func.toNat || decide (e.fmt.toNat ≥ 0x1B) || e.form == 3 || decide (e.ckind.toNat ≥ 4)
    || decide (e.status.toNat ≥ 0x0E)

/-- VCs of a packet type (R225); VC6 is open to every type. -/
def vcAllowed (pt vc : Nat) : Bool :=
  vc == 6 ||
    match pt with
    | 0x01 | 0x02 | 0x03 => vc == 0 || vc == 1
    | 0x04 | 0x05 | 0x06 | 0x07 => vc == 1
    | 0x08 => vc == 2 || vc == 3 || vc == 7
    | 0x09 | 0x0A => vc == 4
    | 0x0B | 0x0C => vc == 5
    | 0x0D => vc == 7
    | 0x0E => vc == 0
    | _ => false

/-- LENGTH within the range of the type (R225). -/
def lengthAllowed (p : Packet) : Bool :=
  let n := p.length.toNat
  match p.ptype.toNat with
  | 0x01 | 0x05 | 0x06 => n == 8
  | 0x02 | 0x03 | 0x04 => decide (n ≤ 8192)
  | 0x07 => n == 16
  | 0x08 =>
    match p.ext with
    | none => false
    | some e =>
      if e.ckind = ckAck then n == 40
      else if e.ckind = ckResult ∧ e.status ≠ 0 ∧ e.status ≠ 3 then n == 0
      else if e.pattern = 3 ∧ e.func = 3 then n == 8
      else decide (n ≤ 4096)
  | 0x09 | 0x0A | 0x0B | 0x0C => decide (n ≤ 4096)
  | 0x0D => decide (1 ≤ n) && decide (n ≤ 8192)
  | 0x0E => decide (60 ≤ n) && decide (n ≤ 8192)
  | _ => false

/-- The packet is malformed (R217, R218, R226). -/
def Packet.malformed (p : Packet) : Bool :=
  let pt := p.ptype.toNat
  let isColl := decide (8 ≤ pt) && decide (pt ≤ 0x0C)
  pt == 0 || decide (pt ≥ 0x0F) || !vcAllowed pt p.vc.toNat || p.ext.isSome != isColl || !lengthAllowed p
    || p.payload.length != p.length.toNat
    || (match p.ext with
        | some e => e.reserved || decide (p.length.toNat > 4096) || p.trailer.length != (if e.ckind = ckResult then 8 else 0)
        | none => !p.trailer.isEmpty)

/-! ### Forming packets -/

/-- A packet without extension; DST_ADDR from a node and a local address. -/
def mkPkt (pt : BitVec 5) (dst : Nat) (src tag part cls vc : Nat) (payload : List Byte) : Packet :=
  { dst := BitVec.ofNat 64 dst, src := BitVec.ofNat 20 src, tag := BitVec.ofNat 12 tag,
    length := BitVec.ofNat 14 payload.length, part := BitVec.ofNat 4 part, cls := BitVec.ofNat 3 cls,
    vc := BitVec.ofNat 3 vc, itag := 0, ptype := pt, ext := none, payload := payload, trailer := [] }

/-- The MEM_STATUS that answers a request (R225, R227). -/
def memStatusFor (own : Nat) (req : Packet) (status bytes : Nat) : Packet :=
  mkPkt ptMemStatus (req.src.toNat * 2 ^ 44) own req.tag.toNat req.part.toNat req.cls.toNat 1
    (leBytes 4 status ++ leBytes 4 bytes)

/-- The MEM_READ_RESP that answers a read (R227). -/
def memReadRespFor (own : Nat) (req : Packet) (data : List Byte) : Packet :=
  mkPkt ptMemReadResp (req.src.toNat * 2 ^ 44) own req.tag.toNat req.part.toNat req.cls.toNat req.vc.toNat data

/-- The request asks for an answer when it cannot be served (R226, R255). -/
def Packet.answered (p : Packet) : Bool := p.ptype == ptMemReadReq || p.ptype == ptMemWriteAcked

/-! ### Flits -/

/-- The header of a flit. -/
def flitHdr (f : List Byte) : FlitHdr :=
  let n := leAt f 0 8
  { ftype := bits n 63 62, vc := bits n 61 59, sop := bit n 58, eop := bit n 57, nak := bit n 56,
    seq := BitVec.ofNat 16 (bits n 55 40), ackSeq := BitVec.ofNat 16 (bits n 39 24), crVc := bits n 23 21,
    crValid := bit n 20, crCount := bits n 19 0 }

/-- The header as a 64-bit number (R195). -/
def FlitHdr.word (h : FlitHdr) : Nat :=
  h.crCount % 2 ^ 20 + 2 ^ 20 * b2n h.crValid + 2 ^ 21 * (h.crVc % 8) + 2 ^ 24 * h.ackSeq.toNat + 2 ^ 40 * h.seq.toNat
    + 2 ^ 56 * b2n h.nak + 2 ^ 57 * b2n h.eop + 2 ^ 58 * b2n h.sop + 2 ^ 59 * (h.vc % 8) + 2 ^ 62 * (h.ftype % 4)

/-- The flit is 256 bytes whose CRC-32C matches, of a defined type (R194, R196). -/
def flitIntact (f : List Byte) : Bool :=
  decide (f.length = 256) && crc32c (f.take 252) == leAt f 252 4 && decide ((flitHdr f).ftype ≠ 3)

/-- The packet bytes of a DATA flit. -/
def flitData (f : List Byte) : List Byte := slice f 8 244

/-- A packet's bytes on the link: its CRC, or the complement of it, follows its last byte (R197, R221, R223). -/
def Packet.linkBytes (p : Packet) (stomp : Bool) : List Byte :=
  p.toBytes ++ leBytes 4 (if stomp then 2 ^ 32 - 1 - p.crc else p.crc)

/-! ### Control messages (R207 to R210) -/

/-- The FLAGS byte of a time message. -/
def timeFlags (aligned replayed : Bool) : Byte := BitVec.ofNat 8 (b2n aligned + 2 * b2n replayed)

/-- The bytes of a message, which zeros fill up to its slot. -/
def CtlMsg.bytes : CtlMsg → List Byte
  | .creditAll c => [0x01, 0, 0, 0, 0, 0, 0, 0] ++ (List.range 8).flatMap fun v => leBytes 3 (c.getD v 0).toNat
  | .timeReq r t1 => [0x02, timeFlags false r, 0, 0, 0, 0, 0, 0] ++ leBytes 9 t1.toNat
  | .timeResp a r d h t2 t3 => [0x03, timeFlags a r] ++ leBytes 2 d.toNat ++ [h, 0, 0, 0] ++ leBytes 9 t2.toNat ++ leBytes 9 t3.toNat
  | .release g e b => [0x04] ++ leBytes 3 g.toNat ++ leBytes 2 e.toNat ++ [0, 0] ++ leBytes 8 b.toNat
  | .width a w c => [0x05, BitVec.ofNat 8 (b2n a), w, c]
  | .param m => [0x06, m.role, m.lossless, m.prev] ++ leBytes 4 m.node.toNat ++ [m.maxp]
  | .reserved t => [t]

/-- The message in a slot; `none` in an empty one. -/
def CtlMsg.ofBytes (l : List Byte) : Option CtlMsg :=
  let flags := leAt l 1 1
  match leAt l 0 1 with
  | 0 => none
  | 1 => some (.creditAll ((List.range 8).map fun v => BitVec.ofNat 20 (leAt l (8 + 3 * v) 3)))
  | 2 => some (.timeReq (bit flags 1) (BitVec.ofNat 72 (leAt l 8 9)))
  | 3 => some (.timeResp (bit flags 0) (bit flags 1) (BitVec.ofNat 16 (leAt l 2 2)) (BitVec.ofNat 8 (leAt l 4 1))
      (BitVec.ofNat 72 (leAt l 8 9)) (BitVec.ofNat 72 (leAt l 17 9)))
  | 4 => some (.release (BitVec.ofNat 24 (leAt l 1 3)) (BitVec.ofNat 16 (leAt l 4 2)) (BitVec.ofNat 64 (leAt l 8 8)))
  | 5 =>
    if flags ≤ 1 then some (.width (flags == 1) (BitVec.ofNat 8 (leAt l 2 1)) (BitVec.ofNat 8 (leAt l 3 1))) else some (.reserved 5)
  | 6 => some (.param { role := BitVec.ofNat 8 flags, lossless := BitVec.ofNat 8 (leAt l 2 1), prev := BitVec.ofNat 8 (leAt l 3 1),
                        node := BitVec.ofNat 20 (leAt l 4 4), maxp := BitVec.ofNat 8 (leAt l 8 1) })
  | t => some (.reserved (BitVec.ofNat 8 t))

/-- The messages of a CONTROL flit. -/
def ctlMsgs (f : List Byte) : List CtlMsg := (List.range 7).filterMap fun i => CtlMsg.ofBytes (slice f (8 + 32 * i) 32)

/-- The 244 bytes that a flit carries (R194, R197, R207). -/
def Machine.FlitBody.bytes : FlitBody → List Byte
  | .idle => List.replicate 244 0
  | .data pkt i stomp => slice (pkt.linkBytes stomp) (244 * i) 244
  | .control msgs => fit (msgs.flatMap fun m => fit m.bytes 32) 244

/-- The 256 bytes of a flit (R194). -/
def flitImage (h : FlitHdr) (b : FlitBody) : List Byte :=
  let l := leBytes 8 h.word ++ b.bytes
  l ++ leBytes 4 (crc32c l)

/-- The bytes of a flit of the trace. -/
def Machine.Emit.flitBytes : Emit → Option (List Byte)
  | .flit _ h b => some (flitImage h b)
  | _ => none

end Sys2Proof
end

