-- ==== Sys2Proof/Config.lean ====
section
/-! DEFINITION. The free values of the model: constants with no body, which nothing can evaluate. Where the
manual gives an operation its effect but not a value (a random challenge, the measured state of a board), the value
is one of these, applied to the counter `Dev.fresh` that the step advances. -/

namespace Sys2Proof.Config

/-- The n-th free 64-bit value. DESIGN CHOICE (log 4): nothing constrains it. Used where the manual leaves a
value open: random challenge bytes (R768), the generated UDS (R760), what the boundary scan and the debug module return
(R748, R749), the fraction of a timestamp (R136), the boot ROM's line (R745), the bits that an abandoned fuse command has blown
(R762), whether a packet that fails its check has begun to leave (R223), the WR_ID of a work request that could not be read (log
106), what an injected fault meets (log 81). -/
opaque freeWord : Nat → Word

/-- PHASE of the entries that a completion queue receives before its first wrap (R234 gives only that it inverts at each
wrap). DESIGN CHOICE (log 4): nothing constrains it. -/
opaque firstPhase : Bool

/-- The element, decoded to dense, that a tile names more than once, from the values it names (R499 gives only sums, MIN and
MAX). DESIGN CHOICE (log 4): nothing constrains it. -/
opaque twice : List Nat → Nat

/-- The temperature in °C from which the memory standard asks for faster refresh (R675 HOT names the standard, not the figure).
DESIGN CHOICE (log 4): nothing constrains it. -/
opaque hbmHot : Nat

/-- The seed that stochastic rounding of a batch row takes in place of R468's, which draws for a chunk: a function of TOP_ARITH's
seed, the group, the epoch, the table and the row, and so the same for the same data (R10, R525).
DESIGN CHOICE (log 21): nothing constrains it. -/
opaque batchSeed : BitVec 64 → Nat → Nat → Nat → Nat → BitVec 64

/-- The virtual channel whose granted credits the header of a DATA or CONTROL flit carries, by port and sequence, or none
(R198: 'in CR_COUNT of any flit header'). DESIGN CHOICE (log 100): nothing constrains it. -/
opaque creditVc : Nat → BitVec 16 → Option (Fin 8)

/-- LENGTH in the header of a SELECT partial whose contributions differ in LENGTH, by their lengths in order (R410).
DESIGN CHOICE (log 129): nothing constrains it. -/
opaque mixedLength : List Nat → BitVec 16

/-- A byte of the state of a function other than an exact sum to which no input has entered, by FUNC, FMT and place (R432 lets a context
complete so, and R476 lays out only what inputs leave). DESIGN CHOICE (log 145): nothing constrains it. -/
opaque noInput : Nat → Nat → Nat → BitVec 8

/-- A byte of reduction memory or of a spill area, by local address and tick, that nothing has written since its cell or unit was last
freed (R644, R661). DESIGN CHOICE (log 135): nothing constrains it. -/
opaque staleByte : Nat → Nat → BitVec 8

/-- The random source passes its health test, by the number of the draw (R763 names a failure, ENTROPY, and no rule says when it
comes). DESIGN CHOICE (log 4): nothing constrains it. -/
opaque entropyOk : Nat → Bool

end Sys2Proof.Config
end

