-- ==== Sys2Proof/Machine/Regs.lean ====
section
/-! DEFINITION. Sparse storage: maps from unit numbers, register files over reset values, and memory bytes. Every
operation keeps the canonical form (Laws/Storage.lean). -/

namespace Sys2Proof.Machine

/-! ### Maps -/

/-- The value stored at a key. -/
def Map.find {α : Type} : Map α → Nat → Option α
  | [], _ => none
  | (a, v) :: t, k => if a = k then some v else Map.find t k

/-- The value stored at a key, or the reset value. -/
def Map.get {α : Type} (m : Map α) (k : Nat) (d : α) : α := (Map.find m k).getD d

/-- Store a value, keeping keys rising. -/
def Map.insert {α : Type} : Map α → Nat → α → Map α
  | [], k, v => [(k, v)]
  | (a, w) :: t, k, v =>
    if k < a then (k, v) :: (a, w) :: t
    else if k = a then (k, v) :: t
    else (a, w) :: Map.insert t k v

/-- Forget a key. -/
def Map.erase {α : Type} (m : Map α) (k : Nat) : Map α := m.filter fun p => p.1 ≠ k

/-- Store a value, an entry equal to the reset value being left out. -/
def Map.put {α : Type} [DecidableEq α] (m : Map α) (k : Nat) (v d : α) : Map α :=
  if v = d then Map.erase m k else Map.insert m k v

/-- Keys strictly rising. -/
def Map.sorted {α : Type} : Map α → Bool
  | [] => true
  | [_] => true
  | (a, _) :: (b, w) :: t => decide (a < b) && Map.sorted ((b, w) :: t)

/-! ### Memory -/

/-- Canonical form: addresses strictly rising, no zero listed. -/
def Memory.wf (m : Memory) : Bool := Map.sorted m && m.all fun c => c.2 != 0

/-- The byte at an address; an unlisted address reads 0 (R672). -/
def Memory.read (m : Memory) (a : Nat) : Byte := Map.get m a 0

/-- Store one byte. -/
def Memory.write (m : Memory) (a : Nat) (b : Byte) : Memory := Map.put m a b 0

/-- `n` bytes from `a` on. -/
def Memory.readBytes (m : Memory) (a : Nat) : Nat → List Byte
  | 0 => []
  | n + 1 => Memory.read m a :: Memory.readBytes m (a + 1) n

/-- Store bytes from `a` on. -/
def Memory.writeBytes (m : Memory) (a : Nat) : List Byte → Memory
  | [] => m
  | b :: t => Memory.writeBytes (Memory.write m a b) (a + 1) t

/-- The little-endian number in `n` bytes from `a` on (R11). -/
def Memory.readLE (m : Memory) (a n : Nat) : Nat := leNat (Memory.readBytes m a n)

/-- Store a number in `n` bytes, little-endian (R11). -/
def Memory.writeLE (m : Memory) (a n v : Nat) : Memory := Memory.writeBytes m a (leBytes n v)

/-- Zero `n` bytes from `a` on: forget their cells. -/
def Memory.zero (m : Memory) (a n : Nat) : Memory := m.filter fun c => c.1 < a || a + n ≤ c.1

/-! ### Register addresses (R58, R59) -/

/-- The page of instance `inst` of block `blk` on die `d`. -/
def pg (d blk inst : Nat) : Nat := 0xF0000000000 + d * 2 ^ 32 + blk * 2 ^ 24 + inst * 2 ^ 16

/-- Parts of a register address. -/
def addrDie (a : Nat) : Nat := bits a 34 32
def addrBlk (a : Nat) : Nat := bits a 31 24
def addrInst (a : Nat) : Nat := bits a 23 16
def addrOff (a : Nat) : Nat := bits a 15 0

/-- The storage key of group-table byte `i`: entries 0 to 65,535 of 64 bytes lie beyond the address space, and
COL_GTBL_WINDOW brings 512 of them into a page (R447). -/
def gtblKey (entry off : Nat) : Nat := 2 ^ 44 + entry * 64 + off

end Sys2Proof.Machine
end

