-- ==== Sys2Proof/Machine/Sparse.lean ====
section
/-! DEFINITION. Sparse tiles (R489 to R500), table headers (R512, R513), route headers (R528, R529), the selection and
capacity of dispatch (R532 to R534), exact products (R538) and tile-engine accumulation (R478). -/

namespace Sys2Proof.Machine

/-! ### Tiles -/

/-- Formats with sparse forms (R490). -/
def sparseFmt (fmt : Nat) : Bool := (decide (3 ≤ fmt) && decide (fmt ≤ 7)) || (decide (14 ≤ fmt) && decide (fmt ≤ 21))

/-- The form of a tile (R493): 0 DENSE, 1 BITMAP, 2 INDEX. -/
def chooseForm (n e k : Nat) : Nat :=
  let dense := n * e
  let bitmap := 32 + k * e
  let index := 1 + k * (1 + e)
  if min bitmap index ≥ dense then 0 else if bitmap ≤ index then 1 else 2

/-- Encode a tile of 1 to 256 elements (R491 to R493). -/
def encodeTile (fmt : Nat) (es : List Nat) : List Byte :=
  let e := elemBytes fmt
  let present := (es.zipIdx.filter fun p => p.1 != 0)
  let form := if sparseFmt fmt then chooseForm es.length e present.length else 0
  let values := present.flatMap fun p => leBytes e p.1
  let body := match form with
    | 0 => es.flatMap (leBytes e)
    | 1 => leBytes 32 (listMask (present.map (·.2))) ++ values
    | _ => BitVec.ofNat 8 present.length :: present.map (fun p => BitVec.ofNat 8 p.2) ++ values
  BitVec.ofNat 8 form :: BitVec.ofNat 8 (es.length - 1) :: body

/-- Cut elements into tiles (R489). -/
def tilesOf : Nat → List Nat → List (List Nat)
  | 0, _ => []
  | n + 1, es => if es.isEmpty then [] else es.take 256 :: tilesOf n (es.drop 256)

/-- A row as encoded tiles (R497, R498). -/
def encodeRow (fmt : Nat) (es : List Nat) : List Byte := (tilesOf es.length es).flatMap (encodeTile fmt)

/-- Tiles of a row. -/
def rowTiles (elems : Nat) : Nat := ceilDiv elems 256

/-- A tile read by its metadata. -/
structure TileRead where
  n : Nat
  /-- Offsets below n with their bits, in order. -/
  vals : List (Nat × Nat)
  drops : Nat
  /-- Bytes taken, prefix included. -/
  size : Nat
  deriving DecidableEq, Repr

inductive TileOut where
  | tile (t : TileRead)
  | malformed
  /-- Too short for its metadata or for the body that gives (R500); n as the prefix gives it. -/
  | short (n : Nat)
  deriving DecidableEq, Repr

/-- Pair offsets with successive elements of `e` bytes. -/
def pairVals (e : Nat) (offs : List Nat) (l : List Byte) : List (Nat × Nat) :=
  offs.zip ((cut e offs.length l).map leNat)

/-- Read one tile (R491, R492, R500). -/
def readTile (fmt : Nat) (l : List Byte) : TileOut :=
  if l.length < 2 then .short 0
  else
    let e := elemBytes fmt
    let tag := bits (leAt l 0 1) 1 0
    let n := leAt l 1 1 + 1
    let body := l.drop 2
    let mk := fun (offs : List Nat) (meta_ : Nat) =>
      let sz := meta_ + offs.length * e
      if sz ≥ n * e then TileOut.malformed
      else if body.length < sz then .short n
      else
        let vs := pairVals e offs (body.drop meta_)
        .tile { n := n, vals := vs.filter fun v => decide (v.1 < n), drops := (offs.filter (n ≤ ·)).length, size := 2 + sz }
    match tag with
    | 0 =>
      if body.length < n * e then .short n
      else .tile { n := n, vals := pairVals e (List.range n) body, drops := 0, size := 2 + n * e }
    | 1 =>
      if !sparseFmt fmt then .malformed
      else if body.length < 32 then .short n
      else mk (maskList 256 (leAt body 0 32)) 32
    | 2 =>
      if !sparseFmt fmt then .malformed
      else
        match body with
        | [] => .short n
        | k :: t =>
          if t.length < k.toNat then (if 1 + k.toNat * (1 + e) ≥ n * e then .malformed else .short n) else mk ((t.take k.toNat).map (·.toNat)) (1 + k.toNat)
    | _ => .malformed

/-- The values of each of `n` elements; an absent element is +0 (R490, R499). -/
def spread (n : Nat) (vals : List (Nat × Nat)) : List (List Nat) :=
  (List.range n).map fun i =>
    match (vals.filter fun v => v.1 == i).map (·.2) with
    | [] => [0]
    | vs => vs

/-- A single-tile chunk (R495, R500). -/
inductive ChunkOut where
  | malformed
  /-- Dropped whole; n gives the dense size for R406. -/
  | whole (n : Nat)
  | ok (n : Nat) (vals : List (List Nat)) (drops : Nat)
  deriving DecidableEq, Repr

/-- Read a chunk of FORM BITMAP or INDEX (R500). -/
def readChunk (fmt form : Nat) (l : List Byte) : ChunkOut :=
  if form = 3 ∨ l.length < 2 ∨ !sparseFmt fmt then .malformed
  else
    let tag := bits (leAt l 0 1) 1 0
    let n := leAt l 1 1 + 1
    if tag ≠ form ∨ l.length - 2 ≥ n * elemBytes fmt then .malformed
    else
      match readTile fmt l with
      | .malformed | .short _ => .whole n
      | .tile t => if t.size = l.length then .ok n (spread n t.vals) t.drops else .whole n

/-- A row of a packet, read tile by tile. -/
structure RowRead where
  vals : List (List Nat)
  drops : Nat
  /-- A case of R500 drops the packet whole, or makes it malformed. -/
  whole : Bool
  bad : Bool
  rest : List Byte
  deriving DecidableEq, Repr

/-- Read the tiles of a row of `elems` elements. -/
def readRow (fmt : Nat) : Nat → Nat → List Byte → RowRead
  | 0, _, l => { vals := [], drops := 0, whole := false, bad := false, rest := l }
  | k + 1, elems, l =>
    if elems = 0 then { vals := [], drops := 0, whole := false, bad := false, rest := l }
    else
      match readTile fmt l with
      | .malformed => { vals := [], drops := 0, whole := true, bad := true, rest := [] }
      | .short _ => { vals := [], drops := 0, whole := true, bad := false, rest := [] }
      | .tile t =>
        let r := readRow fmt k (elems - 256) (l.drop t.size)
        { r with vals := spread t.n t.vals ++ r.vals, drops := t.drops + r.drops, whole := r.whole || t.n != min 256 elems }

/-- Elements decoded to dense: the one value each names; of several, a free value (log 4). -/
def firstVals (vs : List (List Nat)) : List Nat :=
  vs.map fun l => match l with
    | [] => 0
    | [x] => x
    | l => Config.twice l

/-! ### Table headers (R512, R513) -/

structure TableHdr where
  rows  : Nat
  elems : Nat
  fmt   : Nat
  flags : Nat
  group : Nat
  slots : Nat
  batch : Nat
  data  : Nat
  stride : Nat
  deriving DecidableEq, Repr

def TableHdr.read (l : List Byte) : TableHdr :=
  { rows := leAt l 0 4, elems := leAt l 4 2, fmt := leAt l 6 1, flags := leAt l 7 1, group := leAt l 8 3,
    slots := leAt l 12 4, batch := leAt l 16 8, data := leAt l 24 8, stride := leAt l 32 4 }

def TableHdr.part (h : TableHdr) : Nat := bits h.flags 3 0
def TableHdr.sat (h : TableHdr) : Bool := bit h.flags 6
def TableHdr.rowBytes (h : TableHdr) : Nat := h.elems * elemBytes h.fmt
def TableHdr.rowAddr (h : TableHdr) (r : Nat) : Nat := h.data + r * h.stride
/-- Bytes of a batch slot (R512). -/
def TableHdr.slotBytes (h : TableHdr) : Nat := 64 + h.elems * recBytes h.fmt

/-- The header is one a request may use (R513). -/
def TableHdr.ok (h : TableHdr) (l : List Byte) (part addr : Nat) : Bool :=
  bit h.flags 7 && bits h.flags 5 4 == 0 && decide (1 ≤ h.rows) && decide (1 ≤ h.elems) && decide (h.elems ≤ 1024)
    && ((decide (3 ≤ h.fmt) && decide (h.fmt ≤ 7)) || h.fmt == 0x12 || h.fmt == 0x13) && h.part == part
    && h.stride % 64 == 0 && decide (h.stride ≥ h.rowBytes) && addr % 64 == 0
    && decide (addr + 64 ≤ 2 ^ 41) && decide (h.data + (h.rows - 1) * h.stride + h.rowBytes ≤ 2 ^ 41)
    && decide (h.batch + h.slots * h.slotBytes ≤ 2 ^ 41)
    && leAt l 11 1 == 0 && (slice l 36 28).all (· == 0)

/-! ### Route headers (R528, R529) -/

structure RouteHdr where
  experts : Nat
  k       : Nat
  mode    : Nat
  cap     : Nat
  perRank : Nat
  elems   : Nat
  window  : Nat
  map     : Nat
  gate    : Nat
  deriving DecidableEq, Repr

def RouteHdr.read (l : List Byte) : RouteHdr :=
  { experts := leAt l 0 2, k := leAt l 2 1, mode := leAt l 3 1, cap := leAt l 4 2, perRank := leAt l 6 2,
    elems := leAt l 8 2, window := leAt l 10 2, map := leAt l 16 8, gate := leAt l 24 8 }

def RouteHdr.scoreSrc (h : RouteHdr) : Nat := bits h.mode 1 0
def RouteHdr.weighted (h : RouteHdr) : Bool := bit h.mode 2
/-- Bytes of one contributed row. -/
def RouteHdr.inRow (h : RouteHdr) (fmt : Nat) : Nat :=
  (if h.scoreSrc = 0 then 4 * h.experts else 0) + h.elems * elemBytes fmt
def RouteHdr.rowBytes (h : RouteHdr) (fmt : Nat) : Nat := h.elems * elemBytes fmt
/-- SLOT_BYTES (R534). -/
def RouteHdr.slotBytes (h : RouteHdr) (fmt : Nat) : Nat :=
  16 + ceilDiv (h.rowBytes fmt + 2 * rowTiles h.elems) 16 * 16

/-- The contribution of `len` bytes breaks none of R529's rules. -/
def RouteHdr.ok (h : RouteHdr) (l : List Byte) (fmt members len : Nat) : Bool :=
  decide (1 ≤ h.experts) && decide (h.experts ≤ 1024) && decide (1 ≤ h.k) && decide (h.k ≤ 8) && decide (h.k ≤ h.experts)
    && decide (h.scoreSrc ≤ 1) && decide (h.mode < 8) && decide (1 ≤ h.cap) && decide (h.cap ≤ 4096)
    && decide (1 ≤ h.perRank) && decide (h.perRank ≤ 1024) && decide (1 ≤ h.elems) && decide (h.elems ≤ 1024)
    && decide (1 ≤ h.window) && leAt l 12 4 == 0 && decide (h.map < 2 ^ 44) && decide (h.gate < 2 ^ 44)
    && decide (h.experts ≤ members * h.perRank) && decide (members ≤ 256) && decide (3 ≤ fmt) && decide (fmt ≤ 7)
    && decide (32 ≤ len) && (len - 32) % h.inRow fmt == 0
    && decide (members * ((len - 32) / h.inRow fmt) ≤ 4096)
    && decide (16 + h.rowBytes fmt + 2 * rowTiles h.elems ≤ 4096)

/-! ### Selection, weights, capacity -/

/-- Order of scores: `a` strictly higher; a NaN below every other value, −0 equal to +0 (R532). -/
def scoreGt (a b : Nat) : Bool :=
  match ff32.dec false a, ff32.dec false b with
  | .nan, _ => false
  | _, .nan => true
  | .num n1 m1 e1, .num n2 m2 e2 =>
    let e := min e1 e2
    decide (Num.intAt e (.num n1 m1 e1) > Num.intAt e (.num n2 m2 e2))
  | x, y => y.lt x

/-- Exact quotient rounded to nearest-even in a format. -/
def FF.div (f : FF) (a b : Num) : Nat :=
  match a, b with
  | .nan, _ | _, .nan => f.nan
  | .inf _, .inf _ => f.nan
  | .inf n, y => f.overflow false false .rne (n != y.isNeg) true
  | x, .inf n => b2n (x.isNeg != n) * 2 ^ (f.eb + f.mb)
  | .num n1 m1 e1, .num n2 m2 e2 =>
    if m2 = 0 then (if m1 = 0 then f.nan else f.overflow false false .rne (n1 != n2) true)
    else if m1 = 0 then b2n (n1 != n2) * 2 ^ (f.eb + f.mb)
    else
      let sh := 2 * f.mb + 8 + log2 m2
      let q := m1 * 2 ^ sh / m2
      let sticky := b2n (decide (m1 * 2 ^ sh % m2 ≠ 0))
      f.fin false false false .rne (n1 != n2) (2 * q + sticky) (e1 - e2 - sh - 1)

/-- One FP32 addition rounded to nearest-even. -/
def add32 (a b : Nat) : Nat := ff32.rne ((ff32.dec false a).add (ff32.dec false b))

/-- The K experts of highest score, in descending score order (R532). -/
def topExperts (k : Nat) (scores : List Nat) : List (Nat × Nat) :=
  (sortBy (fun (a b : Nat × Nat) => scoreGt a.2 b.2) (scores.zipIdx.map fun p => (p.2, p.1))).take k

/-- The assignments of one row: expert and weight bits (R532). -/
def rowAssigns (weighted : Bool) (k : Nat) (scores : List Nat) : List (Nat × Nat × Nat) :=
  let sel := topExperts k scores
  let sum := match sel with
    | [] => 0
    | x :: t => (t.map (·.2)).foldl add32 x.2
  sel.map fun x => (x.1, x.2, if weighted then ff32.div (ff32.dec false x.2) (ff32.dec false sum) else x.2)

/-- The order of an expert's assignments (R533): score descending, then rank, then row. -/
def assignBefore (a b : Nat × Nat × Nat) : Bool :=
  scoreGt a.1 b.1 || (!scoreGt b.1 a.1 && (decide (a.2.1 < b.2.1) || (decide (a.2.1 = b.2.1) && decide (a.2.2 < b.2.2))))

/-- The weight times an element, exactly (R538). -/
def prodOf (w : Nat) (fmt y : Nat) : Num := (ff32.dec false w).mul (decElem fmt false y)

/-- The record layout of R538. -/
def prodFmt : Nat := 0x20

/-! ### Tile-engine accumulation (R478) -/

/-- Sum of two FP32 values, rounded to nearest-even. -/
def addF32 (a b : Num) : Num := ff32.roundNum (a.add b)

/-- One of the five rounds of a block. -/
def pairRound32 : List Num → List Num
  | a :: b :: t => addF32 a b :: pairRound32 t
  | l => l

def pairRounds : Nat → List Num → List Num
  | 0, l => l
  | n + 1, l => pairRounds n (pairRound32 l)

/-- Accumulate products in blocks of 32, the last padded with exact zeros. -/
def tileAcc : Nat → Num → List Num → Num
  | 0, acc, _ => acc
  | n + 1, acc, ps =>
    if ps.isEmpty then acc
    else
      let b := ps.take 32
      let b := b ++ List.replicate (32 - b.length) (.num false 0 0)
      tileAcc n (addF32 acc ((pairRounds 5 b).headD (.num false 0 0))) (ps.drop 32)

/-- The FP32 inner product of two vectors from an accumulator. -/
def tileDot (acc : Num) (a b : List Num) : Num := tileAcc (a.length + 1) acc ((a.zip b).map fun p => p.1.mul p.2)

end Sys2Proof.Machine
end

