-- ==== Sys2Proof/Machine/ColFn.lean ====
section
/-! DEFINITION. The functions of a collective (chapter 08, 09): the parameters of a context (R405), what a function
accepts (R396, R397, R400, R442), its state per element (R476), how inputs merge and how the root forms the result
(R396, R400, R401, R441 to R443, R450, R472 to R475). -/

namespace Sys2Proof.Machine

/-! ### Parameters -/

def isReduce (pat : Nat) : Bool := decide (pat ≤ 2)
def isBarrier (pat func : Nat) : Bool := pat == 3 && func == 3
/-- ND operations (R484). -/
def isND (pat func fmt : Nat) : Bool :=
  (isReduce pat && func == 0 && fmt == 2) || (pat == 3 && func == 4) || (pat == 4 && func == 3)

/-- FMT accepted by the operation (R396). -/
def fmtAccepted (pat func fmt : Nat) : Bool :=
  match pat with
  | 0 | 1 | 2 =>
    match func with
    | 0 => decide (fmt ≤ 0x15)
    | 1 | 2 => decide (fmt ≤ 1) || (decide (3 ≤ fmt) && decide (fmt ≤ 7)) || (decide (0x0E ≤ fmt) && decide (fmt ≤ 0x15))
    | 3 | 4 | 5 => (decide (0x0E ≤ fmt) && decide (fmt ≤ 0x15)) || fmt == 0x1A
    | _ => (decide (3 ≤ fmt) && decide (fmt ≤ 7)) || (decide (0x0E ≤ fmt) && decide (fmt ≤ 0x13))
  | 4 => decide (0x16 ≤ fmt) && decide (fmt ≤ 0x19)
  | _ => decide (fmt < 0x1B)

/-- The function keeps exact records (R476). -/
def Params.exact (p : Params) : Bool := isReduce p.pattern && p.func == 0 && p.fmt != 1 && p.fmt != 2
/-- The function is XOR. -/
def Params.xor (p : Params) : Bool := isReduce p.pattern && p.func == 5
/-- Bytes of FUSED header and descriptors (R441). -/
def fusedHead (l : List Byte) : Nat := 8 + 8 * leAt l 0 2

/-- The parameters a contribution names (R405, R496). -/
def Params.ofContribution (pkt : Packet) (e : Ext) (payload : List Byte) : Params :=
  let pat := e.pattern.toNat
  let len :=
    if pat = 3 ∨ pat = 4 then 0
    else if e.form ≠ 0 then (leAt payload 1 1 + 1) * elemBytes e.fmt.toNat
    else pkt.length.toNat
  { pattern := pat, func := e.func.toNat, fmt := e.fmt.toNat, sat := e.sat, length := len,
    fused := if pat = 7 then fit payload (min payload.length (fusedHead payload)) else [] }

/-! ### FUSED sub-operations (R441, R442) -/

/-- A sub-operation: its parameters and region. -/
structure SubOp where
  params : Params
  off : Nat
  deriving DecidableEq, Repr

/-- The sub-operations of a header and descriptor block. -/
def subOps (head : List Byte) : List SubOp :=
  (List.range (leAt head 0 2)).map fun i =>
    let d := slice head (8 + 8 * i) 8
    { params := { pattern := bits (leAt d 0 1) 7 3, func := bits (leAt d 0 1) 2 0, fmt := bits (leAt d 1 1) 4 0,
                  sat := bit (leAt d 1 1) 7, length := leAt d 4 2, fused := [] },
      off := leAt d 2 2 }

/-- The descriptors of a FUSED payload of `len` bytes break none of R441's and R442's rules. -/
def fusedOk (head : List Byte) (len : Nat) : Bool :=
  let ops := subOps head
  let n := leAt head 0 2
  decide (n ≤ 64) && (slice head 2 6).all (· == 0) && decide (fusedHead head ≤ len) &&
    ((List.range n).all fun i => leAt head (8 + 8 * i + 6) 2 == 0 && bits (leAt head (8 + 8 * i + 1) 1) 6 5 == 0) &&
    ops.all (fun o => decide (o.params.pattern ≤ 1) && decide (o.params.func ≤ 5) && o.params.fmt != 2
      && fmtAccepted o.params.pattern o.params.func o.params.fmt && lenOk o.params.fmt o.params.length
      && o.off % 8 == 0 && decide (fusedHead head ≤ o.off) && decide (o.off + o.params.length ≤ len)) &&
    ops.zipIdx.all fun a => ops.zipIdx.all fun b =>
      a.2 == b.2 || decide (a.1.off + a.1.params.length ≤ b.1.off) || decide (b.1.off + b.1.params.length ≤ a.1.off)

/-! ### State per function (R476) -/

/-- State bytes of one sub-operation or of a plain function of `len` payload bytes. -/
def plainState (p : Params) (len : Nat) : Nat :=
  if p.exact then elemCount p.fmt len * recBytes p.fmt
  else if isReduce p.pattern ∧ p.func ≥ 6 then elemCount p.fmt len * 8
  else len

def pad8 (n : Nat) : Nat := ceilDiv n 8 * 8

/-- State bytes of a context whose contributions hold `len` bytes. -/
def stateBytes (p : Params) (len : Nat) : Nat :=
  if p.pattern = 7 then
    p.fused.length + ((subOps p.fused).map fun o => pad8 (plainState o.params o.params.length)).foldl (· + ·) 0
  else if p.pattern = 4 then (if p.func = 0 then len else 4096)
  else plainState p len

/-- The result payload's bytes when the inputs' LENGTH is `len`, for the RETAIN request. -/
def resultBytes (p : Params) (len : Nat) : Nat :=
  if isReduce p.pattern ∧ p.func ≥ 6 then elemCount p.fmt len * 8 else len

/-! ### A contribution as state -/

/-- The element values of a dense payload. -/
def denseVals (fmt : Nat) (l : List Byte) : List (List Nat) := (cut (elemBytes fmt) l.length l).map fun b => [leNat b]

/-- Elements of a contribution as decoded values. -/
def valNums (fmt : Nat) (flush : Bool) (vs : List (List Nat)) : List (List Num) := vs.map fun l => l.map (decElem fmt flush)

/-- The records of a sparse contribution: every value of an element enters (R499). -/
def recsOfVals (fmt : Nat) (flush : Bool) (vs : List (List Nat)) : List Rec :=
  (valNums fmt flush vs).map fun l => l.foldl (Rec.enter fmt) Rec.zero

def recsBytes (fmt : Nat) (rs : List Rec) : List Byte := rs.flatMap (Rec.bytes fmt)
def recsOfBytes (fmt : Nat) (l : List Byte) : List Rec := (cut (recBytes fmt) l.length l).map (Rec.ofBytes fmt)

/-- MIN or MAX of the values of one element, decoded with input flush (R472, R499). -/
def extreme (fmt : Nat) (isMax flush : Bool) (l : List Nat) : Nat :=
  match l with
  | [] => 0
  | x :: t => encSame fmt (t.foldl (fun a b => minMax isMax a (decElem fmt flush b)) (decElem fmt flush x))

/-- The format that MIN and MAX compare in: FMT 0x00 acts as 0x01 (R398). -/
def Params.efmt (p : Params) : Nat := if p.fmt = 0 then 1 else p.fmt

/-- A dense contribution of a plain function as its state. -/
def toState (p : Params) (a : ArithCfg) (rank : Nat) (l : List Byte) : List Byte :=
  let fl := a.flushIn
  if isReduce p.pattern then
    if p.exact then recsBytes p.fmt (enterAll p.fmt 1 [] (decodeAll p.fmt fl l))
    else
      match p.func with
      | 0 => (cut 8 l.length l).flatMap fun b => leBytes 8 (encSame 1 (decElem 1 fl (leNat b)))
      | 1 | 2 => (denseVals p.fmt l).flatMap fun v => leBytes (elemBytes p.fmt) (extreme p.efmt (p.func == 2) fl v)
      | 6 | 7 => (denseVals p.fmt l).flatMap fun v => leBytes 4 (encSame p.fmt (decElem p.fmt fl (v.headD 0))) ++ leBytes 4 rank
      | _ => l
  else l

/-- A sparse contribution of SUM, MIN or MAX as its state. -/
def sparseState (p : Params) (a : ArithCfg) (vs : List (List Nat)) : List Byte :=
  if p.exact then recsBytes p.fmt (recsOfVals p.fmt a.flushIn vs)
  else vs.flatMap fun v => leBytes (elemBytes p.fmt) (extreme p.efmt (p.func == 2) a.flushIn v)

/-! ### Merging -/

/-- Add records of a partial into records (R458). -/
def mergeRecs (fmt : Nat) (dir : Int) : List Rec → List Rec → List Rec
  | rs, [] => rs
  | [], q :: qs => Rec.zero.merge fmt dir q :: mergeRecs fmt dir [] qs
  | r :: rs, q :: qs => r.merge fmt dir q :: mergeRecs fmt dir rs qs

/-- Elements of a key and payload format. -/
def keyElems (fmt : Nat) (l : List Byte) : List (List Byte) := cut (elemBytes fmt) l.length l
def elemKey (fmt : Nat) (b : List Byte) : Nat := leAt b 0 (keyBytes fmt)

/-- Column `i` of a list of value lists. -/
def columns (n : Nat) (ls : List (List Num)) : List (List Num) :=
  (List.range n).map fun i => ls.filterMap fun l => l[i]?

/-- Combine the states of inputs given in rank order, or in order of confirmation for the ND functions. -/
def mergeStates (p : Params) (keyLo keyHi : Nat) (ls : List (List Byte)) : List Byte :=
  match ls with
  | [] => []
  | l0 :: rest =>
    if isReduce p.pattern then
      if p.exact then recsBytes p.fmt (ls.foldl (fun rs l => mergeRecs p.fmt 1 rs (recsOfBytes p.fmt l)) [])
      else
        match p.func with
        | 0 =>
          let vs := ls.map (decodeAll 1 false)
          let cols := columns ((vs.map List.length).foldl max 0) vs
          cols.flatMap fun c =>
            leBytes 8 (ff64.rne (if p.fmt = 1 then pairTree c.length c else
              match c with | [] => .num false 0 0 | x :: t => t.foldl add64 x))
        | 1 | 2 => rest.foldl (fun a l => zipBytes (elemBytes p.fmt) (fun x y =>
            encSame p.efmt (minMax (p.func == 2) (decElem p.efmt false x) (decElem p.efmt false y))) a l) l0
        | 6 | 7 => rest.foldl (fun a l => zipBytes 8 (argPick p.fmt (p.func == 7)) a l) l0
        | f => rest.foldl (fun a l => zipBytes 1 (bitFn f) a l) l0
    else if p.pattern = 4 then
      let es := ls.flatMap (keyElems p.fmt)
      match p.func with
      | 0 =>
        let k := (keyElems p.fmt l0).length
        ((sortBy (fun a b => decide (elemKey p.fmt a > elemKey p.fmt b)) es).take k).flatten
      | 1 => (sortBy (fun a b => decide (elemKey p.fmt a < elemKey p.fmt b)) es).flatten
      | _ => (es.filter fun b => decide (keyLo ≤ elemKey p.fmt b) && decide (elemKey p.fmt b ≤ keyHi)).flatten
    else l0

/-- The state of a FUSED contribution, or the merge of FUSED states, region by region (R476). -/
def fusedRegions (head : List Byte) : List (SubOp × Nat) :=
  let rec go : List SubOp → Nat → List (SubOp × Nat)
    | [], _ => []
    | o :: t, at_ => (o, at_) :: go t (at_ + pad8 (plainState o.params o.params.length))
  go (subOps head) head.length

def toFused (head : List Byte) (a : ArithCfg) (rank : Nat) (l : List Byte) : List Byte :=
  head ++ (subOps head).flatMap fun o =>
    fit (toState o.params a rank (slice l o.off o.params.length)) (pad8 (plainState o.params o.params.length))

def mergeFused (head : List Byte) (ls : List (List Byte)) : List Byte :=
  head ++ (fusedRegions head).flatMap fun r =>
    let n := plainState r.1.params r.1.params.length
    fit (mergeStates r.1.params 0 0 (ls.map fun l => slice l r.2 n)) (pad8 n)

/-! ### No input included (R432) -/

/-- The state of a plain function to which no input has entered. An exact sum's is the record of FIX 0; at the root NZ is 1, which
rounds to the +0 that R463 gives where no input is included. Of the other functions the spec gives no state: it is free (DESIGN CHOICE,
log 145). -/
def emptyPlain (root : Bool) (p : Params) (len : Nat) : List Byte :=
  if p.exact then recsBytes p.fmt (List.replicate (elemCount p.fmt len) { Rec.zero with nz := b2n root })
  else (List.range (plainState p len)).map (Config.noInput p.func p.fmt)

/-- The state of a context that completes with no input included. MOVE and SELECT hold no elements then. -/
def emptyState (root : Bool) (p : Params) : List Byte :=
  if p.pattern = 7 then
    p.fused ++ (fusedRegions p.fused).flatMap fun r =>
      fit (emptyPlain root r.1.params r.1.params.length) (pad8 (plainState r.1.params r.1.params.length))
  else if p.pattern ≤ 2 then emptyPlain root p p.length
  else []

/-! ### The result at the root -/

/-- Group and epoch word of the stochastic generator (R468). -/
def keyWord (k : CtxKey) : Nat := k.group.toNat + k.epoch.toNat * 2 ^ 24

/-- Round or lay out a completed plain state (R450, R475). -/
def finishState (p : Params) (a : ArithCfg) (k : CtxKey) (base : Nat) (st : List Byte) : List Byte :=
  if p.exact then roundAll p.fmt p.sat a (keyWord k) k.chunk.toNat base (recsOfBytes p.fmt st)
  else if isReduce p.pattern ∧ p.func = 0 then
    (cut 8 st.length st).flatMap fun b =>
      let v := decElem 1 a.flushOut (leNat b)
      leBytes 8 (encSame 1 v)
  else st

def finishFused (head : List Byte) (a : ArithCfg) (k : CtxKey) (len : Nat) (st : List Byte) : List Byte :=
  (fusedRegions head).zipIdx.foldl (fun out r =>
    let o := r.1.1
    patch out o.off (finishState o.params a k (r.2 * 65536) (slice st r.1.2 (plainState o.params o.params.length))))
    (head ++ List.replicate (len - head.length) 0)

/-- The chunk digest (R414). -/
def chunkDigest (k : CtxKey) (p : Params) (payload : List Byte) : List Byte :=
  shake256 (leBytes 3 k.group.toNat ++ leBytes 2 k.epoch.toNat ++ leBytes 4 k.chunk.toNat
    ++ [BitVec.ofNat 8 (p.pattern * 8 + p.func), BitVec.ofNat 8 p.fmt] ++ payload) 8

/-- A result encoded for the fabric: its FORM and payload (R495, R498). -/
def encodeResult (p : Params) (l : List Byte) : Nat × List Byte :=
  let n := elemCount p.fmt l.length
  if isReduce p.pattern ∧ p.func ≤ 2 ∧ sparseFmt p.fmt ∧ 0 < n ∧ n ≤ 256 then
    let enc := encodeTile p.fmt ((cut (elemBytes p.fmt) l.length l).map leNat)
    match enc with
    | t :: _ => if t = 0 then (0, l) else (t.toNat, enc)
    | [] => (0, l)
  else (0, l)

/-- A result expanded to dense for a member slot (R498). -/
def expandResult (fmt form : Nat) (l : List Byte) : List Byte :=
  if form = 0 then l
  else
    match readTile fmt l with
    | .tile t => (firstVals (spread t.n t.vals)).flatMap (leBytes (elemBytes fmt))
    | _ => l

/-! ### The order of statuses (R20) -/

/-- Rank of a status code in R20, OK last. -/
def statusRank (c : Nat) : Nat :=
  match c with
  | 0x02 => 0 | 0x08 => 1 | 0x07 => 2 | 0x0A => 3 | 0x01 => 4 | 0x05 => 5 | 0x04 => 6 | 0x0B => 7 | 0x0D => 8
  | 0x0C => 9 | 0x09 => 10 | 0x03 => 11 | 0x06 => 12 | 0 => 13 | _ => 1

/-- The status that R20 reports of two. -/
def worse (a b : Nat) : Nat := if statusRank b < statusRank a then b else a

end Sys2Proof.Machine
end

