-- ==== Sys2Proof/Machine/PageMap.lean ====
section
/-! DEFINITION. The register map: every register and table of every page, with its width, access and reset value
(the page-map rules of chapters 01 to 16). A register whose reads are computed from other state is listed here like
any other; Machine/Access.lean computes it. -/

namespace Sys2Proof.Machine

/-! ### Pages (R59) -/

def insPg : Nat := pg 4 0x01 0
def beatPg (d : Nat) : Nat := pg d 0x02 0
/-- LNK page of a device-wide port group. -/
def lnkPg (g : Nat) : Nat := pg (g / 16) 0x03 (g % 16)
def swcPg (d : Nat) : Nat := pg d 0x04 0
def schPg (g : Nat) : Nat := pg (g / 16) 0x05 (g % 16)
def telPg (d : Nat) : Nat := pg d 0x06 0
def bpmPg (d : Nat) : Nat := pg d 0x07 0
def colPg (d : Nat) : Nat := pg d 0x08 0
/-- CORE page of a device-wide core. -/
def corePg (c : Nat) : Nat := pg (c / 64) 0x09 (c % 64)
/-- RMEM page of a device-wide cluster. -/
def rmemPg (k : Nat) : Nat := pg (k / 8) 0x0A (k % 8)
/-- HBM page of a device stack. -/
def hbmPg (st : Nat) : Nat := pg (st / 4) 0x0B (st % 4)
def fltPg (d : Nat) : Nat := pg d 0x0C 0
def injPg (d : Nat) : Nat := pg d 0x0C 1
def topPg : Nat := pg 4 0x00 0
def secPg : Nat := pg 4 0x0D 0
def ctlPg : Nat := pg 4 0x0E 0
def pwrPg : Nat := pg 4 0x0F 0

/-- Instances a block has on each of its dies (R59). -/
def blockInsts (blk : Nat) : Nat :=
  match blk with
  | 0x03 | 0x05 => 16
  | 0x09 => 64
  | 0x0A => 8
  | 0x0B => 4
  | 0x0C => 2
  | 0x00 | 0x01 | 0x02 | 0x04 | 0x06 | 0x07 | 0x08 | 0x0D | 0x0E | 0x0F => 1
  | _ => 0

/-- The block stands on the control die (R59). -/
def blockOnCtl (blk : Nat) : Bool := blk == 0 || blk == 1 || blk == 0xD || blk == 0xE || blk == 0xF

/-! ### Register descriptions -/

/-- A register, or a row of `count` registers `stride` bytes apart. -/
structure Reg where
  off : Nat
  stride : Nat := 8
  count : Nat := 1
  /-- Width in bytes: 4 or 8. -/
  size : Nat := 8
  /-- One of the 8-byte words of a register wider than 64 bits or of a multi-byte area: R805 applies. -/
  wide : Bool := false
  /-- Bits that read as stored or computed; every other bit reads zero (R12). -/
  rd : Nat
  /-- Bits that a write sets (RW, WS), and bits that writing 1 clears (W1C). -/
  rw : Nat := 0
  w1c : Nat := 0
  /-- Bits open to unprivileged initiators (R66), and to JTAG before an unlock (R750). -/
  u : Nat := 0
  j : Nat := 0
  reset : Nat := 0
  /-- Dies that have it. -/
  dies : List Nat := [0, 1, 2, 3, 4]
  /-- Held by instance 0 only. -/
  inst0 : Bool := false

/-- All 64 bits, all 32 bits. -/
def m64 : Nat := 0xFFFFFFFFFFFFFFFF
def m32 : Nat := 0xFFFFFFFF

/-- RO 64-bit registers: `n` of them, `stride` bytes apart. -/
def cnts (off stride n : Nat) : Reg := { off := off, stride := stride, count := n, rd := m64 }
def cnt (off : Nat) : Reg := cnts off 8 1
/-- A 64-bit and a 32-bit RW or WS register with the writable bits `m`. -/
def rw64 (off m reset : Nat) : Reg := { off := off, rd := m, rw := m, reset := reset }
def rw32 (off m reset : Nat) : Reg := { off := off, size := 4, rd := m, rw := m, reset := reset }
def ro32 (off m : Nat) : Reg := { off := off, size := 4, rd := m }
def ro64 (off m : Nat) : Reg := { off := off, rd := m }
/-- The `n` words of a wide register. -/
def wideRo (off n : Nat) : Reg := { off := off, count := n, wide := true, rd := m64 }
def wideRw (off n : Nat) : Reg := { off := off, count := n, wide := true, rd := m64, rw := m64 }

/-- INS (R121, R123). -/
def insRegs : List Reg :=
  [ ro64 0x100 m64, ro64 0x108 0xFFFF, rw64 0x110 m64 0, { off := 0x118, size := 4, rd := 0 },
    rw32 0x120 m32 0x10000, ro32 0x128 m32, cnt 0x130, cnt 0x138, cnt 0x140, cnt 0x148,
    { off := 0x160, count := 17, size := 4, rd := 3, rw := 3 }, cnt 0x200, wideRo 0x240 8, wideRw 0x280 2,
    { off := 0x290, size := 4, rd := 0 }, ro32 0x298 3, wideRo 0x300 15, rw32 0x1000 0xFFFFF 0 ]

/-- BEAT (R173, R174). -/
def beatRegs : List Reg :=
  [ { off := 0x100, rd := m64, u := m64 }, { off := 0x108, rd := 0xFFFF010F0F0F, u := 0xF },
    { rw32 0x110 0x13 0 with dies := [0] }, { rw64 0x118 m64 0 with dies := [0] },
    { rw32 0x120 0x3F 24 with dies := [0] }, { rw32 0x128 0x1FFFF 0 with dies := [0] },
    { rw32 0x130 m32 0 with dies := [0] }, { rw32 0x138 0xFFFF 0x55 with dies := [0] },
    { rw32 0x140 m32 0x1000 with dies := [0] }, { rw32 0x148 m32 0x400 with dies := [0] },
    { rw32 0x150 0xF 6 with dies := [0] }, { rw32 0x158 0xFFFF 0 with dies := [0] },
    { ro32 0x160 m32 with dies := [0] }, { ro32 0x168 m32 with dies := [0] },
    { cnt 0x170 with dies := [0] }, { cnt 0x178 with dies := [0] },
    rw64 0x180 0xFFFFFFFFFFF 0, ro64 0x188 3, cnt 0x190, cnt 0x1A0, cnt 0x1A8, cnt 0x1B0, cnt 0x1B8,
    { rw64 0x400 m64 0 with stride := 16, count := 64 },
    { off := 0x408, stride := 16, count := 64, rd := 0xFFFFFF000000F712, rw := 0xFFFFFF0000000710 },
    { rw32 0x1000 0xFFFF 0xC0 with dies := [0] } ]

/-- LNK (R245, R246). BASE_PORT's reset depends on the group: `resetWord` adds it. -/
def lnkRegs : List Reg :=
  [ ro64 0x100 m64, ro32 0x108 0x1FFFF, rw32 0x110 1 0, cnt 0x118, cnt 0x120,
    cnts 0x200 0x40 8, cnts 0x208 0x40 8, cnts 0x210 0x40 8, cnts 0x218 0x40 8, cnts 0x220 0x40 8,
    cnts 0x228 0x40 8, cnts 0x230 0x40 8, cnts 0x238 0x40 8, cnts 0x400 0x10 8, cnts 0x408 0x10 8,
    cnts 0x500 0x20 8, cnts 0x508 0x20 8, cnts 0x510 0x20 8, cnts 0x518 0x20 8, cnts 0x600 0x10 8,
    cnts 0x608 0x10 8, rw32 0x1000 0xFF00000F 1, rw64 0x1008 0xF7F7F7F7F7F7F7F7 0x0706050403020100,
    { off := 0x1010, count := 8, rd := 0xFFFFFFFFFFF1FFFF, rw := 0xFFFFFFFFFFF133FF, reset := 0x81CC00 },
    rw32 0x1050 m32 0x0BA43B74, rw32 0x1058 m32 0x10, rw64 0x1060 0xFFFFFFFFFF 0x0400004000,
    rw32 0x1068 0xFFFF 0x88B5 ]

/-- SWC (R48, R50, R52, R290, R291). The resets of the mesh registers depend on the die: `resetWord`. -/
def swcRegs : List Reg :=
  [ cnts 0x100 8 12, wideRo 0x200 8, ro32 0xE00 0xFFFFF, ro32 0xE04 0xFFFFF, ro32 0xE08 m32,
    rw32 0x1000 1 0, rw64 0x1008 0xFF80FF80FF801F0F 0, rw64 0x1010 m64 0, rw32 0x1018 m32 0x800,
    rw32 0x1020 m32 0x76543210, { rw32 0x1040 m32 0 with count := 8 } ]

/-- SCH (R322, R323). -/
def schRegs : List Reg :=
  [ cnts 0x100 8 8, cnts 0x140 8 8, cnts 0x400 8 128, { rw32 0x1000 0xFF 0 with count := 8 } ]

/-- TEL (R326, R327). -/
def telRegs : List Reg :=
  [ rw64 0x100 0xFFFFFFFFFFF 0, rw32 0x108 m32 0, cnt 0x110, rw64 0x118 m64 0, cnt 0x120, ro32 0x128 3,
    { cnt 0x200 with dies := [0] }, { wideRo 0x800 64 with dies := [0] },
    { rw32 0x1000 0x1F 0xC with dies := [0] }, { rw32 0x1008 m32 0x100 with dies := [0] },
    { rw32 0x1010 m32 0x800 with dies := [0] }, { rw32 0x1018 0xF3 0 with dies := [0] },
    { rw64 0x1020 m64 0 with dies := [0] } ]

/-- BPM (R384, R385). -/
def bpmRegs : List Reg :=
  [ { off := 0x100, stride := 0x40, count := 9, rd := 0x000FFFFF000FFFFF },
    { off := 0x108, stride := 0x40, count := 9, rd := 0x000FFFFF000003FF },
    cnts 0x110 0x40 9, cnts 0x118 0x40 9, { cnts 0x120 0x40 9 with rd := 0xFFFFFFFFFFFF },
    cnt 0x400, cnt 0x408, cnt 0x410, cnt 0x418, { off := 0x420, rd := 0xF1, w1c := 1 }, cnt 0x428,
    ro32 0x430 m32, cnt 0x438, wideRo 0x440 2, cnt 0x450, cnt 0x458, cnt 0x460, cnt 0x468,
    { off := 0x470, rd := 0x7FFFF, w1c := 0x7FFFF }, rw64 0x478 0x7FFFF 0,
    rw32 0x1000 0xFFFF 0x40, rw32 0x1008 m32 0x00400100, rw32 0x1010 0x3FFF 0x400,
    rw64 0x1040 0x0FFFFFFFFFFFFFFF 0x0100000800002000, { rw64 0x1048 0x0FFFFFFFFFFFFFFF 0 with count := 4 },
    rw64 0x1080 0x0FFFFFFFFFFFFFFF 0x0020000100000400, { rw64 0x1088 0x0FFFFFFFFFFFFFFF 0 with count := 4 } ]

/-- COL (R447, R448). -/
def colRegs : List Reg :=
  [ cnts 0x100 8 15, ro32 0x178 m32, rw32 0x200 0x7F 0, rw32 0x208 0xFFFF 0, ro64 0x210 0xFFFF0000FFFFF007,
    { off := 0x218, size := 4, rd := 0 }, { off := 0x220, rd := 0xFFFFFFFFFF000001, w1c := 1 },
    ro32 0x228 m32, ro64 0x230 0x000FFFFF000FFFFF, wideRo 0x240 4,
    rw32 0x1000 m32 0x100000, rw64 0x1008 0xFFFFFFFFFF 0x0400004000, rw32 0x1010 m32 0x400000,
    rw32 0x1018 m32 0x400, wideRo 0x1020 8 ]

/-- CORE (R543, R544, R607, R608). -/
def coreRegs : List Reg :=
  [ rw32 0x100 1 0, cnts 0x108 8 8,
    { off := 0x200, stride := 0x20, count := 16, rd := 0xFFFFFFFFFFF0FFF7, u := 0xFFFFFFFFFFF0FFF7 },
    { off := 0x208, stride := 0x20, count := 16, rd := 0 },
    { off := 0x210, stride := 0x20, count := 16, rd := 0xFFFFFFFFFFFF, rw := 0xFFFFFFFFFFFF, u := 0xFFFFFFFFFFFF },
    { off := 0x218, stride := 0x20, count := 16, rd := m64, rw := m32, u := m64 },
    rw32 0x400 7 0, cnts 0x800 8 9, { off := 0x848, rd := 0x1FFFFFFFF, w1c := 0x100000000 },
    rw32 0x1000 0x17F 0, rw32 0x1008 m32 0x400000, rw64 0x1010 0xFFFFFFFFFF 0x0400004000,
    rw32 0x1800 0x3FFFF 0x30040 ]

/-- RMEM (R677, R678). -/
def rmemRegs : List Reg :=
  [ ro32 0x100 m32, cnts 0x108 8 5, { off := 0x130, rd := 0xC000000007FFFFFF, w1c := 0x8000000000000000 },
    { ro32 0x200 m32 with inst0 := true }, { ro32 0x208 m32 with inst0 := true },
    { ro32 0x210 m32 with inst0 := true }, { cnts 0x218 8 3 with inst0 := true }, rw32 0x1000 0xFFFF 0x40 ]

/-- HBM (R681, R682). -/
def hbmRegs : List Reg :=
  [ ro64 0x100 0xFFFFFFFFFFFFFF07, cnts 0x108 8 7,
    { off := 0x140, rd := 0x800001FFFFFFFFFF, w1c := 0x8000000000000000 }, cnt 0x148,
    rw32 0x1000 0xFFFF 0x100, rw32 0x1008 0xFF 4 ]

/-- FLT instance 0 (R725, R726). -/
def fltRegs : List Reg :=
  [ cnts 0x100 8 8, { cnt 0x140 with dies := [0] }, ro32 0x148 0x1FFF, rw32 0x200 3 0, { off := 0x208, rd := 0 },
    ro32 0x210 7, { off := 0x218, rd := 0x1F, w1c := 0x1F }, rw64 0x220 0x1F 0, ro64 0x228 0x8000003FFFFFFFFF,
    cnt 0x230, rw32 0x1000 m32 0x400000, rw32 0x1008 0xFF 8, rw32 0x1010 m32 0x10000, rw32 0x1018 m32 0x23E,
    rw32 0x1020 0xFFFF 0x100, rw32 0x1028 0xF7 0, rw64 0x1030 m64 0, rw32 0x1038 m32 0x5F5E1,
    { rw64 0x1040 0x801FFFFFFFFFFFFF 0x0010000000000000 with dies := [0] } ]

/-- FLT instance 1 (R728). -/
def injRegs : List Reg :=
  [ rw32 0x100 m32 0, rw64 0x108 m64 0, { off := 0x110, size := 4, rd := 0xEBF, rw := 0xBF } ]

/-- TOP (R773, R487, R488). -/
def topRegs : List Reg :=
  [ ro32 0x100 0xFFFF, cnt 0x108, cnt 0x180, wideRo 0x200 32, rw32 0x1080 1 0,
    { rw32 0x1100 0x37 0 with stride := 16, count := 16 }, { rw64 0x1108 m64 0 with stride := 16, count := 16 } ]

/-- SEC (R775). -/
def secRegs : List Reg :=
  [ { off := 0x100, size := 4, rd := 0 }, rw64 0x108 m64 0, ro32 0x110 0xFF03,
    { ro32 0x118 0x71F with j := 0x70F }, ro32 0x120 m32, wideRo 0x200 16, { wideRo 0x280 8 with j := m64 },
    wideRw 0x300 4, wideRo 0x400 64, { wideRo 0x600 4 with j := m64 },
    { off := 0x640, count := 36, wide := true, rd := 0, rw := m64, j := m64 },
    { off := 0x780, size := 4, rd := 0xFF00, j := 0xFF03 } ]

/-- CTL (R778). A register whose map shows no bit above 31 is taken as 32 bits wide (DEDUCED, log 5). -/
def ctlRegs : List Reg :=
  [ { off := 0x100, rd := 0xFFFFFFFF000001FF, rw := 0xFFFFFFFF000001FF, j := 0xFFFFFFFF000000FF },
    rw32 0x108 0xFFFF 1, rw64 0x110 m64 0, rw32 0x118 1 1, rw32 0x120 m32 0,
    { rw32 0x180 0x1F 0 with count := 16 },
    { off := 0x200, count := 4, rd := 0xFFFFFFFF00000013, rw := 0xFFFFFFFF00000003, w1c := 0x10 },
    { off := 0x240, rd := m64, w1c := 0x200 },
    { off := 0x260, count := 4, wide := true, rd := m64, w1c := m64 },
    { off := 0x280, rd := 0x80000FFFFFFFFFFF, w1c := 0x8000000000000000 }, cnt 0x288,
    rw64 0x300 0xFFFFFFFFFFFF 0, { off := 0x308, rd := m64, rw := m32 }, rw64 0x310 0xFFFFFFFFFFFF 0,
    { off := 0x318, rd := m64, rw := 0xFFFFFFFF00000000 }, cnt 0x320, cnt 0x328,
    { rw32 0x400 3 0 with stride := 0x40, count := 2 },
    { off := 0x408, stride := 0x40, count := 2, size := 4, rd := 0x73, w1c := 0x70 },
    { rw64 0x410 0xFFFFFFFFFFFF 0 with stride := 0x40, count := 2 },
    { off := 0x418, stride := 0x40, count := 2, rd := m64, rw := 0xFFFFFFFF00000000 },
    { rw64 0x420 0xFFFFFFFFFFFF 0 with stride := 0x40, count := 2 },
    { off := 0x428, stride := 0x40, count := 2, rd := m64, rw := 0xFFFFFFFF00000000 },
    cnts 0x430 0x40 2, { off := 0x438, stride := 0x40, count := 2, rd := 0xFFFFFFFFFFFF },
    { off := 0x500, size := 4, rd := 0x1FF }, ro32 0x508 0x7F7F, rw32 0x510 0xFFFF 0x516,
    rw64 0x600 0xFFFFFFFFFFFFFF06 0, ro32 0x608 1, wideRw 0x700 32,
    { rw32 0x800 0xCF 0 with stride := 4, count := 64 }, ro32 0x900 0xFFFF ]

/-- PWR (R803, R804). -/
def pwrRegs : List Reg :=
  [ { off := 0x100, count := 12, rd := 0x0000FFFF0000FFFF }, ro32 0x160 0xFFFF, ro64 0x168 0xFFFFFFFFFF,
    ro64 0x170 0x1F1F, cnt 0x178, { off := 0x180, size := 4, rd := 0 }, { ro32 0x188 0x1F with reset := 1 },
    rw32 0x1000 0xFFFF 0x76C, rw32 0x1008 0xFFFF 0x645F ]

/-- The registers of a page's block, the page header (R69) apart. -/
def blockRegs (blk inst : Nat) : List Reg :=
  match blk with
  | 0x00 => topRegs
  | 0x01 => insRegs
  | 0x02 => beatRegs
  | 0x03 => lnkRegs
  | 0x04 => swcRegs
  | 0x05 => schRegs
  | 0x06 => telRegs
  | 0x07 => bpmRegs
  | 0x08 => colRegs
  | 0x09 => coreRegs
  | 0x0A => rmemRegs
  | 0x0B => hbmRegs
  | 0x0C => if inst = 0 then fltRegs else injRegs
  | 0x0D => secRegs
  | 0x0E => ctlRegs
  | 0x0F => pwrRegs
  | _ => []

/-- The page header (R69 to R72). Any initiator reads the first four (R65). -/
def headerRegs : List Reg :=
  [ { ro32 0 m32 with u := m32 }, { ro32 4 m32 with u := m32 }, { ro32 8 m32 with u := m32 },
    { ro32 0xC m32 with u := m32 }, ro64 0x10 m64, { off := 0x18, rd := m64, w1c := m64 }, rw64 0x20 m64 0, cnt 0x28,
    ro64 0x30 m32, ro32 0x38 1 ]

/-- The row covers the page offset at one of its registers. -/
def Reg.covers (r : Reg) (off : Nat) : Bool :=
  decide (r.off ≤ off) && decide ((off - r.off) / r.stride < r.count) && decide ((off - r.off) % r.stride < r.size)

/-- The register that covers an offset of a page. -/
def findReg (die blk inst off : Nat) : Option Reg :=
  (if off < 0x100 then headerRegs else blockRegs blk inst).find? fun r =>
    r.covers off && r.dies.contains die && (!r.inst0 || inst == 0)

/-- Offset of the register itself (its first byte). -/
def Reg.base (r : Reg) (off : Nat) : Nat := off - (off - r.off) % r.stride

/-! ### Tables -/

/-- A table: `count` runs of `valid` bytes, `period` bytes apart. -/
structure Tbl where
  off : Nat
  period : Nat
  valid : Nat
  count : Nat := 1
  ro : Bool := false
  /-- Writable bits of successive 64-bit words of an entry, repeating. -/
  masks : List Nat := [0xFFFFFFFFFFFFFFFF]
  /-- Reset value of each 64-bit word. -/
  reset : Nat := 0
  inst0 : Bool := false

/-- A table of `len` bytes. -/
def tbl (off len : Nat) (masks : List Nat) (reset : Nat) : Tbl :=
  { off := off, period := len, valid := len, masks := masks, reset := reset }
def roTbl (off len : Nat) : Tbl := { off := off, period := len, valid := len, ro := true, masks := [0] }

/-- Writable bits of the eight words of a group entry (R388). -/
def groupMasks : List Nat :=
  [0x0FFF00FFFFFFFFFF, m64, 0x00FF07FF81FF00FF, 0x000FFFFF000FFFFF, m64, m64, 0, 0]

/-- The tables of a block (R123, R247, R292, R324, R386, R449, R609, R679, R683, R727, R776). -/
def blockTbls (blk inst : Nat) : List Tbl :=
  match blk with
  | 0x01 => [roTbl 0x4000 0x8000]
  | 0x03 => [tbl 0x4000 0x8000 [m64] 0, tbl 0xC000 0x800 [m64, 0x80FFFF] 0,
      tbl 0xC800 0x80 [0xFFFFFFFFFFFF, 0xFFFFFFFFFFFF] 0, tbl 0xD000 0x2000 [m64, m64, 0x0F87FF, 0] 0]
  | 0x04 => [tbl 0x4000 0x4000 [0xE0FFFFFFE0FFFFFF] 0, tbl 0x8000 0x2000 [m64] 0, tbl 0xA000 0x4000 [m64] 0,
      tbl 0xE000 0x2000 [m64] 0]
  | 0x05 => [tbl 0x4000 0x80 [0x0FFF0FFF0FFF0FFF] 0x0010001000100010,
      tbl 0x4080 0x80 [0x8FFF8FFF8FFF8FFF] 0x0010001000100010,
      tbl 0x4100 0x800 [0x0FFF0FFF0FFF0FFF] 0x0010001000100010,
      { off := 0x5000, period := 0x100, valid := 0xC8, count := 8, masks := [0x00FFFFFF00FFFFFF] },
      tbl 0x5800 0x400 [0x00FFFFFF00FFFFFF] 0]
  | 0x07 => [tbl 0x4000 0x2000 [0x000FFFFF000FFFFF] 0x40, tbl 0x6000 0x80 [0x000FFFFF000FFFFF] 0x100,
      tbl 0x6100 0x800 [0x800F00000000FFFF] 0, roTbl 0x7000 0x1000, roTbl 0x8000 0x40, roTbl 0x8100 0x2000,
      roTbl 0xA200 0x200]
  | 0x08 => [tbl 0x4000 0x8000 groupMasks 0, tbl 0xC000 0x4000 [0xFFFFFF000000FFFF] 0]
  | 0x09 => [roTbl 0x4000 0x8000, tbl 0xC000 0x800 [0x8FC00000FFFFFFFF] 0, roTbl 0xC800 0x800]
  | 0x0A => [tbl 0x4000 0x40 [0x000FFFFF000FFFFF] 0, { tbl 0x4100 0x40 [0x8000FFFF8000FFFF] 0 with inst0 := true },
      { roTbl 0x4200 0x40 with inst0 := true }]
  | 0x0B => [tbl 0x4000 0x40 [0x3F] 0x20]
  | 0x0C => if inst = 0 then [roTbl 0x4000 0x8000] else []
  | 0x0D => [roTbl 0x4000 0xC000]
  | _ => []

/-- The table that holds a page offset. -/
def findTbl (blk inst off : Nat) : Option Tbl :=
  (blockTbls blk inst).find? fun t =>
    decide (t.off ≤ off) && decide ((off - t.off) / t.period < t.count) && decide ((off - t.off) % t.period < t.valid)
      && (!t.inst0 || inst == 0)

/-- Writable bits of the aligned 64-bit word at a page offset of the table. -/
def Tbl.mask (t : Tbl) (off : Nat) : Nat := t.masks.getD (((off - t.off) % t.period) / 8 % t.masks.length) 0

/-! ### Reset values -/

/-- Reset of SWC_D2D_STATUS and SWC_D2D_PATH (R48, R50). -/
def d2dStatusReset (d : Nat) : Nat :=
  (if d % 2 = 0 then 0x10000 else 0) + listMask ((setOf 4 (· ≠ d)).map (4 * ·))
def d2dPathReset (d : Nat) : Nat := (if d = 2 then 0x28888 else 0x8888) + 2 ^ (4 * d)

/-- The entry of HBM_GROUP_OWNER that holds this address is of the control partition: it reads zero and ignores writes
(R660). -/
def controlOwner (a : Nat) : Bool := decide (pg 0 0x0B 0 + 0x4000 ≤ a) && decide (a < pg 0 0x0B 0 + 0x4020)

/-- The word that an address holds at reset. -/
def resetWord (a : Nat) : Word :=
  if a < 0xF0000000000 || 0xF0800000000 ≤ a then 0
  else
    let die := addrDie a; let blk := addrBlk a; let inst := addrInst a; let off := addrOff a
    if 0x4000 ≤ off then
      match findTbl blk inst off with
      | some t => if controlOwner a then 0 else BitVec.ofNat 64 t.reset
      | none => 0
    else
      match findReg die blk inst off with
      | none => 0
      | some r =>
        let extra :=
          if blk = 3 ∧ off = 0x1000 then (2 * (die * 16 + inst) % 256) * 2 ^ 24
          else if blk = 4 ∧ off = 0xE00 then d2dStatusReset die
          else if blk = 4 ∧ off = 0xE04 then d2dPathReset die
          else 0
        BitVec.ofNat 64 (r.reset + extra)

/-! ### Reading and writing the stored words -/

/-- A word of a register file: its reset value when unlisted. -/
def RegFile.get (f : RegFile) (a : Nat) : Word := Map.get f a (resetWord a)
/-- Store a word; a word at its reset value is left out. -/
def RegFile.set (f : RegFile) (a : Nat) (v : Word) : RegFile := Map.put f a v (resetWord a)
/-- Canonical form of a register file. -/
def RegFile.wf (f : RegFile) : Bool := Map.sorted f && f.all fun p => p.2 != resetWord p.1

/-- A field of a live register. -/
def Dev.lv (s : Dev) (a hi lo : Nat) : Nat := fld (RegFile.get s.live a) hi lo
/-- Set a field of a live register. -/
def Dev.setLv (s : Dev) (a hi lo v : Nat) : Dev :=
  { s with live := RegFile.set s.live a (setFld (RegFile.get s.live a) hi lo v) }
/-- Set a whole live register. -/
def Dev.putLv (s : Dev) (a : Nat) (v : Nat) : Dev := { s with live := RegFile.set s.live a (BitVec.ofNat 64 v) }
/-- Add to a saturating counter field of a live register. -/
def Dev.addLv (s : Dev) (a hi lo n : Nat) : Dev := s.setLv a hi lo (satAdd (hi + 1 - lo) (s.lv a hi lo) n)
/-- Count one more in a saturating 64-bit counter. -/
def Dev.count (s : Dev) (a : Nat) : Dev := s.addLv a 63 0 1
/-- A field of a staged register of the active instar. -/
def Dev.cfg (s : Dev) (a hi lo : Nat) : Nat := fld (RegFile.get s.active a) hi lo
/-- `n` bytes (up to 8, not crossing a word) of a table of a register file, as a number. -/
def RegFile.part (f : RegFile) (a n : Nat) : Nat :=
  bits (RegFile.get f (a - a % 8)).toNat (8 * (a % 8) + 8 * n - 1) (8 * (a % 8))
/-- `n` bytes of a register file from an 8-aligned address on. -/
def RegFile.bytes (f : RegFile) (a : Nat) : Nat → List Byte
  | 0 => []
  | n + 1 => BitVec.ofNat 8 ((RegFile.get f (a - a % 8)).toNat / 2 ^ (8 * (a % 8))) :: RegFile.bytes f (a + 1) n
/-- Bytes put into a register file from an address on. -/
def RegFile.putBytes (f : RegFile) (a : Nat) : List Byte → RegFile
  | [] => f
  | b :: t =>
    RegFile.putBytes
      (RegFile.set f (a - a % 8) (setFld (RegFile.get f (a - a % 8)) (8 * (a % 8) + 7) (8 * (a % 8)) b.toNat)) (a + 1) t

end Sys2Proof.Machine
end

