-- ==== Sys2Proof/Machine/Ops.lean ====
section
/-! DEFINITION. Operations every block shares: units and their presence (R2, R5, R7, R684, R685), ports and their
numbers (R180 to R186), fault collection (R687, R701 to R706, R711 to R713, R719), free values, the derived signals
(R736, R746, R747, R785), and `run`, which every meaning goes through. -/

namespace Sys2Proof.Machine

/-! ### Small things -/

/-- Append to the trace of what leaves the device. -/
def Dev.emit (s : Dev) (e : Emit) : Dev := { s with sent := s.sent ++ [e] }

/-- The next free value (log 4), and the device with the counter advanced. -/
def Dev.draw (s : Dev) : Word × Dev := (Config.freeWord s.fresh, { s with fresh := s.fresh + 1 })

/-- `n` free words. -/
def drawMany : Nat → Dev → List Word × Dev
  | 0, s => ([], s)
  | n + 1, s => let d := s.draw; let r := drawMany n d.2; (d.1 :: r.1, r.2)

/-- `n` free bytes (up to a whole number of words). -/
def drawBytes (n : Nat) (s : Dev) : List Byte × Dev :=
  let r := drawMany (ceilDiv n 8) s
  ((r.1.flatMap fun w => leBytes 8 w.toNat).take n, r.2)

/-- The device's node number (R55). -/
def Dev.own (s : Dev) : Nat := s.cfg (insPg + 0x1000) 19 0

/-- INS_STATUS.STATE (R121): 0 IDLE, 1 ARMED, 2 HOLD, 3 RETIRE. -/
def Dev.insState (s : Dev) : Nat := s.lv (insPg + 0x108) 2 0
def Dev.setInsState (s : Dev) (v : Nat) : Dev := s.setLv (insPg + 0x108) 2 0 v
def Dev.setMoltResult (s : Dev) (v : Nat) : Dev := s.setLv (insPg + 0x108) 15 8 v

/-- BEAT_STATUS.ALIGNED (R132). -/
def Dev.aligned (s : Dev) : Bool := s.lv (beatPg 0 + 0x108) 3 3 == 1

/-! ### Units (R684, R685) -/

def unitId (die cls inst : Nat) : BitVec 32 := BitVec.ofNat 32 (die * 2 ^ 29 + cls * 2 ^ 24 + inst)
def unitDie (u : BitVec 32) : Nat := bits u.toNat 31 29
def unitClass (u : BitVec 32) : Nat := bits u.toNat 28 24
def unitInst (u : BitVec 32) : Nat := bits u.toNat 23 0

/-- Unit of a physical lane of a group. -/
def laneUnit (g phys : Nat) : BitVec 32 := unitId (g / 16) 0x01 (g % 16 * 8 + phys)
/-- Unit of a logical port of a die. -/
def portUnit (die lp : Nat) : BitVec 32 := unitId die 0x02 lp
def groupUnit (g : Nat) : BitVec 32 := unitId (g / 16) 0x03 (g % 16)
def engineUnit (c e : Nat) : BitVec 32 := unitId (c / 64) 0x04 (c % 64 * 8 + e)
def coreUnit (c : Nat) : BitVec 32 := unitId (c / 64) 0x05 (c % 64)
def clusterUnit (k : Nat) : BitVec 32 := unitId (k / 8) 0x06 (k % 8)
def pcUnit (st pc : Nat) : BitVec 32 := unitId (st / 4) 0x07 (st % 4 * 32 + pc)
def stackUnit (st : Nat) : BitVec 32 := unitId (st / 4) 0x08 (st % 4)
def d2dUnit (d peer : Nat) : BitVec 32 := unitId d 0x09 peer
def blockUnit (d blk inst : Nat) : BitVec 32 := unitId d 0x0A (blk * 2 ^ 16 + inst)

/-- The collector that keeps a unit: the control die's is die 0's (R47). -/
def collectorOf (die : Nat) : Nat := if die = 4 then 0 else die

/-- A configuration as a die reads it: an entry whose memory is damaged reads as its reset value, which is invalid or empty,
until the next molt rewrites it (R288, R320, R445). -/
def Dev.sees (s : Dev) (d : Nat) (f : RegFile) : RegFile :=
  s.damaged.foldl (fun g x => if x.1 = d then RegFile.putBytes g x.2.1 (RegFile.bytes [] x.2.1 x.2.2) else g) f

/-- The unit is fenced (R692). -/
def Dev.fencedUnit (s : Dev) (u : BitVec 32) : Bool :=
  ((s.collectors.getD (collectorOf (unitDie u)) Collector.reset).fenced).contains u

/-! ### Presence (R2, R5, R7) -/

def Dev.grade (s : Dev) : Nat := s.sec.grade.toNat
def Dev.groupPresent (s : Dev) (g : Nat) : Bool := decide (g < 64) && (s.grade != 3 || decide (g < 48))
def Dev.corePresent (s : Dev) (c : Nat) : Bool :=
  decide (c < 256) && (s.grade != 2 || !(c / 8 % 4 == 3 && decide (c % 8 ≥ 6)))
/-- FP64-exact hardware (R486). -/
def Dev.fp64x (s : Dev) : Bool := s.grade != 2

/-- The core is present and not fenced, nor is its cluster (R31). -/
def Dev.coreUp (s : Dev) (c : Nat) : Bool :=
  s.corePresent c && !s.fencedUnit (coreUnit c) && !s.fencedUnit (clusterUnit (c / 8))
/-- The engine is present and not fenced. -/
def Dev.engineUp (s : Dev) (c e : Nat) : Bool := s.coreUp c && !s.fencedUnit (engineUnit c e)
def Dev.corePart (s : Dev) (c : Nat) : Nat := s.cfg (corePg c + 0x1000) 3 0
def Dev.coreClass (s : Dev) (c : Nat) : Nat := s.cfg (corePg c + 0x1000) 6 4

/-! ### Ports -/

/-- A port at reset. -/
def Port.reset : Port :=
  { peer := none, granted := List.replicate 8 0, used := List.replicate 8 0, ours := List.replicate 8 0, txSeq := 0,
    unacked := [], lastNak := 0, resends := 0, rxSeq := 0, ackSeq := 0xFFFF, nak := false, ctlSeq := 0xFFFF, asm := [], asmSop := 0,
    asmVc := 0, asmOpen := false, asmTick := 0, lastOk := 0, since := 0, lanes := [], newLanes := [], kept := 0, skip := [], waiting := [], rxBytes := [],
    ctlWait := [], queue := [], flushHeld := [],
    flushing := false, held := [], early := [], sched := [], shapers := [], policers := [], paused := [],
    pausing := [], restart := false }

def Dev.port (s : Dev) (p : Nat) : Port := Map.get s.ports p Port.reset
def Dev.setPort (s : Dev) (p : Nat) (x : Port) : Dev := { s with ports := Map.put s.ports p x Port.reset }
def Dev.updPort (s : Dev) (p : Nat) (f : Port → Port) : Dev := s.setPort p (f (s.port p))

/-- The configuration a group's link runs: the previous one for a group that is to restart when STATE leaves HOLD
(R192), the active one otherwise. -/
def Dev.lnkFile (s : Dev) (g : Nat) : RegFile :=
  if (List.range 8).any fun k => (s.port (g * 8 + k)).restart then
    match s.previous with
    | some i => i.content
    | none => s.active
  else s.active

/-- A field of the group's LNK configuration that the link runs. -/
def Dev.lnkCfg (s : Dev) (g off hi lo : Nat) : Nat := fld (RegFile.get (s.lnkFile g) (lnkPg g + off)) hi lo

def Dev.split (s : Dev) (g : Nat) : Nat := s.lnkCfg g 0x1000 3 0
/-- Ports of the group (R180). -/
def splitPorts (split : Nat) : Nat := match split with | 0 => 1 | 1 => 2 | 2 => 4 | 3 => 8 | _ => 0
def Dev.basePort (s : Dev) (g : Nat) : Nat := s.lnkCfg g 0x1000 31 24
def Dev.portMode (s : Dev) (p : Nat) : Nat := s.lnkCfg (p / 8) (0x1010 + 8 * (p % 8)) 3 0
def Dev.portChannel (s : Dev) (p : Nat) : Nat := s.lnkCfg (p / 8) (0x1010 + 8 * (p % 8)) 7 4
/-- A field of LNK_PORT_CFG that acts at the molt beat (R192). -/
def Dev.portCfg (s : Dev) (p hi lo : Nat) : Nat := s.cfg (lnkPg (p / 8) + 0x1010 + 8 * (p % 8)) hi lo
def Dev.lossless (s : Dev) (p vc : Nat) : Bool := bit (s.portCfg p 15 8) vc
def Dev.logNum (s : Dev) (p : Nat) : Nat := s.basePort (p / 8) + p % 8
/-- Physical lane that serves a logical lane (R184). -/
def Dev.physLane (s : Dev) (g l : Nat) : Nat := s.lnkCfg g 0x1008 (8 * l + 2) (8 * l)
/-- The logical lane mapped to a physical lane. -/
def Dev.logLane (s : Dev) (g phys : Nat) : Option Nat := (List.range 8).find? fun l => s.physLane g l == phys

def Dev.groupHasMode (s : Dev) (g : Nat) : Bool :=
  (List.range (splitPorts (s.split g))).any fun k => s.portMode (g * 8 + k) != 0

/-- The group is in CFG_ERR (R180, R182, R184). -/
def Dev.groupCfgErr (s : Dev) (g : Nat) : Bool :=
  let n := splitPorts (s.split g)
  let b := s.basePort g
  n == 0 || decide (b + n > 256)
    || (List.range 8).any (fun l => (List.range l).any fun m => s.physLane g l == s.physLane g m)
    || (List.range 64).any fun h =>
      h != g && s.groupPresent h && decide (b < s.basePort h + splitPorts (s.split h)) && decide (s.basePort h < b + n)
        && (s.groupHasMode h || s.groupHasMode g)

/-- The port exists under the split of a present group. -/
def Dev.portThere (s : Dev) (p : Nat) : Bool := s.groupPresent (p / 8) && decide (p % 8 < splitPorts (s.split (p / 8)))
/-- The port exists under the split of a present group free of CFG_ERR. -/
def Dev.portExists (s : Dev) (p : Nat) : Bool := s.portThere p && !s.groupCfgErr (p / 8)

/-- The place of a logical port number (R181). -/
def Dev.placeOf (s : Dev) (lp : Nat) : Option Nat :=
  (List.range 512).find? fun p =>
    decide (s.basePort (p / 8) ≤ lp) && s.logNum p == lp && decide (p % 8 < splitPorts (s.split (p / 8)))
      && s.groupPresent (p / 8) && (s.portMode p != 0) && !s.groupCfgErr (p / 8)

/-- LNK_PORT_STATE (R186, R245). -/
def Dev.portState (s : Dev) (p : Nat) : Nat := s.lv (lnkPg (p / 8) + 0x100) (4 * (p % 8) + 3) (4 * (p % 8))
def Dev.setPortState (s : Dev) (p v : Nat) : Dev :=
  (s.setLv (lnkPg (p / 8) + 0x100) (4 * (p % 8) + 3) (4 * (p % 8)) v).updPort p fun x => { x with since := s.ticks }
def Dev.setWidthField (s : Dev) (p v : Nat) : Dev :=
  s.setLv (lnkPg (p / 8) + 0x100) (35 + 4 * (p % 8)) (32 + 4 * (p % 8)) v
/-- Lanes in use: 0, 1, 2, 4 or 8. -/
def Dev.portWidth (s : Dev) (p : Nat) : Nat :=
  match s.lv (lnkPg (p / 8) + 0x100) (35 + 4 * (p % 8)) (32 + 4 * (p % 8)) with
  | 1 => 1 | 2 => 2 | 3 => 4 | 4 => 8 | _ => 0
def widthCode (w : Nat) : Nat := match w with | 1 => 1 | 2 => 2 | 4 => 3 | 8 => 4 | _ => 0
/-- The logical lanes in use, and the width they make. -/
def Dev.useLanes (s : Dev) (p : Nat) (l : List Nat) : Dev :=
  (s.updPort p fun x => { x with lanes := l }).setWidthField p (widthCode l.length)

/-- SWC_PORT_FWD_STATE of a logical port, one content for the package (R282, R290). -/
def fwdAddr (lp : Nat) : Nat := swcPg 0 + 0x200 + lp / 32 * 8
def Dev.fwdState (s : Dev) (lp : Nat) : Nat := s.lv (fwdAddr lp) (2 * (lp % 32) + 1) (2 * (lp % 32))
def Dev.setFwdState (s : Dev) (lp v : Nat) : Dev := s.setLv (fwdAddr lp) (2 * (lp % 32) + 1) (2 * (lp % 32)) v

/-- The port is live (R254). -/
def Dev.portLive (s : Dev) (p : Nat) : Bool :=
  s.portState p == 5 && s.portMode p != 0 && s.fwdState (s.logNum p) == 1
/-- The logical port is live. -/
def Dev.logLive (s : Dev) (lp : Nat) : Bool :=
  match s.placeOf lp with
  | some p => s.portLive p
  | none => false

def isEndpointMode (mode : Nat) : Bool := decide (2 ≤ mode) && decide (mode ≤ 4)
def isPorone (mode : Nat) : Bool := decide (1 ≤ mode) && decide (mode ≤ 3)

/-- The peer node of a port (R219). -/
def Dev.peerNode (s : Dev) (p : Nat) : Nat :=
  if s.portMode p = 1 then
    match (s.port p).peer with
    | some m => m.node.toNat
    | none => 0
  else s.portCfg p 63 44

/-- Counters of a port in its LNK page. -/
def Dev.countPort (s : Dev) (p off stride : Nat) : Dev := s.count (lnkPg (p / 8) + off + stride * (p % 8))

/-! ### Fault collection -/

/-- Class of a PG_FAULT bit (R288, R320, R381, R445, R605, R674, R675, R690, R771, R801): 0 CORRECTED, 1 DEGRADED,
2 FENCED, 3 FATAL; `none` for a reserved bit. -/
def faultClass (blk bit : Nat) : Option Nat :=
  let row := match blk with
    | 0x01 => [1, 3]
    | 0x02 => [1, 3]
    | 0x03 => [2, 2, 1, 1, 1, 2, 2]
    | 0x04 => [0, 1, 0, 1, 2, 3, 3]
    | 0x05 => [0, 1]
    | 0x06 => [1, 1]
    | 0x07 => [0, 1, 1, 1, 3]
    | 0x08 => [0, 1, 1, 3]
    | 0x09 => [0, 1, 0, 1, 0, 1, 2, 2]
    | 0x0A => [0, 1, 1, 2]
    | 0x0B => [0, 1, 2, 2, 1, 3, 3]
    | 0x0C => [0, 1, 1, 3]
    | 0x0D => [0, 3]
    | 0x0E => [0, 3, 3]
    | 0x0F => [3, 3, 3]
    | _ => []
  row[bit]?

/-- Entry states (R711). -/
def esClear : Nat := 1
def esActive : Nat := 2
def esFenced : Nat := 3
def esHeld : Nat := 4
def esFatal : Nat := 5

def Dev.collector (s : Dev) (d : Nat) : Collector := s.collectors.getD d Collector.reset
def Dev.setCollector (s : Dev) (d : Nat) (c : Collector) : Dev := { s with collectors := s.collectors.set d c }

/-- Slot of a unit's entry. -/
def Collector.slotOf (c : Collector) (u : BitVec 32) : Option Nat := (c.entries.find? fun p => p.2.unit == u).map (·.1)
def Collector.entry (c : Collector) (u : BitVec 32) : Option FEntry := (c.entries.find? fun p => p.2.unit == u).map (·.2)

/-- The lowest slot from `k` on that is not listed. -/
def firstFree : Map FEntry → Nat → Nat
  | [], k => k
  | (a, _) :: t, k => if a = k then firstFree t (k + 1) else k

/-- The slot a new entry takes: the lowest FREE one, else the CLEAR one with the oldest LAST_BEAT (R702, R718). -/
def Collector.newSlot (c : Collector) : Option Nat :=
  let k := firstFree c.entries 0
  if k < 4096 then some k
  else (minBy (fun p => p.2.last.toNat) (c.entries.filter fun p => p.2.state == esClear)).map (·.1)

/-- The bit of a unit's class in FLT_AUTO_MASK is 1 and its recovery count is below the limit (R712, R714). -/
def Dev.autoExit (s : Dev) (d : Nat) (u : BitVec 32) (recov : Nat) : Bool :=
  bit (s.cfg (fltPg d + 0x1018) 31 0) (unitClass u) && decide (recov < s.cfg (fltPg d + 0x1008) 7 0)

/-- The state a report of class `cls` gives an entry (R711, R712). -/
def nextEntryState (auto : Bool) (old cls : Nat) : Nat :=
  match cls with
  | 0 => if old = 0 then esClear else old
  | 1 => if old = esFenced ∨ old = esHeld ∨ old = esFatal then old else esActive
  | 2 => if old = esHeld then esHeld else if old = esFatal then esFatal else if auto then esFenced else esHeld
  | _ => esFatal

/-- The entries that took their slots in the beat of tick `now`, in ascending reporter order: as if the reports that reach a
collector in one beat had come in that order (R702, R703). -/
def orderSlots (now : Nat) (m : Map FEntry) : Map FEntry :=
  let new := m.filter fun x => x.2.slotTick == now && decide (x.2.count > 0)
  let es := sortBy (fun (a b : FEntry) => decide (a.reporter < b.reporter)) (new.map (·.2))
  ((new.map (·.1)).zip es).foldl (fun t x => Map.insert t x.1 x.2) m

/-- The slot that a report with a lower reporter of the same beat would have taken, when no other is left (R703, R718). -/
def Collector.lateSlot (c : Collector) (now : Nat) (reporter : BitVec 32) : Option (Nat × FEntry) :=
  minBy (fun p => 2 ^ 32 - p.2.reporter.toNat)
    (c.entries.filter fun p => p.2.slotTick == now && decide (p.2.count > 0) && decide (reporter < p.2.reporter))

/-- FLT_NOTICE_WINDOW (R726). -/
def Dev.noticeWindow (s : Dev) (d : Nat) : Nat := max 1 (s.cfg (fltPg d + 0x1038) 31 0)

/-- The notice window as a report finds it: one whose time has passed, its notice sent and no report since, is closed (R704). -/
def Dev.openWindow (s : Dev) (d : Nat) (e : FEntry) : Option (Nat × Bool × Bool) :=
  match e.window with
  | some (t, true, false) => if t + s.noticeWindow d ≤ s.ticks then none else e.window
  | w => w

/-- A new entry, before its first report. -/
def Dev.newEntry (s : Dev) (u : BitVec 32) (r : Report) : FEntry :=
  { unit := u, reporter := r.reporter, first := s.beat, last := s.beat, count := 0, state := 0, cls := r.cls, injected := r.injected,
    recov := 0, firstBit := r.bit, lastTick := s.ticks, slotTick := s.ticks, quietFrom := none, checking := none,
    decayFrom := s.ticks, window := none }

/-- A unit's entry after one report, and whether the report fell into an open notice window (R702, R704, R705, R711 to R713). -/
def Dev.takeReport (s : Dev) (d : Nat) (u : BitVec 32) (old : Option FEntry) (r : Report) : FEntry × Bool :=
  let e := old.getD (s.newEntry u r)
  let e1 : FEntry :=
    if e.state ≤ esClear then
      { e with reporter := r.reporter, first := s.beat, firstBit := r.bit, count := 1, cls := r.cls, injected := r.injected }
    else { e with count := satAdd 32 e.count 1, cls := max e.cls r.cls, injected := e.injected || r.injected }
  let opens := r.cls ≥ 1 || s.cfg (fltPg d + 0x1028) 2 2 == 1
  let w := s.openWindow d e
  let win := match w with
    | some (t, sent, late) => some (t, sent, late || sent)
    | none => if opens then some (s.ticks, false, false) else none
  ({ e1 with last := s.beat, state := nextEntryState (s.autoExit d u e.recov) e.state r.cls, lastTick := s.ticks, decayFrom := s.ticks,
             quietFrom := if r.cls = 1 ∨ r.cls = 2 then some s.ticks else e.quietFrom, window := win }, w.isSome)

/-- The entry after reports in their order, and how many of them fell into an open window. -/
def Dev.takeReports (s : Dev) (d : Nat) (u : BitVec 32) (old : Option FEntry) (l : List Report) : Option FEntry × Nat :=
  l.foldl (fun a r => let x := s.takeReport d u a.1 r; (some x.1, a.2 + b2n x.2)) (old, 0)

/-- What a collector has heard of a unit in this beat: its entry before, and the reports since (R703). -/
def Dev.heardOf (s : Dev) (d : Nat) (u : BitVec 32) (old : Option FEntry) : Option FEntry × List Report :=
  let c := s.collector d
  match if c.heardAt = s.ticks ∧ old.isSome then c.heard.find? (·.1 == u) else none with
  | some h => h.2
  | none => (old, [])

/-- Apply a report to the entry in a slot, or open it there (R702). The reports of one beat are taken in ascending reporter (R703):
a later one of the beat has the entry formed anew from them all. -/
def Dev.putReport (s : Dev) (d slot : Nat) (old : Option FEntry) (u : BitVec 32) (r : Report) : Dev :=
  let c := s.collector d
  let was := s.heardOf d u old
  let rs := sortBy (fun a b => decide (a.reporter < b.reporter)) (was.2 ++ [r])
  let now := s.takeReports d u was.1 rs
  match now.1 with
  | none => s
  | some e =>
    let gone := match Map.find c.entries slot with | some x => x.unit | none => u
    let heard := (if c.heardAt = s.ticks then c.heard else []).filter fun h => h.1 != u && h.1 != gone
    let s := s.setCollector d { c with entries := orderSlots s.ticks (Map.insert c.entries slot e), heardAt := s.ticks,
                                       heard := heard ++ [(u, was.1, rs)] }
    let s := s.addLv (fltPg d + 0x130) 63 0 (now.2 - (s.takeReports d u was.1 was.2).2)
    if e.state = esHeld ∧ (match old with | some o => o.state | none => 0) ≠ esHeld then s.setLv (fltPg d + 0x218) 2 2 1 else s

/-- Record a FATAL report in the detecting die's log (R719). -/
def Dev.logFatal (s : Dev) (d : Nat) (u reporter : BitVec 32) (bit : Nat) : Dev :=
  let s := s.putLv (fltPg d + 0x228) (2 ^ 63 + bit % 64 * 2 ^ 32 + u.toNat)
  let s := s.putLv (fltPg d + 0x230) s.beat.toNat
  s.setCollector d { s.collector d with fatalBy := some (s.ticks, reporter) }

/-- A FATAL report stops the package (R719, R808). A second one does not change the log (R720), unless it is of the same beat
and of a lower reporter, and is then the first (R703). -/
def Dev.goFatal (s : Dev) (d : Nat) (u reporter : BitVec 32) (bit : Nat) : Dev :=
  if s.fatal then
    match (s.collector d).fatalBy with
    | some (t, r) => if t = s.ticks ∧ reporter < r then s.logFatal d u reporter bit else s
    | none => s
  else
    let s := { s.logFatal d u reporter bit with fatal := true }
    match s.molt with
    | none => s
    | some _ =>
      let s := { s with molt := none }
      (s.setInsState (if s.retiring.isSome then 3 else 0)).setMoltResult 0x0B

/-- P of the summary period (R708, R726). -/
def Dev.sumPower (s : Dev) : Nat :=
  let p := s.cfg (fltPg 0 + 0x1040) 52 48
  if 12 ≤ p ∧ p ≤ 24 then p else 16

/-- Mark the nodes that the fault summary names in the present period (R708). -/
def Dev.markSummary (s : Dev) (u : BitVec 32) : Dev :=
  let nodes := s.own :: (if unitClass u = 0x02 then
    match s.placeOf (unitInst u) with
    | some p => [s.peerNode p]
    | none => [] else [])
  if s.cfg (fltPg 0 + 0x1040) 63 63 = 0 then s
  else
    let k := s.beat.toNat / 2 ^ s.sumPower
    let add := fun (l : List (Nat × Nat)) (n : Nat) =>
      if l.any fun x => x.1 / 2 ^ s.sumPower == k && x.2 == n % 32768 then l else l ++ [(s.beat.toNat, n % 32768)]
    { s with summary := { s.summary with own := nodes.foldl add s.summary.own } }

/-- Reports that find no entry FREE or CLEAR: counted, and each raises FLT bit 2, reported for the FLT page if that has an entry
(R688, R718). -/
def Dev.fltOverflow (s : Dev) (d n : Nat) : Dev :=
  let s := s.addLv (fltPg d + 0x120) 63 0 n
  let s := s.setLv (fltPg d + 0x18) 2 2 1
  let s := s.setLv (fltPg d + 0x218) 3 3 1
  if s.lv (fltPg d + 0x20) 2 2 = 1 then s
  else
    let f := blockUnit d 0x0C 0
    (List.range n).foldl (fun t _ =>
      let t := (t.count (fltPg d + 0x108)).markSummary f
      match (t.collector d).slotOf f with
      | some k => t.putReport d k (Map.find (t.collector d).entries k) f ⟨f, 2, 1, false⟩
      | none => t) s

/-- One report at the collector of die `d` (R687, R702 to R705, R712, R713, R718, R719). -/
def Dev.reportAt (s : Dev) (d : Nat) (u reporter : BitVec 32) (bit cls : Nat) (inj : Bool) : Dev :=
  let s := s.count (fltPg d + 0x100 + 8 * cls)
  let s := if cls ≥ 1 then s.markSummary u else s
  let c := s.collector d
  let r : Report := ⟨reporter, bit, cls, inj⟩
  let s := match c.slotOf u with
    | some k => s.putReport d k (Map.find c.entries k) u r
    | none =>
      match c.newSlot with
      | some k => s.putReport d k none u r
      | none =>
        match c.lateSlot s.ticks reporter with
        | some (k, e) => (s.putReport d k none u r).fltOverflow d e.count
        | none => s.fltOverflow d 1
  if cls = 3 then s.goFatal d u reporter bit else s

/-- A unit of page (d, blk, inst) raises one of its fault bits, naming unit `u` (R687, R688). The fence that a FENCED
bit orders is `fenceUnit` in Machine/Fence.lean. -/
def Dev.raise (s : Dev) (d blk inst bit : Nat) (u reporter : BitVec 32) (inj : Bool) : Dev :=
  match faultClass blk bit with
  | none => s
  | some cls =>
    let page := pg d blk inst
    let s := s.setLv (page + 0x18) bit bit 1
    if cls ≤ 1 ∧ s.lv (page + 0x20) bit bit = 1 then s else s.reportAt (collectorOf d) u reporter bit cls inj

/-- A fault whose unit reports itself. -/
def Dev.raiseOwn (s : Dev) (d blk inst bit : Nat) (u : BitVec 32) : Dev := s.raise d blk inst bit u u false

/-! ### Derived signals -/

/-- HEALTH (R746). -/
def Dev.healthNow (s : Dev) : Byte :=
  let wd := (List.range 4).any fun w => s.lv (ctlPg + 0x200 + 8 * w) 4 4 == 1
  BitVec.ofNat 8 (b2n s.fatal + 2 * b2n wd + 4 * s.lv (secPg + 0x118) 4 4
    + 8 * b2n (s.lv (secPg + 0x118) 10 8 != 0))

/-- The rings of a CTL base register are on: LOG2 in range (R778). -/
def ringLog (base : Nat) (lo hi : Nat) : Option Nat :=
  let l := bits base 47 44
  if lo ≤ l ∧ l ≤ hi then some l else none

/-- A management ring is on: LOG2 4 to 12, 16 KiB aligned and wholly in the control partition (R660, R778). -/
def mgmtRingOn (base : Nat) : Option Nat :=
  match ringLog base 4 12 with
  | some l => let b := bits base 43 0; if b % 0x4000 = 0 ∧ b + 2 ^ l * 0x4000 ≤ 2 ^ 36 then some l else none
  | none => none

/-- The condition of interrupt source `i` (R736). -/
def Dev.irqCond (s : Dev) (i : Nat) : Bool :=
  match i with
  | 0 => (List.range 4).any fun w => s.lv (ctlPg + 0x260 + 8 * w) 63 0 != 0
  | 1 | 2 | 3 | 4 => (s.lv (bpmPg (i - 1) + 0x470) 18 0 &&& s.lv (bpmPg (i - 1) + 0x478) 18 0) != 0
  | 5 | 6 | 7 | 8 => s.fatal || (s.lv (fltPg (i - 5) + 0x218) 4 0 &&& s.lv (fltPg (i - 5) + 0x220) 4 0) != 0
  | 9 => s.lv (ctlPg + 0x240) 9 9 == 1
  | 10 => s.lv (ctlPg + 0x308) 63 32 != s.lv (ctlPg + 0x308) 31 0
  | 11 => s.lv (ctlPg + 0x318) 63 32 == s.lv (ctlPg + 0x318) 31 0
      && (mgmtRingOn (s.lv (ctlPg + 0x310) 63 0)).isSome
  | 12 | 13 => s.lv (ctlPg + 0x408 + 0x40 * (i - 12)) 6 4 != 0
  | 14 => decide (s.lv (secPg + 0x110) 1 0 ≥ 2)
  | 15 => decide (s.lv (insPg + 0x298) 1 0 ≥ 2)
  | 16 => (List.range 4).any fun w => s.lv (ctlPg + 0x200 + 8 * w) 4 4 == 1
  | 17 => s.lv (ctlPg + 0x280) 63 63 == 1
  | _ => false

/-- CTL_IRQ_PEND (R736). -/
def Dev.irqNow (s : Dev) : BitVec 64 := BitVec.ofNat 64 (listMask (setOf 18 s.irqCond))

/-- External interrupt lines at one level (R736). -/
def Dev.irqLines (s : Dev) (level : Nat) : BitVec 16 :=
  BitVec.ofNat 16 (listMask (setOf 16 fun h =>
    (List.range 18).any fun i =>
      s.irqCond i && s.lv (ctlPg + 0x800 + 4 * i) 7 7 == 1 && s.lv (ctlPg + 0x800 + 4 * i) 6 6 == level
        && s.lv (ctlPg + 0x800 + 4 * i) 3 0 == h))

/-- The signals that the present state drives. -/
def Dev.signalsNow (s : Dev) : Signals :=
  { health := s.healthNow, irq := s.irqNow, meip := s.irqLines 0, seip := s.irqLines 1, fatalN := !s.fatal }

/-- Drive the signals; a HEALTH bit that rises sends an in-band interrupt (R747). -/
def settle (s : Dev) : Dev :=
  let sig := s.signalsNow
  let s := if sig.health &&& ~~~s.sig.health ≠ 0 then s.emit (.ibi sig.health) else s
  { s with sig := sig }

/-- Every meaning: the command's effect on the device, then the signals it drives. The queue is left alone. -/
def run (f : Dev → Dev) (s : State) : Host.Outcome State Fault Refusal :=
  .next { s with toDev := settle (f s.toDev) }

end Sys2Proof.Machine
end

