-- ==== Sys2Proof/Machine/Mem.lean ====
section
/-! DEFINITION. Memory as the accesses of the device see it (chapter 13): the address map (R56, R649, R650, R656), who may
reach what (R642 to R644, R657 to R661), what is out of service (R667, R673), and the spill units (R651). -/

namespace Sys2Proof.Machine

/-! ### The address map -/

/-- Where a local address lies (R56). -/
inductive Region where
  /-- HBM: the device stack and channel group (R656). -/
  | hbm (st g : Nat)
  | wsram (core : Nat)
  /-- The reduction-memory window of a device-wide cluster. -/
  | rmem (k : Nat)
  | regs
  | hole
  deriving DecidableEq, Repr

def regionOf (a : Nat) : Region :=
  if a < 2 ^ 41 then .hbm (a / 2 ^ 37) (a / 2 ^ 34 % 8)
  else if 0x80000000000 ≤ a ∧ a < 0x80020000000 then .wsram ((a - 0x80000000000) / 0x200000)
  else if 0x81000000000 ≤ a ∧ a < 0x81020000000 then .rmem ((a - 0x81000000000) / 0x1000000)
  else if 0xF0000000000 ≤ a ∧ a < 0xF0800000000 then .regs
  else .hole

/-- First byte of a core's working SRAM, of a cluster's window, and of a channel group. -/
def wsramBase (c : Nat) : Nat := 0x80000000000 + c * 0x200000
def rmemBase (k : Nat) : Nat := 0x81000000000 + k * 0x1000000
def groupBase (st g : Nat) : Nat := st * 2 ^ 37 + g * 2 ^ 34

/-- Pseudo-channel of an HBM address within its stack (R656). -/
def pcOf (a : Nat) : Nat := a / 2 ^ 34 % 8 * 4 + a / 256 % 4

/-- The address lies in a spill area (R649). -/
def inSpill (a : Nat) : Bool := decide (a < 2 ^ 41) && decide (a / 2 ^ 34 % 8 ≥ 4) && decide (a % 2 ^ 34 ≥ 0x3F8000000)

/-- The address lies in the control partition (R660). -/
def inControl (a : Nat) : Bool := decide (a < 2 ^ 36)

/-- Stack and group of a spill unit, and its first byte (R650). -/
def spillStack (d u : Nat) : Nat := d * 4 + u % 4
def spillGroup (u : Nat) : Nat := 4 + u / 4 % 4
def spillAddr (d u : Nat) : Nat := groupBase (spillStack d u) (spillGroup u) + 0x3F8000000 + u / 16 * 0x10000

/-! ### Service -/

/-- HBM_STATUS.STATE (R681): 0 RESET, 1 TRAINING, 2 INIT, 3 READY, 4 FENCED. -/
def Dev.stackState (s : Dev) (st : Nat) : Nat := s.lv (hbmPg st + 0x100) 2 0
def Dev.setStackState (s : Dev) (st v : Nat) : Dev := s.setLv (hbmPg st + 0x100) 2 0 v
/-- HBM_STATUS.GROUP_STATE of a group: 0 IN_SERVICE, 1 FENCED, 2 CLEARING. -/
def Dev.groupState (s : Dev) (st g : Nat) : Nat := s.lv (hbmPg st + 0x100) (17 + 2 * g) (16 + 2 * g)
def Dev.setGroupState (s : Dev) (st g v : Nat) : Dev := s.setLv (hbmPg st + 0x100) (17 + 2 * g) (16 + 2 * g) v
/-- The group is in service (R667, R668, R670). -/
def Dev.groupUp (s : Dev) (st g : Nat) : Bool := s.stackState st == 3 && s.groupState st g == 0

/-! ### Permission -/

/-- Whose access it is (R642, R657, R660). -/
inductive Who where
  /-- A control core, or a device unit that privileged registers direct. -/
  | device
  /-- An access that carries a partition. -/
  | part (t : Nat)
  /-- An access that carries none and is not privileged: a hart below HS-mode at a working SRAM, or at HBM without a partition of its
  own, and JTAG before an unlock (R642, R660, R732). -/
  | nobody
  deriving DecidableEq, Repr

/-- The owner entry lets the partition in (R657); KIND 3 acts as PRIVILEGED (R683). -/
def Dev.ownerAllows (s : Dev) (st g t : Nat) : Bool :=
  let w := RegFile.get s.active (hbmPg st + 0x4000 + 8 * g)
  fld w 5 4 == 2 || (fld w 5 4 == 1 && fld w 3 0 == t)

/-! ### Register pages -/

/-- Factory test mode: debug level 2 (R770). -/
def Dev.factoryTest (s : Dev) : Bool := s.lv (secPg + 0x118) 10 8 == 2

/-- The page exists in this part (R59). Outside factory test mode the injection page is absent (R722, log 48). -/
def Dev.pagePresent (s : Dev) (die blk inst : Nat) : Bool :=
  if die = 4 then blockOnCtl blk && inst == 0
  else
    decide (die < 4) && !blockOnCtl blk && decide (inst < blockInsts blk) &&
      match blk with
      | 3 | 5 => s.groupPresent (die * 16 + inst)
      | 9 => s.corePresent (die * 64 + inst)
      | 0x0C => inst == 0 || s.factoryTest
      | _ => true

/-- A dropped access to a register address: counted in the page when it is present, else in TOP (R63). -/
def Dev.violAt (s : Dev) (a : Nat) : Dev :=
  if s.pagePresent (addrDie a) (addrBlk a) (addrInst a) then s.count (pg (addrDie a) (addrBlk a) (addrInst a) + 0x28)
  else s.count (topPg + 0x28)

/-- How an access is answered. -/
inductive Verdict where
  | ok
  /-- Denied with QUOTA: by working SRAM of a core, or by an HBM stack. -/
  | denyCore (core : Nat)
  | denyStack (st : Nat)
  /-- FENCED_PATH: the group is out of service, or the stack is not READY. -/
  | fenced (st : Nat)
  | notReady
  /-- The silent rule: counted in the RMEM page of a cluster, or in TOP. -/
  | silentRm (k : Nat)
  | silentTop
  /-- A register address reached as memory: dropped, counted in its page (R63). -/
  | silentReg (a : Nat)
  deriving DecidableEq, Repr

/-- The verdict at one address. -/
def Dev.verdictAt (s : Dev) (who : Who) (write : Bool) (a : Nat) : Verdict :=
  match regionOf a with
  | .hole => .silentTop
  | .regs => .silentReg a
  | .rmem k => if who = .device ∧ write = false then .ok else .silentRm k
  | .wsram c =>
    -- a fused core's window is unmapped (R57); so is that of a core of a fenced cluster (R671)
    if !s.corePresent c || s.fencedUnit (clusterUnit (c / 8)) then .silentTop
    else
      match who with
      | .device => .ok
      | .part t => if s.corePart c = t then .ok else .denyCore c
      | .nobody => .denyCore c
  | .hbm st g =>
    let allowed := match who with
      | .device => !(inSpill a && write)
      | .part t => !inControl a && !inSpill a && s.ownerAllows st g t
      | .nobody => false
    if !allowed then .denyStack st
    else if s.stackState st ≠ 3 ∧ s.stackState st ≠ 4 then .notReady
    else if s.groupUp st g then .ok
    else .fenced st

/-- The addresses at which an access of `n` bytes can meet another owner or region: its ends, and every multiple of
2 MiB between them. -/
def probes (a n : Nat) : List Nat :=
  let last := a + n - 1
  a :: (List.range (last / 0x200000 - a / 0x200000)).map (fun i => (a / 0x200000 + 1 + i) * 0x200000) ++ [last]

/-- Rank of a verdict: denials first (R20: QUOTA before FENCED_PATH), the silent rule before all. -/
def Verdict.rank : Verdict → Nat
  | .silentTop => 0
  | .silentReg _ => 0
  | .silentRm _ => 1
  | .denyCore _ => 2
  | .denyStack _ => 3
  | .fenced _ => 4
  | .notReady => 5
  | .ok => 6

/-- The verdict on a whole access: any part denied denies it all (R658). -/
def Dev.verdict (s : Dev) (who : Who) (write : Bool) (a n : Nat) : Verdict :=
  ((minBy Verdict.rank ((probes a n).map (s.verdictAt who write))).getD .ok)

/-- The status of a verdict: OK, QUOTA, FENCED_PATH; `none` for the silent rule (R62). -/
def Verdict.status : Verdict → Option Nat
  | .ok => some 0
  | .denyCore _ | .denyStack _ => some 0x0A
  | .fenced _ | .notReady => some 0x0B
  | .silentRm _ | .silentTop | .silentReg _ => none

/-- Count a refused access (R643, R644, R57, R659, R661, R667). -/
def Dev.countVerdict (s : Dev) (v : Verdict) : Dev :=
  match v with
  | .ok | .notReady => s
  | .denyCore c => s.count (rmemPg (c / 8) + 0x120)
  | .denyStack st => s.count (hbmPg st + 0x118)
  | .fenced st => s.count (hbmPg st + 0x120)
  | .silentRm k => s.count (rmemPg k + 0x28)
  | .silentTop => s.count (topPg + 0x28)
  | .silentReg a => s.violAt a

/-- Count the bytes that HBM moves, on the stack that holds them (R681). -/
def Dev.hbmBytes (s : Dev) (a n off : Nat) : Dev :=
  if 2 ^ 41 ≤ a then s
  else
    let st := a / 2 ^ 37
    let first := min n ((st + 1) * 2 ^ 37 - a)
    let s := s.addLv (hbmPg st + off) 63 0 first
    if first < n then s.addLv (hbmPg ((st + 1) % 16) + off) 63 0 (n - first) else s

/-! ### Reading and writing -/

/-- The window of a fenced cluster reads as zero (R644). -/
def Dev.rawBytes (s : Dev) (a n : Nat) : List Byte :=
  match regionOf a with
  | .rmem k => if s.fencedUnit (clusterUnit k) then List.replicate n 0 else Memory.readBytes s.mem a n
  | _ => Memory.readBytes s.mem a n

/-- Store bytes that an earlier check has admitted. -/
def Dev.poke (s : Dev) (a : Nat) (l : List Byte) : Dev :=
  let kept := fun (b : Nat) => decide (b < a) || decide (a + l.length < b + 64)
  ({ s with mem := Memory.writeBytes s.mem a l, memSt := { s.memSt with bad := s.memSt.bad.filter kept } } : Dev).hbmBytes a l.length 0x138

/-- `n` bytes from `a` set to 0: a burst wholly covered is written, so no longer bad (R666). -/
def Dev.zeroMem (s : Dev) (a n : Nat) : Dev :=
  { s with mem := Memory.zero s.mem a n,
           memSt := { s.memSt with bad := s.memSt.bad.filter fun b => decide (b < a) || decide (a + n < b + 64) } }

/-- An injection corrupts the next protected word or flit of one of the units (R723). -/
def Dev.hurtAny (s : Dev) (us : List (BitVec 32)) : Bool := us.any fun u => (s.collector (collectorOf (unitDie u))).hurt.contains u

/-- What a word of the units is met with: uncorrectable, where an injection corrupts it. A command that carries an ECC outcome says
with it all that its read meets but that (DESIGN CHOICE, log 138). -/
def Dev.wordEcc (s : Dev) (us : List (BitVec 32)) (ecc : Ecc) : Ecc := if s.hurtAny us then .uncorrectable else ecc

/-- The corruption has been met. -/
def Dev.unhurt (s : Dev) (us : List (BitVec 32)) : Dev :=
  if s.hurtAny us then { s with collectors := s.collectors.map fun c => { c with hurt := c.hurt.filter fun u => !us.contains u } } else s

/-- The units whose protected word lies at a local address. -/
def wordUnits (a : Nat) : List (BitVec 32) :=
  match regionOf a with
  | .hbm st _ => [pcUnit st (pcOf a), stackUnit st]
  | .wsram c => [coreUnit c]
  | _ => []

/-- A burst that an access reaches and that an injection corrupts (R723). -/
def Dev.hurtBurst (s : Dev) (a n : Nat) : Option Nat :=
  if s.collectors.all (·.hurt.isEmpty) ∨ 2 ^ 41 ≤ a then none
  else ((List.range (n / 64 + 2)).map (a / 64 * 64 + 64 * ·)).find? fun b => decide (b < a + n) && s.hurtAny (wordUnits b)

/-- A burst that an access reaches and that is known to be uncorrectable (R666), or is corrupted now (R723). -/
def Dev.badBurst (s : Dev) (a n : Nat) : Option Nat :=
  match s.memSt.bad.find? fun b => decide (a < b + 64) && decide (b < a + n) with
  | some b => some b
  | none => s.hurtBurst a n

/-- An uncorrectable HBM burst at a local address: counted, logged, reported, counted in its pseudo-channel's window, and kept in mind
until it is written (R666, R667). -/
def Dev.hbmNote (s : Dev) (a : Nat) (reporter : BitVec 32) (inj : Bool) : Dev :=
  let st := a / 2 ^ 37
  let pc := pcOf a
  let s := s.count (hbmPg st + 0x110)
  let s := if s.lv (hbmPg st + 0x140) 63 63 = 1 then s
    else (s.putLv (hbmPg st + 0x140) (2 ^ 63 + (a - a % 64))).putLv (hbmPg st + 0x148) s.beat.toNat
  let s := s.raise (st / 4) 0x0B (st % 4) 1 (pcUnit st pc) reporter inj
  let n := Map.get s.memSt.pcErr (st * 32 + pc) 0 + 1
  { s with memSt := { s.memSt with pcErr := Map.insert s.memSt.pcErr (st * 32 + pc) n,
                                   bad := (s.memSt.bad ++ [a - a % 64]).eraseDups } }

/-- A burst known to be uncorrectable is met, by its own pseudo-channel (R666). -/
def Dev.metBad (s : Dev) (b : Nat) : Dev := (s.unhurt (wordUnits b)).hbmNote b (pcUnit (b / 2 ^ 37) (pcOf b)) false

/-- A corrected HBM burst. -/
def Dev.hbmCorr (s : Dev) (st pc : Nat) : Dev :=
  (s.count (hbmPg st + 0x108)).raiseOwn (st / 4) 0x0B (st % 4) 0 (pcUnit st pc)

/-- The read of an HBM burst meets an error or none: whether it is lost (R662, R666, R723). -/
def Dev.hbmMeets (s : Dev) (a : Nat) (ecc : Ecc) : Dev × Bool :=
  if 2 ^ 41 ≤ a then (s, ecc == .uncorrectable)
  else match s.wordEcc (wordUnits a) ecc with
  | .clean => (s, false)
  | .corrected => (s.hbmCorr (a / 2 ^ 37) (pcOf a), false)
  | .uncorrectable => (s.metBad a, true)

/-- Read `n > 0` bytes: the status (`none`: the silent rule, read as zeros) and the bytes. Data of a burst that is known to be bad is
CHUNK_LOST (R666). -/
def Dev.memRead (s : Dev) (who : Who) (a n : Nat) : Dev × Option Nat × List Byte :=
  let v := s.verdict who false a n
  let s := s.countVerdict v
  match v with
  | .ok =>
    let t := s.hbmBytes a n 0x130
    (match s.badBurst a n with
    | some b => (t.metBad b, some 4, List.replicate n 0)
    | none => (t, some 0, s.rawBytes a n))
  | _ => (s, v.status, List.replicate n 0)

/-- A known bad burst that a write would merge into: one that it covers in part (R666). -/
def Dev.badMerge (s : Dev) (a n : Nat) : Option Nat :=
  s.memSt.bad.find? fun b => decide (a < b + 64) && decide (b < a + n) && !(decide (a ≤ b) && decide (b + 64 ≤ a + n))

/-- Write bytes: the status, nothing being written unless it is OK (R658). -/
def Dev.memWrite (s : Dev) (who : Who) (a : Nat) (l : List Byte) : Dev × Option Nat :=
  let v := s.verdict who true a l.length
  let s := s.countVerdict v
  match v with
  | .ok => (match s.badMerge a l.length with
    | some b => (s.metBad b, some 4)
    | none => (s.poke a l, some 0))
  | _ => (s, v.status)

/-! ### The control partition as the control die reads it -/

/-- The LLC serves the first 32 MiB while CAR is 1 (R735). -/
def llcBytes : Nat := 0x2000000
def Dev.carOn (s : Dev) : Bool := s.lv (ctlPg + 0x118) 0 0 == 1

/-- Bytes that the control die reads at a local address below 2^41. -/
def Dev.cpBytes (s : Dev) (a : Nat) : Nat → List Byte
  | 0 => []
  | n + 1 => (if s.carOn && decide (a < llcBytes) then Memory.read s.ctl.llc a else Memory.read s.mem a) :: s.cpBytes (a + 1) n

/-- What the control die's units read at a local address: the LLC's lines, while it serves them alone (R735). -/
def Dev.cpRead (s : Dev) (a n : Nat) : List Byte := if s.carOn && decide (a < llcBytes) then s.cpBytes a n else s.rawBytes a n

/-- What device units store where privileged registers direct them (R657); `false` when it is not accepted. -/
def Dev.devWrite (s : Dev) (a : Nat) (l : List Byte) : Dev × Bool :=
  let r := s.memWrite .device a l
  (r.1, r.2 == some 0)

/-- What the control die's units store; `false` when it is not accepted. Lines that the LLC serves alone are not in HBM (R735). -/
def Dev.cpWrite (s : Dev) (a : Nat) (l : List Byte) : Dev × Bool :=
  if s.carOn && decide (a + l.length ≤ llcBytes) then
    ({ s with ctl := { s.ctl with llc := Memory.writeBytes s.ctl.llc a l } }, true)
  else s.devWrite a l

/-! ### Spill units (R651) -/

/-- Spill units that contexts of die `d` hold. -/
def Dev.spillUsed (s : Dev) (d : Nat) : List Nat :=
  s.ctxs.flatMap fun c =>
    match c.place with
    | .spilled us => if c.home / 64 = d then us else []
    | _ => []

/-- The unit is in service: its group is (R667). -/
def Dev.spillUp (s : Dev) (d u : Nat) : Bool := s.groupState (spillStack d u) (spillGroup u) == 0
  && s.stackState (spillStack d u) != 4

/-- The lowest `need` units from `u` on that are free and in service. -/
def freeUnits (ok : Nat → Bool) : Nat → Nat → Nat → List Nat
  | 0, _, _ => []
  | n + 1, u, need =>
    if need = 0 then []
    else if ok u then u :: freeUnits ok n (u + 1) (need - 1)
    else freeUnits ok n (u + 1) need

/-- The lowest `need` free units of the die; `none` when it has too few. -/
def Dev.spillTake (s : Dev) (d need : Nat) : Option (List Nat) :=
  let used := s.spillUsed d
  let l := freeUnits (fun u => !used.contains u && s.spillUp d u) 32768 0 need
  if l.length = need then some l else none

/-- Spill units out of service, and free units in service (R677). -/
def Dev.spillOut (s : Dev) (d : Nat) : Nat :=
  2048 * ((setOf 16 fun u => !s.spillUp d u).length)
def Dev.spillFree (s : Dev) (d : Nat) : Nat :=
  32768 - s.spillOut d - ((s.spillUsed d).filter (s.spillUp d)).length

/-- Spill units that partition `t` holds on the die. -/
def Dev.spillPart (s : Dev) (d t : Nat) : Nat :=
  natSum' (s.ctxs.map fun c =>
    match c.place with
    | .spilled us => if c.home / 64 = d ∧ c.part = t then us.length else 0
    | _ => 0)
where
  natSum' (l : List Nat) : Nat := l.foldl (· + ·) 0

/-- Context-table entries in use on a die (R645). -/
def Dev.ctxUsed (s : Dev) (d : Nat) : Nat := (s.ctxs.filter fun c => c.home / 64 == d).length

end Sys2Proof.Machine
end

