-- ==== Sys2Proof/Machine/Fec.lean ====
section
/-! DEFINITION. The code of a Porone lane (R178): RS(560,500) over GF(2^10), whose field has the polynomial x^10 + x^3 + 1 and
whose generator has the roots α^0 to α^59; and the striping of a flit stream over the lanes of a port (R179). DEDUCED
(log 101): the code is systematic, the message first, its first symbol that of the highest degree. -/

namespace Sys2Proof.Machine

/-! ### The field -/

/-- Times x. -/
def gfDouble (a : Nat) : Nat := if a < 512 then 2 * a else (2 * a) ^^^ 0x409
/-- The product, by the bits of `b` from the lowest. -/
def gfMulBits : Nat → Nat → Nat → Nat
  | 0, _, _ => 0
  | n + 1, a, b => (if b % 2 = 1 then a else 0) ^^^ gfMulBits n (gfDouble a) (b / 2)
def gfMul (a b : Nat) : Nat := if a = 0 ∨ b = 0 then 0 else gfMulBits 10 a b
/-- α^n. -/
def gfExp : Nat → Nat
  | 0 => 1
  | n + 1 => gfDouble (gfExp n)
/-- The inverse: a^1022, as a^2 · a^4 · … · a^512. -/
def gfInvGo : Nat → Nat → Nat → Nat
  | 0, _, r => r
  | n + 1, q, r => gfInvGo n (gfMul q q) (gfMul r (gfMul q q))
def gfInv (a : Nat) : Nat := gfInvGo 9 a 1

/-! ### Polynomials, lowest degree first -/

def polyAdd : List Nat → List Nat → List Nat
  | [], b => b
  | a, [] => a
  | x :: a, y :: b => (x ^^^ y) :: polyAdd a b
def polyScale (k : Nat) (a : List Nat) : List Nat := a.map (gfMul k)
def polyMul : List Nat → List Nat → List Nat
  | [], _ => []
  | x :: a, b => polyAdd (polyScale x b) (0 :: polyMul a b)
/-- The value at x. -/
def polyEval (x : Nat) : List Nat → Nat
  | [] => 0
  | a :: l => a ^^^ gfMul x (polyEval x l)
/-- The derivative: in characteristic 2 the odd terms, one degree down. -/
def polyDeriv : List Nat → List Nat
  | [] => []
  | [_] => []
  | _ :: b :: l => b :: 0 :: polyDeriv l

/-! ### Encoding and decoding -/

/-- The roots α^0 to α^59, and the generator polynomial. -/
def rsRoots : List Nat := (List.range 60).map gfExp
def rsGen : List Nat := rsRoots.foldl (fun g r => polyMul [r, 1] g) [1]

/-- The 60 check symbols of a message, highest degree first: the remainder of the message times x^60 by the generator. -/
def rsCheck (msg : List Nat) : List Nat :=
  let g := (rsGen.reverse).drop 1
  msg.foldl (fun r m =>
    let k := m ^^^ r.headD 0
    polyAdd (r.drop 1 ++ [0]) (polyScale k g)) (List.replicate 60 0)

/-- The codeword of a message of 500 symbols. -/
def rsEncode (msg : List Nat) : List Nat := msg ++ rsCheck msg

/-- The received word at a point, its first symbol that of the highest degree. -/
def rsAt (x : Nat) (w : List Nat) : Nat := w.foldl (fun a c => gfMul a x ^^^ c) 0
def rsSyndromes (w : List Nat) : List Nat := rsRoots.map fun r => rsAt r w

/-- One step of the search for the error locator (Berlekamp and Massey): the locator and the one before its last change of
length, that length, the steps since then, the discrepancy then, and the syndromes used, latest first. -/
structure Locator where
  loc  : List Nat
  prev : List Nat
  len  : Nat
  gap  : Nat
  disc : Nat
  used : List Nat
  deriving DecidableEq, Repr

def Locator.step (c : Locator) (s : Nat) : Locator :=
  let n := c.used.length
  let used := s :: c.used
  let d := (c.loc.zipWith gfMul used).foldl (· ^^^ ·) 0
  if d = 0 then { c with gap := c.gap + 1, used := used }
  else
    let new := polyAdd c.loc (List.replicate c.gap 0 ++ polyScale (gfMul d (gfInv c.disc)) c.prev)
    if 2 * c.len ≤ n then { loc := new, prev := c.loc, len := n + 1 - c.len, gap := 1, disc := d, used := used }
    else { c with loc := new, gap := c.gap + 1, used := used }

def rsLocator (syn : List Nat) : Locator :=
  syn.foldl Locator.step { loc := [1], prev := [1], len := 0, gap := 1, disc := 1, used := [] }

/-- Correct a word: the codeword and the number of symbols corrected, or nothing where more than 30 are wrong. -/
def rsDecode (w : List Nat) : Option (List Nat × Nat) :=
  let syn := rsSyndromes w
  if syn.all (· == 0) then some (w, 0)
  else
    let c := rsLocator syn
    let omega := (polyMul syn c.loc).take 60
    let slope := polyDeriv c.loc
    -- the symbol of degree k is wrong where α^-k is a root of the locator
    let fixed := w.zipIdx.map fun (s, i) =>
      let x := gfExp (559 - i)
      let y := gfInv x
      if polyEval y c.loc = 0 then (s ^^^ gfMul x (gfMul (polyEval y omega) (gfInv (polyEval y slope))), 1) else (s, 0)
    let word := fixed.map (·.1)
    let n := (fixed.map (·.2)).foldl (· + ·) 0
    if c.len ≤ 30 ∧ n = c.len ∧ (rsSyndromes word).all (· == 0) then some (word, n) else none

/-! ### Striping -/

/-- The bytes of a stream of 10-bit symbols, the lowest bit of a symbol first (DESIGN CHOICE, log 101). -/
def symbolBytes (l : List (BitVec 10)) : List Byte :=
  leBytes (l.length * 10 / 8) (l.foldr (fun c n => n * 1024 + c.toNat) 0)
/-- The symbols of a stream of bytes. -/
def byteSymbols (l : List Byte) : List (BitVec 10) :=
  let n := leNat l
  (List.range (l.length * 8 / 10)).map fun i => BitVec.ofNat 10 (n / 2 ^ (10 * i))

/-- The stream that the messages of the lanes carry: symbol i is that of lane i mod w (R179). -/
def unstripe (lanes : List (List (BitVec 10))) : List (BitVec 10) :=
  (List.range ((lanes.headD []).length)).flatMap fun i => lanes.map fun l => l.getD i 0
/-- What lane `j` of `w` carries of a stream. -/
def stripe (w j : Nat) (l : List (BitVec 10)) : List (BitVec 10) := (l.zipIdx.filter fun x => x.2 % w == j).map (·.1)

/-- The codewords that the lanes of a port of width `w` send for 625 × w bytes of flits (R178, R179). -/
def laneWords (w : Nat) (bytes : List Byte) : List (List (BitVec 10)) :=
  (List.range w).map fun j => (rsEncode ((stripe w j (byteSymbols bytes)).map (·.toNat))).map (BitVec.ofNat 10)

end Sys2Proof.Machine
end

