-- ==== Sys2Proof/Machine/Link.lean ====
section
/-! DEFINITION. The sending end of a Porone link (chapter 04): flit headers, CONTROL flits and their messages, and what is kept
for replay (R194, R195, R198, R201, R202, R206 to R208). -/

namespace Sys2Proof.Machine

/-- A timestamp of the present beat, its fraction at least `lo`: when within the beat a flit leaves is open (log 4). -/
def Dev.stamp (s : Dev) (lo : Nat) : BitVec 72 × Dev :=
  let r := s.draw
  (BitVec.ofNat 72 (s.beat.toNat * 256 + lo + r.1.toNat % (256 - lo)), r.2)

/-- The credits granted on a VC, as a header carries them (R195, R198). -/
def Dev.withCredit (s : Dev) (p : Nat) (vc : Option Nat) (h : FlitHdr) : FlitHdr :=
  match vc with
  | some v => { h with crVc := v, crValid := true, crCount := (s.port p).ours.getD v 0 }
  | none => h

/-- The header of an IDLE flit (R195, R201, R203). -/
def Dev.idleHdr (s : Dev) (p : Nat) (nak : Bool) (vc : Option Nat) : FlitHdr :=
  s.withCredit p vc
    { ftype := 0, vc := 0, sop := false, eop := false, nak := nak, seq := 0, ackSeq := (s.port p).ackSeq, crVc := 0, crValid := false,
      crCount := 0 }
/-- An IDLE flit leaves; a stopped package sends nothing (R719). -/
def Dev.sendIdle (s : Dev) (p : Nat) (nak : Bool) (vc : Option Nat) : Dev :=
  if s.fatal then s else s.emit (.flit p (s.idleHdr p nak vc) .idle)

/-- The header of a DATA or CONTROL flit (R195, R201). -/
def Dev.sentHdr (s : Dev) (p : Nat) (f : SentFlit) : FlitHdr :=
  s.withCredit p ((Config.creditVc p f.seq).map (·.val))
    { ftype := match f.body with | .control _ => 2 | _ => 1
      vc := f.vc
      sop := match f.body with | .data _ i _ => i == 0 | _ => false
      eop := f.eop, nak := false, seq := f.seq, ackSeq := (s.port p).ackSeq, crVc := 0, crValid := false, crCount := 0 }

/-- LNK_FLIT_TX_CNT counts DATA and CONTROL flits, replays included (R245). -/
def Dev.countFlits (s : Dev) (p n : Nat) : Dev := s.addLv (lnkPg (p / 8) + 0x200 + 0x40 * (p % 8)) 63 0 n

/-- The trace of flits that leave. -/
def Dev.emitFlits (s : Dev) (p : Nat) (l : List SentFlit) : Dev :=
  { s with sent := s.sent ++ l.map fun f => .flit p (s.sentHdr p f) f.body }

/-- Send flits, numbered from the port's next sequence on, and keep them (R202); not in the FATAL state (R719). -/
def Dev.sendFlits (s : Dev) (p : Nat) (l : List SentFlit) : Dev :=
  if s.fatal then s
  else ((s.updPort p fun x => { x with unacked := x.unacked ++ l, txSeq := x.txSeq + BitVec.ofNat 16 l.length }).countFlits p l.length).emitFlits p l

/-! ### CONTROL flits -/

/-- A CONTROL flit of up to seven messages (R207). -/
def Dev.sendControl (s : Dev) (p : Nat) (msgs : List CtlMsg) : Dev :=
  s.sendFlits p [{ seq := (s.port p).txSeq, vc := 7, eop := false, body := .control msgs, die := p / 128, alloc := 0, mcast := none }]

/-- A message is sent in this state of the port (R208). -/
def msgAllowed (st : Nat) : CtlMsg → Bool
  | .creditAll _ => st == 4 || st == 5
  | .param _ => st == 4
  | .width _ _ _ => st == 5 || st == 6
  | _ => st == 5

/-- No further flit may leave (R206). -/
def Dev.txFull (s : Dev) (p : Nat) : Bool := decide ((s.port p).unacked.length ≥ 32768)

/-- A message is pending. It leaves at once, the control slot taken as due (DESIGN CHOICE, log 102); while the port retrains or may
send no flit it waits. -/
def Dev.sendMsg (s : Dev) (p : Nat) (m : CtlMsg) : Dev :=
  let st := s.portState p
  if msgAllowed st m && !s.txFull p then s.sendControl p [m]
  else if st = 5 ∨ st = 6 then s.updPort p fun x => { x with ctlWait := x.ctlWait ++ [m] }
  else s

/-- A message that has waited carries the timestamp of its leaving (R209) and the counts of that moment. -/
def Dev.restamp (s : Dev) (p : Nat) : CtlMsg → CtlMsg × Dev
  | .timeReq r t1 =>
    let q := s.stamp 0
    let d := q.2
    (.timeReq r q.1, if d.time.t1 = some t1 then { d with time := { d.time with t1 := some q.1 } } else d)
  | .timeResp true r dom h t2 _ => let q := s.stamp 0; (.timeResp true r dom h t2 q.1, q.2)
  | .creditAll _ => (.creditAll ((s.port p).ours.map (BitVec.ofNat 20)), s)
  | m => (m, s)
def Dev.restampAll (p : Nat) : List CtlMsg → Dev → List CtlMsg × Dev
  | [], s => ([], s)
  | m :: t, s => let a := s.restamp p m; let b := Dev.restampAll p t a.2; (a.1 :: b.1, b.2)

/-- Send the messages that wait, seven in a flit, while flits may leave. -/
def Dev.flushCtl (p : Nat) : Nat → Dev → Dev
  | 0, s => s
  | n + 1, s =>
    let l := (s.port p).ctlWait
    if l.isEmpty ∨ s.txFull p ∨ s.portState p ≠ 5 then s
    else
      let r := Dev.restampAll p (l.take 7) (s.updPort p fun x => { x with ctlWait := l.drop 7 })
      Dev.flushCtl p n (r.2.sendControl p r.1)

/-- The counts that CREDIT_ALL carries (R208). -/
def Dev.creditMsg (s : Dev) (p : Nat) : CtlMsg := .creditAll ((s.port p).ours.map (BitVec.ofNat 20))

/-! ### Replay (R202) -/

/-- A message as a replayed CONTROL flit carries it. -/
def Dev.replayed (s : Dev) (p : Nat) : CtlMsg → CtlMsg
  | .creditAll _ => s.creditMsg p
  | .timeReq _ t1 => .timeReq true t1
  | .timeResp a _ d h t2 t3 => .timeResp a true d h t2 t3
  | m => m

/-- A flit as it is sent again. -/
def Dev.again (s : Dev) (p : Nat) (f : SentFlit) : SentFlit :=
  match f.body with
  | .control msgs => { f with body := .control (msgs.map (s.replayed p)) }
  | _ => f

/-- Send every unacknowledged flit again, in sequence order (R202, R203). -/
def Dev.resendAll (s : Dev) (p : Nat) : Dev :=
  let u := (s.port p).unacked
  if s.fatal then s else (s.countFlits p u.length).emitFlits p (u.map (s.again p))

end Sys2Proof.Machine
end

