-- ==== Sys2Proof/Machine/Bpm.lean ====
section
/-! DEFINITION. The buffer pool manager's allocator (chapter 07): regions, pools and blocks (R328 to R340), owners,
holds and shared cells (R341 to R348), levels (R349 to R351), and the admission of each kind of request (R354, R359,
R361, R362, R368). The free blocks of a region are those the allocated ones leave: free siblings always merge (R338), so
the allocated blocks determine them. -/

namespace Sys2Proof.Machine

/-! ### Blocks -/

/-- Cells of a block of a pool (R332). -/
def poolCells (p : Nat) : Nat := 4 ^ p
/-- Cells of a region (R328). -/
def regionCells (r : Nat) : Nat := if r = 0 then 393216 else 65536
/-- Cells that hold n bytes (R333). -/
def cellsFor (n : Nat) : Nat := ceilDiv n 256

def Alloc.cells (a : Alloc) : Nat := (a.blocks.map fun b => poolCells b.1).foldl (· + ·) 0

/-- The free blocks within the block at `cell` of pool `p`, given the allocated blocks that touch it. -/
def freeIn : Nat → Nat → List (Nat × Nat) → List (Nat × Nat)
  | 0, cell, used => if used.isEmpty then [(0, cell)] else []
  | p + 1, cell, used =>
    if used.isEmpty then [(p + 1, cell)]
    else if used.any fun b => decide (b.1 ≥ p + 1) then []
    else (List.range 4).flatMap fun i =>
      let c := cell + i * poolCells p
      freeIn p c (used.filter fun b => decide (c ≤ b.2) && decide (b.2 < c + poolCells p))

/-- Allocations of a region. -/
def Dev.allocsIn (s : Dev) (d r : Nat) : List Alloc := s.allocs.filter fun a => a.die == d && a.region == r

/-- The free blocks of a region, by ascending cell (R334, R338). -/
def Dev.freeBlocks (s : Dev) (d r : Nat) : List (Nat × Nat) :=
  let used := (s.allocsIn d r).flatMap (·.blocks)
  (List.range (regionCells r / 256)).flatMap fun i =>
    freeIn 4 (i * 256) (used.filter fun b => b.2 / 256 == i)

/-- Cells in free blocks of size at least that of pool `p`: F_p (R346). -/
def freeCells (p : Nat) (l : List (Nat × Nat)) : Nat :=
  (l.map fun b => if b.1 ≥ p then poolCells b.1 else 0).foldl (· + ·) 0

/-- The pieces of a request of `c` cells, largest first: its base-4 digits (R333). -/
def piecesOf (c : Nat) : List Nat :=
  List.replicate (c / 256) 4 ++ List.replicate (c / 64 % 4) 3 ++ List.replicate (c / 16 % 4) 2
    ++ List.replicate (c / 4 % 4) 1 ++ List.replicate (c % 4) 0

/-- The siblings that splitting a block of pool `q` down to pool `p` leaves free (R334). -/
def splitRest (p : Nat) : Nat → Nat → List (Nat × Nat)
  | 0, _ => []
  | q + 1, cell =>
    if q + 1 ≤ p then []
    else splitRest p q cell ++ (List.range 3).map fun i => (q, cell + (i + 1) * poolCells q)

/-- The smallest pool from `q` on (up to 4) that has a free block, with its lowest block. -/
def lowestFrom (free : List (Nat × Nat)) : Nat → Nat → Option (Nat × Nat)
  | 0, _ => none
  | n + 1, q =>
    match minBy (·.2) (free.filter fun b => b.1 == q) with
    | some b => some b
    | none => lowestFrom free n (q + 1)

/-- Take the pieces from the free blocks: the blocks in the order taken, and the fit-downs (R334 to R336). -/
def takeBlocks : Nat → List (Nat × Nat) → List Nat → List (Nat × Nat) × Nat
  | 0, _, _ => ([], 0)
  | _ + 1, _, [] => ([], 0)
  | n + 1, free, p :: rest =>
    match lowestFrom free (5 - p) p with
    | some (q, cell) =>
      let free := (free.filter fun b => b != (q, cell)) ++ splitRest p q cell
      let r := takeBlocks n free rest
      ((p, cell) :: r.1, r.2)
    | none =>
      match p with
      | 0 => ([], 0)
      | p + 1 => let r := takeBlocks n free (List.replicate 4 p ++ rest); (r.1, r.2 + 1)

/-! ### Owners -/

/-- A number for an owner, for the ledger of refused returns. -/
def ownerKey (d : Nat) (o : Owner) : Nat :=
  d * 2 ^ 20 + match o with
    | .portVc i => i.val
    | .partPb t => 2 ^ 16 + t.val
    | .rm c slot t => 2 ^ 17 + c.val * 8192 + t.val * 512 + (match slot with | some x => x.val | none => 256)

/-- Place of a port-VC owner (R341). -/
def ownerPlace (d i : Nat) : Nat := d * 128 + i / 8
/-- Port-VC owner of a port and VC. -/
def portOwner (p vc : Nat) : Owner := .portVc (Fin.ofNat 1024 (p % 128 * 8 + vc))
def partOwner (t : Nat) : Owner := .partPb (Fin.ofNat 16 t)
/-- Reduction-memory owner in cluster `c` of the die. -/
def rmOwner (c : Nat) (slot : Option Nat) (t : Nat) : Owner :=
  .rm (Fin.ofNat 8 c) (slot.map (Fin.ofNat 256)) (Fin.ofNat 16 t)

/-- The region of an owner. -/
def ownerRegion : Owner → Nat
  | .rm c _ _ => 1 + c.val
  | _ => 0

/-- Cells charged to the owners that `p` selects on a die. -/
def Dev.chargedBy (s : Dev) (d : Nat) (p : Owner → Bool) : Nat :=
  ((s.allocs.filter fun a => a.die == d && p a.owner).map Alloc.cells).foldl (· + ·) 0

/-- charged_o of a packet-buffer owner (R344). -/
def Dev.charged (s : Dev) (d : Nat) (o : Owner) : Nat := s.chargedBy d (· == o) - Map.get s.uncharged (ownerKey d o) 0
/-- Cells that refused returns have taken from the charge of a cluster's owners (R372), those that `p` selects by their key. -/
def Dev.rmUncharged (s : Dev) (d c : Nat) (p : Nat → Bool) : Nat :=
  ((s.uncharged.filter fun x => x.1 / 2 ^ 17 == d * 8 + 1 && x.1 % 2 ^ 17 / 8192 == c && p (x.1 % 8192)).map (·.2)).foldl (· + ·) 0
/-- Cells charged to group slot `x` in a cluster of the die. -/
def Dev.slotUse (s : Dev) (d c x : Nat) : Nat :=
  (s.chargedBy d fun o => match o with | .rm c' (some x') _ => c'.val == c && x'.val == x | _ => false)
    - s.rmUncharged d c fun k => k % 512 == x
/-- Cells charged to partition `t` in a cluster of the die. -/
def Dev.rmPartUse (s : Dev) (d c t : Nat) : Nat :=
  (s.chargedBy d fun o => match o with | .rm c' _ t' => c'.val == c && t'.val == t | _ => false)
    - s.rmUncharged d c fun k => k / 512 == t

def Dev.creditOf (s : Dev) (d i : Nat) : Nat := Map.get s.credit (d * 1024 + i) 0
/-- The shared cells of a region may have moved: its levels and its minima are judged as the beat ends (R348, R374). -/
def Dev.touch (s : Dev) (d r : Nat) : Dev := if s.touched.contains (d * 9 + r) then s else { s with touched := s.touched ++ [d * 9 + r] }
def Dev.setCredit (s : Dev) (d i v : Nat) : Dev := ({ s with credit := Map.put s.credit (d * 1024 + i) v 0 } : Dev).touch d 0
def Dev.lostCells (s : Dev) (d r : Nat) : Nat := Map.get s.lost (d * 9 + r) 0

/-- use_o of a port-VC owner and of a partition owner (R344). -/
def Dev.portUse (s : Dev) (d i : Nat) : Nat := s.charged d (.portVc (Fin.ofNat 1024 i)) + s.creditOf d i
def Dev.partUse (s : Dev) (d t : Nat) : Nat := s.charged d (partOwner t)

/-- A port-VC owner is active (R345). -/
def Dev.portActive (s : Dev) (p : Nat) : Bool :=
  s.portThere p && s.portMode p != 0 && s.portState p != 7 && s.lv (lnkPg (p / 8) + 0x110) 0 0 == 0

/-- A group slot is active in cluster `c` of the die (R345). -/
def Dev.slotActive (s : Dev) (d c x : Nat) : Bool :=
  s.cfg (bpmPg d + 0x6100 + 8 * x) 63 63 == 1
    && (List.range 8).any fun k =>
      s.coreUp (d * 64 + c * 8 + k) && s.corePart (d * 64 + c * 8 + k) == s.cfg (bpmPg d + 0x6100 + 8 * x) 51 48

def Dev.portMin (s : Dev) (d i : Nat) : Nat := s.cfg (bpmPg d + 0x4000 + 8 * i) 19 0
def Dev.partMin (s : Dev) (d t : Nat) : Nat := s.cfg (bpmPg d + 0x6000 + 8 * t) 19 0
def Dev.slotMin (s : Dev) (d x : Nat) : Nat := s.cfg (bpmPg d + 0x6100 + 8 * x) 15 0
/-- The partition of a group slot (R342). -/
def Dev.slotPart (s : Dev) (d x : Nat) : Nat := s.cfg (bpmPg d + 0x6100 + 8 * x) 51 48

/-- The active port-VC owners of a die. -/
def Dev.activeOwners (s : Dev) (d : Nat) : List Nat :=
  ((List.range 128).filter fun j => s.portActive (d * 128 + j)).flatMap fun j => (List.range 8).map (j * 8 + ·)

def natSum (l : List Nat) : Nat := l.foldl (· + ·) 0

/-- The region is in CFG_ERR (R348). -/
def Dev.regionCfgErr (s : Dev) (d r : Nat) : Bool :=
  if r = 0 then
    decide (natSum ((s.activeOwners d).map (s.portMin d)) + natSum ((List.range 16).map (s.partMin d))
      > regionCells 0 - s.lostCells d 0)
  else
    decide (natSum (((List.range 256).filter (s.slotActive d (r - 1))).map (s.slotMin d)) + s.cfg (bpmPg d + 0x1010) 13 0
      > regionCells r - s.lostCells d r)

/-- A region that has come into CFG_ERR since it was last judged reports it (R348, R381). -/
def Dev.judgeMinima (s : Dev) (d r : Nat) : Dev :=
  let k := d * 9 + r
  if s.regionCfgErr d r then
    if s.cfgErr.contains k then s else ({ s with cfgErr := s.cfgErr ++ [k] } : Dev).raiseOwn d 0x07 0 3 (blockUnit d 0x07 0)
  else { s with cfgErr := s.cfgErr.filter (· != k) }

/-- The minimum that acts for each kind of owner (R348). -/
def Dev.portMinNow (s : Dev) (d i : Nat) : Nat :=
  if s.regionCfgErr d 0 then (if i % 8 = 6 then 64 else 0) else s.portMin d i
def Dev.partMinNow (s : Dev) (d t : Nat) : Nat := if s.regionCfgErr d 0 then 0 else s.partMin d t
def Dev.slotMinNow (s : Dev) (d c x : Nat) : Nat :=
  if s.slotActive d c x && !s.regionCfgErr d (1 + c) then s.slotMin d x else 0

/-- The unused part of the result escape reservation: E (R346). -/
def Dev.escFree (s : Dev) (d r : Nat) : Nat :=
  if r = 0 then 0 else s.cfg (bpmPg d + 0x1010) 13 0 - natSum ((s.allocsIn d r).map (·.esc))

/-- The sum of hold_o over a region's owners (R345). -/
def Dev.holds (s : Dev) (d r : Nat) : Nat :=
  if r = 0 then
    let err := s.regionCfgErr d 0
    let port := (s.activeOwners d).map fun i =>
      let c := s.charged d (.portVc (Fin.ofNat 1024 i))
      max (if err then (if i % 8 = 6 then 64 else 0) else s.portMin d i) (c + s.creditOf d i) - c
    let part := (List.range 16).map fun t =>
      let c := s.charged d (partOwner t)
      max (if err then 0 else s.partMin d t) c - c
    natSum port + natSum part
  else if s.regionCfgErr d r then 0
  else natSum (((List.range 256).filter (s.slotActive d (r - 1))).map fun x => s.slotMin d x - s.slotUse d (r - 1) x)

/-- S_p (R346). -/
def Dev.shared (s : Dev) (d r p : Nat) : Int :=
  (freeCells p (s.freeBlocks d r) : Int) - s.holds d r - s.escFree d r

/-! ### Levels (R349, R350) -/

/-- The thresholds of a pool: WARN, PRESSURE, CRITICAL, each the smallest of itself and those above (R385). -/
def Dev.thresholds (s : Dev) (d r p : Nat) : Nat × Nat × Nat :=
  let a := bpmPg d + (if r = 0 then 0x1040 else 0x1080) + 8 * p
  let w := s.cfg a 59 40
  let q := min w (s.cfg a 39 20)
  (w, q, min q (s.cfg a 19 0))

/-- The level of a pool from its shared cells and its former level (R349). -/
def levelOf (th : Nat × Nat × Nat) (hyst : Nat) (old : Nat) (x : Int) : Nat :=
  let stands := fun (lvl t : Nat) => decide (t ≠ 0) && (decide (x < t) || (decide (lvl ≤ old) && decide (x < t + hyst)))
  if stands 3 th.2.2 then 3 else if stands 2 th.2.1 then 2 else if stands 1 th.1 then 1 else 0

def levelAddr (d r : Nat) : Nat := bpmPg d + 0x108 + 0x40 * r
/-- The level of pool `p` as it stands. -/
def Dev.level (s : Dev) (d r p : Nat) : Nat := s.lv (levelAddr d r) (2 * p + 1) (2 * p)

/-- Lower the levels of a region as cells return to it (R349, R374): what a beat's returns free acts at once; no level rises before
the beat ends. -/
def Dev.easeLevel (s : Dev) (d r : Nat) : Dev :=
  if s.level d r 0 = 0 ∧ s.lv (levelAddr d r) 9 0 = 0 then s.touch d r
  else
    let hyst := if r = 0 then s.cfg (bpmPg d + 0x1008) 15 0 else s.cfg (bpmPg d + 0x1008) 31 16
    let free := s.freeBlocks d r
    let held := (s.holds d r : Int) + s.escFree d r
    ((List.range 5).foldl (fun t p =>
      let old := s.level d r p
      t.setLv (levelAddr d r) (2 * p + 1) (2 * p)
        (min old (levelOf (s.thresholds d r p) hyst old ((freeCells p free : Int) - held)))) s).touch d r

/-- Evaluate the levels of a region as a beat ends, counting the entries of pool 0 and setting BPM_IRQ_STATUS (R349, R351, R374). -/
def Dev.relevel (s : Dev) (d r : Nat) : Dev :=
  let hyst := if r = 0 then s.cfg (bpmPg d + 0x1008) 15 0 else s.cfg (bpmPg d + 0x1008) 31 16
  let old := s.level d r 0
  let s := (List.range 5).foldl (fun t p =>
    t.setLv (levelAddr d r) (2 * p + 1) (2 * p) (levelOf (s.thresholds d r p) hyst (s.level d r p) (s.shared d r p))) s
  let new := s.level d r 0
  let cntA := bpmPg d + 0x120 + 0x40 * r
  let enter := fun (t : Dev) (l hi lo : Nat) => if old < l ∧ l ≤ new then t.addLv cntA hi lo 1 else t
  let s := enter (enter (enter s 1 15 0) 2 31 16) 3 47 32
  let s := if old = 0 ∧ new ≥ 1 then s.setLv (bpmPg d + 0x470) r r 1 else s
  if old < 3 ∧ new = 3 then s.setLv (bpmPg d + 0x470) (9 + r) (9 + r) 1 else s

/-- The regions that a beat has touched are judged as it ends: their minima and their levels (R348, R349, R374; DEDUCED, log 124). -/
def Dev.settleRegions (s : Dev) : Dev :=
  s.touched.foldl (fun t k => (t.judgeMinima (k / 9) (k % 9)).relevel (k / 9) (k % 9)) { s with touched := [] }

/-- The level of a request of `c` cells (R350). -/
def Dev.requestLevel (s : Dev) (d r c : Nat) : Nat :=
  max (s.level d r 0) (s.level d r ((piecesOf c).headD 0))

/-! ### Requests -/

/-- Take the cells of an admitted request (R337) and charge them; the levels follow as the beat ends (R374). -/
def Dev.grab (s : Dev) (d r : Nat) (o : Owner) (c esc : Nat) : Dev × Nat :=
  let t := takeBlocks 4096 (s.freeBlocks d r) (piecesOf c)
  let id := s.nextId
  let a : Alloc := { id := id, die := d, region := r, owner := o, blocks := t.1, esc := esc }
  let s := { s with allocs := s.allocs ++ [a], nextId := id + 1 }
  ((s.addLv (bpmPg d + 0x118 + 0x40 * r) 63 0 t.2).touch d r, id)

/-- Return the blocks of an allocation (R338, R343). -/
def Dev.release (s : Dev) (id : Nat) : Dev :=
  match s.allocs.find? (·.id == id) with
  | none => s
  | some a => ({ s with allocs := s.allocs.filter fun x => x.id != id } : Dev).easeLevel a.die a.region

def Dev.releaseAll (s : Dev) (ids : List Nat) : Dev := ids.foldl Dev.release s

/-- Keep the first blocks of an allocation that hold `c` cells, in chain order, and return the rest (R369). -/
def keepCells : Nat → List (Nat × Nat) → List (Nat × Nat)
  | _, [] => []
  | 0, _ => []
  | c + 1, b :: t => b :: keepCells (c + 1 - poolCells b.1) t

def Dev.shrink (s : Dev) (id c : Nat) : Dev :=
  match s.allocs.find? (·.id == id) with
  | none => s
  | some a =>
    ({ s with allocs := updWhere (·.id == id) (fun x => { x with blocks := keepCells c x.blocks }) s.allocs } : Dev).easeLevel
      a.die a.region

def Dev.refuse (s : Dev) (d r : Nat) : Dev := s.count (bpmPg d + 0x110 + 0x40 * r)

/-- Zero and oversized requests (R339, R340). -/
def Dev.sizeCheck (s : Dev) (d c : Nat) : Option Dev :=
  if c = 0 then some (s.count (bpmPg d + 0x400))
  else if c > 1024 then some (s.count (bpmPg d + 0x408))
  else none

/-- How a request was answered. -/
inductive Grant where
  | granted (id : Nat)
  /-- Refused; the owner's MAX refused it, so eviction cannot cure it (R360). -/
  | refused (byMax : Bool)
  /-- Zero cells, or more than 1,024 (R339, R340). -/
  | empty
  deriving DecidableEq, Repr

/-- A packet-buffer request of `c` cells from an owner with minimum `mn`, maximum `mx`, use `use`; shared cells only
while `lvlOk` holds (R347). -/
def Dev.pbRequest (s : Dev) (d : Nat) (o : Owner) (mn mx use c : Nat) (lvlOk : Bool) : Dev × Grant :=
  match s.sizeCheck d c with
  | some s => (s, .empty)
  | none =>
    let x := c - (mn - use)
    let maxOk := mx = 0 ∨ use + c ≤ mx
    if x = 0 ∨ ((x : Int) ≤ s.shared d 0 0 ∧ maxOk ∧ lvlOk) then
      let g := s.grab d 0 o c 0
      (g.1, .granted g.2)
    else (s.refuse d 0, .refused (decide (x ≠ 0 ∧ ¬maxOk)))

/-- A lossy packet of `c` cells on port `p` and VC `vc` (R359). -/
def Dev.lossyRequest (s : Dev) (p vc c : Nat) : Dev × Grant :=
  let d := p / 128
  let i := p % 128 * 8 + vc
  s.pbRequest d (portOwner p vc) (s.portMinNow d i) (s.cfg (bpmPg d + 0x4000 + 8 * i) 51 32) (s.portUse d i) c
    (decide (s.requestLevel d 0 c < 3))

/-- A packet of partition `t` formed on the die for a lossy VC (R359). -/
def Dev.lossyFormed (s : Dev) (d t c : Nat) : Dev × Grant :=
  s.pbRequest d (partOwner t) (s.partMinNow d t) (s.cfg (bpmPg d + 0x6000 + 8 * t) 51 32) (s.partUse d t) c
    (decide (s.requestLevel d 0 c < 3))

/-- A packet of partition `t` formed on the die for a lossless VC (R361). -/
def Dev.formedRequest (s : Dev) (d t c : Nat) : Dev × Grant :=
  s.pbRequest d (partOwner t) (s.partMinNow d t) (s.cfg (bpmPg d + 0x6000 + 8 * t) 51 32) (s.partUse d t) c
    (decide (s.level d 0 0 < 3))

/-- A packet that arrives on credit: charged, its flits leave credit_o, admitted at every level (R354). -/
def Dev.creditRequest (s : Dev) (p vc c flits : Nat) : Dev × Nat :=
  let d := p / 128
  let i := p % 128 * 8 + vc
  (s.setCredit d i (s.creditOf d i - flits)).grab d 0 (portOwner p vc) c 0

/-- The owner of a lossless VC of an Ethernet port stands at the pressure threshold (R357). -/
def Dev.pfcPressed (s : Dev) (p vc : Nat) : Bool :=
  let d := p / 128
  let i := p % 128 * 8 + vc
  s.portMode p == 4 && s.lossless p vc && decide (s.portUse d i ≥ s.portMinNow d i) && decide (s.level d 0 0 ≥ 2)

/-- A packet on a lossless VC of an Ethernet port. At pressure it is admitted while free cells beyond the holds of the other owners
cover it, else discarded and counted (R358). Below pressure it is served as R347 says; one that cannot be served then is discarded,
its refusal counted (DESIGN CHOICE, log 121: R358 speaks of pressure only). VC6 draws no shared cells (R355). -/
def Dev.pfcRequest (s : Dev) (p vc c : Nat) : Dev × Grant :=
  let d := p / 128
  let i := p % 128 * 8 + vc
  if s.pfcPressed p vc = false then
    s.pbRequest d (portOwner p vc) (s.portMinNow d i) (s.cfg (bpmPg d + 0x4000 + 8 * i) 51 32) (s.portUse d i) c (decide (vc ≠ 6))
  else
  let own := max (s.portMinNow d i) (s.portUse d i) - s.charged d (portOwner p vc)
  if (c : Int) ≤ (if vc = 6 then 0 else s.shared d 0 0) + own then
    let g := s.grab d 0 (portOwner p vc) c 0
    (g.1, .granted g.2)
  else (s.count (bpmPg d + 0x468), .refused false)

/-- The region of a cluster is in service (R378). -/
def Dev.regionUp (s : Dev) (k : Nat) : Bool := !s.fencedUnit (clusterUnit k)

/-- An OPEN request in device cluster `k` for a group slot (if any) and partition (R362). -/
def Dev.openRequest (s : Dev) (k : Nat) (slot : Option Nat) (t c : Nat) (minOnly : Bool) : Dev × Grant :=
  let d := k / 8
  let cl := k % 8
  match s.sizeCheck d c with
  | some s => (s, .empty)
  | none =>
    if !s.regionUp k then (s, .refused false)
    else
      let mn := match slot with | some x => s.slotMinNow d cl x - s.slotUse d cl x | none => 0
      let x := c - mn
      let quota := s.cfg (rmemPg k + 0x4000 + 4 * t - 4 * t % 8) (32 * (t % 2) + 19) (32 * (t % 2))
      let quotaOk := quota = 0 ∨ s.rmPartUse d cl t + c ≤ quota
      if x = 0 ∨ (minOnly = false ∧ (x : Int) ≤ s.shared d (1 + cl) 0 ∧ quotaOk
          ∧ s.requestLevel d (1 + cl) c < 2) then
        let g := s.grab d (1 + cl) (rmOwner cl slot t) c 0
        (g.1, .granted g.2)
      else (s.refuse d (1 + cl), .refused (decide (¬quotaOk)))

/-- A RETAIN request (R368); `none` when none of its three sources can serve it. -/
def Dev.retainRequest (s : Dev) (k : Nat) (slot : Option Nat) (t c : Nat) : Dev × Option Nat :=
  let d := k / 8
  let cl := k % 8
  if !s.regionUp k then (s, none)
  else
    let mn := match slot with | some x => s.slotMinNow d cl x - s.slotUse d cl x | none => 0
    let x := c - mn
    let sh := (s.shared d (1 + cl) 0).toNat
    let y := x - sh
    if y = 0 then
      let g := s.grab d (1 + cl) (rmOwner cl slot t) c 0
      (g.1, some g.2)
    else if y ≤ s.escFree d (1 + cl) then
      let g := s.grab d (1 + cl) (rmOwner cl slot t) c y
      (g.1.count (bpmPg d + 0x450), some g.2)
    else (s.count (bpmPg d + 0x458), none)

/-! ### Credit (R352 to R355, R364) -/

/-- VC2 credit is withheld at the port (R364). -/
def Dev.vc2Withheld (s : Dev) (p : Nat) : Bool := s.parked.any (·.port == p)

/-- The target of a lossless VC of a Porone port (R352, R355, R364). -/
def Dev.creditTarget (s : Dev) (p vc : Nat) : Nat :=
  let d := p / 128
  let i := p % 128 * 8 + vc
  let mn := s.portMinNow d i
  if vc = 6 then mn
  else if vc = 2 ∧ s.vc2Withheld p then 0
  else
    let extra := s.cfg (bpmPg d + 0x1000) 15 0
    let mx := s.cfg (bpmPg d + 0x4000 + 8 * i) 51 32
    if s.level d 0 0 ≤ 1 ∧ (mx = 0 ∨ mn + extra ≤ mx) ∧ (extra : Int) ≤ s.shared d 0 0 then mn + extra else mn

/-- Cells of new credit that the port may grant on a VC (R353). -/
def Dev.creditRoom (s : Dev) (p vc : Nat) : Nat :=
  s.creditTarget p vc - s.portUse (p / 128) (p % 128 * 8 + vc)

/-! ### Pointers (R330, R371) -/

/-- The reason a returned pointer is refused: 0 accepted, else the code of R371. -/
def Dev.ptrReason (s : Dev) (d : Nat) (ptr : Nat) (o : Owner) : Nat :=
  let r := bits ptr 31 28
  let p := bits ptr 27 25
  let c := bits ptr 18 0
  if r > 8 ∨ (r > 0 ∧ s.regionUp (d * 8 + (r - 1)) = false) ∨ r ≠ ownerRegion o then 1
  else if p > 4 ∨ c + poolCells p > regionCells r then 2
  else if c % poolCells p ≠ 0 then 3
  else if (s.allocsIn d r).all fun a => !a.blocks.contains (p, c) then 4
  else 0

end Sys2Proof.Machine
end

