-- ==== Sys2Proof/Machine/Switch.lean ====
section
/-! DEFINITION. The switch core (chapter 05): the egress of a packet (R251 to R257), the queues, push-out and static
limits (R268 to R273), replication (R261 to R266), and packets formed inside the device (R36, R342, R361). -/

namespace Sys2Proof.Machine

/-! ### Page content -/

/-- The entries of a register file that belong to a page: its own, and for SWC and COL pages the content mirrored on
every die, which is kept under die 0 (R249, R392). -/
def pageContent (f : RegFile) (page : Nat) : RegFile :=
  let blk := addrBlk page
  f.filter fun e =>
    e.1 / 65536 == page / 65536
      || (blk == 4 && e.1 / 65536 == swcPg 0 / 65536 && decide (e.1 % 65536 ≥ 0x4000))
      || (blk == 8 && (e.1 / 65536 == colPg 0 / 65536 || decide (e.1 ≥ 2 ^ 44)))

/-- Two instars differ on a page (R72, R99). -/
def pageDiffers (f g : RegFile) (page : Nat) : Bool := pageContent f page != pageContent g page

/-- The pages of the present fabric dies that hold routing content (R98). -/
def routingPages : List Nat :=
  (List.range 64).map lnkPg ++ (List.range 64).map schPg ++ (List.range 4).map swcPg ++ (List.range 4).map colPg

/-- STATE is HOLD and port `p` holds its ingress (R100): its LNK or SCH page changed, or any SWC or COL page did. -/
def Dev.holdsIngress (s : Dev) (p : Nat) : Bool :=
  s.insState == 2 && isEndpointMode (s.portMode p) &&
    match s.previous with
    | none => false
    | some i =>
      pageDiffers i.content s.active (lnkPg (p / 8)) || pageDiffers i.content s.active (schPg (p / 8))
        || (List.range 4).any fun d =>
          pageDiffers i.content s.active (swcPg d) || pageDiffers i.content s.active (colPg d)

/-! ### Choosing the egress -/

/-- What a down-table entry or the up entry gives (R253, R277, R292). -/
structure RouteEntry where
  valid : Bool
  set : Nat
  altValid : Bool
  altSet : Nat
  escValid : Bool
  escPort : Nat
  deriving DecidableEq, Repr

/-- The route configuration of a die's slice is invalid (R252). -/
def routeBad (f : RegFile) (d : Nat) : Bool :=
  let w := RegFile.get f (swcPg d + 0x1008)
  decide (fld w 3 0 > 12) || decide (fld w 12 8 + fld w 3 0 > 20)

/-- The entry of a destination node: the down table's, or the up entry (R251 steps 3 and 4). -/
def routeEntry (f : RegFile) (d n : Nat) : RouteEntry :=
  let w := RegFile.get f (swcPg d + 0x1008)
  let sh := fld w 12 8
  let db := fld w 3 0
  let own := fld (RegFile.get f (insPg + 0x1000)) 19 0
  if routeBad f d = false ∧ n / 2 ^ (sh + db) = own / 2 ^ (sh + db) then
    let e := RegFile.part f (swcPg 0 + 0x4000 + 4 * (n / 2 ^ sh % 2 ^ db)) 4
    { valid := bit e 31, set := bits e 7 0, altValid := bit e 30, altSet := bits e 15 8, escValid := bit e 29,
      escPort := bits e 23 16 }
  else
    { valid := flag w 23, set := fld w 31 24, altValid := flag w 39, altSet := fld w 47 40, escValid := flag w 55,
      escPort := fld w 63 56 }

/-- The ports of a 256-bit mask in a table. -/
def maskPorts (f : RegFile) (a : Nat) : List Nat :=
  setOf 256 fun p => flag (RegFile.get f (a + p / 64 * 8)) (p % 64)
/-- Ports of an SWC_ECMP_SET and of an SWC_PORTSET entry. -/
def ecmpPorts (f : RegFile) (i : Nat) : List Nat := maskPorts f (swcPg 0 + 0x8000 + 32 * i)
def portSet (f : RegFile) (i : Nat) : List Nat := maskPorts f (swcPg 0 + 0xA000 + 32 * i)

/-- The words of a packet's flow key; `n` is the destination node, or 0 for a packet sent up a parent set (R257). -/
def flowKey (salt n : Nat) (p : Packet) : List Nat :=
  [salt, p.src.toNat + n * 2 ^ 20 + p.vc.toNat * 2 ^ 40 + p.part.toNat * 2 ^ 43 + p.cls.toNat * 2 ^ 47] ++
    match p.ext with
    | some e => [e.group.toNat + e.epoch.toNat * 2 ^ 24, e.chunk.toNat]
    | none => []

/-- The candidate of highest weight, the lower number on equal weights (R257). -/
def pinTo (key : List Nat) : List Nat → Option Nat
  | [] => none
  | p :: t =>
    match pinTo key t with
    | none => some p
    | some q => if fabricHash (key ++ [q]) > fabricHash (key ++ [p]) then some q else some p

/-- Two packets belong to one flow (R256). -/
def sameFlow (a b : Packet) : Bool :=
  a.src == b.src && a.node == b.node && a.vc == b.vc && a.part == b.part && a.cls == b.cls &&
    (a.ext.map fun e => (e.group, e.epoch, e.chunk)) == (b.ext.map fun e => (e.group, e.epoch, e.chunk))

/-- Where the forwarding tables send a packet. -/
inductive Egress where
  /-- Delivered inside the package (R251 step 1). -/
  | own
  /-- Queued at this place; from the alternate set or not. -/
  | port (p : Nat) (alt : Bool)
  /-- Its flow is pinned to this port, whose flush still runs (R284). -/
  | hold (p : Nat)
  | noRoute
  deriving DecidableEq, Repr

/-- The ingress place as a logical number. -/
def Dev.notIngress (s : Dev) (ingress : Option Nat) (lp : Nat) : Bool :=
  match ingress with
  | none => true
  | some p => s.placeOf lp != some p

/-- The live ports of a set that are not the ingress port. -/
def Dev.candidates (s : Dev) (ports : List Nat) (ingress : Option Nat) : List Nat :=
  ports.filter fun lp => s.logLive lp && s.notIngress ingress lp

/-- A port of the set is still being flushed. -/
def Dev.flushingPort (s : Dev) (lp : Nat) : Bool :=
  match s.placeOf lp with
  | some p => (s.port p).flushing
  | none => false

/-- Pin a flow within a set: to a live port, or held at a port whose flush still runs (R257, R284). -/
def Dev.pinFlow (s : Dev) (key ports : List Nat) (ingress : Option Nat) (alt : Bool) : Egress :=
  match pinTo key (ports.filter fun lp => (s.logLive lp || s.flushingPort lp) && s.notIngress ingress lp) with
  | none => .noRoute
  | some lp =>
    match s.placeOf lp with
    | none => .noRoute
    | some p => if (s.port p).flushing then .hold p else .port p alt

/-- The egress of a packet at the slice of die `d`, under the instar `f` (R251, R253, R278). -/
def Dev.egress (s : Dev) (f : RegFile) (d : Nat) (ingress : Option Nat) (p : Packet) : Egress :=
  let n := p.node
  let f := s.sees d f
  if n = fld (RegFile.get f (insPg + 0x1000)) 19 0 then .own
  else
    let e := routeEntry f d n
    if p.vc = 6 then
      match (if e.escValid then s.placeOf e.escPort else none) with
      | some q => if s.portLive q && ingress != some q then .port q false else .noRoute
      | none => .noRoute
    else if !e.valid then .noRoute
    else
      let key := flowKey (fld (RegFile.get f (swcPg d + 0x1010)) 63 0) n p
      let prim := ecmpPorts f e.set
      if (s.candidates prim ingress).isEmpty && !(prim.any fun lp => s.flushingPort lp && s.notIngress ingress lp) then
        if e.altValid then s.pinFlow key (ecmpPorts f e.altSet) ingress true else .noRoute
      else s.pinFlow key prim ingress false

/-- The egress of a packet sent up a parent set (R255, R257); n is 0 in its key. -/
def Dev.parentEgress (s : Dev) (f : RegFile) (d : Nat) (ports : List Nat) (ingress : Option Nat) (p : Packet) : Egress :=
  if (s.candidates ports ingress).isEmpty then .noRoute
  else s.pinFlow (flowKey (fld (RegFile.get f (swcPg d + 0x1010)) 63 0) 0 p) ports ingress false

/-! ### Telemetry of queues (R312) -/

def TelStat.zero : TelStat := { maxDepth := 0, maxSoj := 0, drops := 0, mapSoj := 0 }
def Dev.telStat (s : Dev) (p vc : Nat) : TelStat := Map.get s.tel.stats (p * 8 + vc) TelStat.zero
def Dev.updTel (s : Dev) (p vc : Nat) (f : TelStat → TelStat) : Dev :=
  { s with tel := { s.tel with stats := Map.put s.tel.stats (p * 8 + vc) (f (s.telStat p vc)) TelStat.zero } }
/-- Packet bytes queued toward a port on a VC. -/
def Dev.depth (s : Dev) (p vc : Nat) : Nat :=
  natSum (((s.port p).queue.filter fun q => q.pkt.vc.toNat == vc).map fun q => q.pkt.size)
def Dev.telDepth (s : Dev) (p vc : Nat) : Dev :=
  let n := s.depth p vc
  s.updTel p vc fun t => { t with maxDepth := max t.maxDepth n }
def Dev.telDrop (s : Dev) (p vc : Nat) : Dev := s.updTel p vc fun t => { t with drops := satAdd 16 t.drops 1 }

/-! ### Queues -/

/-- Put a packet into a port's queue, by its place in the order of arrivals (R258, R293). -/
def Dev.enqueue (s : Dev) (p : Nat) (q : QPkt) : Dev :=
  (s.updPort p fun x =>
    { x with queue := x.queue.filter (fun y => decide (y.id ≤ q.id)) ++ q :: x.queue.filter fun y => decide (q.id < y.id) }).telDepth
    p q.pkt.vc.toNat

/-- A copy of a result was not delivered: its child counts as undelivered (R264, R416, R427). -/
def Dev.notDelivered (s : Dev) (key : Option CtxKey) (lp : Nat) : Dev :=
  match key with
  | none => s
  | some k =>
    { s with ctxs := updWhere (fun c => c.key == k) (fun c =>
        if c.unacked.any (·.1 == lp) then
          { c with unacked := c.unacked.filter (·.1 != lp), undelivered := c.undelivered ++ [lp] }
        else c) s.ctxs }

/-- One copy of a replicated packet is acknowledged or dropped; the blocks return with the last (R265). -/
def Dev.copyDone (s : Dev) (m : Nat) (missed : Option Nat) : Dev :=
  match s.mcasts.find? (·.id == m) with
  | none => s
  | some c =>
    let s := match missed with | some lp => s.notDelivered c.key lp | none => s
    let c := { c with left := c.left - 1, missed := c.missed ++ missed.toList }
    let s := { s with mcasts := if c.left = 0 then s.mcasts.filter fun x => x.id != m
                                else updWhere (·.id == m) (fun _ => c) s.mcasts }
    if c.left = 0 then s.release c.alloc else s

/-- INS_INFLIGHT_OLD: packets in the device carrying the retiring tag, copies of one packet counted once (R102, R121): those queued
and held, parked contributions (R363), inputs of contexts that stand in the packet buffer (R406, R418, R653) and gathers that wait
(R527). -/
def Dev.inflightOld (s : Dev) : Nat :=
  match s.retiring with
  | none => 0
  | some (i, _) =>
    let tag := BitVec.ofNat 2 i.number.toNat
    let queued := s.ports.flatMap fun p =>
      (p.2.queue.filter fun q => q.pkt.itag == tag).map (·.alloc) ++
        ((p.2.flushHeld ++ p.2.early).filter fun h => h.pkt.itag == tag).map (·.alloc)
    let parked := (s.parked.filter fun x => x.pkt.itag == tag).length
    let waiting := ((s.inputs ++ s.ctxs.flatMap (·.passQ)).filter fun i => i.pkt.itag == tag).length
    let gathers := (s.gathers.filter fun g => g.pkt.itag == tag).length
    queued.eraseDups.length + parked + waiting + gathers

/-- Drop a queued packet: a copy counts as not delivered, any other returns its blocks. -/
def Dev.dropQueued (s : Dev) (p : Nat) (q : QPkt) : Dev :=
  match q.mcast with
  | some m => (s.count (swcPg q.die + 0x148)).copyDone m (some (s.logNum p))
  | none => s.release q.alloc

/-- Rank of a class (R269, R291). -/
def Dev.classRank (s : Dev) (d c : Nat) : Nat := min 7 (s.cfg (swcPg d + 0x1020) (4 * c + 3) (4 * c))

/-- Packets of port `p` that an arriving packet of class `c` may evict, in the order of eviction (R268, R271). A packet stored on
another die, or a copy with others left, frees no cell here and is evicted in its turn all the same, as R268 orders (log 125). -/
def Dev.evictable (s : Dev) (d p c : Nat) : List QPkt :=
  let qs := (s.port p).queue.filter fun q =>
    !s.lossless p q.pkt.vc.toNat && decide (s.classRank d q.pkt.cls.toNat < s.classRank d c) &&
      match q.mcast with
      | some m => match s.mcasts.find? (·.id == m) with | some x => !x.started | none => false
      | none => true
  (List.range 8).flatMap fun rank => (qs.filter fun q => s.classRank d q.pkt.cls.toNat == rank).reverse

def Dev.allocCells (s : Dev) (id : Nat) : Nat := match s.allocs.find? (·.id == id) with | some a => a.cells | none => 0

/-- Cells that a queued packet's eviction frees on die `d`: those of a packet stored there, of a replicated one with its last copy
(R265). -/
def Dev.evictGain (s : Dev) (d : Nat) (q : QPkt) : Nat :=
  let last := match q.mcast with
    | some m => (match s.mcasts.find? (·.id == m) with | some x => x.left == 1 | none => true)
    | none => true
  if q.die == d && last then s.allocCells q.alloc else 0

/-- The shortest prefix of the evictable packets whose cells on die `d` cover `need` (R268); `none` when all do not (R270). -/
def Dev.evictPlan (s : Dev) (d need : Nat) : List QPkt → Option (List QPkt)
  | [] => if need = 0 then some [] else none
  | q :: t =>
    if need = 0 then some []
    else
      match s.evictPlan d (need - s.evictGain d q) t with
      | none => none
      | some l => some (q :: l)

/-- Evict packets of port `p` (R268). -/
def Dev.evict (s : Dev) (d p : Nat) (l : List QPkt) : Dev :=
  l.foldl (fun t q =>
    let t := t.updPort p fun x => { x with queue := x.queue.filter fun y => y.id != q.id }
    ((t.dropQueued p q).count (swcPg d + 0x110)).telDrop p q.pkt.vc.toNat) s

/-- What follows the pool manager's answer to a lossy packet of owner `o`, whose unused minimum is `mn`, bound for port `outp` (if
any): push-out or `tail` drop (R268 to R270, R273, R360). -/
def Dev.pushOut (d : Nat) (o : Owner) (mn : Nat) (outp : Option Nat) (pkt : Packet) (tail : Dev → Dev) (r : Dev × Grant) :
    Dev × Option Nat :=
  let vc := pkt.vc.toNat
  let c := cellsFor pkt.size
  match r with
  | (t, .granted id) => (t, some id)
  | (t, .empty) => (t, none)
  | (t, .refused byMax) =>
    match outp with
    | none => (tail t, none)
    | some p =>
      if byMax || t.cfg (swcPg d + 0x1000) 0 0 == 1 then (tail (t.telDrop p vc), none)
      else
        let x := c - mn
        -- refused by the level: the whole shared draw is the shortfall; else what shared cells lack (log 12)
        let need := if t.requestLevel d 0 c ≥ 3 then x else x - (t.shared d 0 0).toNat
        match t.evictPlan d need (t.evictable d p pkt.cls.toNat) with
        | none => (tail (t.telDrop p vc), none)
        | some l =>
          let g := (t.evict d p l).grab d 0 o c 0
          (g.1, some g.2)

/-- Blocks for a lossy packet from port `inp` bound for port `outp` (if any). -/
def Dev.admitLossy (s : Dev) (inp : Nat) (outp : Option Nat) (pkt : Packet) : Dev × Option Nat :=
  let d := inp / 128
  let vc := pkt.vc.toNat
  let i := inp % 128 * 8 + vc
  Dev.pushOut d (portOwner inp vc) (s.portMinNow d i - s.portUse d i) outp pkt
    (fun t => (t.count (swcPg d + 0x118)).countPort inp 0x230 0x40) (s.lossyRequest inp vc (cellsFor pkt.size))

/-- The static limit refuses a lossy packet at port `p` (R272): all bytes queued there for its class count. -/
def Dev.staticRefuses (s : Dev) (d p : Nat) (pkt : Packet) : Bool :=
  s.cfg (swcPg d + 0x1000) 0 0 == 1 && !s.lossless p pkt.vc.toNat && pkt.vc != 6 &&
    let c := pkt.cls.toNat
    let queued := natSum (((s.port p).queue.filter fun q => q.pkt.cls == pkt.cls).map fun q => q.pkt.size)
    decide (queued + pkt.size > RegFile.part s.active (swcPg 0 + 0xE000 + 32 * s.logNum p + 4 * c) 4)

/-- A queue entry for a packet in the packet buffer. -/
def mkQ (pkt : Packet) (d alloc : Nat) (ingress : Option Nat) (tick id : Nat) (mc : Option Nat) : QPkt :=
  { id := id, pkt := pkt, die := d, alloc := alloc, ingress := ingress, tick := tick, mcast := mc, since := none,
    escCnt := false, escaped := none, stomp := false }

/-- What a packet brings to its queue: the cells that it holds already, the tick of its SOP flit, and its number in the order of
arrivals (R258, R274). -/
structure Load where
  alloc : Option Nat
  tick  : Nat
  id    : Nat

def HeldPkt.load (h : HeldPkt) : Load := { alloc := some h.alloc, tick := h.tick, id := h.id }

def Dev.bumpId (s : Dev) : Dev := { s with nextId := s.nextId + 1 }

/-- The destination a COLL packet sent up takes from its egress port (R219). -/
def Dev.addressTo (s : Dev) (p : Nat) (pkt : Packet) : Packet := { pkt with dst := BitVec.ofNat 64 (s.peerNode p * 2 ^ 44) }

/-! ### Replication -/

/-- Replicate a packet toward a port set that has a live port (R261 to R266, R219). -/
def Dev.replicate (s : Dev) (d : Nat) (pkt : Packet) (alloc : Nat) (ports : List Nat) (ingress : Option Nat)
    (key : Option CtxKey) : Dev :=
  let targets := ports.filter (s.notIngress ingress)
  let there := targets.filter fun lp => (s.placeOf lp).isSome
  let absent := targets.filter fun lp => (s.placeOf lp).isNone
  let s := absent.foldl (fun t lp => (t.count (swcPg d + 0x148)).notDelivered key lp) s
  if there.isEmpty then s.release alloc
  else
    let id := s.nextId
    let m : Mcast := { id := id, die := d, alloc := alloc, key := key, left := there.length, missed := absent,
                       started := false }
    let s := { s with mcasts := s.mcasts ++ [m], nextId := id + 1 }
    there.foldl (fun t lp =>
      match t.placeOf lp with
      | none => t
      | some p => t.enqueue p (mkQ (t.addressTo p pkt) d alloc ingress t.ticks id (some id))) s

/-! ### Packets formed inside -/

/-- The instar tag of the active instar (R106). -/
def Dev.tagNow (s : Dev) : BitVec 2 := BitVec.ofNat 2 s.number.toNat

/-- What became of a formed packet. -/
inductive Sent where
  | queued
  /-- Addressed to this device: the caller delivers it. -/
  | own
  /-- It has no route, or was dropped as a lossy packet. -/
  | noRoute
  /-- Waits for cells (R361). -/
  | waits
  deriving DecidableEq, Repr

/-- A unit of die `d` that forms packets for a partition waits for cells: what it forms later waits behind (R361). The units are
told apart by the die and the partition that is charged (DESIGN CHOICE, log 122). -/
def Dev.unitWaits (s : Dev) (d : Nat) (part : BitVec 4) : Bool := s.stalled.any fun w => w.die == d && w.pkt.part == part

/-- How a formed packet's request for cells was answered. -/
inductive Cells where
  | got (id : Nat)
  | waits
  | dropped
  deriving DecidableEq, Repr

/-- Cells for a packet formed on die `d` bound for port `outp` (if one), charged to its partition: on a VC that is lossless there it
waits while it cannot be served (R342, R361); on a lossy one the rules of an arriving lossy packet apply (R272, R359, R360). -/
def Dev.formCells (s : Dev) (d : Nat) (outp : Option Nat) (safe : Bool) (pkt : Packet) : Dev × Cells :=
  let t := pkt.part.toNat
  let c := cellsFor pkt.size
  if safe then
    match s.formedRequest d t c with
    | (u, .granted id) => (u, .got id)
    | (u, _) => (u, .waits)
  else if (match outp with | some p => s.staticRefuses d p pkt | none => false) then
    ((match outp with | some p => s.telDrop p pkt.vc.toNat | none => s).count (swcPg d + 0x120), .dropped)
  else
    match Dev.pushOut d (partOwner t) (s.partMinNow d t - s.partUse d t) outp pkt (fun u => u.count (swcPg d + 0x118))
        (s.lossyFormed d t c) with
    | (u, some id) => (u, .got id)
    | (u, none) => (u, .dropped)

/-- Ask for a formed packet's cells and act with them; what cannot be served waits (R361). -/
def Dev.withFormed (s : Dev) (d : Nat) (pkt : Packet) (via : Via) (outp : Option Nat) (safe : Bool) (act : Dev → Nat → Dev) : Dev × Sent :=
  let stall := fun (t : Dev) => (({ t with stalled := t.stalled ++ [{ die := d, pkt := pkt, via := via }] } : Dev), Sent.waits)
  if s.unitWaits d pkt.part then stall s
  else
    match s.formCells d outp safe pkt with
    | (t, .got id) => (act t id, .queued)
    | (t, .waits) => stall t
    | (t, .dropped) => (t, .noRoute)

/-- Queue a formed packet at a port; `alt`: from the alternate set (R253). -/
def Dev.formAt (s : Dev) (d p : Nat) (pkt : Packet) (via : Via) (alt : Bool) : Dev × Sent :=
  s.withFormed d pkt via (some p) (s.lossless p pkt.vc.toNat) fun t id =>
    ((if alt then t.count (swcPg d + 0x150) else t).enqueue p
      (mkQ (match via with | .parents _ => t.addressTo p pkt | _ => pkt) d id none t.ticks t.nextId none)).bumpId

/-- Hold a formed packet at a port whose flush still runs (R284). -/
def Dev.formHeld (s : Dev) (d p : Nat) (pkt : Packet) (via : Via) : Dev × Sent :=
  s.withFormed d pkt via none (s.lossless p pkt.vc.toNat) fun t id =>
    (t.updPort p fun x => { x with flushHeld := x.flushHeld ++
      [{ pkt := pkt, port := 512, tick := t.ticks, die := d, alloc := id, id := t.nextId, via := via }] }).bumpId

/-- A request formed here that goes nowhere is answered FENCED_PATH (R255, R283): the answer stays in the device and counts as its
destination's. -/
def Dev.ownFenced (s : Dev) (pkt : Packet) : Dev :=
  if pkt.answered then
    { s with ownAnswers := s.ownAnswers ++ [{ memStatusFor s.own pkt 0x0B 0 with src := BitVec.ofNat 20 pkt.node }] }
  else s

/-- Send a packet formed on die `d`, under the active instar. -/
def Dev.form (s : Dev) (d : Nat) (pkt : Packet) (via : Via) : Dev × Sent :=
  if s.fatal then (s, .noRoute)
  else
    let pkt := { pkt with itag := s.tagNow }
    let go := fun (e : Egress) =>
      match e with
      | .own => (s, Sent.own)
      | .noRoute => ((s.count (swcPg d + 0x100)).ownFenced pkt, .noRoute)
      | .port p alt => s.formAt d p pkt via alt
      | .hold p => s.formHeld d p pkt via
    match via with
    | .copies ports key ingress =>
      -- R266: a set with no live port produces no copy, and an all-zero delivery mask
      if (s.candidates ports ingress).isEmpty then
        ((ports.filter (s.notIngress ingress)).foldl (fun t lp => t.notDelivered key lp) s, .noRoute)
      else
        let safe := (s.candidates ports ingress).any fun lp =>
          match s.placeOf lp with | some p => s.lossless p pkt.vc.toNat | none => false
        s.withFormed d pkt via none safe fun t id => t.replicate d pkt id ports ingress key
    | .parents ports => go (s.parentEgress s.active d ports none pkt)
    | .table => go (s.egress s.active d none pkt)
    | .inside _ => ({ s with stalled := s.stalled ++ [{ die := d, pkt := pkt, via := via }] }, .waits)

/-- Send by the forwarding tables, whatever becomes of it. -/
def Dev.sendFormed (s : Dev) (d : Nat) (pkt : Packet) : Dev := (s.form d pkt .table).1

/-- Try the waiting formed packets again, oldest first (R361); one that still waits has asked for nothing new. -/
def Dev.retryStalled (s : Dev) : Dev :=
  s.stalled.foldl (fun t w =>
    match t.form w.die w.pkt w.via with
    | (_, .waits) => { t with stalled := t.stalled ++ [w] }
    | (u, _) => u) { s with stalled := [] }

/-- Answer a request that cannot be served (R226, R255, R283). The answer to one that was formed here stays here. -/
def Dev.answerStatus (s : Dev) (d : Nat) (req : Packet) (status bytes : Nat) : Dev :=
  if req.src.toNat = s.own then
    { s with ownAnswers := s.ownAnswers ++ [{ memStatusFor s.own req status bytes with src := BitVec.ofNat 20 req.node }] }
  else s.sendFormed d (memStatusFor s.own req status bytes)

/-- A packet without a route (R255). -/
def Dev.noRoute (s : Dev) (d : Nat) (pkt : Packet) : Dev :=
  let s := s.count (swcPg d + 0x100)
  if pkt.answered then s.answerStatus d pkt 0x0B 0 else s

end Sys2Proof.Machine
end

