-- ==== Sys2Proof/Machine/Cores.lean ====
section
/-! DEFINITION. The cores, threads and adapter queues as the units around them see them: their reset state, access to
them, and the entries they owe to a completion queue (R234, R546, R569, R572). -/

namespace Sys2Proof.Machine

/-! ### Cores and threads -/

def CoreSt.reset : CoreSt :=
  { queues := List.replicate 5 [], descs := [], descPend := [], objs := [], lanes := List.replicate 16 [],
    inReset := false, cqWait := [], remote := [] }

/-- A thread at start (R546), with its PC, launch argument and state. -/
def Thread.start (pc : BitVec 44) (arg : Word) (state : Nat) (launch : Option (BitVec 64)) (last out : Nat) : Thread :=
  { pc := pc, state := state, reason := 0, last := last, preds := true :: List.replicate 7 false,
    ctrs := arg :: List.replicate 15 0,
    cmps := List.replicate 8 { a := 0, rel := 0, b := 0, imm := 0, target := 0 }, vregs := List.replicate 32 0, vl := 0,
    step := 0, order := 0, pend := [], wait := none, launchAt := launch, launchDie := 0, outstanding := out, syncing := false, word := pc,
    mid := false, mark := 0, arg := arg }
def Thread.reset : Thread := Thread.start 0 0 0 none 0 0

def Dev.core (s : Dev) (c : Nat) : CoreSt := Map.get s.cores c CoreSt.reset
def Dev.setCore (s : Dev) (c : Nat) (x : CoreSt) : Dev := { s with cores := Map.put s.cores c x CoreSt.reset }
def Dev.updCore (s : Dev) (c : Nat) (f : CoreSt → CoreSt) : Dev := s.setCore c (f (s.core c))
def Dev.thread (s : Dev) (t : Nat) : Thread := Map.get s.threads t Thread.reset
def Dev.setThread (s : Dev) (t : Nat) (x : Thread) : Dev := { s with threads := Map.put s.threads t x Thread.reset }
def Dev.updThread (s : Dev) (t : Nat) (f : Thread → Thread) : Dev := s.setThread t (f (s.thread t))

/-- A completion entry (R234); PHASE is set when it is written. -/
def cqEntry (status kind queue wrId info : Nat) : List Byte :=
  leBytes 1 status ++ leBytes 1 (2 * kind) ++ leBytes 2 queue ++ leBytes 4 wrId ++ leBytes 4 info ++ leBytes 4 0

/-- LOG2 of a thread's completion queue; 0 when it has none (R572, R573). -/
def Dev.tcqLog (s : Dev) (t : Nat) : Nat :=
  let l := s.lv (corePg (t / 16) + 0x210 + 0x20 * (t % 16)) 47 44
  if 4 ≤ l ∧ l ≤ 12 then l else 0

/-- Owe an entry to a thread's completion queue, or discard it while LOG2 is 0 (R573). -/
def Dev.owe (s : Dev) (t status kind wrId info : Nat) : Dev :=
  if s.tcqLog t = 0 then s.count (corePg (t / 16) + 0x138)
  else s.updCore (t / 16) fun c => { c with cqWait := c.cqWait ++ [(t, { bytes := cqEntry status kind t wrId info })] }

/-! ### Transactions -/

/-- Tags in use, with the node each goes to. -/
def Dev.usedTags (s : Dev) : List (BitVec 12 × Nat) :=
  (s.adapters.flatMap fun a => (a.2.txs.filter fun t => !t.held).map fun t => (t.tag, t.pkt.node))
    ++ s.cores.flatMap fun c => (c.2.remote.filter fun r => !r.2.held).map fun r => (r.2.tag, r.2.pkt.node)

/-- A tag for a transaction toward a node: one that nothing uses, else one that nothing uses toward that node (R213); `none` while
all are in use there. -/
def Dev.freeTag (s : Dev) (node : Nat) : Option (BitVec 12) :=
  let used := s.usedTags
  let pick := fun (l : List (BitVec 12)) => ((List.range 4096).map (BitVec.ofNat 12)).find? fun i => !l.contains i
  match pick (used.map (·.1)) with
  | some t => some t
  | none => pick ((used.filter (·.2 == node)).map (·.1))

/-- How an operation knows its next transaction toward a node: by its tag, or by a number of its own when it must wait for one. -/
def Dev.nextHandle (s : Dev) (node : Nat) : Nat :=
  match s.freeTag node with | some t => t.toNat | none => 4096 + s.nextId

/-- Send a remote transaction of a thread and keep it for its retries (R545, R552); it waits while no tag is free. -/
def Dev.remoteSend (s : Dev) (t : Nat) (read : Bool) (addr : Nat) (data : List Byte) (use : RemoteFor) (wrId : BitVec 32) : Dev :=
  let node := addr / 2 ^ 44
  let tag := s.freeTag node
  let c := t / 16
  let pkt := mkPkt (if read then ptMemReadReq else ptMemWriteAcked) addr s.own (tag.getD 0).toNat (s.corePart c) (s.coreClass c) 1 data
  let x : RemoteTx := { tag := tag.getD 0, held := tag.isNone, handle := s.nextHandle node, pkt := pkt, use := use, wrId := wrId,
                        tries := 0, tick := s.ticks }
  let s := s.updCore c fun k => { k with remote := k.remote ++ [(t, x)] }
  if tag.isSome then s.sendFormed (c / 64) pkt else { s with nextId := s.nextId + 1 }

/-- The payload of a MEM_READ_REQ for `n` bytes (R225). -/
def readLen (n : Nat) : List Byte := leBytes 4 n ++ leBytes 4 0

/-! ### Adapter queues -/

def AdpQ.reset : AdpQ :=
  { sqHead := 0, sqTail := 0, cqHead := 0, cqTail := 0, cur := none, wr := [], txs := [], done := [],
    eyespot := [] }

def Dev.adp (s : Dev) (k : Nat) : AdpQ := Map.get s.adapters k AdpQ.reset
def Dev.setAdp (s : Dev) (k : Nat) (x : AdpQ) : Dev := { s with adapters := Map.put s.adapters k x AdpQ.reset }
def Dev.updAdp (s : Dev) (k : Nat) (f : AdpQ → AdpQ) : Dev := s.setAdp k (f (s.adp k))

/-- The fields of an LNK_ADP_QUEUE entry (R247). -/
structure AdpCfg where
  sqBase : Nat
  cqBase : Nat
  sqLog  : Nat
  cqLog  : Nat
  port   : Nat
  part   : Nat
  valid  : Bool
  deriving DecidableEq, Repr

/-- The entry of queue `q` of group `g` under an instar (R231). -/
def AdpCfg.read (f : RegFile) (g q : Nat) : AdpCfg :=
  let l := RegFile.bytes f (lnkPg g + 0xD000 + 32 * q) 32
  let sq := bits (leAt l 16 1) 3 0
  let cq := bits (leAt l 16 1) 7 4
  { sqBase := leAt l 0 8, cqBase := leAt l 8 8, sqLog := sq, cqLog := cq, port := g * 8 + bits (leAt l 17 1) 2 0,
    part := bits (leAt l 18 1) 3 0, valid := bit (leAt l 17 1) 7 && decide (6 ≤ sq) && decide (6 ≤ cq) }

def Dev.adpCfg (s : Dev) (k : Nat) : AdpCfg := AdpCfg.read s.active (k / 256) (k % 256)

/-- Send one transaction of a queue and keep it for its retries (R233); it waits while no tag is free. `x` holds what is kept beside
the tag and the packet. -/
def Dev.adpOne (s : Dev) (k : Nat) (read : Bool) (dst : Nat) (data : List Byte) (x : AdpTx) : Dev :=
  let c := s.adpCfg k
  let tag := s.freeTag (dst / 2 ^ 44)
  let pkt := mkPkt (if read then ptMemReadReq else ptMemWriteAcked) dst s.own (tag.getD 0).toNat c.part 0 1 data
  let y := { x with tag := tag.getD 0, held := tag.isNone, pkt := pkt, tries := 0, tick := s.ticks }
  let s := s.updAdp k fun a => { a with txs := a.txs ++ [y] }
  if tag.isSome then s.sendFormed (c.port / 128) pkt else s

/-- A transaction of a queue before it is sent. -/
def Dev.adpTx (s : Dev) (chunk : Nat) (landing : Bool) (status total rows : Nat) (counts : List Byte) : AdpTx :=
  { tag := 0, held := false, pkt := mkPkt 0 0 0 0 0 0 0 [], status := status, chunk := chunk, landing := landing, wid := s.nextId,
    total := total, rows := rows, counts := counts, tries := 0, tick := 0 }

/-! ### Transactions that wait for a tag (R213) -/

/-- Give the first waiting transaction of a list whose node has a free tag that tag, and send it. -/
def Dev.tagRemote (s : Dev) (c : Nat) : Dev :=
  let try1 := fun (t : Dev) (r : Nat × RemoteTx) =>
    match t.freeTag r.2.pkt.node with
    | none => t
    | some g =>
      let pkt := { r.2.pkt with tag := g }
      let set := fun (x : Nat × RemoteTx) =>
        if x.1 == r.1 && x.2.handle == r.2.handle then (x.1, { x.2 with tag := g, held := false, pkt := pkt, tick := t.ticks }) else x
      (t.updCore c fun k => { k with remote := k.remote.map set }).sendFormed (c / 64) pkt
  ((s.core c).remote.filter (·.2.held)).foldl try1 s
def Dev.tagAdapter (s : Dev) (k : Nat) : Dev :=
  let try1 := fun (t : Dev) (x : AdpTx) =>
    match t.freeTag x.pkt.node with
    | none => t
    | some g =>
      let pkt := { x.pkt with tag := g }
      let y := { x with tag := g, held := false, pkt := pkt, tick := t.ticks }
      (t.updAdp k fun a => { a with txs := updWhere (· == x) (fun _ => y) a.txs }).sendFormed ((t.adpCfg k).port / 128) pkt
  ((s.adp k).txs.filter (·.held)).foldl try1 s
/-- At each beat the waiting transactions take the tags that have come free, in the order of cores, then of adapter queues. -/
def Dev.tagWaiting (s : Dev) : Dev :=
  let cs := (s.cores.filter fun c => c.2.remote.any (·.2.held)).map (·.1)
  let ks := (s.adapters.filter fun a => a.2.txs.any (·.held)).map (·.1)
  ks.foldl Dev.tagAdapter (cs.foldl Dev.tagRemote s)

/-- Pieces of at most `n` bytes. -/
def pieces (n : Nat) : Nat → List Byte → List (List Byte)
  | 0, _ => []
  | k + 1, l => if l.length ≤ n ∨ n = 0 then [l] else l.take n :: pieces n k (l.drop n)

/-- Largest payload that the peer of a port accepts (R210, R212). -/
def Dev.peerMax (s : Dev) (p : Nat) : Nat := match (s.port p).peer with | some m => 2 ^ m.maxp.toNat | none => 8192

/-- Write to the thin endpoint of a queue, split to fit its MAXP (R212). -/
def Dev.adpWrite (s : Dev) (k addr : Nat) (data : List Byte) (x : AdpTx) : Dev :=
  let p := (s.adpCfg k).port
  let n := s.peerMax p
  let s : Dev := { s with nextId := s.nextId + 1 }
  (pieces n data.length data).zipIdx.foldl (fun t y =>
    t.adpOne k false (s.peerNode p * 2 ^ 44 + (addr + n * y.2) % 2 ^ 44) y.1 x) s

/-- Read or write the memory of the thin endpoint of a queue, for a chunk. -/
def Dev.adpSend (s : Dev) (k : Nat) (read : Bool) (addr : Nat) (data : List Byte) (chunk : Nat) (landing : Bool)
    (status : Nat) : Dev :=
  let x := s.adpTx chunk landing status data.length 0 []
  if read then
    ({ s with nextId := s.nextId + 1 } : Dev).adpOne k true (s.peerNode (s.adpCfg k).port * 2 ^ 44 + addr % 2 ^ 44) data x
  else s.adpWrite k addr data x

/-- Owe a completion entry to a queue (R235). -/
def Dev.adpOwe (s : Dev) (k status kind wrId info : Nat) : Dev :=
  s.updAdp k fun a => { a with done := a.done ++ [(status, kind, BitVec.ofNat 32 wrId, BitVec.ofNat 32 info)] }

end Sys2Proof.Machine
end

