-- ==== Sys2Proof/Machine/Col.lean ====
section
/-! DEFINITION. Groups, epochs, sources and contexts of the collective controllers (chapter 08): what an epoch latches
(R387 to R392, R402, R403, R431), the opening of contexts in reduction memory or spilled (R362, R367, R645 to R651),
inputs and their speculation (R405, R406, R411, R417 to R420), completion at a non-root device (R409, R410, R435) and
status-only results (R413). -/

namespace Sys2Proof.Machine

/-! ### Group entries -/

/-- The instar a packet with this tag is routed under (R107). -/
def Dev.fileFor (s : Dev) (tag : BitVec 2) : RegFile :=
  match s.retiring with
  | some (i, _) => if tag = BitVec.ofNat 2 i.number.toNat ∧ tag ≠ s.tagNow then i.content else s.active
  | none => s.active

/-- The group-table entry of a group under an instar (R387, R388). -/
def GEntry.read (f : RegFile) (group : Nat) : GEntry :=
  let w := fun i => (RegFile.get f (gtblKey (group % 65536) (8 * i))).toNat
  let fl := bits (w 0) 31 24
  { groupId := BitVec.ofNat 24 (w 0), valid := bit fl 7, root := bit fl 6, relBeat := bit fl 5, slotValid := bit fl 4,
    part := bits fl 3 0, slot := bits (w 0) 39 32, weight := bits (w 0) 59 48, salt := BitVec.ofNat 64 (w 1),
    parentSet := bits (w 2) 7 0, childValid := bit (w 2) 31, childSet := bits (w 2) 24 16, localBase := bits (w 2) 42 32,
    localCount := bits (w 2) 55 48, members := bits (w 3) 19 0, rootRank := bits (w 3) 51 32,
    keyLo := BitVec.ofNat 64 (w 4), keyHi := BitVec.ofNat 64 (w 5) }

/-- A COL_MEMBER word (R389). -/
def memberWord (f : RegFile) (i : Nat) : Word := RegFile.get f (colPg 0 + 0xC000 + 8 * i)
def memberOk (w : Word) : Bool := flag w 63 && decide (fld w 62 60 ≤ 1)
def memberIsThread (w : Word) : Bool := fld w 62 60 == 1
def memberRank (w : Word) : Nat := fld w 59 40
/-- The thread of a THREAD slot, and the logical port and queue of an ADAPTER slot. -/
def memberThread (w : Word) : Nat := fld w 15 8 * 16 + fld w 3 0
def memberPort (w : Word) : Nat := fld w 15 8
def memberQueue (w : Word) : Nat := fld w 7 0

/-- Cores that an epoch of a partition latches (R31, R519). -/
def Dev.latchCores (s : Dev) (f : RegFile) (part : Nat) : List Nat :=
  setOf 256 fun c => s.coreUp c && fld (RegFile.get f (corePg c + 0x1000)) 3 0 == part &&
    (List.range 5).all fun e => !s.fencedUnit (engineUnit c e)

/-- The peer node of a child port, while it is known (R219, R390). -/
def Dev.childNode (s : Dev) (lp : Nat) : Option (BitVec 20) :=
  match s.placeOf lp with
  | none => none
  | some p => if s.portMode p == 1 && (s.port p).peer.isNone then none else some (BitVec.ofNat 20 (s.peerNode p))

/-- Peer nodes of a child port set, each once (R390). -/
def Dev.childNodes (s : Dev) (ports : List Nat) : List (BitVec 20) := (ports.filterMap s.childNode).eraseDups

/-- The source that a child port leads to. A port with no known peer node is a source of its own (DEDUCED, log 94). -/
def Dev.childSrc (s : Dev) (lp : Nat) : Src :=
  match s.childNode lp with
  | some n => .child n
  | none => .port lp

/-- The sources of an epoch (R390). -/
def EpochSt.sources (e : EpochSt) : List Src := (e.kids.map (·.2)).eraseDups ++ e.slots.map fun x => Src.slot x.1

/-- Ports of a child source. -/
def EpochSt.portsOf (e : EpochSt) (x : Src) : List Nat := (e.kids.filter (·.2 == x)).map (·.1)

/-- The source is live (R431). -/
def Dev.srcLive (s : Dev) (e : EpochSt) (y : Src) : Bool :=
  match y with
  | .child _ | .port _ => (e.portsOf y).any s.logLive
  | .slot i =>
    match e.slots.find? (·.1 == i) with
    | none => false
    | some x =>
      if memberIsThread x.2 then s.coreUp (fld x.2 15 8)
      else match s.placeOf (memberPort x.2) with
        | some p => s.portLive p && s.portMode p == 3
        | none => false

/-- The die that counts a source's loss: its port's or its core's. -/
def Dev.srcDie (s : Dev) (e : EpochSt) (y : Src) : Nat :=
  match y with
  | .child _ | .port _ => match (e.portsOf y).head? with
    | some lp => (match s.placeOf lp with | some p => p / 128 | none => 0)
    | none => 0
  | .slot i =>
    match e.slots.find? (·.1 == i) with
    | none => 0
    | some x => if memberIsThread x.2 then fld x.2 15 8 / 64
      else (match s.placeOf (memberPort x.2) with | some p => p / 128 | none => 0)

/-- The latched entry is inconsistent (R391). -/
def epochBad (e : EpochSt) : Bool :=
  let n := e.sources.length
  e.entry.members == 0 || decide (e.entry.rootRank ≥ e.entry.members) || (!e.entry.root && e.parents.isEmpty) || n == 0
    || decide (n > 254) || decide (e.entry.localCount > 64) || decide (e.entry.localBase + e.entry.localCount > 2048)

/-- Latch an epoch (R403, R480), counting the sources that are not live (R431). -/
def Dev.latchEpoch (s : Dev) (f : RegFile) (g : Nat) (epoch : BitVec 16) : Dev × EpochSt :=
  let en := GEntry.read f g
  let slots := (List.range en.localCount).filterMap fun i =>
    let w := memberWord f (en.localBase + i)
    if en.localBase + i < 2048 && memberOk w then some (en.localBase + i, w) else none
  let kids := if en.childValid then portSet f en.childSet else []
  let e : EpochSt :=
    { epoch := epoch, entry := en, parents := ecmpPorts f en.parentSet, children := kids, slots := slots,
      kids := kids.map fun lp => (lp, s.childSrc lp),
      cores := s.latchCores f en.part, arith := RegFile.get f (topPg + 0x1100 + 16 * en.part),
      seed := RegFile.get f (topPg + 0x1108 + 16 * en.part), detLock := flag (RegFile.get f (topPg + 0x1080)) 0,
      lost := [], arrivals := 0, seen := [], told := [],
      ariths := (List.range 16).map fun t => (RegFile.get f (topPg + 0x1100 + 16 * t), RegFile.get f (topPg + 0x1108 + 16 * t)),
      partCores := (List.range 16).map (s.latchCores f) }
  let lost := e.sources.filter fun x => !s.srcLive e x
  (lost.foldl (fun t x => t.count (colPg (t.srcDie e x) + 0x148)) s, { e with lost := lost })

/-- The arithmetic settings an epoch latched. -/
def EpochSt.cfg (e : EpochSt) : ArithCfg := { round := fld e.arith 2 0, flush := fld e.arith 5 4, seed := e.seed.toNat }

/-- Those of a table's PART (R479, R526). -/
def EpochSt.cfgOf (e : EpochSt) (part : Nat) : ArithCfg :=
  let w := e.ariths.getD part (0, 0)
  { round := fld w.1 2 0, flush := fld w.1 5 4, seed := w.2.toNat }

/-- Ranks of the member slots that the epoch has lost (R431). -/
def EpochSt.lostRanks (e : EpochSt) : List Nat :=
  e.slots.filterMap fun x => if e.lost.contains (.slot x.1) then some (memberRank x.2) else none

/-! ### Running groups -/

def GroupSt.reset (g : BitVec 24) : GroupSt := 
  { group := g, number := none, current := none, next := none, relHeld := false, past := [], guardEnd := none, resetAt := none }
def Dev.grp (s : Dev) (g : BitVec 24) : GroupSt := Map.get s.groups g.toNat (GroupSt.reset g)
def Dev.setGrp (s : Dev) (g : BitVec 24) (x : GroupSt) : Dev := { s with groups := Map.put s.groups g.toNat x (GroupSt.reset g) }

/-- The open epoch of a key. -/
def Dev.epochOf (s : Dev) (g : BitVec 24) (ep : BitVec 16) : Option EpochSt :=
  let x := s.grp g
  (x.current.toList ++ x.next.toList).find? (·.epoch == ep)

/-- The epoch of a context: open, or closed since (R404). -/
def Dev.epochAny (s : Dev) (g : BitVec 24) (ep : BitVec 16) : Option EpochSt :=
  match s.epochOf g ep with
  | some e => some e
  | none => (s.grp g).past.find? (·.epoch == ep)

def Dev.setEpoch (s : Dev) (g : BitVec 24) (e : EpochSt) : Dev :=
  let x := s.grp g
  let put := fun (c : EpochSt) => if c.epoch = e.epoch then e else c
  s.setGrp g { x with current := x.current.map put, next := x.next.map put, past := x.past.map put }

/-- The guard of a group reset runs (R440). -/
def Dev.guarded (s : Dev) (g : BitVec 24) : Bool :=
  match (s.grp g).guardEnd with
  | some t => decide (s.ticks < t)
  | none => false

/-- The group has a valid entry under an instar (R387). -/
def groupValid (f : RegFile) (g : BitVec 24) : Bool :=
  let e := GEntry.read f g.toNat
  e.valid && e.groupId == g

/-- The epoch of an arriving input: open, or opened by it (R402). The counters are of die `d`. -/
def Dev.admitEpoch (s : Dev) (d : Nat) (f : RegFile) (g : BitVec 24) (ep : BitVec 16) : Dev × Option EpochSt :=
  if s.guarded g then (s.count (colPg d + 0x170), none)
  else
    match s.epochOf g ep with
    | some e => (s, some e)
    | none =>
      let f := s.sees d f
      if !groupValid f g then (s.count (colPg d + 0x110), none)
      else
        let x := s.grp g
        let n := x.number.getD ep
        if ep = n then
          let r := s.latchEpoch f g.toNat ep
          (r.1.setGrp g { x with number := some n, current := some r.2 }, some r.2)
        else if ep = n + 1 then
          let r := s.latchEpoch f g.toNat ep
          (r.1.setGrp g { x with next := some r.2 }, some r.2)
        else (s.count (colPg d + 0x118), none)

/-- The home core of a key (R29, R30, R395). -/
def homeOf (cores : List Nat) (salt : BitVec 64) (k : CtxKey) : Option Nat :=
  pinTo [salt.toNat, keyWord k, k.chunk.toNat] cores

/-- The group entry that a packet of a group and an epoch meets here: the one its epoch has latched, or a valid one of the
instar it is routed under (R387, R403). -/
def Dev.groupHere (s : Dev) (d : Nat) (f : RegFile) (g : BitVec 24) (ep : BitVec 16) : Option GEntry :=
  match s.epochAny g ep with
  | some e => some e.entry
  | none =>
    let f := s.sees d f
    if groupValid f g then some (GEntry.read f g.toNat) else none

/-- The source of an input (R390). -/
def Dev.srcOf (s : Dev) (e : EpochSt) (node : BitVec 20) : Option Src :=
  if e.kids.any (·.2 == .child node) then some (.child node)
  else (e.kids.find? fun x => x.2 == .port x.1 && s.childNode x.1 == some node).map (·.2)

/-! ### Contexts -/

def Dev.ctx (s : Dev) (k : CtxKey) : Option Ctx := s.ctxs.find? (·.key == k)
def Dev.updCtx (s : Dev) (k : CtxKey) (f : Ctx → Ctx) : Dev := { s with ctxs := updWhere (·.key == k) f s.ctxs }

def Ctx.die (c : Ctx) : Nat := c.home / 64
def Ctx.cluster (c : Ctx) : Nat := c.home / 8

def Params.none : Params := { pattern := 0, func := 0, fmt := 0, sat := false, length := 0, fused := [] }

def SrcSt.of (lost : List Src) (x : Src) : SrcSt :=
  { src := x, conf := false, lost := lost.contains x, segs := [], segCount := 0, included := 0, flags := 0, rank := 0 }

/-- A context that has just opened (R645). -/
def Dev.newCtx (s : Dev) (k : CtxKey) (e : EpochSt) (home : Nat) (place : Place) (p : Option Params) (cls : Nat) : Ctx :=
  { key := k, home := home, part := e.entry.part, cls := cls, place := place, params := p, fixed := false, opened := s.ticks,
    recs := [], bits := [], kept := [], srcs := e.sources.map (SrcSt.of e.lost), phase := .open, status := 0,
    dropped := false, lostFlag := !e.lost.isEmpty, passQ := [], retain := none, result := [], digest := [], form := 0,
    retainedAt := 0, lastIn := 0, was := Params.none, came := none, unacked := [], undelivered := [], delivered := 0, acked := false, sent := false, held := false,
    route := none }

def Ctx.src (c : Ctx) (x : Src) : Option SrcSt := c.srcs.find? (·.src == x)
def Ctx.updSrc (c : Ctx) (x : Src) (f : SrcSt → SrcSt) : Ctx := { c with srcs := updWhere (·.src == x) f c.srcs }

/-- Return the memory of a context (R648, R655). -/
def Dev.freePlace (s : Dev) (k : CtxKey) : Dev :=
  match s.ctx k with
  | none => s
  | some c =>
    let s := s.updCtx k fun c => { c with place := .none, retain := none }
    let s := match c.place with | .resident id => s.release id | _ => s
    match c.retain with | some id => s.release id | none => s

/-- Return the packet-buffer blocks of the inputs that wait in a context. -/
def Dev.freeInputs (s : Dev) (k : CtxKey) : Dev :=
  let mine := s.inputs.filter fun i => i.key == some k && i.passed
  let held := match s.ctx k with
    | some c => (match c.route with | some r => r.contribs.map (·.2.2) | none => []) ++ c.passQ.map (·.alloc)
    | none => []
  let s := s.releaseAll (mine.map (·.alloc) ++ held)
  { s with inputs := s.inputs.filter fun i => !(i.key == some k && i.passed) }

/-- End a context (R645). -/
def Dev.endCtx (s : Dev) (k : CtxKey) : Dev :=
  let s := (s.freePlace k).freeInputs k
  { s with ctxs := s.ctxs.filter fun c => c.key != k }

/-- How an OPEN was served. -/
inductive Opened where
  | at (p : Place)
  | refused
  deriving DecidableEq, Repr

/-- Spill units for `bytes` (R651). -/
def Dev.spillOpen (s : Dev) (d part bytes : Nat) : Dev × Opened :=
  let need := ceilDiv bytes 65536
  let q := RegFile.part s.active (rmemPg (d * 8) + 0x4100 + 4 * part) 4
  let cap := bits q 15 0
  let no := (s.count (rmemPg (d * 8) + 0x220), Opened.refused)
  if bit q 31 || (cap != 0 && decide (s.spillPart d part + need > cap)) then no
  else
    match s.spillTake d need with
    | none => no
    | some us => (s.count (rmemPg (d * 8) + 0x218), .at (.spilled us))

/-- The group slot of an entry at a die, and the partition that is charged with it: the slot's own, or the entry's where it names no
slot (R342). -/
def Dev.ctxCharge (s : Dev) (d : Nat) (e : GEntry) : Option Nat × Nat :=
  if e.slotValid then (some e.slot, s.slotPart d e.slot) else (none, e.part)

/-- Memory for a context of `bytes` state bytes at its home core (R362, R367, R646 to R648). -/
def Dev.openPlace (s : Dev) (home : Nat) (e : EpochSt) (bytes : Nat) : Dev × Opened :=
  if bytes = 0 then (s, .at .none)
  else
    let ch := s.ctxCharge (home / 64) e.entry
    let behind := s.parked.any (·.cluster == home / 8)
    match s.openRequest (home / 8) ch.1 ch.2 (cellsFor bytes) behind with
    | (t, .granted id) => (t, .at (.resident id))
    | (t, _) => if behind then (t, .refused) else t.spillOpen (home / 64) e.entry.part bytes

/-- A context-table entry is free on the die; when not, the refusal is counted (R646). -/
def Dev.ctxRoom (s : Dev) (d : Nat) : Dev × Bool :=
  if s.ctxUsed d < 32768 then (s, true) else (s.count (rmemPg (d * 8) + 0x228), false)

/-! ### Chunks at the member slots -/

/-- The chunk of an epoch's release barrier (R438). -/
def releaseChunk : BitVec 32 := 0xFFFFFFFF

/-- Chunks of a pattern that a member lands or waits for (R421, R424): all of them, or only its own COUNT. R424 does not name
BROADCAST: its members expect the COUNT chunks of their own work request (DEDUCED, log 38). -/
def Work.allChunks (x : Work) (e : GEntry) : Bool :=
  x.pattern == 3 && (x.func == 2 || ((x.func == 1 || x.func == 4) && x.rank == e.rootRank))

/-- The work request expects a chunk. -/
def Work.expects (x : Work) (e : GEntry) (c : Nat) : Bool :=
  if x.allChunks e then decide (c < releaseChunk.toNat) else decide (x.first.toNat ≤ c) && decide (c < x.first.toNat + x.count)

/-- A work request of a member slot that expects the chunk of a key. -/
def Dev.worksAt (s : Dev) (w : Word) (e : GEntry) (k : CtxKey) (x : Work) : Bool :=
  x.group == k.group && x.epoch == k.epoch && x.expects e k.chunk.toNat &&
    (if memberIsThread w then x.who == .thread (memberThread w)
     else match s.placeOf (memberPort w) with
       | some p => x.who == .adapter (p / 8) (memberQueue w)
       | none => false)

/-- The member lands the chunk's data (R421). -/
def Work.lands (x : Work) (e : GEntry) (c : Nat) : Bool :=
  match x.pattern with
  | 0 => x.rank == e.rootRank
  | 2 => x.rank == c % e.members
  | 3 => x.func == 0 || x.func == 2 || ((x.func == 1 || x.func == 4) && x.rank == e.rootRank)
  | _ => true

/-- The work request sends contributions or requests: in BROADCAST only that of ROOT_RANK does (R396, R397). -/
def Work.sends (x : Work) (e : GEntry) : Bool := !(x.pattern == 3 && x.func == 0 && x.rank != e.rootRank)

/-- Where the chunk lands (R421, R536); `arr` counts landed chunks for GATHER_ARRIVAL. -/
def Work.landAddr (x : Work) (c arr size : Nat) : Nat :=
  let i := if x.pattern = 3 then (if x.func = 4 then arr else c) else c - x.first.toNat
  x.remote.toNat + i * (if x.pattern = 6 then size else x.length)

/-- Owe an entry to the member of a work request. -/
def Dev.workOwe (s : Dev) (x : Work) (status kind info : Nat) : Dev :=
  match x.who with
  | .thread t => s.owe t status kind x.wrId.toNat info
  | .adapter g q => s.adpOwe (g * 256 + q) status kind x.wrId.toNat info

def Dev.updWork (s : Dev) (x : Work) (f : Work → Work) : Dev :=
  { s with works := updWhere (fun y => y.who == x.who && y.wrId == x.wrId && y.group == x.group && y.epoch == x.epoch
      && y.first == x.first && y.pattern == x.pattern && y.func == x.func) f s.works }

/-- The first COLL operation of a thread's move queue that still runs has finished: it may complete (R570). -/
def finishColl (t : Nat) (wrId : BitVec 32) (status : Nat) : List AsyncOp → List AsyncOp
  | [] => []
  | o :: l => if o.thread = t ∧ o.coll ∧ o.wrId = wrId then { o with coll := false, owed := true, status := status } :: l
    else o :: finishColl t wrId status l

/-- A chunk is complete at a member: its CHUNK entry, and the WR entry after the last (R422, R424, R425). -/
def Dev.chunkDone (s : Dev) (x : Work) (c status bytes : Nat) : Dev :=
  if x.landed.contains c then s
  else
    let y := { x with landed := x.landed ++ [c], moved := x.moved + bytes, status := worse x.status status }
    let s := (s.updWork x fun _ => y).workOwe x status 1 c
    if y.landed.length < y.expected then s
    else
      let s := s.workOwe y y.status 0 y.moved
      let s := { s with works := s.works.filter (· != y) }
      match y.who with
      | .thread t =>
        s.updCore (t / 16) fun k => { k with queues := k.queues.map (finishColl t y.wrId y.status) }
      | .adapter g q =>
        s.updAdp (g * 256 + q) fun a => { a with cur := none, sqHead := a.sqHead + 1, wr := [] }

/-- The work requests of this device's slots that expect a chunk, whatever their operation, with their slots. -/
def Dev.allWorks (s : Dev) (e : EpochSt) (k : CtxKey) : List (Work × Nat) :=
  e.slots.filterMap fun x =>
    let ws := s.works.filter (s.worksAt x.2 e.entry k)
    -- one that has its entry for the chunk already gives way to one that waits (a DISPATCH to its COMBINE)
    ((ws.find? fun w => !w.landed.contains k.chunk.toNat) <|> ws.head?).map fun w => (w, x.1)

/-- Those among them of the chunk's own operation. -/
def Dev.worksFor (s : Dev) (e : EpochSt) (k : CtxKey) (p : Params) : List (Work × Nat) :=
  e.slots.filterMap fun x =>
    (s.works.find? fun w => s.worksAt x.2 e.entry k w && w.pattern == p.pattern && w.func == p.func).map fun w => (w, x.1)

/-- A chunk's result has landed at a member slot: the slot counts once for each context that has it (R416, R425). -/
def Dev.landedAt (s : Dev) (k : CtxKey) (slot : Nat) : Dev :=
  { s with gotten := s.gotten.filter (· != (k, slot)) ++ [(k, slot)],
           ctxs := updWhere (·.key == k) (fun c => { c with delivered := c.delivered + 1 }) s.ctxs }

/-! ### Packets of a collective -/

/-- A COLL packet formed here (R219). -/
def collPkt (own : Nat) (k : CtxKey) (p : Params) (part cls ckind vc status rank seg form : Nat) (payload trailer : List Byte) :
    Packet :=
  { mkPkt ptColl 0 own 0 part cls vc payload with
    ext := some { group := k.group, epoch := k.epoch, chunk := k.chunk, rank := BitVec.ofNat 20 rank,
                  pattern := BitVec.ofNat 3 p.pattern, func := BitVec.ofNat 3 p.func, fmt := BitVec.ofNat 5 p.fmt,
                  form := BitVec.ofNat 2 form, ckind := BitVec.ofNat 3 ckind, status := BitVec.ofNat 8 status,
                  sat := p.sat, seg := BitVec.ofNat 7 seg }
    trailer := trailer }

/-- The parameters of a context; an emptied one keeps its last provisional ones for its partial or its result, should it complete
with no input (R405, R432; DEDUCED, log 145). -/
def Ctx.par (c : Ctx) : Params := c.params.getD c.was

/-- Send a status-only RESULT to the children (R413), but not to the place it came from (R262). -/
def Dev.statusDown (s : Dev) (d : Nat) (ports : List Nat) (k : CtxKey) (p : Params) (part cls status : Nat) (came : Option Nat) : Dev :=
  if ports.isEmpty then s
  else
    (s.form d (collPkt s.own k p part cls 2 3 status 0 0 0 [] (chunkDigest k p [])) (.copies ports none came)).1

/-- The chunk completes with a status other than OK or MEMBER_LOST (R413): a status-only RESULT to the subtree, the
context keeps its key until its retention ends. -/
def Dev.failCtx (s : Dev) (k : CtxKey) (status : Nat) : Dev :=
  match s.ctx k with
  | none => s
  | some c =>
    let s := match status with
      | 1 => s.count (colPg c.die + 0x100)
      | 7 => s.count (colPg c.die + 0x158)
      | 8 => s.count (colPg c.die + 0x108)
      | 9 => s.count (colPg c.die + 0x150)
      | _ => s
    let s := (s.freePlace k).freeInputs k
    let s := s.updCtx k fun c =>
      { c with phase := .retained, status := status, retainedAt := s.ticks, recs := [], kept := [], passQ := [], result := [],
               unacked := [], acked := true, route := none }
    match s.epochAny k.group k.epoch with
    | none => s
    | some e =>
      let s := s.statusDown c.die e.children k c.par c.part c.cls status c.came
      (s.allWorks e k).foldl (fun t x => t.chunkDone x.1 k.chunk.toNat status 0) s

/-- A status that the opening input itself earns: its context is made only to keep the key (R413). `came`: where a status that came
down from the parent arrived. -/
def Dev.failChunk (s : Dev) (d : Nat) (k : CtxKey) (e : EpochSt) (p : Params) (cls status : Nat) (came : Option Nat := none) : Dev :=
  let s := match s.ctx k with
    | some _ => s
    | none =>
      let home := (homeOf e.cores e.entry.salt k).getD (d * 64)
      { s with ctxs := s.ctxs ++ [{ s.newCtx k e home .none (some p) cls with came := came }] }
  s.failCtx k status

/-! ### Completion -/

/-- The ranks included by the confirmed sources, and the lowest rank (R409, R410). -/
def Ctx.included (c : Ctx) : Nat := natSum ((c.srcs.filter (·.conf)).map (·.included))
def Ctx.lowRank (c : Ctx) : Nat := ((minBy SrcSt.rank (c.srcs.filter fun y => y.conf && y.included != 0)).map (·.rank)).getD 0
/-- Every contribution was empty (R407): of each confirmed source that has any, its own one or, by the NULL flag of its partial, all
those below it. -/
def Ctx.null (c : Ctx) : Bool :=
  let p := c.par
  let cs := c.srcs.filter fun y => y.conf && y.included != 0
  (!isBarrier p.pattern p.func && !cs.isEmpty && cs.all fun y => bit y.flags 1)
    || (p.pattern == 7 && leAt p.fused 0 2 == 0 && decide (p.fused.length ≥ 8))

/-- Inputs in the order their function takes them: by rank, or as confirmed for the ND functions (R474, R475). -/
def Ctx.ordered (c : Ctx) : List (List Byte) :=
  let p := c.par
  let ks := if isND p.pattern p.func p.fmt then c.kept else sortBy (fun (a b : Kept) => decide (a.rank < b.rank)) c.kept
  ks.map (·.data)

/-- The state of a complete context (R476). -/
def Ctx.state (c : Ctx) (e : GEntry) : List Byte :=
  let p := c.par
  if p.exact then recsBytes p.fmt c.recs
  else if p.pattern = 7 then mergeFused p.fused c.ordered
  else mergeStates p e.keyLo.toNat e.keyHi.toNat c.ordered

/-- The inputs break a rule that only all of them together can break (R397, R400). -/
def Ctx.illFormed (c : Ctx) (e : GEntry) : Bool :=
  let p := c.par
  if p.pattern = 4 ∧ p.func = 0 then
    let empty := (c.srcs.filter fun y => y.conf && y.included != 0 && bit y.flags 1).map fun _ => 0
    let ns := (c.kept.map fun x => x.data.length) ++ empty
    ns.any fun n => n != ns.headD 0 || decide (n / elemBytes p.fmt > 1024)
  else if p.pattern = 4 ∧ p.func = 1 then decide ((c.state e).length > 4096)
  else false

/-- Cut an image into segments (R410). -/
def segments : Nat → List Byte → List (List Byte)
  | 0, _ => []
  | n + 1, l => if l.length ≤ 4096 then [l] else l.take 4096 :: segments n (l.drop 4096)

/-- LENGTH in the header of a partial (R410). SELECT contributions may differ in LENGTH, and then the spec states no value: it is free
(DESIGN CHOICE, log 129). -/
def Ctx.headLen (c : Ctx) (st : List Byte) : Nat :=
  let p := c.par
  let ls := c.kept.map (·.len)
  if p.pattern = 3 then st.length
  else if p.pattern ≠ 4 then p.length
  else if ls.all (· == ls.headD 0) then ls.headD 0
  else (Config.mixedLength ls).toNat

/-- The image of a partial (R410, R437, R502). -/
def Ctx.image (c : Ctx) (e : GEntry) : List (List Byte) :=
  let p := c.par
  if isBarrier p.pattern p.func then [leBytes 4 c.included ++ [BitVec.ofNat 8 (b2n c.lostFlag)] ++ List.replicate 3 0]
  else
    let st := if c.null then [] else if c.included = 0 then emptyState false p else c.state e
    let n := ceilDiv (64 + st.length) 4096
    let fl := b2n c.lostFlag + 2 * b2n c.null + 4 * b2n c.dropped
    segments (n + 1) (leBytes 4 c.included ++ leBytes 2 (c.headLen st) ++ leBytes 1 fl ++ [0] ++ leBytes 2 n
      ++ List.replicate 54 0 ++ st)

/-- Send the partial of a context up; with no live port in the parent set it is discarded and counted, and the chunk ends (R255,
R409, R435). -/
def Dev.sendPartial (s : Dev) (k : CtxKey) : Dev :=
  match s.ctx k with
  | none => s
  | some c =>
    match s.epochAny k.group k.epoch with
    | none => s
    | some e =>
      if (e.parents.filter s.logLive).isEmpty then (s.count (swcPg c.die + 0x100)).failCtx k 0x0B
      else
        let s := s.updCtx k fun c => { c with phase := .sentUp }
        ((c.image e.entry).zipIdx).foldl (fun t x =>
          (t.form c.die (collPkt t.own k c.par c.part c.cls 1 2 0 c.lowRank x.2 0 x.1 []) (.parents e.parents)).1) s

/-- Request the cells of a result (R368, R655). -/
def Dev.retainCells (s : Dev) (c : Ctx) (bytes : Nat) : Dev × Option Nat :=
  let ch := match s.epochAny c.key.group c.key.epoch with
    | some e => s.ctxCharge c.die e.entry
    | none => (none, c.part)
  s.retainRequest c.cluster ch.1 ch.2 (cellsFor (bytes + 8))

/-- A complete context at the root: a spilled one first asks for the cells of its result (R368, R655). -/
def Dev.rootComplete (s : Dev) (k : CtxKey) (e : EpochSt) : Dev :=
  match s.ctx k with
  | none => s
  | some c =>
    if c.null then s.failCtx k 1
    else if c.illFormed e.entry then s.failCtx k 8
    else
      match c.place with
      | .spilled _ =>
        let r := s.retainCells c (resultBytes c.par c.par.length)
        match r.2 with
        | some id => r.1.updCtx k fun c => { c with phase := .complete, retain := some id, retainedAt := s.ticks }
        | none => r.1.updCtx k fun c => { c with phase := .retainWait }
      | _ => s.updCtx k fun c => { c with phase := .complete, retainedAt := s.ticks }

/-- Every source of the context is confirmed or lost, and every confirmed input applied (R409, R412). A MOVE chunk
other than a barrier has one contribution, and completes with it (log 20). -/
def Ctx.done (c : Ctx) : Bool :=
  c.phase == .open && c.passQ.isEmpty && c.par.pattern != 6 &&
    (c.srcs.all (fun x => x.conf || x.lost)
      || (c.par.pattern == 3 && c.par.func != 3 && c.srcs.any (·.conf)))

/-- Complete the context when it is done (R409, R412, R432). -/
def Dev.tryDone (s : Dev) (k : CtxKey) : Dev :=
  match s.ctx k with
  | none => s
  | some c =>
    if !c.done then s
    else
      match s.epochAny k.group k.epoch with
      | none => s
      | some e =>
        let s := s.freeInputs k
        if e.entry.root then s.rootComplete k e
        else if c.illFormed e.entry then s.failCtx k 8
        else s.sendPartial k

/-! ### Applying inputs -/

/-- Count a discarded duplicate (R417). -/
def Dev.dup (s : Dev) (d : Nat) (alloc : Nat) : Dev := (s.count (colPg d + 0x120)).release alloc

/-- The status that an input's own fields earn its chunk (R35, R391, R396, R397, R399, R453, R500). -/
def Dev.preStatus (s : Dev) (e : EpochSt) (pkt : Packet) (x : Ext) : Option Nat :=
  let pat := x.pattern.toNat; let fn := x.func.toNat; let fmt := x.fmt.toNat; let form := x.form.toNat
  let contrib := x.ckind == ckContribution
  let n := pkt.payload.length
  let head := if contrib then pkt.payload else pkt.payload.drop 64
  let needs := (isReduce pat && fn == 0 && fmt == 0) || (pat == 7 && (contrib || x.seg == 0) && decide (leAt head 0 2 ≤ 64)
    && (subOps head).any fun o => isReduce o.params.pattern && o.params.func == 0 && o.params.fmt == 0)
  let absent := needs && !s.fp64x
  let badLen :=
    if !contrib then pat != 3 && x.seg == 0 && decide (n < 64)
    else if isBarrier pat fn then n != 8
    else if form ≠ 0 then
      match readChunk fmt form pkt.payload with | .malformed => true | _ => false
    else if pat = 7 then
      n != 0 && (decide (n < 8) || !fusedOk (fit pkt.payload (min n (fusedHead pkt.payload))) n)
    else !lenOk fmt n || (isReduce pat && decide (fn ≥ 6) && decide (elemCount fmt n > 512))
  let malformed := epochBad e || pkt.vc == 3 || pat == 5 || pat == 6 || (!fmtAccepted pat fn fmt && !isBarrier pat fn)
    || (form != 0 && !(isReduce pat && decide (fn ≤ 2) && sparseFmt fmt)) || badLen
  if absent then some 2 else if malformed then some 8
  else if isND pat fn fmt && e.detLock then some 7
  else none

/-- Apply a confirmed contribution to its context. -/
def Dev.applyContribution (s : Dev) (c : Ctx) (e : EpochSt) (inp : Input) (x : Ext) : Dev × Ctx :=
  let p := c.par
  let a := e.cfg
  let rank := x.rank.toNat
  let c := c.updSrc (inp.src.getD (.slot 0)) fun y =>
    { y with conf := true, included := 1, rank := rank, flags := if inp.pkt.payload.isEmpty then 2 else 0 }
  let keep := fun (c : Ctx) (d : List Byte) =>
    { c with kept := c.kept ++ [{ rank := rank, len := inp.pkt.payload.length, part := false, data := d }] }
  if x.form ≠ 0 then
    match readChunk p.fmt x.form.toNat inp.pkt.payload with
    | .malformed => (s, c)
    | .whole _ => (s.count (corePg c.home + 0x808), { c with dropped := true })
    | .ok _ vs drops =>
      let s := if drops = 0 then s else s.addLv (corePg c.home + 0x800) 63 0 drops
      let c := { c with dropped := c.dropped || drops != 0 }
      if p.exact then (s, { c with recs := mergeRecs p.fmt 1 c.recs (recsOfVals p.fmt a.flushIn vs) })
      else (s, keep c (sparseState p a vs))
  else if isBarrier p.pattern p.func then (s, c)
  else if p.exact then
    -- the elements streamed before the check are in already (R418)
    let vs := (decodeAll p.fmt a.flushIn inp.pkt.payload).drop inp.spec
    (s, { c with recs := c.recs.take inp.spec ++ enterAll p.fmt 1 (c.recs.drop inp.spec) vs })
  else if p.pattern = 7 then (s, keep c (toFused p.fused a rank inp.pkt.payload))
  else (s, keep c (toState p a rank inp.pkt.payload))

/-- Apply the image of a confirmed partial (R410, R411, R437, R502). -/
def applyImage (c : Ctx) (src : Src) (img : List Byte) (rank : Nat) : Ctx :=
  let p := c.par
  let bar := isBarrier p.pattern p.func
  let inc := bits (leAt img 0 4) 19 0
  let fl := if bar then leAt img 4 1 % 2 else leAt img 6 1
  let c := c.updSrc src fun y => { y with conf := true, included := inc, rank := rank, flags := fl, segs := [] }
  let c := { c with lostFlag := c.lostFlag || bit fl 0, dropped := c.dropped || (bit fl 2 && !bar) }
  let st := img.drop 64
  if bar || bit fl 1 || inc == 0 then c
  else if p.exact then { c with recs := mergeRecs p.fmt 1 c.recs (recsOfBytes p.fmt st) }
  else { c with kept := c.kept ++ [{ rank := rank, len := leAt img 4 2, part := true, data := st }] }

/-- Parameters that a partial's first segment names (R405, R410). -/
def Params.ofPartial (x : Ext) (payload : List Byte) : Params :=
  let pat := x.pattern.toNat
  let st := payload.drop 64
  { pattern := pat, func := x.func.toNat, fmt := x.fmt.toNat, sat := x.sat,
    length := if pat = 3 ∨ pat = 4 then 0 else leAt payload 4 2,
    fused := if pat = 7 then fit st (min st.length (fusedHead st)) else [] }

/-- Store a confirmed input of a spilled context for the next pass, or apply it at once (R653, R654). The sources
count it as confirmed at once. -/
def Dev.applyInput (s : Dev) (k : CtxKey) (e : EpochSt) (inp : Input) (x : Ext) : Dev :=
  match s.ctx k with
  | none => s
  | some c =>
    let src := inp.src.getD (.slot 0)
    let s := s.updCtx k fun c => { c with lastIn := max c.lastIn inp.tick }
    let c := { c with lastIn := max c.lastIn inp.tick }
    match c.place with
    | .spilled _ =>
      s.updCtx k fun c =>
        ({ c with fixed := true, passQ := c.passQ ++ [inp] } : Ctx).updSrc src fun y => { y with conf := true }
    | _ =>
      if x.ckind = ckContribution then
        let r := s.applyContribution { c with fixed := true } e inp x
        (r.1.updCtx k fun _ => r.2).release inp.alloc
      else
        (s.updCtx k fun c => applyImage { c with fixed := true } src inp.pkt.payload x.rank.toNat).release inp.alloc

/-! ### Offering an input to its context -/

/-- What became of a checked input. -/
inductive Taken where
  | yes
  /-- Its OPEN was refused; the cluster of the home it was offered to (R363, R366). -/
  | refused (cluster : Nat)
  deriving DecidableEq, Repr

/-- The context's state size for an input. -/
def inputBytes (p : Params) (x : Ext) (payload : List Byte) : Nat :=
  if x.ckind = ckContribution then
    stateBytes p (if x.form ≠ 0 then p.length else payload.length)
  else if isBarrier p.pattern p.func then 8
  else stateBytes p (if p.pattern = 4 then 4096 else if p.pattern = 3 then payload.length - 64 else p.length)

/-- Find or open the context of an input: the place for its state included (R405, R645 to R648). -/
def Dev.openFor (s : Dev) (k : CtxKey) (e : EpochSt) (p : Params) (bytes cls : Nat) : Dev × Taken :=
  match s.ctx k with
  | some c =>
    if c.params.isSome then (s, .yes)
    else
      match s.openPlace c.home e bytes with
      | (t, .at pl) => (t.updCtx k fun c => { c with params := some p, place := pl }, .yes)
      | (t, .refused) => (t, .refused c.cluster)
  | none =>
    match homeOf e.cores e.entry.salt k with
    | none => (s, .yes)
    | some home =>
      let r := s.ctxRoom (home / 64)
      if !r.2 then (r.1, .refused (home / 8))
      else
        match r.1.openPlace home e bytes with
        | (t, .at pl) => ({ t with ctxs := t.ctxs ++ [t.newCtx k e home pl (some p) cls] }, .yes)
        | (t, .refused) => (t, .refused (home / 8))

/-- A context kept open with no parameters, for segments that come before their segment 0 (R411); `was` is what is known of them. -/
def Dev.openBare (s : Dev) (k : CtxKey) (e : EpochSt) (cls : Nat) (was : Params) : Dev × Taken :=
  match s.ctx k with
  | some _ => (s, .yes)
  | none =>
    match homeOf e.cores e.entry.salt k with
    | none => (s, .yes)
    | some home =>
      let r := s.ctxRoom (home / 64)
      if !r.2 then (r.1, .refused (home / 8))
      else ({ r.1 with ctxs := r.1.ctxs ++ [{ r.1.newCtx k e home .none none cls with was := was }] }, .yes)

/-- Judge the segments a source has confirmed, once segment 0 is among them (R411): `none` while one is missing. -/
def judgeSegs (p : Params) (members : Nat) (segs : List (Nat × List Byte)) : Option (Option (List Byte)) :=
  match segs.find? (·.1 == 0) with
  | none => none
  | some z =>
    let total := leAt z.2 8 2
    let st := bits (leAt z.2 6 1) 1 1
    let size := 64 + (if st = 1 then 0 else
      if p.pattern = 3 ∨ p.pattern = 4 then (total - 1) * 4096 + ((segs.find? (·.1 == total - 1)).map (·.2.length)).getD 64 - 64
      else stateBytes p p.length)
    let last := size - 4096 * (total - 1)
    if total = 0 ∨ bits (leAt z.2 0 4) 19 0 > members
        ∨ segs.any (fun g => decide (g.1 ≥ total) || decide (g.2.length ≠ if g.1 = total - 1 then last else 4096)) then
      some none
    else if segs.length < total then none
    else some (some ((List.range total).flatMap fun i => ((segs.find? (·.1 == i)).map (·.2)).getD []))

/-- Inputs that passed their check and waited for the parameters of their context (R406): they make the chunk MALFORMED
once the parameters are fixed and differ. -/
def Dev.review (s : Dev) (k : CtxKey) : Dev :=
  match s.ctx k with
  | none => s
  | some c => if c.fixed && s.inputs.any (fun i => i.key == some k && i.passed && i.wait) then s.failCtx k 8 else s

/-- Take a confirmed segment of a partial (R411). A barrier's partial is one segment, SEG 0, with INCLUDED in all of bytes 0 to 3 (R437). -/
def Dev.takeSegment (s : Dev) (d : Nat) (k : CtxKey) (e : EpochSt) (inp : Input) (x : Ext) (src : Src) : Dev × Taken :=
  let seg := x.seg.toNat
  let bar := isBarrier x.pattern.toNat x.func.toNat
  let r :=
    if bar ∨ seg = 0 then
      let p := if bar then { Params.none with pattern := 3, func := 3, fmt := x.fmt.toNat } else Params.ofPartial x inp.pkt.payload
      match s.ctx k with
      | some c =>
        if c.params.isSome && c.params != some p then (s, Taken.yes)
        else s.openFor k e p (inputBytes p x inp.pkt.payload) inp.pkt.cls.toNat
      | none => s.openFor k e p (inputBytes p x inp.pkt.payload) inp.pkt.cls.toNat
    else s.openBare k e inp.pkt.cls.toNat { Params.ofPartial x [] with length := 0, fused := [] }
  match r.2 with
  | .refused cl => (r.1, .refused cl)
  | .yes =>
    let s := r.1
    match s.ctx k with
    | none => (s.failChunk d k e Params.none inp.pkt.cls.toNat 2, .yes)
    | some c =>
      let mine := match c.src src with | some y => y.segs | none => []
      if mine.any (·.1 == seg) then (s.dup c.die inp.alloc, .yes)
      else if bar then
        if c.par.pattern = 3 ∧ c.par.func = 3 ∧ seg = 0 ∧ leAt inp.pkt.payload 0 4 ≤ e.entry.members then (((s.applyInput k e inp x).review k).tryDone k, .yes)
        else ((s.release inp.alloc).failCtx k 8, .yes)
      else
        let p0 := Params.ofPartial x inp.pkt.payload
        if c.params.isSome ∧ (c.par.pattern ≠ x.pattern.toNat ∨ c.par.func ≠ x.func.toNat ∨ c.par.fmt ≠ x.fmt.toNat
            ∨ c.par.sat ≠ x.sat ∨ (seg = 0 ∧ c.par ≠ p0)) then
          if c.fixed then ((s.release inp.alloc).failCtx k 8, .yes)
          else ({ s with inputs := s.inputs ++ [{ inp with passed := true, wait := true }] }, .yes)
        else
          let segs := mine ++ [(seg, inp.pkt.payload)]
          let s := (s.updCtx k fun c => c.updSrc src fun y => ({ y with segs := segs } : SrcSt)).release inp.alloc
          match judgeSegs c.par e.entry.members segs with
          | none => (s, .yes)
          | some none => (s.failCtx k 8, .yes)
          | some (some img) =>
            let whole := { inp with pkt := { inp.pkt with payload := img }, alloc := 0 }
            (((s.applyInput k e whole x).review k).tryDone k, .yes)

/-- Offer a checked contribution or partial to its context (R387, R390, R402, R405, R406, R417). -/
def Dev.takeInput (s : Dev) (d : Nat) (inp : Input) : Dev × Taken :=
  match inp.pkt.ext with
  | none => (s.release inp.alloc, .yes)
  | some x =>
    let k : CtxKey := ⟨x.group, x.epoch, x.chunk⟩
    let r := s.admitEpoch d (s.fileFor inp.pkt.itag) x.group x.epoch
    match r.2 with
    | none => (r.1.release inp.alloc, .yes)
    | some e =>
      let s := r.1
      let src := match inp.src with
        | some y => some y
        | none => s.srcOf e inp.pkt.src
      let inp := { inp with src := src, key := some k }
      match src with
      | none =>
        if epochBad e then
          ((s.release inp.alloc).failChunk d k e Params.none inp.pkt.cls.toNat (if e.cores.isEmpty then 2 else 8), .yes)
        else ((s.count (colPg d + 0x110)).release inp.alloc, .yes)
      | some y =>
        let open_ := s.ctx k
        -- R397: a second source in BROADCAST, while the first one's chunk has not its result yet
        let second : Bool := match open_ with
          | some c => (c.phase == .open || c.phase == .complete || c.phase == .sentUp || (c.phase == .retainWait && c.digest.isEmpty))
              && c.par.pattern == 3 && c.par.func == 0 && x.pattern == 3 && x.func == 0
              && (c.srcs.any fun z => z.src != y && z.conf) && !(c.srcs.any fun z => z.src == y && z.conf)
          | none => false
        let closed : Bool := match open_ with
          | some c => c.phase != .open || (match c.src y with | some z => z.conf | none => false)
          | none => s.released.any (·.1 == k)
        if second then ((s.release inp.alloc).failCtx k 8, .yes)
        else if closed then (s.dup (match open_ with | some c => c.die | none => d) inp.alloc, .yes)
        else if e.lost.contains y then (s.dup (match open_ with | some c => c.die | none => d) inp.alloc, .yes)
        else
          -- an empty core set comes before every other condition (R20, R35)
          match if e.cores.isEmpty then some 2 else s.preStatus e inp.pkt x with
          | some st => ((s.release inp.alloc).failChunk d k e (Params.ofContribution inp.pkt x inp.pkt.payload) inp.pkt.cls.toNat st, .yes)
          | none =>
            if x.ckind ≠ ckContribution then s.takeSegment d k e inp x y
            else
              let p := Params.ofContribution inp.pkt x inp.pkt.payload
              match open_.bind (·.params) with
              | some q =>
                if q = p then (((s.applyInput k e inp x).review k).tryDone k, .yes)
                else
                  match open_ with
                  | some c =>
                    if c.fixed then ((s.release inp.alloc).failCtx k 8, .yes)
                    else ({ s with inputs := s.inputs ++ [{ inp with passed := true, wait := true }] }, .yes)
                  | none => (s, .yes)
              | none =>
                match s.openFor k e p (inputBytes p x inp.pkt.payload) inp.pkt.cls.toNat with
                | (t, .refused cl) => (t, .refused cl)
                | (t, .yes) =>
                  match t.ctx k with
                  | none => ((t.release inp.alloc).failChunk d k e p inp.pkt.cls.toNat 2, .yes)
                  | some _ => (((t.applyInput k e inp x).review k).tryDone k, .yes)

/-- Place an input that entered on die `d` among the parked ones of a cluster, by the tick it was first parked at (R363, R366). -/
def Dev.parkAt (s : Dev) (d cluster : Nat) (inp : Input) (tick : Nat) : Dev :=
  let x : Parked := { cluster := cluster, die := d, port := inp.port, pkt := inp.pkt, alloc := inp.alloc, tick := tick, src := inp.src }
  { s with parked := sortBy (fun (a b : Parked) => decide (a.tick < b.tick)) (s.parked ++ [x]) }

/-- Park an input whose OPEN was refused: its flits stay on the die where it entered, and that die's page counts it (R363, R384). -/
def Dev.park (s : Dev) (d cluster : Nat) (inp : Input) (tick : Nat) : Dev :=
  let pgA := bpmPg d
  let first := !s.parked.any fun x => x.die == d
  let s := s.count (pgA + 0x438)
  let s := if first then s.setLv (pgA + 0x470) 18 18 1 else s
  s.parkAt d cluster inp tick

/-- Offer, and park on a refusal. -/
def Dev.offer (s : Dev) (d : Nat) (inp : Input) : Dev :=
  match s.takeInput d inp with
  | (t, .yes) => t
  | (t, .refused cl) => t.park d cl inp t.ticks

/-- A context none of whose setters passed its check returns to empty, and the inputs that waited are offered again
(R405, R406). -/
def Dev.reopen (s : Dev) (k : CtxKey) : Dev :=
  match s.ctx k with
  | none => s
  | some c =>
    if c.fixed || c.params.isNone || c.srcs.any (fun y => y.segs.any (·.1 == 0)) || s.inputs.any (fun i => i.key == some k && !i.passed && !i.wait) then s
    else
      let s := (s.freePlace k).updCtx k fun c => { c with was := c.par, params := none, recs := [], kept := [] }
      let waiting := s.inputs.filter fun i => i.key == some k && i.passed
      let s := { s with inputs := s.inputs.filter fun i => !(i.key == some k && i.passed) }
      waiting.foldl (fun t i => t.offer c.die { i with passed := false, wait := false }) s

end Sys2Proof.Machine
end

