-- ==== Sys2Proof/Machine/ColResult.lean ====
section
/-! DEFINITION. Results (chapter 08): rounding at the root (R39, R412), retention and landing (R415, R416, R421, R422, R425,
R426), copies and acknowledgements (R427, R428, R430), lost copies and contexts (R429, R433, R434), lost sources (R431,
R432), epoch release (R167 to R170, R404, R438) and group reset (R439); and the application of scatter-add batches when an
epoch closes (R526). -/

namespace Sys2Proof.Machine

/-! ### Batches (R526) -/

/-- The latched core set of a table's PART (R519). -/
def EpochSt.tableCores (e : EpochSt) (part : Nat) : List Nat :=
  if e.entry.part = part then e.cores else e.partCores.getD part []

/-- The row-home core (R519). -/
def rowHome (cores : List Nat) (salt : BitVec 64) (table row : Nat) : Option Nat := pinTo [salt.toNat, table, row] cores

/-- A row is not written: the row-home core counts and logs it. -/
def Dev.rowLost (s : Dev) (core : Nat) (b : BatchSlot) : Dev :=
  let s := s.count (corePg core + 0x838)
  if s.lv (corePg core + 0x848) 32 32 = 1 then s
  else (s.putLv (corePg core + 0x840) (s.own * 2 ^ 44 + b.table)).putLv (corePg core + 0x848) (2 ^ 32 + b.row)

/-- Apply one batch slot: the stored row enters as one more input, the sum is rounded once and written. Under stochastic
rounding the seed is a free function of the row's data and settings: R468 draws for a chunk, and a row has none (log 21). A row of an uncorrectable
burst is not written (the events of table service). -/
def Dev.applyBatch (s : Dev) (e : EpochSt) (b : BatchSlot) : Dev :=
  let l := Memory.readBytes s.mem b.table 64
  let h := TableHdr.read l
  let a := e.cfgOf h.part
  let a := if a.round = 4 then
    { a with seed := (Config.batchSeed (BitVec.ofNat 64 a.seed) b.group.toNat b.epoch.toNat b.table b.row).toNat } else a
  match s.badBurst (h.rowAddr b.row) h.rowBytes with
  | some burst => (s.rowLost ((rowHome (e.tableCores h.part) e.entry.salt (s.own * 2 ^ 44 + b.table) b.row).getD 0) b).hbmNote burst
      (pcUnit (burst / 2 ^ 37) (pcOf burst)) false
  | none =>
    let row := s.rawBytes (h.rowAddr b.row) h.rowBytes
    let recs := enterAll h.fmt 1 b.recs (decodeAll h.fmt a.flushIn row)
    (s.memWrite (.part h.part) (h.rowAddr b.row) (roundAll h.fmt h.sat a b.group.toNat b.row 0 recs)).1

/-- Apply the batches of an epoch that closes, rows ascending, and free their slots. -/
def Dev.applyBatches (s : Dev) (g : BitVec 24) (e : EpochSt) : Dev :=
  let mine := s.batches.filter fun b => b.group == g && b.epoch == e.epoch
  let s := (sortBy (fun (a b : BatchSlot) => decide (a.row < b.row)) mine).foldl (fun t b => t.applyBatch e b) s
  { s with batches := s.batches.filter fun b => !(b.group == g && b.epoch == e.epoch) }

/-! ### ROUTE chunks at a member (R536, R540) -/

/-- Slots or rows of a ROUTE chunk have landed at a member, or their number has become known; the chunk is complete when
all have. -/
def Dev.routeStep (s : Dev) (x : Work) (c add : Nat) (need : Option Nat) (status : Nat) : Dev :=
  let old := (x.prog.find? (·.1 == c)).getD (c, 0, none)
  let new := (c, old.2.1 + add, match need with | some n => some n | none => old.2.2)
  let y := { x with prog := x.prog.filter (·.1 != c) ++ [new], status := worse x.status status }
  let s := s.updWork x fun _ => y
  match new.2.2 with
  | some n => if n ≤ new.2.1 then s.chunkDone y c status 0 else s
  | none => s

/-- The slot counts of a DISPATCH chunk have landed at the member of `rank`: how many slots its experts take (R536). -/
def Dev.routeCounts (s : Dev) (x : Work) (c : Nat) (counts : List Byte) (status : Nat) : Dev :=
  let isIt := fun (r : RouteInfo) => r.group == x.group && r.epoch == x.epoch && r.rank == x.rank
  let ms := (cut 2 counts.length counts).map leNat
  let put := fun (r : RouteInfo) => { r with counts := (r.counts.filter fun (y : Nat × List Nat) => y.1 != c) ++ [(c, ms)] }
  let s := { s with routeInfo := updWhere isIt put s.routeInfo }
  let per := match s.routeInfo.find? isIt with | some r => (RouteHdr.read r.header).perRank | none => 1
  s.routeStep x c 0 (some (natSum ((ms.drop (x.rank * per)).take per))) status

/-! ### Landing -/

/-- Land a chunk at one member (R421, R422, R425); a thread's data is written at once, an adapter's with MEM_WRITE_ACKED,
and its entry follows the answer. -/
def Dev.landOne (s : Dev) (e : EpochSt) (k : CtxKey) (p : Params) (status form : Nat) (payload : List Byte) (x : Work) : Dev :=
  let c := k.chunk.toNat
  if x.landed.contains c then s
  else
    let data := if p.pattern = 6 then payload else expandResult p.fmt form payload
    if !x.lands e.entry c || data.isEmpty || isBarrier p.pattern p.func then s.chunkDone x c status 0
    else
      let addr := x.landAddr c e.arrivals data.length
      match x.who with
      | .thread t =>
        if addr / 2 ^ 44 ≠ s.own then s.remoteSend t false addr data (.land c status) x.wrId
        else
        let r := s.memWrite (.part (s.corePart (t / 16))) (addr % 2 ^ 44) data
        let st := worse status (r.2.getD 0)
        let s := if r.2 = some 0 then r.1.landedAt k x.slot else r.1
        if p.pattern = 6 ∧ st = status then s.routeCounts x c data st else s.chunkDone x c st data.length
      | .adapter g q =>
        s.adpWrite (g * 256 + q) addr data (s.adpTx c true status data.length 0 (if p.pattern = 6 then data else []))

/-- A landing of the context waits for its answer. -/
def Dev.landing (s : Dev) (k : CtxKey) : Bool :=
  s.works.any fun x => x.group == k.group && x.epoch == k.epoch &&
    match x.who with
    | .thread t => (s.core (t / 16)).remote.any fun r => r.1 == t && r.2.wrId == x.wrId &&
        match r.2.use with | .land c _ => c == k.chunk.toNat | _ => false
    | .adapter g q => (s.adp (g * 256 + q)).txs.any fun t => t.landing && t.chunk == k.chunk.toNat

/-- Land a result at every member slot that expects it. Slots that landed the chunk before land nothing again, and count as they
did (R425); a chunk of GATHER_ARRIVAL that ROOT_RANK lands takes the epoch's next place (R421). -/
def Dev.landAll (s : Dev) (e : EpochSt) (k : CtxKey) (p : Params) (status form : Nat) (payload : List Byte) : Dev :=
  let again := s.gotten.filter (·.1 == k)
  let s := s.updCtx k fun c => { c with delivered := c.delivered + again.length }
  let ws := (s.worksFor e k p).filter fun x => !again.contains (k, x.2)
  let s := ws.foldl (fun t x => t.landOne e k p status form payload x.1) s
  if p.pattern = 3 ∧ p.func = 4 ∧ ws.any (fun x => x.1.lands e.entry k.chunk.toNat && !x.1.landed.contains k.chunk.toNat) then
    match s.epochAny k.group k.epoch with
    | some e => s.setEpoch k.group { e with arrivals := e.arrivals + 1 }
    | none => s
  else s

/-! ### Acknowledgement and release (R416, R426, R430) -/

/-- An ACK to the parent (R416, R428). -/
def Dev.sendAck (s : Dev) (d : Nat) (k : CtxKey) (p : Params) (part cls status rank delivered : Nat) (missed : List Nat)
    (parents : List Nat) : Dev :=
  (s.form d (collPkt s.own k p part cls 3 2 status rank 0 0
    (leBytes 4 delivered ++ List.replicate 4 0 ++ leBytes 32 (listMask missed)) []) (.parents parents)).1

/-- The root's record of an undelivered BROADCAST or ALL_GATHER chunk (R430). -/
def Dev.noteUndelivered (s : Dev) (c : Ctx) (members : Nat) : Dev :=
  if c.par.pattern = 3 ∧ (c.par.func = 0 ∨ c.par.func = 2) ∧ c.delivered < members then
    let pg := colPg c.die
    let s := s.count (pg + 0x160)
    if s.lv (pg + 0x220) 0 0 = 1 then s
    else
      let s := s.putLv (pg + 0x220) (1 + c.key.epoch.toNat * 2 ^ 24 + c.key.group.toNat * 2 ^ 40)
      let s := s.putLv (pg + 0x228) c.key.chunk.toNat
      let s := s.putLv (pg + 0x230) (members + c.delivered * 2 ^ 32)
      (List.range 4).foldl (fun t i => t.putLv (pg + 0x240 + 8 * i) (bits (listMask c.undelivered) (64 * i + 63) (64 * i))) s
  else s

/-- Release the result when every child has answered and every local landing is over (R416, R426). -/
def Dev.tryAck (s : Dev) (k : CtxKey) : Dev :=
  match s.ctx k with
  | none => s
  | some c =>
    if (c.phase ≠ .retained && !(c.phase == .copyLost && c.sent)) || c.acked || c.held || !c.unacked.isEmpty || s.landing k then s
    else if c.route.isSome then
      -- the counts are released: the contributions leave the packet buffer, the COMBINE half keeps the context (R539)
      let held := match c.route with | some r => r.contribs.map (·.2.2) | none => []
      (s.releaseAll held).updCtx k fun c =>
        { c with acked := true, route := c.route.map fun r => { r with contribs := r.contribs.map fun x => (x.1, x.2.1, 0) } }
    else
      match s.epochAny k.group k.epoch with
      | none => s.endCtx k
      | some e =>
        let s := if e.entry.root then s.noteUndelivered c e.entry.members
          else s.sendAck c.die k c.par c.part c.cls 0 0 c.delivered c.undelivered e.parents
        let s := { s with released := s.released ++ [(k, c.delivered, c.undelivered)] }
        s.endCtx k

/-! ### Copies -/

/-- The RESULT packet of a context. -/
def Ctx.resultPkt (c : Ctx) (own : Nat) : Packet :=
  collPkt own c.key c.par c.part c.cls 2 3 c.status 0 0 c.form c.result c.digest

/-- The retained copy checks against its digest and its core is in service (R428). -/
def Dev.copyGood (s : Dev) (c : Ctx) : Bool :=
  c.digest == chunkDigest c.key c.par c.result && s.coreUp c.home

/-- The payload of a barrier arrival (R437). -/
def arrival : List Byte := leBytes 8 1

/-- A member slot's contribution has its cells: it is offered to its context here. -/
def Dev.offerInside (s : Dev) (d slot : Nat) (pkt : Packet) (alloc : Nat) : Dev :=
  s.offer d { port := 512, sop := 0, pkt := { pkt with itag := s.tagNow }, src := some (.slot slot), key := none, data := [],
              spec := 0, wait := false, passed := true, alloc := alloc, tick := s.ticks }

/-- Offer a member slot's contribution to its context here, once the pool manager gives it cells (R342, R361). -/
def Dev.offerMember (s : Dev) (d slot : Nat) (x : Work) (c part cls : Nat) (data : List Byte) : Dev :=
  let p : Params := { pattern := x.pattern, func := x.func, fmt := x.fmt, sat := x.sat, length := 0, fused := [] }
  let pkt := collPkt s.own ⟨x.group, x.epoch, BitVec.ofNat 32 c⟩ p part cls 0 2 0 x.rank 0 0 data []
  (s.withFormed d pkt (.inside (some slot)) none true fun t id => t.offerInside d slot pkt id).1

/-- Send one member's contribution again (R429, R433, R585). -/
def Dev.replayOne (s : Dev) (d : Nat) (slot : Nat) (x : Work) (c : Nat) : Dev :=
  let j := c - x.first.toNat
  let pc := match x.who with
    | .thread t => (s.corePart (t / 16), s.coreClass (t / 16))
    | .adapter g q => ((s.adpCfg (g * 256 + q)).part, 0)
  if c < x.first.toNat ∨ j ≥ x.count then s
  else if isBarrier x.pattern x.func then s.offerMember d slot x c pc.1 pc.2 arrival
  else if x.length = 0 then s.offerMember d slot x c pc.1 pc.2 []
  else
    match x.who with
    | .adapter g q => s.adpSend (g * 256 + q) true (x.localA.toNat + j * x.length) (readLen x.length) c false 0
    | .thread t =>
      let a := x.localA.toNat + j * x.length
      if a / 2 ^ 44 ≠ s.own then s.remoteSend t true a (readLen x.length) (.source slot c) x.wrId
      else
        match s.memRead (.part pc.1) (a % 2 ^ 44) x.length with
        | (u, some 0, l) => u.offerMember d slot x c pc.1 pc.2 l
        | (u, st, _) => u.chunkDone x c (st.getD 0x0B) 0

/-- Every local member replays its contribution to a chunk. -/
def Dev.replay (s : Dev) (e : EpochSt) (k : CtxKey) (d : Nat) : Dev :=
  (s.allWorks e k).foldl (fun t x =>
    if (x.1.pattern ≤ 4 ∨ x.1.pattern = 7) ∧ x.1.sends e.entry then t.replayOne d x.2 x.1 k.chunk.toNat else t) s

/-- A CHUNK_LOST chunk: the context is discarded, the children are told, the members replay (R429). -/
def Dev.lostDown (s : Dev) (k : CtxKey) : Dev :=
  match s.ctx k with
  | none => s
  | some c =>
    match s.epochAny k.group k.epoch with
    | none => s.endCtx k
    | some e =>
      let s := s.statusDown c.die e.children k c.par c.part c.cls 4 c.came
      (s.endCtx k).replay e k c.die

/-- A retained copy is lost (R428, R429). A non-root device asks its parent for a resend: until it comes, the children that have
not ACKed wait, and an epoch's release that is held here is as if it had not come (R404). -/
def Dev.copyLost (s : Dev) (k : CtxKey) : Dev :=
  match s.ctx k with
  | none => s
  | some c =>
    let s := s.count (colPg c.die + 0x138)
    let s := s.raiseOwn c.die 0x08 0 2 (blockUnit c.die 0x08 0)
    match s.epochAny k.group k.epoch with
    | none => s.endCtx k
    | some e =>
      if e.entry.root then s.lostDown k
      else
        let s := s.freePlace k
        let s := if c.held then s.setGrp k.group { s.grp k.group with relHeld := false } else s
        let s := s.updCtx k fun c => { c with phase := .copyLost, result := [], digest := [], held := false }
        s.sendAck c.die k c.par c.part c.cls 4 0 0 [] e.parents

/-- COL_RESEND.MAX. -/
def Dev.resendMax (s : Dev) : Nat := s.cfg (colPg 0 + 0x1008) 39 32

/-- A child's copy is to be sent again, or the child counts as undelivered (R427). -/
def Dev.resendCopy (s : Dev) (k : CtxKey) (lp : Nat) : Dev :=
  match s.ctx k with
  | none => s
  | some c =>
    match c.unacked.find? (·.1 == lp) with
    | none => s
    | some u =>
      if u.2.2 ≥ s.resendMax then (s.notDelivered (some k) lp).tryAck k
      else if s.copyGood c = false then s.copyLost k
      else
        let s := s.count (colPg c.die + 0x130)
        if s.logLive lp = false then ((s.count (swcPg c.die + 0x148)).notDelivered (some k) lp).tryAck k
        else
          let s := s.updCtx k fun c => { c with unacked := c.unacked.map fun y => if y.1 = lp then (lp, s.ticks, y.2.2 + 1) else y }
          ((s.form c.die (c.resultPkt s.own) (.copies [lp] (some k) c.came)).1).tryAck k

/-- Send the result to the child port set and land it at the member slots (R415, R421). A copy that has come again after its loss
goes to the children that have not ACKed, and has landed already (R427, R428). -/
def Dev.sendResult (s : Dev) (k : CtxKey) : Dev :=
  match s.ctx k with
  | none => s
  | some c =>
    if !s.copyGood c then s.copyLost k
    else if c.sent then ((c.unacked.map (·.1)).foldl (fun t lp => t.resendCopy k lp) s).tryAck k
    else
      match s.epochAny k.group k.epoch with
      | none => s
      | some e =>
        let kids := e.children.filter (s.notIngress c.came)
        let s := s.updCtx k fun c => { c with unacked := kids.map fun lp => (lp, s.ticks, 0), sent := true, held := false }
        let s := if kids.isEmpty then s else (s.form c.die (c.resultPkt s.own) (.copies kids (some k) c.came)).1
        (s.landAll e k c.par c.status c.form c.result).tryAck k

/-! ### Epoch release (R404) -/

/-- Release the local members that wait in an epoch's release barrier (R438). -/
def Dev.releaseMembers (s : Dev) (e : EpochSt) (k : CtxKey) (status : Nat) : Dev :=
  (s.worksFor e k { Params.none with pattern := 3, func := 3 }).foldl (fun t x => t.chunkDone x.1 k.chunk.toNat status 0) s

/-- Close the current epoch of a group, its release being complete here: batches are applied, members released, the held
result sent, and the next epoch becomes current, be it open yet or not (R402, R404). A release notice carries no status: the members
of a BEAT-mode barrier get OK, even when members were lost (DESIGN CHOICE, log 111). -/
def Dev.closeEpoch : Nat → Dev → BitVec 24 → Dev
  | 0, s, _ => s
  | n + 1, s, g =>
    let x := s.grp g
    match x.number with
    | none => s
    | some ep =>
      let k : CtxKey := ⟨g, ep, releaseChunk⟩
      let s := match x.current with | some e => s.applyBatches g e | none => s
      let past := x.past.filter fun y => s.ctxs.any fun c => c.key.group == g && c.key.epoch == y.epoch
      let s := s.setGrp g { x with number := some (ep + 1), current := x.next, next := none, relHeld := false,
                                   past := x.current.toList ++ past }
      let s := { s with released := s.released.filter fun y => !(y.1.group == g && y.1.epoch == ep - 1),
                        gotten := s.gotten.filter fun y => !(y.1.group == g && y.1.epoch == ep - 1) }
      let s := match x.current with
        | none => s
        | some e =>
          match s.ctx k with
          | some c =>
            if c.phase = .retained then (if c.acked then s else s.sendResult k) else (s.releaseMembers e k 0).endCtx k
          | none => s.releaseMembers e k 0
      if x.relHeld then Dev.closeEpoch n s g else s

/-- The release barrier of an epoch has completed here (R404). One that ended with another status than OK or MEMBER_LOST closes the
epoch too: its members have their entries, and its context keeps the key. -/
def Dev.epochReleased (s : Dev) (g : BitVec 24) (ep : BitVec 16) : Dev :=
  let x := s.grp g
  match x.number with
  | none => s
  | some n =>
    if ep = n then Dev.closeEpoch 2 s g
    else if ep = n + 1 then
      (s.setGrp g { x with relHeld := true }).updCtx ⟨g, ep, releaseChunk⟩ fun c => { c with held := true }
    else s

/-- Send release notices toward the child ports (R167, R168, R243). -/
def Dev.notices (s : Dev) (d : Nat) (e : EpochSt) (g : BitVec 24) (ep : BitVec 16) (beat : BitVec 64) (except_ : Option Nat) : Dev :=
  e.children.foldl (fun t lp =>
    match t.placeOf lp with
    | none => t
    | some p =>
      if some p = except_ ∨ !t.portLive p then t
      else if t.portMode p = 4 then
        let k : CtxKey := ⟨g, ep, releaseChunk⟩
        let pr : Params := { Params.none with pattern := 3, func := 3 }
        let z := List.replicate 8 (0 : Byte)
        (t.form d (collPkt t.own k pr e.entry.part 0 2 3 0 0 0 0 z (chunkDigest k pr z)) (.copies [lp] none none)).1
      else t.sendMsg p (.release g ep beat)) s

/-- A release of this epoch is held here already: for its beat, or for the end of the epoch before (R404). -/
def Dev.releaseHeld (s : Dev) (g : BitVec 24) (ep : BitVec 16) : Bool :=
  s.releases.any (fun r => r.group == g && r.epoch == ep) || ((s.grp g).number == some (ep - 1) && (s.grp g).relHeld)

/-- A release after its beat: taken at once and counted (R169). -/
def Dev.lateRelease (s : Dev) (g : BitVec 24) (ep : BitVec 16) : Dev := (s.count (beatPg 0 + 0x1B0)).epochReleased g ep

/-- A BEAT-mode release for beat `r` at this device: due later, taken during its beat, or taken at once and counted (R168 to
R170). -/
def Dev.beatRelease (s : Dev) (g : BitVec 24) (ep : BitVec 16) (r : BitVec 64) : Dev :=
  if r = 0 ∨ !s.aligned then (s.count (beatPg 0 + 0x1A8)).epochReleased g ep
  else if s.beat > r then s.lateRelease g ep
  else if s.beat = r then s.epochReleased g ep
  else { s with releases := s.releases ++ [{ group := g, epoch := ep, beat := r }] }

/-! ### Retention -/

/-- The result of a context stands in its blocks: retain it and send it (R369, R426, R404). -/
def Dev.retainNow (s : Dev) (k : CtxKey) : Dev :=
  match s.ctx k with
  | none => s
  | some c =>
    let cells := cellsFor (c.result.length + 8)
    let s := match c.place with | .resident id => s.shrink id cells | _ => s
    let pl := match c.place, c.retain with
      | .spilled _, some id => Place.resident id
      | .none, some id => Place.resident id
      | q, _ => q
    let s := s.updCtx k fun c =>
      { c with phase := .retained, retainedAt := s.ticks, recs := [], kept := [], place := pl,
               retain := match c.place with | .resident _ => c.retain | _ => none }
    if isBarrier c.par.pattern c.par.func && k.chunk == releaseChunk && s.copyGood c && (s.epochOf k.group k.epoch).isSome then
      s.epochReleased k.group k.epoch
    else s.sendResult k

/-- Retain a result that has come from the parent, asking for cells where the context has none (R368, R415). -/
def Dev.retainFrom (s : Dev) (k : CtxKey) : Dev :=
  match s.ctx k with
  | none => s
  | some c =>
    match c.place with
    | .resident _ => s.retainNow k
    | _ =>
      let r := s.retainCells c c.result.length
      match r.2 with
      | some id => (r.1.updCtx k fun c => { c with retain := some id }).retainNow k
      | none => r.1.updCtx k fun c => { c with phase := .retainWait }

/-- The root's rounding is done: form the result (R39, R401, R412, R413, R414, R498). A barrier of a BEAT-mode group that is not
the epoch release has no notice, RELEASE holding no CHUNK, and is answered by a RESULT (DESIGN CHOICE, log 110). -/
def Dev.rootResult (s : Dev) (k : CtxKey) : Dev :=
  match s.ctx k with
  | none => s
  | some c =>
    match s.epochAny k.group k.epoch with
    | none => s
    | some e =>
      let p := c.par
      let en := e.entry
      if isBarrier p.pattern p.func && en.relBeat && k.chunk == releaseChunk then
        -- R168, R170: the release notice in place of a result
        let r : BitVec 64 :=
          if s.aligned then s.beat - BitVec.ofNat 64 (s.ticks - c.lastIn) + BitVec.ofNat 64 (s.cfg (beatPg 0 + 0x1000) 15 0)
          else 0
        let s := (s.endCtx k).notices c.die e k.group k.epoch r none
        -- MARGIN 0 makes every release late (R174)
        if r ≠ 0 ∧ s.cfg (beatPg 0 + 0x1000) 15 0 = 0 then s.lateRelease k.group k.epoch else s.beatRelease k.group k.epoch r
      else
        let st := if p.pattern = 3 then [] else if c.included = 0 then emptyState true p else c.state en
        let raw :=
          if isBarrier p.pattern p.func then List.replicate 8 0
          else if p.pattern = 3 then c.ordered.headD []
          else if p.pattern = 7 then finishFused p.fused e.cfg k p.length st
          else finishState p e.cfg k 0 st
        let eb := elemBytes p.fmt
        let fit_ := if p.pattern = 4 ∧ p.func ≥ 2 then raw.take (4096 / eb * eb) else raw
        let extra := (raw.length - fit_.length) / max eb 1
        let s := if extra = 0 then s else s.addLv (colPg c.die + 0x168) 63 0 extra
        let members := decide (c.included < en.members) && !(p.pattern == 3 && p.func != 3)
        let status := worse (worse (if members || c.lostFlag then 3 else 0) (if c.dropped then 6 else 0))
          (if extra ≠ 0 ∧ p.func = 2 ∧ p.pattern = 4 then 0x0A else 0)
        if status ≠ 0 ∧ status ≠ 3 then s.failCtx k status
        else
          let f := encodeResult p fit_
          let empties := (subOps p.fused).filter fun o => o.params.length == 0
          let s := if p.pattern = 7 then s.addLv (colPg c.die + 0x100) 63 0 empties.length else s
          let s := s.updCtx k fun c => { c with result := f.2, form := f.1, status := status, digest := chunkDigest k p f.2 }
          match c.place with
          | .none => s.retainFrom k
          | _ => s.retainNow k

/-! ### Losses -/

/-- A DISPATCH context lost with its root's home core (R542): the subtree is told CONTEXT_LOST, and the members replay. -/
def Dev.loseRoute (s : Dev) (k : CtxKey) (children : List Nat) (came : Option Nat) (d : Nat) (p : Params) (part cls : Nat) : Dev :=
  let s := s.statusDown d children k p part cls 5 came
  let s := { s with released := s.released.filter (·.1 != k), replays := s.replays ++ [k] }
  s.endCtx k

/-- A context lost with its home core, or by an uncorrectable error in its records (R433, R434, R542, R666). -/
def Dev.loseCtx (s : Dev) (k : CtxKey) : Dev :=
  match s.ctx k with
  | none => s
  | some c =>
    if c.route.isSome then
      let s := s.count (colPg c.die + 0x140)
      let children := match s.epochAny k.group k.epoch with | some e => e.children | none => []
      s.loseRoute k children none c.die { c.par with pattern := 6, func := 0 } c.part c.cls
    else if c.phase = .copyLost then s
    else if c.phase = .retained then (if c.acked then s.endCtx k else s.copyLost k)
    else if c.phase = .retainWait ∧ !c.digest.isEmpty then s.copyLost k
    else
      let s := s.count (colPg c.die + 0x140)
      match s.epochAny k.group k.epoch with
      | none => s.endCtx k
      | some e =>
        let s := s.statusDown c.die e.children k c.par c.part c.cls 5 none
        let s := (s.endCtx k)
        let s := { s with inputs := updWhere (·.key == some k) (fun i => ({ i with spec := 0, wait := true } : Input)) s.inputs }
        -- reopened on its new home at once, its memory asked for with its next input
        (s.openBare k e c.cls c.par).1.replay e k c.die

/-- Undo what an unconfirmed input has added (R419, R462). XOR and FUSED states and those of partials
are formed at confirmation only, so nothing of them is to be taken back. -/
def Dev.undo (s : Dev) (inp : Input) (d : Nat) : Dev :=
  if inp.spec = 0 then s
  else
    let s := s.count (colPg d + 0x128)
    match inp.key with
    | none => s
    | some k =>
      match s.ctx k, s.epochAny k.group k.epoch with
      | some c, some e =>
        let p := c.par
        if c.phase = .open ∧ p.exact ∧ (inp.pkt.ext.map (·.ckind)) = some ckContribution then
          let vs := (decodeAll p.fmt e.cfg.flushIn inp.data).take inp.spec
          s.updCtx k fun c => { c with recs := enterAll p.fmt (-1) c.recs vs }
        else s
      | _, _ => s

/-- The die that counts the undo of an input. -/
def Dev.undoDie (s : Dev) (inp : Input) : Nat :=
  match inp.key.bind s.ctx with
  | some c => c.die
  | none => inp.port / 128

/-- Undo and discard the unconfirmed inputs that meet a test (R419, R431). -/
def Dev.dropWhere (s : Dev) (test : Input → Bool) : Dev :=
  let mine := s.inputs.filter fun i => test i && !i.passed
  let s := mine.foldl (fun t i => (t.undo i (t.undoDie i)).release i.alloc) s
  let s := { s with inputs := s.inputs.filter fun i => !(test i && !i.passed) }
  (mine.filterMap (·.key)).foldl Dev.reopen s

/-- Discard the unconfirmed inputs of a port (R431). -/
def Dev.dropInputs (s : Dev) (p : Nat) : Dev := s.dropWhere (·.port == p)

/-- A source is lost to an epoch (R431, R432, R700): its unconfirmed inputs are undone and leave, by whichever port they come, and
contexts that waited for it go on. A context that holds the source's confirmed input keeps it and is not marked (DEDUCED, log 130). -/
def Dev.loseSource (s : Dev) (g : BitVec 24) (ep : BitVec 16) (x : Src) : Dev :=
  match s.epochOf g ep with
  | none => s
  | some e =>
    if e.lost.contains x then s
    else
      let s := (s.count (colPg (s.srcDie e x) + 0x148)).setEpoch g { e with lost := e.lost ++ [x] }
      let s := s.dropWhere fun i => i.src == some x && i.key.any fun k => k.group == g && k.epoch == ep
      let keys := (s.ctxs.filter fun c => c.key.group == g && c.key.epoch == ep && c.phase == .open).map (·.key)
      let mark := fun (c : Ctx) =>
        match c.src x with
        | some y => if y.conf then c else ({ c with lostFlag := true } : Ctx).updSrc x fun y => { y with lost := true, segs := [] }
        | none => c
      let s := { s with ctxs := updWhere (fun c => keys.contains c.key) mark s.ctxs }
      keys.foldl Dev.tryDone s

/-- Every open epoch whose source has stopped being live loses it (R431). -/
def Dev.loseDead (s : Dev) : Dev :=
  s.groups.foldl (fun t x =>
    let each := fun (t : Dev) (e : EpochSt) =>
      (e.sources.filter fun y => !t.srcLive e y).foldl (fun u y => u.loseSource x.2.group e.epoch y) t
    let t := match x.2.current with | some e => each t e | none => t
    match x.2.next with | some e => each t e | none => t) s

/-- Fenced or removed cores leave every latched core set at once, and then their contexts are lost (R32, R34, R433). -/
def Dev.loseCores (s : Dev) (cs : List Nat) : Dev :=
  let keep := fun (l : List Nat) => l.filter fun c => !cs.contains c
  let drop := fun (e : EpochSt) => { e with cores := keep e.cores, partCores := e.partCores.map keep }
  let one := fun (x : Nat × GroupSt) =>
    (x.1, { x.2 with current := x.2.current.map drop, next := x.2.next.map drop, past := x.2.past.map drop })
  let s := { s with groups := s.groups.map one }
  ((s.ctxs.filter fun c => cs.contains c.home).map (·.key)).foldl Dev.loseCtx s

def Dev.loseCore (s : Dev) (c : Nat) : Dev := s.loseCores [c]

/-! ### Group reset (R439, R440, R379) -/

/-- The chunks a work request still owes an entry for. -/
def Work.missing (x : Work) (e : Option EpochSt) : List Nat :=
  let all := match e with
    | some e => if x.allChunks e.entry then List.range x.expected else (List.range x.count).map (x.first.toNat + ·)
    | none => (List.range x.count).map (x.first.toNat + ·)
  all.filter fun c => !x.landed.contains c

/-- CONTEXT_LOST into every expected CHUNK entry not yet written: a thread's work request ends with it, an adapter's goes
on after the guard (R439, R440). -/
def Dev.resetWork (s : Dev) (x : Work) : Dev :=
  let miss := x.missing (s.epochOf x.group x.epoch)
  match x.who with
  | .thread _ =>
    miss.foldl (fun t c =>
      match t.works.find? (fun y => y.who == x.who && y.wrId == x.wrId && y.group == x.group && y.epoch == x.epoch && y.first == x.first) with
      | some y => t.chunkDone y c 5 0
      | none => t) s
  | .adapter _ _ => miss.foldl (fun t c => t.workOwe x 5 1 c) s

/-- Copies of a group's retained results that have not left are discarded (R444). -/
def Dev.dropCopies (s : Dev) (g : BitVec 24) : Dev :=
  let isOf := fun (q : QPkt) => s.mcasts.any fun m => some m.id == q.mcast && m.key.any fun k => k.group == g
  let gone := s.ports.flatMap fun x => x.2.queue.filter isOf
  let s : Dev := { s with ports := s.ports.map (fun x => (x.1, { x.2 with queue := x.2.queue.filter fun q => !isOf q })),
                          stalled := s.stalled.filter fun w => match w.via with
                            | .copies _ (some k) _ => k.group != g
                            | _ => true }
  (gone.filterMap (·.mcast)).foldl (fun t m => t.copyDone m none) s

def Dev.groupReset (s : Dev) (g : BitVec 24) : Dev :=
  let s := (s.works.filter (·.group == g)).foldl Dev.resetWork s
  let s := ((s.ctxs.filter (·.key.group == g)).map (·.key)).foldl Dev.endCtx s
  let isG := fun (pkt : Packet) => match pkt.ext with | some e => e.group == g | none => false
  let gone := s.inputs.filter fun i => isG i.pkt
  let s := (s.releaseAll (gone.map (·.alloc)))
  let s := { s with inputs := s.inputs.filter fun i => !isG i.pkt }
  let parked := s.parked.filter fun x => isG x.pkt
  let s : Dev := { s with stalled := s.stalled.filter fun w => !(isG w.pkt && match w.via with | .inside _ => true | _ => false) }
  let s := parked.foldl (fun t x => (t.count (bpmPg x.die + 0x460)).release x.alloc) s
  let s := { s with parked := s.parked.filter fun x => !isG x.pkt,
                    batches := s.batches.filter fun b => b.group != g,
                    releases := s.releases.filter fun r => r.group != g,
                    released := s.released.filter fun r => r.1.group != g,
                    gotten := s.gotten.filter fun r => r.1.group != g }
  let s := s.dropCopies g
  let s := s.setGrp g { GroupSt.reset g with guardEnd := some (s.ticks + s.cfg (colPg 0 + 0x1018) 31 0), resetAt := some s.ticks }
  { s with adapters := s.adapters.map fun a =>
      (a.1, if s.works.any (fun w => w.group == g && (match w.who with | .adapter p q => p * 256 + q == a.1 | _ => false))
        then { a.2 with eyespot := [] } else a.2) }

end Sys2Proof.Machine
end

