-- ==== Sys2Proof/Machine/Table.lean ====
section
/-! DEFINITION. Tables in HBM (R512 to R527): requests, segments on the lanes of the row-home cores (R508 to R511, R519),
batches, gathers and their answers, and the landing of answers at the requester (R520, R521). -/

namespace Sys2Proof.Machine

/-! ### Answers -/

/-- The answer of a request (R520, R521, R227). -/
def tableAnswer (own : Nat) (req : Packet) (x : Ext) (status : Nat) (payload : List Byte) : Packet :=
  let k : CtxKey := ⟨x.group, x.epoch, x.chunk⟩
  let p : Params := { pattern := 5, func := x.func.toNat, fmt := x.fmt.toNat, sat := x.sat, length := 0, fused := [] }
  let base := collPkt own k p req.part.toNat req.cls.toNat 2 4 status x.rank.toNat 0 0 payload (chunkDigest k p payload)
  { base with ptype := ptTableResp, tag := req.tag, dst := BitVec.ofNat 64 (req.src.toNat * 2 ^ 44) }

/-- Send an answer from die `d`; `some` when it is for this device itself. -/
def Dev.answerTable (s : Dev) (d : Nat) (pkt : Packet) : Dev × Option Packet :=
  match s.form d pkt .table with
  | (t, .own) => (t, some pkt)
  | (t, _) => (t, none)

/-! ### Updates -/

/-- One update of a scatter-add request. -/
structure Update where
  row : Nat
  vals : List (List Nat)
  deriving DecidableEq, Repr

/-- What a SCATTER_ADD_ROWS body holds. -/
structure Updates where
  list : List Update
  /-- Values dropped from INDEX and BITMAP tiles. -/
  drops : Nat
  whole : Bool
  bad : Bool
  deriving DecidableEq, Repr

def readUpdates (h : TableHdr) : Nat → List Byte → Updates
  | 0, l => { list := [], drops := 0, whole := !l.isEmpty, bad := false }
  | n + 1, l =>
    if l.length < 4 then { list := [], drops := 0, whole := true, bad := false }
    else
      let r := readRow h.fmt (rowTiles h.elems) h.elems (l.drop 4)
      if r.bad then { list := [], drops := 0, whole := true, bad := true }
      else
        let u := readUpdates h n r.rest
        { list := { row := leAt l 0 4, vals := r.vals } :: u.list, drops := r.drops + u.drops, whole := r.whole || u.whole,
          bad := u.bad }

/-- Cut the updates of one row into segments (R509). -/
def splitRow (split req row : Nat) (fmt : Nat) (flush : Bool) : Nat → List Update → List Segment
  | 0, _ => []
  | n + 1, us =>
    if us.isEmpty then []
    else
      let m := if split = 0 then us.length else split
      let recs := (us.take m).foldl (fun rs u => mergeRecs fmt 1 rs (recsOfVals fmt flush u.vals)) []
      { req := req, row := row, updates := min m us.length, recs := recs } :: splitRow split req row fmt flush n (us.drop m)

/-- Queue the segments of a row on consecutive lanes of its home core, from the row's own lane (R508, R509). -/
def queueSegs (lanes : List (List Segment)) (row : Nat) (segs : List Segment) : List (List Segment) :=
  (segs.zipIdx).foldl (fun ls x => ls.modify ((row + x.2) % 16) (· ++ [x.1])) lanes

/-- Slots of a table in use, those of requests still being worked included (R524). -/
def Dev.slotRows (s : Dev) (table : Nat) (g : BitVec 24) (ep : BitVec 16) : List Nat :=
  ((s.batches.filter fun b => b.table == table && b.group == g && b.epoch == ep).map (·.row)
    ++ (s.tableWorks.filter fun w => w.table == table && w.group == g && w.epoch == ep).flatMap fun w =>
        w.adds.map (·.1)).eraseDups
def Dev.slotsUsed (s : Dev) (table : Nat) : Nat :=
  (((s.batches.filter (·.table == table)).map fun b => (b.epoch.toNat, b.row))
    ++ (s.tableWorks.filter (·.table == table)).flatMap fun w => w.adds.map fun a => (w.epoch.toNat, a.1)).eraseDups.length

/-- Enter a row's sum into its batch slot (R522). -/
def Dev.enterBatch (s : Dev) (w : TableWork) (row : Nat) (recs : List Rec) : Dev :=
  let isIt := fun (b : BatchSlot) => b.table == w.table && b.group == w.group && b.epoch == w.epoch && b.row == row
  if s.batches.any isIt then
    { s with batches := updWhere isIt (fun b => { b with recs := mergeRecs w.fmt 1 b.recs recs }) s.batches }
  else { s with batches := s.batches ++ [{ table := w.table, group := w.group, epoch := w.epoch, row := row, recs := recs }] }

/-- The last segment of a request has finished: its updates enter, all together, and it is answered (R522). -/
def Dev.commitWork (s : Dev) (w : TableWork) : Dev × Option Packet :=
  let s := { s with tableWorks := s.tableWorks.filter (·.id != w.id) }
  (w.adds.foldl (fun t a => t.enterBatch w a.1 a.2) s).answerTable (w.core / 64) w.resp

/-! ### Requests -/

/-- The header checks of a request: its table header, or the status that stops it (R513, R515, R659). An empty core set comes
before a header that is not well formed (R20, R35). -/
def Dev.tableHdr (s : Dev) (e : EpochSt) (pkt : Packet) (ecc : Ecc) : Dev × (Nat ⊕ TableHdr) :=
  let l := pkt.payload
  let table := leAt l 0 8
  if l.length < 16 ∨ pkt.dst.toNat ≠ table ∨ leAt l 12 4 ≠ l.length then (s, .inl (if e.cores.isEmpty then 2 else 8))
  else
    let a := table % 2 ^ 44
    let hl := Memory.readBytes s.mem a 64
    let h := TableHdr.read hl
    if !h.ok hl pkt.part.toNat a then (s, .inl (if (e.tableCores (h.part % 16)).isEmpty then 2 else 8))
    else
      match s.memRead (.part h.part) a 64 with
      | (t, some 0, _) => let m := t.hbmMeets a ecc; (m.1, if m.2 then .inl 4 else .inr h)
      | (t, st, _) => (t, .inl (st.getD 8))

/-- Rows of a gather, encoded, with the rows dropped; or the status of a row that its PART may not reach, or that is out of service
(R643, R659, R667). -/
def Dev.gatherRows (s : Dev) (h : TableHdr) (core : Nat) : List Nat → Dev × (Nat ⊕ (List Byte × Nat))
  | [] => (s, .inr ([], 0))
  | r :: rest =>
    if r ≥ h.rows then
      let s := s.count (corePg core + 0x800)
      match Dev.gatherRows s h core rest with
      | (t, .inr (l, n)) => (t, .inr (encodeRow h.fmt (List.replicate h.elems 0) ++ l, n + 1))
      | q => q
    else
      match s.memRead (.part h.part) (h.rowAddr r) h.rowBytes with
      | (t, some 0, b) =>
        match Dev.gatherRows t h core rest with
        | (t, .inr (l, n)) =>
          (t, .inr (encodeRow h.fmt ((cut (elemBytes h.fmt) b.length b).map leNat) ++ l, n))
        | q => q
      | (t, st, _) => (t, .inl (st.getD 0x0A))

/-- Row indices of a gather. -/
def gatherIdx (pkt : Packet) : List Nat := (cut 4 (leAt pkt.payload 8 4) (pkt.payload.drop 16)).map leNat

/-- A row the gather reads has a pending batch of an earlier epoch (R527). -/
def Dev.gatherWaits (s : Dev) (pkt : Packet) (x : Ext) : Bool :=
  let table := leAt pkt.payload 0 8 % 2 ^ 44
  (gatherIdx pkt).any fun r => s.batches.any fun b =>
    b.table == table && b.row == r && !(b.group == x.group && (b.epoch == x.epoch || b.epoch == x.epoch + 1))

/-- Serve a gather now (R517, R520, R527). -/
def Dev.serveGather (s : Dev) (d : Nat) (pkt : Packet) (x : Ext) (h : TableHdr) (core : Nat) : Dev × Option Packet :=
  match s.gatherRows h core (gatherIdx pkt) with
  | (t, .inl st) => t.answerTable d (tableAnswer t.own pkt x st [])
  | (t, .inr (l, n)) => t.answerTable d (tableAnswer t.own pkt x (if n = 0 then 0 else 6) l)

/-- Group the updates by row, in order of first appearance. -/
def byRow (us : List Update) : List (Nat × List Update) :=
  ((us.map (·.row)).eraseDups).map fun r => (r, us.filter (·.row == r))

/-- Work a scatter-add request: checks, then its segments on the row-home cores' lanes (R500, R519, R522 to R524). -/
def Dev.serveScatter (s : Dev) (d : Nat) (pkt : Packet) (x : Ext) (h : TableHdr) (e : EpochSt) (core : Nat) : Dev × Option Packet :=
  let count := leAt pkt.payload 8 4
  let table := leAt pkt.payload 0 8 % 2 ^ 44
  let answer := fun (t : Dev) (st acc dropped : Nat) =>
    t.answerTable d (tableAnswer t.own pkt x st (if st = 0 ∨ st = 6 then leBytes 4 acc ++ leBytes 4 dropped else []))
  let u := readUpdates h count (pkt.payload.drop 16)
  if u.bad then answer s 8 0 0
  else if u.whole then answer (s.count (corePg core + 0x808)) 6 0 count
  else
    let kept := u.list.filter fun y => decide (y.row < h.rows)
    let lost := u.list.length - kept.length
    let rows := byRow kept
    let fresh := (rows.filter fun r => !(s.slotRows table x.group x.epoch).contains r.1).length
    -- the rows, and the batch slots in use, which lie from BATCH_BASE on (DEDUCED, log 43)
    let reach := (rows.map fun r => s.verdict (.part h.part) true (h.rowAddr r.1) h.rowBytes)
      ++ (if rows.isEmpty then [] else [s.verdict (.part h.part) true h.batch (min h.slots (s.slotsUsed table + fresh) * h.slotBytes)])
    match reach.find? (· != .ok) with
    | some v => answer (s.countVerdict v) (v.status.getD 0x0A) 0 0
    | none =>
    if s.slotsUsed table + fresh > h.slots then answer (s.count (corePg core + 0x830)) 0x0A 0 0
    else
      let s := s.addLv (corePg core + 0x800) 63 0 (u.drops + lost)
      let st := if u.drops + lost = 0 then 0 else 6
      let resp := tableAnswer s.own pkt x st (leBytes 4 kept.length ++ leBytes 4 lost)
      let cores := e.tableCores h.part
      let id := s.nextId
      let step := fun (acc : Dev × Nat) (r : Nat × List Update) =>
        let rc := (rowHome cores e.entry.salt (leAt pkt.payload 0 8) r.1).getD core
        let split := acc.1.cfg (corePg rc + 0x1800) 15 0
        let segs := splitRow split id r.1 h.fmt (e.cfgOf h.part).flushIn r.2.length r.2
        let t := if segs.length > 1 then acc.1.count (corePg rc + 0x828) else acc.1
        (t.updCore rc fun c => { c with lanes := queueSegs c.lanes r.1 segs }, acc.2 + segs.length)
      let q := rows.foldl step (s, 0)
      let w : TableWork := { id := id, core := core, left := q.2, table := table, group := x.group, epoch := x.epoch,
                             fmt := h.fmt, adds := rows.map (fun r => (r.1, [])), resp := resp }
      let s := { q.1 with tableWorks := q.1.tableWorks ++ [w], nextId := id + 1 }
      if q.2 = 0 then s.commitWork w else (s, none)

/-- A TABLE_REQ at the table's device (R402, R513 to R527); an answer for this device itself is returned. An empty request (R16,
R516) counts at the home core of its key, the block that runs it (DESIGN CHOICE, log 119). A gather needs a group with an open or a
valid entry as a scatter-add does (DEDUCED, log 132). -/
def Dev.tableReq (s : Dev) (d port : Nat) (pkt : Packet) (ecc : Ecc) : Dev × Option Packet :=
  match pkt.ext with
  | none => (s, none)
  | some x =>
    let f := s.fileFor pkt.itag
    if s.guarded x.group then (s.count (colPg d + 0x170), none)
    else if (s.epochOf x.group x.epoch).isNone ∧ !groupValid f x.group then
      s.answerTable d (tableAnswer s.own pkt x 8 [])
    else
      match s.admitEpoch d f x.group x.epoch with
      | (s, none) => (s, none)
      | (s, some e) =>
        match s.tableHdr e pkt ecc with
        | (s, .inl st) => s.answerTable d (tableAnswer s.own pkt x st [])
        | (s, .inr h) =>
          let k : CtxKey := ⟨x.group, x.epoch, x.chunk⟩
          let count := leAt pkt.payload 8 4
          let gather := x.func == 0
          let tooLong := decide (count * (h.rowBytes + 2 * rowTiles h.elems) > 4096)
          match homeOf (e.tableCores h.part) e.entry.salt k with
          | none => s.answerTable d (tableAnswer s.own pkt x 2 [])
          | some core =>
            if x.ckind ≠ ckContribution ∨ (!gather ∧ h.group ≠ x.group.toNat) ∨ (gather ∧ tooLong)
                ∨ (gather ∧ pkt.payload.length ≠ 16 + 4 * count) then
              s.answerTable d (tableAnswer s.own pkt x 8 [])
            else if count = 0 then (s.count (corePg core + 0x108)).answerTable d (tableAnswer s.own pkt x 1 [])
            else if gather then
              if s.gatherWaits pkt x then
                ({ s with gathers := s.gathers ++ [{ key := k, src := pkt.src, port := port, pkt := pkt }] }, none)
              else s.serveGather d pkt x h core
            else s.serveScatter d pkt x h e core

/-- A gather that waited reads its rows once the earlier batches are applied (R527). -/
def Dev.gatherRead (s : Dev) (k : CtxKey) (src : BitVec 20) (ecc : Ecc) : Dev × Option Packet :=
  match s.gathers.find? fun g => g.key == k && g.src == src with
  | none => (s, none)
  | some g =>
    match g.pkt.ext with
    | none => (s, none)
    | some x =>
      if s.gatherWaits g.pkt x then (s, none)
      else
        let s := { s with gathers := s.gathers.filter fun y => !(y.key == k && y.src == src) }
        let d := g.port / 128 % 4
        match s.epochAny x.group x.epoch with
        | none => s.answerTable d (tableAnswer s.own g.pkt x 5 [])
        | some e =>
          match s.tableHdr e g.pkt .clean with
          | (s, .inr h) =>
            match (gatherIdx g.pkt).find? fun r => decide (r < h.rows) with
            | some r =>
              let m := s.hbmMeets (h.rowAddr r) ecc
              if m.2 then m.1.answerTable d (tableAnswer m.1.own g.pkt x 4 [])
              else m.1.serveGather d g.pkt x h ((homeOf (e.tableCores h.part) e.entry.salt k).getD 0)
            | none => s.serveGather d g.pkt x h ((homeOf (e.tableCores h.part) e.entry.salt k).getD 0)
          | (s, .inl st) => s.answerTable d (tableAnswer s.own g.pkt x st [])

/-! ### Lanes (R510, R511) -/

/-- Updates queued on a lane and not started. -/
def laneLoad (l : List Segment) : Nat := natSum ((l.drop 1).map (·.updates))

/-- An idle lane takes the oldest unstarted segment of the fuller neighbour (R510). -/
def Dev.steal (s : Dev) (c lane : Nat) : Dev :=
  let ls := (s.core c).lanes
  if !(ls.getD lane []).isEmpty ∨ s.cfg (corePg c + 0x1800) 16 16 = 0 then s
  else
    let hi := (lane + 1) % 16
    let lo := (lane + 15) % 16
    let v := if laneLoad (ls.getD lo []) > laneLoad (ls.getD hi []) then lo else hi
    match ls.getD v [] with
    | r :: x :: rest => (s.updCore c fun k => { k with lanes := (ls.set v (r :: rest)).set lane [x] }).count (corePg c + 0x820)
    | _ => s

/-- The running segment of a lane ends: its record joins its row's (R511), and its request may end with it (R522). -/
def Dev.segmentDone (s : Dev) (c lane : Nat) : Dev × Option Packet :=
  let ls := (s.core c).lanes
  match ls.getD lane [] with
  | [] => (s, none)
  | g :: rest =>
    let s := s.updCore c fun k => { k with lanes := ls.set lane rest }
    match s.tableWorks.find? (·.id == g.req) with
    | none => (s, none)
    | some w =>
      let w := { w with left := w.left - 1,
                        adds := w.adds.map fun a => if a.1 = g.row then (a.1, mergeRecs w.fmt 1 a.2 g.recs) else a }
      if w.left = 0 then s.commitWork w
      else ({ s with tableWorks := updWhere (·.id == w.id) (fun _ => w) s.tableWorks }, none)

/-! ### Landing an answer (R520, R521) -/

/-- Dense bytes of the rows of a gather's answer. -/
def denseRows (fmt : Nat) : Nat → List Byte → List Byte
  | 0, _ => []
  | n + 1, l =>
    if l.isEmpty then []
    else
      match readTile fmt l with
      | .tile t => (firstVals (spread t.n t.vals)).flatMap (leBytes (elemBytes fmt)) ++ denseRows fmt n (l.drop t.size)
      | _ => []

/-- A TABLE_RESP addressed to this device lands at the member of its RANK. -/
def Dev.tableResp (s : Dev) (pkt : Packet) : Dev :=
  match pkt.ext with
  | none => s
  | some x =>
    let k : CtxKey := ⟨x.group, x.epoch, x.chunk⟩
    let p : Params := { pattern := 5, func := x.func.toNat, fmt := x.fmt.toNat, sat := x.sat, length := 0, fused := [] }
    match s.works.find? (fun w => w.group == x.group && w.epoch == x.epoch && w.pattern == 5 && w.func == x.func.toNat
        && w.rank == x.rank.toNat && decide (w.first.toNat ≤ x.chunk.toNat) && decide (x.chunk.toNat < w.first.toNat + w.count)) with
    | none => s
    | some w =>
      let c := x.chunk.toNat
      if w.landed.contains c then s
      else if pkt.trailer ≠ chunkDigest k p pkt.payload then s.chunkDone w c 0x0C 0
      else if x.func ≠ 0 ∨ pkt.payload.isEmpty then s.chunkDone w c x.status.toNat 0
      else
        let rows := denseRows x.fmt.toNat pkt.payload.length pkt.payload
        let n := ((w.reqs.find? (·.1 == c)).map (·.2)).getD 1
        let q := (w.length - 16) / 4
        let addr := w.remote.toNat + (c - w.first.toNat) * q * (rows.length / max n 1)
        match w.who with
        | .thread t =>
          if addr / 2 ^ 44 ≠ s.own then s.remoteSend t false addr rows (.land c x.status.toNat) w.wrId
          else
            let r := s.memWrite (.part (s.corePart (t / 16))) (addr % 2 ^ 44) rows
            r.1.chunkDone w c (worse x.status.toNat (r.2.getD 0)) rows.length
        | .adapter g q => s.adpSend (g * 256 + q) false addr rows c true x.status.toNat

/-- An answer that stays in this device lands at once. -/
def Dev.takeAnswer (r : Dev × Option Packet) : Dev :=
  match r.2 with
  | some a => r.1.tableResp a
  | none => r.1

/-- Requests worked by a core that is fenced, or of a group that is reset, complete CONTEXT_LOST (the events of table
service, R439). -/
def Dev.loseTable (s : Dev) (p : TableWork → Bool) : Dev :=
  let gone := s.tableWorks.filter p
  let s := { s with tableWorks := s.tableWorks.filter fun w => !p w }
  let strip := fun (c : CoreSt) => { c with lanes := c.lanes.map fun l => l.filter fun g => !gone.any (·.id == g.req) }
  let s := { s with cores := s.cores.map fun x => (x.1, strip x.2) }
  gone.foldl (fun t w =>
    match w.resp.ext with
    | some x =>
      let k : CtxKey := ⟨x.group, x.epoch, x.chunk⟩
      let p : Params := { pattern := 5, func := x.func.toNat, fmt := x.fmt.toNat, sat := x.sat, length := 0, fused := [] }
      Dev.takeAnswer (t.answerTable (w.core / 64)
        { w.resp with ext := some { x with status := 5 }, payload := [], length := 0, trailer := chunkDigest k p [] })
    | none => t) s

/-- Requests that a core works, or that have segments on its lanes: nothing of them has entered (R519, R522). -/
def Dev.loseTablesOf (s : Dev) (c : Nat) : Dev :=
  let ids := ((s.core c).lanes.flatten).map (·.req)
  s.loseTable fun w => w.core == c || ids.contains w.id

end Sys2Proof.Machine
end

