-- ==== Sys2Proof/Machine/Route.lean ====
section
/-! DEFINITION. Expert dispatch and combine (R528 to R542), and what a member slot sends for each chunk of its work request
(R232, R518, R537, R584). -/

namespace Sys2Proof.Machine

/-! ### The root -/

/-- Bytes of a DISPATCH context (R539). -/
def routeBytes (h : RouteHdr) (members rows : Nat) : Nat := 16 * members * rows * h.k + 80 * members * rows * h.elems

def Route.hdr (r : Route) : RouteHdr := RouteHdr.read r.header

/-- The contribution of a rank. -/
def Route.data (r : Route) (rank : Nat) : Option (List Byte) := (r.contribs.find? (·.1 == rank)).map (·.2.1)

/-- Bytes of row `i` of a contribution: its scores and its elements. -/
def Route.rowOf (r : Route) (l : List Byte) (i : Nat) : List Nat × List Nat :=
  let h := r.hdr
  let b := slice l (32 + i * h.inRow r.fmt) (h.inRow r.fmt)
  let sc := if h.scoreSrc = 0 then 4 * h.experts else 0
  ((cut 4 h.experts (b.take sc)).map leNat, (cut (elemBytes r.fmt) h.elems (b.drop sc)).map leNat)

/-- Scores from the gate matrix (R531). -/
def gateScores (fmt elems experts : Nat) (gate : List Byte) (row : List Nat) : List Nat :=
  let g := decodeAll fmt false gate
  let r := row.map (decElem fmt false)
  (List.range experts).map fun e =>
    ff32.rne (tileDot (.num false 0 0) r ((List.range elems).map fun i => g.getD (i * experts + e) (.num false 0 0)))

/-- Every selected assignment of a chunk: (score, expert, weight) by rank and row (R532). -/
def Route.select (r : Route) (gate : List Byte) : List (Nat × Assign) :=
  let h := r.hdr
  (sortBy (fun (a b : Nat × List Byte × Nat) => decide (a.1 < b.1)) r.contribs).flatMap fun c =>
    (List.range r.rows).flatMap fun i =>
      let row := r.rowOf c.2.1 i
      let scores := if h.scoreSrc = 0 then row.1 else gateScores r.fmt h.elems h.experts gate row.2
      (rowAssigns h.weighted h.k scores).map fun x =>
        (x.2.1, { rank := c.1, row := i, expert := x.1, weight := BitVec.ofNat 32 x.2.2, slot := 0, back := false })

/-- Capacity and slots of one expert (R533, R534): the kept assignments with their slots. -/
def keepExpert (cap : Nat) (l : List (Nat × Assign)) : List Assign :=
  let best := (sortBy (fun (a b : Nat × Assign) => assignBefore (a.1, a.2.rank, a.2.row) (b.1, b.2.rank, b.2.row)) l).take cap
  let order := sortBy (fun (a b : Assign) => decide (a.rank < b.rank) || (decide (a.rank = b.rank) && decide (a.row < b.row)))
    (best.map (·.2))
  order.zipIdx.map fun p => { p.1 with slot := p.2 }

/-- The tag of a slot (R535). -/
def Assign.tag (a : Assign) : List Byte :=
  leBytes 4 (a.rank + 2 ^ 31) ++ leBytes 4 a.row ++ leBytes 2 a.expert ++ leBytes 2 a.slot ++ leBytes 4 a.weight.toNat

/-- A ROUTE packet of CKIND RESULT for a rank (R534, R540). -/
def routePkt (own : Nat) (k : CtxKey) (c : Ctx) (pt : BitVec 5) (func rank status dst : Nat) (sat : Bool) (fmt : Nat) (payload : List Byte) : Packet :=
  let p : Params := { pattern := 6, func := func, fmt := fmt, sat := sat, length := 0, fused := [] }
  { collPkt own k p c.part c.cls 2 5 status rank 0 0 payload (chunkDigest k p payload) with ptype := pt, dst := BitVec.ofNat 64 dst }

/-! ### Landing at a member -/

/-- The member of a rank whose work request of ROUTE function `func` runs for the packet's group and epoch. -/
def Dev.routeWork (s : Dev) (x : Ext) (func : Nat) : Option Work :=
  s.works.find? fun w => w.group == x.group && w.epoch == x.epoch && w.pattern == 6 && w.func == func && w.rank == x.rank.toNat

def Dev.infoOf (s : Dev) (g : BitVec 24) (ep : BitVec 16) (rank : Nat) : Option RouteInfo :=
  s.routeInfo.find? fun r => r.group == g && r.epoch == ep && r.rank == rank

/-- Acknowledge a rank's combined rows to the root (R539, R542). -/
def Dev.routeAck (s : Dev) (d : Nat) (x : Ext) (part cls : Nat) : Dev :=
  let k : CtxKey := ⟨x.group, x.epoch, x.chunk⟩
  match s.epochAny x.group x.epoch with
  | none => s
  | some e =>
    if e.entry.root then
      let s := s.updCtx k fun c => { c with route := c.route.map fun r => { r with acks := (r.acks ++ [x.rank.toNat]).eraseDups } }
      match s.ctx k with
      | some c => (match c.route with
        | some r => if (r.acks ++ r.lost).eraseDups.length ≥ e.entry.members then s.endCtx k else s
        | none => s)
      | none => s
    else
      let p : Params := { pattern := 6, func := 1, fmt := x.fmt.toNat, sat := x.sat, length := 0, fused := [] }
      s.sendAck d k p part cls 0 x.rank.toNat 1 [] e.parents

/-- A ROUTE packet of CKIND RESULT that has reached its destination here: a slot (R534, R536) or combined rows (R540). -/
def Dev.routeLand (s : Dev) (d : Nat) (pkt : Packet) (x : Ext) : Dev :=
  let k : CtxKey := ⟨x.group, x.epoch, x.chunk⟩
  let func := if pkt.ptype = ptDispatchRows then 0 else 1
  let p : Params := { pattern := 6, func := func, fmt := x.fmt.toNat, sat := x.sat, length := 0, fused := [] }
  match s.routeWork x func with
  | none => s
  | some w =>
    if pkt.trailer ≠ chunkDigest k p pkt.payload then s.chunkDone w x.chunk.toNat 0x0C 0
    else
      let data := if func = 0 then pkt.payload else denseRows x.fmt.toNat pkt.payload.length (pkt.payload.drop 8)
      let add := if func = 0 then 1 else leAt pkt.payload 4 4
      let need := if func = 0 then none else (s.infoOf x.group x.epoch w.rank).map (·.rows)
      match w.who with
      | .thread t =>
        let r := s.memWrite (.part (s.corePart (t / 16))) pkt.laddr data
        let s := r.1.routeStep w x.chunk.toNat add need (worse x.status.toNat (r.2.getD 0))
        if func = 1 ∧ (s.routeWork x 1).all (fun y => y.landed.contains x.chunk.toNat) then s.routeAck d x pkt.part.toNat pkt.cls.toNat else s
      | .adapter g q =>
        s.adpWrite (g * 256 + q) pkt.laddr data (s.adpTx x.chunk.toNat true x.status.toNat data.length add [])

/-- Send a ROUTE packet from the root; one for this device itself lands here. -/
def Dev.sendRoute (s : Dev) (d : Nat) (pkt : Packet) : Dev :=
  match s.form d pkt .table, pkt.ext with
  | (t, .own), some x => t.routeLand d pkt x
  | (t, _), _ => t

/-! ### DISPATCH at the root -/

/-- A slot packet of a chunk has not left yet. -/
def Dev.slotsLeft (s : Dev) (k : CtxKey) : Bool :=
  let isOf := fun (q : Packet) => q.ptype == ptDispatchRows && match q.ext with
    | some x => x.ckind == ckResult && (⟨x.group, x.epoch, x.chunk⟩ : CtxKey) == k
    | none => false
  (s.ports.any fun x => x.2.queue.any fun q => isOf q.pkt) || s.stalled.any fun w => isOf w.pkt

/-- The counts of a chunk go down the tree once its last slot packet has been sent (R536). -/
def Dev.sendCounts (s : Dev) (k : CtxKey) : Dev :=
  match s.ctx k with
  | none => s
  | some c =>
    if c.route.isNone ∨ c.phase ≠ .retained ∨ c.sent ∨ c.acked ∨ s.slotsLeft k then s
    else (s.updCtx k fun c => { c with retainedAt := s.ticks }).sendResult k

/-- Chunks whose slot packets have all left by now. -/
def Dev.sendAllCounts (s : Dev) : Dev := ((s.ctxs.filter fun c => c.route.isSome && !c.sent).map (·.key)).foldl Dev.sendCounts s

/-- Every rank has contributed or is lost: select, keep, send the slots and the counts (R532 to R536). -/
def Dev.dispatch (s : Dev) (k : CtxKey) (e : EpochSt) : Dev :=
  match s.ctx k with
  | none => s
  | some c =>
    match c.route with
    | none => s
    | some r =>
      if c.phase ≠ .open ∨ (r.contribs.map (·.1) ++ r.lost).eraseDups.length < e.entry.members then s
      else if r.rows = 0 then (s.releaseAll (r.contribs.map (·.2.2))).failCtx k 1
      else
        let h := r.hdr
        let mapR := s.memRead (.part c.part) h.map (16 * e.entry.members)
        let gateR := if h.scoreSrc = 1 then mapR.1.memRead (.part c.part) h.gate (h.elems * h.experts * elemBytes r.fmt)
          else (mapR.1, some 0, [])
        let s := gateR.1
        if mapR.2.1 ≠ some 0 ∨ gateR.2.1 ≠ some 0 then
          (s.releaseAll (r.contribs.map (·.2.2))).failCtx k (worse (mapR.2.1.getD 8) (gateR.2.1.getD 8))
        else
          let all := r.select gateR.2.2
          let kept := (List.range h.experts).map fun x => keepExpert h.cap (all.filter fun a => a.2.expert == x)
          let n := natSum (kept.map List.length)
          let s := s.addLv (corePg c.home + 0x810) 63 0 (all.length - n)
          let counts := kept.flatMap fun l => leBytes 2 l.length
          let st := if r.lost.isEmpty then 0 else 3
          let p : Params := { c.par with pattern := 6, func := 0 }
          let s := s.updCtx k fun c =>
            { c with result := counts, status := st, digest := chunkDigest k p counts, form := 0,
                     route := some { r with assigns := kept.flatten, combining := true,
                                            recs := List.replicate (e.entry.members * r.rows * h.elems) Rec.zero } }
          let win := k.chunk.toNat % max 1 h.window
          let s := kept.flatten.foldl (fun t a =>
            match r.data a.rank with
            | none => t
            | some l =>
              let rank := a.expert / h.perRank
              let j := a.expert % h.perRank
              let base := leAt mapR.2.2 (16 * rank) 8
              let dst := base + ((win * h.perRank + j) * h.cap + a.slot) * h.slotBytes r.fmt
              t.sendRoute c.die (routePkt t.own k c ptDispatchRows 0 rank 0 dst r.sat r.fmt
                (a.tag ++ encodeRow r.fmt (r.rowOf l a.row).2))) s
          (s.updCtx k fun c => { c with phase := .retained, retainedAt := s.ticks }).sendCounts k

/-- A DISPATCH contribution at the root (R528, R529, R530, R539). -/
def Dev.dispatchIn (s : Dev) (d : Nat) (inp : Input) (x : Ext) (k : CtxKey) (e : EpochSt) : Dev × Taken :=
  let l := inp.pkt.payload
  let hb := l.take 32
  let h := RouteHdr.read hb
  let rows := if l.isEmpty then 0 else (l.length - 32) / h.inRow x.fmt.toNat
  let rank := x.rank.toNat
  let p : Params := { pattern := 6, func := 0, fmt := x.fmt.toNat, sat := x.sat, length := l.length, fused := hb }
  let add := fun (t : Dev) =>
    let put := fun (r : Route) => { r with contribs := r.contribs ++ [(rank, l, inp.alloc)] }
    (t.updCtx k fun c => { c with fixed := true, route := c.route.map put }).dispatch k e
  match s.ctx k with
  | some c =>
    match c.route with
    | some r =>
      if c.phase ≠ .open ∨ r.contribs.any (·.1 == rank) ∨ r.lost.contains rank then (s.dup c.die inp.alloc, .yes)
      else if c.params ≠ some p then ((s.releaseAll (inp.alloc :: r.contribs.map (·.2.2))).failCtx k 8, .yes)
      else (add s, .yes)
    | none => (s.dup c.die inp.alloc, .yes)
  | none =>
    match homeOf e.cores e.entry.salt k with
    | none => ((s.release inp.alloc).failChunk d k e p inp.pkt.cls.toNat 2, .yes)
    | some home =>
      if (l.isEmpty = false ∧ !h.ok hb x.fmt.toNat e.entry.members l.length) ∨ epochBad e ∨ rank ≥ e.entry.members then
        ((s.release inp.alloc).failChunk d k e p inp.pkt.cls.toNat 8, .yes)
      else
        let r := s.ctxRoom (home / 64)
        if !r.2 then (r.1, .refused (home / 8))
        else
          let bytes := routeBytes h e.entry.members rows
          let o := if bytes = 0 then (r.1, Opened.at .none) else r.1.spillOpen (home / 64) e.entry.part bytes
          match o with
          | (t, .refused) => (t, .refused (home / 8))
          | (t, .at pl) =>
            let route : Route := { header := hb, fmt := x.fmt.toNat, sat := x.sat, rows := rows, contribs := [], lost := e.lostRanks,
                                   acks := [], assigns := [], recs := [], combining := false, sent := false }
            let c := { t.newCtx k e home pl (some p) inp.pkt.cls.toNat with route := some route }
            (add { t with ctxs := t.ctxs ++ [c] }, .yes)

/-! ### COMBINE at the root -/

/-- The combine is complete: every kept assignment returned, or its expert's rank lost (R540). -/
def Route.combined (r : Route) : Bool :=
  r.combining && !r.sent && r.assigns.all fun a => a.back || r.lost.contains (a.expert / max 1 r.hdr.perRank)

/-- One returned row enters the records as exact products (R500, R538). -/
def Dev.combineRow (s : Dev) (k : CtxKey) (fl : Bool) (l : List Byte) : Dev :=
  match s.ctx k with
  | none => s
  | some c =>
    match c.route with
    | none => s
    | some r =>
      let h := r.hdr
      let rd := readRow r.fmt (rowTiles h.elems) h.elems (l.drop 16)
      let drop := fun (t : Dev) (n off : Nat) =>
        (t.addLv (corePg c.home + off) 63 0 n).updCtx k fun c => { c with dropped := true }
      if rd.bad then s.failCtx k 8
      else if l.length < 16 ∨ rd.whole ∨ !rd.rest.isEmpty then drop s 1 0x808
      else
        let rank := leAt l 0 4 % 2 ^ 20
        let isIt := fun (a : Assign) => a.rank == rank && a.row == leAt l 4 4 && a.expert == leAt l 8 2 && a.slot == leAt l 10 2
        match r.assigns.find? isIt with
        | none => drop s 1 0x800
        | some a =>
          if a.back then s.count (colPg c.die + 0x120)
          else
            let at_ := (a.rank * r.rows + a.row) * h.elems
            let enter := fun (rec : Rec) (vs : List Nat) => vs.foldl (fun q v =>
              q.step prodFmt 1 ((ff32.dec false a.weight.toNat).mul (decElem r.fmt fl v))) rec
            let mid := (rd.vals.zipIdx).map fun v => enter (r.recs.getD (at_ + v.2) Rec.zero) v.1
            let recs := r.recs.take at_ ++ mid ++ r.recs.drop (at_ + mid.length)
            let s := if rd.drops = 0 then s else drop s rd.drops 0x800
            let got := updWhere isIt (fun (a : Assign) => { a with back := true }) r.assigns
            s.updCtx k fun c => { c with route := some { r with recs := recs, assigns := got } }

/-- A COMBINE contribution at the root waits for the next pass (R539). -/
def Dev.combineIn (s : Dev) (d : Nat) (inp : Input) (k : CtxKey) : Dev :=
  match s.ctx k with
  | none => s.dup d inp.alloc
  | some c =>
    if (match c.route with | some r => r.combining && !r.sent | none => false) && c.phase == .retained then
      s.updCtx k fun c => { c with passQ := c.passQ ++ [inp] }
    else s.dup c.die inp.alloc

/-- The combine of a context may be complete: its rows are then to be rounded (R540). -/
def Dev.routeDone (s : Dev) (k : CtxKey) : Dev :=
  match s.ctx k with
  | some c =>
    if (match c.route with | some r => r.combined | none => false) && c.phase == .retained && c.passQ.isEmpty then
      s.updCtx k fun c => { c with phase := .complete }
    else s
  | none => s

/-- Apply the returned rows of a pass (R539, R540, R654). -/
def Dev.routePass (s : Dev) (k : CtxKey) (e : EpochSt) : Dev :=
  match s.ctx k with
  | none => s
  | some c =>
    let s := s.updCtx k fun c => { c with passQ := [] }
    (c.passQ.foldl (fun t i => (t.combineRow k e.cfg.flushIn i.pkt.payload).release i.alloc) s).routeDone k

/-- A rank of a ROUTE group is lost (R541). Rows that it has contributed stay, as R431 keeps a confirmed input (DEDUCED, log 133). -/
def Dev.routeLose (s : Dev) (k : CtxKey) (e : EpochSt) (rank : Nat) : Dev :=
  let put := fun (r : Route) => { r with lost := (r.lost ++ [rank]).eraseDups }
  let s := s.updCtx k fun c => { c with lostFlag := true, route := c.route.map put }
  (s.dispatch k e).routeDone k

/-- Round and send the combined rows (R538, R540, R541). -/
def Dev.combineResult (s : Dev) (k : CtxKey) (e : EpochSt) : Dev :=
  match s.ctx k with
  | none => s
  | some c =>
    match c.route with
    | none => s
    | some r =>
      let h := r.hdr
      let status := worse (if r.lost.isEmpty then 0 else 3) (if c.dropped then 6 else 0)
      let mapR := s.memRead (.part c.part) h.map (16 * e.entry.members)
      -- a rank map that cannot be read says no place for the rows
      if mapR.2.1 ≠ some 0 then
        (mapR.1.updCtx k fun c => { c with params := some { c.par with pattern := 6, func := 1 } }).failCtx k (mapR.2.1.getD 8)
      else
      let s := mapR.1.updCtx k fun c => { c with phase := .retained, retainedAt := mapR.1.ticks, acked := true,
                                                 route := c.route.map fun r => { r with sent := true } }
      let win := k.chunk.toNat % max 1 h.window
      let a := e.cfg
      let rowOut := fun (rank i : Nat) =>
        if r.assigns.any fun x => x.rank == rank && x.row == i && x.back then
          let base := (rank * r.rows + i) * h.elems
          ((r.recs.drop base).take h.elems).zipIdx.map fun q =>
            roundFrom prodFmt r.fmt r.sat a (a.mode (keyWord k) k.chunk.toNat (base + q.2)) q.1
        else List.replicate h.elems 0
      let per := max 1 ((4096 - 8) / (h.rowBytes r.fmt + 2 * rowTiles h.elems))
      ((List.range e.entry.members).filter fun rank => !r.lost.contains rank).foldl (fun t rank =>
        (List.range (ceilDiv r.rows per)).foldl (fun t j =>
          let first := j * per
          let n := min per (r.rows - first)
          let dst := leAt mapR.2.2 (16 * rank + 8) 8 + (win * r.rows + first) * h.rowBytes r.fmt
          let body := (List.range n).flatMap fun i => encodeRow r.fmt (rowOut rank (first + i))
          t.sendRoute c.die (routePkt t.own k c ptCombineRows 1 rank status dst r.sat r.fmt (leBytes 4 first ++ leBytes 4 n ++ body))) t) s

/-! ### What a member sends for its chunks -/

/-- Take in a ROUTE contribution at the root, with the port it entered by (512 for a member's here) and its cells (R530, R364). -/
def Dev.routeHere (s : Dev) (d : Nat) (pkt : Packet) (x : Ext) (e : EpochSt) (port alloc : Nat) : Dev :=
  let k : CtxKey := ⟨x.group, x.epoch, x.chunk⟩
  let inp : Input := { port := port, sop := 0, pkt := pkt, src := none, key := some k, data := [], spec := 0, wait := false,
                       passed := true, alloc := alloc, tick := s.ticks }
  if pkt.ptype = ptDispatchRows then
    match s.dispatchIn d inp x k e with
    | (t, .yes) => t
    | (t, .refused cl) => t.park d cl inp t.ticks
  else s.combineIn d inp k

/-- Tell the root of a lost rank of a chunk, once (R541). -/
def Dev.tellLost (s : Dev) (d : Nat) (g : BitVec 24) (ep : BitVec 16) (chunk : BitVec 32) (fmt rank : Nat) : Dev :=
  match s.epochOf g ep with
  | none => s
  | some e =>
    if e.told.contains (chunk, rank) then s
    else
      (s.setEpoch g { e with told := e.told ++ [(chunk, rank)] }).sendAck d ⟨g, ep, chunk⟩
        { Params.none with pattern := 6, fmt := fmt } e.entry.part 0 3 rank 0 [] e.parents

/-- A DISPATCH contribution has gone up from a device that is not the root: its chunk is known here, and so the root is told of the
ranks of the member slots that are lost (R541). -/
def Dev.routeSeen (s : Dev) (d : Nat) (pkt : Packet) (x : Ext) : Dev :=
  match s.epochOf x.group x.epoch with
  | none => s
  | some e =>
    if pkt.ptype ≠ ptDispatchRows ∨ x.ckind ≠ ckContribution then s
    else
      let s := if e.seen.contains x.chunk then s else s.setEpoch x.group { e with seen := e.seen ++ [x.chunk] }
      e.lostRanks.foldl (fun t r => t.tellLost d x.group x.epoch x.chunk x.fmt.toNat r) s

/-- Send a member's ROUTE contribution up, or take it in at the root once it has its cells (R342, R530). -/
def Dev.routeUp (s : Dev) (d : Nat) (pkt : Packet) (x : Ext) (e : EpochSt) : Dev :=
  if e.entry.root then
    (s.withFormed d pkt (.inside none) none true fun t id => t.routeHere d { pkt with itag := t.tagNow } x e 512 id).1
  else ((s.form d pkt (.parents e.parents)).1).routeSeen d pkt x

/-- A chunk's source bytes have been read: send the contribution or request (R232, R518, R528, R584). -/
def Dev.memberSend (s : Dev) (d slot : Nat) (x : Work) (c : Nat) (data : List Byte) (part cls : Nat) : Dev :=
  let k : CtxKey := ⟨x.group, x.epoch, BitVec.ofNat 32 c⟩
  let p : Params := { pattern := x.pattern, func := x.func, fmt := x.fmt, sat := x.sat, length := 0, fused := [] }
  match x.pattern with
  | 5 =>
    let n := leAt data 12 4
    if n > x.length ∨ data.length < 16 then s.chunkDone x c 8 0
    else
      let base := collPkt s.own k p part cls 0 4 0 x.rank 0 0 (data.take n) []
      let pkt := { base with ptype := ptTableReq, dst := BitVec.ofNat 64 (leAt data 0 8) }
      let y := { x with reqs := x.reqs.filter (·.1 != c) ++ [(c, leAt data 8 4)] }
      let s := s.updWork x fun _ => y
      match s.form d pkt .table with
      | (t, .own) =>
        let r := t.tableReq d (d * 128) { pkt with itag := t.tagNow } .clean
        (match r.2 with | some a => r.1.tableResp a | none => r.1)
      | (t, _) => t
  | 6 =>
    match s.admitEpoch d s.active x.group x.epoch with
    | (s, none) => s
    | (s, some e) =>
      let h := RouteHdr.read (data.take 32)
      let info : RouteInfo := { group := x.group, epoch := x.epoch, rank := x.rank, header := data.take 32, fmt := x.fmt,
                                rows := (data.length - 32) / max 1 (h.inRow x.fmt), counts := [] }
      let s := if (s.infoOf x.group x.epoch x.rank).isSome then s else { s with routeInfo := s.routeInfo ++ [info] }
      let pkt := { collPkt s.own k p part cls 0 5 0 x.rank 0 0 data [] with ptype := ptDispatchRows, itag := s.tagNow }
      match pkt.ext with
      | some y => s.routeUp d pkt y e
      | none => s
  | _ => s.offerMember d slot x c part cls data

/-- Addresses of the slots that a COMBINE work request returns for a chunk (R537). -/
def combineSlots (r : RouteInfo) (x : Work) (c : Nat) : List Nat :=
  let h := RouteHdr.read r.header
  let ms := ((r.counts.find? (·.1 == c)).map (·.2)).getD []
  let win := c % max 1 h.window
  (List.range h.perRank).flatMap fun j =>
    (List.range (ms.getD (x.rank * h.perRank + j) 0)).map fun q =>
      x.localA.toNat + ((win * h.perRank + j) * h.cap + q) * h.slotBytes r.fmt

/-- Bytes of the tag and tiles in a slot. -/
def slotUsed (fmt elems : Nat) (l : List Byte) : List Byte :=
  let r := readRow fmt (rowTiles elems) elems (l.drop 16)
  l.take (l.length - r.rest.length)

/-- Return one output row (R537). -/
def Dev.combineSend (s : Dev) (d : Nat) (x : Work) (c : Nat) (r : RouteInfo) (slot : List Byte) (part cls : Nat) : Dev :=
  let k : CtxKey := ⟨x.group, x.epoch, BitVec.ofNat 32 c⟩
  let p : Params := { pattern := 6, func := 1, fmt := r.fmt, sat := x.sat, length := 0, fused := [] }
  match s.epochAny x.group x.epoch with
  | none => s
  | some e =>
    let data := slotUsed r.fmt (RouteHdr.read r.header).elems slot
    let pkt := { collPkt s.own k p part cls 0 5 0 x.rank 0 0 data [] with ptype := ptCombineRows, itag := s.tagNow }
    match pkt.ext with
    | some y => s.routeUp d pkt y e
    | none => s

/-- Sources of a thread's chunk, at any node (R552, R584); a chunk whose source cannot be read is done with
that status. -/
def Dev.threadChunk (s : Dev) (d slot t : Nat) (x : Work) (c : Nat) : Dev :=
  let part := s.corePart (t / 16)
  let cls := s.coreClass (t / 16)
  if x.pattern = 6 ∧ x.func = 1 then
    match s.infoOf x.group x.epoch x.rank with
    | none => s.chunkDone x c 8 0
    | some r =>
      let h := RouteHdr.read r.header
      (combineSlots r x c).foldl (fun u a =>
        if a / 2 ^ 44 ≠ u.own then u.remoteSend t true a (readLen (h.slotBytes r.fmt)) (.rows slot c) x.wrId
        else
          match u.memRead (.part part) (a % 2 ^ 44) (h.slotBytes r.fmt) with
          | (u, some 0, l) => u.combineSend d x c r l part cls
          | (u, st, _) => u.chunkDone x c (st.getD 0x0B) 0) s
  else if x.length = 0 then s.memberSend d slot x c [] part cls
  else if (x.localA.toNat + (c - x.first.toNat) * x.length) / 2 ^ 44 ≠ s.own then
    s.remoteSend t true (x.localA.toNat + (c - x.first.toNat) * x.length) (readLen x.length) (.source slot c) x.wrId
  else
    match s.memRead (.part part) ((x.localA.toNat + (c - x.first.toNat) * x.length) % 2 ^ 44) x.length with
    | (u, some 0, l) => u.memberSend d slot x c l part cls
    | (u, st, _) => u.chunkDone x c (st.getD 0x0B) 0

/-- Lost member slots of ROUTE chunks tell the root (R541). -/
def Dev.routeSlotLost (s : Dev) (d : Nat) (g : BitVec 24) (e : EpochSt) (rank : Nat) : Dev :=
  if e.entry.root then
    ((s.ctxs.filter fun c => c.key.group == g && c.key.epoch == e.epoch && c.route.isSome).map (·.key)).foldl
      (fun t k => t.routeLose k e rank) s
  else
    let w := s.works.find? fun w => w.group == g && w.epoch == e.epoch && w.pattern == 6 && w.rank == rank
    let mine := match w with | some w => (w.missing (some e)).map (BitVec.ofNat 32) | none => []
    let fmt := match w with | some w => w.fmt | none => 3
    (e.seen ++ mine).eraseDups.foldl (fun t c => t.tellLost d g e.epoch c fmt rank) s

/-- A group reset in full: the table requests and gathers in service and the route state of the group go too (R439). -/
def Dev.groupResetAll (s : Dev) (g : BitVec 24) : Dev :=
  let held := (s.ctxs.filter fun c => c.key.group == g).flatMap fun c => match c.route with | some r => r.contribs.map (·.2.2) | none => []
  let s := (s.releaseAll held).loseTable (·.group == g)
  let waits := s.gathers.filter (·.key.group == g)
  let s := { s with gathers := s.gathers.filter (·.key.group != g), routeInfo := s.routeInfo.filter (·.group != g) }
  let s := waits.foldl (fun t w =>
    match w.pkt.ext with
    | some x => Dev.takeAnswer (t.answerTable (w.port / 128 % 4) (tableAnswer t.own w.pkt x 5 []))
    | none => t) s
  s.groupReset g

/-- A contribution of a member here has been given its cells after a wait: it goes on to its context (R342, R361). -/
def Dev.insideIn (s : Dev) (w : Stalled) (slot : Option Nat) (alloc : Nat) : Dev :=
  match slot, w.pkt.ext with
  | some i, _ => s.offerInside w.die i w.pkt alloc
  | none, some x =>
    let pkt := { w.pkt with itag := s.tagNow }
    (match s.admitEpoch w.die s.active x.group x.epoch with
    | (t, none) => t.release alloc
    | (t, some e) => t.routeHere w.die pkt x e 512 alloc)
  | none, none => s.release alloc

/-- The first waiting contribution for this device that the pool manager serves now, none of its unit waiting before it: with the
device that has its cells. -/
def Dev.insideReady (s : Dev) : List Stalled → List Stalled → Option (Dev × Stalled × Option Nat × Nat)
  | _, [] => none
  | before, w :: rest =>
    let next := s.insideReady (before ++ [w]) rest
    match w.via with
    | .inside slot =>
      if before.any fun y => y.die == w.die && y.pkt.part == w.pkt.part then next
      else
        match s.formCells w.die none true w.pkt with
        | (t, .got id) => some (t, w, slot, id)
        | _ => next
    | _ => next

/-- Contributions for this device that have waited for cells go on, `n` at most. -/
def Dev.retryInside (s : Dev) (n : Nat) : Dev :=
  match n with
  | 0 => s
  | n + 1 =>
    match s.insideReady [] s.stalled with
    | none => s
    | some (t, w, slot, id) => (({ t with stalled := t.stalled.erase w } : Dev).insideIn w slot id).retryInside n

/-- Release barriers that have ended with a status of their own (R404, R413). -/
def Dev.failedReleases (s : Dev) : Dev :=
  ((s.ctxs.filter fun c => c.phase == .retained && c.acked && isBarrier c.par.pattern c.par.func && c.key.chunk == releaseChunk
      && (s.epochOf c.key.group c.key.epoch).isSome).map (·.key)).foldl (fun t k => t.epochReleased k.group k.epoch) s

/-- Root barriers in BEAT mode that are complete release at once (R168). -/
def Dev.beatBarriers (s : Dev) : Dev :=
  let s := s.failedReleases
  ((s.ctxs.filter fun c => c.phase == .complete && isBarrier c.par.pattern c.par.func && c.key.chunk == releaseChunk).map (·.key)).foldl
    (fun t k =>
      match t.epochAny k.group k.epoch with
      | some e => if e.entry.relBeat then t.rootResult k else t
      | none => t) s

end Sys2Proof.Machine
end

