-- ==== Sys2Proof/Machine/Threads.lean ====
section
/-! DEFINITION. Threads of the cores (chapter 11): steps and pending writes (R564 to R568), the issue of slots (R555 to R559),
completion (R569 to R573, R602), synchronization objects and waits (R587 to R596), starting and stopping (R547 to R549,
R597 to R599), and descriptors (R575 to R582). -/

namespace Sys2Proof.Machine

/-! ### Thread states (R547, R607) -/

def tsIdle : Nat := 0
def tsPending : Nat := 1
def tsRunning : Nat := 2
def tsWaiting : Nat := 3
def tsFaulted : Nat := 4

def threadUp (s : Dev) (t : Nat) : Bool := s.coreUp (t / 16) && !(s.core (t / 16)).inReset

/-! ### Registers -/

def Thread.pred (x : Thread) (i : Nat) : Bool := x.preds.getD i false
def Thread.ctr (x : Thread) (i : Nat) : Word := x.ctrs.getD i 0
def Thread.cmp (x : Thread) (k : Nat) : Cmp := x.cmps.getD k { a := 0, rel := 0, b := 0, imm := 0, target := 0 }
def Thread.vreg (x : Thread) (i : Nat) : BitVec 2048 := x.vregs.getD i 0

/-- A register as R568 tells them apart. -/
inductive RegId where
  | ctr (i : Nat)
  | cmp (k : Nat)
  | pred (i : Nat)
  | vl
  | vreg (i : Nat)
  deriving DecidableEq, Repr

/-- The register that a write changes. -/
def WriteTo.reg : WriteTo → Option RegId
  | .counter i _ => some (.ctr i)
  | .cmp k _ _ _ _ _ => some (.cmp k)
  | .pred i _ => some (.pred i)
  | .vl _ => some .vl
  | .vreg i _ _ => some (.vreg i)
  | .mem _ _ | .pc _ | .inc _ => none

/-- A write takes effect. A vector register keeps the bits outside the mask (R582). -/
def Thread.apply (x : Thread) : WriteTo → Thread
  | .counter i v => { x with ctrs := x.ctrs.set i v }
  | .cmp k a rel b imm target => { x with cmps := x.cmps.set k { a := a, rel := rel, b := b, imm := imm, target := target } }
  | .pred i v => if i = 0 then x else { x with preds := x.preds.set i v }
  | .vl v => { x with vl := v }
  | .vreg i mask v => { x with vregs := x.vregs.set i ((x.vreg i &&& ~~~mask) ||| (v &&& mask)) }
  | .pc v => { x with pc := v }
  | .inc i => { x with ctrs := x.ctrs.set i (x.ctr i + 1) }
  | .mem _ _ => x

/-- A write issued now that becomes visible `lat` steps on. -/
def Thread.post (x : Thread) (lat : Nat) (w : WriteTo) : Thread :=
  { x with pend := x.pend ++ [{ vis := x.step + lat, order := x.order, w := w }], order := x.order + 1 }

/-- The writes that act at step `n`, in the order of R565 and R570. -/
def Thread.due (x : Thread) (n : Nat) : List PendWrite :=
  let l := x.pend.filter fun w => decide (w.vis ≤ n)
  let isInc := fun (w : PendWrite) => match w.w with | .inc _ => true | _ => false
  l.filter (fun w => !isInc w) ++ l.filter isInc

/-- The stores of a step, in order. -/
def storesOf (l : List PendWrite) : List (Nat × List Byte) :=
  l.filterMap fun w => match w.w with | .mem a b => some (a, b) | _ => none

/-- The thread takes a step of a word `len` bytes long (R550, R565). -/
def Thread.stepped (x : Thread) (len : Nat) : Thread :=
  let n := x.step + 1
  let y := { x with pc := x.pc + BitVec.ofNat 44 len, step := n, mid := false, pend := x.pend.filter fun w => decide (n < w.vis) }
  (x.due n).foldl (fun z w => z.apply w.w) y

def Dev.stepThread (s : Dev) (t len : Nat) : Dev :=
  let x := s.thread t
  let s := (storesOf (x.due (x.step + 1))).foldl (fun u w => u.poke w.1 w.2) s
  (s.hbmBytes x.pc.toNat len 0x130).setThread t (x.stepped len)

/-! ### Status of an operation (R572, R602, R607) -/

/-- Count a slot's status (R582, R600, R602). -/
def Dev.countSlot (s : Dev) (t status : Nat) : Dev :=
  match status with
  | 1 => s.count (corePg (t / 16) + 0x108)
  | 2 => s.count (corePg (t / 16) + 0x110)
  | 8 => s.count (corePg (t / 16) + 0x118)
  | 9 => s.count (corePg (t / 16) + 0x128)
  | _ => s

/-- LAST, and the completion entry of a status other than OK and NULL. -/
def Dev.finishOp (s : Dev) (t status : Nat) (wrId : BitVec 32) : Dev :=
  if status = 0 then s
  else
    let s := s.updThread t fun x => { x with last := status }
    if status = 1 then s else s.owe t status 0 wrId.toNat 0

/-- A slot operation that is not asynchronous completes. A vector operation writes no entry (R624). -/
def Dev.slotStatus (s : Dev) (t status : Nat) (entry : Bool) : Dev :=
  let s := s.countSlot t status
  if entry then s.finishOp t status (BitVec.ofNat 32 (s.thread t).word.toNat)
  else if status = 0 then s else s.updThread t fun x => { x with last := status }

/-- The stores that a stopping thread has issued take effect; no later step of it could show them. -/
def Dev.drain (s : Dev) (t : Nat) : Dev :=
  let x := s.thread t
  let s := (storesOf x.pend).foldl (fun u w => u.poke w.1 w.2) s
  s.setThread t { x with pend := [] }

/-- The thread stops by a fault (R549). -/
def Dev.faultThread (s : Dev) (t reason : Nat) : Dev :=
  (s.drain t).updThread t fun x => { x with state := tsFaulted, reason := reason, wait := none, launchAt := none, mid := false, syncing := false }

/-! ### Issuing slots -/

/-- The PC lies in the core's own working SRAM or in HBM (R551). -/
def pcOk (c pc : Nat) : Bool := decide (pc < 2 ^ 41) || (decide (wsramBase c ≤ pc) && decide (pc < wsramBase c + 0x200000))

/-- The thread can issue. -/
def Dev.canIssue (s : Dev) (t : Nat) : Bool :=
  let x := s.thread t
  threadUp s t && x.state == tsRunning && !x.syncing && !s.fatal

/-- A slot that reads `rs` and writes `ws` after `lat` steps meets a pending write of an earlier word (R568). -/
def Thread.hazard (x : Thread) (rs ws : List RegId) (lat : Nat) : Bool :=
  x.pend.any fun w =>
    match w.w.reg with
    | none => false
    | some r => decide (w.order < x.mark) && ((rs.contains r && decide (w.vis > x.step)) || (ws.contains r && decide (w.vis > x.step + lat)))

/-- The wait of a thread ends. -/
def Dev.endWait (s : Dev) (t : Nat) (ok : Bool) : Dev :=
  let x := s.thread t
  match x.wait with
  | none => s
  | some w =>
    let y := { x with wait := none, state := tsRunning }
    s.setThread t (if w.p = 0 then y else y.post 1 (.pred w.p ok))

/-- A thread's WAITCNT ends once its counter reaches the bound (R561, R571). -/
def Dev.serveCnt (s : Dev) (t : Nat) : Dev :=
  let x := s.thread t
  match x.wait with
  | some w =>
    match w.on with
    | .cnt c bound => if (x.ctr c).toInt ≥ bound then s.endWait t true else s
    | _ => s
  | none => s

/-- The last slot of a word ends it. -/
def Dev.endSlot (s : Dev) (sc : SlotCtx) : Dev :=
  let t := sc.thread.val
  if sc.last then
    let s := s.stepThread t (2 + 8 * sc.slots.val)
    if (s.thread t).state = tsIdle then s.drain t else s.serveCnt t
  else s

/-- Begin a word of `len` bytes at the thread's PC, or fault on the PC (R551), on a denied fetch (R659), or on one that cannot have its
word: a burst known to be bad (R666), or memory out of service, for which the spec names no reason (DESIGN CHOICE, log 136). -/
def Dev.beginWord (s : Dev) (t len : Nat) : Dev × Bool :=
  let x := s.thread t
  if x.mid then (s, true)
  else if pcOk (t / 16) x.pc.toNat then
    match s.verdict (.part (s.corePart (t / 16))) false x.pc.toNat len with
    | .denyCore c => ((s.countVerdict (.denyCore c)).faultThread t 3, false)
    | .denyStack st => ((s.countVerdict (.denyStack st)).faultThread t 3, false)
    | .fenced st => ((s.countVerdict (.fenced st)).faultThread t 6, false)
    | .notReady => (s.faultThread t 6, false)
    | _ =>
      match s.badBurst x.pc.toNat len with
      | some b => ((s.metBad b).faultThread t 6, false)
      | none => (s.setThread t { x with word := x.pc, mid := true, mark := x.order }, true)
  else (s.faultThread t 3, false)

/-- The thread faults with REASON LATENCY: no register or store that the word's earlier slots have issued is written (R568). -/
def Dev.latencyFault (s : Dev) (t : Nat) : Dev :=
  let s := s.updThread t fun x => { x with pend := x.pend.filter fun w => decide (w.order < x.mark) }
  (s.count (corePg (t / 16) + 0x120)).faultThread t 4

/-- Issue a slot: its guard (R559), the latency check (R568), its effect, and the end of the word. `full` says that the slot
would stall (R569). -/
def Dev.slot (s : Dev) (sc : SlotCtx) (rs ws : List RegId) (lat : Nat) (full : Bool) (f : Dev → Nat → Dev) : Dev :=
  let t := sc.thread.val
  if !s.canIssue t then s
  else
    let b := s.beginWord t (2 + 8 * sc.slots.val)
    if !b.2 then b.1
    else
      let x := b.1.thread t
      let on := xor (x.pred sc.pred.val) sc.neg
      let check := s.cfg (corePg (t / 16) + 0x1000) 8 8 == 1
      let guard := if sc.pred.val = 0 then [] else [RegId.pred sc.pred.val]
      if check && x.hazard (if on then guard ++ rs else guard) (if on then ws else []) lat then
        b.1.latencyFault t
      else if !on then b.1.endSlot sc
      else if full then s
      else (f b.1 t).endSlot sc

/-- A slot operation that only writes registers of its thread. -/
def Dev.regSlot (s : Dev) (sc : SlotCtx) (rs ws : List RegId) (lat : Nat) (f : Thread → List WriteTo) : Dev :=
  s.slot sc rs ws lat false fun s t => s.updThread t fun x => (f x).foldl (fun y w => y.post lat w) x

/-! ### Asynchronous queues (R569, R570) -/

def queueIndex : AsyncQ → Nat
  | .reduction => 0
  | .tile => 1
  | .sparse => 2
  | .sort => 3
  | .move => 4

def CoreSt.queue (c : CoreSt) (q : AsyncQ) : List AsyncOp := c.queues.getD (queueIndex q) []
def CoreSt.setQueue (c : CoreSt) (q : AsyncQ) (l : List AsyncOp) : CoreSt := { c with queues := c.queues.set (queueIndex q) l }

def Dev.queueFull (s : Dev) (t : Nat) (q : AsyncQ) : Bool := decide (((s.core (t / 16)).queue q).length ≥ 16)

/-- Queue an operation of a thread, counting the status it has already met. -/
def Dev.enqueueOp (s : Dev) (t : Nat) (q : AsyncQ) (cnt status : Nat) (wrId : BitVec 32) (coll : Bool) (remote : List Nat) : Dev :=
  let s := s.countSlot t status
  let op : AsyncOp := { thread := t, cnt := cnt, status := status, wrId := wrId, coll := coll, owed := false, remote := remote }
  let s := s.updCore (t / 16) fun c => c.setQueue q (c.queue q ++ [op])
  s.updThread t fun x => { x with outstanding := x.outstanding + 1 }

/-- WR_ID of an operation that is no COLL (R572). -/
def Dev.wordId (s : Dev) (t : Nat) : BitVec 32 := BitVec.ofNat 32 (s.thread t).word.toNat

/-- Entries a thread's completion queue holds and has room for. -/
def Dev.tcqIdx (s : Dev) (t : Nat) : Nat × Nat :=
  let a := corePg (t / 16) + 0x218 + 0x20 * (t % 16)
  (s.lv a 63 32, s.lv a 31 0)
def Dev.tcqRoom (s : Dev) (t : Nat) : Bool :=
  let l := s.tcqLog t
  l == 0 || decide ((((s.tcqIdx t).1 + 2 ^ 32 - (s.tcqIdx t).2) % 2 ^ 32) < 2 ^ l)

/-- Entries wait for room in the thread's queue. -/
def Dev.tcqOwing (s : Dev) (t : Nat) : Bool := (s.core (t / 16)).cqWait.any (·.1 == t)

/-- Add one to a counter, visible from the thread's next step (R570). -/
def Thread.bump (x : Thread) (i : Nat) : Thread := if x.mid then x.post 1 (.inc i) else x.apply (.inc i)

/-! ### Waits (R592 to R596) -/

/-- A wait that ends without its condition: TIMEOUT (R594 to R596). -/
def Dev.timeoutWait (s : Dev) (t : Nat) (counted : Bool) : Dev :=
  let s := s.endWait t false
  (if counted then s.countSlot t 9 else s).finishOp t 9 (BitVec.ofNat 32 (s.thread t).word.toNat)

/-- The home core of an object, its index there, and its configuration (R587, R609). -/
def objCore (o : Nat) : Nat := o / 256
def Dev.objCfg (s : Dev) (o : Nat) : Word := RegFile.get s.active (corePg (objCore o) + 0xC000 + 8 * (o % 256))
def objValid (w : Word) : Bool := flag w 63 && decide (fld w 59 58 ≠ 3)
def objKind (w : Word) : Nat := fld w 59 58
def objPart (w : Word) : Nat := fld w 57 54
def objTarget (w : Word) : Nat := max 1 (fld w 31 0)
/-- VALUE and GEN of an object. -/
def Dev.obj (s : Dev) (o : Nat) : BitVec 32 × BitVec 32 := Map.get (s.core (objCore o)).objs (o % 256) (0, 0)
def Dev.setObj (s : Dev) (o : Nat) (v : BitVec 32 × BitVec 32) : Dev :=
  s.updCore (objCore o) fun c => { c with objs := Map.put c.objs (o % 256) v (0, 0) }

/-- A wait's condition on its object holds (R592). -/
def waitMet (v : BitVec 32 × BitVec 32) (mode bound gen : Nat) : Bool :=
  if mode = 2 then v.2.toNat != gen else decide (v.1.toNat ≥ bound)

/-- Threads that wait on an object, in the order of R593. -/
def Dev.waitersOf (s : Dev) (o : Nat) : List Nat :=
  let l := s.threads.filterMap fun p =>
    match p.2.wait with
    | some w => (match w.on with | .obj o' _ _ _ => if o' = o then some (w.start, p.1) else none | _ => none)
    | none => none
  (sortBy (fun (a b : Nat × Nat) => decide (a.1 < b.1)) l).map (·.2)

/-- Serve the waits on an object (R592, R593). -/
def Dev.serveObj (s : Dev) (o : Nat) : Dev :=
  (s.waitersOf o).foldl (fun t th =>
    match (t.thread th).wait with
    | some w =>
      match w.on with
      | .obj _ mode bound gen =>
        let v := t.obj o
        if waitMet v mode bound gen then
          (if mode = 1 then t.setObj o (v.1 - BitVec.ofNat 32 bound, v.2) else t).endWait th true
        else t
      | _ => t
    | none => t) s

/-- A post of amount `a` (R588). An object of a core that is held in reset, or is fenced, stays 0 (R603). -/
def Dev.postObj (s : Dev) (o a : Nat) : Dev :=
  let w := s.objCfg o
  let v := s.obj o
  if !s.coreUp (objCore o) || (s.core (objCore o)).inReset then s
  else if objKind w = 2 then
    let n := v.1.toNat + a
    (if n ≥ objTarget w then s.setObj o (0, v.2 + 1) else s.setObj o (BitVec.ofNat 32 n, v.2)).serveObj o
  else (s.setObj o (v.1 + BitVec.ofNat 32 a, v.2)).serveObj o

/-- The objects of a core are 0 again: an ARRIVE on one that sees another GEN ends (R592, R603). -/
def Dev.serveObjsOf (s : Dev) (c : Nat) : Dev :=
  let os := s.threads.filterMap fun p =>
    match p.2.wait with
    | some w => (match w.on with | .obj o _ _ _ => if objCore o = c then some o else none | _ => none)
    | none => none
  os.eraseDups.foldl Dev.serveObj s

/-! ### Starting and stopping (R547 to R549, R597 to R599) -/

/-- A PC field: 2-byte aligned (R546). -/
def pcOf44 (v : Nat) : BitVec 44 := BitVec.ofNat 44 (v - v % 2)

/-- Start a thread now (R546). -/
def Dev.runThread (s : Dev) (t : Nat) : Dev :=
  let x := s.thread t
  s.setThread t (Thread.start x.pc x.arg tsRunning none x.last 0)

/-- Put a thread in PENDING with its start address and argument, its registers as they stand until it starts. -/
def Dev.pendThread (s : Dev) (t : Nat) (pc : BitVec 44) (arg : Word) (launch : Option (BitVec 64)) : Dev :=
  s.updThread t fun x =>
    { x with pc := pc, arg := arg, state := tsPending, reason := 0, wait := none, launchAt := launch, mid := false, syncing := false }

/-- The thread can be started. -/
def Dev.startable (s : Dev) (t : Nat) : Bool :=
  let st := (s.thread t).state
  threadUp s t && (st == tsIdle || st == tsFaulted)

/-- A privileged START (R548). -/
def Dev.startThread (s : Dev) (t : Nat) (pc : BitVec 44) : Dev :=
  if !s.startable t then s
  else
    let s := s.pendThread t pc 0 none
    if (s.thread t).outstanding = 0 then s.runThread t else s

/-- A PENDING thread that waits for no beat and has no operation outstanding starts (R548). -/
def Dev.pendingRun (s : Dev) (t : Nat) : Dev :=
  let x := s.thread t
  if x.state = tsPending ∧ x.launchAt.isNone ∧ x.outstanding = 0 ∧ threadUp s t then s.runThread t else s

/-- A privileged STOP (R549). -/
def Dev.stopThread (s : Dev) (t : Nat) : Dev :=
  if (s.thread t).state = tsIdle then s
  else (s.drain t).updThread t fun x =>
    { x with state := tsIdle, reason := 2, wait := none, launchAt := none, mid := false, syncing := false }

/-- The die whose BEAT block judges an event of a core's thread (R170). -/
def threadDie (t : Nat) : Nat := t / 1024

/-- A launch or beat wait ends by the third outcome of R160, counted on the die of the issuing core (R147, R170). -/
def Dev.countEnded (s : Dev) (die : Nat) : Dev := s.count (beatPg die + 0x1A0)

/-- A beat-timed launch ends without launching (R599). -/
def Dev.failLaunch (s : Dev) (t : Nat) : Dev :=
  let s := s.countEnded (s.thread t).launchDie
  (s.updThread t fun x => { x with state := tsIdle, launchAt := none, last := 9 }).count (corePg (t / 16) + 0x130)

/-- A beat-timed launch for beat `b` of a thread that has just gone PENDING (R160), issued on die `die`. -/
def Dev.launchTimed (s : Dev) (t die : Nat) (b : BitVec 64) : Dev :=
  let s := s.updThread t fun x => { x with launchDie := die }
  if !s.aligned then s.failLaunch t
  else if b < s.beat then (s.count (beatPg die + 0x1B0)).updThread t fun x => { x with launchAt := none }
  else if b = s.beat then s.updThread t fun x => { x with launchAt := none }
  else s

/-- Pending beat-timed launches and waits end: alignment lost, or the count stepped (R146, R160). -/
def Dev.failTimed (s : Dev) : Dev :=
  s.threads.foldl (fun u p =>
    let x := u.thread p.1
    if x.state = tsPending ∧ x.launchAt.isSome then u.failLaunch p.1
    else
      match x.wait with
      | some w => (match w.on with | .beat _ => (u.countEnded (threadDie p.1)).timeoutWait p.1 false | _ => u)
      | none => u) s

/-- The beat of a launch or wait has come (R160, R595, R597). -/
def Dev.beatDue (s : Dev) (t : Nat) : Dev :=
  let x := s.thread t
  match x.state, x.launchAt with
  | 1, some b => if s.aligned && decide (b ≤ s.beat) then (s.updThread t fun x => { x with launchAt := none }).pendingRun t else s
  | _, _ =>
    match x.wait with
    | some w => (match w.on with | .beat b => if s.aligned && decide (b ≤ s.beat) then s.endWait t true else s | _ => s)
    | none => s

/-! ### Reset of a core (R603) -/

/-- Every thread IDLE with REASON RESET, queues and objects empty; the page's registers stay. -/
def Dev.resetThreads (s : Dev) (c : Nat) : Dev :=
  let s := (List.range 16).foldl (fun u i =>
    let t := c * 16 + i
    let x := u.thread t
    u.setThread t { Thread.start 0 0 tsIdle none x.last 0 with reason := 7 }) s
  let s := { s with works := s.works.filter fun w => match w.who with | .thread t => t / 16 != c | _ => true }
  s.updCore c fun k =>
    { k with queues := CoreSt.reset.queues, descs := [], descPend := [], objs := [], lanes := CoreSt.reset.lanes, cqWait := [],
             remote := [] }

/-! ### Descriptors (R575 to R582) -/

structure Desc where
  base  : Nat
  fmt   : Nat
  dims  : Nat
  meta_ : Option Nat
  valid : Bool
  sizes : List Nat
  strides : List Int
  deriving DecidableEq, Repr

def Desc.read (l : List Byte) : Desc :=
  let sh := leAt l 9 1
  { base := leAt l 0 8, fmt := leAt l 8 1 % 32, dims := bits sh 2 0, meta_ := if bit sh 3 then some (leAt l 48 8) else none,
    valid := bit sh 7, sizes := (List.range 4).map fun i => leAt l (16 + 2 * i) 2,
    strides := (List.range 3).map fun i => sext 64 (leAt l (24 + 8 * i) 8) }

/-- The sizes of the dimensions in use. -/
def Desc.shape (d : Desc) : List Nat := d.sizes.take d.dims
def Desc.size (d : Desc) (i : Nat) : Nat := d.sizes.getD i 0
/-- Elements (R577). -/
def Desc.count (d : Desc) : Nat := d.shape.foldl (· * ·) 1

/-- Hardware that an address names is absent: the working SRAM of a fused or fenced core, or the reduction memory of a fenced
cluster, on this node (R578). -/
def Dev.namesAbsent (s : Dev) (a : Nat) : Bool :=
  a / 2 ^ 44 == s.own &&
    match regionOf (a % 2 ^ 44) with
    | .wsram c => !s.coreUp c
    | .rmem k => s.fencedUnit (clusterUnit k)
    | _ => false

/-- The status of a descriptor image (R578). -/
def Dev.descStatus (s : Dev) (l : List Byte) : Nat :=
  let d := Desc.read l
  if s.namesAbsent d.base || (match d.meta_ with | some m => s.namesAbsent m | none => false) then 2
  else
    let badBits := leAt l 8 1 ≥ 32 ∨ bits (leAt l 9 1) 6 4 ≠ 0 ∨ leAt l 10 6 ≠ 0 ∨ leAt l 56 8 ≠ 0
    if badBits ∨ d.fmt ≥ 0x1B ∨ d.dims = 0 ∨ d.dims ≥ 5 ∨ (isMx d.fmt ∧ d.size 0 % 32 ≠ 0) ∨ (d.meta_.isSome ∧ !sparseFmt d.fmt)
    then 8 else 0

/-- A descriptor as an operation samples it (R575, R578, R581): `none` for handle 0 and for an invalid entry. -/
def Dev.desc (s : Dev) (t h : Nat) : Option Desc :=
  if h = 0 then none
  else
    match Map.find (s.core (t / 16)).descs h with
    | some l => let d := Desc.read l; if d.valid then some d else none
    | none => none

/-- Units a tensor is made of: elements, or MX blocks along dimension 0. -/
def Desc.units0 (d : Desc) : Nat := if isMx d.fmt then d.size 0 / 32 else d.size 0
def Desc.units (d : Desc) : Nat := (d.units0 :: d.shape.drop 1).foldl (· * ·) 1

/-- Global address of unit `i` in linear order (R577). -/
def Desc.unitAddr (d : Desc) (i : Nat) : Nat :=
  let n0 := max 1 d.units0
  let n1 := max 1 (if d.dims ≥ 2 then d.size 1 else 1)
  let n2 := max 1 (if d.dims ≥ 3 then d.size 2 else 1)
  let st := fun k => if d.dims ≥ k + 2 then d.strides.getD k 0 else 0
  let off : Int := (i % n0 * elemBytes d.fmt : Nat) + st 0 * (i / n0 % n1 : Nat) + st 1 * (i / (n0 * n1) % n2 : Nat)
    + st 2 * (i / (n0 * n1 * n2) : Nat)
  wrapN 64 ((d.base : Int) + off)

/-- A contiguous run: global address and bytes. -/
abbrev Run := Nat × Nat

/-- Join units at successive addresses, up to 8,192 bytes. -/
def joinRuns (e : Nat) : List Nat → List Run
  | [] => []
  | a :: t =>
    match joinRuns e t with
    | (b, n) :: r => if b = a + e ∧ n + e ≤ 8192 then (a, n + e) :: r else (a, e) :: (b, n) :: r
    | [] => [(a, e)]

/-- The runs of units `first` to `first + n - 1` of a tensor. -/
def Desc.runs (d : Desc) (first n : Nat) : List Run :=
  joinRuns (elemBytes d.fmt) ((List.range n).map fun i => d.unitAddr (first + i))

/-- Every run lies on this node. -/
def Dev.local (s : Dev) (rs : List Run) : Bool := rs.all fun r => r.1 / 2 ^ 44 == s.own && (r.1 + r.2 - 1) / 2 ^ 44 == s.own

/-- A known bad burst that stops a run: one that is read, or one that a write would merge into (R666). -/
def Dev.runBad (s : Dev) (write : Bool) (r : Run) : Option Nat :=
  if write then s.badMerge (r.1 % 2 ^ 44) r.2 else s.badBurst (r.1 % 2 ^ 44) r.2

/-- What one run meets: CHUNK_LOST at a burst that is known to be bad. -/
def Dev.runStatus (s : Dev) (who : Who) (write : Bool) (r : Run) : Nat :=
  match s.verdict who write (r.1 % 2 ^ 44) r.2 with
  | .ok => if (s.runBad write r).isSome then 4 else 0
  | v => v.status.getD 0

/-- The status that the permissions, the service and the known errors of runs give an operation: 0, QUOTA, FENCED_PATH or CHUNK_LOST;
the silent rule stops nothing (R553, R643, R658, R666, R667). -/
def Dev.runsStatus (s : Dev) (who : Who) (write : Bool) (rs : List Run) : Nat :=
  rs.foldl (fun st r => worse st (s.runStatus who write r)) 0

/-- Count the refusals of runs, and the bad bursts met. -/
def Dev.countRuns (s : Dev) (who : Who) (write : Bool) (rs : List Run) : Dev :=
  rs.foldl (fun t r => match t.verdict who write (r.1 % 2 ^ 44) r.2 with
    | .ok => (match t.runBad write r with | some b => t.metBad b | none => t)
    | v => t.countVerdict v) s

/-- Read runs on this node. -/
def Dev.readRuns (s : Dev) (who : Who) (rs : List Run) : Dev × List Byte :=
  rs.foldl (fun acc r =>
    let x := acc.1.memRead who (r.1 % 2 ^ 44) r.2
    (x.1, acc.2 ++ x.2.2)) (s, [])

/-- Store bytes over runs on this node, in order. -/
def Dev.writeRuns (s : Dev) (who : Who) : List Run → List Byte → Dev
  | [], _ => s
  | r :: t, l => ((s.memWrite who (r.1 % 2 ^ 44) (fit (l.take r.2) r.2)).1).writeRuns who t (l.drop r.2)

/-- Publish a thread's stores and descriptor loads (R579, R580). -/
def Dev.publish (s : Dev) (t : Nat) : Dev :=
  let x := s.thread t
  if !x.syncing then s
  else
    let isMem := fun (w : PendWrite) => match w.w with | .mem _ _ => true | _ => false
    let s := (storesOf x.pend).foldl (fun u w => u.poke w.1 w.2) s
    let s := s.setThread t { x with pend := x.pend.filter (fun w => !isMem w), syncing := false }
    let put := fun (m : Map (List Byte)) (p : Nat × (Nat × List Byte)) => if p.2.1 = t then Map.insert m p.1 p.2.2 else m
    s.updCore (t / 16) fun c =>
      { c with descs := c.descPend.foldl put c.descs, descPend := c.descPend.filter fun p => p.2.1 != t }

end Sys2Proof.Machine
end

