-- ==== Sys2Proof/Machine/Pages.lean ====
section
/-! DEFINITION. Register pages as a whole: which exist (R2, R5, R7, R59), where mirrored content is kept (R249, R392), the
content digest (R114, R393) and the audit chain (R112 to R117). -/

namespace Sys2Proof.Machine

/-! ### Page names -/

/-- Every page number a die can hold, ascending: (die, block, instance). -/
def pageNames : List (Nat × Nat × Nat) :=
  (List.range 5).flatMap fun d => (List.range 16).flatMap fun b => (List.range (blockInsts b)).map fun i => (d, b, i)

/-- Where the word of a staged register or table lies in a register file: SWC tables and COL staged content have one copy for
the four dies (R249, R392), and COL_GTBL_WINDOW brings part of the group table into the window. -/
def Dev.home (s : Dev) (a : Nat) : Nat :=
  let blk := addrBlk a
  let off := addrOff a
  if blk = 4 ∧ off ≥ 0x4000 then swcPg 0 + off
  else if blk = 8 ∧ 0x4000 ≤ off ∧ off < 0xC000 then
    gtblKey (s.lv (colPg (addrDie a) + 0x200) 6 0 * 512 + (off - 0x4000) / 64) ((off - 0x4000) % 64)
  else if blk = 8 ∧ off ≥ 0x1000 then colPg 0 + off
  else a

/-! ### The content digest -/

/-- COL_GTBL_DIGEST of an instar (R393). -/
def gtblDigest (f : RegFile) : List Byte := shake256 ((List.range 65536).flatMap fun e => RegFile.bytes f (gtblKey e 0) 64) 64

/-- The page holds staged registers or staged tables. -/
def pageStaged (die blk inst : Nat) : Bool :=
  (blockRegs blk inst).any (fun r => decide (r.off ≥ 0x1000) && r.dies.contains die && (!r.inst0 || inst == 0))
    || (blockTbls blk inst).any fun t => !t.ro && (!t.inst0 || inst == 0)

/-- The four bytes at a 4-aligned offset of a page's staged and table regions. -/
def Dev.digestWord (s : Dev) (f : RegFile) (die blk inst off : Nat) : Nat :=
  let a := pg die blk inst + off
  if off ≥ 0x4000 then
    match findTbl blk inst off with
    | some t => if t.ro || (blk == 8 && decide (off < 0xC000)) then 0 else RegFile.part f (s.home a) 4
    | none => 0
  else
    match findReg die blk inst off with
    | none => 0
    | some r =>
      if blk = 8 ∧ off ≥ 0x1020 then leAt (gtblDigest f) (off - 0x1020) 4
      else
        let b := r.base off
        bits (RegFile.get f (s.home (pg die blk inst + b))).toNat (8 * (off - b) + 31) (8 * (off - b))

/-- The stream of R114. -/
def Dev.digestStream (s : Dev) (f : RegFile) : List Byte :=
  (pageNames.filter fun p => s.pagePresent p.1 p.2.1 p.2.2 && pageStaged p.1 p.2.1 p.2.2).flatMap fun p =>
    leBytes 8 (pg p.1 p.2.1 p.2.2) ++
      (List.range 15360).flatMap fun i => leBytes 4 (s.digestWord f p.1 p.2.1 p.2.2 (0x1000 + 4 * i))

def Dev.contentDigest (s : Dev) (f : RegFile) : List Byte := shake256 (s.digestStream f) 64

/-! ### The audit chain -/

/-- The 160 bytes of a record, after a head (R115). -/
def Dev.auditBytes (s : Dev) (r : AuditRec) (head : List Byte) : List Byte :=
  leBytes 4 r.kind.val ++ leBytes 4 r.instar.toNat ++ leBytes 4 r.source.toNat ++ leBytes 4 0 ++ leBytes 8 r.seq
    ++ leBytes 8 r.beat.toNat ++ s.contentDigest r.content ++ head

/-- The chain head after records, oldest first (R112, R116). -/
def Dev.headAfter (s : Dev) : List AuditRec → List Byte → List Byte
  | [], h => h
  | r :: t, h => s.headAfter t (shake256 (s.auditBytes r h) 64)

/-- INS_AUDIT_HEAD. -/
def Dev.auditHead (s : Dev) : List Byte := s.headAfter s.audit (List.replicate 64 0)

/-- INS_AUDIT_SEQ. -/
def Dev.auditSeq (s : Dev) : Nat := s.audit.length - 1

/-- The record that slot `i` of INS_AUDIT_LOG holds (R117): the newest whose sequence is `i` modulo 128. -/
def Dev.auditSlot (s : Dev) (i : Nat) : List Byte :=
  match ((s.audit.zipIdx.filter fun r => r.2 % 128 == i).getLast?) with
  | none => List.replicate 256 0
  | some r => s.auditBytes r.1 (s.headAfter (s.audit.take r.2) (List.replicate 64 0)) ++ List.replicate 96 0

/-- Append a record for the active content (R112, R113). -/
def Dev.auditAppend (s : Dev) (kind : Fin 4) (source : BitVec 32) : Dev :=
  { s with audit := s.audit ++ [{ kind := kind, instar := s.number, source := source, seq := s.audit.length, beat := s.beat,
                                  content := s.active }] }

end Sys2Proof.Machine
end

