-- ==== Sys2Proof/Machine/Access.lean ====
section
/-! DEFINITION. What registers and tables read as (R64 to R76, R805): stored fields as stored, and the fields that show
other state computed from it. -/

namespace Sys2Proof.Machine

/-! ### Units of a page -/

/-- PG_CAP (R172, R244, R289, R321, R325, R382, R446, R606, R676, R680, R724, R772, R774, R777, R802, R806). -/
def Dev.pageCap (s : Dev) (blk inst : Nat) : Nat :=
  match blk with
  | 0x00 => 0x100
  | 0x01 => 0x80
  | 0x02 => 0x40
  | 0x03 => 0x308
  | 0x04 => 0x2001000
  | 0x05 => 0x100808
  | 0x06 => 0x400
  | 0x07 => 0x1000905
  | 0x08 => 0x400B10
  | 0x09 => 0x80C10
  | 0x0A => 0x10000
  | 0x0B => 0x800820
  | 0x0C => if inst = 0 then 0x1000 + 0x10000 * b2n s.factoryTest else 0
  | 0x0D => 0x204
  | 0x0E => 0x210
  | 0x0F => 0x50C
  | _ => 0

/-- PG_STATUS.FENCED: the unit of the page is fenced (R70). -/
def Dev.pageFenced (s : Dev) (d blk inst : Nat) : Bool :=
  match blk with
  | 0x03 => s.fencedUnit (groupUnit (d * 16 + inst))
  | 0x09 => s.fencedUnit (coreUnit (d * 64 + inst))
  | 0x0A => s.fencedUnit (clusterUnit (d * 8 + inst))
  | 0x0B => s.fencedUnit (stackUnit (d * 4 + inst))
  | _ => s.fencedUnit (blockUnit d blk inst)

/-- PG_STATUS.IN_RESET (R70): a port-group reset holds the group's LNK and SCH pages (R193, R310), a core reset the CORE page (R603),
and a group reset the COL pages of every die until its guard ends (R439, R440). The spec names no page for the last; COL is
DEDUCED (log 120). -/
def Dev.pageInReset (s : Dev) (d blk inst : Nat) : Bool :=
  match blk with
  | 0x08 => s.groups.any fun x => match x.2.guardEnd with | some t => decide (s.ticks < t) | none => false
  | 0x03 | 0x05 => s.lv (lnkPg (d * 16 + inst) + 0x110) 0 0 == 1
  | 0x09 => s.lv (corePg (d * 64 + inst) + 0x100) 0 0 == 1
  | _ => false

/-- PG_STATUS with its BLOCK_STATUS (R289, R383, R606, R676, R724). -/
def Dev.pageStatus (s : Dev) (d blk inst : Nat) : Nat :=
  let blockBits :=
    match blk with
    | 0x04 => b2n (routeBad s.active d) + 2 * s.cfg (swcPg d + 0x1000) 0 0
    | 0x07 => listMask (setOf 9 fun r => s.regionCfgErr d r) + 2 ^ 9 * b2n (s.parked.any fun p => p.die == d)
    | 0x09 =>
      let c := d * 64 + inst
      listMask (setOf 5 fun e => s.fencedUnit (engineUnit c e))
        + 2 ^ 5 * listMask (setOf 16 fun t => (s.thread (c * 16 + t)).state != tsIdle)
    | 0x0A =>
      b2n (!s.regionUp (d * 8 + inst))
        + (if inst = 0 then 2 * b2n (s.spillFree d == 0) + 4 * b2n (decide (s.ctxUsed d ≥ 32768)) else 0)
    | 0x0C =>
      if inst = 0 then
        b2n s.fatal + 2 * b2n ((s.collector d).newSlot.isNone)
      else 0
    | _ => 0
  blockBits * 2 ^ 16 + 2 * b2n (s.pageInReset d blk inst) + b2n (s.pageFenced d blk inst)

/-- The page header (R69 to R72). -/
def Dev.headerWord (s : Dev) (d blk inst off : Nat) : Nat :=
  let a := pg d blk inst
  match off with
  | 0x00 => blk * 2 ^ 16 + inst
  | 0x04 => 0xA0
  | 0x08 => s.pageCap blk inst
  | 0x0C => 1
  | 0x10 => s.pageStatus d blk inst
  | 0x30 => s.number.toNat
  | 0x38 => b2n (pageDiffers s.staged s.active a)
  | _ => (RegFile.get s.live (a + off)).toNat

/-! ### Computed live registers -/

/-- A port of the group exists under the split it runs. -/
def Dev.subPort (s : Dev) (g k : Nat) : Bool := decide (k < splitPorts (s.split g))

/-- LNK_LANE_STATUS.CFG_ERR (R245). -/
def Dev.lnkCfgErr (s : Dev) (g : Nat) : Bool :=
  s.groupCfgErr g || (List.range (splitPorts (s.split g))).any fun k =>
    decide (s.portMode (g * 8 + k) ≥ 5) || decide (s.portChannel (g * 8 + k) ≥ 3)

/-- LNK: the counters of ports that do not exist read zero (R185). -/
def Dev.lnkLive (s : Dev) (g off v : Nat) : Nat :=
  if off = 0x108 then setBits v 16 16 (b2n (s.lnkCfgErr g))
  else if 0x200 ≤ off ∧ off < 0x400 then (if s.subPort g ((off - 0x200) / 0x40) then v else 0)
  else if 0x500 ≤ off ∧ off < 0x600 then (if s.subPort g ((off - 0x500) / 0x20) then v else 0)
  else if 0x600 ≤ off ∧ off < 0x680 then (if s.subPort g ((off - 0x600) / 0x10) then v else 0)
  else v

/-- The kind that INS_STATUS shows: of the armed molt, else of the running one (R121). -/
def Dev.insKind (s : Dev) : Nat :=
  match s.molt with
  | some m => b2n m.drained
  | none => b2n (s.insState == 2 || s.insState == 3)

def Dev.insLive (s : Dev) (off v : Nat) : Nat :=
  if off = 0x100 then
    s.number.toNat + 2 ^ 32 * (match s.previous with | some i => i.number.toNat | none => 0)
  else if off = 0x108 then
    let w := setBits v 4 3 s.insKind
    let w := setBits w 5 5 (b2n s.previous.isSome)
    let w := setBits w 6 6 (b2n s.retiring.isSome)
    setBits w 7 7 (b2n (pageNames.any fun p =>
      s.pagePresent p.1 p.2.1 p.2.2 && pageDiffers s.staged s.active (pg p.1 p.2.1 p.2.2)))
  else if off = 0x128 then s.inflightOld
  else if off = 0x200 then s.auditSeq
  else if 0x240 ≤ off ∧ off < 0x280 then leAt s.auditHead (off - 0x240) 8
  else v

/-- Every die reports die 0's state (R150); pin roles report their own domain (R173). -/
def Dev.beatLive (s : Dev) (off v : Nat) : Nat :=
  if off = 0x100 then s.beat.toNat
  else if off = 0x108 then
    let w := (RegFile.get s.live (beatPg 0 + 0x108)).toNat
    let role := s.lv (beatPg 0 + 0x110) 1 0
    if role = 1 ∨ role = 2 then setBits w 47 32 (s.lv (beatPg 0 + 0x158) 15 0) else w
  else v

/-- BPM (R384). -/
def Dev.bpmLive (s : Dev) (d off v : Nat) : Nat :=
  if off < 0x340 ∧ off % 0x40 = 0 then
    let r := (off - 0x100) / 0x40
    freeCells 0 (s.freeBlocks d r) + 2 ^ 32 * s.lostCells d r
  else if off < 0x348 ∧ off % 0x40 = 8 then
    setBits v 51 32 (s.shared d ((off - 0x108) / 0x40) 0).toNat
  else if off = 0x430 then (s.parked.filter fun p => p.die == d).length
  else if off = 0x440 ∨ off = 0x448 then
    listMask (setOf 64 fun i => s.vc2Withheld (d * 128 + (off - 0x440) * 8 + i))
  else v

/-- The group of a group entry, and how COL_GSTATE shows it (R447). -/
def Dev.gstate (s : Dev) (d : Nat) : Nat :=
  let g := (GEntry.read s.active (s.lv (colPg d + 0x208) 15 0)).groupId
  let x := s.grp g
  let st := if s.guarded g then 2 else if x.current.isSome || x.next.isSome then 1 else 0
  let ep := (x.number.getD 0).toNat
  st + 4 * b2n x.next.isSome + 2 ^ 12 * ((s.ctxs.filter fun c => c.key.group == g && c.die == d).length)
    + 2 ^ 48 * ep

def Dev.colLive (s : Dev) (d off v : Nat) : Nat :=
  if off = 0x178 then s.ctxUsed d else if off = 0x210 then s.gstate d else v

/-- CORE (R607). -/
def Dev.coreLive (s : Dev) (c off v : Nat) : Nat :=
  if 0x200 ≤ off ∧ off < 0x400 ∧ off % 0x20 = 0 then
    let x := s.thread (c * 16 + (off - 0x200) / 0x20)
    x.state + 2 ^ 4 * x.reason + 2 ^ 8 * x.last + 2 ^ 20 * x.pc.toNat
  else v

/-- RMEM (R677). -/
def Dev.rmemLive (s : Dev) (k off v : Nat) : Nat :=
  match off with
  | 0x100 => (s.ctxs.filter fun c => c.cluster == k && (match c.place with | .resident _ => true | _ => false)).length
  | 0x200 => 32768 - s.ctxUsed (k / 8)
  | 0x208 => s.spillFree (k / 8)
  | 0x210 => s.spillOut (k / 8)
  | _ => v

/-- TOP (R486, R773). -/
def Dev.topLive (s : Dev) (off v : Nat) : Nat :=
  if off = 0x100 then s.grade
  else if off = 0x108 then s.sec.fuses.serial.toNat
  else if off = 0x180 then 0x11001 + 0x100 * b2n s.fp64x
  else if 0x200 ≤ off ∧ off < 0x300 then
    leNat ((List.range 8).map fun i =>
      let c := off - 0x200 + i
      if s.corePresent c then (if s.fp64x then 0x3F else 0x1F) else (0 : Byte))
  else v

/-- SEC (R775). -/
def Dev.secLive (s : Dev) (off v : Nat) : Nat :=
  if off = 0x118 then setBits (setBits v 2 0 s.sec.latched) 3 3 (b2n s.sec.fuses.debugDisable)
  else if 0x280 ≤ off ∧ off < 0x2C0 then
    (if s.sec.secret.isEmpty then 0 else leAt (edPublic s.sec.secret) (off - 0x280) 8)
  else v

/-- CTL (R736, R742, R745, R778). -/
def Dev.ctlLive (s : Dev) (off v : Nat) : Nat :=
  if off = 0x240 then s.irqNow.toNat
  else if off = 0x438 ∨ off = 0x478 then s.sec.fuses.macBase.toNat + (off - 0x438) / 0x40
  else if off = 0x500 then
    (match s.ctl.rxFifo with | b :: _ => 0x100 + b.toNat | [] => 0)
  else if off = 0x508 then (64 - s.ctl.txFifo.length) * 2 ^ 8 + s.ctl.rxFifo.length
  else if off = 0x608 then b2n s.ctl.spi.isSome
  else if off = 0x900 then setBits v 6 0 (0x50 + s.pwr.straps.toNat)
  else v

/-- The value of a live register before its field mask: `v` is the stored word. -/
def Dev.liveWord (s : Dev) (d blk inst off v : Nat) : Nat :=
  match blk with
  | 0x00 => s.topLive off v
  | 0x01 => s.insLive off v
  | 0x02 => s.beatLive off v
  | 0x03 => s.lnkLive (d * 16 + inst) off v
  -- every slice shows the forwarding states of the package (R282, R290)
  | 0x04 => if 0x200 ≤ off ∧ off < 0x240 then s.lv (swcPg 0 + off) 63 0 else v
  | 0x07 => s.bpmLive d off v
  | 0x08 => s.colLive d off v
  | 0x09 => s.coreLive (d * 64 + inst) off v
  | 0x0A => s.rmemLive (d * 8 + inst) off v
  | 0x0C => if inst = 0 ∧ off = 0x148 then (s.collector d).entries.length else v
  | 0x0D => s.secLive off v
  | 0x0E => s.ctlLive off v
  | _ => v

/-- What the register at page offset `off` reads as: its readable fields. -/
def Dev.readLive (s : Dev) (d blk inst off : Nat) (r : Reg) : Nat :=
  let a := pg d blk inst + off
  (if off < 0x100 then s.headerWord d blk inst off
   else s.liveWord d blk inst off (RegFile.get s.live a).toNat) &&& r.rd

/-! ### Staged registers and tables -/

/-- The bytes of a collector entry (R701). -/
def FEntry.bytes (e : FEntry) : List Byte :=
  leBytes 4 e.unit.toNat ++ leBytes 4 e.reporter.toNat ++ leBytes 8 e.first.toNat ++ leBytes 8 e.last.toNat
    ++ leBytes 4 e.count ++ leBytes 1 (e.state + 8 * e.cls + 32 * b2n e.injected) ++ leBytes 1 e.recov
    ++ leBytes 1 e.firstBit ++ leBytes 1 0

/-- Lifecycle code of a fuse pattern (R752). -/
def lifecycleCode (l : BitVec 3) : Nat :=
  match l.toNat with
  | 0 => 0
  | 1 => 1
  | 3 => 2
  | _ => 3

/-- The SEC_FUSE table (R776). -/
def Dev.fuseByte (s : Dev) (off : Nat) : Byte :=
  let f := s.sec.fuses
  if off = 0x4000 then BitVec.ofNat 8 (lifecycleCode f.lifecycle)
  else if off = 0x4001 then BitVec.ofNat 8 (b2n f.debugDisable)
  else if off = 0x4002 ∨ off = 0x4003 then BitVec.ofNat 8 (f.grade.toNat / 2 ^ (8 * (off - 0x4002)))
  else if off = 0x4004 then BitVec.ofNat 8 f.svn
  else if off = 0x4005 then BitVec.ofNat 8 f.keyRevoke.toNat
  else if off = 0x4006 then BitVec.ofNat 8 f.dbgRevoke.toNat
  else if 0x4008 ≤ off ∧ off < 0x4010 then BitVec.ofNat 8 (f.serial.toNat / 2 ^ (8 * (off - 0x4008)))
  else if 0x4010 ≤ off ∧ off < 0x4016 then BitVec.ofNat 8 (f.macBase.toNat / 2 ^ (8 * (off - 0x4010)))
  else if 0x4040 ≤ off ∧ off < 0x4140 then (f.keyHash.getD ((off - 0x4040) / 64) []).getD ((off - 0x4040) % 64) 0
  else if 0x4140 ≤ off ∧ off < 0x41C0 then (f.dbgHash.getD ((off - 0x4140) / 64) []).getD ((off - 0x4140) % 64) 0
  else 0

/-- The 8 bytes of a table that shows other state (R117, R386, R609, R679, R727, R776). -/
def Dev.roWord (s : Dev) (d blk inst off : Nat) : Nat :=
  match blk with
  | 0x01 => leAt (s.auditSlot ((off - 0x4000) / 256)) ((off - 0x4000) % 256) 8
  | 0x07 =>
    let pair := fun (f : Nat → Nat) (base : Nat) => f ((off - base) / 4) + 2 ^ 32 * f ((off - base) / 4 + 1)
    if off < 0x8000 then pair (s.portUse d) 0x7000
    else if off < 0x8100 then pair (s.partUse d) 0x8000
    else if off < 0xA200 then pair (fun i => s.slotUse d (i % 8) (i / 8)) 0x8100
    else pair (fun i => s.rmPartUse d (i % 8) (i / 8)) 0xA200
  | 0x09 =>
    let c := d * 64 + inst
    if off < 0xC000 then
      leAt (Map.get (s.core c).descs (s.lv (corePg c + 0x400) 2 0 * 512 + (off - 0x4000) / 64) []) ((off - 0x4000) % 64) 8
    else
      let o := s.obj (c * 256 + (off - 0xC800) / 8)
      o.1.toNat + 2 ^ 32 * o.2.toNat
  | 0x0A => s.spillPart d ((off - 0x4200) / 4) + 2 ^ 32 * s.spillPart d ((off - 0x4200) / 4 + 1)
  | 0x0C =>
    match Map.find (s.collector d).entries (s.lv (fltPg d + 0x200) 1 0 * 1024 + (off - 0x4000) / 32) with
    | some e => leAt e.bytes ((off - 0x4000) % 32) 8
    | none => 0
  | 0x0D => leNat ((List.range 8).map fun i => s.fuseByte (off + i))
  | _ => 0

/-- The instar that an initiator's read view selects (R75): view 1 active, 2 previous where there is one, else staged. -/
def Dev.viewFile (s : Dev) (view : Nat) : RegFile :=
  match view with
  | 1 => s.active
  | 2 => (match s.previous with | some i => i.content | none => s.active)
  | _ => s.staged

/-- A staged register under an instar: its readable fields. COL_GTBL_DIGEST is computed (R393). -/
def Dev.readStaged (s : Dev) (f : RegFile) (d blk inst off : Nat) (r : Reg) : Nat :=
  if blk = 8 ∧ off ≥ 0x1020 then leAt (gtblDigest f) (off - 0x1020) 8
  else (RegFile.get f (s.home (pg d blk inst + off))).toNat &&& r.rd

/-- The 8 bytes at an 8-aligned offset of a table under an instar. -/
def Dev.readTable (s : Dev) (f : RegFile) (d blk inst off : Nat) (t : Tbl) : Nat :=
  if t.ro then s.roWord d blk inst off else (RegFile.get f (s.home (pg d blk inst + off))).toNat

/-- The value that a read of `size` bytes (4 or 8) at a page offset returns, with the offset's register or table; `none` when
it addresses nothing there or has the wrong width or alignment (R62, R67, R805). -/
def Dev.readAt (s : Dev) (f : RegFile) (d blk inst off size : Nat) : Option Nat :=
  if off % size ≠ 0 then none
  else if off ≥ 0x4000 then
    match findTbl blk inst off with
    | none => none
    | some t => some (bits (s.readTable f d blk inst (off - off % 8) t) (8 * (off % 8) + 8 * size - 1) (8 * (off % 8)))
  else
    match findReg d blk inst off with
    | none => none
    | some r =>
      let b := r.base off
      let v := if off < 0x1000 then s.readLive d blk inst b r else s.readStaged f d blk inst b r
      if r.wide then some (bits v (8 * (off - b) + 8 * size - 1) (8 * (off - b)))
      else if off = b ∧ size = r.size then some v
      -- either word of a pair reads as committed (R79)
      else if off < 0x1000 ∧ size = 4 ∧ r.size = 8 ∧ s.pairs.contains (pg d blk inst + b) then
        some (bits v (8 * (off - b) + 31) (8 * (off - b)))
      else none

/-! ### Accesses by their initiator (R64 to R66, R732, R750) -/

/-- The initiator is privileged (R64, R770). -/
def Dev.privileged (s : Dev) : Initiator → Bool
  | .hart _ md => md == .m || md == .hs
  | .jtag => decide (s.lv (secPg + 0x118) 10 8 ≥ 1)
  | .thread _ | .porone _ => false

/-- The read view of an initiator (R75): INS_READ_VIEW_n of a hart, and register 16 for JTAG. -/
def Dev.viewOf (s : Dev) : Initiator → Nat
  | .hart n _ => s.lv (insPg + 0x160 + 8 * n.val) 1 0
  | .jtag => s.lv (insPg + 0x160 + 8 * 16) 1 0
  | .thread _ | .porone _ => 0

/-- The partition that an unprivileged initiator's U accesses carry (R66, R732). -/
def Dev.initPart (s : Dev) : Initiator → Option Nat
  | .hart n _ => if s.lv (ctlPg + 0x180 + 8 * n.val) 4 4 = 1 then some (s.lv (ctlPg + 0x180 + 8 * n.val) 3 0) else none
  | .jtag => none
  | .thread t => some (s.corePart (t.val / 16))
  | .porone p => some p.val

/-- U registers of a page are open to the initiator (R66): a CORE page's to its partition, any other's to all, a hart without
a partition to none (R732). -/
def Dev.admitsU (s : Dev) (i : Initiator) (d blk inst : Nat) : Bool :=
  match s.initPart i with
  | some p => blk != 9 || p == s.corePart (d * 64 + inst)
  | none => i == .jtag && blk != 9

/-- The bits of a register that an unprivileged initiator reaches (R66, R750). -/
def Dev.openBits (s : Dev) (i : Initiator) (d blk inst : Nat) (r : Reg) : Nat :=
  (if s.admitsU i d blk inst then r.u else 0) ||| (if i = .jtag then r.j else 0)

/-- A read of `size` bytes at a register address (R62 to R68, R75, R805). Reading CTL_UART_DATA takes the byte (R778). -/
def Dev.busRead (s : Dev) (i : Initiator) (a size : Nat) : Dev × Nat :=
  let d := addrDie a; let blk := addrBlk a; let inst := addrInst a; let off := addrOff a
  if !s.pagePresent d blk inst then (s.violAt a, 0)
  else
    match s.readAt (s.viewFile (s.viewOf i)) d blk inst off size with
    | none => (s.violAt a, 0)
    | some v =>
      if s.privileged i then
        if a = ctlPg + 0x500 then ({ s with ctl := { s.ctl with rxFifo := s.ctl.rxFifo.drop 1 } }, v) else (s, v)
      else if off < 0x10 then (s, v)
      else
        match findReg d blk inst off with
        | none => (s.violAt a, 0)
        | some r =>
          let u := s.openBits i d blk inst r
          if u = 0 then (s.violAt a, 0)
          else
            let s := if a = ctlPg + 0x500 then { s with ctl := { s.ctl with rxFifo := s.ctl.rxFifo.drop 1 } } else s
            (s, v &&& bits u (8 * (off - r.base off) + 8 * size - 1) (8 * (off - r.base off)))

/-- The register at an offset that a write of `size` bytes is right for (R67, R805). -/
def writeReg (d blk inst off size : Nat) : Option Reg :=
  match findReg d blk inst off with
  | none => none
  | some r => if off % size = 0 ∧ (r.wide ∨ (off = r.base off ∧ size = r.size)) then some r else none

/-- A write to a CORE register that a thread's or a packet's partition may make: CORE_TCQ_BASE_t, which empties its queue, and
HEAD of CORE_TCQ_IDX_t (R607). -/
def Dev.coreUserWrite (s : Dev) (c off v : Nat) : Dev :=
  if 0x200 ≤ off ∧ off < 0x400 then
    if off % 0x20 = 0x10 then (s.setLv (corePg c + off) 47 0 v).putLv (corePg c + off + 8) 0
    else if off % 0x20 = 0x18 then s.setLv (corePg c + off) 31 0 v
    else s
  else s

/-- A write of `size` bytes by a thread or in a Porone packet (R62 to R66): only CORE pages hold U fields that are writable. -/
def Dev.userWrite (s : Dev) (i : Initiator) (a size v : Nat) : Dev :=
  let d := addrDie a; let blk := addrBlk a; let inst := addrInst a; let off := addrOff a
  if !s.pagePresent d blk inst then s.violAt a
  else if off < 0x100 ∨ off ≥ 0x1000 then s.violAt a
  else
    match writeReg d blk inst off size with
    | none => s.violAt a
    | some r =>
      if s.openBits i d blk inst r = 0 then s.violAt a
      else if blk = 9 then s.coreUserWrite (d * 64 + inst) off v
      else s

/-- Bytes read as one access of their width: 4 or 8; any other width is dropped (R62, R67). -/
def Dev.busBytes (s : Dev) (i : Initiator) (a n : Nat) : Dev × List Byte :=
  if n = 4 ∨ n = 8 then let r := s.busRead i a n; (r.1, leBytes n r.2) else (s.violAt a, List.replicate n 0)

/-- Bytes written as one access of their width. -/
def Dev.busStore (s : Dev) (i : Initiator) (a : Nat) (l : List Byte) : Dev :=
  if l.length = 4 ∨ l.length = 8 then s.userWrite i a l.length (leNat l) else s.violAt a

/-! ### Snapshots (R161, R162) -/

/-- The page takes part in snapshots: it is present, the injection page only in factory test mode (R722). -/
def Dev.snapPages (s : Dev) (d : Nat) : List (Nat × Nat × Nat) :=
  pageNames.filter fun p =>
    (p.1 == d || (p.1 == 4 && d == 0)) && s.pagePresent p.1 p.2.1 p.2.2

/-- The live region of a page as bytes 0x100 to 0xFFF. -/
def Dev.livePage (s : Dev) (d blk inst : Nat) : List Byte :=
  (List.range 960).flatMap fun i =>
    let off := 0x100 + 4 * i
    match findReg d blk inst off with
    | none => List.replicate 4 (0 : Byte)
    | some r =>
      let b := r.base off
      leBytes 4 (s.readLive d blk inst b r / 2 ^ (8 * (off - b)))

/-- A snapshot record of 4 KiB, for the beat after the one the state stands at. -/
def Dev.snapRecord (s : Dev) (p : Nat × Nat × Nat) : List Byte :=
  leBytes 8 (pg p.1 p.2.1 p.2.2) ++ leBytes 8 (s.beat + 1).toNat ++ List.replicate 240 0 ++ s.livePage p.1 p.2.1 p.2.2

end Sys2Proof.Machine
end

