-- ==== Sys2Proof/Machine/Align.lean ====
section
/-! DEFINITION. The alignment of fabric time (chapter 03): states, losses, what leaving alignment and a step take with
them (R132 to R149, R809), and the upstream port (R140, R141, R152). -/

namespace Sys2Proof.Machine

def bsAddr : Nat := beatPg 0 + 0x108

/-- Alignment states (R134). -/
def bsFree : Nat := 0
def bsAcquiring : Nat := 1
def bsAligned : Nat := 2
def bsHoldover : Nat := 3
def bsLost : Nat := 4

def Dev.bState (s : Dev) : Nat := s.lv bsAddr 2 0
def Dev.role (s : Dev) : Nat := s.lv (beatPg 0 + 0x110) 1 0
def Dev.loadOnSync (s : Dev) : Bool := s.lv (beatPg 0 + 0x110) 4 4 == 1

/-- RESULT and ARMED of an alarm (R173). -/
def alarmCtrl (d n : Nat) : Nat := beatPg d + 0x408 + 16 * n
def Dev.alarmResult (s : Dev) (d n r : Nat) (armed : Bool) : Dev :=
  (s.setLv (alarmCtrl d n) 15 12 r).setLv (alarmCtrl d n) 1 1 (b2n armed)

/-- Cancel the armed alarms that `p` selects, with a result. -/
def Dev.cancelAlarms (s : Dev) (p : Alarm → Bool) (r : Nat) : Dev :=
  (s.alarms.filter p).foldl (fun t a => t.alarmResult a.die a.n r false) { s with alarms := s.alarms.filter fun a => !p a }

/-- Cancel the armed molt (R96). -/
def Dev.cancelMolt (s : Dev) (result : Nat) : Dev :=
  (({ s with molt := none } : Dev).setInsState (if s.retiring.isSome then 3 else 0)).setMoltResult result

/-- The device leaves alignment: R97, R148, R160, R809. -/
def Dev.leaveAlign (s : Dev) : Dev :=
  let s := s.cancelAlarms (fun a => !a.isLoc) 4
  let s := match s.molt with
    | some m => if m.timed then (s.cancelMolt 6).raiseOwn 4 0x01 0 0 (blockUnit 4 0x01 0) else s
    | none => s
  let rels := s.releases
  let s := rels.foldl (fun t r => (t.count (beatPg 0 + 0x1A8)).epochReleased r.group r.epoch) { s with releases := [] }
  s.failTimed

/-- Enter a state; leaving the aligned states acts (R133, R148). -/
def Dev.enterState (s : Dev) (st : Nat) : Dev :=
  let was := s.aligned
  let now := st == bsAligned || st == bsHoldover
  let s := (s.setLv bsAddr 2 0 st).setLv bsAddr 3 3 (b2n now)
  let s := { s with time := { s.time with holdoverEnd := none, good := 0, bad := 0, first := st == bsAcquiring } }
  if was && !now then s.leaveAlign else s

/-- A loss (R143): to HOLDOVER where it may, else to LOST. -/
def Dev.lose (s : Dev) (holdover : Bool) (reason : Nat) : Dev :=
  let s := (s.count (beatPg 0 + 0x170)).setLv bsAddr 19 16 reason
  let s := s.raiseOwn 0 0x02 0 0 (blockUnit 0 0x02 0)
  let limit := s.lv (beatPg 0 + 0x140) 31 0
  if holdover && limit != 0 then
    let s := s.enterState bsHoldover
    { s with time := { s.time with holdoverEnd := some (s.ticks + limit) } }
  else s.enterState bsLost

/-- A step of the count (R146). -/
def Dev.stepCount (s : Dev) (b : BitVec 64) : Dev :=
  let s := { s with beat := b }
  (s.cancelAlarms (fun _ => true) 5).failTimed

/-! ### Upstream (R140, R141, R152) -/

def Dev.altInUse (s : Dev) : Bool := s.lv bsAddr 24 24 == 1
def Dev.altValid (s : Dev) : Bool := s.lv (beatPg 0 + 0x128) 16 16 == 1
def Dev.primaryPort (s : Dev) : Option Nat := s.placeOf (s.lv (beatPg 0 + 0x128) 7 0)
def Dev.alternatePort (s : Dev) : Option Nat := s.placeOf (s.lv (beatPg 0 + 0x128) 15 8)
/-- The port that exchanges use. -/
def Dev.upPort (s : Dev) : Option Nat := if s.altInUse then s.alternatePort else s.primaryPort
/-- Beats between requests (R135); 0 stops them. -/
def Dev.exchPeriod (s : Dev) : Nat :=
  let p := s.lv (beatPg 0 + 0x148) 31 0
  if p ≠ 0 ∧ s.bState = bsAcquiring then 64 else p

/-- The upstream gives no aligned answer any more: an ALIGNED follower holds over; the primary's loss moves the exchanges to
an alternate (R140, R141). An answer that is not aligned counts as the loss of the primary too (DESIGN CHOICE, log 109: R141 says
only 'lost'). -/
def Dev.loseUpstream (s : Dev) (reason : Nat) : Dev :=
  let move := !s.altInUse && s.altValid
  let s := if s.bState = bsAligned then s.lose true reason else s
  if move then
    let s := s.setLv bsAddr 24 24 1
    { s with time := { s.time with t1 := none, good := 0, bad := 0 } }
  else s

/-- The port that exchanges use is down: it does not exist in the grade, is not configured, carries Ethernet, or is neither ACTIVE
nor retraining (R140, R152, R243). -/
def Dev.upIsDown (s : Dev) : Bool :=
  match s.upPort with
  | some p => !isPorone (s.portMode p) || !(s.portState p == 5 || s.portState p == 6)
  | none => true

/-- BEAT_UPSTREAM has been written: a follower whose port is down now has lost it (R140, R152). -/
def Dev.upstreamNamed (s : Dev) : Dev := if s.role = 3 ∧ s.upIsDown then s.loseUpstream 1 else s

/-- A port has gone down or been fenced (R140). -/
def Dev.upstreamDown (s : Dev) (p : Nat) : Dev :=
  if s.role = 3 ∧ s.upPort = some p then s.loseUpstream 1 else s

end Sys2Proof.Machine
end

