-- ==== Sys2Proof/Machine/Fence.lean ====
section
/-! DEFINITION. What a fence takes with it (chapter 14 and the blocks' own rules: R41 to R46, R188, R189, R282 to R284,
R431, R603, R637, R667 to R671, R692, R693), and the errors of protected memory (R605, R662, R666). -/

namespace Sys2Proof.Machine

/-- The unit is fenced from now on (R692). -/
def Dev.markFenced (s : Dev) (u : BitVec 32) : Dev :=
  let d := collectorOf (unitDie u)
  let c := s.collector d
  if c.fenced.contains u then s else s.setCollector d { c with fenced := c.fenced ++ [u] }

/-! ### Ports (R282 to R284, R431, R693) -/

/-- Sources that have stopped being live are lost to every open epoch (R431, R541). -/
def Dev.sourcesLost (s : Dev) : Dev :=
  s.groups.foldl (fun t x =>
    let one := fun (t : Dev) (e : EpochSt) =>
      (e.sources.filter fun y => !t.srcLive e y && !e.lost.contains y).foldl (fun u y =>
        let u := u.loseSource x.2.group e.epoch y
        match y with
        | .slot i =>
          match e.slots.find? (·.1 == i) with
          | some w => u.routeSlotLost (u.srcDie e y) x.2.group e (memberRank w.2)
          | none => u
        | .child _ | .port _ => u) t
    let t := match x.2.current with | some e => one t e | none => t
    match x.2.next with | some e => one t e | none => t) s

/-- A port that carried traffic is down: its unconfirmed inputs are undone, its sources lost, its exchanges ended. -/
def Dev.portDown (s : Dev) (p : Nat) : Dev :=
  let s := (s.dropInputs p).updPort p fun x => { x with asm := [], asmOpen := false }
  (s.upstreamDown p).sourcesLost

/-- Discard a queued packet whose port has been fenced (R283, R264, R312). -/
def Dev.fenceDrop (s : Dev) (p : Nat) (q : QPkt) : Dev :=
  let s := ((s.dropQueued p q).count (swcPg q.die + 0x108)).telDrop p q.pkt.vc.toNat
  if q.pkt.answered then s.answerStatus q.die q.pkt 0x0B 0 else s

/-- Let go of the flits that wait for an acknowledgement: their packets end here (R699). -/
def Dev.dropUnacked (s : Dev) (p : Nat) : Dev :=
  let x := s.port p
  let s := s.updPort p fun y => { y with unacked := [] }
  (x.unacked.filter (·.eop)).foldl (fun t f =>
    match f.mcast with
    | some m => t.copyDone m none
    | none => t.release f.alloc) s

/-- End the work of every adapter queue of a port, with a status to write or without one (R693, R193). -/
def Dev.endAdapters (s : Dev) (p : Nat) (status : Option Nat) : Dev :=
  (s.adapters.filter fun a => a.1 / 256 == p / 8 && (s.adpCfg a.1).port == p).foldl (fun t a =>
    let k := a.1
    let t := { t with works := t.works.filter fun w => match w.who with | .adapter g q => g * 256 + q != k | _ => true }
    match status, a.2.cur with
    | some st, some c =>
      (t.updAdp k fun x => { x with cur := none, txs := [], wr := [], sqHead := x.sqHead + 1 }).adpOwe k st 0 c.2.1.toNat c.2.2.2
    | some _, none => t.updAdp k fun x => { x with txs := [], wr := [] }
    | none, _ => t.setAdp k { AdpQ.reset with eyespot := a.2.eyespot }) s

/-- The port's outstanding credit counts as 0, and its holds may end or begin (R345, R376). -/
def Dev.dropCredit (s : Dev) (p : Nat) : Dev :=
  (List.range 8).foldl (fun t vc => t.setCredit (p / 128) (p % 128 * 8 + vc) 0) s

/-- Fence a port (R282, R283, R376). Flows were pinned to it only while it was live: then what arrives before its queues are flushed
is held (R284). -/
def Dev.fencePort (s : Dev) (p : Nat) : Dev :=
  if s.portState p = 7 then s
  else
    let lp := s.logNum p
    let x := s.port p
    let live := s.portLive p
    let s := ((s.markFenced (portUnit (p / 128) lp)).setPortState p 7).useLanes p []
    let s := s.setFwdState lp 2
    let s := s.updPort p fun y => { y with queue := [], flushing := y.flushing || live, nak := false }
    let s := x.queue.foldl (fun t q => t.fenceDrop p q) s
    let s := (s.dropUnacked p).dropCredit p
    let s := if s.portMode p = 3 then s.endAdapters p (some 0x0B) else s
    s.portDown p

/-- Fence every port of a group. -/
def Dev.fenceGroup (s : Dev) (g : Nat) : Dev :=
  (List.range (splitPorts (s.split g))).foldl (fun t k => if t.portMode (g * 8 + k) = 0 then t else t.fencePort (g * 8 + k))
    (s.markFenced (groupUnit g))

/-! ### Lanes (R187 to R191) -/

/-- Logical lanes of a place. -/
def Dev.lanesOf (s : Dev) (p : Nat) : List Nat :=
  let n := 8 / max 1 (splitPorts (s.split (p / 8)))
  (List.range n).map (p % 8 * n + ·)
def Dev.laneFenced (s : Dev) (g l : Nat) : Bool := s.lv (lnkPg g + 0x108) (8 + l) (8 + l) == 1

/-- A recovery check of the unit is under way (R714). -/
def Dev.checking (s : Dev) (u : BitVec 32) : Bool :=
  let c := s.collector (collectorOf (unitDie u))
  c.bare.contains u || (match c.entry u with | some e => e.checking.isSome | none => false)

/-- A lane is used at bring-up: it is not fenced, or its check brings its fenced port up (R714). -/
def Dev.laneUsed (s : Dev) (p l : Nat) : Bool :=
  let g := p / 8
  !s.laneFenced g l || (s.checking (laneUnit g (s.physLane g l)) && s.fencedUnit (portUnit (p / 128) (s.logNum p)))

/-- The sets of lanes that a port may use, in the order R188 takes them: all; for a Porone port of eight lanes each half; for one of
eight or four each pair. -/
def Dev.laneSets (s : Dev) (p : Nat) : List (List Nat) :=
  let ls := s.lanesOf p
  let halves := if ls.length = 8 then [ls.take 4, ls.drop 4] else []
  let pairs := if ls.length ≥ 4 then (List.range (ls.length / 2)).map fun j => (ls.drop (2 * j)).take 2 else []
  ls :: (if isPorone (s.portMode p) then halves ++ pairs else [])

/-- The lanes that a port takes: the first set, of at most `w` lanes, that is clean here and that `ok` allows (R188, R189). -/
def Dev.cleanLanes (s : Dev) (p w : Nat) (ok : Nat → Bool) : List Nat :=
  ((s.laneSets p).find? fun l => decide (l.length ≤ w) && l.all fun x => s.laneUsed p x && ok x).getD []

/-- The most lanes that a port may come to use: those it has, or the width it keeps with REWIDEN 0 (R191). -/
def Dev.widest (s : Dev) (p : Nat) : Nat :=
  if s.portCfg p 16 16 = 1 ∨ (s.port p).kept = 0 then 8 else (s.port p).kept

/-- Mask of a port's clean lanes, for the WIDTH message (R208). -/
def Dev.cleanMask (s : Dev) (p : Nat) : BitVec 8 :=
  BitVec.ofNat 8 (listMask (((s.lanesOf p).zipIdx.filter fun l => !s.laneFenced (p / 8) l.1).map (·.2)))

/-- Ask the peer for other lanes and retrain (R190). -/
def Dev.changeWidth (s : Dev) (p : Nat) (l : List Nat) : Dev :=
  let s := (s.updPort p fun x => { x with newLanes := l }).setPortState p 6
  (s.countPort p 0x238 0x40).sendMsg p (.width false (BitVec.ofNat 8 l.length) (s.cleanMask p))

/-- A lane is faulty: its port moves to other lanes, or is fenced (R187 to R189). A port that is still training starts again. -/
def Dev.fenceLane (s : Dev) (g phys : Nat) : Dev :=
  let s := s.markFenced (laneUnit g phys)
  match s.logLane g phys with
  | none => s
  | some l =>
    let s := s.setLv (lnkPg g + 0x108) (8 + l) (8 + l) 1
    let n := 8 / max 1 (splitPorts (s.split g))
    let p := g * 8 + l / n
    let x := s.port p
    let st := s.portState p
    if s.portMode p = 0 ∨ st = 7 ∨ st = 0 then s
    else
      let ls := s.cleanLanes p (s.widest p) fun _ => true
      if ls.isEmpty then
        let u := portUnit (p / 128) (s.logNum p)
        (s.raise (g / 16) 0x03 (g % 16) 1 u u false).fencePort p
      else if (st = 5 ∨ st = 6) ∧ ((if st = 6 ∧ !x.newLanes.isEmpty then x.newLanes else x.lanes).contains l) then s.changeWidth p ls
      else if 2 ≤ st ∧ st ≤ 4 ∧ x.lanes.contains l then (s.setPortState p 1).useLanes p []
      else s

/-! ### Engines, cores, clusters (R603, R637, R638, R671) -/

/-- The asynchronous queue of an engine (R606); the vector engine has none. -/
def engineQueue (e : Nat) : Option AsyncQ :=
  match e with
  | 0 => some .reduction
  | 2 => some .tile
  | 3 => some .sparse
  | 4 => some .sort
  | _ => none

/-- A tile feed of a core ends ENGINE_ABSENT: chunks sent stand (R639). -/
def Dev.endFeeds (s : Dev) (c : Nat) : Dev :=
  let ids := ((s.core c).queue .tile).filterMap fun o => if o.coll then some (o.thread, o.wrId) else none
  let mine := fun (w : Work) => match w.who with | .thread t => ids.contains (t, w.wrId) | _ => false
  let s := (s.works.filter mine).foldl (fun t w => t.workOwe w 2 0 w.moved) s
  let s := { s with works := s.works.filter fun w => !mine w }
  s.updCore c fun k =>
    k.setQueue .tile ((k.queue .tile).map fun (o : AsyncOp) => if o.coll then { o with coll := false, owed := true, status := 2 } else o)

/-- Fence an engine of a core (R601, R637, R638). -/
def Dev.fenceEngine (s : Dev) (c e : Nat) : Dev :=
  let s := s.markFenced (engineUnit c e)
  let s := if e = 2 then s.endFeeds c else s
  let s := match engineQueue e with
    | some q => s.updCore c fun k => k.setQueue q ((k.queue q).map fun (o : AsyncOp) => { o with status := 2 })
    | none => s
  let s := if e = 3 then (s.loseTablesOf c).updCore c fun k => { k with lanes := CoreSt.reset.lanes } else s
  s.loseCore c

/-- What cores lose at their fence and at their reset (R603): threads, queues, contexts, member slots. Cores that go together leave
the core sets together (R32). -/
def Dev.coresDown (s : Dev) (cs : List Nat) : Dev :=
  let s := cs.foldl (fun t c => t.touch (c / 64) (1 + c / 8 % 8)) s
  let s := cs.foldl (fun t c => (t.loseTablesOf c).resetThreads c) s
  ((cs.foldl Dev.serveObjsOf s).loseCores cs).sourcesLost
def Dev.coreDown (s : Dev) (c : Nat) : Dev := s.coresDown [c]

def Dev.fenceCore (s : Dev) (c : Nat) : Dev := (s.markFenced (coreUnit c)).coreDown c

/-- Fence a cluster: its cores, and its region (R378, R671). -/
def Dev.fenceCluster (s : Dev) (k : Nat) : Dev :=
  (s.markFenced (clusterUnit k)).coresDown (((List.range 8).map (k * 8 + ·)).filter s.corePresent)

/-! ### HBM (R667 to R669) -/

/-- Contexts with a spill unit in a group are lost (R667). -/
def Dev.loseSpilled (s : Dev) (st g : Nat) : Dev :=
  let hit := fun (c : Ctx) => match c.place with
    | .spilled us => us.any fun u => spillStack c.die u == st && spillGroup u == g
    | _ => false
  ((s.ctxs.filter hit).map (·.key)).foldl Dev.loseCtx s

/-- Part of the control partition is lost: FATAL (R669). -/
def Dev.controlLost (s : Dev) (u : BitVec 32) : Dev := s.raise 0 0x0B 0 6 u u false

/-- Fence a stack (R668). -/
def Dev.fenceStack (s : Dev) (st : Nat) : Dev :=
  if s.stackState st = 4 then s
  else
    let s := (s.markFenced (stackUnit st)).setStackState st 4
    let s := (List.range 8).foldl (fun t g => (t.setGroupState st g 1).loseSpilled st g) s
    if st = 0 then s.controlLost (stackUnit st) else s

/-- Fence a pseudo-channel: its group leaves service (R667), and the stack with its last group (R668). -/
def Dev.fencePc (s : Dev) (st pc : Nat) : Dev :=
  let g := pc / 4
  let s := (s.markFenced (pcUnit st pc)).setLv (hbmPg st + 0x100) (32 + pc) (32 + pc) 1
  let s := (s.setGroupState st g 1).loseSpilled st g
  let s := if st = 0 ∧ g < 4 then s.controlLost (pcUnit st pc) else s
  if (List.range 8).all fun g => s.groupState st g != 0 then
    (s.raise (st / 4) 0x0B (st % 4) 3 (stackUnit st) (stackUnit st) false).fenceStack st
  else s

/-! ### Die-to-die links (R41 to R53) -/

/-- PEERn_STATE of a link as die `d` shows it (R48, R49). -/
def Dev.linkState (s : Dev) (d peer : Nat) : Nat := s.lv (swcPg d + 0xE00) (4 * peer + 3) (4 * peer)
def Dev.setLinkState (s : Dev) (d peer v : Nat) : Dev := s.setLv (swcPg d + 0xE00) (4 * peer + 3) (4 * peer) v
/-- A link is fenced, or its check after a fence is still under way: it carries no traffic (R41, R49, R714). -/
def Dev.linkOut (s : Dev) (a b : Nat) : Bool :=
  s.linkState a b == 3 || s.fencedUnit (d2dUnit a b) || (decide (b < 4) && s.fencedUnit (d2dUnit b a))

/-- The relay die of a pair (R41). A link that trains after reset counts as one that will be up: no traffic moves until every
link is UP or fenced (R53). -/
def Dev.relay (s : Dev) (a b : Nat) : Option Nat :=
  (List.range 4).find? fun c => c != a && c != b && !s.linkOut c a && !s.linkOut c b

/-- The path from die `a` to die `b` (R51). -/
def Dev.pathTo (s : Dev) (a b : Nat) : Nat :=
  if a = b then 9 else if !s.linkOut a b then 8 else (s.relay a b).getD 0xA
def Dev.setPath (s : Dev) (a b v : Nat) : Dev := s.setLv (swcPg a + 0xE04) (4 * b + 3) (4 * b) v

/-- The fabric die whose control link carries a die's control traffic (R45, R46). -/
def Dev.ctlVia (s : Dev) (d : Nat) : Nat :=
  let up := fun k => !s.linkOut k 4
  if d = 2 ∧ up 2 then 2 else if up 0 then 0 else if up 2 then 2 else 0xA
def Dev.setVias (s : Dev) : Dev :=
  (List.range 4).foldl (fun t d => t.setLv (swcPg d + 0xE04) 19 16 (s.ctlVia d)) s

/-- The pairs of fabric dies with no path left, the lower-numbered die first (R42). -/
def Dev.cutPairs (s : Dev) : List (Nat × Nat) :=
  ((List.range 4).flatMap fun a => ((List.range 4).filter fun b => decide (a < b)).map fun b => (a, b)).filter fun x =>
    s.linkOut x.1 x.2 && (s.relay x.1 x.2).isNone

/-- The other die's ID of a link between two fabric dies (R687). -/
def peerUnit (u : BitVec 32) : Option (BitVec 32) :=
  if unitClass u = 0x09 ∧ unitInst u < 4 then some (d2dUnit (unitInst u) (unitDie u)) else none

/-- Do to a unit and, of a link between fabric dies, to its other ID as well. -/
def Dev.bothEnds (s : Dev) (u : BitVec 32) (act : Dev → BitVec 32 → Dev) : Dev :=
  match peerUnit u with
  | some v => act (act s u) v
  | none => act s u

/-- PEERn_STATE on both dies that a link joins (R53). -/
def Dev.setLinkBoth (s : Dev) (d peer v : Nat) : Dev :=
  let s := s.setLinkState d peer v
  if peer < 4 then s.setLinkState peer d v else s

/-- Fence one end of a link on its die (R52). -/
def Dev.fenceEnd (s : Dev) (d peer : Nat) : Dev :=
  (s.markFenced (d2dUnit d peer)).addLv (swcPg d + 0xE08) 31 0 1

/-- Fence the link that die `d` names by its `peer` (4: the control die). The link of a fence in force, under check or not, stays
fenced and is no new fence. A pair that the fence leaves without a path raises D2D_ISOLATED (R42, R46). Which of the fenced link's
two IDs (R687) that report carries the spec does not say: the lower-numbered die's. DESIGN CHOICE (log 117). -/
def Dev.fenceLink (s : Dev) (d peer : Nat) : Dev :=
  if s.linkState d peer = 0 then s
  else if s.linkOut d peer then s.setLinkBoth d peer 3
  else
    let t := (s.setLinkBoth d peer 3).fenceEnd d peer
    if peer = 4 then
      let t := t.setVias
      if t.linkOut 0 4 ∧ t.linkOut 2 4 then t.raise d 0x04 0 6 (d2dUnit d 4) (d2dUnit d 4) false else t
    else
      let t := t.fenceEnd peer d
      let v := d2dUnit (min d peer) (max d peer)
      (t.cutPairs.filter fun x => !s.cutPairs.contains x).foldl (fun t x =>
        ((t.setPath x.1 x.2 0xA).setPath x.2 x.1 0xA).raise x.1 0x04 0 6 v v false) t

/-! ### The fence a report orders -/

/-- Fence a unit (R692). A unit fenced already stays so; a link whose check a new fence ends goes back to FENCED (R49). -/
def Dev.fenceUnit (s : Dev) (u : BitVec 32) : Dev :=
  if s.fencedUnit u ∧ unitClass u ≠ 0x09 then s
  else
    let d := unitDie u
    let i := unitInst u
    match unitClass u with
    | 0x01 => s.fenceLane (d * 16 + i / 8) (i % 8)
    -- a DISABLED port keeps its state and is held down once it is configured (R186)
    | 0x02 => match s.placeOf i with | some p => s.fencePort p | none => s.markFenced u
    | 0x03 => s.fenceGroup (d * 16 + i)
    | 0x04 => s.fenceEngine (d * 64 + i / 8) (i % 8)
    | 0x05 => s.fenceCore (d * 64 + i)
    | 0x06 => s.fenceCluster (d * 8 + i)
    | 0x07 => s.fencePc (d * 4 + i / 32) (i % 32)
    | 0x08 => s.fenceStack (d * 4 + i)
    | 0x09 => s.fenceLink d i
    | _ => s

/-- A unit raises one of its fault bits and the device takes the action of its class (R686 to R688, R692). A die-to-die link's
fault is raised on both dies that the link joins, each naming it by its own peer number (R42, R47, R687). -/
def Dev.fault (s : Dev) (d blk inst bit : Nat) (u reporter : BitVec 32) (inj : Bool) : Dev :=
  let s := s.raise d blk inst bit u reporter inj
  let s := match peerUnit u with
    | some v => if blk = 0x04 then s.raise (unitDie v) blk inst bit v (if reporter = u then v else reporter) inj else s
    | none => s
  match faultClass blk bit with
  | some 2 => s.fenceUnit u
  | _ => s

def Dev.faultOwn (s : Dev) (d blk inst bit : Nat) (u : BitVec 32) : Dev := s.fault d blk inst bit u u false

/-! ### Memory errors (R605, R662, R666, R667) -/

/-- A pseudo-channel whose errors have reached the limit of their window is fenced (R667). -/
def Dev.pcLimit (s : Dev) (x : Nat) : Dev :=
  let st := x / 32; let pc := x % 32
  if Map.get s.memSt.pcErr x 0 ≥ max 1 (s.cfg (hbmPg st + 0x1008) 7 0) ∧ !s.fencedUnit (pcUnit st pc) then
    s.faultOwn (st / 4) 0x0B (st % 4) 2 (pcUnit st pc)
  else s

/-- Every pseudo-channel with errors in its window. -/
def Dev.pcLimits (s : Dev) : Dev := (s.memSt.pcErr.map (·.1)).foldl Dev.pcLimit s

/-- An uncorrectable HBM burst at a local address, and what its count then does. -/
def Dev.hbmUncorrBy (s : Dev) (a : Nat) (reporter : BitVec 32) (inj : Bool) : Dev :=
  (s.hbmNote a reporter inj).pcLimit (a / 2 ^ 37 * 32 + pcOf a)

def Dev.hbmUncorr (s : Dev) (a : Nat) : Dev := s.hbmUncorrBy a (pcUnit (a / 2 ^ 37) (pcOf a)) false

/-- Log an uncorrectable word of a cluster (R666, R677). -/
def Dev.logRmem (s : Dev) (k : Nat) (ws : Bool) (core off : Nat) : Dev :=
  if s.lv (rmemPg k + 0x130) 63 63 = 1 then s
  else s.putLv (rmemPg k + 0x130) (2 ^ 63 + b2n ws * 2 ^ 62 + core * 2 ^ 24 + (off - off % 32))

/-- A word of a core's working SRAM met by a demand access (R605). -/
def Dev.wsramEcc (s : Dev) (c off : Nat) (e : Ecc) : Dev :=
  let ecc := s.wordEcc [coreUnit c] e
  let s := s.unhurt [coreUnit c]
  match ecc with
  | .clean => s
  | .corrected => (s.count (rmemPg (c / 8) + 0x118)).faultOwn (c / 64) 0x09 (c % 64) 0 (coreUnit c)
  | .uncorrectable => (s.logRmem (c / 8) true (c % 8) off).faultOwn (c / 64) 0x09 (c % 64) 1 (coreUnit c)

/-- A burst of HBM met with an error or without, and what its count then does. -/
def Dev.hbmEcc (s : Dev) (a : Nat) (ecc : Ecc) : Dev :=
  let m := s.hbmMeets a ecc
  if m.2 then m.1.pcLimit (a / 2 ^ 37 * 32 + pcOf a) else m.1

/-- What a read of memory at a local address meets (R662, R666, R723). -/
def Dev.eccAt (s : Dev) (a : Nat) (ecc : Ecc) : Dev :=
  match regionOf a with
  | .hbm _ _ => s.hbmEcc a ecc
  | .wsram c => s.wsramEcc c (a % 0x200000) ecc
  | _ => s

/-- The read of a local address meets an error or none: whether it is lost. -/
def Dev.meetEcc (s : Dev) (a : Nat) (ecc : Ecc) : Dev × Bool := (s.eccAt a ecc, s.wordEcc (wordUnits a) ecc == .uncorrectable)

end Sys2Proof.Machine
end

