-- ==== Sys2Proof/Machine/Control.lean ====
section
/-! DEFINITION. Threads and their control slot (chapter 11): the words that hold no slot, the control operations of R561, and
the events of threads, asynchronous operations and completion queues. -/

namespace Sys2Proof.Machine

/-! ### Operands (R560) -/

/-- The operand fields of a control slot. -/
structure Ctl where
  cd : Nat
  ca : Nat
  cb : Nat
  k  : Nat
  p  : Nat
  rsv : Nat
  imm : Nat
  deriving DecidableEq, Repr

def Ctl.of (x : BitVec 52) : Ctl :=
  let n := x.toNat
  { cd := bits n 51 48, ca := bits n 47 44, cb := bits n 43 40, k := bits n 39 37, p := bits n 36 34, rsv := bits n 33 32,
    imm := bits n 31 0 }

/-- IMM sign-extended to 64 bits. -/
def Ctl.immS (o : Ctl) : Word := BitVec.ofInt 64 (sext 32 o.imm)

/-- A control slot that completes with a status and writes nothing. -/
def Dev.ctlFail (s : Dev) (sc : SlotCtx) (status : Nat) : Dev := s.slot sc [] [] 0 false fun s t => s.slotStatus t status true

/-- A control slot that writes registers of its thread; a reserved operand bit makes it MALFORMED (R559). -/
def Dev.ctlSlot (s : Dev) (sc : SlotCtx) (o : Ctl) (rs ws : List RegId) (lat : Nat) (f : Thread → List WriteTo) : Dev :=
  if o.rsv ≠ 0 then s.ctlFail sc 8 else s.regSlot sc rs ws lat f

/-- A control slot that writes counter CD from the thread's registers. -/
def Dev.ctrSlot (s : Dev) (sc : SlotCtx) (x : BitVec 52) (rs : Ctl → List RegId) (f : Ctl → Thread → Word) : Dev :=
  let o := Ctl.of x
  s.ctlSlot sc o (rs o) [.ctr o.cd] 1 fun t => [.counter o.cd (f o t)]

/-- A control slot with another effect. -/
def Dev.ctlAct (s : Dev) (sc : SlotCtx) (o : Ctl) (rs : List RegId) (f : Dev → Nat → Dev) : Dev :=
  if o.rsv ≠ 0 then s.ctlFail sc 8 else s.slot sc rs [] 0 false f

/-- A control slot whose registers may name absent hardware, which comes before a reserved operand bit (R20, R559). -/
def Dev.ctlAim (s : Dev) (sc : SlotCtx) (o : Ctl) (rs : List RegId) (absent : Dev → Nat → Bool) (f : Dev → Nat → Dev) : Dev :=
  s.slot sc rs [] 0 false fun s t =>
    if absent s t then s.slotStatus t 2 true else if o.rsv ≠ 0 then s.slotStatus t 8 true else f s t

/-! ### Counters -/

def csetEffect (sc : SlotCtx) (x : BitVec 52) (s : Dev) : Dev := s.ctrSlot sc x (fun _ => []) fun o _ => o.immS
def execCset (sc : SlotCtx) (x : BitVec 52) (s : State) := run (csetEffect sc x) s

def csethiEffect (sc : SlotCtx) (x : BitVec 52) (s : Dev) : Dev :=
  s.ctrSlot sc x (fun o => [.ctr o.cd]) fun o t => BitVec.ofNat 64 (o.imm * 2 ^ 32 + (t.ctr o.cd).toNat % 2 ^ 32)
def execCsethi (sc : SlotCtx) (x : BitVec 52) (s : State) := run (csethiEffect sc x) s

def caddEffect (sc : SlotCtx) (x : BitVec 52) (s : Dev) : Dev :=
  s.ctrSlot sc x (fun o => [.ctr o.ca, .ctr o.cb]) fun o t => t.ctr o.ca + t.ctr o.cb + o.immS
def execCadd (sc : SlotCtx) (x : BitVec 52) (s : State) := run (caddEffect sc x) s

def caddiEffect (sc : SlotCtx) (x : BitVec 52) (s : Dev) : Dev := s.ctrSlot sc x (fun o => [.ctr o.ca]) fun o t => t.ctr o.ca + o.immS
def execCaddi (sc : SlotCtx) (x : BitVec 52) (s : State) := run (caddiEffect sc x) s

def cmuliEffect (sc : SlotCtx) (x : BitVec 52) (s : Dev) : Dev := s.ctrSlot sc x (fun o => [.ctr o.ca]) fun o t => t.ctr o.ca * o.immS
def execCmuli (sc : SlotCtx) (x : BitVec 52) (s : State) := run (cmuliEffect sc x) s

def cshlEffect (sc : SlotCtx) (x : BitVec 52) (s : Dev) : Dev :=
  s.ctrSlot sc x (fun o => [.ctr o.ca]) fun o t => t.ctr o.ca <<< (o.imm % 64)
def execCshl (sc : SlotCtx) (x : BitVec 52) (s : State) := run (cshlEffect sc x) s

def cshrEffect (sc : SlotCtx) (x : BitVec 52) (s : Dev) : Dev :=
  s.ctrSlot sc x (fun o => [.ctr o.ca]) fun o t => t.ctr o.ca >>> (o.imm % 64)
def execCshr (sc : SlotCtx) (x : BitVec 52) (s : State) := run (cshrEffect sc x) s

/-! ### Comparators and VL -/

/-- A relation of R562 on two counters. -/
def relHolds (rel : Nat) (a b : Word) : Bool :=
  match rel with
  | 0 => a == b
  | 1 => a != b
  | 2 => a.slt b
  | 3 => !a.slt b
  | 4 => a.ult b
  | _ => !a.ult b

def cmpsetEffect (sc : SlotCtx) (x : BitVec 52) (s : Dev) : Dev :=
  let o := Ctl.of x
  if o.cd ≥ 6 then s.ctlFail sc 8
  else s.ctlSlot sc o [] [.cmp o.k] 1 fun _ => [.cmp o.k o.ca o.cd o.cb (BitVec.ofNat 32 o.imm) o.p]
def execCmpset (sc : SlotCtx) (x : BitVec 52) (s : State) := run (cmpsetEffect sc x) s

/-- The outcome of comparator `k` (R563). -/
def Thread.cmpOut (t : Thread) (k : Nat) : Bool :=
  let c := t.cmp k
  relHolds c.rel (t.ctr c.a) (t.ctr c.b + BitVec.ofInt 64 (sext 32 c.imm.toNat))

/-- CMPRUN reads the selected comparators and their counters. -/
def Thread.cmpReads (t : Thread) (ks : List Nat) : List RegId := ks.flatMap fun k => [.cmp k, .ctr (t.cmp k).a, .ctr (t.cmp k).b]

def cmprunEffect (sc : SlotCtx) (x : BitVec 52) (s : Dev) : Dev :=
  let o := Ctl.of x
  let th := s.thread sc.thread.val
  let ks := maskList 8 o.imm
  if o.imm ≥ 256 then s.ctlFail sc 8
  else if o.rsv = 0 ∧ ks.isEmpty then s.ctlFail sc 1
  else
    let targets := (ks.map fun k => (th.cmp k).target).filter (· ≠ 0)
    s.ctlSlot sc o (th.cmpReads ks) (targets.map RegId.pred) 2 fun t =>
      (ks.filter fun k => (t.cmp k).target ≠ 0).map fun k => .pred (t.cmp k).target (t.cmpOut k)
def execCmprun (sc : SlotCtx) (x : BitVec 52) (s : State) := run (cmprunEffect sc x) s

def setvlEffect (sc : SlotCtx) (x : BitVec 52) (s : Dev) : Dev :=
  let o := Ctl.of x
  s.ctlSlot sc o [.ctr o.ca] [.vl] 2 fun t => [.vl (min (t.ctr o.ca + o.immS).toNat 256)]
def execSetvl (sc : SlotCtx) (x : BitVec 52) (s : State) := run (setvlEffect sc x) s

/-! ### Jumps -/

def jmpEffect (sc : SlotCtx) (x : BitVec 52) (s : Dev) : Dev :=
  let o := Ctl.of x
  s.ctlSlot sc o [] [] 1 fun t =>
    [.pc (t.word + BitVec.ofNat 44 (2 + 8 * sc.slots.val) + BitVec.ofInt 44 (2 * sext 32 o.imm))]
def execJmp (sc : SlotCtx) (x : BitVec 52) (s : State) := run (jmpEffect sc x) s

def jmpcEffect (sc : SlotCtx) (x : BitVec 52) (s : Dev) : Dev :=
  let o := Ctl.of x
  s.ctlSlot sc o [.ctr o.ca] [] 1 fun t => [.pc (pcOf44 (t.ctr o.ca).toNat)]
def execJmpc (sc : SlotCtx) (x : BitVec 52) (s : State) := run (jmpcEffect sc x) s

/-! ### Waits -/

/-- Begin a wait. -/
def Dev.beginWait (s : Dev) (t : Nat) (on : Wait) (p : Nat) : Dev :=
  s.updThread t fun x => { x with state := tsWaiting, wait := some { on := on, p := p, start := s.ticks } }

/-- A wait that ends as it starts: its predicate counts from the step after (R564). -/
def Dev.waitNow (s : Dev) (t p : Nat) (ok : Bool) : Dev := if p = 0 then s else s.updThread t fun x => x.post 2 (.pred p ok)

/-- What SIGNAL and WAITOBJ meet at a local object (R591). -/
def Dev.objStatus (s : Dev) (t o : Nat) : Nat :=
  if !s.coreUp (objCore o) then 2
  else if !objValid (s.objCfg o) then 8
  else if objPart (s.objCfg o) ≠ s.corePart (t / 16) then 0x0A
  else 0

def waitobjEffect (sc : SlotCtx) (x : BitVec 52) (s : Dev) : Dev :=
  let o := Ctl.of x
  s.ctlAim sc o [.ctr o.ca, .ctr o.cb] (fun s t => s.objStatus t (((s.thread t).ctr o.ca).toNat % 65536) == 2) fun s t =>
    let th := s.thread t
    let a := (th.ctr o.ca).toNat
    let n := a % 65536
    let st := s.objStatus t n
    let kind := objKind (s.objCfg n)
    let bad := a ≥ 65536 ∨ o.cd ≥ 3 ∨ (o.cd = 1 ∧ kind ≠ 1) ∨ (o.cd = 2 ∧ kind ≠ 2)
    if bad ∨ st = 8 then s.slotStatus t 8 true
    else if st ≠ 0 then s.slotStatus t st true
    else
      let bound := (th.ctr o.cb + o.immS).toNat % 2 ^ 32
      let s := if o.cd = 2 then s.postObj n 1 else s
      let v := s.obj n
      let gen := v.2.toNat
      if waitMet v o.cd bound gen then
        (if o.cd = 1 then s.setObj n (v.1 - BitVec.ofNat 32 bound, v.2) else s).waitNow t o.p true
      else s.beginWait t (.obj n o.cd bound gen) o.p
def execWaitobj (sc : SlotCtx) (x : BitVec 52) (s : State) := run (waitobjEffect sc x) s

def waitbeatEffect (sc : SlotCtx) (x : BitVec 52) (s : Dev) : Dev :=
  let o := Ctl.of x
  s.ctlAct sc o [.ctr o.ca] fun s t =>
    let b := (s.thread t).ctr o.ca
    if !s.aligned then ((s.countEnded (threadDie t)).waitNow t o.p false).finishOp t 9 (s.wordId t)
    else if b < s.beat then (s.count (beatPg (threadDie t) + 0x1B0)).waitNow t o.p true
    else if b = s.beat then s.waitNow t o.p true
    else s.beginWait t (.beat b) o.p
def execWaitbeat (sc : SlotCtx) (x : BitVec 52) (s : State) := run (waitbeatEffect sc x) s

def waitcntEffect (sc : SlotCtx) (x : BitVec 52) (s : Dev) : Dev :=
  let o := Ctl.of x
  s.ctlAct sc o [.ctr o.ca, .ctr o.cb] fun s t =>
    let th := s.thread t
    let bound := (th.ctr o.cb + o.immS).toInt
    if (th.ctr o.ca).toInt ≥ bound then s.waitNow t o.p true else s.beginWait t (.cnt o.ca bound) o.p
def execWaitcnt (sc : SlotCtx) (x : BitVec 52) (s : State) := run (waitcntEffect sc x) s

/-- WAITOBJ and WAITCNT end after CORE_WAIT_LIMIT beats (R594). -/
def waitTimeoutEffect (t : ThreadNo) (s : Dev) : Dev :=
  let n := t.val
  let limit := s.cfg (corePg (n / 16) + 0x1008) 31 0
  match (s.thread n).wait with
  | none => s
  | some w =>
    let timed := match w.on with | .beat _ => false | _ => true
    if timed && limit != 0 && decide (s.ticks ≥ w.start + limit) then s.timeoutWait n true else s
def execWaitTimeout (t : ThreadNo) (s : State) := run (waitTimeoutEffect t) s

/-! ### SIGNAL, LAUNCH -/

/-- What SIGNAL meets at the object that c[CA] names: at another node, nothing here. -/
def Dev.signalStatus (s : Dev) (t : Nat) (o : Ctl) : Nat :=
  let a := ((s.thread t).ctr o.ca).toNat
  if a / 2 ^ 44 ≠ s.own then 0 else s.objStatus t (a % 65536)

def signalEffect (sc : SlotCtx) (x : BitVec 52) (s : Dev) : Dev :=
  let o := Ctl.of x
  s.ctlAim sc o [.ctr o.ca] (fun s t => s.signalStatus t o == 2) fun s t =>
    let a := ((s.thread t).ctr o.ca).toNat
    let remote := a / 2 ^ 44 ≠ s.own
    let st := s.signalStatus t o
    if bits a 43 16 ≠ 0 ∨ st = 8 then s.slotStatus t 8 true
    else if st ≠ 0 then s.slotStatus t st true
    else if o.imm = 0 then s.slotStatus t 1 true
    else if remote then
      s.sendFormed (t / 1024) (mkPkt ptDoorbell a s.own 0 (s.corePart (t / 16)) (s.coreClass (t / 16)) 1 (leBytes 4 o.imm ++ leBytes 4 0))
    else s.postObj (a % 65536) o.imm
def execSignal (sc : SlotCtx) (x : BitVec 52) (s : State) := run (signalEffect sc x) s

def launchEffect (sc : SlotCtx) (x : BitVec 52) (s : Dev) : Dev :=
  let o := Ctl.of x
  let now := bit o.imm 0
  let bc := bits o.imm 7 4
  s.ctlAim sc o ([.ctr o.ca, .ctr o.cb, .ctr o.cd] ++ if now then [] else [.ctr bc])
      (fun s t => !s.coreUp (((s.thread t).ctr o.ca).toNat % 4096 / 16)) fun s t =>
    let th := s.thread t
    let a := (th.ctr o.ca).toNat
    let n := a % 4096
    if a ≥ 4096 ∨ bits o.imm 31 8 ≠ 0 ∨ bits o.imm 3 1 ≠ 0 then s.slotStatus t 8 true
    else if s.startable n = false then s.slotStatus t 8 true
    else if s.corePart (n / 16) ≠ s.corePart (t / 16) then s.slotStatus t 0x0A true
    else
      let b := th.ctr bc
      let s := s.pendThread n (pcOf44 (th.ctr o.cb).toNat) (th.ctr o.cd) (if now then none else some b)
      if now then s else s.launchTimed n (threadDie t) b
def execLaunch (sc : SlotCtx) (x : BitVec 52) (s : State) := run (launchEffect sc x) s

/-! ### Descriptors, SYNC, HALT, CQHEAD -/

/-- `n` bytes at a global address lie in the core's own working SRAM (R551). -/
def Dev.inOwnSram (s : Dev) (c a n : Nat) : Bool :=
  a / 2 ^ 44 == s.own && decide (wsramBase c ≤ a % 2 ^ 44) && decide (a % 2 ^ 44 + n ≤ wsramBase c + 0x200000)

/-- Units of a full tile: 256 elements, or eight MX blocks. -/
def tileUnits (fmt : Nat) : Nat := if isMx fmt then 8 else 256

/-- Loading a descriptor clears the maps at its META (R506). -/
def Dev.clearMaps (s : Dev) (t : Nat) (d : Desc) : Dev :=
  match d.meta_ with
  | none => s
  | some a =>
    let n := 32 * (d.units / max 1 d.units0 * ceilDiv d.units0 (tileUnits d.fmt))
    if a / 2 ^ 44 ≠ s.own ∨ n = 0 ∨ s.verdict (.part (s.corePart (t / 16))) true (a % 2 ^ 44) n ≠ .ok then s
    else s.zeroMem (a % 2 ^ 44) n

def descEffect (sc : SlotCtx) (x : BitVec 52) (s : Dev) : Dev :=
  let o := Ctl.of x
  -- the image can be read, and names absent hardware (R578)
  let absent := fun (s : Dev) (t : Nat) =>
    let a := ((s.thread t).ctr o.ca).toNat
    a % 64 == 0 && s.inOwnSram (t / 16) a 64 && s.descStatus (s.rawBytes (a % 2 ^ 44) 64) == 2
  s.ctlAim sc o [.ctr o.ca] absent fun s t =>
    let a := ((s.thread t).ctr o.ca).toNat
    let h := o.imm % 4096
    if a % 64 ≠ 0 ∨ !s.inOwnSram (t / 16) a 64 then s.slotStatus t 8 true
    else
      let img := s.rawBytes (a % 2 ^ 44) 64
      if h = 0 ∨ s.descStatus img ≠ 0 then s.slotStatus t 8 true
      else
        let d := Desc.read img
        (if d.valid then s.clearMaps t d else s).updCore (t / 16) fun c => { c with descPend := Map.insert c.descPend h (t, img) }
def execDesc (sc : SlotCtx) (x : BitVec 52) (s : State) := run (descEffect sc x) s

def syncEffect (sc : SlotCtx) (x : BitVec 52) (s : Dev) : Dev :=
  s.ctlAct sc (Ctl.of x) [] fun s t => s.updThread t fun th => { th with syncing := true }
def execSync (sc : SlotCtx) (x : BitVec 52) (s : State) := run (syncEffect sc x) s

def syncPublishEffect (t : ThreadNo) (s : Dev) : Dev := s.publish t.val
def execSyncPublish (t : ThreadNo) (s : State) := run (syncPublishEffect t) s

def haltEffect (sc : SlotCtx) (x : BitVec 52) (s : Dev) : Dev :=
  s.ctlAct sc (Ctl.of x) [] fun s t => s.updThread t fun th => { th with state := tsIdle, reason := 1 }
def execHalt (sc : SlotCtx) (x : BitVec 52) (s : State) := run (haltEffect sc x) s

def cqheadEffect (sc : SlotCtx) (x : BitVec 52) (s : Dev) : Dev :=
  let o := Ctl.of x
  s.ctlAct sc o [.ctr o.ca] fun s t =>
    s.setLv (corePg (t / 16) + 0x218 + 0x20 * (t % 16)) 31 0 ((s.thread t).ctr o.ca).toNat
def execCqhead (sc : SlotCtx) (x : BitVec 52) (s : State) := run (cqheadEffect sc x) s

/-! ### Words without slots, and reserved operations (R555 to R559) -/

/-- Slots that a header shows. -/
def hdrSlots (h : BitVec 16) : Nat := (maskList 8 h.toNat).length

/-- Issue a word that holds no slot to execute. -/
def Dev.bareWord (s : Dev) (t : Nat) (h : BitVec 16) (cond : Bool) : Dev :=
  if s.canIssue t && !(s.thread t).mid && cond then
    let b := s.beginWord t (2 + 8 * hdrSlots h)
    if b.2 then (b.1.stepThread t (2 + 8 * hdrSlots h)).serveCnt t else b.1
  else s

/-- The guard of a word holds (R555). -/
def Thread.wordGuard (x : Thread) (h : BitVec 16) : Bool := xor (x.pred (bits h.toNat 10 8)) (bit h.toNat 11)

def wordSkipEffect (t : ThreadNo) (h : BitVec 16) (s : Dev) : Dev :=
  s.bareWord t.val h (h.toNat / 4096 == 0 && !(s.thread t.val).wordGuard h)
def execWordSkip (t : ThreadNo) (h : BitVec 16) (s : State) := run (wordSkipEffect t h) s

def wordEmptyEffect (t : ThreadNo) (h : BitVec 16) (s : Dev) : Dev := s.bareWord t.val h (h.toNat / 4096 == 0 && hdrSlots h == 0)
def execWordEmpty (t : ThreadNo) (h : BitVec 16) (s : State) := run (wordEmptyEffect t h) s

def wordMalformedEffect (t : ThreadNo) (h : BitVec 16) (s : Dev) : Dev :=
  if s.canIssue t.val && !(s.thread t.val).mid && h.toNat / 4096 != 0 then s.faultThread t.val 3 else s
def execWordMalformed (t : ThreadNo) (h : BitVec 16) (s : State) := run (wordMalformedEffect t h) s

/-- The OP is reserved in the slot (R561, R583, R614, R621, R625, R632, R633). -/
def opReserved (kind : SlotKind) (op : Nat) : Bool :=
  op == 0 ||
    match kind with
    | .reduction => !((decide (1 ≤ op) && decide (op ≤ 8)) || (decide (0x11 ≤ op) && decide (op ≤ 0x18)))
    | .vector0 | .vector1 => decide (op ≥ 9)
    | .tile | .sparse | .sort => decide (op ≥ 5)
    | .move => decide (op ≥ 7)
    | .control => decide (op ≥ 0x16)

/-- The queue and the engine of a slot whose operations are asynchronous. -/
def slotQueue (kind : SlotKind) : Option (AsyncQ × Nat) :=
  match kind with
  | .reduction => some (.reduction, 0)
  | .tile => some (.tile, 2)
  | .sparse => some (.sparse, 3)
  | .sort => some (.sort, 4)
  | _ => none

def slotReservedOpEffect (sc : SlotCtx) (kind : SlotKind) (op : BitVec 8) (x : BitVec 52) (s : Dev) : Dev :=
  if !opReserved kind op.toNat then s
  else
    match slotQueue kind with
    | some (q, e) =>
      s.slot sc [] [] 0 (s.queueFull sc.thread.val q) fun s t =>
        s.enqueueOp t q (bits x.toNat 3 0) (if s.engineUp (t / 16) e then 8 else 2) (s.wordId t) false []
    | none =>
      let vector := kind == .vector0 || kind == .vector1
      s.slot sc [] [] 0 false fun s t => s.slotStatus t (if vector && !s.engineUp (t / 16) 1 then 2 else 8) (!vector)
def execSlotReservedOp (sc : SlotCtx) (kind : SlotKind) (op : BitVec 8) (x : BitVec 52) (s : State) :=
  run (slotReservedOpEffect sc kind op x) s

/-! ### Events of threads -/

def threadStartEffect (t : ThreadNo) (pc : BitVec 44) (s : Dev) : Dev := s.startThread t.val (pcOf44 pc.toNat)
def execThreadStart (t : ThreadNo) (pc : BitVec 44) (s : State) := run (threadStartEffect t pc) s

def threadStopEffect (t : ThreadNo) (s : Dev) : Dev := s.stopThread t.val
def execThreadStop (t : ThreadNo) (s : State) := run (threadStopEffect t) s

def threadPendingRunEffect (t : ThreadNo) (s : Dev) : Dev := if s.fatal then s else s.pendingRun t.val
def execThreadPendingRun (t : ThreadNo) (s : State) := run (threadPendingRunEffect t) s

/-- A write of CORE_CTRL.RESET (R603, R74). -/
def coreCtrlResetEffect (c : CoreNo) (on : Bool) (s : Dev) : Dev :=
  let n := c.val
  if !s.corePresent n then s
  else
    let s := s.setLv (corePg n + 0x100) 0 0 (b2n on)
    if on then (s.updCore n fun k => { k with inReset := true }).coreDown n
    else s.updCore n fun k => { k with inReset := false }
def execCoreCtrlReset (c : CoreNo) (on : Bool) (s : State) := run (coreCtrlResetEffect c on) s

/-- The operation at the head of a queue completes (R569 to R573). -/
def asyncCompleteEffect (c : CoreNo) (q : AsyncQ) (s : Dev) : Dev :=
  match (s.core c.val).queue q with
  | [] => s
  | o :: rest =>
    let entry := o.status ≥ 2 && !o.owed
    if o.coll || !o.remote.isEmpty then s
    else if s.tcqOwing o.thread || (entry && !s.tcqRoom o.thread) then s
    else
      let s := s.updCore c.val fun k => k.setQueue q rest
      let s := s.updThread o.thread fun x => ({ x with outstanding := x.outstanding - 1 } : Thread).bump o.cnt
      let s := if o.owed then (if o.status = 0 then s else s.updThread o.thread fun x => { x with last := o.status })
        else s.finishOp o.thread o.status o.wrId
      s.serveCnt o.thread
def execAsyncComplete (c : CoreNo) (q : AsyncQ) (s : State) := run (asyncCompleteEffect c q) s

/-- The oldest entry a thread is owed is written once its queue has room (R234, R572, R573). -/
def cqEntryWriteEffect (t : ThreadNo) (s : Dev) : Dev :=
  let n := t.val
  match (s.core (n / 16)).cqWait.find? (·.1 == n) with
  | none => s
  | some e =>
    if !s.tcqRoom n then s
    else
      let s := s.updCore (n / 16) fun k => { k with cqWait := k.cqWait.erase e }
      let l := s.tcqLog n
      let base := s.lv (corePg (n / 16) + 0x210 + 0x20 * (n % 16)) 43 0
      let tail := (s.tcqIdx n).1
      let at_ := base + 16 * (tail % 2 ^ max l 1)
      if l = 0 ∨ !s.inOwnSram (n / 16) (s.own * 2 ^ 44 + at_) 16 then s.count (corePg (n / 16) + 0x138)
      else
        let phase := xor Config.firstPhase (tail / 2 ^ l % 2 == 1)
        let img := patch e.2.bytes 1 [BitVec.ofNat 8 (leAt e.2.bytes 1 1 + b2n phase)]
        (s.poke at_ img).setLv (corePg (n / 16) + 0x218 + 0x20 * (n % 16)) 63 32 (tail + 1)
def execCqEntryWrite (t : ThreadNo) (s : State) := run (cqEntryWriteEffect t) s

end Sys2Proof.Machine
end

