-- ==== Sys2Proof/Machine/Move.lean ====
section
/-! DEFINITION. The move slot (R583 to R585): vector and counter loads and stores, COPY, COLL; the work request image
(R232) that COLL and the adapters share; and the answers to the remote transactions of threads (R552). -/

namespace Sys2Proof.Machine

/-! ### Operands (R560) -/

structure Mv where
  v   : Nat
  hd  : Nat
  ha  : Nat
  ca  : Nat
  cb  : Nat
  cnt : Nat
  rsv : Nat
  deriving DecidableEq, Repr

def Mv.of (x : BitVec 52) : Mv :=
  let n := x.toNat
  { v := bits n 51 47, hd := bits n 46 35, ha := bits n 34 23, ca := bits n 22 19, cb := bits n 18 15, cnt := bits n 14 11,
    rsv := bits n 10 0 }

/-- A slot that completes at once with a status, having read `rs`. -/
def Dev.failSlot (s : Dev) (sc : SlotCtx) (rs : List RegId) (status : Nat) : Dev :=
  s.slot sc rs [] 0 false fun s t => s.slotStatus t status true

/-- An asynchronous slot: queued on `q` with the status that `f` gives it. -/
def Dev.asyncSlot (s : Dev) (sc : SlotCtx) (q : AsyncQ) (f : Dev → Nat → Dev) : Dev :=
  s.slot sc [] [] 0 (s.queueFull sc.thread.val q) f

/-! ### VLD, VST, LDC, STC -/

/-- Lanes of a vector register of `e`-byte elements (R582). -/
def lanesFor (e : Nat) : Nat := if e = 0 then 0 else 256 / e

/-- Addresses of the elements that a VLD or VST moves: lane and global address, for the lanes within the tensor. -/
def vlanes (d : Desc) (first n : Nat) : List (Nat × Nat) :=
  ((List.range n).filter fun i => decide (first + i < d.count)).map fun i => (i, d.unitAddr (first + i))

/-- The status of a VLD or VST, and its descriptor (R551, R560, R582). MX elements have no whole bytes, so no lane holds
them (log 30). -/
def Dev.vmemStatus (s : Dev) (t : Nat) (o : Mv) : Nat × Option Desc :=
  if o.rsv ≠ 0 ∨ o.hd ≠ 0 then (8, none)
  else
    match s.desc t o.ha with
    | none => (8, none)
    | some d =>
      let e := elemBytes d.fmt
      let x := s.thread t
      let n := min x.vl (lanesFor e)
      if isMx d.fmt then (8, none)
      else if d.count = 0 then (1, none)
      else if (vlanes d (x.ctr o.ca).toNat n).any fun a => !s.inOwnSram (t / 16) a.2 e then (8, none)
      else (0, some d)

/-- Ones in the lanes `i` of `e` bytes. -/
def laneMask (e : Nat) (l : List Nat) : Nat := l.foldl (fun m i => m ||| ((2 ^ (8 * e) - 1) * 2 ^ (8 * e * i))) 0

def vldEffect (sc : SlotCtx) (x : BitVec 52) (s : Dev) : Dev :=
  let o := Mv.of x
  let t := sc.thread.val
  match s.vmemStatus t o with
  | (_, some d) =>
    let e := elemBytes d.fmt
    s.regSlot sc [.ctr o.ca, .vl] [.vreg o.v] 8 fun th =>
      let n := min th.vl (lanesFor e)
      let val := (vlanes d (th.ctr o.ca).toNat n).foldl (fun v a => v + leNat (s.rawBytes (a.2 % 2 ^ 44) e) * 2 ^ (8 * e * a.1)) 0
      [.vreg o.v (BitVec.ofNat 2048 (laneMask e (List.range n))) (BitVec.ofNat 2048 val)]
  | (st, none) => s.failSlot sc [.ctr o.ca, .vl] st
def execVld (sc : SlotCtx) (x : BitVec 52) (s : State) := run (vldEffect sc x) s

def vstEffect (sc : SlotCtx) (x : BitVec 52) (s : Dev) : Dev :=
  let o := Mv.of x
  let t := sc.thread.val
  match s.vmemStatus t o with
  | (_, some d) =>
    let e := elemBytes d.fmt
    s.regSlot sc [.ctr o.ca, .vl, .vreg o.v] [] 4 fun th =>
      let n := min th.vl (lanesFor e)
      (vlanes d (th.ctr o.ca).toNat n).map fun a =>
        .mem (a.2 % 2 ^ 44) (leBytes e ((th.vreg o.v).toNat / 2 ^ (8 * e * a.1)))
  | (st, none) => s.failSlot sc [.ctr o.ca, .vl, .vreg o.v] st
def execVst (sc : SlotCtx) (x : BitVec 52) (s : State) := run (vstEffect sc x) s

/-- The address of an LDC or STC is 8-byte aligned and in the core's own working SRAM (R551, R583). -/
def Dev.ldcOk (s : Dev) (t : Nat) (o : Mv) : Bool :=
  let a := ((s.thread t).ctr o.ca).toNat
  o.rsv == 0 && o.hd == 0 && o.ha == 0 && a % 8 == 0 && s.inOwnSram (t / 16) a 8

def ldcEffect (sc : SlotCtx) (x : BitVec 52) (s : Dev) : Dev :=
  let o := Mv.of x
  if s.ldcOk sc.thread.val o then
    s.regSlot sc [.ctr o.ca] [.ctr o.cb] 8 fun th =>
      [.counter o.cb (BitVec.ofNat 64 (leNat (s.rawBytes ((th.ctr o.ca).toNat % 2 ^ 44) 8)))]
  else s.failSlot sc [.ctr o.ca] 8
def execLdc (sc : SlotCtx) (x : BitVec 52) (s : State) := run (ldcEffect sc x) s

def stcEffect (sc : SlotCtx) (x : BitVec 52) (s : Dev) : Dev :=
  let o := Mv.of x
  if s.ldcOk sc.thread.val o then
    s.regSlot sc [.ctr o.ca, .ctr o.cb] [] 4 fun th =>
      [.mem ((th.ctr o.ca).toNat % 2 ^ 44) (leBytes 8 (th.ctr o.cb).toNat)]
  else s.failSlot sc [.ctr o.ca, .ctr o.cb] 8
def execStc (sc : SlotCtx) (x : BitVec 52) (s : State) := run (stcEffect sc x) s

/-! ### COPY (R552, R553, R583, R666) -/

/-- Pieces of a COPY: source, destination, bytes; both contiguous, up to 8,192 bytes. -/
def joinPieces (e : Nat) : List (Nat × Nat) → List (Nat × Nat × Nat)
  | [] => []
  | (a, b) :: t =>
    match joinPieces e t with
    | (c, d, n) :: r => if c = a + e ∧ d = b + e ∧ n + e ≤ 8192 then (a, b, n + e) :: r else (a, b, e) :: (c, d, n) :: r
    | [] => [(a, b, e)]

/-- Read one element for a COPY: a register address is an access of the element's width (R62, R66). -/
def Dev.copyGet (s : Dev) (i : Initiator) (who : Who) (a e : Nat) : Dev × List Byte :=
  let a := a % 2 ^ 44
  if regionOf a = .regs then s.busBytes i a e
  else if s.verdict who false a e = .ok then (s, s.rawBytes a e)
  else (s, List.replicate e 0)

/-- Write one element for a COPY. -/
def Dev.copyPut (s : Dev) (i : Initiator) (who : Who) (a : Nat) (l : List Byte) : Dev :=
  let a := a % 2 ^ 44
  if regionOf a = .regs then s.busStore i a l
  else if s.verdict who true a l.length = .ok then s.poke a l
  else s

/-- Move one piece within the node, element by element (the silent rule reads zeros and drops writes, R62). -/
def Dev.copyLocal (s : Dev) (i : Initiator) (who : Who) (e : Nat) : Nat → Nat → Nat → Dev
  | 0, _, _ => s
  | k + 1, a, b => let r := s.copyGet i who a e; (r.1.copyPut i who b r.2).copyLocal i who e k (a + e) (b + e)

/-- Gather the elements of a piece whose destination is another node. -/
def Dev.copyGather (s : Dev) (i : Initiator) (who : Who) (e : Nat) : Nat → Nat → Dev × List Byte
  | 0, _ => (s, [])
  | k + 1, a =>
    let r := s.copyGet i who a e
    let t := r.1.copyGather i who e k (a + e)
    (t.1, r.2 ++ t.2)

/-- The local parts of a COPY that its permissions and the state of the memory stop (R553, R643, R658, R667). -/
def Dev.copyStatus (s : Dev) (who : Who) (ps : List (Nat × Nat × Nat)) : Nat :=
  let src := (ps.filter fun p => p.1 / 2 ^ 44 == s.own).map fun p => (p.1, p.2.2)
  let dst := (ps.filter fun p => p.2.1 / 2 ^ 44 == s.own).map fun p => (p.2.1, p.2.2)
  worse (s.runsStatus who false src) (s.runsStatus who true dst)

/-- Count the refusals of a COPY's local parts; register addresses count for themselves. -/
def Dev.copyCount (s : Dev) (who : Who) (ps : List (Nat × Nat × Nat)) : Dev :=
  let here := fun (a : Nat) => a / 2 ^ 44 == s.own && regionOf (a % 2 ^ 44) != .regs
  let src := (ps.filter fun p => here p.1).map fun p => (p.1, p.2.2)
  let dst := (ps.filter fun p => here p.2.1).map fun p => (p.2.1, p.2.2)
  (s.countRuns who false src).countRuns who true dst

/-- One piece: within the node at once, to or from another node by Porone transactions (R552). Returns the handle of the transaction sent. -/
def Dev.copyPiece (s : Dev) (t e : Nat) (p : Nat × Nat × Nat) : Dev × List Nat :=
  let who := Who.part (s.corePart (t / 16))
  let i := Initiator.thread (Fin.ofNat 4096 t)
  let n := p.2.2
  if p.1 / 2 ^ 44 ≠ s.own then
    (s.remoteSend t true p.1 (readLen n) (.copyTo p.2.1) (s.wordId t), [s.nextHandle (p.1 / 2 ^ 44)])
  else
    let s := if s.verdict who false (p.1 % 2 ^ 44) n = .ok then s.hbmBytes (p.1 % 2 ^ 44) n 0x130 else s
    if p.2.1 / 2 ^ 44 ≠ s.own then
      let r := s.copyGather i who e (n / max 1 e) p.1
      (r.1.remoteSend t false p.2.1 r.2 .copied (s.wordId t), [r.1.nextHandle (p.2.1 / 2 ^ 44)])
    else (s.copyLocal i who e (n / max 1 e) p.1 p.2.1, [])

/-- COPY once its operands are sound. `ecc` is what the read of its first local source byte meets. -/
def Dev.copyRun (s : Dev) (t : Nat) (o : Mv) (a d : Desc) (ecc : Ecc) : Dev :=
  let e := elemBytes a.fmt
  let who := Who.part (s.corePart (t / 16))
  let ps := joinPieces e ((List.range a.units).map fun i => (a.unitAddr i, d.unitAddr i))
  let st := s.copyStatus who ps
  let s := s.copyCount who ps
  if st ≠ 0 then s.enqueueOp t .move o.cnt st (s.wordId t) false []
  else
    let m := match ps.find? (fun p => p.1 / 2 ^ 44 == s.own) with
      | some p => s.meetEcc (p.1 % 2 ^ 44) ecc
      | none => (s, false)
    let s := m.1
    if m.2 then
      s.enqueueOp t .move o.cnt 4 (s.wordId t) false []
    else
      let r := ps.foldl (fun (acc : Dev × List Nat) p => let x := acc.1.copyPiece t e p; (x.1, acc.2 ++ x.2)) (s, [])
      r.1.enqueueOp t .move o.cnt 0 (r.1.wordId t) false r.2

def copyEffect (sc : SlotCtx) (x : BitVec 52) (ecc : Ecc) (s : Dev) : Dev :=
  let o := Mv.of x
  s.asyncSlot sc .move fun s t =>
    let fail := fun st => s.enqueueOp t .move o.cnt st (s.wordId t) false []
    match s.desc t o.ha, s.desc t o.hd with
    | some a, some d =>
      if o.rsv ≠ 0 ∨ a.fmt ≠ d.fmt ∨ a.count ≠ d.count then fail 8
      else if a.count = 0 then fail 1
      else s.copyRun t o a d ecc
    | _, _ => fail 8
def execCopy (sc : SlotCtx) (x : BitVec 52) (ecc : Ecc) (s : State) := run (copyEffect sc x ecc) s

/-! ### The work request image (R232) -/

structure WrImg where
  op     : Nat
  wrId   : BitVec 32
  localA : BitVec 64
  remote : BitVec 64
  length : Nat
  count  : Nat
  group  : BitVec 24
  epoch  : BitVec 16
  first  : BitVec 32
  rank   : Nat
  pattern : Nat
  func   : Nat
  fmt    : Nat
  sat    : Bool
  /-- Every reserved byte and bit is zero. -/
  clean  : Bool
  deriving DecidableEq, Repr

def WrImg.read (l : List Byte) : WrImg :=
  { op := leAt l 0 1, wrId := BitVec.ofNat 32 (leAt l 4 4), localA := BitVec.ofNat 64 (leAt l 8 8),
    remote := BitVec.ofNat 64 (leAt l 16 8), length := leAt l 24 4, count := leAt l 28 4, group := BitVec.ofNat 24 (leAt l 32 3),
    epoch := BitVec.ofNat 16 (leAt l 36 2), first := BitVec.ofNat 32 (leAt l 40 4), rank := leAt l 44 3 % 2 ^ 20,
    pattern := bits (leAt l 48 1) 5 3, func := bits (leAt l 48 1) 2 0, fmt := bits (leAt l 49 1) 4 0, sat := bit (leAt l 49 1) 7,
    clean := leAt l 1 3 == 0 && leAt l 35 1 == 0 && leAt l 38 2 == 0 && leAt l 44 4 / 2 ^ 20 == 0 && bits (leAt l 48 1) 7 6 == 0
      && bits (leAt l 49 1) 6 5 == 0 && (slice l 50 14).all (· == 0) }

/-- A COLL image that breaks a rule on its own fields (R19, R215, R232). -/
def WrImg.collBad (w : WrImg) : Bool :=
  w.op != 3 || !w.clean || !opOk w.pattern w.func || decide (w.fmt ≥ 0x1B) || decide (w.length > 4096)

/-- The member slot of a group that `isMine` selects, by its COL_MEMBER index, and the entry (R389): of the epoch when it is
open, of the active instar otherwise. -/
def Dev.memberSlot (s : Dev) (g : BitVec 24) (ep : BitVec 16) (isMine : Word → Bool) : Option (Nat × Word × GEntry) :=
  match s.epochOf g ep with
  | some e => (e.slots.find? fun x => isMine x.2).map fun x => (x.1, x.2, e.entry)
  | none =>
    if !groupValid s.active g then none
    else
      let en := GEntry.read s.active g.toNat
      let idx := (List.range en.localCount).map (en.localBase + ·)
      (idx.find? fun i => decide (i < 2048) && memberOk (memberWord s.active i) && isMine (memberWord s.active i)).map
        fun i => (i, memberWord s.active i, en)

/-- The epoch may not be opened (R402). -/
def Dev.epochWrong (s : Dev) (g : BitVec 24) (ep : BitVec 16) : Bool :=
  match (s.grp g).number with
  | none => false
  | some n => ep != n && ep != n + 1

/-- Chunks that the member expects (R424). -/
def WrImg.expected (w : WrImg) (e : GEntry) : Nat :=
  if w.pattern = 3 ∧ (w.func = 2 ∨ ((w.func = 1 ∨ w.func = 4) ∧ w.rank = e.rootRank)) then e.members * w.count else w.count

/-- The work that an image starts. -/
def WrImg.work (w : WrImg) (who : Member) (slot : Nat) (e : GEntry) (cnt : Nat) : Work :=
  { who := who, slot := slot, wrId := w.wrId, localA := w.localA, remote := w.remote, length := w.length, count := w.count,
    group := w.group, epoch := w.epoch, first := w.first, rank := w.rank, pattern := w.pattern, func := w.func, fmt := w.fmt,
    sat := w.sat, landed := [], moved := 0, expected := w.expected e, cnt := cnt, status := 0, reqs := [], prog := [],
    tiles := [], sentTiles := 0 }

/-! ### COLL (R584) -/

/-- The thread has chunks of the epoch whose entries are not yet written, apart from the barrier's own (R438). -/
def Dev.epochOwes (s : Dev) (x : Work) (t : Nat) : Bool :=
  s.tcqOwing t || s.works.any fun y => y.who == x.who && y.group == x.group && y.epoch == x.epoch && !isBarrier y.pattern y.func

/-- Send a chunk of a thread's work request. A barrier arrival is formed by the device (R437). -/
def Dev.sendChunk (s : Dev) (t : Nat) (x : Work) (c : Nat) : Dev :=
  if isBarrier x.pattern x.func then s.memberSend (t / 1024) x.slot x c arrival (s.corePart (t / 16)) (s.coreClass (t / 16))
  else s.threadChunk (t / 1024) x.slot t x c

/-- The work is an arrival at the release barrier that waits for its epoch's chunks (R438). -/
def Dev.barrierWaits (s : Dev) (x : Work) : Bool :=
  match x.who with
  | .thread t => isBarrier x.pattern x.func && x.first == releaseChunk && x.sentTiles == 0 && s.epochOwes x t
  | .adapter _ _ => false

/-- Send what a thread's work request is to send, once. -/
def Dev.startWork (s : Dev) (t : Nat) (x : Work) (e : GEntry) : Dev :=
  if s.barrierWaits x then s
  else
    let y := { x with sentTiles := x.count }
    let s := s.updWork x fun _ => y
    if x.sends e then (List.range x.count).foldl (fun u j => u.sendChunk t y (x.first.toNat + j)) s else s

/-- Arrivals at a release barrier that have waited go once every entry of their epoch is written (R438). -/
def Dev.sendBarriers (s : Dev) : Dev :=
  s.works.foldl (fun u x =>
    match x.who with
    | .thread t =>
      if isBarrier x.pattern x.func && x.first == releaseChunk && x.sentTiles == 0 && !u.barrierWaits x then
        let y := { x with sentTiles := x.count }
        (List.range x.count).foldl (fun v j => v.sendChunk t y (x.first.toNat + j)) (u.updWork x fun _ => y)
      else u
    | .adapter _ _ => u) s

/-- The status that stops a COLL image of a thread at issue, or the member slot it runs as (R402, R485, R584). -/
def Dev.collCheck (s : Dev) (t : Nat) (w : WrImg) : Nat ⊕ (Nat × GEntry) :=
  match s.memberSlot w.group w.epoch fun m => memberIsThread m && memberThread m == t with
  | none => .inl 8
  | some (slot, m, e) =>
    if w.collBad ∨ memberRank m ≠ w.rank ∨ s.epochWrong w.group w.epoch then .inl 8
    else if isND w.pattern w.func w.fmt && s.cfg (topPg + 0x1080) 0 0 == 1 then .inl 7
    else .inr (slot, e)

def collEffect (sc : SlotCtx) (x : BitVec 52) (s : Dev) : Dev :=
  let o := Mv.of x
  s.asyncSlot sc .move fun s t =>
    let fail := fun st id => s.enqueueOp t .move o.cnt st id false []
    match s.desc t o.ha with
    | none => fail 8 (s.wordId t)
    | some a =>
      if o.rsv ≠ 0 ∨ o.hd ≠ 0 ∨ !s.inOwnSram (t / 16) a.base 64 then fail 8 (s.wordId t)
      else
        let w := WrImg.read (s.rawBytes (a.base % 2 ^ 44) 64)
        match s.collCheck t w with
        | .inl st => fail st w.wrId
        | .inr (slot, e) =>
          if w.expected e = 0 then fail 1 w.wrId
          else
            let y := w.work (.thread t) slot e o.cnt
            let s := s.enqueueOp t .move o.cnt 0 w.wrId true []
            ({ s with works := s.works ++ [y] } : Dev).startWork t y e
def execColl (sc : SlotCtx) (x : BitVec 52) (s : State) := run (collEffect sc x) s

/-! ### Answers to remote transactions (R552) -/

/-- The transaction of a thread with a tag. -/
def Dev.remoteTx (s : Dev) (t : Nat) (tag : BitVec 12) : Option RemoteTx :=
  ((s.core (t / 16)).remote.find? fun r => r.1 == t && r.2.tag == tag && !r.2.held).map (·.2)

/-- The thread, of any core, that waits for an answer with a tag from a node. -/
def Dev.remoteOwner (s : Dev) (tag : BitVec 12) (node : BitVec 20) : Option (Nat × RemoteTx) :=
  s.cores.findSome? fun c => c.2.remote.find? fun r => r.2.tag == tag && !r.2.held && r.2.pkt.node == node.toNat

/-- Forget a transaction. -/
def Dev.dropRemote (s : Dev) (t handle : Nat) : Dev :=
  s.updCore (t / 16) fun k => { k with remote := k.remote.filter fun r => !(r.1 == t && r.2.handle == handle) }

/-- The COPY that waited for a transaction goes on, with the status worsened and the handles of what it still waits for. -/
def Dev.copyStep (s : Dev) (t handle : Nat) (status : Nat) (more : List Nat) : Dev :=
  s.updCore (t / 16) fun k => k.setQueue .move (updWhere (fun (o : AsyncOp) => o.thread == t && o.remote.contains handle)
    (fun (o : AsyncOp) => { o with status := worse o.status status, remote := o.remote.filter (· != handle) ++ more })
    (k.queue .move))

/-- The work request of a thread that a transaction belongs to. -/
def Dev.workById (s : Dev) (t : Nat) (wrId : BitVec 32) (c : Nat) : Option Work :=
  s.works.find? fun x => x.who == .thread t && x.wrId == wrId && !x.landed.contains c

/-- A transaction of a thread ends with a status and, for a read that succeeded, its data. -/
def Dev.remoteEnd (s : Dev) (t : Nat) (r : RemoteTx) (status : Nat) (data : List Byte) : Dev :=
  let s := s.dropRemote t r.handle
  let part := s.corePart (t / 16)
  let cls := s.coreClass (t / 16)
  let d := t / 1024
  match r.use with
  | .copied => s.copyStep t r.handle status []
  | .copyTo dst =>
    if status ≠ 0 then s.copyStep t r.handle status []
    else if dst / 2 ^ 44 ≠ s.own then
      (s.remoteSend t false dst data .copied r.wrId).copyStep t r.handle 0 [s.nextHandle (dst / 2 ^ 44)]
    else if regionOf (dst % 2 ^ 44) = .regs then
      (s.busStore (.thread (Fin.ofNat 4096 t)) (dst % 2 ^ 44) data).copyStep t r.handle 0 []
    else
      let w := s.memWrite (.part part) (dst % 2 ^ 44) data
      w.1.copyStep t r.handle (w.2.getD 0) []
  | .source slot c =>
    match s.workById t r.wrId c with
    | none => s
    | some x => if status = 0 then s.memberSend d slot x c data part cls else s.chunkDone x c status 0
  | .rows _ c =>
    match s.workById t r.wrId c with
    | none => s
    | some x =>
      match s.infoOf x.group x.epoch x.rank with
      | some i => if status = 0 then s.combineSend d x c i data part cls else s.chunkDone x c status 0
      | none => s
  | .land c st0 =>
    match s.workById t r.wrId c with
    | none => s
    | some x =>
      let k : CtxKey := ⟨x.group, x.epoch, BitVec.ofNat 32 c⟩
      let n := r.pkt.payload.length
      let st := worse st0 status
      let s := if status = 0 then s.landedAt k x.slot else s
      let s := if x.pattern = 6 ∧ status = 0 then s.routeCounts x c r.pkt.payload st else s.chunkDone x c st n
      s.tryAck k

/-- CORE_REMOTE_CFG of a thread's core: beats between tries (R608) and how many resends. -/
def Dev.remoteBeats (s : Dev) (t : Nat) : Nat := max 1024 (s.cfg (corePg (t / 16) + 0x1010) 31 0)
def Dev.remoteMax (s : Dev) (t : Nat) : Nat := s.cfg (corePg (t / 16) + 0x1010) 39 32

/-- A transaction that has waited long enough is sent again, or ends with TIMEOUT. -/
def remoteRetryEffect (t : ThreadNo) (tag : BitVec 12) (s : Dev) : Dev :=
  let n := t.val
  match s.remoteTx n tag with
  | none => s
  | some r =>
    if s.ticks < r.tick + s.remoteBeats n then s
    else if r.tries < s.remoteMax n then
      let again := fun (x : Nat × RemoteTx) => if x.1 == n && x.2.tag == tag && !x.2.held then (x.1, { x.2 with tries := x.2.tries + 1, tick := s.ticks }) else x
      (s.updCore (n / 16) fun k => { k with remote := k.remote.map again }).sendFormed (n / 1024) r.pkt
    else s.remoteEnd n r 9 []
def execRemoteRetry (t : ThreadNo) (tag : BitVec 12) (s : State) := run (remoteRetryEffect t tag) s

end Sys2Proof.Machine
end

