-- ==== Sys2Proof/Machine/Vector.lean ====
section
/-! DEFINITION. The vector slots (R611, R620 to R624). -/

namespace Sys2Proof.Machine

/-! ### Operands (R560, R620) -/

structure Vo where
  vd  : Nat
  va  : Nat
  vb  : Nat
  vc  : Nat
  fmt : Nat
  md  : Nat
  deriving DecidableEq, Repr

def Vo.of (x : BitVec 52) : Vo :=
  let n := x.toNat
  { vd := bits n 51 47, va := bits n 46 42, vb := bits n 41 37, vc := bits n 36 32, fmt := bits n 31 27, md := bits n 26 0 }

def Vo.rel (o : Vo) : Nat := bits o.md 26 24
def Vo.rfunc (o : Vo) : Nat := bits o.md 23 22
def Vo.sat (o : Vo) : Bool := bit o.md 21
def Vo.negB (o : Vo) : Bool := bit o.md 20
def Vo.negC (o : Vo) : Bool := bit o.md 19

/-- The FMT may stand in a vector slot. -/
def vecFmt (fmt : Nat) : Bool := (decide (3 ≤ fmt) && decide (fmt ≤ 7)) || (decide (0x0E ≤ fmt) && decide (fmt ≤ 0x13))

/-- What an operation uses: how many sources, and the bits of MOD. -/
structure VecUse where
  srcs : Nat
  mod_ : Nat

/-- The slot names a reserved value, or sets a field its operation does not use (R611, R620). -/
def Vo.bad (o : Vo) (u : VecUse) : Bool :=
  !vecFmt o.fmt || (o.md &&& u.mod_) != o.md || o.rel ≥ 6 || o.rfunc == 3 || (decide (u.srcs < 2) && o.vb != 0)
    || (decide (u.srcs < 3) && o.vc != 0)

def Vo.reads (o : Vo) (u : VecUse) : List RegId :=
  .vl :: .vreg o.va :: (if u.srcs ≥ 2 then [.vreg o.vb] else []) ++ (if u.srcs ≥ 3 then [.vreg o.vc] else [])

/-! ### Elements (R622) -/

/-- Element `i` of a vector register. -/
def laneOf (e : Nat) (v : BitVec 2048) (i : Nat) : Nat := v.toNat / 2 ^ (8 * e * i) % 2 ^ (8 * e)

/-- A lane result rounded once to nearest-even, or wrapped or clamped. An infinity that no overflow made stays one. -/
def vecRound (fmt : Nat) (sat : Bool) (x : Num) : Nat :=
  match fltOf fmt with
  | none => intOut fmt sat (x.intAt 0)
  | some f =>
    match x with
    | .nan => f.nan
    | .inf n => if f.special = 0 then f.infinity n else f.nan
    | .num n 0 _ => b2n n * 2 ^ (f.eb + f.mb)
    | .num n (m + 1) e => f.fin (fmt == 6 || fmt == 7) sat false .rne n (m + 1) e

def vecNum (fmt n : Nat) : Num := decElem fmt false n

/-- Bits of an element passed on unchanged, a NaN becoming the canonical one. -/
def vecCopy (fmt n : Nat) : Nat :=
  match fltOf fmt, vecNum fmt n with
  | some f, .nan => f.nan
  | _, _ => n

/-- A zero of either sign. -/
def vecZero (fmt n : Nat) : Bool := (vecNum fmt n).isZero

/-- The relation of VCMP: −0 equals +0, and with a NaN only NE holds. -/
def vecRel (rel : Nat) (a b : Num) : Bool :=
  match a, b with
  | .nan, _ | _, .nan => rel == 1
  | _, _ =>
    let eq := (!a.lt b && !b.lt a) || (a.isZero && b.isZero)
    let lt := a.lt b && !eq
    match rel with
    | 0 => eq
    | 1 => !eq
    | 2 => lt
    | 3 => lt || eq
    | 4 => !lt && !eq
    | _ => !lt

/-! ### Issue -/

/-- Lanes that are active. -/
def Thread.active (x : Thread) (o : Vo) : Nat := min x.vl (lanesFor (elemBytes o.fmt))

/-- The write of VD: lane `i` takes `f i`, the other lanes keep their value (R582). -/
def vecWrite (o : Vo) (n : Nat) (f : Nat → Nat) : WriteTo :=
  let e := elemBytes o.fmt
  .vreg o.vd (BitVec.ofNat 2048 (laneMask e (List.range n)))
    (BitVec.ofNat 2048 ((List.range n).foldl (fun v i => v + f i % 2 ^ (8 * e) * 2 ^ (8 * e * i)) 0))

/-- Issue a vector slot. -/
def Dev.vecSlot (s : Dev) (sc : SlotCtx) (o : Vo) (u : VecUse) (lat : Nat) (f : Thread → List WriteTo) : Dev :=
  let t := sc.thread.val
  if !s.engineUp (t / 16) 1 then s.slot sc [] [] 0 false fun s t => s.slotStatus t 2 false
  else if o.bad u then s.slot sc [] [] 0 false fun s t => s.slotStatus t 8 false
  else s.regSlot sc (o.reads u) [.vreg o.vd] lat f

/-- A lane-wise operation on the values of its elements. -/
def Dev.vecLanes (s : Dev) (sc : SlotCtx) (x : BitVec 52) (u : VecUse) (lat : Nat) (f : Vo → Nat → Nat → Nat → Nat) : Dev :=
  let o := Vo.of x
  let e := elemBytes o.fmt
  s.vecSlot sc o u lat fun t =>
    [vecWrite o (t.active o) fun i => f o (laneOf e (t.vreg o.va) i) (laneOf e (t.vreg o.vb) i) (laneOf e (t.vreg o.vc) i)]

def useAdd : VecUse := { srcs := 2, mod_ := 0x300000 }
def useFma : VecUse := { srcs := 3, mod_ := 0x280000 }
def useTwo : VecUse := { srcs := 2, mod_ := 0 }
def useCmp : VecUse := { srcs := 2, mod_ := 0x7000000 }
def useSel : VecUse := { srcs := 3, mod_ := 0 }
def useRed : VecUse := { srcs := 1, mod_ := 0xC00000 }

/-- VB as NEGB makes it. -/
def Vo.numB (o : Vo) (n : Nat) : Num := if o.negB then (vecNum o.fmt n).neg else vecNum o.fmt n
/-- VC as NEGC makes it. -/
def Vo.numC (o : Vo) (n : Nat) : Num := if o.negC then (vecNum o.fmt n).neg else vecNum o.fmt n

def vaddLane (o : Vo) (a b _ : Nat) : Nat := vecRound o.fmt o.sat ((vecNum o.fmt a).add (o.numB b))
def vmulLane (o : Vo) (a b _ : Nat) : Nat := vecRound o.fmt o.sat ((vecNum o.fmt a).mul (o.numB b))
def vfmaLane (o : Vo) (a b c : Nat) : Nat := vecRound o.fmt o.sat (((vecNum o.fmt a).mul (vecNum o.fmt b)).add (o.numC c))
def vminLane (o : Vo) (a b _ : Nat) : Nat := encSame o.fmt (minMax false (vecNum o.fmt a) (vecNum o.fmt b))
def vmaxLane (o : Vo) (a b _ : Nat) : Nat := encSame o.fmt (minMax true (vecNum o.fmt a) (vecNum o.fmt b))
def vcmpLane (o : Vo) (a b _ : Nat) : Nat :=
  if vecRel o.rel (vecNum o.fmt a) (vecNum o.fmt b) then 2 ^ (8 * elemBytes o.fmt) - 1 else 0
def vselLane (o : Vo) (a b c : Nat) : Nat := if vecZero o.fmt c then vecCopy o.fmt b else vecCopy o.fmt a

/-! ### Operations (R621). The second vector slot differs from the first in issue order only, which the commands' order
gives. -/

def vaddEffect (sc : SlotCtx) (x : BitVec 52) (s : Dev) : Dev := s.vecLanes sc x useAdd 4 vaddLane
def execVadd (sc : SlotCtx) (_second : Bool) (x : BitVec 52) (s : State) := run (vaddEffect sc x) s

def vmulEffect (sc : SlotCtx) (x : BitVec 52) (s : Dev) : Dev := s.vecLanes sc x useAdd 4 vmulLane
def execVmul (sc : SlotCtx) (_second : Bool) (x : BitVec 52) (s : State) := run (vmulEffect sc x) s

def vfmaEffect (sc : SlotCtx) (x : BitVec 52) (s : Dev) : Dev := s.vecLanes sc x useFma 6 vfmaLane
def execVfma (sc : SlotCtx) (_second : Bool) (x : BitVec 52) (s : State) := run (vfmaEffect sc x) s

def vminEffect (sc : SlotCtx) (x : BitVec 52) (s : Dev) : Dev := s.vecLanes sc x useTwo 4 vminLane
def execVmin (sc : SlotCtx) (_second : Bool) (x : BitVec 52) (s : State) := run (vminEffect sc x) s

def vmaxEffect (sc : SlotCtx) (x : BitVec 52) (s : Dev) : Dev := s.vecLanes sc x useTwo 4 vmaxLane
def execVmax (sc : SlotCtx) (_second : Bool) (x : BitVec 52) (s : State) := run (vmaxEffect sc x) s

def vcmpEffect (sc : SlotCtx) (x : BitVec 52) (s : Dev) : Dev := s.vecLanes sc x useCmp 4 vcmpLane
def execVcmp (sc : SlotCtx) (_second : Bool) (x : BitVec 52) (s : State) := run (vcmpEffect sc x) s

def vselEffect (sc : SlotCtx) (x : BitVec 52) (s : Dev) : Dev := s.vecLanes sc x useSel 4 vselLane
def execVsel (sc : SlotCtx) (_second : Bool) (x : BitVec 52) (s : State) := run (vselEffect sc x) s

/-! ### VRED (R623) -/

/-- Rounds for `n` active lanes. -/
def redRounds (n : Nat) : Nat := if n ≥ 2 then log2 (n - 1) + 1 else 0

/-- The identity of a cross-lane reduction, as bits. -/
def redIdentity (fmt rfunc : Nat) : Nat :=
  match fltOf fmt with
  | some f =>
    match rfunc with
    | 0 => 2 ^ (f.eb + f.mb)
    | 1 => if f.special = 0 then f.infinity false else f.largest false
    | _ => if f.special = 0 then f.infinity true else f.largest true
  | none =>
    let w := intWidth fmt
    match rfunc with
    | 0 => 0
    | 1 => if intSigned fmt then 2 ^ (w - 1) - 1 else 2 ^ w - 1
    | _ => if intSigned fmt then 2 ^ (w - 1) else 0

/-- One operation of a reduction. -/
def redStep (o : Vo) (a b : Nat) : Nat :=
  match o.rfunc with
  | 0 => vecRound o.fmt false ((vecNum o.fmt a).add (vecNum o.fmt b))
  | 1 => vminLane o a b 0
  | _ => vmaxLane o a b 0

/-- Round `j` over all lanes: every lane takes its pair, the lower lane first. -/
def redRound (o : Vo) (j : Nat) (x : List Nat) : List Nat :=
  (List.range x.length).map fun i =>
    let k := i ^^^ 2 ^ j
    redStep o (x.getD (min i k) 0) (x.getD (max i k) 0)

def redAll (o : Vo) (x : List Nat) : Nat → List Nat
  | 0 => x
  | r + 1 => redRound o r (redAll o x r)

/-- The final value over the active lanes. -/
def vredValue (o : Vo) (lanes : List Nat) : Nat :=
  let r := redRounds lanes.length
  let x := lanes ++ List.replicate (2 ^ r - lanes.length) (redIdentity o.fmt o.rfunc)
  vecCopy o.fmt ((redAll o x r).headD 0)

def vredEffect (sc : SlotCtx) (x : BitVec 52) (s : Dev) : Dev :=
  let o := Vo.of x
  let n := (s.thread sc.thread.val).active o
  s.vecSlot sc o useRed (4 + 2 * redRounds n) fun t =>
    let lanes := (List.range (t.active o)).map (laneOf (elemBytes o.fmt) (t.vreg o.va))
    [vecWrite o (t.active o) fun _ => vredValue o lanes]
def execVred (sc : SlotCtx) (_second : Bool) (x : BitVec 52) (s : State) := run (vredEffect sc x) s

end Sys2Proof.Machine
end

