-- ==== Sys2Proof/Machine/Reduce.lean ====
section
/-! DEFINITION. What the engine slots share (R553, R560, R570, R586, R600, R611), and the reduction slot (R614 to R619). -/

namespace Sys2Proof.Machine

/-! ### Operands (R560) -/

structure Eo where
  hd  : Nat
  ha  : Nat
  hb  : Nat
  hc  : Nat
  cnt : Nat
  deriving DecidableEq, Repr

def Eo.of (x : BitVec 52) : Eo :=
  let n := x.toNat
  { hd := bits n 51 40, ha := bits n 39 28, hb := bits n 27 16, hc := bits n 15 4, cnt := bits n 3 0 }

/-- The arithmetic settings a command of the core latches (R586). -/
def Dev.arithNow (s : Dev) (t : Nat) : ArithCfg :=
  let a := topPg + 0x1100 + 16 * s.corePart (t / 16)
  { round := s.cfg a 2 0, flush := s.cfg a 5 4, seed := s.cfg (a + 8) 63 0 }

/-- The key of the stochastic draws of a slot operation: the thread for the group, BASE for the chunk (R618). -/
def slotKey (t : Nat) (d : Desc) : CtxKey := ⟨BitVec.ofNat 24 t, 0, BitVec.ofNat 32 d.base⟩

/-! ### Issue -/

/-- Issue an engine slot: `f` gives its effect and its status. -/
def Dev.engineSlot (s : Dev) (sc : SlotCtx) (q : AsyncQ) (e : Nat) (x : BitVec 52) (f : Dev → Nat → Eo → Dev × Nat) : Dev :=
  let o := Eo.of x
  s.asyncSlot sc q fun s t =>
    if !s.engineUp (t / 16) e then s.enqueueOp t q o.cnt 2 (s.wordId t) false []
    else
      let r := f s t o
      r.1.enqueueOp t q o.cnt r.2 (s.wordId t) false []

/-- Every unit of a tensor. -/
def Desc.all (d : Desc) : List Run := d.runs 0 d.units

/-- Run an operation over tensors. Addresses at other nodes are MALFORMED: only COPY and COLL reach them (R552, log 31). A permission
that fails stops it all (R20, R553, R658). -/
def Dev.engineGuard (s : Dev) (t : Nat) (ins outs : List Desc) (f : Who → Dev × Nat) : Dev × Nat :=
  let who := Who.part (s.corePart (t / 16))
  let rin := ins.flatMap Desc.all
  let rout := outs.flatMap Desc.all
  if !s.local (rin ++ rout) then (s, 8)
  else
    let st := worse (s.runsStatus who false rin) (s.runsStatus who true rout)
    if st ≠ 0 then ((s.countRuns who false rin).countRuns who true rout, st) else f who

/-- Read the inputs, form the outputs, and write what there is of each: the leading units of its tensor. -/
def Dev.engineRun (s : Dev) (t : Nat) (ins outs : List Desc) (f : List (List Byte) → Nat × List (List Byte)) : Dev × Nat :=
  s.engineGuard t ins outs fun who =>
    let r := ins.foldl (fun (acc : Dev × List (List Byte)) d => let x := acc.1.readRuns who d.all; (x.1, acc.2 ++ [x.2])) (s, [])
    let o := f r.2
    ((outs.zip o.2).foldl (fun (u : Dev) p => u.writeRuns who (p.1.runs 0 (p.2.length / max 1 (elemBytes p.1.fmt))) p.2) r.1, o.1)

/-! ### Reduction (R614 to R619) -/

/-- Elements of one slice, and slices (R615). -/
def Desc.slices (d : Desc) : Nat × Nat :=
  if d.dims ≤ 1 then (d.count, 1) else ((d.shape.take (d.dims - 1)).foldl (· * ·) 1, d.size (d.dims - 1))

/-- The status of a reduction before it touches memory (R614 to R616, R619). -/
def Dev.redStatus (s : Dev) (func : Nat) (o : Eo) (a d : Desc) : Nat :=
  let arg := func ≥ 6
  if func = 0 ∧ a.fmt = 0 ∧ !s.fp64x then 2
  else if o.hb ≠ 0 ∨ o.hc ≠ 0 ∨ !fmtAccepted 0 func a.fmt ∨ a.fmt = 2 ∨ d.count ≠ a.slices.1 then 8
  else if (if arg then d.fmt ≠ 0x15 else d.fmt ≠ a.fmt) then 8
  else if a.count = 0 then 1
  else 0

/-- Reduce the slices of elements from `base` on, rounding once (R615 to R618). -/
def reduceSlices (p : Params) (cfg : ArithCfg) (k : CtxKey) (slices base : Nat) (data : List Byte) : List Byte :=
  let n := data.length / max 1 slices
  let sts := (List.range slices).map fun i => toState p cfg i (slice data (i * n) n)
  finishState p cfg k base (mergeStates p 0 0 sts)

/-- Units of HD in a strip: 32 lanes' worth of elements (R477, R617). -/
def stripUnits (fmt : Nat) : Nat :=
  if fmt = 0 then 4 else if isMx fmt then (if elemBytes fmt ≥ 33 then 4 else 8) else 128 / max 1 (elemBytes fmt)

/-- Strip `j`: its part of every slice is read, reduced and written before the next strip is read (R617). -/
def Dev.reduceStrip (s : Dev) (who : Who) (a d : Desc) (f : Nat → List Byte → List Byte) (j : Nat) : Dev :=
  let n := a.units / max 1 a.slices.2
  let lo := j * stripUnits a.fmt
  let m := min (stripUnits a.fmt) (n - lo)
  let r := (List.range a.slices.2).foldl (fun (acc : Dev × List Byte) i =>
    let x := acc.1.readRuns who (a.runs (i * n + lo) m)
    (x.1, acc.2 ++ x.2)) (s, [])
  r.1.writeRuns who (d.runs lo m) (f (if isMx a.fmt then 32 * lo else lo) r.2)

/-- Reduce the slices of `a` into `d`, strip by strip (R615, R617). -/
def Dev.reduceRun (s : Dev) (t : Nat) (a d : Desc) (f : Nat → List Byte → List Byte) : Dev × Nat :=
  s.engineGuard t [a] [d] fun who =>
    ((List.range (ceilDiv (a.units / max 1 a.slices.2) (stripUnits a.fmt))).foldl (fun u j => u.reduceStrip who a d f j) s, 0)

/-- A reduction of FUNC `func` of R215. -/
def reduceOp (func : Nat) (sc : SlotCtx) (sat : Bool) (x : BitVec 52) (s : Dev) : Dev :=
  s.engineSlot sc .reduction 0 x fun s t o =>
    match s.desc t o.ha, s.desc t o.hd with
    | some a, some d =>
      let st := s.redStatus func o a d
      if st ≠ 0 then (s, st)
      else
        let p : Params := { pattern := 0, func := func, fmt := a.fmt, sat := sat, length := 0, fused := [] }
        let cfg := s.arithNow t
        s.reduceRun t a d (reduceSlices p cfg (slotKey t d) a.slices.2)
    | _, _ => (s, 8)

def rsumEffect (sc : SlotCtx) (sat : Bool) (x : BitVec 52) (s : Dev) : Dev := reduceOp 0 sc sat x s
def execRsum (sc : SlotCtx) (sat : Bool) (x : BitVec 52) (s : State) := run (rsumEffect sc sat x) s
def rminEffect (sc : SlotCtx) (sat : Bool) (x : BitVec 52) (s : Dev) : Dev := reduceOp 1 sc sat x s
def execRmin (sc : SlotCtx) (sat : Bool) (x : BitVec 52) (s : State) := run (rminEffect sc sat x) s
def rmaxEffect (sc : SlotCtx) (sat : Bool) (x : BitVec 52) (s : Dev) : Dev := reduceOp 2 sc sat x s
def execRmax (sc : SlotCtx) (sat : Bool) (x : BitVec 52) (s : State) := run (rmaxEffect sc sat x) s
def randEffect (sc : SlotCtx) (sat : Bool) (x : BitVec 52) (s : Dev) : Dev := reduceOp 3 sc sat x s
def execRand (sc : SlotCtx) (sat : Bool) (x : BitVec 52) (s : State) := run (randEffect sc sat x) s
def rorEffect (sc : SlotCtx) (sat : Bool) (x : BitVec 52) (s : Dev) : Dev := reduceOp 4 sc sat x s
def execRor (sc : SlotCtx) (sat : Bool) (x : BitVec 52) (s : State) := run (rorEffect sc sat x) s
def rxorEffect (sc : SlotCtx) (sat : Bool) (x : BitVec 52) (s : Dev) : Dev := reduceOp 5 sc sat x s
def execRxor (sc : SlotCtx) (sat : Bool) (x : BitVec 52) (s : State) := run (rxorEffect sc sat x) s
def rargminEffect (sc : SlotCtx) (sat : Bool) (x : BitVec 52) (s : Dev) : Dev := reduceOp 6 sc sat x s
def execRargmin (sc : SlotCtx) (sat : Bool) (x : BitVec 52) (s : State) := run (rargminEffect sc sat x) s
def rargmaxEffect (sc : SlotCtx) (sat : Bool) (x : BitVec 52) (s : Dev) : Dev := reduceOp 7 sc sat x s
def execRargmax (sc : SlotCtx) (sat : Bool) (x : BitVec 52) (s : State) := run (rargmaxEffect sc sat x) s

end Sys2Proof.Machine
end

