-- ==== Sys2Proof/Machine/Tile.lean ====
section
/-! DEFINITION. The tile slot: matrix products and the tile feed (R478, R625 to R631, R639). -/

namespace Sys2Proof.Machine

/-! ### Shapes and formats (R626, R627) -/

/-- A and B may meet. -/
def tilePair (a b : Nat) : Bool :=
  let fp8 := fun f => decide (6 ≤ f) && decide (f ≤ 7)
  (a == 4 && b == 4) || (a == 5 && b == 5) || (fp8 a && fp8 b) || (isMx a && isMx b)
def tileOut (f : Nat) : Bool := decide (3 ≤ f) && decide (f ≤ 5)

/-- The shapes agree: A is M × K, B is N × K. -/
def tileShapes (a b : Desc) : Bool := a.dims == 2 && b.dims == 2 && a.size 0 == b.size 0
/-- D or C is M × N. -/
def tileShape (a b d : Desc) : Bool := d.dims == 2 && d.size 0 == b.size 1 && d.size 1 == a.size 1

/-- Row `i` of a matrix of `k` elements a row. -/
def rowAt {α : Type} (l : List α) (k i : Nat) : List α := (l.drop (i * k)).take k

/-- D as values rounded to the output format, rows first. -/
def matMul (fa fb fd : Nat) (m n k : Nat) (a b : List Byte) (c : Option (Nat × List Byte)) : List Nat :=
  let va := decodeAll fa false a
  let vb := decodeAll fb false b
  let vc := match c with | some x => decodeAll x.1 false x.2 | none => []
  let out := (fltOf fd).getD ff32
  (List.range m).flatMap fun i =>
    (List.range n).map fun j => out.rne (tileDot (vc.getD (i * n + j) (.num false 0 0)) (rowAt va k i) (rowAt vb k j))

/-- The operands of a matrix product: A, B, and C when it is read; a breach gives a status. -/
def Dev.tileOps (s : Dev) (t : Nat) (o : Eo) (withC : Bool) : Nat ⊕ (Desc × Desc × Option Desc) :=
  match s.desc t o.ha, s.desc t o.hb with
  | some a, some b =>
    if !tileShapes a b || !tilePair a.fmt b.fmt then .inl 8
    else if !withC then (if o.hc ≠ 0 then .inl 8 else .inr (a, b, none))
    else
      match s.desc t o.hc with
      | some c => if tileShape a b c && tileOut c.fmt then .inr (a, b, some c) else .inl 8
      | none => .inl 8
  | _, _ => .inl 8

/-- K, M or N is zero (R628). -/
def tileNull (a b : Desc) : Bool := a.size 0 == 0 || a.size 1 == 0 || b.size 1 == 0

/-- D from the bytes of the operands. -/
def tileResult (a b : Desc) (c : Option Desc) (fd : Nat) (l : List (List Byte)) : List Nat :=
  matMul a.fmt b.fmt fd (a.size 1) (b.size 1) (a.size 0) (l.getD 0 []) (l.getD 1 []) (c.map fun x => (x.fmt, l.getD 2 []))

def mmaOp (withC : Bool) (sc : SlotCtx) (x : BitVec 52) (s : Dev) : Dev :=
  s.engineSlot sc .tile 2 x fun s t o =>
    match s.tileOps t o withC, s.desc t o.hd with
    | .inr (a, b, c), some d =>
      if !tileShape a b d || !tileOut d.fmt then (s, 8)
      else if tileNull a b then (s, 1)
      else s.engineRun t (a :: b :: c.toList) [d] fun l => (0, [(tileResult a b c d.fmt l).flatMap (leBytes (elemBytes d.fmt))])
    | .inl st, _ => (s, st)
    | _, none => (s, 8)

def mmaEffect (sc : SlotCtx) (x : BitVec 52) (s : Dev) : Dev := mmaOp false sc x s
def execMma (sc : SlotCtx) (x : BitVec 52) (s : State) := run (mmaEffect sc x) s
def mmacEffect (sc : SlotCtx) (x : BitVec 52) (s : Dev) : Dev := mmaOp true sc x s
def execMmac (sc : SlotCtx) (x : BitVec 52) (s : State) := run (mmacEffect sc x) s

/-! ### The tile feed (R629 to R631) -/

/-- Output tile (p, q) of an M × N product in row order, 32 × 32 elements. -/
def tileAt (n p q : Nat) (vals : List Nat) : List Nat :=
  (List.range 32).flatMap fun r => (vals.drop ((32 * p + r) * n + 32 * q)).take 32

/-- The image of a feed breaks R629. -/
def feedBad (w : WrImg) (m n : Nat) : Bool :=
  !isReduce w.pattern || w.func != 0 || !tileOut w.fmt || m % 32 != 0 || n % 32 != 0 || w.length != 1024 * elemBytes w.fmt
    || w.count != m / 32 * (n / 32)

/-- Issue a feed: its tiles stand ready, and are sent one by one. -/
def feedOp (withC : Bool) (sc : SlotCtx) (x : BitVec 52) (s : Dev) : Dev :=
  let o := Eo.of x
  s.asyncSlot sc .tile fun s t =>
    let fail := fun (u : Dev) st id => u.enqueueOp t .tile o.cnt st id false []
    if !s.engineUp (t / 16) 2 then fail s 2 (s.wordId t)
    else
      match s.desc t o.hd, s.tileOps t o withC with
      | some h, .inr (a, b, c) =>
        if h.fmt ≠ 0x1A ∨ h.count ≠ 64 ∨ !s.inOwnSram (t / 16) h.base 64 then fail s 8 (s.wordId t)
        else
          let w := WrImg.read (s.rawBytes (h.base % 2 ^ 44) 64)
          match s.collCheck t w with
          | .inl st => fail s st w.wrId
          | .inr (slot, e) =>
            let m := a.size 1
            let n := b.size 1
            if feedBad w m n then fail s 8 w.wrId
            else if tileNull a b then fail s 1 w.wrId
            else
              let mk := fun l =>
                let vals := tileResult a b c w.fmt l
                (List.range (m / 32)).flatMap fun p => (List.range (n / 32)).map fun q =>
                  (tileAt n p q vals).flatMap (leBytes (elemBytes w.fmt))
              let who := Who.part (s.corePart (t / 16))
              let ins := a :: b :: c.toList
              let rin := ins.flatMap Desc.all
              let st := s.runsStatus who false rin
              if !s.local rin then fail s 8 w.wrId
              else if st ≠ 0 then fail (s.countRuns who false rin) st w.wrId
              else
                let r := ins.foldl (fun (acc : Dev × List (List Byte)) d =>
                  let x := acc.1.readRuns who d.all; (x.1, acc.2 ++ [x.2])) (s, [])
                let y := { w.work (.thread t) slot e o.cnt with tiles := mk r.2 }
                let s := r.1.enqueueOp t .tile o.cnt 0 w.wrId true []
                { s with works := s.works ++ [y] }
      | _, _ => fail s 8 (s.wordId t)

def mmafEffect (sc : SlotCtx) (x : BitVec 52) (s : Dev) : Dev := feedOp false sc x s
def execMmaf (sc : SlotCtx) (x : BitVec 52) (s : State) := run (mmafEffect sc x) s
def mmacfEffect (sc : SlotCtx) (x : BitVec 52) (s : Dev) : Dev := feedOp true sc x s
def execMmacf (sc : SlotCtx) (x : BitVec 52) (s : State) := run (mmacfEffect sc x) s

/-- Write the source copy of a tile (R630). -/
def Dev.sourceCopy (s : Dev) (t : Nat) (x : Work) (a : Nat) (l : List Byte) : Dev :=
  if a / 2 ^ 44 ≠ s.own then s.remoteSend t false a l .copied x.wrId
  else
    let r := s.memWrite (.part (s.corePart (t / 16))) (a % 2 ^ 44) l
    match r.2 with
    | none | some 0 => r.1
    | some st => r.1.updWork x fun y => { y with status := worse y.status st }

/-- The next tile of the thread's oldest feed is complete: it goes out as the contribution for its chunk, and is written as
the source copy (R630). -/
def tileFeedSendEffect (t : ThreadNo) (s : Dev) : Dev :=
  let n := t.val
  match s.works.find? (fun w => w.who == .thread n && !w.tiles.isEmpty) with
  | none => s
  | some x =>
    if !s.engineUp (n / 16) 2 then s
    else
      match x.tiles with
      | [] => s
      | l :: rest =>
        let j := x.sentTiles
        let y := { x with tiles := rest, sentTiles := j + 1 }
        let s := s.updWork x fun _ => y
        (s.sourceCopy n y (x.localA.toNat + j * x.length) l).memberSend (n / 1024) x.slot y (x.first.toNat + j) l
          (s.corePart (n / 16)) (s.coreClass (n / 16))
def execTileFeedSend (t : ThreadNo) (s : State) := run (tileFeedSendEffect t) s

end Sys2Proof.Machine
end

