-- ==== Sys2Proof/Machine/SparseEng.lean ====
section
/-! DEFINITION. The sparse slot (R489 to R511, R632). -/

namespace Sys2Proof.Machine

/-! ### Tiles of a tensor -/

/-- Cut one row of units into tiles (R489). -/
def cutTiles (fmt : Nat) : Nat → List Nat → List (List Nat)
  | 0, _ => []
  | n + 1, us => if us.isEmpty then [] else us.take (tileUnits fmt) :: cutTiles fmt n (us.drop (tileUnits fmt))

/-- Every tile of a tensor's units, row by row. -/
def allTiles (d : Desc) (units : List Nat) : List (List Nat) :=
  (List.range (d.units / max 1 d.units0)).flatMap fun i => cutTiles d.fmt d.units0 ((units.drop (i * d.units0)).take d.units0)

/-- Encode one tile; MX formats travel DENSE (R490 to R493). -/
def encodeUnits (fmt : Nat) (us : List Nat) : List Byte :=
  if isMx fmt then 0 :: BitVec.ofNat 8 (32 * us.length - 1) :: us.flatMap (leBytes (elemBytes fmt))
  else encodeTile fmt us

/-- The units that a payload of a tensor holds. -/
def unitsOf (fmt : Nat) (l : List Byte) : List Nat := (cut (elemBytes fmt) l.length l).map leNat

/-! ### Eyespot maps of thread commands (R503 to R506) -/

/-- Elements present by a map of 32 bytes, of a tile of `n`. -/
def mapPresent (n : Nat) (m : List Byte) : Nat := n - (maskList (min n 256) (leNat m)).length
/-- The map of a tile: bit i set when element i was +0. -/
def mapOf (us : List Nat) : List Byte := leBytes 32 (listMask ((us.zipIdx.filter fun u => u.1 == 0).map (·.2)))

/-- The prediction of a map missed the form that the tile's data chose. -/
def mapMissed (fmt : Nat) (us : List Nat) (m : List Byte) : Bool :=
  let e := elemBytes fmt
  chooseForm us.length e (mapPresent us.length m) != chooseForm us.length e (us.filter (· != 0)).length

/-- Compare and rewrite the map of each tile of a thread command at the descriptor's META. -/
def Dev.eyespot (s : Dev) (t : Nat) (d : Desc) (tiles : List (List Nat)) : Dev :=
  match d.meta_ with
  | none => s
  | some a =>
    let who := Who.part (s.corePart (t / 16))
    if s.cfg (corePg (t / 16) + 0x1800) 17 17 = 0 ∨ a / 2 ^ 44 ≠ s.own then s
    else tiles.zipIdx.foldl (fun u x =>
      let at_ := a % 2 ^ 44 + 32 * x.2
      if u.verdict who true at_ 32 ≠ .ok then u
      else
        let u := if mapMissed d.fmt x.1 (u.rawBytes at_ 32) then u.count (corePg (t / 16) + 0x818) else u
        u.poke at_ (mapOf x.1)) s

/-! ### SENC, SDEC -/

/-- Encoded tiles as far as they fit; `false` when one did not. -/
def packTiles : Nat → List (List Byte) → List Byte × Bool
  | _, [] => ([], true)
  | room, b :: t =>
    if b.length > room then ([], false)
    else let r := packTiles (room - b.length) t; (b ++ r.1, r.2)

def sencEffect (sc : SlotCtx) (x : BitVec 52) (s : Dev) : Dev :=
  s.engineSlot sc .sparse 3 x fun s t o =>
    match s.desc t o.ha, s.desc t o.hd with
    | some a, some d =>
      if o.hb ≠ 0 ∨ o.hc ≠ 0 ∨ d.fmt ≠ 0x1A then (s, 8)
      else if a.count = 0 ∨ d.count = 0 then (s, 1)
      else
        s.engineGuard t [a] [d] fun who =>
          let l := s.readRuns who a.all
          let tiles := allTiles a (unitsOf a.fmt l.2)
          let r := packTiles d.count (tiles.map (encodeUnits a.fmt))
          ((l.1.writeRuns who (d.runs 0 r.1.length) r.1).eyespot t a tiles, if r.2 then 0 else 0x0A)
    | _, _ => (s, 8)
def execSenc (sc : SlotCtx) (x : BitVec 52) (s : State) := run (sencEffect sc x) s

/-- What decoding tiles gives: the dense bytes, the drops, and how R500 judges it. -/
structure Dec where
  out   : List Byte
  drops : Nat
  whole : Bool
  bad   : Bool
  deriving DecidableEq, Repr

/-- Decode one tile of `k` units; the rest of the bytes. -/
def decodeTile (fmt k : Nat) (l : List Byte) : Dec × List Byte :=
  if isMx fmt then
    let n := k * elemBytes fmt
    if leAt l 0 1 % 4 ≠ 0 then ({ out := [], drops := 0, whole := true, bad := true }, [])
    else if l.length < 2 + n ∨ leAt l 1 1 + 1 ≠ 32 * k then ({ out := [], drops := 0, whole := true, bad := false }, [])
    else ({ out := (l.drop 2).take n, drops := 0, whole := false, bad := false }, l.drop (2 + n))
  else
    match readTile fmt l with
    | .malformed => ({ out := [], drops := 0, whole := true, bad := true }, [])
    | .short _ => ({ out := [], drops := 0, whole := true, bad := false }, [])
    | .tile r =>
      if r.n ≠ k then ({ out := [], drops := 0, whole := true, bad := false }, [])
      else ({ out := (firstVals (spread r.n r.vals)).flatMap (leBytes (elemBytes fmt)), drops := r.drops, whole := false, bad := false },
            l.drop r.size)

/-- Decode tiles of the given unit counts in order; the first that fails ends it. -/
def decodeTiles (fmt : Nat) : List Nat → List Byte → Dec
  | [], _ => { out := [], drops := 0, whole := false, bad := false }
  | k :: t, l =>
    let r := decodeTile fmt k l
    if r.1.whole then r.1
    else
      let q := decodeTiles fmt t r.2
      { q with out := r.1.out ++ q.out, drops := r.1.drops + q.drops }

/-- Unit counts of a tensor's tiles. -/
def tileSizes (d : Desc) : List Nat :=
  (allTiles d (List.replicate d.units 0)).map List.length

def sdecEffect (sc : SlotCtx) (x : BitVec 52) (s : Dev) : Dev :=
  s.engineSlot sc .sparse 3 x fun s t o =>
    let c := t / 16
    match s.desc t o.ha, s.desc t o.hd with
    | some a, some d =>
      if o.hb ≠ 0 ∨ o.hc ≠ 0 ∨ a.fmt ≠ 0x1A then (s, 8)
      else if a.count = 0 ∨ d.count = 0 then (s, 1)
      else
        let judge := fun (l : List Byte) => decodeTiles d.fmt (tileSizes d) l
        let r := s.engineRun t [a] [d] fun l =>
          let q := judge (l.headD [])
          if q.bad then (8, []) else if q.whole then (6, []) else (if q.drops = 0 then 0 else 6, [q.out])
        if r.2 = 6 then
          -- every tile was read: what was dropped is counted (R500)
          let q := judge (a.all.flatMap fun y => s.rawBytes (y.1 % 2 ^ 44) y.2)
          (if q.whole then r.1.count (corePg c + 0x808) else r.1.addLv (corePg c + 0x800) 63 0 q.drops, 6)
        else r
    | _, _ => (s, 8)
def execSdec (sc : SlotCtx) (x : BitVec 52) (s : State) := run (sdecEffect sc x) s

/-! ### SGATHER, SSCATTER_ADD -/

/-- The operands share a sparse format and SIZE0, the table has two dimensions, the indices are U32, and there is a row for
each index (R632). -/
def rowsOk (table rows idx : Desc) : Bool :=
  table.dims == 2 && sparseFmt table.fmt && rows.fmt == table.fmt && rows.size 0 == table.size 0 && idx.fmt == 0x13
    && rows.count == table.size 0 * idx.count

def indices (l : List Byte) : List Nat := (cut 4 l.length l).map leNat

def sgatherEffect (sc : SlotCtx) (x : BitVec 52) (s : Dev) : Dev :=
  s.engineSlot sc .sparse 3 x fun s t o =>
    match s.desc t o.ha, s.desc t o.hd, s.desc t o.hb with
    | some a, some d, some b =>
      if o.hc ≠ 0 ∨ !rowsOk a d b then (s, 8)
      else if a.count = 0 ∨ d.count = 0 then (s, 1)
      else
        let n := a.size 0 * elemBytes a.fmt
        let r := s.engineRun t [a, b] [d] fun l =>
          let ix := indices (l.getD 1 [])
          (if ix.any (a.size 1 ≤ ·) then 6 else 0,
           [ix.flatMap fun q => if q < a.size 1 then slice (l.getD 0 []) (q * n) n else List.replicate n 0])
        if r.2 = 6 then
          let ix := indices (b.all.flatMap fun y => s.rawBytes (y.1 % 2 ^ 44) y.2)
          (r.1.addLv (corePg (t / 16) + 0x800) 63 0 (ix.filter (a.size 1 ≤ ·)).length, 6)
        else r
    | _, _, _ => (s, 8)
def execSgather (sc : SlotCtx) (x : BitVec 52) (s : State) := run (sgatherEffect sc x) s

/-- One table row with its updates: exact, rounded once (R632). -/
def scatterRow (fmt : Nat) (cfg : ArithCfg) (k : CtxKey) (base : Nat) (row : List Byte) (ups : List (List Byte)) : List Byte :=
  let vals := fun (l : List Byte) => decodeAll fmt cfg.flushIn l
  let recs := (row :: ups).foldl (fun rs l => enterAll fmt 1 rs (vals l)) []
  roundAll fmt false cfg (keyWord k) k.chunk.toNat base recs

/-- The table after every update: a row that no index names keeps its bits. -/
def scatterTable (fmt elems rows : Nat) (cfg : ArithCfg) (k : CtxKey) (table ups : List Byte) (ix : List Nat) : List Byte :=
  let n := elems * elemBytes fmt
  (List.range rows).flatMap fun r =>
    let mine := (ix.zipIdx.filter fun q => q.1 == r).map fun q => slice ups (q.2 * n) n
    let row := slice table (r * n) n
    if mine.isEmpty then row else scatterRow fmt cfg k (r * elems) row mine

/-- Rows with more updates than CORE_SPARSE_CFG.SPLIT, each a split (R509). -/
def Dev.splits (s : Dev) (c : Nat) (ix : List Nat) : Nat :=
  let sp := s.cfg (corePg c + 0x1800) 15 0
  if sp = 0 then 0 else (ix.eraseDups.filter fun r => decide ((ix.filter (· == r)).length > sp)).length

def sscatterAddEffect (sc : SlotCtx) (x : BitVec 52) (s : Dev) : Dev :=
  s.engineSlot sc .sparse 3 x fun s t o =>
    match s.desc t o.ha, s.desc t o.hd, s.desc t o.hb with
    | some a, some d, some b =>
      if o.hc ≠ 0 ∨ !rowsOk d a b then (s, 8)
      else if a.count = 0 ∨ d.count = 0 then (s, 1)
      else
        let cfg := s.arithNow t
        let r := s.engineRun t [d, a, b] [d] fun l =>
          let ix := indices (l.getD 2 [])
          (if ix.any (d.size 1 ≤ ·) then 6 else 0,
           [scatterTable d.fmt (d.size 0) (d.size 1) cfg (slotKey t d) (l.getD 0 []) (l.getD 1 []) ix])
        if r.2 = 0 ∨ r.2 = 6 then
          let ix := indices (b.all.flatMap fun y => s.rawBytes (y.1 % 2 ^ 44) y.2)
          let bad := (ix.filter (d.size 1 ≤ ·)).length
          let u := r.1.addLv (corePg (t / 16) + 0x828) 63 0 (s.splits (t / 16) (ix.filter (· < d.size 1)))
          (u.addLv (corePg (t / 16) + 0x800) 63 0 bad, r.2)
        else r
    | _, _, _ => (s, 8)
def execSscatterAdd (sc : SlotCtx) (x : BitVec 52) (s : State) := run (sscatterAddEffect sc x) s

end Sys2Proof.Machine
end

