-- ==== Sys2Proof/Machine/Adapter.lean ====
section
/-! DEFINITION. Adapter mode: queue pairs of thin endpoints, their work requests and transactions (R231 to R238), and the
eyespot maps of their tiles (R503 to R507). -/

namespace Sys2Proof.Machine

/-! ### Queues -/

/-- The queue may run: its entry is valid, its port an ACTIVE ADAPTER port (R231). -/
def Dev.adpUp (s : Dev) (k : Nat) : Bool :=
  let c := s.adpCfg k
  c.valid && s.portMode c.port == 3 && s.portState c.port == 5

/-- An index that has moved to `v` modulo the queue size: the count it has reached. -/
def indexTo (old v log : Nat) : Nat := old + (v + 2 ^ log - old % 2 ^ log) % 2 ^ log

/-- The completion queue holds no free slot (R236). -/
def Dev.adpCqFull (s : Dev) (k : Nat) : Bool :=
  let a := s.adp k
  decide (a.cqTail - a.cqHead ≥ 2 ^ (s.adpCfg k).cqLog)

/-- The COLL work request of a queue. -/
def Dev.adpWork (s : Dev) (k : Nat) : Option Work := s.works.find? fun x => x.who == Member.adapter (k / 256) (k % 256)

/-- A work request ends: its WR entry is owed and the queue moves on. -/
def Dev.adpFinish (s : Dev) (k status : Nat) : Dev :=
  let a := s.adp k
  match a.cur with
  | none => s
  | some c =>
    let moved := match s.adpWork k with | some x => x.moved | none => c.2.2.2
    let s := { s with works := s.works.filter fun x => x.who != Member.adapter (k / 256) (k % 256) }
    (s.updAdp k fun a => { a with cur := none, sqHead := a.sqHead + 1, wr := [], txs := [] }).adpOwe k status 0 c.2.1.toNat moved

/-- Contexts whose local landings may be over are released (R416). -/
def Dev.tryAcks (s : Dev) : Dev := ((s.ctxs.filter (·.phase == .retained)).map (·.key)).foldl Dev.tryAck s

/-! ### WRITE and READ (R233): one piece under way at a time -/

def adpPiece : Nat := 4096

/-- Begin the next piece of a WRITE or READ, or end it; while the completion queue is full it waits (R236). -/
def Dev.adpNext (s : Dev) (k : Nat) : Dev :=
  match (s.adp k).cur with
  | none => s
  | some (op, _, _, moved) =>
    if s.adpCqFull k then s else
    let w := WrImg.read (s.adp k).wr
    let n := min adpPiece (w.length - moved)
    if n = 0 then s.adpFinish k 0
    else if op = 1 then s.adpSend k true (w.localA.toNat + moved) (readLen n) 0 false 0
    else
      let a := w.remote.toNat + moved
      if a / 2 ^ 44 ≠ s.own then
        ({ s with nextId := s.nextId + 1 } : Dev).adpOne k true a (readLen n) (s.adpTx 0 false 0 n 0 [])
      else
        match s.memRead (.part (s.adpCfg k).part) (a % 2 ^ 44) n with
        | (t, some 0, l) | (t, none, l) => t.adpSend k false (w.localA.toNat + moved) l 1 false 0
        | (t, some st, _) => t.adpFinish k st

/-- A piece has been written: go on. -/
def Dev.adpMoved (s : Dev) (k n : Nat) : Dev :=
  (s.updAdp k fun a => { a with cur := a.cur.map fun c => (c.1, c.2.1, c.2.2.1, c.2.2.2 + n) }).adpNext k

/-- The data of a piece has been read: write it where the work request says. -/
def Dev.adpPut (s : Dev) (k : Nat) (data : List Byte) : Dev :=
  match (s.adp k).cur with
  | none => s
  | some (op, _, _, moved) =>
    let w := WrImg.read (s.adp k).wr
    if op = 2 then s.adpSend k false (w.localA.toNat + moved) data 1 false 0
    else
      let a := w.remote.toNat + moved
      if a / 2 ^ 44 ≠ s.own then
        ({ s with nextId := s.nextId + 1 } : Dev).adpOne k false a data (s.adpTx 1 false 0 data.length 0 [])
      else
        match s.memWrite (.part (s.adpCfg k).part) (a % 2 ^ 44) data with
        | (t, some 0) | (t, none) => t.adpMoved k data.length
        | (t, some st) => t.adpFinish k st

/-! ### COLL -/

/-- The core whose sparse engine encodes a queue's tiles (R507). -/
def Dev.adpEncoder (s : Dev) (k : Nat) : Option Nat :=
  let c := s.adpCfg k
  ((List.range 64).map (c.port / 128 * 64 + ·)).find? fun n => s.coreUp n && s.corePart n == c.part

/-- The eyespot map of a tile of a queue's COLL: compare its prediction with the data and rewrite it (R503 to R507). -/
def Dev.adpEyespot (s : Dev) (k : Nat) (x : Work) (c : Nat) (data : List Byte) : Dev :=
  let j := c - x.first.toNat
  let e := elemBytes x.fmt
  match s.adpEncoder k with
  | none => s
  | some core =>
    if j ≥ 1024 ∨ x.pattern > 2 ∨ x.func > 2 ∨ sparseFmt x.fmt = false ∨ data.isEmpty ∨ data.length > 256 * e
        ∨ s.cfg (corePg core + 0x1800) 17 17 = 0 then s
    else
      let us := unitsOf x.fmt data
      let old := Map.get (s.adp k).eyespot j (List.replicate 32 0)
      let s := if mapMissed x.fmt us old then s.count (corePg core + 0x818) else s
      s.updAdp k fun a => { a with eyespot := Map.put a.eyespot j (mapOf us) (List.replicate 32 0) }

/-- Begin to send one chunk of a queue's COLL. A barrier arrival is formed by the device (R437). -/
def Dev.adpChunk (s : Dev) (k : Nat) (x : Work) (c : Nat) : Dev :=
  let cfg := s.adpCfg k
  let d := cfg.port / 128
  if isBarrier x.pattern x.func then s.memberSend d x.slot x c arrival cfg.part 0
  else if x.pattern = 6 ∧ x.func = 1 then
    match s.infoOf x.group x.epoch x.rank with
    | none => s.chunkDone x c 8 0
    | some r =>
      (combineSlots r x c).foldl (fun u a => u.adpSend k true a (readLen ((RouteHdr.read r.header).slotBytes r.fmt)) c false 0) s
  else if x.length = 0 then s.memberSend d x.slot x c [] cfg.part 0
  else s.adpSend k true (x.localA.toNat + (c - x.first.toNat) * x.length) (readLen x.length) c false 0

/-- A member's work on a DISPATCH chunk whose root context is lost: the DISPATCH is replayed; a COMBINE, whose route state is gone,
ends CONTEXT_LOST (R542; DEDUCED, log 134). -/
def Dev.replayRoute (s : Dev) (k : CtxKey) : Dev :=
  let c := k.chunk.toNat
  match s.epochAny k.group k.epoch with
  | none => s
  | some e => ((s.allWorks e k).filter fun x => x.1.pattern == 6).foldl (fun t x =>
      if x.1.func = 1 then t.chunkDone x.1 c 5 0
      else match x.1.who with
        | .thread m => t.threadChunk (m / 1024) x.2 m x.1 c
        | .adapter g q => t.adpChunk (g * 256 + q) x.1 c) s

/-- Members replay the chunks lost in this beat (R542). -/
def Dev.replayRoutes (s : Dev) : Dev := s.replays.foldl Dev.replayRoute { s with replays := [] }

/-- Source reads of a queue under way. -/
def AdpQ.reading (a : AdpQ) : Nat := (a.txs.filter fun t => !t.landing).length

/-- Send chunks of a queue's COLL while fewer than 64 source reads are under way and the completion queue has room (R236). -/
def Dev.adpPump : Nat → Dev → Nat → Dev
  | 0, s, _ => s
  | n + 1, s, k =>
    match s.adpWork k with
    | none => s
    | some x =>
      if x.sentTiles ≥ x.count ∨ (s.adp k).reading ≥ 64 ∨ s.adpCqFull k then s
      else
        let y := { x with sentTiles := x.sentTiles + 1 }
        let c := x.first.toNat + x.sentTiles
        let s := s.updWork x fun _ => y
        -- a replay after a group reset leaves out the chunks that have landed (R425, R440)
        Dev.adpPump n (if x.landed.contains c then s else s.adpChunk k y c) k

/-- The status that stops a work request of a queue as it is taken, a COLL's by what its epoch has latched where that is open (R403), or for a COLL the member slot it runs as (R232, R237,
R387, R402, R485). A work request whose reserved bytes or bits are not zero completes MALFORMED, whatever its operation (DESIGN
CHOICE, log 112: R232 says only 'Zero'). -/
def Dev.adpCheck (s : Dev) (k : Nat) (w : WrImg) : Nat ⊕ Option (Nat × GEntry) :=
  if w.op = 1 ∨ w.op = 2 then
    if !w.clean ∨ w.count ≠ 0 then .inl 8 else if w.length = 0 then .inl 1 else .inr none
  else if w.collBad ∨ ((s.epochOf w.group w.epoch).isNone ∧ !groupValid s.active w.group) then .inl 8
  else
    let p := (s.adpCfg k).port
    match s.memberSlot w.group w.epoch fun m => !memberIsThread m && s.placeOf (memberPort m) == some p && memberQueue m == k % 256 with
    | none => .inl 8
    | some (slot, m, e) =>
      if memberRank m ≠ w.rank ∨ s.epochWrong w.group w.epoch then .inl 8
      else if isND w.pattern w.func w.fmt && s.cfg (topPg + 0x1080) 0 0 == 1 then .inl 7
      else if w.expected e = 0 then .inl 1
      else .inr (some (slot, e))

/-- Execute the work request whose bytes have been read (R232). -/
def Dev.adpTake (s : Dev) (k : Nat) : Dev :=
  let g := k / 256
  let w := WrImg.read (s.adp k).wr
  let s := s.updAdp k fun a => { a with cur := some (w.op, w.wrId, 0, 0) }
  match s.adpCheck k w with
  | .inl st => (if st = 1 then s.count (lnkPg g + 0x118) else s).adpFinish k st
  | .inr none => s.adpNext k
  | .inr (some (slot, e)) =>
    let y := w.work (.adapter g (k % 256)) slot e 0
    let s : Dev := { s with works := s.works ++ [if y.sends e then y else { y with sentTiles := y.count }] }
    Dev.adpPump 64 s k

/-- Ask the endpoint for the 64 bytes of the work request at the head of the send queue (R231). -/
def Dev.adpFetch (s : Dev) (k : Nat) : Dev :=
  let c := s.adpCfg k
  s.adpSend k true (c.sqBase + 64 * ((s.adp k).sqHead % 2 ^ c.sqLog)) (readLen 64) 0 false 0

/-- An adapter queue takes its next work request: it reads it from the send queue, and once its bytes are here executes it (R231,
R233). Nothing starts while the completion queue is full (R236) or a drained molt holds ingress (R238). -/
def adpWrStartEffect (d : DieNo) (g : Fin 16) (q : Fin 256) (s : Dev) : Dev :=
  let k := (d.val * 16 + g.val) * 256 + q.val
  let a := s.adp k
  if s.fatal ∨ s.adpUp k = false ∨ a.sqHead = a.sqTail ∨ a.cur.isSome ∨ !a.txs.isEmpty ∨ s.adpCqFull k
      ∨ s.holdsIngress (s.adpCfg k).port then s
  else if a.wr.isEmpty then s.adpFetch k
  else s.adpTake k
def execAdpWrStart (d : DieNo) (g : Fin 16) (q : Fin 256) (s : State) := run (adpWrStartEffect d g q) s

/-- The completion queue has room again: execution goes on (R236). -/
def Dev.adpResume (s : Dev) (k : Nat) : Dev :=
  match (s.adp k).cur with
  | none => s
  | some (op, _, _, _) => if op = 3 then Dev.adpPump 64 s k else if (s.adp k).txs.isEmpty then s.adpNext k else s

/-! ### Answers and retries -/

/-- The queue and transaction that wait for an answer with a tag from a node. -/
def Dev.adpOwner (s : Dev) (tag : BitVec 12) (node : BitVec 20) : Option (Nat × AdpTx) :=
  s.adapters.findSome? fun a => (a.2.txs.find? fun t => t.tag == tag && !t.held && t.pkt.node == node.toNat).map fun t => (a.1, t)

/-- A landing write of a COLL is answered: the chunk is complete at the member once all pieces are (R422). -/
def Dev.adpLanded (s : Dev) (k : Nat) (t : AdpTx) (status : Nat) : Dev :=
  if (s.adp k).txs.any fun y => y.wid == t.wid then
    let mark := fun (y : AdpTx) => { y with status := worse y.status status }
    s.updAdp k fun a => { a with txs := updWhere (fun (y : AdpTx) => y.wid == t.wid) mark a.txs }
  else
    match s.adpWork k with
    | none => s
    | some x =>
      let c := t.chunk
      let key : CtxKey := ⟨x.group, x.epoch, BitVec.ofNat 32 c⟩
      let st := worse t.status status
      if x.pattern = 6 then
        if !t.counts.isEmpty then
          let s := if st = t.status then s.landedAt key x.slot else s
          (s.routeCounts x c t.counts st).tryAck key
        else
          let need := if x.func = 0 then none else (s.infoOf x.group x.epoch x.rank).map (·.rows)
          let s := s.routeStep x c t.rows need st
          if x.func = 1 ∧ (s.adpWork k).all (fun y => y.landed.contains c) then
            let e : Ext := { group := x.group, epoch := x.epoch, chunk := key.chunk, rank := BitVec.ofNat 20 x.rank, pattern := 6,
                             func := 1, fmt := BitVec.ofNat 5 x.fmt, form := 0, ckind := 0, status := 0, sat := x.sat, seg := 0 }
            s.routeAck ((s.adpCfg k).port / 128) e (s.adpCfg k).part 0
          else s
      else
        let s := if st = t.status then s.landedAt key x.slot else s
        (s.chunkDone x c st t.total).tryAck key

/-- The bytes of the next work request are here. One that cannot be read ends with the status of the read; its WR_ID, which nothing
has read, is free (DESIGN CHOICE, log 106). -/
def Dev.adpFetched (s : Dev) (k status : Nat) (data : List Byte) : Dev :=
  if status = 0 then s.updAdp k fun a => { a with wr := fit data 64 }
  else
    let w := s.draw
    (w.2.updAdp k fun a => { a with sqHead := a.sqHead + 1 }).adpOwe k status 0 w.1.toNat 0

/-- A transaction of a queue is answered with a status and, for a read that succeeded, its data (R233). -/
def Dev.adpAnswer (s : Dev) (k : Nat) (t : AdpTx) (status : Nat) (data : List Byte) : Dev :=
  let s := s.updAdp k fun a => { a with txs := a.txs.filter fun y => y.held || y.tag != t.tag || y.pkt.node != t.pkt.node }
  match (s.adp k).cur with
  | none => s.adpFetched k status data
  | some (op, _, _, _) =>
    if op = 3 then
      if t.landing then s.adpLanded k t status
      else
        match s.adpWork k with
        | none => s
        | some x =>
          let cfg := s.adpCfg k
          let s :=
            if status ≠ 0 then s.chunkDone x t.chunk status 0
            else if x.pattern = 6 ∧ x.func = 1 then
              match s.infoOf x.group x.epoch x.rank with
              | some r => s.combineSend (cfg.port / 128) x t.chunk r data cfg.part 0
              | none => s
            else (s.adpEyespot k x t.chunk data).memberSend (cfg.port / 128) x.slot x t.chunk data cfg.part 0
          Dev.adpPump 64 s k
    else if status ≠ 0 then s.adpFinish k status
    else if t.chunk = 0 then s.adpPut k data
    else if (s.adp k).txs.isEmpty then s.adpMoved k t.total
    else s

/-- A transaction has waited long enough: it is sent again, or its work request ends with TIMEOUT (R233). -/
def adpRetryEffect (g : GroupNo) (q : Fin 256) (tag : BitVec 12) (s : Dev) : Dev :=
  let k := g.val * 256 + q.val
  let w := lnkPg g.val + 0x1060
  let late := fun (t : AdpTx) => decide (t.tick + max 1024 (s.cfg w 31 0) ≤ s.ticks)
  match (s.adp k).txs.find? fun t => t.tag == tag && !t.held && late t with
  | none => s
  | some t =>
    if s.fatal then s
    else if t.tries < s.cfg w 39 32 then
      let again := fun (y : AdpTx) => { y with tries := y.tries + 1, tick := s.ticks }
      let s := (s.updAdp k fun a => { a with txs := updWhere (· == t) again a.txs }).countPort
        (s.adpCfg k).port 0x600 0x10
      s.sendFormed ((s.adpCfg k).port / 128) t.pkt
    else if (s.adp k).cur.isSome then (s.adpFinish k 9).tryAcks
    else (s.updAdp k fun a => { a with txs := [] }).adpFetched k 9 []
def execAdpRetry (g : GroupNo) (q : Fin 256) (tag : BitVec 12) (s : State) := run (adpRetryEffect g q tag) s

/-- The oldest entry that a queue is owed is written into its completion queue with a COMPLETION packet (R234 to R236). -/
def adpCompletionWriteEffect (g : GroupNo) (q : Fin 256) (s : Dev) : Dev :=
  let k := g.val * 256 + q.val
  let a := s.adp k
  let c := s.adpCfg k
  match a.done with
  | [] => s
  | e :: rest =>
    if s.fatal ∨ s.adpUp k = false ∨ s.adpCqFull k then s
    else
      let phase := xor Config.firstPhase (a.cqTail / 2 ^ c.cqLog % 2 == 1)
      let img := cqEntry e.1 e.2.1 q.val e.2.2.1.toNat e.2.2.2.toNat
      let img := patch img 1 [BitVec.ofNat 8 (leAt img 1 1 + b2n phase)]
      let dst := s.peerNode c.port * 2 ^ 44 + (c.cqBase + 16 * (a.cqTail % 2 ^ c.cqLog)) % 2 ^ 44
      let s := s.updAdp k fun a => { a with done := rest, cqTail := a.cqTail + 1 }
      s.sendFormed (c.port / 128) (mkPkt ptCompletion dst s.own 0 c.part 0 1 img)
def execAdpCompletionWrite (g : GroupNo) (q : Fin 256) (s : State) := run (adpCompletionWriteEffect g q) s

/-- A doorbell from a thin endpoint: the send queue's tail or the completion queue's head (R231). -/
def Dev.adpDoorbell (s : Dev) (p : Nat) (pkt : Packet) : Dev :=
  let a := pkt.laddr
  let k := p / 8 * 256 + a % 256
  let c := s.adpCfg k
  let v := leAt pkt.payload 0 4
  if !c.valid ∨ c.port ≠ p then s.count (lnkPg (p / 8) + 0x120)
  else if bit a 8 then (s.updAdp k fun x => { x with cqHead := indexTo x.cqHead v c.cqLog }).adpResume k
  else s.updAdp k fun x => { x with sqTail := indexTo x.sqTail v c.sqLog }

end Sys2Proof.Machine
end

