-- ==== Sys2Proof/Machine/Sort.lean ====
section
/-! DEFINITION. The sort/filter slot (R633 to R635). -/

namespace Sys2Proof.Machine

def keyFmt (f : Nat) : Bool := decide (0x16 ≤ f) && decide (f ≤ 0x19)

/-- Ascending by key, stable. -/
def sortAsc (fmt : Nat) (es : List (List Byte)) : List (List Byte) := sortBy (fun a b => decide (elemKey fmt a < elemKey fmt b)) es

/-- Descending by key, stable. -/
def sortDesc (fmt : Nat) (es : List (List Byte)) : List (List Byte) := sortBy (fun a b => decide (elemKey fmt b < elemKey fmt a)) es

/-- Two-pointer merge of at most `n` elements: the head of the first run goes when the keys are equal (R634). -/
def mergeRuns (fmt : Nat) : Nat → List (List Byte) → List (List Byte) → List (List Byte)
  | 0, _, _ => []
  | _ + 1, [], bs => bs
  | _ + 1, as, [] => as
  | n + 1, a :: as, b :: bs =>
    if elemKey fmt a ≤ elemKey fmt b then a :: mergeRuns fmt n as (b :: bs) else b :: mergeRuns fmt n (a :: as) bs

def sortEffect (sc : SlotCtx) (x : BitVec 52) (s : Dev) : Dev :=
  s.engineSlot sc .sort 4 x fun s t o =>
    match s.desc t o.ha, s.desc t o.hd with
    | some a, some d =>
      if o.hb ≠ 0 ∨ o.hc ≠ 0 ∨ !keyFmt a.fmt ∨ d.fmt ≠ a.fmt ∨ d.count ≠ a.count ∨ a.count > 65536 then (s, 8)
      else if a.count = 0 then (s, 1)
      else s.engineRun t [a] [d] fun l => (0, [(sortAsc a.fmt (keyElems a.fmt (l.headD []))).flatten])
    | _, _ => (s, 8)
def execSort (sc : SlotCtx) (x : BitVec 52) (s : State) := run (sortEffect sc x) s

def mergeEffect (sc : SlotCtx) (x : BitVec 52) (s : Dev) : Dev :=
  s.engineSlot sc .sort 4 x fun s t o =>
    match s.desc t o.ha, s.desc t o.hd, s.desc t o.hb with
    | some a, some d, some b =>
      if o.hc ≠ 0 ∨ !keyFmt a.fmt ∨ d.fmt ≠ a.fmt ∨ b.fmt ≠ a.fmt ∨ d.count ≠ a.count + b.count then (s, 8)
      else if a.count = 0 ∨ b.count = 0 then (s, 1)
      else s.engineRun t [a, b] [d] fun l =>
        (0, [(mergeRuns a.fmt d.count (keyElems a.fmt (l.getD 0 [])) (keyElems a.fmt (l.getD 1 []))).flatten])
    | _, _, _ => (s, 8)
def execMerge (sc : SlotCtx) (x : BitVec 52) (s : State) := run (mergeEffect sc x) s

def topkEffect (sc : SlotCtx) (x : BitVec 52) (s : Dev) : Dev :=
  s.engineSlot sc .sort 4 x fun s t o =>
    match s.desc t o.ha, s.desc t o.hd with
    | some a, some d =>
      if o.hb ≠ 0 ∨ o.hc ≠ 0 ∨ !keyFmt a.fmt ∨ d.fmt ≠ a.fmt ∨ d.count > 1024 ∨ d.count > a.count then (s, 8)
      else if a.count = 0 ∨ d.count = 0 then (s, 1)
      else s.engineRun t [a] [d] fun l => (0, [((sortDesc a.fmt (keyElems a.fmt (l.headD []))).take d.count).flatten])
    | _, _ => (s, 8)
def execTopk (sc : SlotCtx) (x : BitVec 52) (s : State) := run (topkEffect sc x) s

/-- Elements within the bounds, in index order. -/
def passing (fmt lo hi : Nat) (es : List (List Byte)) : List (List Byte) :=
  es.filter fun b => decide (lo ≤ elemKey fmt b) && decide (elemKey fmt b ≤ hi)

def filterEffect (sc : SlotCtx) (x : BitVec 52) (s : Dev) : Dev :=
  s.engineSlot sc .sort 4 x fun s t o =>
    match s.desc t o.ha, s.desc t o.hd, s.desc t o.hb, s.desc t o.hc with
    | some a, some d, some b, some c =>
      if !keyFmt a.fmt ∨ d.fmt ≠ a.fmt ∨ b.fmt ≠ 0x15 ∨ b.count ≠ 2 ∨ c.fmt ≠ 0x15 ∨ c.count ≠ 1 then (s, 8)
      else if a.count = 0 ∨ d.count = 0 then (s, 1)
      else s.engineRun t [a, b] [d, c] fun l =>
        let es := passing a.fmt (leAt (l.getD 1 []) 0 8) (leAt (l.getD 1 []) 8 8) (keyElems a.fmt (l.getD 0 []))
        (if es.length > d.count then 0x0A else 0, [(es.take d.count).flatten, leBytes 8 es.length])
    | _, _, _, _ => (s, 8)
def execFilter (sc : SlotCtx) (x : BitVec 52) (s : State) := run (filterEffect sc x) s

end Sys2Proof.Machine
end

