-- ==== Sys2Proof/Machine/Ins.lean ====
section
/-! DEFINITION. The molt commands (R91 to R96, R807, R808) and the signature of the audit head (R119, R120). -/

namespace Sys2Proof.Machine

/-! ### Arming -/

/-- The refusal an arm command meets first, in the order of R807; 0 for none. -/
def Dev.armRefusal (s : Dev) (timed rollback : Bool) (beat : Nat) : Nat :=
  if s.fatal then 0x0B
  else if s.insState = 1 ∨ s.insState = 2 then 0x08
  else if s.number = 0xFFFFFFFF then 0x09
  else if rollback && s.previous.isNone then 0x07
  else if timed && !s.aligned then 0x06
  else if timed && decide (beat < s.beat.toNat + 1024) then 0x05
  else 0

/-- An arm command. A refusal for want of alignment is a refused fabric-timed event of die 0 (R147, R170). Until its
molt an accepted command leaves LAST_RESULT as it was (DESIGN CHOICE, log 114: no rule says what it reads then). -/
def Dev.armMolt (s : Dev) (timed rollback drained : Bool) : Dev :=
  let b : BitVec 64 := if timed then BitVec.ofNat 64 (s.lv (insPg + 0x110) 63 0) else s.beat + 1024
  let r := s.armRefusal timed rollback b.toNat
  if r = 0 then
    ({ s with molt := some { beat := b, drained := drained, rollback := rollback, timed := timed } } : Dev).setInsState 1
  else (if r = 6 then s.count (beatPg 0 + 0x1A0) else s).setMoltResult r

def armEffect (drained : Bool) (s : Dev) : Dev := s.armMolt true false drained
def execArm (drained : Bool) (s : State) := run (armEffect drained) s

def armNowEffect (drained : Bool) (s : Dev) : Dev := s.armMolt false false drained
def execArmNow (drained : Bool) (s : State) := run (armNowEffect drained) s

def rollbackArmEffect (drained : Bool) (s : Dev) : Dev := s.armMolt true true drained
def execRollbackArm (drained : Bool) (s : State) := run (rollbackArmEffect drained) s

def rollbackNowEffect (drained : Bool) (s : Dev) : Dev := s.armMolt false true drained
def execRollbackNow (drained : Bool) (s : State) := run (rollbackNowEffect drained) s

/-- CANCEL acts on an armed molt only (R96). -/
def cancelEffect (s : Dev) : Dev := if s.insState = 1 then s.cancelMolt 0x04 else s
def execCancel (s : State) := run cancelEffect s

def malformedCmdEffect (s : Dev) : Dev := s.setMoltResult 0x0A
def execMalformedCmd (_seven : Bool) (s : State) := run malformedCmdEffect s

/-! ### Signing the head -/

/-- The message of R119: head, sequence, nonce. -/
def Dev.signMessage (s : Dev) : List Byte :=
  s.auditHead ++ leBytes 8 s.auditSeq ++ RegFile.bytes s.live (insPg + 0x280) 16

/-- Rank among the requests of one beat (R761). Among commands of one beat the order is the sender's (DESIGN CHOICE, log 140). -/
def jobRank : SecJob → Nat
  | .sign => 0
  | .command => 1
  | .token _ _ => 2

/-- A request joins those that wait for the engine: in the order of arrival, those of one beat by rank (R761). -/
def Dev.addJob (s : Dev) (j : SecJob) : Dev :=
  let after := fun (a b : Nat × SecJob) => decide (a.1 = b.1) && decide (jobRank a.2 < jobRank b.2)
  { s with sec := { s.sec with jobs := insertBy after (s.ticks, j) s.sec.jobs } }

/-- The request that the engine serves. -/
def Dev.jobNow (s : Dev) : Option SecJob := s.sec.jobs.head?.map (·.2)
/-- The engine is through with it. -/
def Dev.jobEnds (s : Dev) : Dev := { s with sec := { s.sec with jobs := s.sec.jobs.drop 1 } }

def Dev.signState (s : Dev) : Nat := s.lv (insPg + 0x298) 1 0

def insSignStartEffect (s : Dev) : Dev :=
  if s.signState = 1 then s
  else (({ s with sec := { s.sec with signMsg := some s.signMessage } } : Dev).addJob .sign).setLv (insPg + 0x298) 1 0 1
def execInsSignStart (s : State) := run insSignStartEffect s

/-- The signature is complete, or the security block could not make it. It waits for the requests before it (R761). -/
def insSignDoneEffect (ok : Bool) (s : Dev) : Dev :=
  match (if s.jobNow = some .sign then s.sec.signMsg else none) with
  | none => s
  | some m =>
    let t : Dev := ({ s with sec := { s.sec with signMsg := none } } : Dev).jobEnds
    if ok then
      ({ t with live := RegFile.putBytes t.live (insPg + 0x300) (fit (edSign s.sec.secret m) 120) } : Dev).setLv (insPg + 0x298) 1 0 2
    else t.setLv (insPg + 0x298) 1 0 3
def execInsSignDone (ok : Bool) (s : State) := run (insSignDoneEffect ok) s

end Sys2Proof.Machine
end

