-- ==== Sys2Proof/Machine/Beat.lean ====
section
/-! DEFINITION. The commands of fabric time (chapter 03): roles and pulses, exchanges with the upstream, alarms and
snapshots, beat-timed launches, and barrier release at a beat. -/

namespace Sys2Proof.Machine

/-! ### Roles and pulses -/

/-- The device acts on pulses (R126). -/
def Dev.pinRole (s : Dev) : Bool := s.role == 2 || (s.role == 1 && s.loadOnSync)

/-- From LOST, the source of a pin role or of a reference is usable again (R144). -/
def Dev.reacquire (s : Dev) : Dev :=
  let s := s.enterState bsAcquiring
  if s.role = 1 ∧ s.loadOnSync = false then s.enterState bsAligned else s

/-- A write to BEAT_CTRL (R132). -/
def beatCtrlRoleWriteEffect (v : BitVec 32) (s : Dev) : Dev :=
  let was := s.aligned
  let s := s.putLv (beatPg 0 + 0x110) (v.toNat &&& 0x13)
  let s := ((s.setLv bsAddr 24 24 0).setLv bsAddr 11 8 0).setLv bsAddr 47 32 0
  let s := { s with time := { s.time with t1 := none, steer := 0 } }
  let plainRef := s.role == 1 && !s.loadOnSync
  if s.role = 0 then
    let s := s.enterState bsFree
    if was then s.setLv bsAddr 19 16 9 else s
  else if s.time.refLost then s.lose false 7
  else if plainRef then s.enterState bsAligned
  else
    let s := s.enterState bsAcquiring
    if was then s.setLv bsAddr 19 16 9 else s
def execBeatCtrlRoleWrite (v : BitVec 32) (s : State) := run (beatCtrlRoleWriteEffect v) s

/-- A load pulse (R127, R128, R145). -/
def loadPulseEffect (s : Dev) : Dev :=
  if s.pinRole = false ∨ s.time.refLost ∨ s.bState ≠ bsAcquiring then s
  else
    let load := RegFile.get s.live (beatPg 0 + 0x118)
    let steps := load != s.beat
    if steps && s.insState == 1 then s
    else
      let s := if steps then (s.count (beatPg 0 + 0x178)).stepCount load else s
      let s := { s with time := { s.time with phase := s.ticks, steer := 0 } }
      s.enterState bsAligned
def execLoadPulse (s : State) := run loadPulseEffect s

/-- P of BEAT_SYNC_PERIOD; 0 for a reserved value (R173). -/
def Dev.syncPeriod (s : Dev) : Nat :=
  let p := s.lv (beatPg 0 + 0x120) 5 0
  if 10 ≤ p ∧ p ≤ 40 then p else 0

/-- The count is a multiple of the check period within one beat (R128). -/
def Dev.pulseOk (s : Dev) : Bool :=
  let r := s.beat.toNat % 2 ^ s.syncPeriod
  decide (r ≤ 1) || decide (r + 1 = 2 ^ s.syncPeriod)

/-- A check pulse (R128). -/
def checkPulseEffect (s : Dev) : Dev :=
  if s.pinRole = false ∨ s.time.refLost ∨ s.aligned = false ∨ s.syncPeriod = 0 ∨ s.pulseOk then s
  else (s.lose false 6).reacquire
def execCheckPulse (s : State) := run checkPulseEffect s

/-- BEAT_REF stops or leaves the lock range (R129). -/
def beatRefLossEffect (s : Dev) : Dev :=
  if s.time.refLost then s
  else
    let s : Dev := { s with time := { s.time with refLost := true } }
    if s.bState = bsAligned then s.lose true 7
    else if s.bState = bsAcquiring then s.lose false 7
    else s
def execBeatRefLoss (s : State) := run beatRefLossEffect s

/-- BEAT_REF is back: pin roles and a reference are in tolerance at once, a follower of a link at its next exchange
(R134, R144). -/
def beatRefReturnEffect (s : Dev) : Dev :=
  if s.time.refLost = false then s
  else
    let s : Dev := { s with time := { s.time with refLost := false } }
    if s.role = 0 ∨ s.role = 3 then s
    else if s.bState = bsHoldover then s.enterState bsAligned
    else if s.bState = bsLost then s.reacquire
    else s
def execBeatRefReturn (s : State) := run beatRefReturnEffect s

/-- The holdover limit has elapsed (R134). -/
def holdoverExpireEffect (s : Dev) : Dev :=
  match s.time.holdoverEnd with
  | some t => if s.bState = bsHoldover ∧ t ≤ s.ticks then s.lose false 8 else s
  | none => s
def execHoldoverExpire (s : State) := run holdoverExpireEffect s

/-! ### Exchanges -/

/-- A port can carry an exchange (R152, R243). -/
def Dev.exchUp (s : Dev) (p : Option Nat) : Bool :=
  match p with
  | some p => s.portState p == 5 && isPorone (s.portMode p)
  | none => false

/-- While not aligned, exchanges go to the other upstream port when the one in use is down (R144). -/
def Dev.pickUpstream (s : Dev) : Dev :=
  let other := if s.altInUse then s.primaryPort else s.alternatePort
  if s.aligned = false ∧ s.altValid ∧ s.exchUp s.upPort = false ∧ s.exchUp other then
    s.setLv bsAddr 24 24 (1 - b2n s.altInUse)
  else s

/-- In LOST, a port that gives no usable answer gives way to the other upstream port, where that can carry an exchange: a source
is either of them (R144). -/
def Dev.tryOther (s : Dev) : Dev :=
  let other := if s.altInUse then s.primaryPort else s.alternatePort
  if s.bState = bsLost ∧ s.altValid ∧ s.exchUp other then
    let s := s.setLv bsAddr 24 24 (1 - b2n s.altInUse)
    { s with time := { s.time with t1 := none } }
  else s

/-- Send a time request (R135). In LOST a request without an answer till now turns to the other port. -/
def timeReqSendEffect (s : Dev) : Dev :=
  let s := s.pickUpstream
  let due := s.role = 3 ∧ s.exchPeriod ≠ 0 ∧ s.time.lastReq + s.exchPeriod ≤ s.ticks
  let s := if due ∧ s.time.t1.isSome then s.tryOther else s
  if s.role ≠ 3 ∨ s.exchPeriod = 0 ∨ s.ticks < s.time.lastReq + s.exchPeriod then s
  else
    match s.upPort with
    | none => s
    | some p =>
      if s.exchUp (some p) then
        let r := s.stamp 0
        let s : Dev := { r.2 with time := { r.2.time with t1 := some r.1, lastReq := r.2.ticks } }
        s.sendMsg p (.timeReq false r.1)
      else s
def execTimeReqSend (s : State) := run timeReqSendEffect s

/-- The domain this device follows or sends (R136, R173). -/
def Dev.domainNow (s : Dev) : Nat := if s.role = 3 then s.lv bsAddr 47 32 else s.lv (beatPg 0 + 0x158) 15 0

/-- Answer a time request (R136, R209). -/
def timeReqEffect (p : PortNo) (_t1 : BitVec 72) (replayed : Bool) (t2frac : Byte) (s : Dev) : Dev :=
  if replayed ∨ s.exchUp (some p.val) = false then s
  else
    let hops := s.lv bsAddr 11 8
    if s.aligned then
      let t2 := BitVec.ofNat 72 (s.beat.toNat * 256 + t2frac.toNat)
      let r := s.stamp t2frac.toNat
      r.2.sendMsg p.val (.timeResp true false (BitVec.ofNat 16 s.domainNow) (BitVec.ofNat 8 hops) t2 r.1)
    else s.sendMsg p.val (.timeResp false false (BitVec.ofNat 16 s.domainNow) (BitVec.ofNat 8 hops) 0 0)
def execTimeReq (p : PortNo) (t1 : BitVec 72) (replayed : Bool) (t2frac : Byte) (s : State) :=
  run (timeReqEffect p t1 replayed t2frac) s

/-- Difference of two timestamps, in 1/256 beat. -/
def stampDiff (a b : BitVec 72) : Int := sext 72 (a - b).toNat

/-- delay and offset of an exchange (R137). The halving rounds down. -/
def exchange (t1 t2 t3 t4 : BitVec 72) (asym : Int) : Int × Int :=
  let delay := (stampDiff t4 t1 - stampDiff t3 t2) / 2 - asym
  (delay, stampDiff t2 t1 - delay)

def Dev.asym (s : Dev) : Int :=
  let w := s.lv (beatPg 0 + 0x130) 31 0
  sext 16 (if s.altInUse then w / 65536 else w)

/-- BEAT_ALIGN_TOL; 0 acts as 1 (R173). -/
def Dev.alignTol (s : Dev) : Nat := max 1 (s.lv (beatPg 0 + 0x138) 15 0)

def Dev.setGood (s : Dev) (n : Nat) : Dev := { s with time := { s.time with good := n } }

/-- An aligned answer while ACQUIRING (R134, R139, R144, R145). -/
def Dev.acquireStep (s : Dev) (t4 : BitVec 72) (offset : Int) : Dev :=
  let big := decide (offset.natAbs > 256)
  if s.time.first && big && s.insState == 1 then s.setGood 0
  else
    let s :=
      if s.time.first && big then
        let b : BitVec 64 := BitVec.ofInt 64 (((t4.toNat : Int) + offset) / 256)
        let s := (s.count (beatPg 0 + 0x178)).stepCount b
        { s with time := { s.time with steer := 0 } }
      else s
    let s : Dev := { s with time := { s.time with first := false } }
    if offset.natAbs ≤ s.alignTol then
      if s.time.good + 1 ≥ 16 then s.enterState bsAligned else s.setGood (s.time.good + 1)
    else s.setGood 0

/-- An aligned answer while ALIGNED (R140). -/
def Dev.alignedStep (s : Dev) (offset : Int) : Dev :=
  if offset.natAbs ≤ s.alignTol then { s with time := { s.time with bad := 0 } }
  else if s.time.bad + 1 ≥ 4 then s.lose false 3
  else { s with time := { s.time with bad := s.time.bad + 1 } }

/-- An aligned answer in HOLDOVER: the primary returns with one exchange within tolerance, the alternate takes four in a row
(R134, R141), both before the holdover limit. -/
def Dev.holdoverStep (s : Dev) (offset : Int) : Dev :=
  if s.time.refLost then s
  else if (match s.time.holdoverEnd with | some t => decide (t ≤ s.ticks) | none => false) then s.lose false 8
  else if offset.natAbs ≤ s.alignTol then
    if s.time.good + 1 ≥ (if s.altInUse then 4 else 1) then s.enterState bsAligned else s.setGood (s.time.good + 1)
  else s.setGood 0

/-- An answer that is not aligned (R140, R141, R144). -/
def Dev.notAlignedResp (s : Dev) : Dev :=
  if s.bState = bsAligned then s.loseUpstream 2
  else
    let s := s.setGood 0
    if s.aligned = false ∧ s.altValid then s.setLv bsAddr 24 24 (1 - b2n s.altInUse) else s

/-- An aligned answer: delay and offset, steering, and the alignment state (R137 to R144). The answer that takes a follower of a
link from LOST to ACQUIRING is not itself an acquisition exchange: the next is the first, and may step (DESIGN CHOICE, log 108). -/
def Dev.alignedResp (s : Dev) (m : TimeRespMsg) (t1 : BitVec 72) : Dev :=
  let t4 := BitVec.ofNat 72 (s.beat.toNat * 256 + m.t4frac.toNat)
  let r := exchange t1 m.t2 m.t3 t4 s.asym
  let s := (s.putLv (beatPg 0 + 0x160) (wrapN 32 r.2)).putLv (beatPg 0 + 0x168) (wrapN 32 r.1)
  if m.domain.toNat ≠ s.lv (beatPg 0 + 0x158) 15 0 then
    if s.bState = bsAligned then s.lose false 4 else (s.setGood 0).tryOther
  else
    let hops := m.hops.toNat + 1
    let tooFar := decide (hops > s.lv (beatPg 0 + 0x150) 3 0)
    let s := (s.setLv bsAddr 47 32 m.domain.toNat).setLv bsAddr 11 8 (min hops 15)
    let s : Dev := { s with time := { s.time with steer := r.2 } }
    if s.bState = bsLost then
      if s.time.refLost then s
      else if tooFar then (s.setLv bsAddr 19 16 5).tryOther
      else s.enterState bsAcquiring
    else if s.bState = bsAcquiring then if tooFar then s.lose false 5 else s.acquireStep t4 r.2
    else if s.bState = bsAligned then s.alignedStep r.2
    else if tooFar then s
    else s.holdoverStep r.2

def timeRespEffect (p : PortNo) (m : TimeRespMsg) (s : Dev) : Dev :=
  if s.role ≠ 3 ∨ m.replayed ∨ s.upPort ≠ some p.val ∨ s.exchUp (some p.val) = false then s
  else
    match s.time.t1 with
    | none => s
    | some t1 =>
      let s : Dev := { s with time := { s.time with t1 := none } }
      if m.aligned then s.alignedResp m t1 else s.notAlignedResp
def execTimeResp (p : PortNo) (m : TimeRespMsg) (s : State) := run (timeRespEffect p m) s

/-! ### Alarms (R154 to R159) -/

/-- Writable bits of BEAT_ALARM_CTRL_n. -/
def alarmMask : Nat := 0xFFFFFF0000000710

/-- Drop an armed alarm. -/
def Dev.unarm (s : Dev) (d n : Nat) : Dev := { s with alarms := s.alarms.filter fun a => !(a.die == d && a.n == n) }

/-- An arm write: the fields of CTRL are already stored (R154 to R157). -/
def Dev.armAlarm (s : Dev) (d n : Nat) : Dev :=
  let w := RegFile.get s.live (alarmCtrl d n)
  let kind := fld w 10 8
  let isLoc := flag w 4
  let at_ := RegFile.get s.live (beatPg d + 0x400 + 16 * n)
  let s := s.unarm d n
  if kind = 0 then s.alarmResult d n 0 false
  else if kind ≥ 5 then s.alarmResult d n 6 false
  else if !isLoc && !s.aligned then (s.count (beatPg d + 0x1A0)).alarmResult d n 3 false
  else if at_.toNat < s.beat.toNat + 32 then s.alarmResult d n 2 false
  else
    let a : Alarm := { die := d, n := n, atBeat := at_, kind := kind, isLoc := isLoc, target := BitVec.ofNat 24 (fld w 63 40) }
    ({ s with alarms := s.alarms ++ [a] } : Dev).alarmResult d n 0 true

/-- A write to BEAT_ALARM_CTRL_n. -/
def Dev.alarmWrite (s : Dev) (d n : Nat) (v : Word) : Dev :=
  let old := (RegFile.get s.live (alarmCtrl d n)).toNat
  let s := s.putLv (alarmCtrl d n) (old - (old &&& alarmMask) + (v.toNat &&& alarmMask))
  if flag v 0 then s.armAlarm d n else s

def alarmArmEffect (d : DieNo) (n : Fin 64) (v : Word) (s : Dev) : Dev := s.alarmWrite d.val n.val v
def execAlarmArm (d : DieNo) (n : Fin 64) (v : Word) (s : State) := run (alarmArmEffect d n v) s

/-- An arm write with KIND 0 (R157); TARGET and LOCAL as they stand. -/
def alarmDisarmEffect (d : DieNo) (n : Fin 64) (s : Dev) : Dev :=
  (s.setLv (alarmCtrl d.val n.val) 10 8 0).armAlarm d.val n.val
def execAlarmDisarm (d : DieNo) (n : Fin 64) (s : State) := run (alarmDisarmEffect d n) s

/-! ### Snapshots (R161 to R166) -/

def Dev.snapBusy (s : Dev) (d : Nat) : Bool := s.tel.snap.getD d false
def Dev.setSnap (s : Dev) (d : Nat) (b : Bool) : Dev := { s with tel := { s.tel with snap := s.tel.snap.set d b } }

/-- Write records one after another. -/
def Dev.writeRecords (s : Dev) (view : Dev) (a : Nat) : List (Nat × Nat × Nat) → Dev
  | [] => s
  | p :: t => (s.devWrite a (view.snapRecord p)).1.writeRecords view (a + 4096) t

/-- A snapshot's beat: skipped, refused, or captured and being written. The captured count is that of the previous beat
(R153), and `before` is the state before the alarm's own change; the records' bytes are in memory from here on, and the HBM
counts their writes when the writing is done (log 40), so that no other die's snapshot of this beat shows them. A beat that meets
both a running write and a bad base skips (R165 before R166: DESIGN CHOICE, log 107). -/
def Dev.snapshot (s before : Dev) (d : Nat) : Dev :=
  let base := s.lv (beatPg d + 0x180) 43 0
  let pages := s.snapPages d
  if s.snapBusy d then s.count (beatPg d + 0x1B8)
  else if base % 4096 ≠ 0 ∨ base + 4096 * pages.length > 2 ^ 41 then s.setLv (beatPg d + 0x188) 1 0 3
  else
    let view : Dev := { before with beat := s.beat - 1 }
    let s : Dev := { s with mem := (s.writeRecords view base pages).mem }
    let s : Dev := { s with tel := { s.tel with snapAt := Map.insert s.tel.snapAt d (base, pages.length) } }
    ((s.setLv (beatPg d + 0x188) 1 0 1).putLv (beatPg d + 0x190) s.beat.toNat).setSnap d true

/-- The HBM counts the writes of `n` records from `a` on; their bytes are there already. -/
def Dev.countRecords (s : Dev) (a n : Nat) : Dev :=
  { (List.range n).foldl (fun t i => (t.devWrite (a + 4096 * i) (List.replicate 4096 0)).1) s with mem := s.mem }

def snapshotWriteDoneEffect (d : DieNo) (s : Dev) : Dev :=
  if s.snapBusy d.val then
    let x := Map.get s.tel.snapAt d.val (0, 0)
    let s := s.countRecords x.1 x.2
    let s : Dev := { s with tel := { s.tel with snapAt := Map.erase s.tel.snapAt d.val } }
    (s.setLv (beatPg d.val + 0x188) 1 0 2).setSnap d.val false
  else s
def execSnapshotWriteDone (d : DieNo) (s : State) := run (snapshotWriteDoneEffect d) s

/-- A post from outside a thread, to an object that exists (R588). -/
def Dev.alarmPost (s : Dev) (o : Nat) : Dev :=
  if objValid (s.objCfg o) && s.coreUp (objCore o) then s.postObj o 1 else s

/-- An alarm's action (R158). Two resets of one group at one beat are one (R159). -/
def Dev.fireAlarm (s : Dev) (a : Alarm) : Dev :=
  let before := s
  let s := s.unarm a.die a.n
  let fired := s.alarmResult a.die a.n 1 false
  match a.kind with
  | 1 => fired.setLv (ctlPg + 0x260 + 8 * a.die) a.n a.n 1
  | 2 => fired.alarmPost (a.target.toNat % 65536)
  | 3 => fired.snapshot before a.die
  | _ =>
    if groupValid s.active a.target then
      if (s.grp a.target).resetAt = some s.ticks then fired else fired.groupResetAll a.target
    else s.alarmResult a.die a.n 6 false

def alarmFireEffect (d : DieNo) (n : Fin 64) (s : Dev) : Dev :=
  match s.alarms.find? fun a => a.die == d.val && a.n == n.val && a.atBeat == s.beat with
  | some a => s.fireAlarm a
  | none => s
def execAlarmFire (d : DieNo) (n : Fin 64) (s : State) := run (alarmFireEffect d n) s

/-! ### Launches and barrier release -/

def beatLaunchEffect (t : ThreadNo) (s : Dev) : Dev := if s.fatal then s else s.beatDue t.val
def execBeatLaunch (t : ThreadNo) (s : State) := run (beatLaunchEffect t) s

/-- A release notice from the parent: forwarded to the children, and due here (R168 to R171, R243). A copy of one that is held
already says nothing new (R170: counted once per device). -/
def releaseEffect (p : PortNo) (group : BitVec 24) (epoch : BitVec 16) (relBeat : BitVec 64) (s : Dev) : Dev :=
  if s.fatal ∨ s.portState p.val ≠ 5 ∨ isPorone (s.portMode p.val) = false ∨ s.guarded group then s
  else
    match s.epochOf group epoch with
    | none => s
    | some e =>
      if e.entry.root ∨ s.releaseHeld group epoch then s
      else (s.notices (p.val / 128) e group epoch relBeat (some p.val)).beatRelease group epoch relBeat
def execRelease (p : PortNo) (group : BitVec 24) (epoch : BitVec 16) (relBeat : BitVec 64) (s : State) :=
  run (releaseEffect p group epoch relBeat) s

/-- The beat of a held release (R168). -/
def beatReleaseEffect (group : BitVec 24) (epoch : BitVec 16) (s : Dev) : Dev :=
  if s.fatal then s
  else
    match s.releases.find? fun r => r.group == group && r.epoch == epoch && decide (r.beat ≤ s.beat) with
    | none => s
    | some r => ({ s with releases := s.releases.filter fun x => x != r } : Dev).epochReleased group epoch
def execBeatRelease (group : BitVec 24) (epoch : BitVec 16) (s : State) := run (beatReleaseEffect group epoch) s

end Sys2Proof.Machine
end

