-- ==== Sys2Proof/Machine/Pkt.lean ====
section
/-! DEFINITION. Packets arriving from a port: what is checked, admitted, held and tagged (R89, R100, R106, R107, R226 to
R228, R305, R306), forwarding (R251 to R258, R268 to R273), and the memory packets, doorbells and completions addressed to
this device (R225, R227, R231, R237, R590). -/

namespace Sys2Proof.Machine

/-! ### Lengths and policers (R302, R305, R306) -/

/-- Bytes of a frame that is to carry a packet out, its FCS included (R240, R241). -/
def frameLen (pkt : Packet) : Nat :=
  if pkt.ptype = ptEthFrame then pkt.payload.length + 4 else max 64 (pkt.size + 22)

/-- Counted length of a packet on a port (R302). -/
def Dev.countedLen (s : Dev) (p : Nat) (pkt : Packet) : Nat :=
  (if s.portMode p = 4 then frameLen pkt else pkt.size + 4) + s.cfg (schPg (p / 8) + 0x1000 + 8 * (p % 8)) 7 0

/-- Counted length of a packet that arrived on a port, in a frame of `frame` bytes where one carried it (R302). -/
def Dev.countedIn (s : Dev) (p : Nat) (pkt : Packet) (frame : Option Nat) : Nat :=
  match frame with
  | some n => n + s.cfg (schPg (p / 8) + 0x1000 + 8 * (p % 8)) 7 0
  | none => s.countedLen p pkt

/-- The policer of a tenant at an endpoint-facing port; `false` when the packet is discarded. -/
def Dev.police (s : Dev) (p : Nat) (pkt : Packet) (frame : Option Nat) : Dev × Bool :=
  let t := pkt.part.toNat
  let g := schPg (p / 8)
  let w := RegFile.get (s.sees (p / 128) s.active) (g + 0x5800 + 0x80 * (p % 8) + 8 * t)
  if isEndpointMode (s.portMode p) = false ∨ fld w 23 0 = 0 then (s, true)
  else
    let x := s.port p
    let content := Map.get x.policers t 0
    if s.lossless p pkt.vc.toNat then
      (if content < 0 then s.count (g + 0x140 + 8 * (p % 8)) else s, true)
    else if content < 0 then (s.count (g + 0x100 + 8 * (p % 8)), false)
    else
      (s.setPort p { x with policers := Map.put x.policers t (content - (s.countedIn p pkt frame : Int) * 65536) 0 }, true)

/-! ### Cells of an arriving packet -/

/-- A packet that goes no further has still used the credit it was sent on (R198, R344). -/
def Dev.spend (s : Dev) (p : Nat) (pkt : Packet) : Dev :=
  let i := p % 128 * 8 + pkt.vc.toNat
  if isPorone (s.portMode p) && s.lossless p pkt.vc.toNat then
    s.setCredit (p / 128) i (s.creditOf (p / 128) i - flitsOf pkt.carried)
  else s

/-- Cells for a packet that arrives at a port bound for another (if any): on credit, under priority flow control, or as a
lossy packet (R342, R354, R358, R359). -/
def Dev.admitIn (s : Dev) (p : Nat) (outp : Option Nat) (pkt : Packet) : Dev × Option Nat :=
  let vc := pkt.vc.toNat
  let c := cellsFor pkt.size
  if s.lossless p vc then
    if s.portMode p = 4 then
      match s.pfcRequest p vc c with
      | (t, .granted id) => (t, some id)
      | (t, _) => (if pkt.ptype = ptEthFrame then t.countPort p 0x230 0x40 else t, none)
    else
      let r := s.creditRequest p vc c pkt.flits
      (r.1, some r.2)
  else s.admitLossy p outp pkt

/-- Act with the packet's cells held, and return them. -/
def Dev.withCells (s : Dev) (p : Nat) (pkt : Packet) (act : Dev → Dev) : Dev :=
  match s.admitIn p none pkt with
  | (t, none) => t
  | (t, some id) => (act t).release id

/-! ### Arrival -/

/-- A fault summary of the configured group (R709, R710). -/
def Dev.isSummary (s : Dev) (pkt : Packet) : Bool :=
  s.cfg (fltPg 0 + 0x1040) 63 63 == 1 && pkt.ptype == ptColl && pkt.vc == 7 && pkt.length == 4096 &&
    match pkt.ext with
    | some x => x.group.toNat == s.cfg (fltPg 0 + 0x1040) 47 24 && x.pattern == 0 && x.func == 4 && x.fmt == 0xF
        && x.ckind == ckPartial && x.epoch == 0 && x.rank == 0
    | none => false

/-- The packet is for this device, under the instar it is routed under (R251 step 1). -/
def Dev.isOwn (s : Dev) (p : Nat) (pkt : Packet) : Bool :=
  let f := if s.portMode p = 1 then s.fileFor pkt.itag else s.active
  pkt.node == fld (RegFile.get f (insPg + 0x1000)) 19 0

/-- The read that a MEM_READ_RESP answers, if this device waits for it. -/
def Dev.readFor (s : Dev) (pkt : Packet) : Option Packet :=
  match s.remoteOwner pkt.tag pkt.src with
  | some r => some r.2.pkt
  | none => (s.adpOwner pkt.tag pkt.src).map (·.2.pkt)

/-- The response to a read of this device holds another number of bytes than READ_LEN (R225). -/
def Dev.wrongLength (s : Dev) (p : Nat) (pkt : Packet) : Bool :=
  pkt.ptype == ptMemReadResp && s.isOwn p pkt &&
    match s.readFor pkt with
    | some q => q.ptype == ptMemReadReq && pkt.length.toNat != leAt q.payload 0 4
    | none => false

/-- The packet is malformed as it arrives at the port (R226, R230). -/
def Dev.malformedAt (s : Dev) (p : Nat) (pkt : Packet) : Bool :=
  pkt.malformed || s.wrongLength p pkt || (pkt.ptype == ptColl && pkt.vc == 7 && !s.isSummary pkt) || (pkt.ptype == ptMemReadReq && decide (leAt pkt.payload 0 4 > 8192))
    || (s.portMode p == 3 && pkt.ptype != ptMemReadResp && pkt.ptype != ptMemStatus && pkt.ptype != ptDoorbell)

/-- Discard a malformed packet (R226). -/
def Dev.dropMalformed (s : Dev) (p : Nat) (pkt : Packet) : Dev :=
  let s := s.countPort p 0x228 0x40
  if pkt.answered then s.answerStatus (p / 128) pkt 8 0 else s

/-- The cells that a packet holds already, or those that the pool manager grants it now. -/
def Dev.cellsOf (s : Dev) (p : Nat) (outp : Option Nat) (pkt : Packet) (l : Load) : Dev × Option Nat :=
  match l.alloc with
  | some id => (s, some id)
  | none => s.admitIn p outp pkt

/-- Keep a packet in the packet buffer for later, and act once it is stored. -/
def Dev.keepPkt (s : Dev) (p : Nat) (pkt : Packet) (l : Load) (put : Port → HeldPkt → Port) (act : Dev → Dev) : Dev :=
  match s.cellsOf p none pkt l with
  | (t, none) => t
  | (t, some id) => act (t.updPort p fun x =>
      put x { pkt := pkt, port := p, tick := l.tick, die := p / 128, alloc := id, id := l.id, via := .table })

/-- Let go of a packet: the cells it holds, or the credit it came on. -/
def Dev.letGo (s : Dev) (p : Nat) (pkt : Packet) (l : Load) : Dev :=
  match l.alloc with | some id => s.release id | none => s.spend p pkt

/-- Tag a packet, or judge the tag that it brings from a fabric port (R106, R107); with the instar it is routed under. -/
def Dev.tagIn (s : Dev) (p : Nat) (pkt : Packet) (l : Load) : Dev × Option (Packet × RegFile) :=
  if s.portMode p ≠ 1 then (s, some ({ pkt with itag := s.tagNow }, s.active))
  else
    let gone := ((s.letGo p pkt l).count (insPg + 0x130), none)
    match (pkt.itag - s.tagNow).toNat with
    | 0 => (s, some (pkt, s.active))
    | 3 =>
      match s.retiring with
      | some (i, _) => (s.count (insPg + 0x138), some (pkt, i.content))
      | none => gone
    | 1 => (s.keepPkt p pkt l (fun x h => { x with early := x.early ++ [h] }) fun t => t.count (insPg + 0x140), none)
    | _ => gone

/-- Take note of a packet's arrival: its entry among the checked ones leaves, and it gets the next arrival number. Its SOP flit came
at the tick that entry names, or now. -/
def Dev.note (s : Dev) (p : Nat) (pkt : Packet) : Dev × Load × Option Nat :=
  let a := s.arrived.find? fun a => a.port == p && a.pkt == pkt
  let s : Dev := { s with arrived := match a with | some x => s.arrived.erase x | none => s.arrived }
  (s.bumpId, { alloc := none, tick := match a with | some x => x.sop | none => s.ticks, id := s.nextId }, a.bind (·.frame))

/-- What is left of a packet that has come through its checks: the instar it is routed under, and what it brings. -/
structure Came where
  pkt  : Packet
  file : RegFile
  load : Load

/-- The checks of a whole packet, and what is done with one that goes no further here: discarded, or held (R89, R100, R106, R107,
R226, R228, R305, R306). `plain`: a plain frame turned into ETH_FRAME (R239 step 5), which R228 does not judge. -/
def Dev.judge (s : Dev) (p : Nat) (pkt : Packet) (plain : Bool) (l : Load) (frame : Option Nat) : Dev × Option Came :=
  let ends := isEndpointMode (s.portMode p)
  if s.malformedAt p pkt then ((s.letGo p pkt l).dropMalformed p pkt, none)
  else if ends && !plain && (pkt.src.toNat != s.portCfg p 63 44 || !bit (s.portCfg p 43 28) pkt.part.toNat) then
    ((s.letGo p pkt l).count (lnkPg (p / 8) + 0x120), none)
  else if ends && s.number == 0 then (s.letGo p pkt l, none)
  else
    match s.police p pkt frame with
    | (t, false) => (match l.alloc with | some id => t.release id | none => t, none)
    | (t, true) =>
      if t.holdsIngress p then (t.keepPkt p pkt l (fun x h => { x with held := x.held ++ [h] }) id, none)
      else
        match t.tagIn p pkt l with
        | (u, none) => (u, none)
        | (u, some (q, f)) => (u, some { pkt := q, file := f, load := l })

/-- A packet comes out of an endpoint-facing or fabric port: what is left to do with it. -/
def Dev.arrive (s : Dev) (p : Nat) (pkt : Packet) (plain : Bool) : Dev × Option Came :=
  let r := s.note p pkt
  if s.fatal ∨ s.portState p ≠ 5 then ({ s with arrived := r.1.arrived }, none)
  else r.1.judge p pkt plain r.2.1 r.2.2

/-- A packet of one type addressed to this device arrives, and is served while its cells are held. -/
def Dev.receive (s : Dev) (p : Nat) (pkt : Packet) (pt : BitVec 5) (serve : Dev → Packet → Dev) : Dev :=
  if pkt.ptype ≠ pt ∨ s.isOwn p pkt = false then s
  else
    match s.arrive p pkt false with
    | (t, none) => t
    | (t, some q) => t.withCells p q.pkt fun u => serve u q.pkt

/-! ### Forwarding (R250 to R258) -/

/-- Queue a packet from port `p` at port `q`, or discard it there (R212, R240, R272). `alt`: from the alternate set (R253). -/
def Dev.putAt (s : Dev) (p q : Nat) (pkt : Packet) (l : Load) (alt : Bool) : Dev :=
  let d := p / 128
  if pkt.ptype = ptEthFrame ∧ s.portMode q = 3 then (s.letGo p pkt l).dropMalformed p pkt
  else if s.portMode q ≠ 4 ∧ pkt.payload.length > s.peerMax q then
    let s := (s.letGo p pkt l).countPort q 0x608 0x10
    if pkt.answered then s.answerStatus d pkt 8 0 else s
  else if s.staticRefuses d q pkt then ((s.letGo p pkt l).count (swcPg d + 0x120)).telDrop q pkt.vc.toNat
  else
    match s.cellsOf p (some q) pkt l with
    | (t, none) => t
    | (t, some id) => (if alt then t.count (swcPg d + 0x150) else t).enqueue q (mkQ pkt d id (some p) l.tick l.id none)

/-- Hold a packet from port `p` at port `q`, whose flush still runs (R284). -/
def Dev.holdAt (s : Dev) (p q : Nat) (pkt : Packet) (l : Load) (via : Via) : Dev :=
  match s.cellsOf p none pkt l with
  | (t, none) => t
  | (t, some id) => t.updPort q fun x => { x with flushHeld := x.flushHeld ++
      [{ pkt := pkt, port := p, tick := l.tick, die := p / 128, alloc := id, id := l.id, via := via }] }

/-- Queue a packet toward the egress that the slice of its die chooses, or discard it. -/
def Dev.route (s : Dev) (p : Nat) (pkt : Packet) (f : RegFile) (l : Load) : Dev :=
  let d := p / 128
  match s.egress f d (some p) pkt with
  | .own => s.letGo p pkt l
  | .noRoute => (s.letGo p pkt l).noRoute d pkt
  | .port q alt => s.putAt p q pkt l alt
  | .hold q => s.holdAt p q pkt l .table

/-- Send a packet that came in on port `p` up a parent set, under the instar of its tag (R107, R255, R257, R530): as a packet that is
forwarded it keeps its tag, its cells and its place in the order of arrivals. -/
def Dev.routeParents (s : Dev) (p : Nat) (pkt : Packet) (f : RegFile) (ports : List Nat) (l : Load) : Dev :=
  let d := p / 128
  match s.parentEgress f d ports (some p) pkt with
  | .port q alt => s.putAt p q (s.addressTo q pkt) l alt
  | .hold q => s.holdAt p q pkt l (.parents ports)
  | _ => (s.letGo p pkt l).count (swcPg d + 0x100)

/-- A packet for another node, or one that is malformed, arrives. -/
def packetForwardEffect (p : PortNo) (pkt : Packet) (s : Dev) : Dev :=
  if s.isOwn p.val pkt ∧ s.malformedAt p.val pkt = false then s
  else
    match s.arrive p.val pkt false with
    | (t, none) => t
    | (t, some q) => t.route p.val q.pkt q.file q.load
def execPacketForward (p : PortNo) (pkt : Packet) (s : State) := run (packetForwardEffect p pkt) s

/-! ### Memory packets for this device (R225 to R227, R237, R643, R666) -/

/-- Serve a MEM_READ_REQ. `ecc` is what the read of its first byte meets. -/
def Dev.serveRead (s : Dev) (p : Nat) (pkt : Packet) (ecc : Ecc) : Dev :=
  let d := p / 128
  let n := leAt pkt.payload 0 4
  let a := pkt.laddr
  let send := fun (t : Dev) (l : List Byte) => t.sendFormed d (memReadRespFor t.own pkt l)
  if n = 0 then (s.count (lnkPg (p / 8) + 0x118)).answerStatus d pkt 1 0
  else if regionOf a = .regs then let r := s.busBytes (.porone (Fin.ofNat 16 pkt.part.toNat)) a n; send r.1 r.2
  else
    let ok := s.verdict (.part pkt.part.toNat) false a n = .ok
    let m := if ok then s.meetEcc a ecc else (s, false)
    let s := m.1
    if m.2 then s.answerStatus d pkt 4 0
    else
      match s.memRead (.part pkt.part.toNat) a n with
      | (t, some 0, l) | (t, none, l) => send t l
      | (t, some st, _) => t.answerStatus d pkt st 0

/-- Store a payload at a packet's address; the status of the write. Dropped writes meet no error (R62). -/
def Dev.storePkt (s : Dev) (pkt : Packet) (l : List Byte) : Dev × Nat :=
  if regionOf pkt.laddr = .regs then (s.busStore (.porone (Fin.ofNat 16 pkt.part.toNat)) pkt.laddr l, 0)
  else let r := s.memWrite (.part pkt.part.toNat) pkt.laddr l; (r.1, r.2.getD 0)

def Dev.serveWrite (s : Dev) (p : Nat) (pkt : Packet) : Dev :=
  if pkt.payload.isEmpty then s.count (lnkPg (p / 8) + 0x118) else (s.storePkt pkt pkt.payload).1

/-- An acknowledged write. One that the silent rule drops is answered OK with all its bytes: the requester learns nothing (R62, R229;
DEDUCED, log 144). -/
def Dev.serveAcked (s : Dev) (p : Nat) (pkt : Packet) : Dev :=
  if pkt.payload.isEmpty then (s.count (lnkPg (p / 8) + 0x118)).answerStatus (p / 128) pkt 1 0
  else
    let r := s.storePkt pkt pkt.payload
    r.1.answerStatus (p / 128) pkt r.2 (if r.2 = 0 then pkt.payload.length else 0)

/-- A status code that arrives; reserved codes act as MALFORMED (R19). -/
def statusIn (n : Nat) : Nat := if n ≥ 0x0E then 8 else n

/-- An answer to a transaction of a thread or of an adapter queue (R233, R552). One that nobody waits for is a duplicate. -/
def Dev.serveAnswer (s : Dev) (pkt : Packet) (status : Nat) (data : List Byte) : Dev :=
  match s.remoteOwner pkt.tag pkt.src with
  | some (t, r) => s.remoteEnd t r status data
  | none =>
    match s.adpOwner pkt.tag pkt.src with
    | some (k, t) => s.adpAnswer k t status data
    | none => s

def Dev.serveResp (s : Dev) (pkt : Packet) : Dev := s.serveAnswer pkt 0 pkt.payload
def Dev.serveStatus (s : Dev) (pkt : Packet) : Dev := s.serveAnswer pkt (statusIn (leAt pkt.payload 0 1)) []

/-- A doorbell: an adapter queue's index, or a post to an object (R231, R590). -/
def Dev.serveDoorbell (s : Dev) (p : Nat) (pkt : Packet) : Dev :=
  if s.portMode p = 3 then s.adpDoorbell p pkt
  else
    let o := pkt.laddr % 65536
    let core := corePg (o / 256)
    let v := leAt pkt.payload 0 4
    let w := s.objCfg o
    if s.corePresent (o / 256) = false then s.count (lnkPg (p / 8) + 0x120)
    else if pkt.laddr / 65536 ≠ 0 ∨ objValid w = false ∨ objPart w ≠ pkt.part.toNat ∨ s.coreUp (o / 256) = false then
      s.count (core + 0x140)
    else if v = 0 then s.count (core + 0x108)
    else s.postObj o v

/-- A completion entry is stored where the packet says; a reserved status is stored as MALFORMED (R19, R234). -/
def Dev.serveCompletion (s : Dev) (pkt : Packet) : Dev :=
  (s.storePkt pkt (patch pkt.payload 0 [BitVec.ofNat 8 (statusIn (leAt pkt.payload 0 1))])).1

def memReadReqEffect (p : PortNo) (pkt : Packet) (ecc : Ecc) (s : Dev) : Dev :=
  s.receive p.val pkt ptMemReadReq fun t q => t.serveRead p.val q ecc
def execMemReadReq (p : PortNo) (pkt : Packet) (ecc : Ecc) (s : State) := run (memReadReqEffect p pkt ecc) s

def memReadRespEffect (p : PortNo) (pkt : Packet) (s : Dev) : Dev := s.receive p.val pkt ptMemReadResp fun t q => t.serveResp q
def execMemReadResp (p : PortNo) (pkt : Packet) (s : State) := run (memReadRespEffect p pkt) s

def memWriteEffect (p : PortNo) (pkt : Packet) (s : Dev) : Dev := s.receive p.val pkt ptMemWrite fun t q => t.serveWrite p.val q
def execMemWrite (p : PortNo) (pkt : Packet) (s : State) := run (memWriteEffect p pkt) s

def memWriteAckedEffect (p : PortNo) (pkt : Packet) (s : Dev) : Dev :=
  s.receive p.val pkt ptMemWriteAcked fun t q => t.serveAcked p.val q
def execMemWriteAcked (p : PortNo) (pkt : Packet) (s : State) := run (memWriteAckedEffect p pkt) s

def memStatusEffect (p : PortNo) (pkt : Packet) (s : Dev) : Dev := s.receive p.val pkt ptMemStatus fun t q => t.serveStatus q
def execMemStatus (p : PortNo) (pkt : Packet) (s : State) := run (memStatusEffect p pkt) s

def doorbellEffect (p : PortNo) (pkt : Packet) (s : Dev) : Dev := s.receive p.val pkt ptDoorbell fun t q => t.serveDoorbell p.val q
def execDoorbell (p : PortNo) (pkt : Packet) (s : State) := run (doorbellEffect p pkt) s

def completionEffect (p : PortNo) (pkt : Packet) (s : Dev) : Dev := s.receive p.val pkt ptCompletion fun t q => t.serveCompletion q
def execCompletion (p : PortNo) (pkt : Packet) (s : State) := run (completionEffect p pkt) s

end Sys2Proof.Machine
end

