-- ==== Sys2Proof/Machine/Mgmt.lean ====
section
/-! DEFINITION. The management plane: MGMT packets and their rings (R738 to R740), and the management Ethernet ports (R741 to
R743). -/

namespace Sys2Proof.Machine

/-! ### The receive ring (R739) -/

/-- A MGMT packet is delivered to the control cores; `lport` is its arrival port, 0xFFFF for one formed inside. -/
def Dev.mgmtIn (s : Dev) (pkt : Packet) (lport : Nat) : Dev :=
  let base := s.lv (ctlPg + 0x300) 63 0
  let head := s.lv (ctlPg + 0x308) 31 0
  let tail := s.lv (ctlPg + 0x308) 63 32
  let drop := s.count (ctlPg + 0x320)
  match mgmtRingOn base with
  | none => drop
  | some l =>
    if (tail + 2 ^ 32 - head) % 2 ^ 32 ≥ 2 ^ l then drop
    else
      let slot := leBytes 16 pkt.header ++ leBytes 8 s.beat.toNat ++ leBytes 2 lport ++ leBytes 2 0 ++ leBytes 4 pkt.length.toNat
        ++ List.replicate 32 0 ++ pkt.payload
      let r := s.cpWrite (bits base 43 0 + tail % 2 ^ l * 0x4000) slot
      if r.2 then r.1.setLv (ctlPg + 0x308) 63 32 (tail + 1) else drop

/-- Send a MGMT packet formed on a die; one for this device itself goes into the ring (R738). -/
def Dev.sendMgmt (s : Dev) (d : Nat) (pkt : Packet) : Dev :=
  match s.form d pkt .table with
  | (t, .own) => t.mgmtIn { pkt with itag := t.tagNow } 0xFFFF
  | (t, _) => t

def mgmtEffect (p : PortNo) (pkt : Packet) (s : Dev) : Dev :=
  s.receive p.val pkt ptMgmt fun t q => t.mgmtIn q (t.logNum p.val)
def execMgmt (p : PortNo) (pkt : Packet) (s : State) := run (mgmtEffect p pkt) s

/-! ### The transmit ring (R740) -/

/-- A transmit slot holds no packet that may be sent. -/
def txSlotBad (pkt : Packet) : Bool :=
  pkt.ptype != ptMgmt || pkt.vc != 7 || pkt.ext.isSome || decide (pkt.length.toNat < 1) || decide (pkt.length.toNat > 8192)

/-- Handle transmit slots from HEAD on, until TAIL or until a packet finds no cells. -/
def Dev.mgmtTxRun : Nat → Dev → Dev
  | 0, s => s
  | n + 1, s =>
    let base := s.lv (ctlPg + 0x310) 63 0
    let head := s.lv (ctlPg + 0x318) 31 0
    match mgmtRingOn base with
    | none => s
    | some l =>
      if s.fatal ∨ head = s.lv (ctlPg + 0x318) 63 32 then s
      else
        let a := bits base 43 0 + head % 2 ^ l * 0x4000
        let h := leNat (s.cpRead a 16)
        let pkt := { Packet.ofBytes (s.cpRead a (min 8208 (16 + bits h 31 18))) with src := BitVec.ofNat 20 s.own }
        let next := fun (t : Dev) => Dev.mgmtTxRun n (t.setLv (ctlPg + 0x318) 31 0 (head + 1))
        if txSlotBad pkt then next (s.count (ctlPg + 0x328))
        else
          match s.form 0 pkt .table with
          | (_, .waits) => s
          | (t, .own) => next (t.mgmtIn { pkt with itag := t.tagNow } 0xFFFF)
          | (t, _) => next t

/-- Slots that wait to be sent. -/
def Dev.mgmtTxWaiting (s : Dev) : Nat :=
  (s.lv (ctlPg + 0x318) 63 32 + 2 ^ 32 - s.lv (ctlPg + 0x318) 31 0) % 2 ^ 32

/-- Software advances TAIL of the transmit ring. -/
def mgmtTxEffect (tail : BitVec 32) (s : Dev) : Dev :=
  let s := s.setLv (ctlPg + 0x318) 63 32 tail.toNat
  Dev.mgmtTxRun s.mgmtTxWaiting s
def execMgmtTx (tail : BitVec 32) (s : State) := run (mgmtTxEffect tail) s

/-! ### Management Ethernet ports -/

def ethReg (k off : Nat) : Nat := ctlPg + off + 0x40 * k
/-- STATE of CTL_ETH_STATUS_k: 0 DOWN, 1 TRAINING, 2 UP. -/
def Dev.ethUp (s : Dev) (k : Nat) : Bool := s.lv (ethReg k 0x408) 1 0 == 2
def Dev.ethEvent (s : Dev) (k i : Nat) : Dev := s.setLv (ethReg k 0x408) i i 1

/-- A descriptor ring: LOG2 6 to 12 and a 16-byte aligned base; its LOG2 and base. -/
def descRing (base : Nat) : Option (Nat × Nat) :=
  match ringLog base 6 12 with
  | some l => if bits base 43 0 % 16 = 0 then some (l, bits base 43 0) else none
  | none => none

/-- A buffer lies wholly in the control partition (R660). -/
def inControlAll (a n : Nat) : Bool := decide (a + n ≤ 2 ^ 36)

/-- Complete a descriptor: LENGTH and STATUS are written, then HEAD advances (R743). -/
def Dev.endDesc (s : Dev) (a len status idx ev k : Nat) : Dev :=
  let s := (s.cpWrite (a + 8) (leBytes 2 len ++ leBytes 1 status)).1
  (s.setLv idx 31 0 (s.lv idx 31 0 + 1)).ethEvent k ev

/-- A frame arrives (its bytes without FCS). -/
def mgmtEthRxEffect (k : Fin 2) (frame : List Byte) (fcsOk : Bool) (s : Dev) : Dev :=
  let n := frame.length
  let idx := ethReg k.val 0x418
  if s.ethUp k.val = false then s
  else if fcsOk = false ∨ n + 4 < 64 ∨ n + 4 > 9216 then s.count (ethReg k.val 0x430)
  else
    match descRing (s.lv (ethReg k.val 0x410) 63 0) with
    | none => s.count (ethReg k.val 0x430)
    | some (l, base) =>
      let head := s.lv idx 31 0
      if head = s.lv idx 63 32 then s.count (ethReg k.val 0x430)
      else
        let a := base + 16 * (head % 2 ^ l)
        let buf := leNat (s.cpRead a 8)
        if inControlAll buf 9216 then ((s.cpWrite buf frame).1).endDesc a n 0 idx 4 k.val
        else s.endDesc a n 1 idx 4 k.val
def execMgmtEthRx (k : Fin 2) (frame : List Byte) (fcsOk : Bool) (s : State) := run (mgmtEthRxEffect k frame fcsOk) s

/-- The port may send: it is up and not paused (R742). -/
def Dev.ethMaySend (s : Dev) (k : Nat) : Bool := s.ethUp k && (s.ctl.pause.getD k none).isNone

/-- Handle transmit descriptors from HEAD on. -/
def Dev.ethTxRun : Nat → Dev → Nat → Dev
  | 0, s, _ => s
  | n + 1, s, k =>
    let idx := ethReg k 0x428
    match descRing (s.lv (ethReg k 0x420) 63 0) with
    | none => s
    | some (l, base) =>
      let head := s.lv idx 31 0
      if s.ethMaySend k = false ∨ head = s.lv idx 63 32 then s
      else
        let a := base + 16 * (head % 2 ^ l)
        let buf := leNat (s.cpRead a 8)
        let len := leNat (s.cpRead (a + 8) 2)
        let t :=
          if len = 0 ∨ len > 9212 ∨ inControlAll buf len = false then s.endDesc a len 1 idx 5 k
          else (s.emit (.mgmtFrame k (s.cpRead buf len))).endDesc a len 0 idx 5 k
        Dev.ethTxRun n t k

/-- Descriptors that wait to be sent. -/
def Dev.ethTxWaiting (s : Dev) (k : Nat) : Nat :=
  (s.lv (ethReg k 0x428) 63 32 + 2 ^ 32 - s.lv (ethReg k 0x428) 31 0) % 2 ^ 32
def Dev.ethTx (s : Dev) (k : Nat) : Dev := Dev.ethTxRun (s.ethTxWaiting k) s k

/-- Software advances TAIL of a transmit ring. -/
def mgmtEthTxEffect (k : Fin 2) (tail : BitVec 32) (s : Dev) : Dev := (s.setLv (ethReg k.val 0x428) 63 32 tail.toNat).ethTx k.val
def execMgmtEthTx (k : Fin 2) (tail : BitVec 32) (s : State) := run (mgmtEthTxEffect k tail) s

def Dev.setPause (s : Dev) (k : Nat) (v : Option Nat) : Dev := { s with ctl := { s.ctl with pause := s.ctl.pause.set k v } }

/-- An IEEE 802.3 PAUSE frame: a quantum is 512 bit times, 2 beats at 100 Gbit/s (R742). -/
def mgmtEthPauseRxEffect (k : Fin 2) (quanta : BitVec 16) (s : Dev) : Dev :=
  if s.ethUp k.val = false then s
  else if quanta = 0 then (s.setPause k.val none).ethTx k.val
  else s.setPause k.val (some (s.ticks + 2 * quanta.toNat))
def execMgmtEthPauseRx (k : Fin 2) (quanta : BitVec 16) (s : State) := run (mgmtEthPauseRxEffect k quanta) s

def mgmtEthPauseExpireEffect (k : Fin 2) (s : Dev) : Dev :=
  match s.ctl.pause.getD k.val none with
  | none => s
  | some t => if t ≤ s.ticks then (s.setPause k.val none).ethTx k.val else s
def execMgmtEthPauseExpire (k : Fin 2) (s : State) := run (mgmtEthPauseExpireEffect k) s

/-- The link of a management port changes state; a port whose MODE is DISABLED stays down (R741). -/
def mgmtEthLinkChangeEffect (k : Fin 2) (st : Fin 3) (s : Dev) : Dev :=
  let mode := s.lv (ethReg k.val 0x400) 1 0
  if st.val = s.lv (ethReg k.val 0x408) 1 0 ∨ (st.val ≠ 0 ∧ (mode = 0 ∨ mode = 3)) then s
  else
    let s := (s.setLv (ethReg k.val 0x408) 1 0 st.val).ethEvent k.val 6
    if st.val = 2 then s.ethTx k.val else s.setPause k.val none
/-- A management port whose MODE is made DISABLED goes down, with the event of a link change (R741; DEDUCED, log 143). -/
def Dev.ethOff (s : Dev) (k : Nat) : Dev :=
  let mode := s.lv (ethReg k 0x400) 1 0
  if (mode = 0 ∨ mode = 3) ∧ s.lv (ethReg k 0x408) 1 0 ≠ 0 then mgmtEthLinkChangeEffect (Fin.ofNat 2 k) 0 s else s
def execMgmtEthLinkChange (k : Fin 2) (st : Fin 3) (s : State) := run (mgmtEthLinkChangeEffect k st) s

end Sys2Proof.Machine
end

