-- ==== Sys2Proof/Machine/Eth.lean ====
section
/-! DEFINITION. Ethernet ports: frames in and out (R239 to R241) and priority flow control (R242, R357). -/

namespace Sys2Proof.Machine

/-! ### Frames -/

/-- A frame's Ethertype, VLAN tag control (if tagged) and payload offset. -/
def frameHead (l : List Byte) : Nat × Option Nat × Nat :=
  if beNat 0 (slice l 12 2) = 0x8100 then (beNat 0 (slice l 16 2), some (beNat 0 (slice l 14 2)), 18)
  else (beNat 0 (slice l 12 2), none, 14)

/-- The VLAN entry of an Ethernet port (R247). -/
def Dev.vlanEntry (s : Dev) (p vid : Nat) : Nat := RegFile.part s.active (lnkPg (p / 8) + 0x4000 + 0x1000 * (p % 8) + vid) 1
/-- The tenant entry of a partition at an Ethernet port: DST_ADDR, TCI and VALID. -/
def Dev.ethTenant (s : Dev) (p part : Nat) : Nat × Nat × Bool :=
  let l := RegFile.bytes s.active (lnkPg (p / 8) + 0xC000 + 0x100 * (p % 8) + 16 * part) 16
  (leAt l 0 8, leAt l 8 2, bit (leAt l 10 1) 7)

/-- The bytes, without FCS, of the frame that carries a packet out of an Ethernet port (R240, R241). -/
def Dev.frameOf (s : Dev) (p : Nat) (pkt : Packet) : List Byte :=
  if pkt.ptype = ptEthFrame then pkt.payload
  else
    let mac := RegFile.bytes s.active (lnkPg (p / 8) + 0xC800 + 0x10 * (p % 8)) 16
    let tci := setBits (s.ethTenant p pkt.part.toNat).2.1 15 13 pkt.vc.toNat
    let body := slice mac 8 6 ++ slice mac 0 6 ++ [0x81, 0x00] ++ (leBytes 2 tci).reverse
      ++ (leBytes 2 (s.cfg (lnkPg (p / 8) + 0x1068) 15 0)).reverse ++ pkt.toBytes
    body ++ List.replicate (60 - body.length) 0

/-- A frame with its FCS, or with the complement of it (R223, R240). -/
def withFcs (bad : Bool) (l : List Byte) : List Byte := l ++ leBytes 4 (if bad then 2 ^ 32 - 1 - crc32 l else crc32 l)

/-- An ETH_FRAME for this device leaves on the Ethernet port that it names (R240). -/
def Dev.toEth (s : Dev) (p : Nat) (pkt : Packet) (l : Load) : Dev :=
  match s.placeOf (pkt.laddr % 256) with
  | none => (s.letGo p pkt l).dropMalformed p pkt
  | some q =>
    if s.portMode q ≠ 4 then (s.letGo p pkt l).dropMalformed p pkt
    else if s.portLive q = false then (s.letGo p pkt l).noRoute (p / 128) pkt
    else s.putAt p q pkt l false

/-- A packet that has been admitted goes to an Ethernet port of this device or on through the fabric. -/
def Dev.frameOn (s : Dev) (p : Nat) (r : Dev × Option Came) : Dev :=
  match r with
  | (t, none) => t
  | (t, some c) => if s.isOwn p c.pkt then t.toEth p c.pkt c.load else t.route p c.pkt c.file c.load

def ethFrameEffect (p : PortNo) (pkt : Packet) (s : Dev) : Dev :=
  if pkt.ptype ≠ ptEthFrame ∨ s.isOwn p.val pkt = false then s else s.frameOn p.val (s.arrive p.val pkt false)
def execEthFrame (p : PortNo) (pkt : Packet) (s : State) := run (ethFrameEffect p pkt) s

/-- A plain frame becomes an ETH_FRAME packet (R239 steps 3 to 5). -/
def Dev.plainFrame (s : Dev) (p : Nat) (frame : List Byte) (tci : Option Nat) : Dev :=
  let k := p % 8
  let vid := (tci.getD 0) % 4096
  let e := s.vlanEntry p vid
  let part := bits e 3 0
  let t := s.ethTenant p part
  if vid = 4095 ∨ bit e 7 = false ∨ t.2.2 = false then s.count (lnkPg (p / 8) + 0x508 + 0x20 * k)
  else if frame.length > 8192 then s.count (lnkPg (p / 8) + 0x510 + 0x20 * k)
  else
    let pkt := mkPkt ptEthFrame t.1 s.own 0 part (bits e 6 4) 0 frame
    let s : Dev := { s with arrived := s.arrived ++ [{ port := p, pkt := pkt, sop := s.ticks, frame := some (frame.length + 4) }] }
    s.frameOn p (s.arrive p pkt true)

/-- A frame arrives on an Ethernet port (R239), its bytes from destination address to payload end. A decapsulated packet then
acts as the command of its type. -/
def ethFrameRxEffect (p : PortNo) (frame : List Byte) (fcsOk : Bool) (s : Dev) : Dev :=
  let p := p.val
  if s.fatal ∨ s.portMode p ≠ 4 ∨ s.portState p ≠ 5 then s
  else
    let s := s.updPort p fun x => { x with lastOk := s.ticks }
    if fcsOk = false then s.count (lnkPg (p / 8) + 0x500 + 0x20 * (p % 8))
    else
      let h := frameHead frame
      if h.1 = s.cfg (lnkPg (p / 8) + 0x1068) 15 0 then
        let body := frame.drop h.2.2
        let pkt := Packet.ofBytes body
        if body.length < pkt.size then s.dropMalformed p pkt 
        else { s with arrived := s.arrived ++ [{ port := p, pkt := pkt, sop := s.ticks, frame := some (frame.length + 4) }] }
      else s.plainFrame p frame h.2.1
def execEthFrameRx (p : PortNo) (frame : List Byte) (fcsOk : Bool) (s : State) := run (ethFrameRxEffect p frame fcsOk) s

/-! ### Priority flow control -/

/-- A received pause of a priority; a quantum is 512 bit times, one beat for each lane of 200 Gbit/s in use. -/
def pfcFrameRxEffect (p : PortNo) (prio : Vc) (quanta : BitVec 16) (s : Dev) : Dev :=
  if s.portMode p.val ≠ 4 ∨ s.portState p.val ≠ 5 then s
  else s.updPort p.val fun x =>
    { x with paused := if quanta = 0 then Map.erase x.paused prio.val
                       else Map.insert x.paused prio.val (s.ticks + ceilDiv quanta.toNat (max 1 (s.portWidth p.val))) }
def execPfcFrameRx (p : PortNo) (prio : Vc) (quanta : BitVec 16) (s : State) := run (pfcFrameRxEffect p prio quanta) s

def pfcPauseExpireEffect (p : PortNo) (prio : Vc) (s : Dev) : Dev :=
  match Map.find (s.port p.val).paused prio.val with
  | none => s
  | some t => if t ≤ s.ticks then s.updPort p.val fun x => { x with paused := Map.erase x.paused prio.val } else s
def execPfcPauseExpire (p : PortNo) (prio : Vc) (s : State) := run (pfcPauseExpireEffect p prio) s

/-- A pause goes out as the condition begins, every 4,096 beats while it holds, and with quanta 0 as it ends. -/
def pfcPauseSendEffect (p : PortNo) (vc : Vc) (s : Dev) : Dev :=
  let p := p.val; let v := vc.val
  if s.fatal ∨ s.portMode p ≠ 4 ∨ s.portState p ≠ 5 then s
  else
    let last := Map.find (s.port p).pausing v
    if s.pfcPressed p v then
      if (match last with | some t => decide (s.ticks < t + 4096) | none => false) then s
      else (s.updPort p fun x => { x with pausing := Map.insert x.pausing v s.ticks }).emit (.pause p v 0xFFFF)
    else if last.isSome then
      (s.updPort p fun x => { x with pausing := Map.erase x.pausing v }).emit (.pause p v 0)
    else s
def execPfcPauseSend (p : PortNo) (vc : Vc) (s : State) := run (pfcPauseSendEffect p vc) s

end Sys2Proof.Machine
end

