-- ==== Sys2Proof/Machine/Lnk.lean ====
section
/-! DEFINITION. Ports and links (chapter 04): bring-up, lanes and widths, flits, acknowledgement and replay, credit counts, and
port-group reset. -/

namespace Sys2Proof.Machine

/-! ### Unfencing -/

/-- The unit is no longer fenced. -/
def Dev.unmark (s : Dev) (u : BitVec 32) : Dev :=
  let d := collectorOf (unitDie u)
  let c := s.collector d
  s.setCollector d { c with fenced := c.fenced.filter (· != u) }

/-- A change to a unit's collector entry: the beat's later reports follow it. -/
def Dev.updEntry (s : Dev) (u : BitVec 32) (f : FEntry → FEntry) : Dev :=
  let d := collectorOf (unitDie u)
  let c := s.collector d
  match c.slotOf u with
  | none => s
  | some k =>
    match Map.find c.entries k with
    | none => s
    | some e => s.setCollector d { c with entries := Map.insert c.entries k (f e), heard := c.heard.filter (·.1 != u) }

/-- The entry becomes CLEAR (R711), with its recovery count kept or zeroed. -/
def Dev.clearEntry (s : Dev) (u : BitVec 32) (zero : Bool) : Dev :=
  s.updEntry u fun (e : FEntry) =>
    { e with state := esClear, quietFrom := none, checking := none, recov := if zero then 0 else e.recov }

/-- The check of a unit is over. -/
def Dev.stopCheck (s : Dev) (u : BitVec 32) : Dev :=
  let d := collectorOf (unitDie u)
  let s := s.updEntry u fun (e : FEntry) => { e with checking := none }
  let c := s.collector d
  s.setCollector d { c with bare := c.bare.filter (· != u), trials := c.trials.filter (·.1 != u) }

/-! ### Bring-up (R186) -/

/-- The link of a port starts afresh: nothing is in flight, nothing granted. -/
def Dev.resetLink (s : Dev) (p : Nat) : Dev :=
  let s := ((s.dropUnacked p).dropInputs p).dropCredit p
  s.updPort p fun x =>
    { x with granted := Port.reset.granted, used := Port.reset.used, ours := Port.reset.ours, txSeq := 0,
             unacked := [], lastNak := 0, resends := 0, rxSeq := 0, ackSeq := 0xFFFF, nak := false, ctlSeq := 0xFFFF, asm := [],
             asmOpen := false, newLanes := [], skip := [], waiting := [], rxBytes := [], ctlWait := [], restart := false, paused := [], pausing := [] }

/-- The port's unit or its group's is fenced. -/
def Dev.heldDown (s : Dev) (p : Nat) : Bool := s.fencedUnit (groupUnit (p / 8)) || s.fencedUnit (portUnit (p / 128) (s.logNum p))
/-- A check of the port, of its group or of one of its lanes is under way (R714). -/
def Dev.onTrial (s : Dev) (p : Nat) : Bool :=
  s.checking (groupUnit (p / 8)) || s.checking (portUnit (p / 128) (s.logNum p))
    || (s.lanesOf p).any fun l => s.checking (laneUnit (p / 8) (s.physLane (p / 8) l))

/-- The state that a restarting port takes: DISABLED, CFG_ERR, FENCED or DETECT (R175, R183, R186). Of R182 (DISABLED)
and row 9 of R186 (CFG_ERR), the ports of a group with a numbering or lane-map conflict report row 9; under a reserved SPLIT no port
exists and 0 is reported (R180). DESIGN CHOICE (log 113). -/
def Dev.startState (s : Dev) (p : Nat) : Nat :=
  let g := p / 8
  if s.groupPresent g = false ∨ s.subPort g (p % 8) = false ∨ s.portMode p = 0 ∨ s.lv (lnkPg g + 0x110) 0 0 = 1 then 0
  else if s.groupCfgErr g ∨ s.portMode p ≥ 5 ∨ s.portChannel p ≥ 3 then 9
  else if s.heldDown p ∧ s.onTrial p = false then 7
  else 1

/-- The forwarding state of a configured port that is not fenced: REJOINING stays, else LIVE (R282, R286, R290). -/
def Dev.startFwd (s : Dev) (p : Nat) : Dev :=
  let lp := s.logNum p
  match s.startState p with
  | 1 => if s.heldDown p then s.setFwdState lp 2 else if s.fwdState lp = 3 then s else s.setFwdState lp 1
  | 7 => s.setFwdState lp 2
  | _ => s

/-- A port goes through DISABLED and restarts its bring-up under the configuration it runs. -/
def Dev.bringUp (s : Dev) (p : Nat) : Dev :=
  let s := s.resetLink p
  ((s.setPortState p (s.startState p)).useLanes p []).startFwd p

/-- No usable width, or silence: the port is fenced (R188, R189, R694). -/
def Dev.failPort (s : Dev) (p : Nat) : Dev :=
  s.faultOwn (p / 128) 0x03 (p / 8 % 16) 1 (portUnit (p / 128) (s.logNum p))

/-- Bring-up is complete: the lane windows start (R187). -/
def Dev.enterActive (s : Dev) (p : Nat) : Dev :=
  let s := s.setPortState p 5
  let ls := s.lanesOf p
  let s := { s with laneErr := s.laneErr.filter fun e => !(e.1 / 8 == p / 8 && ls.contains (e.1 % 8)) }
  s.updPort p fun x => { x with lastOk := s.ticks, kept := x.lanes.length }

/-- This device's PARAM message (R210, R211). -/
def Dev.ownParam (s : Dev) (p : Nat) : ParamMsg :=
  { role := 0, lossless := BitVec.ofNat 8 (s.portCfg p 15 8), prev := 1, node := BitVec.ofNat 20 s.own, maxp := 13 }

/-- The grant of a lossless VC at bring-up: what brings its owner's use to its minimum (R198, R344). -/
def Dev.firstGrant (s : Dev) (p vc : Nat) : Dev :=
  let d := p / 128
  let i := p % 128 * 8 + vc
  let n := s.portMinNow d i - s.portUse d i
  if s.lossless p vc = false ∨ (s.holdsIngress p ∧ vc ≠ 7) ∨ (vc = 2 ∧ s.vc2Withheld p) then s
  else
    (s.setCredit d i (s.creditOf d i + n)).updPort p fun x =>
      { x with ours := x.ours.set vc ((x.ours.getD vc 0 + n) % 2 ^ 20) }

/-- Begin a PARAM exchange: the port's PARAM and its initial grants go out together (R186, R198, R208). -/
def Dev.enterParam (s : Dev) (p : Nat) : Dev :=
  let s := ((List.range 8).foldl (fun t vc => t.firstGrant p vc) (s.setPortState p 4))
  s.sendControl p [.param (s.ownParam p), s.creditMsg p]

def Dev.setSignal (s : Dev) (g l v : Nat) : Dev := s.setLv (lnkPg g + 0x108) l l v

def signalDetectEffect (p : PortNo) (s : Dev) : Dev :=
  if s.portState p.val ≠ 1 then s
  else
    let l := s.cleanLanes p.val (s.widest p.val) fun _ => true
    if l.isEmpty then s.failPort p.val
    else
      let s := (s.lanesOf p.val).foldl (fun t l => t.setSignal (p.val / 8) l 1) s
      (s.useLanes p.val l).setPortState p.val (if s.portChannel p.val = 2 then 3 else 2)
def execSignalDetect (p : PortNo) (s : State) := run (signalDetectEffect p) s

def trainDoneEffect (p : PortNo) (s : Dev) : Dev := if s.portState p.val = 2 then s.setPortState p.val 3 else s
def execTrainDone (p : PortNo) (s : State) := run (trainDoneEffect p) s

/-- A lane of a group is faulty: it is reported and fenced (R187). `l` is its logical lane. -/
def Dev.failLane (s : Dev) (g l : Nat) : Dev := s.faultOwn (g / 16) 0x03 (g % 16) 0 (laneUnit g (s.physLane g l))

/-- LNK_TRAIN_LIMIT beats in TRAIN: back to DETECT, the lanes without lock fenced. -/
def trainTimeoutEffect (p : PortNo) (unlocked : BitVec 8) (s : Dev) : Dev :=
  let limit := max 1 (s.cfg (lnkPg (p.val / 8) + 0x1050) 31 0)
  if s.portState p.val ≠ 2 ∨ s.ticks < (s.port p.val).since + limit then s
  else
    let s := (s.setPortState p.val 1).useLanes p.val []
    ((s.lanesOf p.val).filter (bit unlocked.toNat)).foldl (fun t l => t.failLane (p.val / 8) l) s
def execTrainTimeout (p : PortNo) (unlocked : BitVec 8) (s : State) := run (trainTimeoutEffect p unlocked) s

/-- Lanes `l` of a port are locked, `counters` being the codeword counters that their alignment patterns carry at one moment: a
lane whose counter lags behind has so many codewords to pass over (R179). Only the last 2^16 codewords can be told apart. -/
def deskew (l : List Nat) (counters : List (BitVec 16)) : List Nat :=
  let first := counters.headD 0
  let ahead := (counters.take l.length).map fun c => sext 16 (c - first).toNat
  let most := ahead.foldl max 0
  ahead.map fun x => (most - x).toNat
def Dev.lockLanes (s : Dev) (p : Nat) (counters : List (BitVec 16)) : Dev :=
  s.updPort p fun x => { x with skip := deskew x.lanes counters, waiting := [], rxBytes := [] }

/-- Codeword lock and deskew take a counter from every lane in use of a Porone port. -/
def Dev.locks (s : Dev) (p : Nat) (counters : List (BitVec 16)) : Bool :=
  !isPorone (s.portMode p) || decide ((s.port p).lanes.length ≤ counters.length)

def lockAcquiredEffect (l : Locked) (s : Dev) : Dev :=
  let p := l.port.val
  if s.portState p ≠ 3 ∨ s.locks p l.counters = false then s
  else if isPorone (s.portMode p) then (s.lockLanes p l.counters).enterParam p
  else s.enterActive p
def execLockAcquired (l : Locked) (s : State) := run (lockAcquiredEffect l) s

/-- The PARAM messages of the two ends are inconsistent (R211). -/
def Dev.paramBad (s : Dev) (p : Nat) (m : ParamMsg) : Bool :=
  let mode := s.portMode p
  m.role.toNat != mode - 1 || m.lossless.toNat != s.portCfg p 15 8 || m.prev != 1
    || decide (m.maxp.toNat < 8) || decide (m.maxp.toNat > 13)
    || ((mode == 1 || mode == 2) && decide (m.maxp.toNat < 12))
    || (isEndpointMode mode && m.node.toNat != s.portCfg p 63 44)

def paramEffect (p : PortNo) (m : ParamMsg) (s : Dev) : Dev :=
  if s.portState p.val ≠ 4 then s
  else
    let s := s.updPort p.val fun x => { x with peer := some m }
    if s.paramBad p.val m then
      (s.setPortState p.val 8).faultOwn (p.val / 128) 0x03 (p.val / 8 % 16) 4 (portUnit (p.val / 128) (s.logNum p.val))
    else s.enterActive p.val
def execParam (p : PortNo) (m : ParamMsg) (s : State) := run (paramEffect p m) s

/-- The new exchange starts the link afresh, so that both ends number from 0 (DESIGN CHOICE, log 103). -/
def mismatchRetryEffect (p : PortNo) (s : Dev) : Dev :=
  if s.portState p.val = 8 ∧ (s.port p.val).since + 390625 ≤ s.ticks then (s.resetLink p.val).enterParam p.val else s
def execMismatchRetry (p : PortNo) (s : State) := run (mismatchRetryEffect p) s

/-! ### Lanes and widths (R187 to R191) -/

/-- The port of a logical lane. -/
def Dev.portOfLane (s : Dev) (g l : Nat) : Nat := g * 8 + l / (8 / max 1 (splitPorts (s.split g)))

/-- A lane loses its signal, or codeword lock alone. -/
def laneSignalLossEffect (g : GroupNo) (l : LaneLoss) (s : Dev) : Dev :=
  let lane := l.lane.val
  if s.groupPresent g.val = false then s
  else
    let s := if l.lockOnly then s else s.setSignal g.val lane 0
    let p := s.portOfLane g.val lane
    if s.portState p = 5 ∧ s.laneFenced g.val lane = false then s.failLane g.val lane else s
def execLaneSignalLoss (g : GroupNo) (l : LaneLoss) (s : State) := run (laneSignalLossEffect g l) s

/-- A window of the lane's port ends: 2^20 elapsed ticks after another from the port's entry into ACTIVE on (R187). -/
def Dev.windowEnds (s : Dev) (g l : Nat) : Bool :=
  let p := s.portOfLane g l
  s.portState p == 5 && decide ((s.port p).since < s.ticks) && (s.ticks - (s.port p).since) % 2 ^ 20 == 0

def laneErrWindowEffect (g : GroupNo) (lane : Fin 8) (s : Dev) : Dev :=
  if s.windowEnds g.val lane.val then { s with laneErr := Map.erase s.laneErr (g.val * 8 + lane.val) } else s
def execLaneErrWindow (g : GroupNo) (lane : Fin 8) (s : State) := run (laneErrWindowEffect g lane) s

/-- A lane counts an uncorrectable codeword; at its limit it is faulty (R187). -/
def Dev.laneUncorr (s : Dev) (g l : Nat) : Dev :=
  let n := Map.get s.laneErr (g * 8 + l) 0 + 1
  let s := { s with laneErr := Map.insert s.laneErr (g * 8 + l) n }
  let s := s.count (lnkPg g + 0x408 + 0x10 * l)
  if n ≥ max 1 (s.cfg (lnkPg g + 0x1058) 31 0) ∧ s.laneFenced g l = false then s.failLane g l else s

/-- The peer asks for a width, or accepts one (R188 to R190). Only a Porone port of four or eight lanes changes its width. The new
lanes are the first set of at most that width which is clean at both ends, bit i of the peer's mask standing for the port's
lane i (DESIGN CHOICE, log 104); where there is none the port is fenced. -/
def widthEffect (p : PortNo) (accept : Bool) (newWidth : Fin 9) (clean : BitVec 8) (s : Dev) : Dev :=
  let w := newWidth.val
  let n := (s.lanesOf p.val).length
  let st := s.portState p.val
  if (st ≠ 5 ∧ st ≠ 6) ∨ isPorone (s.portMode p.val) = false ∨ n < 4 ∨ widthCode w = 0 ∨ w = 1 ∨ w > n ∨ (accept ∧ st = 5) then s
  else
    let mine := if st = 6 ∧ !(s.port p.val).newLanes.isEmpty then (s.port p.val).newLanes.length else s.widest p.val
    let l := s.cleanLanes p.val (min w (if accept then 8 else mine)) fun x => bit clean.toNat (x % n)
    if l.isEmpty then s.failPort p.val
    else
      let s := s.updPort p.val fun x => { x with newLanes := l }
      if accept then s
      else
        let s := if st = 5 then s.setPortState p.val 6 else s
        s.sendMsg p.val (.width true (BitVec.ofNat 8 l.length) (s.cleanMask p.val))
def execWidth (p : PortNo) (accept : Bool) (newWidth : Fin 9) (clean : BitVec 8) (s : State) :=
  run (widthEffect p accept newWidth clean) s

/-- Locked at the new width, the port passes through LOCK to ACTIVE and replays from the last acknowledged sequence (R186, R190);
then the messages that waited leave. -/
def retrainDoneEffect (l : Locked) (s : Dev) : Dev :=
  let p := l.port.val
  let x := s.port p
  let lanes := if x.newLanes.isEmpty then x.lanes else x.newLanes
  if s.portState p ≠ 6 ∨ l.counters.length < lanes.length then s
  else
    let s := (s.updPort p fun x => { x with newLanes := [] }).useLanes p lanes
    let s := ((s.setPortState p 3).lockLanes p l.counters).enterActive p
    Dev.flushCtl p x.ctlWait.length (s.resendAll p)
def execRetrainDone (l : Locked) (s : State) := run (retrainDoneEffect l) s

/-! ### Port-group reset (R193, R310, R721) -/

/-- SCH_SHAPER entry `j` of a port (0 port, 1 + c class, 9 + t tenant), and SCH_POLICER entry `t` (R324). -/
def Dev.shaperCfg (s : Dev) (p j : Nat) : Word := RegFile.get (s.sees (p / 128) s.active) (schPg (p / 8) + 0x5000 + 0x100 * (p % 8) + 8 * j)
def Dev.policerCfg (s : Dev) (p t : Nat) : Word := RegFile.get (s.sees (p / 128) s.active) (schPg (p / 8) + 0x5800 + 0x80 * (p % 8) + 8 * t)
/-- BURST of an entry in 2^-16 bytes, 0 where RATE is 0 (R303, R304). -/
def burstOf (w : Word) : Int := if fld w 23 0 = 0 then 0 else fld w 55 32 * 65536

/-- Every deficit 0 and every shaper full (R308, R310). -/
def Dev.fillShapers (s : Dev) (p : Nat) : Dev :=
  let full := (List.range 25).foldl (fun (m : Map Int) j => Map.put m j (burstOf (s.shaperCfg p j)) 0) []
  s.updPort p fun x => { x with sched := [], shapers := full }
/-- Every policer full (R310). -/
def Dev.fillPolicers (s : Dev) (p : Nat) : Dev :=
  let full := (List.range 16).foldl (fun (m : Map Int) t => Map.put m t (burstOf (s.policerCfg p t)) 0) []
  s.updPort p fun x => { x with policers := full }

/-- Discard what is queued toward a port, counted in LNK_PKT_DROP_CNT (R192, R193). -/
def Dev.dropQueue (s : Dev) (p : Nat) : Dev :=
  let q := (s.port p).queue
  let s := s.updPort p fun x => { x with queue := [] }
  q.foldl (fun t x => (t.dropQueued p x).countPort p 0x608 0x10) s

/-- The fences of a group's lanes, ports and group are released, and their entries become CLEAR. -/
def Dev.releaseFences (s : Dev) (g : Nat) : Dev :=
  let ports := (List.range (splitPorts (s.split g))).map fun k => portUnit (g / 16) (s.basePort g + k)
  let units := (List.range 8).map (laneUnit g) ++ ports ++ [groupUnit g]
  let s := (units.filter s.fencedUnit).foldl (fun t u => ((t.stopCheck u).unmark u).clearEntry u true) s
  let s := s.setLv (lnkPg g + 0x108) 15 8 0
  (List.range (splitPorts (s.split g))).foldl (fun t k =>
    if t.fwdState (t.basePort g + k) = 2 then t.setFwdState (t.basePort g + k) 3 else t) s

/-- Hold the group in reset. -/
def Dev.groupHold (s : Dev) (g : Nat) : Dev :=
  let s := s.setLv (lnkPg g + 0x110) 0 0 1
  let s := (List.range 8).foldl (fun t k =>
    let p := g * 8 + k
    let t := (t.dropQueue p).endAdapters p none
    let t := (((t.resetLink p).setPortState p 0).useLanes p []).updPort p fun x => { x with kept := 0 }
    ((t.portDown p).fillShapers p).fillPolicers p) s
  (s.setLv (lnkPg g + 0x108) 7 0 0).releaseFences g

def Dev.groupRun (s : Dev) (g : Nat) : Dev :=
  let s := s.setLv (lnkPg g + 0x110) 0 0 0
  (List.range 8).foldl (fun t k => t.bringUp (g * 8 + k)) s

def lnkGroupResetEffect (g : GroupNo) (on : Bool) (s : Dev) : Dev :=
  let was := s.lv (lnkPg g.val + 0x110) 0 0 == 1
  if s.groupPresent g.val = false ∨ was = on then s
  else if on then s.groupHold g.val
  else s.groupRun g.val
def execLnkGroupReset (g : GroupNo) (on : Bool) (s : State) := run (lnkGroupResetEffect g on) s

/-! ### Acknowledgement and replay (R198 to R205) -/

/-- The sequence is covered by an acknowledgement (modulo 2^16, at most 32,768 in flight: R206). -/
def seqCovered (ack seq : BitVec 16) : Bool := decide ((ack - seq).toNat < 32768)

/-- An acknowledgement: the flits it covers are forgotten, and the blocks of packets whose EOP flit it covers return (R202). -/
def Dev.ackTo (s : Dev) (p : Nat) (ack : BitVec 16) : Dev :=
  let x := s.port p
  let gone := x.unacked.filter fun f => seqCovered ack f.seq
  if gone.isEmpty then s
  else
    let s := s.updPort p fun y =>
      { y with unacked := y.unacked.filter fun f => !seqCovered ack f.seq,
               resends := if seqCovered ack (y.lastNak + 1) then 0 else y.resends }
    let s := Dev.flushCtl p x.ctlWait.length s
    let s := (gone.filter (·.eop)).foldl (fun t f =>
      match f.mcast with
      | some m => t.copyDone m none
      | none => t.release f.alloc) s
    s.retryStalled

/-- The same sequence has been resent too often: each lane counts a codeword, and the port retrains (R205). -/
def Dev.replayExhausted (s : Dev) (p : Nat) : Dev :=
  let s := (s.lanesOf p).foldl (fun t l => t.laneUncorr (p / 8) l) s
  let s := s.faultOwn (p / 128) 0x03 (p / 8 % 16) 3 (portUnit (p / 128) (s.logNum p))
  if s.portState p = 5 then
    (s.updPort p fun x => { x with newLanes := x.lanes, resends := 0 }).setPortState p 6
  else s

/-- A NAK has reached the sender (R203). After REPLAY_LIMIT resends of one sequence the next NAK of it shows that none was kept
(R205, log 98); the flits go again at the end of RETRAIN (R190). -/
def replayEffect (p : PortNo) (ackSeq : BitVec 16) (s : Dev) : Dev :=
  if s.portState p.val ≠ 4 ∧ s.portState p.val ≠ 5 then s
  else
    let s := s.ackTo p.val ackSeq
    let x := s.port p.val
    if x.unacked.isEmpty then s
    else
      let n := if x.lastNak = ackSeq then x.resends else 0
      let t := s.countPort p.val 0x218 0x40
      if n ≥ max 1 (s.portCfg p.val 27 20) then (t.updPort p.val fun y => { y with lastNak := ackSeq }).replayExhausted p.val
      else (t.updPort p.val fun y => { y with lastNak := ackSeq, resends := n + 1 }).resendAll p.val
def execReplay (p : PortNo) (ackSeq : BitVec 16) (s : State) := run (replayEffect p ackSeq) s

/-- A CREDIT_ALL message (R198, R208). -/
def creditAllEffect (p : PortNo) (counts : List (BitVec 20)) (s : Dev) : Dev :=
  if (s.portState p.val = 4 ∨ s.portState p.val = 5) ∧ isPorone (s.portMode p.val) then
    s.updPort p.val fun x => { x with granted := (List.range 8).map fun v => (counts.getD v 0).toNat }
  else s
def execCreditAll (p : PortNo) (counts : List (BitVec 20)) (s : State) := run (creditAllEffect p counts) s

end Sys2Proof.Machine
end

