-- ==== Sys2Proof/Machine/Coll.lean ====
section
/-! DEFINITION. The commands of the collective controllers (chapter 08): contributions streamed before their check, their
confirmation and their failure (R222, R405, R406, R418 to R420), partials, results and acknowledgements (R409 to R416,
R423 to R430), rounding (R39), the timers of a context (R408, R426, R427), and group reset (R439, R440). -/

namespace Sys2Proof.Machine

/-! ### Streaming (R222, R405, R418) -/

/-- The parameters of an input are known from the part that has streamed in: a FUSED one needs its descriptors, a sparse chunk its first
two bytes, a partial the header of its segment 0. -/
def paramsKnown (x : Ext) (pkt : Packet) (data : List Byte) : Bool :=
  let body := if x.ckind = ckPartial then data.drop 64 else data
  if x.ckind = ckPartial ∧ x.seg ≠ 0 then true
  else (x.ckind != ckPartial || decide (64 ≤ data.length)) && (x.form == 0 || decide (2 ≤ data.length))
    && (x.pattern != 7 || pkt.length == 0 || (decide (8 ≤ body.length) && decide (fusedHead body ≤ body.length)))

/-- Elements, or bytes of a FUSED or partial body, that `data` gives the home core to add before the check (R418). -/
def specCount (x : Ext) (p : Params) (data : List Byte) : Nat :=
  let part := x.ckind == ckPartial
  -- where the bytes of a partial's segment lie in its state
  let lo := if part && x.seg != 0 then 4096 * x.seg.toNat - 64 else 0
  let n := if part && x.seg == 0 then data.length - 64 else data.length
  if x.form ≠ 0 then 0
  else if p.exact ∨ p.xor then if part then n else n / elemBytes p.fmt
  else if p.pattern = 7 then
    let ops := (fusedRegions p.fused).filter fun r => r.1.params.exact || r.1.params.xor
    natSum (ops.map fun r =>
      let at_ := if part then r.2 else r.1.off
      let len := if part then plainState r.1.params r.1.params.length else r.1.params.length
      min (lo + n) (at_ + len) - max lo at_)
  else 0

/-- Add the newly streamed elements of an input to its context, when that is resident. -/
def Dev.specAdd (s : Dev) (inp : Input) (x : Ext) (p : Params) (k : CtxKey) (a : ArithCfg) : Dev × Input :=
  match s.ctx k with
  | none => (s, inp)
  | some c =>
    match c.place with
    | .resident _ =>
      let n := specCount x p inp.data
      let s :=
        if p.exact && x.ckind == ckContribution then
          let vs := ((decodeAll p.fmt a.flushIn inp.data).take n).drop inp.spec
          s.updCtx k fun c => { c with recs := c.recs.take inp.spec ++ enterAll p.fmt 1 (c.recs.drop inp.spec) vs }
        else s
      (s, { inp with spec := n })
    | _ => (s, inp)

/-- Another unconfirmed input of the same source streams into the context. -/
def Dev.streaming (s : Dev) (k : CtxKey) (y : Src) : Bool :=
  s.inputs.any fun i => i.key == some k && i.src == some y && !i.passed && !i.wait

/-- The context takes no such input of a source any more: it has one, or has this segment, or is complete (R417). -/
def Dev.closedTo (s : Dev) (k : CtxKey) (y : Src) (x : Ext) : Bool :=
  match s.ctx k with
  | some c => c.phase != .open || (match c.src y with
    | some z => z.conf || (x.ckind == ckPartial && z.segs.any (·.1 == x.seg.toNat))
    | none => false)
  | none => s.released.any (·.1 == k)

/-- The status that what is known of an unconfirmed input earns already; of a sparse chunk, its body is not judged before its check. -/
def Dev.earlyStatus (s : Dev) (e : EpochSt) (whole : Packet) (x : Ext) : Option Nat :=
  if x.form = 0 then s.preStatus e whole x
  else if isReduce x.pattern.toNat && decide (x.func.toNat ≤ 2) && sparseFmt x.fmt.toNat && decide (x.form ≤ 2) then
    let p := Params.ofContribution whole x whole.payload
    s.preStatus e { whole with payload := List.replicate p.length 0 } { x with form := 0 }
  else some 8

/-- What an unconfirmed input may do before its check: it sets the parameters of an empty context provisionally and streams
in, or waits where they differ (R405, R406). Its epoch must be open already: an unconfirmed input leaves no trace outside its home core
(DEDUCED from the guarantee before R418, log 127). -/
def Dev.stream (s : Dev) (inp : Input) : Dev × Input :=
  match inp.pkt.ext with
  | none => (s, inp)
  | some x =>
    let k : CtxKey := ⟨x.group, x.epoch, x.chunk⟩
    let whole := { inp.pkt with payload := fit inp.data inp.pkt.length.toNat }
    if (inp.pkt.vc ≠ 2 ∧ inp.pkt.vc ≠ 6) ∨ inp.wait ∨ s.malformedAt inp.port whole ∨ s.holdsIngress inp.port
        ∨ (s.portMode inp.port = 1 ∧ inp.pkt.itag ≠ s.tagNow) ∨ s.guarded x.group ∨ paramsKnown x inp.pkt inp.data = false then
      (s, inp)
    else
      match s.epochOf x.group x.epoch with
      | none => (s, inp)
      | some e =>
        match s.srcOf e inp.pkt.src with
        | none => (s, inp)
        | some y =>
          let inp' := { inp with src := some y, key := some k }
          if e.lost.contains y || s.closedTo k y x then (s, inp)
          else if x.ckind = ckPartial then
            let p := Params.ofPartial x inp.data
            match (s.ctx k).bind (·.params) with
            | some q =>
              if q.pattern = x.pattern.toNat ∧ q.func = x.func.toNat ∧ q.fmt = x.fmt.toNat ∧ q.sat = x.sat ∧ (x.seg ≠ 0 ∨ q = p) then
                s.specAdd inp' x q k e.cfg
              else (s, inp)
            | none =>
              if x.seg ≠ 0 ∨ isBarrier x.pattern.toNat x.func.toNat ∨ (s.preStatus e whole x).isSome then (s, inp)
              else
                match s.openFor k e p (inputBytes p x whole.payload) inp.pkt.cls.toNat with
                | (t, .yes) => if (t.ctx k).isNone then (s, inp) else t.specAdd inp' x p k e.cfg
                | _ => (s, inp)
          else if (s.earlyStatus e whole x).isSome || s.streaming k y then (s, inp)
          else
            let p := Params.ofContribution whole x whole.payload
            match (s.ctx k).bind (·.params) with
            | some q => if q = p then s.specAdd inp' x p k e.cfg else (s, { inp with wait := true })
            | none =>
              match s.openFor k e p (inputBytes p x whole.payload) inp.pkt.cls.toNat with
              | (t, .yes) => if (t.ctx k).isNone then (s, inp) else t.specAdd inp' x p k e.cfg
              | _ => (s, inp)

def Dev.inputAt (s : Dev) (p : Nat) (sop : BitVec 16) : Option Input :=
  s.inputs.find? fun i => i.port == p && i.sop == sop && !i.passed
def Dev.dropInput (s : Dev) (p : Nat) (sop : BitVec 16) : Dev :=
  { s with inputs := s.inputs.filter fun i => !(i.port == p && i.sop == sop && !i.passed) }

/-- The first flit of a contribution or partial segment streams in; `pkt.payload` is the part of the payload it carries. -/
def contributionEffect (p : PortNo) (sop : BitVec 16) (pkt : Packet) (s : Dev) : Dev :=
  match pkt.ext with
  | none => s
  | some x =>
    let p := p.val
    if pkt.ptype ≠ ptColl ∨ (x.ckind ≠ ckContribution ∧ x.ckind ≠ ckPartial) ∨ s.isOwn p pkt = false ∨ s.fatal
        ∨ s.portState p ≠ 5 ∨ (s.inputAt p sop).isSome ∨ s.isSummary pkt then s
    else
      match s.admitIn p none pkt with
      | (t, none) => t
      | (t, some id) =>
        let inp : Input :=
          { port := p, sop := sop, pkt := { pkt with payload := [] }, src := none, key := none, data := pkt.payload, spec := 0,
            wait := false, passed := false, alloc := id, tick := s.ticks }
        let r := t.stream inp
        { r.1 with inputs := r.1.inputs ++ [r.2] }
def execContribution (p : PortNo) (sop : BitVec 16) (pkt : Packet) (s : State) := run (contributionEffect p sop pkt) s

/-- A further flit of it streams in. -/
def contributionFlitEffect (p : PortNo) (sop : BitVec 16) (bytes : List Byte) (s : Dev) : Dev :=
  match s.inputAt p.val sop with
  | none => s
  | some inp =>
    let r := (s.dropInput p.val sop).stream { inp with data := inp.data ++ bytes }
    { r.1 with inputs := r.1.inputs ++ [r.2] }
def execContributionFlit (p : PortNo) (sop : BitVec 16) (bytes : List Byte) (s : State) :=
  run (contributionFlitEffect p sop bytes) s

/-! ### Confirmation and failure -/

/-- Offer a checked contribution or partial to its context. -/
def Dev.takeColl (s : Dev) (p : Nat) (pkt : Packet) (alloc : Nat) : Dev :=
  let inp : Input :=
    { port := p, sop := 0, pkt := pkt, src := none, key := none, data := [], spec := 0, wait := false, passed := true, alloc := alloc,
      tick := s.ticks }
  let s := s.offer (p / 128) inp
  let s := match pkt.ext with | some x => s.review ⟨x.group, x.epoch, x.chunk⟩ | none => s
  s.beatBarriers

/-- The check of an input has passed: it counts in its context, whatever it had streamed before. -/
def Dev.confirm (s : Dev) (inp : Input) : Dev :=
  let p := inp.port
  let pkt := { inp.pkt with payload := inp.data }
  let r := s.note p pkt
  match r.1.judge p pkt false { r.2.1 with alloc := some inp.alloc, tick := inp.tick } r.2.2 with
  | (t, none) => t.undo inp (t.undoDie inp)
  | (t, some c) =>
    let q := c.pkt
    match q.ext with
    | none => t
    | some x =>
      let k : CtxKey := ⟨x.group, x.epoch, x.chunk⟩
      -- a source that has a confirmed input by now: what this copy added is taken back (R417)
      let stands := inp.key == some k && !inp.wait && (match inp.src with | some y => !t.closedTo k y x | none => false)
      let t := if stands then
          t.updCtx k fun c => if c.fixed ∨ x.ckind ≠ ckContribution then c else { c with cls := q.cls.toNat }
        else t.undo inp (t.undoDie inp)
      let t := t.offer (p / 128)
        { inp with pkt := q, src := none, key := none, data := [], spec := if stands then inp.spec else 0, wait := false, passed := true,
                   tick := t.ticks }
      (t.review k).beatBarriers

def contributionConfirmEffect (p : PortNo) (sop : BitVec 16) (s : Dev) : Dev :=
  match s.inputAt p.val sop with
  | none => s
  | some inp =>
    if s.fatal then s
    else
      let s := (s.dropInput p.val sop).confirm inp
      match inp.key with
      | some k => s.reopen k
      | none => s
def execContributionConfirm (p : PortNo) (sop : BitVec 16) (s : State) := run (contributionConfirmEffect p sop) s

/-- The check of an input has failed: what it added is subtracted; a replay sends it again on the same credit (R203, R419). -/
def contributionFailEffect (p : PortNo) (sop : BitVec 16) (s : Dev) : Dev :=
  let p := p.val
  match s.inputAt p sop with
  | none => s
  | some inp =>
    if s.fatal then s
    else
      let s := (s.dropInput p sop).undo inp (s.undoDie inp)
      let s := s.release inp.alloc
      let i := p % 128 * 8 + inp.pkt.vc.toNat
      let s := if (s.port p).nak && isPorone (s.portMode p) && s.lossless p inp.pkt.vc.toNat then
          s.setCredit (p / 128) i (s.creditOf (p / 128) i + inp.pkt.flits)
        else s
      match inp.key with
      | some k => s.reopen k
      | none => s
def execContributionFail (p : PortNo) (sop : BitVec 16) (s : State) := run (contributionFailEffect p sop) s

/-! ### Completion at the root -/

/-- The home core has rounded: result, digest, retention, copies (R39, R412 to R416). -/
def roundingDoneEffect (k : CtxKey) (s : Dev) : Dev :=
  match s.ctx k with
  | none => s
  | some c =>
    if c.phase ≠ .complete ∨ s.fatal then s
    else if c.route.isSome then
      match s.epochAny k.group k.epoch with
      | some e => s.combineResult k e
      | none => s
    else (s.rootResult k).beatBarriers
def execRoundingDone (k : CtxKey) (s : State) := run (roundingDoneEffect k) s

/-! ### Packets of CKIND PARTIAL, RESULT and ACK -/

/-- A checked packet of one CKIND, addressed to this device, with the cells it holds. -/
def Dev.collFor (s : Dev) (p : Nat) (pkt : Packet) (ck : BitVec 3) : Dev × Option (Packet × Nat) :=
  match pkt.ext with
  | none => (s, none)
  | some x =>
    if pkt.ptype ≠ ptColl ∨ x.ckind ≠ ck ∨ s.isOwn p pkt = false then (s, none)
    else
      match s.arrive p pkt false with
      | (t, none) => (t, none)
      | (t, some q) =>
        match t.admitIn p none q.pkt with
        | (u, none) => (u, none)
        | (u, some id) => (u, some (q.pkt, id))

def collPartialEffect (p : PortNo) (pkt : Packet) (s : Dev) : Dev :=
  if s.isSummary pkt then s
  else
    match s.collFor p.val pkt ckPartial with
    | (t, none) => t
    | (t, some (q, id)) => t.takeColl p.val q id
def execCollPartial (p : PortNo) (pkt : Packet) (s : State) := run (collPartialEffect p pkt) s

/-- Ports of the parent set that a group's packet goes up to. -/
def Dev.parentsOf (s : Dev) (g : BitVec 24) (ep : BitVec 16) (f : RegFile) : List Nat :=
  match s.epochAny g ep with
  | some e => e.parents
  | none => if groupValid f g then ecmpPorts f (GEntry.read f g.toNat).parentSet else []

/-- A CHUNK_LOST result where no context holds the key: the children are told and the members replay (R429). -/
def Dev.lostNoCtx (s : Dev) (d port : Nat) (k : CtxKey) (p : Params) (cls : Nat) : Dev :=
  match s.epochAny k.group k.epoch with
  | none => s
  | some e =>
    let s := { s with released := s.released.filter (·.1 != k) }
    (s.statusDown d e.children k p e.entry.part cls 4 (some port)).replay e k d

/-- CHUNK_LOST has come for a key: a resend that meets it in this beat is a duplicate (R444). -/
def Dev.toldLost (s : Dev) (k : CtxKey) : Dev := { s with lostNow := s.lostNow ++ [k] }

/-- The result stands: it is retained and goes on (R415). A context whose home core has been fenced takes its new home (R32). -/
def Dev.takeResult (s : Dev) (k : CtxKey) (pkt : Packet) (p : Params) (status form : Nat) : Dev :=
  let s := s.freeInputs k
  let s := s.updCtx k fun c =>
    if s.coreUp c.home then c
    else
      match (s.epochAny k.group k.epoch).bind fun e => homeOf e.cores e.entry.salt k with
      | some h => { c with home := h }
      | none => c
  let s := s.updCtx k fun c =>
    { c with params := some (c.params.getD p), fixed := true, passQ := [], result := pkt.payload, digest := pkt.trailer, form := form,
             status := status }
  s.retainFrom k

/-- A RESULT that has come down from the parent (R387, R413, R415, R425, R428, R429, R433). -/
def Dev.serveResult (s : Dev) (p : Nat) (pkt : Packet) (f : RegFile) : Dev :=
  match pkt.ext with
  | none => s
  | some x =>
    let d := p / 128
    let k : CtxKey := ⟨x.group, x.epoch, x.chunk⟩
    let par : Params := { pattern := x.pattern.toNat, func := x.func.toNat, fmt := x.fmt.toNat, sat := x.sat,
                          length := pkt.payload.length, fused := if x.pattern = 7 then fit pkt.payload (fusedHead pkt.payload) else [] }
    let cls := pkt.cls.toNat
    let st := statusIn x.status.toNat
    if s.guarded x.group then s.count (colPg d + 0x170)
    else
      match s.groupHere d f x.group x.epoch, s.ctx k with
      | none, _ => s.count (colPg d + 0x110)
      | some en, now =>
        if en.root then s
        else if x.pattern = 6 ∧ st = 5 then
          s.loseRoute k (match s.epochAny x.group x.epoch with | some e => e.children | none => []) (some p) d par pkt.part.toNat cls
        else
        match now with
        | some c =>
        let s := s.updCtx k fun c => { c with came := some p }
        if st = 4 then (s.lostDown k).toldLost k
        else if s.lostNow.contains k then s.count (colPg c.die + 0x120)
        else if c.phase = .retained ∨ c.phase = .retainWait then s
        else if st = 5 then (if c.phase = .sentUp then s.sendPartial k else s)
        else if st = 0 ∨ st = 3 then s.takeResult k pkt par st x.form.toNat
        else s.failCtx k st
        | none =>
        match s.released.find? (·.1 == k) with
        | some r =>
          if st = 4 then (s.lostNoCtx d p k par cls).toldLost k
          else s.sendAck d k par pkt.part.toNat cls 0 0 r.2.1 r.2.2 (s.parentsOf x.group x.epoch f)
        | none =>
          if st = 4 then (s.lostNoCtx d p k par cls).toldLost k
          else if s.lostNow.contains k then s.count (colPg d + 0x120)
          else if st = 5 then s
          else
            match s.admitEpoch d f x.group x.epoch with
            | (t, none) => t
            | (t, some e) =>
              if st ≠ 0 ∧ st ≠ 3 then t.failChunk d k e par cls st (some p)
              else
                match t.openBare k e cls par with
                | (u, .refused _) => u
                | (u, .yes) =>
                  if (u.ctx k).isNone then u.failChunk d k e par cls 2 (some p)
                  else (u.updCtx k fun c => { c with came := some p }).takeResult k pkt par st x.form.toNat

def collResultEffect (p : PortNo) (pkt : Packet) (s : Dev) : Dev :=
  match s.collFor p.val pkt ckResult with
  | (t, none) => t
  | (t, some (q, id)) => ((t.serveResult p.val q (t.fileFor q.itag)).beatBarriers).release id
def execCollResult (p : PortNo) (pkt : Packet) (s : State) := run (collResultEffect p pkt) s

/-! ### Copies again (R427, R428) -/

/-- An acknowledgement of a rank's combined rows, or of a lost rank, on its way to the root (R539, R541). -/
def Dev.serveRouteAck (s : Dev) (d : Nat) (pkt : Packet) (x : Ext) (st : Nat) : Dev :=
  let k : CtxKey := ⟨x.group, x.epoch, x.chunk⟩
  match s.epochAny x.group x.epoch with
  | none => s
  | some e =>
    if e.entry.root then
      if st = 3 then s.routeLose k e x.rank.toNat else if st = 0 then s.routeAck d x pkt.part.toNat pkt.cls.toNat else s
    else
      let p : Params := { pattern := 6, func := x.func.toNat, fmt := x.fmt.toNat, sat := x.sat, length := 0, fused := [] }
      s.sendAck d k p pkt.part.toNat pkt.cls.toNat st x.rank.toNat (leAt pkt.payload 0 4) [] e.parents

/-! ### Retention (R426, R448) -/

/-- COL_RETAIN_BEATS; 0 acts as 1 (R448). -/
def Dev.retainBeats (s : Dev) : Nat := max 1 (s.cfg (colPg 0 + 0x1000) 31 0)

/-- Retention ends: the copy is released. The route state of a DISPATCH stays until its combine is complete (R426, R430,
R539, R542). -/
def retainExpireEffect (k : CtxKey) (s : Dev) : Dev :=
  match s.ctx k with
  | none => s
  | some c =>
    if c.phase ≠ .retained ∨ s.ticks < c.retainedAt + s.retainBeats ∨ s.fatal then s
    else
      match c.route with
      | some r =>
        if r.sent then s.endCtx k
        else
          let empty := fun (r : Route) => { r with contribs := r.contribs.map fun y => (y.1, y.2.1, 0) }
          (s.releaseAll (r.contribs.map (·.2.2))).updCtx k fun c =>
            { c with acked := true, unacked := [], route := c.route.map empty }
      | none =>
        let s := match s.epochAny k.group k.epoch with
          | some e => if e.entry.root && !c.acked then s.noteUndelivered c e.entry.members else s
          | none => s
        let s := { s with released := s.released ++ [(k, c.delivered, c.undelivered)] }
        s.endCtx k
def execRetainExpire (k : CtxKey) (s : State) := run (retainExpireEffect k) s

/-- An ACK from a child (R387, R416, R427 to R430). Where retention has run out in its beat, that acts first (R444). -/
def Dev.serveAck (s : Dev) (p : Nat) (pkt : Packet) (f : RegFile) : Dev :=
  match pkt.ext with
  | none => s
  | some x =>
    let d := p / 128
    let k : CtxKey := ⟨x.group, x.epoch, x.chunk⟩
    let st := statusIn x.status.toNat
    let par : Params := { pattern := x.pattern.toNat, func := x.func.toNat, fmt := x.fmt.toNat, sat := x.sat, length := 0, fused := [] }
    if s.guarded x.group then s.count (colPg d + 0x170)
    else if (s.groupHere d f x.group x.epoch).isNone then s.count (colPg d + 0x110)
    else if x.pattern = 6 ∧ (st = 3 ∨ x.func = 1) then s.serveRouteAck d pkt x st
    else
      let s := retainExpireEffect k s
      -- a parent that no longer retains the copy has none to send again (R428), whichever of the two statuses asks (DEDUCED, log 96)
      let lost := fun (s : Dev) (part cls : Nat) =>
        if st = 4 ∨ st = 0x0C then s.statusDown d [s.logNum p] k par part cls 4 none else s
      match s.ctx k with
      | none => lost s pkt.part.toNat pkt.cls.toNat
      | some c =>
        let mine := (c.unacked.map (·.1)).filter fun lp =>
          match s.placeOf lp with | some q => s.peerNode q == pkt.src.toNat | none => false
        if st = 0 then
          if mine.isEmpty then s
          else
            (s.updCtx k fun c => { c with unacked := c.unacked.filter fun u => !mine.contains u.1,
                                          delivered := c.delivered + leAt pkt.payload 0 4 }).tryAck k
        else if c.phase = .retained ∧ (st = 4 ∨ st = 0x0C) then
          if c.acked && !(c.status == 0 || c.status == 3) then
            s.statusDown d [s.logNum p] k c.par c.part c.cls c.status none
          else mine.foldl (fun t lp => t.resendCopy k lp) s
        else lost s c.part c.cls

def collAckEffect (p : PortNo) (pkt : Packet) (s : Dev) : Dev :=
  match s.collFor p.val pkt ckAck with
  | (t, none) => t
  | (t, some (q, id)) => (t.serveAck p.val q (t.fileFor q.itag)).release id
def execCollAck (p : PortNo) (pkt : Packet) (s : State) := run (collAckEffect p pkt) s

/-! ### Timers of a context -/

/-- The child's copy of a result has not left yet. -/
def Dev.copyWaits (s : Dev) (k : CtxKey) (lp : Nat) : Bool :=
  let isOf := fun (m : Option Nat) => s.mcasts.any fun x => some x.id == m && x.key == some k
  (match s.placeOf lp with | some p => (s.port p).queue.any fun q => isOf q.mcast | none => false) ||
    s.stalled.any fun w => match w.via with | .copies ps (some x) _ => x == k && ps.contains lp | _ => false

/-- A child has been silent since its copy left (R427). -/
def resendTimeoutEffect (k : CtxKey) (child : LogPort) (s : Dev) : Dev :=
  match s.ctx k with
  | none => s
  | some c =>
    match c.unacked.find? (·.1 == child.val) with
    | none => s
    | some u =>
      if c.phase ≠ .retained ∨ s.ticks < u.2.1 + max 1024 (s.cfg (colPg 0 + 0x1008) 31 0) ∨ s.copyWaits k child.val ∨ s.fatal then s
      else s.resendCopy k child.val
def execResendTimeout (k : CtxKey) (child : LogPort) (s : State) := run (resendTimeoutEffect k child) s

/-- A context that has not completed in time (R408, R444): one that still waits for sources, not one that has its result and is
retained (DEDUCED, log 131). -/
def contextTimeoutEffect (k : CtxKey) (s : Dev) : Dev :=
  match s.ctx k with
  | none => s
  | some c =>
    let limit := s.cfg (colPg 0 + 0x1010) 31 0
    if c.phase ≠ .open ∨ limit = 0 ∨ s.ticks < c.opened + limit ∨ s.fatal then s
    else
      let held := match c.route with | some r => r.contribs.map (·.2.2) | none => []
      ((s.releaseAll held).failCtx k 9).beatBarriers
def execContextTimeout (k : CtxKey) (s : State) := run (contextTimeoutEffect k) s

/-! ### Group reset (R439, R440) -/

/-- A write of COL_GRP_RESET with GO set, on any die. -/
def colGrpResetEffect (_d : DieNo) (group : BitVec 24) (s : Dev) : Dev := s.groupResetAll group
def execColGrpReset (d : DieNo) (group : BitVec 24) (s : State) := run (colGrpResetEffect d group) s

/-- The guard has ended: adapter slots send their contributions again. -/
def resetGuardEndEffect (group : BitVec 24) (s : Dev) : Dev :=
  let g := s.grp group
  match g.guardEnd with
  | none => s
  | some t =>
    if s.ticks < t ∨ s.fatal then s
    else
      let s := s.setGrp group { g with guardEnd := none }
      let mine := s.works.filter fun w => w.group == group && (match w.who with | .adapter _ _ => true | _ => false)
      mine.foldl (fun u w =>
        match w.who, (GEntry.read u.active group.toNat) with
        | .adapter p q, e =>
          if w.sends e then Dev.adpPump 64 (u.updWork w fun y => { y with sentTiles := 0 }) (p * 256 + q) else u
        | _, _ => u) s
def execResetGuardEnd (group : BitVec 24) (s : State) := run (resetGuardEndEffect group) s

end Sys2Proof.Machine
end

