-- ==== Sys2Proof/Machine/Tables.lean ====
section
/-! DEFINITION. The commands of in-fabric tables and expert dispatch (chapter 10): TABLE and ROUTE packets for this device
(R513 to R542), gathers that waited (R527), and the lanes of the sparse engines (R508 to R511). -/

namespace Sys2Proof.Machine

/-- A packet of a group whose reset guard runs is discarded (R440). -/
def Dev.guardDrop (s : Dev) (p : Nat) (pkt : Packet) (serve : Dev → Dev) : Dev :=
  match pkt.ext with
  | none => s
  | some x => if s.guarded x.group then s.count (colPg (p / 128) + 0x170) else serve s

def Dev.serveTableReq (s : Dev) (p : Nat) (pkt : Packet) (ecc : Ecc) : Dev := Dev.takeAnswer (s.tableReq (p / 128) p pkt ecc)
def Dev.serveTableResp (s : Dev) (p : Nat) (pkt : Packet) : Dev := s.guardDrop p pkt fun t => t.tableResp pkt

def tableReqEffect (p : PortNo) (pkt : Packet) (ecc : Ecc) (s : Dev) : Dev :=
  s.receive p.val pkt ptTableReq fun t q => t.serveTableReq p.val q ecc
def execTableReq (p : PortNo) (pkt : Packet) (ecc : Ecc) (s : State) := run (tableReqEffect p pkt ecc) s

def tableGatherReadEffect (k : CtxKey) (src : BitVec 20) (ecc : Ecc) (s : Dev) : Dev :=
  if s.fatal then s else Dev.takeAnswer (s.gatherRead k src ecc)
def execTableGatherRead (k : CtxKey) (src : BitVec 20) (ecc : Ecc) (s : State) := run (tableGatherReadEffect k src ecc) s

def tableRespEffect (p : PortNo) (pkt : Packet) (s : Dev) : Dev :=
  s.receive p.val pkt ptTableResp fun t q => t.serveTableResp p.val q
def execTableResp (p : PortNo) (pkt : Packet) (s : State) := run (tableRespEffect p pkt) s

/-- A ROUTE packet with its cells held: toward the root, into its records, or to the member of its rank (R530, R534, R537,
R540). -/
def Dev.serveRoute (s : Dev) (p : Nat) (pkt : Packet) (alloc : Nat) (l : Load) : Dev :=
  let d := p / 128
  match pkt.ext with
  | none => s.release alloc
  | some x =>
    if s.guarded x.group then (s.count (colPg d + 0x170)).release alloc
    else if x.ckind = ckResult then (s.routeLand d pkt x).release alloc
    else if x.ckind ≠ ckContribution then s.release alloc
    else
      match s.admitEpoch d (s.fileFor pkt.itag) x.group x.epoch with
      | (t, none) => t.release alloc
      | (t, some e) =>
        if e.entry.root then t.routeHere d pkt x e p alloc
        else (t.routeParents p pkt (t.fileFor pkt.itag) e.parents { l with alloc := some alloc }).routeSeen d pkt x

/-- A ROUTE packet of one type arrives for this device. -/
def Dev.routeIn (s : Dev) (p : Nat) (pkt : Packet) (pt : BitVec 5) : Dev :=
  if pkt.ptype ≠ pt ∨ s.isOwn p pkt = false then s
  else
    match s.arrive p pkt false with
    | (t, none) => t
    | (t, some q) =>
      match t.admitIn p none q.pkt with
      | (u, none) => u
      | (u, some id) => u.serveRoute p q.pkt id q.load

def dispatchRowsEffect (p : PortNo) (pkt : Packet) (s : Dev) : Dev := s.routeIn p.val pkt ptDispatchRows
def execDispatchRows (p : PortNo) (pkt : Packet) (s : State) := run (dispatchRowsEffect p pkt) s

def combineRowsEffect (p : PortNo) (pkt : Packet) (s : Dev) : Dev := s.routeIn p.val pkt ptCombineRows
def execCombineRows (p : PortNo) (pkt : Packet) (s : State) := run (combineRowsEffect p pkt) s

def laneStealEffect (c : CoreNo) (lane : Fin 16) (s : Dev) : Dev :=
  if s.fatal then s else s.steal c.val lane.val
def execLaneSteal (c : CoreNo) (lane : Fin 16) (s : State) := run (laneStealEffect c lane) s

def segmentDoneEffect (c : CoreNo) (lane : Fin 16) (s : Dev) : Dev :=
  if s.fatal then s else Dev.takeAnswer (s.segmentDone c.val lane.val)
def execSegmentDone (c : CoreNo) (lane : Fin 16) (s : State) := run (segmentDoneEffect c lane) s

end Sys2Proof.Machine
end

