-- ==== Sys2Proof/Machine/Sched.lean ====
section
/-! DEFINITION. The egress side of the switch core (chapters 05 and 06): the scheduler (R293 to R299, R810), sending (R197 to
R202, R206, R241, R264, R304), ageing (R274), escape moves (R276 to R279), shapers and policers (R303, R305), the end of a
flush (R284); and the paths of the die-to-die mesh (R41 to R53, R799). -/

namespace Sys2Proof.Machine

/-! ### Queues and heads (R293, R295, R810) -/

/-- The child of a packet at the group step: its group-table entry, or 65,536 for the shared child (R295). -/
def Dev.childOf (s : Dev) (q : QPkt) : Nat :=
  if q.pkt.vc = 2 ∨ q.pkt.vc = 3 then
    match q.pkt.ext with
    | some x => if groupValid (s.fileFor q.pkt.itag) x.group then x.group.toNat % 65536 else 65536
    | none => 65536
  else 65536

/-- Two packets stand in one first-in first-out order of a port. -/
def Dev.sameOrder (s : Dev) (a b : QPkt) : Bool :=
  a.pkt.vc == b.pkt.vc && a.pkt.cls == b.pkt.cls && a.pkt.part == b.pkt.part && s.childOf a == s.childOf b

/-- The head of every order of a port. -/
def Dev.heads (s : Dev) (p : Nat) : List QPkt :=
  (s.port p).queue.foldl (fun l q => if l.any (s.sameOrder q) then l else l ++ [q]) []

/-- The head that a queue selection names. -/
def Dev.headAt (s : Dev) (p : Nat) (x : QueueSel) : Option QPkt :=
  (s.heads p).find? fun q =>
    q.pkt.vc.toNat == x.vc.val && q.pkt.cls.toNat == x.cls.val && q.pkt.part.toNat == x.part.val &&
      s.childOf q == (match x.child with | some g => g.toNat % 65536 | none => 65536)

def Dev.unqueue (s : Dev) (p : Nat) (q : QPkt) : Dev := s.updPort p fun x => { x with queue := x.queue.filter (·.id != q.id) }

/-! ### Eligibility (R109, R199, R206, R242, R294) -/

/-- Credit available on a VC, in flits (R198). -/
def Dev.txCredit (s : Dev) (p vc : Nat) : Nat :=
  let x := s.port p
  (x.granted.getD vc 0 + 2 ^ 20 - x.used.getD vc 0) % 2 ^ 20

/-- The packet stands without credit. -/
def Dev.lacksCredit (s : Dev) (p : Nat) (q : QPkt) : Bool :=
  isPorone (s.portMode p) && s.lossless p q.pkt.vc.toNat && decide (s.txCredit p q.pkt.vc.toNat < q.pkt.flits)

/-- The shaper is disabled or not negative (R304). -/
def Dev.shaperOpen (s : Dev) (p j : Nat) : Bool :=
  fld (s.shaperCfg p j) 23 0 == 0 || decide (0 ≤ Map.get (s.port p).shapers j 0)

/-- The packet as its flow knows it: on the VC it had before an escape move (R258, R279). -/
def QPkt.flowPkt (q : QPkt) : Packet := { q.pkt with vc := q.escaped.getD q.pkt.vc }

/-- An earlier packet of the flow is still in the device, queued at a port or held while one is flushed: packets of a flow leave in the
order in which they came (R109, R258). Copies go port by port (R263), except that an earlier tag goes first everywhere (R109). -/
def Dev.afterOther (s : Dev) (q : QPkt) : Bool :=
  s.ports.any fun x =>
    (x.2.queue.any fun y => decide (y.id < q.id) && sameFlow y.flowPkt q.flowPkt &&
      (y.pkt.itag != q.pkt.itag || y.mcast.isNone || q.mcast.isNone))
      || x.2.flushHeld.any fun h => decide (h.id < q.id) && sameFlow h.pkt q.flowPkt

/-- The PCP that a packet's frame is sent with (R241, R242): the packet's VC, or that of a plain frame's own tag; a frame without
a tag counts as PCP 0 (DESIGN CHOICE, log 105). -/
def framePcp (pkt : Packet) : Nat :=
  if pkt.ptype = ptEthFrame then (match (frameHead pkt.payload).2.1 with | some tci => tci / 2 ^ 13 | none => 0) else pkt.vc.toNat

def Dev.eligible (s : Dev) (p : Nat) (q : QPkt) : Bool :=
  let x := s.port p
  !s.lacksCredit p q && s.shaperOpen p 0 && s.shaperOpen p (1 + q.pkt.cls.toNat) && s.shaperOpen p (9 + q.pkt.part.toNat)
    && !s.afterOther q
    && (if s.portMode p = 4 then (match Map.find x.paused (framePcp q.pkt) with | some t => decide (t ≤ s.ticks) | none => true)
        else decide (x.unacked.length + q.pkt.flits ≤ 32768))

/-! ### Deficit round robin (R296, R297) -/

/-- An eligible child of a level: its number and weight, the packet its own levels choose, that packet's counted length, and the
levels as that choice leaves them. -/
structure Child where
  n      : Nat
  weight : Nat
  q      : QPkt
  len    : Nat
  sched  : Map Drr

/-- A level at reset: no deficit, and no child current or served (65,537 names none), so the lowest child comes first
(DESIGN CHOICE: R296 does not say where the round starts, log 50). -/
def Drr.zero : Drr := { deficits := [], cur := 65537, zeroLast := 65537 }

/-- The next child after `k`, ascending, wrapping. -/
def nextChild (k : Nat) (l : List Child) : Option Child :=
  match l.find? fun c => decide (k < c.n) with
  | some c => some c
  | none => l.head?

/-- `x` is passed over on the way from `k` to `n`. -/
def passedOver (k n x : Nat) : Bool :=
  if k < n then decide (k ≤ x) && decide (x < n) else decide (k ≤ x) || decide (x < n)

/-- The selection loop over the eligible children of nonzero weight; `all` are the eligible ones. -/
def drrLoop (all nz : List Child) : Nat → Drr → Option (Child × Drr)
  | 0, _ => none
  | fuel + 1, d =>
    match nz.find? fun c => c.n == d.cur && decide (c.len ≤ Map.get d.deficits c.n 0) with
    | some c => some (c, { d with deficits := Map.put d.deficits c.n (Map.get d.deficits c.n 0 - c.len) 0 })
    | none =>
      match nextChild d.cur nz with
      | none => none
      | some c =>
        let kept := d.deficits.filter fun x => !(passedOver d.cur c.n x.1 && !all.any (·.n == x.1))
        drrLoop all nz fuel { d with cur := c.n, deficits := Map.put kept c.n (Map.get kept c.n 0 + c.weight * 64) 0 }

/-- One selection of a level among its eligible children, ascending. -/
def drrPick (d : Drr) (l : List Child) : Option (Child × Drr) :=
  let nz := l.filter (·.weight != 0)
  if nz.isEmpty then
    match nextChild d.zeroLast l with
    | none => none
    | some c => some (c, { d with zeroLast := c.n })
  else drrLoop l nz (160 * (nz.length + 1)) d

/-- The choice of a level, with all levels as it leaves them. -/
def pickLevel (sched : Map Drr) (key : Nat) (l : List Child) : Option (QPkt × Map Drr) :=
  match drrPick (Map.get sched key Drr.zero) l with
  | none => none
  | some (c, d) => some (c.q, Map.put c.sched key d Drr.zero)

/-! ### The levels (R295, R298) -/

/-- A 12-bit weight of an SCH table (R324). -/
def Dev.schWeight (s : Dev) (p off : Nat) : Nat := bits (RegFile.part (s.sees (p / 128) s.active) (schPg (p / 8) + off) 2) 11 0
def Dev.vcWeight (s : Dev) (p v : Nat) : Nat :=
  let w := s.schWeight p (0x4000 + 16 * (p % 8) + 2 * v)
  if 6 ≤ v then max 1 w else w
def Dev.classOff (p c : Nat) : Nat := 0x4080 + 16 * (p % 8) + 2 * c
def Dev.strictClass (s : Dev) (p c : Nat) : Bool := bit (RegFile.part (s.sees (p / 128) s.active) (schPg (p / 8) + Dev.classOff p c) 2) 15
def Dev.tenantWeight (s : Dev) (p v t : Nat) : Nat := s.schWeight p (0x4100 + 256 * (p % 8) + 32 * v + 2 * t)

/-- The child of a level that stands for a lower choice. -/
def Dev.childFor (s : Dev) (p n weight : Nat) (r : Option (QPkt × Map Drr)) : Option Child :=
  r.map fun x => { n := n, weight := weight, q := x.1, len := s.countedLen p x.1.pkt, sched := x.2 }

/-- Weight of a packet's group child. -/
def Dev.groupWeight (s : Dev) (q : QPkt) : Nat :=
  if s.childOf q = 65536 then 16 else (GEntry.read (s.fileFor q.pkt.itag) (s.childOf q)).weight

/-- The choice within a tenant's queue: by group on VC2 and VC3, else its head. `hs`: the eligible heads of the queue. -/
def Dev.pickGroup (s : Dev) (p v c t : Nat) (hs : List QPkt) : Option (QPkt × Map Drr) :=
  let sched := (s.port p).sched
  if v = 2 ∨ v = 3 then
    let l := sortBy (fun (a b : Child) => decide (a.n < b.n))
      (hs.filterMap fun q => s.childFor p (s.childOf q) (s.groupWeight q) (some (q, sched)))
    pickLevel sched (1024 + (v * 8 + c) * 16 + t) l
  else hs.head?.map fun q => (q, sched)

def Dev.pickTenant (s : Dev) (p v c : Nat) (hs : List QPkt) : Option (QPkt × Map Drr) :=
  let l := (List.range 16).filterMap fun t =>
    s.childFor p t (s.tenantWeight p v t) (s.pickGroup p v c t (hs.filter fun q => q.pkt.part.toNat == t))
  pickLevel (s.port p).sched (16 + v * 8 + c) l

def Dev.pickClass (s : Dev) (p v : Nat) (hs : List QPkt) : Option (QPkt × Map Drr) :=
  let l := (List.range 8).filterMap fun c =>
    s.childFor p c (s.schWeight p (Dev.classOff p c)) (s.pickTenant p v c (hs.filter fun q => q.pkt.cls.toNat == c))
  let d := p / 128
  match minBy (fun (c : Child) => (7 - s.classRank d c.n) * 8 + c.n) (l.filter fun c => s.strictClass p c.n) with
  | some c => some (c.q, c.sched)
  | none => pickLevel (s.port p).sched (1 + v) l

/-- The packet that the scheduler chooses. -/
def Dev.pickPacket (s : Dev) (p : Nat) : Option (QPkt × Map Drr) :=
  let hs := (s.heads p).filter (s.eligible p)
  let l := (List.range 8).filterMap fun v =>
    s.childFor p v (s.vcWeight p v) (s.pickClass p v (hs.filter fun q => q.pkt.vc.toNat == v))
  pickLevel (s.port p).sched 0 l

/-! ### Sending -/

/-- Count a packet that leaves: shapers, tenant bytes, sojourn (R304, R312, R322). -/
def Dev.chargeSend (s : Dev) (p : Nat) (q : QPkt) : Dev :=
  let len := s.countedLen p q.pkt
  let spend := fun (m : Map Int) (j : Nat) =>
    if fld (s.shaperCfg p j) 23 0 = 0 then m else Map.put m j (Map.get m j 0 - len * 65536) 0
  let js := [0, 1 + q.pkt.cls.toNat, 9 + q.pkt.part.toNat]
  let wait := min (s.ticks - q.tick) 0xFFFFFFFF
  let s := s.updPort p fun x => { x with shapers := js.foldl spend x.shapers }
  let s := s.addLv (schPg (p / 8) + 0x400 + 0x80 * (p % 8) + 8 * q.pkt.part.toNat) 63 0 len
  s.updTel p q.pkt.vc.toNat fun t => { t with maxSoj := max t.maxSoj wait, mapSoj := max t.mapSoj wait }

/-- A copy that starts to leave (R263, R271); the wait for its child's ACK begins (R427). -/
def Dev.startCopy (s : Dev) (p : Nat) (q : QPkt) : Dev :=
  match q.mcast with
  | none => s
  | some m =>
    let key := (s.mcasts.find? (·.id == m)).bind (·.key)
    let sent := fun (c : Ctx) => { c with unacked := c.unacked.map fun u => if u.1 = s.logNum p then (u.1, s.ticks, u.2.2) else u }
    { s.count (swcPg q.die + 0x140) with mcasts := updWhere (·.id == m) (fun x => { x with started := true }) s.mcasts,
                                         ctxs := updWhere (fun c => some c.key == key) sent s.ctxs }

/-- The flits of a packet, numbered from `seq` on (R195, R197). -/
def dataFlits (seq : BitVec 16) (q : QPkt) : List SentFlit :=
  (List.range q.pkt.flits).map fun i =>
    { seq := seq + BitVec.ofNat 16 i, vc := q.pkt.vc.toNat, eop := i + 1 == q.pkt.flits, body := .data q.pkt i q.stomp, die := q.die,
      alloc := q.alloc, mcast := q.mcast }

/-- Send a packet whole (R197, R198, R202, R241, R299). -/
def Dev.sendPacket (s : Dev) (p : Nat) (q : QPkt) : Dev :=
  let s := ((s.unqueue p q).chargeSend p q).startCopy p q
  if s.portMode p = 4 then
    let s := s.emit (.frame p (withFcs q.stomp (s.frameOf p q.pkt)))
    (match q.mcast with | some m => s.copyDone m none | none => s.release q.alloc).retryStalled
  else
    let vc := q.pkt.vc.toNat
    (s.updPort p fun x => { x with used := x.used.set vc ((x.used.getD vc 0 + q.pkt.flits) % 2 ^ 20) }).sendFlits p
      (dataFlits (s.port p).txSeq q)

/-- A head whose payload the peer does not accept is never sent: it is discarded here and counted (R212). -/
def Dev.dropTooLong (s : Dev) (p : Nat) : Dev :=
  ((s.heads p).filter fun q => s.portMode p != 4 && decide (q.pkt.payload.length > s.peerMax p)).foldl (fun t q =>
    let t := ((t.unqueue p q).dropQueued p q).countPort p 0x608 0x10
    if q.pkt.answered then t.answerStatus q.die q.pkt 8 0 else t) s

/-- Copies at the head of their queues toward a port that is not live are dropped (R264). -/
def Dev.dropDeadCopies (s : Dev) (p : Nat) : Dev :=
  let gone := (s.heads p).filter fun q => q.mcast.isSome
  let s := gone.foldl (fun t q => (t.unqueue p q).dropQueued p q) s
  (gone.filterMap fun q => (q.mcast.bind fun m => (s.mcasts.find? (·.id == m)).bind (·.key))).foldl Dev.tryAck s

/-- The port's scheduler chooses and sends its next packet. -/
def packetSelectEffect (p : PortNo) (s : Dev) : Dev :=
  let p := p.val
  if s.fatal then s
  else if s.portLive p = false then s.dropDeadCopies p
  else
    let s := s.dropTooLong p
    match s.pickPacket p with
    | none => s
    | some (q, sched) => (s.updPort p fun x => { x with sched := sched }).sendPacket p q
def execPacketSelect (p : PortNo) (s : State) := run (packetSelectEffect p) s

/-! ### Ageing and escape -/

/-- A lossy packet at the head of its queue is too old (R259, R274, R278). -/
def ageDropEffect (p : PortNo) (sel : QueueSel) (s : Dev) : Dev :=
  let p := p.val
  match s.headAt p sel with
  | none => s
  | some q =>
    let limit := s.cfg (swcPg q.die + 0x1040 + 8 * q.pkt.cls.toNat) 31 0
    if s.fatal ∨ s.lossless p q.pkt.vc.toNat ∨ q.pkt.vc = 6 ∨ limit = 0 ∨ s.ticks ≤ q.tick + limit then s
    else
      let s := (s.unqueue p q).dropQueued p q
      ((s.count (swcPg q.die + 0x128)).telDrop p q.pkt.vc.toNat).retryStalled
def execAgeDrop (p : PortNo) (sel : QueueSel) (s : State) := run (ageDropEffect p sel) s

/-- The place where an earlier packet of the flow is queued that has moved to VC6 (R279). -/
def Dev.escapedAhead (s : Dev) (q : QPkt) : Option Nat :=
  (s.ports.find? fun x => x.2.queue.any fun y => y.escaped.isSome && decide (y.id < q.id) && sameFlow y.flowPkt q.flowPkt).map (·.1)

/-- The escape port of a packet, which takes that of the earlier ones of its flow (R277, R279): `none` where its VALID is 0, or the
port is not live or is the one the packet arrived on, which is never a candidate (R255). -/
def Dev.escapePort (s : Dev) (q : QPkt) : Option Nat :=
  let e := routeEntry (s.fileFor q.pkt.itag) q.die q.pkt.node
  let at_ := match s.escapedAhead q with
    | some x => some x
    | none => if e.escValid then s.placeOf e.escPort else none
  match at_ with
  | some x => if s.portLive x ∧ q.ingress ≠ some x then some x else none
  | none => none

/-- Change one queued packet. -/
def Dev.updQueued (s : Dev) (p id : Nat) (f : QPkt → QPkt) : Dev :=
  s.updPort p fun x => { x with queue := updWhere (fun (q : QPkt) => q.id == id) f x.queue }

def escapeMoveEffect (p : PortNo) (sel : QueueSel) (s : Dev) : Dev :=
  let p := p.val
  match s.headAt p sel with
  | none => s
  | some q =>
    let beats := s.cfg (swcPg q.die + 0x1018) 31 0
    let waited := match q.since with | some t => decide (t + beats ≤ s.ticks) && s.lacksCredit p q | none => false
    if s.fatal ∨ beats = 0 ∨ q.mcast.isSome ∨ q.pkt.vc = 3 ∨ q.pkt.vc = 6 ∨ s.lossless p q.pkt.vc.toNat = false
        ∨ isPorone (s.portMode p) = false ∨ (waited = false ∧ (s.escapedAhead q).isNone) then s
    else
      match s.escapePort q with
      | none => if q.escCnt then s else (s.count (swcPg q.die + 0x138)).updQueued p q.id fun x => { x with escCnt := true }
      | some ep =>
        if s.txCredit ep 6 < q.pkt.flits then s
        else
          let q' := { q with pkt := { q.pkt with vc := 6 }, escaped := some q.pkt.vc, since := none, escCnt := false }
          ((s.unqueue p q).count (swcPg q.die + 0x130)).enqueue ep q'
def execEscapeMove (p : PortNo) (sel : QueueSel) (s : State) := run (escapeMoveEffect p sel) s

/-- Note for every head how long it has stood without credit (R276): at each beat. -/
def Dev.watchHeads (s : Dev) : Dev :=
  s.ports.foldl (fun t x =>
    let hs := t.heads x.1
    let note := fun (q : QPkt) =>
      if hs.any (·.id == q.id) && t.lacksCredit x.1 q then (if q.since.isSome then q else { q with since := some t.ticks })
      else { q with since := none, escCnt := false }
    if x.2.queue.isEmpty then t else t.updPort x.1 fun y => { y with queue := y.queue.map note }) s

/-! ### Shapers and policers -/

/-- A bucket's content one beat on: RATE × 0.00032 bytes more, in 2^-16 bytes with the fraction below dropped (DEDUCED from
'held with 16 fractional bits', log 51), and at most BURST. -/
def bucketTick (w : Word) (x : Int) : Int :=
  if fld w 23 0 = 0 then x else min (x + (fld w 23 0 * 65536 / 3125 : Nat)) (fld w 55 32 * 65536)

def shaperTickEffect (s : Dev) : Dev :=
  let one := fun (p : Nat) (x : Port) =>
    { x with
      shapers := (List.range 25).foldl (fun m j => Map.put m j (bucketTick (s.shaperCfg p j) (Map.get m j 0)) 0) x.shapers
      policers := (List.range 16).foldl (fun m t => Map.put m t (bucketTick (s.policerCfg p t) (Map.get m t 0)) 0) x.policers }
  (List.range 512).foldl (fun t p =>
    let busy := (List.range 25).any (fun j => fld (s.shaperCfg p j) 23 0 != 0)
      || (List.range 16).any fun k => fld (s.policerCfg p k) 23 0 != 0
    if busy then t.updPort p (one p) else t) s
def execShaperTick (s : State) := run shaperTickEffect s

/-! ### The end of a flush (R284) -/

/-- Forward a packet that was held at ingress, or that was formed here and held. -/
def Dev.forwardHeld (s : Dev) (h : HeldPkt) : Dev :=
  let f := s.fileFor h.pkt.itag
  if h.port < 512 then
    match h.via with
    | .parents ports => s.routeParents h.port h.pkt f ports h.load
    | _ => s.route h.port h.pkt f h.load
  else
    let e := match h.via with
      | .parents ports => s.parentEgress f h.die ports none h.pkt
      | _ => s.egress f h.die none h.pkt
    match e with
    | .own => s.release h.alloc
    | .noRoute => ((s.release h.alloc).count (swcPg h.die + 0x100)).ownFenced h.pkt
    | .port q alt =>
      let pkt := match h.via with | .parents _ => s.addressTo q h.pkt | _ => h.pkt
      (if alt then s.count (swcPg h.die + 0x150) else s).enqueue q (mkQ pkt h.die h.alloc none h.tick h.id none)
    | .hold q => s.updPort q fun x => { x with flushHeld := x.flushHeld ++ [h] }

def flushEndEffect (p : PortNo) (s : Dev) : Dev :=
  let x := s.port p.val
  if x.flushing = false ∨ s.fatal then s
  else
    let s := s.setPort p.val { x with flushing := false, flushHeld := [] }
    x.flushHeld.foldl Dev.forwardHeld s
def execFlushEnd (p : PortNo) (s : State) := run (flushEndEffect p) s

/-! ### The mesh (R41 to R53, R799) -/

/-- The queue of a flow toward a link is empty: die `a` reaches die `b` by the path of the moment (R41, R44, R51). A packet crosses
between dies inside the command that moves it, so that no flow ever has a packet queued at a link or in flight on it, and a fenced
link has none to discard (DESIGN CHOICE, log 118). -/
def d2dPathMoveEffect (a b : DieNo) (s : Dev) : Dev :=
  if a = b then s else s.setPath a.val b.val (s.pathTo a.val b.val)
def execD2dPathMove (a b : DieNo) (s : State) := run (d2dPathMoveEffect a b) s

/-- 2 ms in beats of 2.56 ns. -/
def twoMs : Nat := 781250

/-- A link that is still training 2 ms after reset is fenced (R799). -/
def d2dLinkTimeoutEffect (d : DieNo) (peer : AnyDie) (s : Dev) : Dev :=
  if s.linkState d.val peer.val ≠ 1 ∨ s.linkOut d.val peer.val ∨ s.pwr.porLow ∨ s.ticks < s.pwr.resetAt + twoMs then s
  else s.faultOwn d.val 0x04 0 4 (d2dUnit d.val peer.val)
def execD2dLinkTimeout (d : DieNo) (peer : AnyDie) (s : State) := run (d2dLinkTimeoutEffect d peer) s

end Sys2Proof.Machine
end

