-- ==== Sys2Proof/Machine/Tel.lean ====
section
/-! DEFINITION. Telemetry (chapter 06): windows and queue samples (R311 to R315), the congestion map (R316 to R319). -/

namespace Sys2Proof.Machine

/-- Length of a window in beats (R311, R327). -/
def Dev.winLen (s : Dev) : Nat :=
  let n := s.cfg (telPg 0 + 0x1000) 4 0
  2 ^ (if 8 ≤ n ∧ n ≤ 20 then n else 12)

/-- Level of a port and VC whose largest sojourn is `soj` (R316). -/
def Dev.congLevel (s : Dev) (p soj : Nat) : Nat :=
  let t1 := s.cfg (telPg 0 + 0x1008) 31 0
  let t2 := max t1 (s.cfg (telPg 0 + 0x1010) 31 0)
  if s.portLive p = false then 3 else if soj < t1 then 0 else if soj < t2 then 1 else 2

/-- Age, at the last beat, of the oldest head packet of a port on a VC. -/
def Dev.headAge (s : Dev) (p vc : Nat) : Nat :=
  (((s.heads p).filter fun q => q.pkt.vc.toNat == vc).map fun q => min (s.ticks - 1 - q.tick) 0xFFFFFFFF).foldl max 0

/-- MAX_SOJOURN of the window that ends (R312). -/
def Dev.windowSoj (s : Dev) (p vc : Nat) : Nat := max (s.telStat p vc).maxSoj (s.headAge p vc)

/-- A block's record of a port and VC (R312, R313). -/
def Dev.telRecord (s : Dev) (p vc : Nat) : List Byte :=
  if s.portExists p = false then List.replicate 16 0
  else
    let t := s.telStat p vc
    let soj := s.windowSoj p vc
    leBytes 4 t.maxDepth ++ leBytes 4 (s.depth p vc) ++ leBytes 4 soj ++ leBytes 2 t.drops
      ++ leBytes 1 (s.congLevel p soj) ++ [0]

/-- A die's block (R313). -/
def Dev.telBlock (s : Dev) (d seq : Nat) : List Byte :=
  leBytes 8 s.tel.winBeat.toNat ++ leBytes 8 seq
    ++ leBytes 1 (b2n s.aligned + 2 * b2n (s.tel.skipped.getD d false)) ++ leBytes 1 d ++ List.replicate 238 0
    ++ (List.range 128).flatMap fun i => (List.range 8).flatMap fun v => s.telRecord (d * 128 + i) v

def Dev.setSkipped (s : Dev) (d : Nat) (b : Bool) : Dev := { s with tel := { s.tel with skipped := s.tel.skipped.set d b } }
def Dev.setWriting (s : Dev) (d : Nat) (b : Bool) : Dev := { s with tel := { s.tel with writing := s.tel.writing.set d b } }

/-- The state of a die's ring under its registers (R315): 0 OFF, 1 RUNNING, 2 REFUSED. -/
def Dev.ringState (s : Dev) (d : Nat) : Nat :=
  let base := s.lv (telPg d + 0x100) 43 0
  let blocks := s.lv (telPg d + 0x108) 31 0
  if blocks = 0 then 0 else if base % 256 ≠ 0 ∨ base + blocks * 16640 > 2 ^ 41 then 2 else 1

/-- A die's block for the window that ends: written from here on, or skipped (R313, R314). Its bytes are in memory at once
(log 40). -/
def Dev.telWrite (s : Dev) (d : Nat) : Dev :=
  let a := telPg d
  let st := s.ringState d
  let s := s.setLv (a + 0x128) 1 0 st
  if st ≠ 1 then s
  else
    let wr := s.lv (a + 0x110) 63 0
    let blocks := s.lv (a + 0x108) 31 0
    let skip := fun (t : Dev) => (t.count (a + 0x120)).setSkipped d true
    if (wr + 2 ^ 64 - s.lv (a + 0x118) 63 0) % 2 ^ 64 = blocks ∨ s.tel.writing.getD d false then skip s
    else
      let r := s.devWrite (s.lv (a + 0x100) 43 0 + wr % blocks * 16640) (s.telBlock d wr)
      if r.2 then (r.1.setWriting d true).setSkipped d false else skip r.1

/-- The samples of the next window begin; the map interval keeps the ages of the heads as the window ends, beside the sojourns of what it
has sent (R316). -/
def Dev.nextWindow (s : Dev) : Dev :=
  let step := fun (t : Dev) (i : Nat) =>
    let p := i / 8; let v := i % 8
    let age := s.headAge p v
    t.updTel p v fun x => { maxDepth := s.depth p v, maxSoj := 0, drops := 0, mapSoj := max x.mapSoj age }
  let keys := (s.tel.stats.map (fun x => x.1) ++ s.ports.flatMap (fun (x : Nat × Port) => (List.range 8).map (x.1 * 8 + ·))).eraseDups
  let s := keys.foldl step s
  { s with tel := { s.tel with winBeat := s.beat } }

/-- A window ends as the next begins (R311, R313). -/
def telWindowEndEffect (s : Dev) : Dev :=
  if s.beat.toNat % s.winLen ≠ 0 ∨ s.tel.winBeat = s.beat ∨ s.pwr.porLow then s
  else ((List.range 4).foldl Dev.telWrite s).nextWindow
def execTelWindowEnd (s : State) := run telWindowEndEffect s

/-- A block has been written: its sequence is complete; or its write met an uncorrectable error (R314, R320). -/
def telBlockWriteDoneEffect (d : DieNo) (ok : Bool) (s : Dev) : Dev :=
  let d := d.val
  if s.tel.writing.getD d false = false then s
  else
    let s := s.setWriting d false
    if ok then s.addLv (telPg d + 0x110) 63 0 1
    else ((s.count (telPg d + 0x120)).setSkipped d true).faultOwn d 0x06 0 0 (blockUnit d 0x06 0)
def execTelBlockWriteDone (d : DieNo) (ok : Bool) (s : State) := run (telBlockWriteDoneEffect d ok) s

/-- A write to TEL_RING_BLOCKS or TEL_RING_BASE: the indices return to 0, a block being written is abandoned, and the ring's
state follows at the next window start (R315). -/
def Dev.ringWrite (s : Dev) (d : Nat) (blocks : Bool) (v : Nat) : Dev :=
  let a := telPg d
  let s := if blocks then s.setLv (a + 0x108) 31 0 v else s.setLv (a + 0x100) 43 0 v
  ((s.putLv (a + 0x110) 0).putLv (a + 0x118) 0).setWriting d false

def telRingConfigWriteEffect (d : DieNo) (blocks : Bool) (v : Word) (s : Dev) : Dev := s.ringWrite d.val blocks v.toNat
def execTelRingConfigWrite (d : DieNo) (blocks : Bool) (v : Word) (s : State) := run (telRingConfigWriteEffect d blocks v) s

/-! ### The congestion map -/

/-- Level of a logical port and VC in the interval that ends: from the sojourns of the packets sent in it and the ages of the heads as
it ends (R316, where no window may end in it: DEDUCED, log 126); 3 for a port of a die whose levels are lost (R320). -/
def Dev.mapLevel (s : Dev) (lp vc : Nat) : Nat :=
  match s.placeOf lp with
  | none => 3
  | some p => if s.tel.mapLost.getD (p / 128) false then 3 else s.congLevel p (max (s.telStat p vc).mapSoj (s.headAge p vc))

/-- The map, 512 bytes (R317). -/
def Dev.congMap (s : Dev) : List Byte :=
  (List.range 256).flatMap fun lp =>
    leBytes 2 ((List.range 8).foldl (fun n v => n + s.mapLevel lp v * 4 ^ v) 0)

/-- The map packet (R318). -/
def Dev.mapPacket (s : Dev) (m : List Byte) : Packet :=
  mkPkt ptMgmt (s.cfg (telPg 0 + 0x1020) 63 0) s.own 0 (s.cfg (telPg 0 + 0x1018) 7 4) 7 7
    (leBytes 8 s.tel.mapBeat.toNat ++ leBytes 4 s.own ++ leBytes 1 (b2n s.aligned) ++ List.replicate 3 0 ++ m)

/-- A map interval ends: the map is published, sent and signalled (R316 to R319). -/
def congMapCloseEffect (s : Dev) : Dev :=
  if s.beat.toNat % 4096 ≠ 0 ∨ s.tel.mapBeat = s.beat ∨ s.pwr.porLow then s
  else
    let m := s.congMap
    let pkt := s.mapPacket m
    let s := (List.range 64).foldl (fun t i => t.putLv (telPg 0 + 0x800 + 8 * i) (leAt m (8 * i) 8)) s
    let s := s.addLv (telPg 0 + 0x200) 63 0 1
    let s : Dev := { s with tel := { s.tel with
      mapBeat := s.beat, mapLost := List.replicate 4 false, stats := (s.tel.stats.map fun x => (x.1, { x.2 with mapSoj := 0 })).filter fun x => x.2 != TelStat.zero } }
    let s := if s.cfg (telPg 0 + 0x1018) 1 1 = 1 then s.setLv (ctlPg + 0x240) 9 9 1 else s
    if s.cfg (telPg 0 + 0x1018) 0 0 = 1 then s.sendMgmt 0 pkt else s
def execCongMapClose (s : State) := run congMapCloseEffect s

end Sys2Proof.Machine
end

