-- ==== Sys2Proof/Machine/BpmCmds.lean ====
section
/-! DEFINITION. The commands of the buffer pool manager and of contexts that wait for memory (chapters 07 and 13): returned
pointers (R371, R372), credit (R352, R353), offers of parked contributions (R366), RETAIN retries (R368) and the passes of
spilled contexts (R654). -/

namespace Sys2Proof.Machine

/-! ### Returned pointers -/

/-- Take one block out of the allocation that holds it. -/
def Dev.takeBlock (s : Dev) (d r : Nat) (b : Nat × Nat) : Dev :=
  let strip := fun (a : Alloc) =>
    if a.die = d ∧ a.region = r then { a with blocks := a.blocks.filter (· != b) } else a
  ({ s with allocs := (s.allocs.map strip).filter fun a => !a.blocks.isEmpty } : Dev).easeLevel d r

/-- The block that a damaged pointer stood for stays allocated, in no one's hands: one of the owner's blocks of the pool named, else its
first one (DESIGN CHOICE, log 123: the pointer does not say which). -/
def Dev.loseBlock (s : Dev) (d p : Nat) (o : Owner) : Dev :=
  let mine := (s.allocs.filter fun a => a.die == d && a.owner == o).flatMap fun a => a.blocks.map fun b => (a, b)
  match ((mine.find? fun x => x.2.1 == p).orElse fun _ => mine.head?) with
  | none => s
  | some (a, b) =>
    let strip := fun (x : Alloc) => if x.id == a.id then { x with blocks := x.blocks.filter (· != b) } else x
    { s with allocs := ((s.allocs.map strip).filter fun x => !x.blocks.isEmpty) ++ [{ a with id := s.nextId, blocks := [b], esc := 0 }],
             nextId := s.nextId + 1 }

/-- A pointer that is refused: the cells are lost, and the owner is charged for them no longer (R372, R373, R384). -/
def Dev.badPtr (s : Dev) (d : Nat) (ptr : Nat) (unit : BitVec 32) (o : Owner) (reason : Nat) : Dev :=
  let a := bpmPg d
  let p := bits ptr 27 25
  let size := if p > 4 then 1 else poolCells p
  let key := ownerKey d o
  let r := ownerRegion o
  let s := s.loseBlock d p o
  let s : Dev := { s with uncharged := Map.put s.uncharged key (Map.get s.uncharged key 0 + size) 0,
                          lost := Map.put s.lost (d * 9 + r) (s.lostCells d r + size) 0 }
  let s := s.count (a + 0x410)
  let s := if s.lv (a + 0x420) 0 0 = 1 then s
    else ((s.putLv (a + 0x418) (unit.toNat * 2 ^ 32 + ptr)).putLv (a + 0x420) (reason * 16 + 1)).putLv (a + 0x428) s.beat.toNat
  (s.faultOwn d 0x07 0 2 (blockUnit d 0x07 0)).touch d r

/-- A unit returns a block by its pointer, against an owner's charge. Returns to a region that is out of service pass no check
(R378). -/
def blockReturnEffect (d : DieNo) (ptr : BitVec 32) (unit : BitVec 32) (owner : Owner) (s : Dev) : Dev :=
  let n := ptr.toNat
  let r := bits n 31 28
  if 0 < r ∧ r = ownerRegion owner ∧ s.regionUp (d.val * 8 + (r - 1)) = false then s.takeBlock d.val r (bits n 27 25, bits n 18 0) else
  match s.ptrReason d.val n owner with
  | 0 => (s.takeBlock d.val (bits n 31 28) (bits n 27 25, bits n 18 0)).retryStalled
  | reason => s.badPtr d.val n unit owner reason
def execBlockReturn (d : DieNo) (ptr : BitVec 32) (unit : BitVec 32) (owner : Owner) (s : State) :=
  run (blockReturnEffect d ptr unit owner) s

/-! ### Credit -/

/-- Grant what brings the owner's use to its target; a flit of credit stands for a cell (R344, R353). -/
def creditGrantEffect (p : PortNo) (vc : Vc) (s : Dev) : Dev :=
  let p := p.val; let v := vc.val
  let n := s.creditRoom p v
  if s.fatal ∨ s.portState p ≠ 5 ∨ isPorone (s.portMode p) = false ∨ s.lossless p v = false ∨ n = 0
      ∨ (s.holdsIngress p ∧ v ≠ 7) then s
  else
    let i := p % 128 * 8 + v
    let total := ((s.port p).ours.getD v 0 + n) % 2 ^ 20
    let s := s.setCredit (p / 128) i (s.creditOf (p / 128) i + n)
    let s := s.updPort p fun x => { x with ours := x.ours.set v total }
    s.sendIdle p false (some v)
def execCreditGrant (p : PortNo) (vc : Vc) (s : State) := run (creditGrantEffect p vc) s

/-! ### Parked contributions -/

/-- Offer a parked contribution again: where it is refused, the cluster that refused it. -/
def Dev.reoffer (s : Dev) (x : Parked) : Dev × Taken :=
  let inp : Input :=
    { port := x.port, sop := 0, pkt := x.pkt, src := x.src, key := none, data := [], spec := 0, wait := false, passed := true,
      alloc := x.alloc, tick := x.tick }
  let d := x.die
  if x.pkt.ptype = ptDispatchRows then
    match x.pkt.ext with
    | none => (s.release x.alloc, .yes)
    | some y =>
      match s.admitEpoch d (s.fileFor x.pkt.itag) y.group y.epoch with
      | (t, none) => (t.release x.alloc, .yes)
      | (t, some e) => t.dispatchIn d inp y ⟨y.group, y.epoch, y.chunk⟩ e
  else s.takeInput d inp

/-- Offer one: what is refused stays parked with its place, in the cluster of its home (R366). -/
def Dev.offerParked (s : Dev) (x : Parked) : Dev :=
  match s.reoffer x with
  | (t, .yes) =>
    let t := match x.pkt.ext with | some y => t.review ⟨y.group, y.epoch, y.chunk⟩ | none => t
    t.beatBarriers
  | (t, .refused cl) =>
    t.parkAt x.die cl { port := x.port, sop := 0, pkt := x.pkt, src := x.src, key := none, data := [], spec := 0, wait := false,
                        passed := true, alloc := x.alloc, tick := x.tick } x.tick

/-- A cluster's parked contributions are offered again, oldest first, when pool 0 stands below PRESSURE or its die has a spill unit or
a context-table entry to give (R366, R652). -/
def parkedOfferEffect (c : ClusterNo) (s : Dev) : Dev :=
  let c := c.val; let d := c / 8
  if s.fatal ∨ (s.level d (1 + c % 8) 0 ≥ 2 ∧ s.spillFree d = 0 ∧ s.ctxUsed d ≥ 32768) then s
  else
    let mine := s.parked.filter fun x => x.cluster == c
    let s : Dev := { s with parked := s.parked.filter fun x => x.cluster != c }
    mine.foldl Dev.offerParked s
def execParkedOffer (c : ClusterNo) (s : State) := run (parkedOfferEffect c) s

/-! ### Contexts that wait -/

/-- A RETAIN that waited is asked for again (R368): at the root the rounding follows, elsewhere the result is retained. -/
def retainRetryEffect (k : CtxKey) (s : Dev) : Dev :=
  match s.ctx k with
  | none => s
  | some c =>
    if c.phase ≠ .retainWait ∨ s.fatal then s
    else
      let formed := !c.digest.isEmpty
      match s.retainCells c (if formed then c.result.length else resultBytes c.par c.par.length) with
      | (_, none) => s
      | (t, some id) =>
        let t := t.updCtx k fun c => { c with retain := some id }
        if formed then t.retainNow k else t.updCtx k fun c => { c with phase := .complete, retainedAt := s.ticks }
def execRetainRetry (k : CtxKey) (s : State) := run (retainRetryEffect k) s

/-- Apply one confirmed input of a spilled context (R653). -/
def Dev.passInput (s : Dev) (k : CtxKey) (e : EpochSt) (inp : Input) : Dev :=
  match s.ctx k, inp.pkt.ext with
  | some c, some x =>
    if x.ckind = ckContribution then
      let r := s.applyContribution c e { inp with spec := 0 } x
      (r.1.updCtx k fun _ => r.2).release inp.alloc
    else (s.updCtx k fun c => applyImage c (inp.src.getD (.slot 0)) inp.pkt.payload x.rank.toNat).release inp.alloc
  | _, _ => s

/-- The reduction engine ends a pass over a spilled context: every input confirmed when it began is in (R539, R654). -/
def spillPassEffect (k : CtxKey) (s : Dev) : Dev :=
  match s.ctx k, s.epochAny k.group k.epoch with
  | some c, some e =>
    if c.passQ.isEmpty ∨ s.fatal then s
    else if c.route.isSome then s.routePass k e
    else
      let s := s.updCtx k fun c => { c with passQ := [] }
      ((c.passQ.foldl (fun t i => t.passInput k e i) s).tryDone k).beatBarriers
  | _, _ => s
def execSpillPass (k : CtxKey) (s : State) := run (spillPassEffect k) s

end Sys2Proof.Machine
end

