-- ==== Sys2Proof/Machine/MemCmds.lean ====
section
/-! DEFINITION. The commands of the memories (chapter 13): scrubbing (R663 to R666), error windows (R667), training and zero
fills (R668, R670, R672, R673), and reported temperatures (R675, R681). -/

namespace Sys2Proof.Machine

/-! ### HBM scrubbing -/

/-- Bursts of a pseudo-channel (R663). -/
def pcBursts : Nat := 2 ^ 26

/-- Local address of a burst of a pseudo-channel of a stack (R656). -/
def burstAddr (st pc i : Nat) : Nat :=
  let o := i % pcBursts * 64
  groupBase st (pc / 4) + o / 256 * 1024 + pc % 4 * 256 + o % 256

/-- Whole passes over a stack: every pseudo-channel in service has made them. -/
def Dev.stackPasses (s : Dev) (st : Nat) : Nat :=
  let l := ((List.range 32).filter fun pc => !s.fencedUnit (pcUnit st pc)).map fun pc =>
    Map.get s.memSt.hbmScrub (st * 32 + pc) 0 / pcBursts
  match l with
  | [] => 0
  | n :: t => t.foldl min n

/-- What lies at a scrubbed burst that is lost: the records of a spilled context of the die (R666). -/
def Dev.spillLost (s : Dev) (a : Nat) : Dev :=
  if inSpill a = false then s
  else
    let d := a / 2 ^ 37 / 4
    let hit := s.ctxs.filter fun c => c.die == d && (match c.place with
      | .spilled us => us.any fun u => decide (spillAddr d u ≤ a) && decide (a < spillAddr d u + 65536)
      | _ => false)
    hit.foldl (fun t c =>
      (t.faultOwn d 0x0A 0 2 (clusterUnit (d * 8))).loseCtx c.key) s

def hbmScrubReadEffect (st : StackNo) (pc : Fin 32) (ecc : Ecc) (s : Dev) : Dev :=
  let st := st.val; let pc := pc.val
  if s.stackState st ≠ 3 ∨ s.fencedUnit (pcUnit st pc) ∨ s.cfg (hbmPg st + 0x1000) 15 0 = 0 ∨ s.fatal then s
  else
    let k := st * 32 + pc
    let n := Map.get s.memSt.hbmScrub k 0
    let a := burstAddr st pc n
    let before := s.stackPasses st
    let m := s.meetEcc a ecc
    let s := if m.2 then m.1.spillLost a else m.1
    let s : Dev := { s with memSt := { s.memSt with hbmScrub := Map.insert s.memSt.hbmScrub k (n + 1) } }
    if before < s.stackPasses st then s.count (hbmPg st + 0x128) else s
def execHbmScrubRead (st : StackNo) (pc : Fin 32) (ecc : Ecc) (s : State) := run (hbmScrubReadEffect st pc ecc) s

/-! ### Scrubbing of a cluster (R664, R666) -/

/-- An uncorrectable word of reduction memory: what holds it is lost. -/
def Dev.rmemUncorr (s : Dev) (k off : Nat) (reporter : BitVec 32) (inj : Bool) : Dev :=
  let s := (s.count (rmemPg k + 0x110)).logRmem k false 0 off
  let s := s.fault (k / 8) 0x0A (k % 8) 1 (clusterUnit k) reporter inj
  let cell := off / 256
  let hit := (s.allocsIn (k / 8) (1 + k % 8)).filter fun a =>
    a.blocks.any fun b => decide (b.2 ≤ cell) && decide (cell < b.2 + poolCells b.1)
  hit.foldl (fun t a =>
    match t.ctxs.find? fun c => c.place == .resident a.id || c.retain == some a.id with
    | some c => t.loseCtx c.key
    | none => t) s

def Dev.rmemWord (s : Dev) (k off : Nat) (e : Ecc) : Dev :=
  let ecc := s.wordEcc [clusterUnit k] e
  let s := s.unhurt [clusterUnit k]
  match ecc with
  | .clean => s
  | .corrected => (s.count (rmemPg k + 0x108)).faultOwn (k / 8) 0x0A (k % 8) 0 (clusterUnit k)
  | .uncorrectable => s.rmemUncorr k off (clusterUnit k) false

/-- A cluster reads one word of its reduction memory and one of each core's working SRAM. `ws` lists what the cores meet; a
core not listed meets a clean word. -/
def rmemScrubReadEffect (c : ClusterNo) (rm : Ecc) (ws : List (Fin 8 × Ecc)) (s : Dev) : Dev :=
  let k := c.val
  if s.fencedUnit (clusterUnit k) ∨ s.cfg (rmemPg k + 0x1000) 15 0 = 0 ∨ s.fatal then s
  else
    let n := Map.get s.memSt.rmScrub k 0
    let s := s.rmemWord k (n % 2 ^ 19 * 32) rm
    let met := fun (i : Nat) => match ws.find? (·.1.val == i) with | some x => x.2 | none => .clean
    let s := (List.range 8).foldl (fun t i =>
      let core := k * 8 + i
      if t.corePresent core then t.wsramEcc core (n % 2 ^ 16 * 32) (met i) else t) s
    let s : Dev := { s with memSt := { s.memSt with rmScrub := Map.insert s.memSt.rmScrub k (n + 1) } }
    if (n + 1) % 2 ^ 19 = 0 then s.count (rmemPg k + 0x128) else s
def execRmemScrubRead (c : ClusterNo) (rm : Ecc) (ws : List (Fin 8 × Ecc)) (s : State) := run (rmemScrubReadEffect c rm ws) s

/-! ### Error windows -/

/-- A window of 2^24 ticks since the stack came to read READY has ended (R667). -/
def hbmErrWindowEffect (st : StackNo) (pc : Fin 32) (s : Dev) : Dev :=
  let t0 := Map.get s.memSt.ready st.val 0
  if s.stackState st.val ≠ 3 ∨ s.ticks ≤ t0 ∨ (s.ticks - t0) % 2 ^ 24 ≠ 0 then s
  else { s with memSt := { s.memSt with pcErr := Map.erase s.memSt.pcErr (st.val * 32 + pc.val) } }
def execHbmErrWindow (st : StackNo) (pc : Fin 32) (s : State) := run (hbmErrWindowEffect st pc) s

/-! ### Training and zero fills -/

/-- The zero fill of a group that returns has ended (R670). -/
def hbmGroupClearDoneEffect (st : StackNo) (g : Fin 8) (s : Dev) : Dev :=
  if s.groupState st.val g.val ≠ 2 then s
  else
    (s.zeroMem (groupBase st.val g.val) (2 ^ 34)).setGroupState st.val g.val 0
def execHbmGroupClearDone (st : StackNo) (g : Fin 8) (s : State) := run (hbmGroupClearDoneEffect st g) s

/-- Training ends: the zero fill starts, or the stack is fenced (R668, R672, R799). -/
def hbmTrainDoneEffect (st : StackNo) (ok : Bool) (s : Dev) : Dev :=
  if s.stackState st.val ≠ 1 then s
  else if ok then s.setStackState st.val 2
  else s.faultOwn (st.val / 4) 0x0B (st.val % 4) 3 (stackUnit st.val)
def execHbmTrainDone (st : StackNo) (ok : Bool) (s : State) := run (hbmTrainDoneEffect st ok) s

/-- The spill areas of a stack read as zero (R649, R672). -/
def Dev.zeroSpill (s : Dev) (st : Nat) : Dev :=
  (List.range 4).foldl (fun t i => t.zeroMem (groupBase st (4 + i) + 0x3F8000000) 0x8000000) s

/-- The zero fill ends (R672, R673). After power-on reset every byte is zero already; a warm reset clears the spill areas. -/
def hbmInitDoneEffect (st : StackNo) (s : Dev) : Dev :=
  let k := st.val
  if s.stackState k ≠ 2 then s
  else
    let s := (s.zeroSpill k).setStackState k 3
    { s with memSt := { s.memSt with ready := Map.insert s.memSt.ready k s.ticks,
                                     pcErr := s.memSt.pcErr.filter fun x => x.1 / 32 != k } }
def execHbmInitDone (st : StackNo) (s : State) := run (hbmInitDoneEffect st) s

/-! ### Temperature -/

/-- A stack reports its temperature; reaching the one that asks for faster refresh raises HOT (R675, R681). -/
def hbmTempReportEffect (st : StackNo) (t : Byte) (s : Dev) : Dev :=
  let k := st.val
  let was := s.lv (hbmPg k + 0x100) 15 8
  let s := s.setLv (hbmPg k + 0x100) 15 8 t.toNat
  if decide (Config.hbmHot ≤ t.toNat) && decide (was < Config.hbmHot) then s.faultOwn (k / 4) 0x0B (k % 4) 4 (stackUnit k) else s
def execHbmTempReport (st : StackNo) (t : Byte) (s : State) := run (hbmTempReportEffect st t) s

end Sys2Proof.Machine
end

