-- ==== Sys2Proof/Machine/Flt.lean ====
section
/-! DEFINITION. The commands of chapter 14: fault reports (R687 to R693), peer silence (R694), notices (R704 to R707), the
fault summary (R708 to R710), leaving the fault state (R711 to R718) and fault injection (R722, R723). -/

namespace Sys2Proof.Machine

/-! ### Units and their pages (R684, R685) -/

/-- The place of the port that a PORT unit names: a configured port's, else that of a DISABLED port which has the number (R181,
R685). -/
def Dev.unitPlace (s : Dev) (lp : Nat) : Option Nat :=
  match s.placeOf lp with
  | some p => some p
  | none => (List.range 512).find? fun p => s.logNum p == lp && s.portExists p

/-- The page whose PG_FAULT a unit's bits stand in, as (die, block, instance); `none` for a unit that does not exist. -/
def Dev.unitPage (s : Dev) (u : BitVec 32) : Option (Nat × Nat × Nat) :=
  let d := unitDie u
  let i := unitInst u
  let only := fun (ok : Bool) (x : Nat × Nat × Nat) => if ok && decide (d < 4) then some x else none
  match unitClass u with
  | 0x01 => only (decide (i < 128) && s.groupPresent (d * 16 + i / 8)) (d, 0x03, i / 8)
  | 0x02 => match s.unitPlace i with | some p => only (p / 128 == d) (d, 0x03, p / 8 % 16) | none => none
  | 0x03 => only (decide (i < 16) && s.groupPresent (d * 16 + i)) (d, 0x03, i)
  | 0x04 => only (decide (i < 512) && decide (i % 8 ≤ 4) && s.corePresent (d * 64 + i / 8)) (d, 0x09, i / 8)
  | 0x05 => only (decide (i < 64) && s.corePresent (d * 64 + i)) (d, 0x09, i)
  | 0x06 => only (decide (i < 8)) (d, 0x0A, i)
  | 0x07 => only (decide (i < 128)) (d, 0x0B, i / 32)
  | 0x08 => only (decide (i < 4)) (d, 0x0B, i)
  | 0x09 => only (decide (i ≤ 4) && i != d && s.linkState d i != 0) (d, 0x04, 0)
  | 0x0A => if s.pagePresent d (i / 65536) (i % 65536) then some (d, i / 65536, i % 65536) else none
  | _ => none

/-- A unit that exists and can be fenced (R685). -/
def Dev.fenceable (s : Dev) (u : BitVec 32) : Bool := unitClass u != 0x0A && (s.unitPage u).isSome

/-- The ports that a LANE, PORT or PORT_GROUP unit takes in, DISABLED ones too. -/
def Dev.unitPlaces (s : Dev) (u : BitVec 32) : List Nat :=
  let g := unitDie u * 16 + unitInst u / 8
  match unitClass u with
  | 0x01 => match s.logLane g (unitInst u % 8) with | some l => [s.portOfLane g l] | none => []
  | 0x02 => match s.unitPlace (unitInst u) with | some p => [p] | none => []
  | 0x03 =>
    let g := unitDie u * 16 + unitInst u
    (List.range (splitPorts (s.split g))).map (g * 8 + ·)
  | _ => []

/-- The configured ones of them. -/
def Dev.unitPorts (s : Dev) (u : BitVec 32) : List Nat := (s.unitPlaces u).filter fun p => s.portMode p != 0

/-! ### Device actions of single bits -/

/-- Bytes of the table entry at an offset of an SWC and of an SCH page (R292, R324). -/
def entrySize (blk off : Nat) : Nat :=
  if blk = 0x04 then (if 0x8000 ≤ off ∧ off < 0xE000 then 32 else 4) else if off < 0x5000 then 2 else 8

/-- An entry reads as its reset value on a die until the next molt. -/
def Dev.damage (s : Dev) (d a n : Nat) : Dev := { s with damaged := s.damaged ++ [(d, a, n)] }

/-- A packet in the packet buffer of die `d` is discarded wherever it stands, with all its copies; one that is already leaving is
stomped: what is sent of it again ends with the complement of its CRC (R223, R288, R381). A confirmed contribution so discarded
counts as one that has not come. -/
def Dev.pktLost (s : Dev) (d a : Nat) : Dev :=
  let queued := s.ports.flatMap fun x => (x.2.queue.filter fun q => q.alloc == a && q.die == d).map fun q => (x.1, q)
  let isIt := fun (h : HeldPkt) => h.alloc == a && h.die == d
  let held := s.ports.any fun x => (x.2.flushHeld ++ x.2.held ++ x.2.early).any isIt
  let stomp := fun (f : SentFlit) =>
    match f.body with
    | .data pkt i _ => if f.alloc == a && f.die == d then { f with body := .data pkt i true } else f
    | _ => f
  let out := fun (x : Nat × Port) =>
    (x.1, { x.2 with queue := x.2.queue.filter fun q => !(q.alloc == a && q.die == d),
                     flushHeld := x.2.flushHeld.filter fun h => !isIt h, held := x.2.held.filter fun h => !isIt h,
                     early := x.2.early.filter fun h => !isIt h, unacked := x.2.unacked.map stomp })
  let s := { s with ports := s.ports.map out }
  let s := queued.foldl (fun t y => t.dropQueued y.1 y.2) s
  let ins := s.inputs.filter (·.alloc == a)
  let s := ins.foldl (fun t i => if i.passed then t else t.undo i (t.undoDie i)) s
  let strip := fun (c : Ctx) =>
    match c.passQ.find? (·.alloc == a) with
    | some i => ({ c with passQ := c.passQ.filter (·.alloc != a) } : Ctx).updSrc (i.src.getD (.slot 0)) fun y => { y with conf := false }
    | none => { c with route := c.route.map fun r => { r with contribs := r.contribs.filter (·.2.2 != a) } }
  let waits := held || !ins.isEmpty || s.parked.any (·.alloc == a)
    || s.ctxs.any fun c => c.passQ.any (·.alloc == a) || (match c.route with | some r => r.contribs.any (·.2.2 == a) | none => false)
  let s := { s with inputs := s.inputs.filter (·.alloc != a), parked := s.parked.filter (·.alloc != a), ctxs := s.ctxs.map strip }
  let s := if waits then s.release a else s
  (ins.filterMap (·.key)).foldl Dev.reopen s

/-- An uncorrectable packet-buffer error has met the packet that `n` numbers: by its arrival, or by its allocation (R288). -/
def Dev.bufLost (s : Dev) (d n : Nat) : Dev :=
  if s.allocs.any fun a => a.id == n && a.die == d then s.pktLost d n
  else
    let found := s.ports.flatMap fun x =>
      let q := (x.2.queue.filter fun q => q.id == n && q.die == d).map (·.alloc)
      let h := ((x.2.flushHeld ++ x.2.held ++ x.2.early).filter fun h => h.id == n && h.die == d).map (·.alloc)
      q ++ h
    match found with
    | a :: _ => s.pktLost d a
    | [] => s

/-- A link of the chain that holds a cell is damaged: the blocks beyond it become lost cells, which stay allocated and are charged
to no owner (R372, R373), and what lies on the chain is discarded or lost (R381). -/
def Dev.chainLost (s : Dev) (d r cell : Nat) : Dev :=
  match (s.allocsIn d r).find? fun a => a.blocks.any fun b => decide (b.2 ≤ cell) && decide (cell < b.2 + poolCells b.1) with
  | none => s
  | some a =>
    let kept := a.blocks.takeWhile fun b => !(decide (b.2 ≤ cell) && decide (cell < b.2 + poolCells b.1))
    let gone := a.blocks.drop (kept.length + 1)
    let n := natSum (gone.map fun b => poolCells b.1)
    let key := ownerKey d a.owner
    let rest : List Alloc := if gone.isEmpty then [] else [{ a with id := s.nextId, blocks := gone, esc := 0 }]
    let s : Dev := { s with lost := Map.put s.lost (d * 9 + r) (s.lostCells d r + n) 0,
                            uncharged := Map.put s.uncharged key (Map.get s.uncharged key 0 + n) 0, nextId := s.nextId + 1,
                            allocs := updWhere (·.id == a.id) (fun y => { y with blocks := a.blocks.take (kept.length + 1) }) s.allocs ++ rest }
    let s := s.touch d r
    if r = 0 then s.pktLost d a.id
    else
      match s.ctxs.find? fun c => c.place == .resident a.id || c.retain == some a.id with
      | some c => s.loseCtx c.key
      | none => s

/-- What the device does at a fault bit beyond its report and fence. `detail` says which packet, entry, cell, descriptor,
thread, spill unit or word the fault met. -/
def Dev.faultAction (s : Dev) (d blk inst bit : Nat) (detail : Nat) : Dev :=
  match blk, bit with
  | 0x04, 0 => s.count (swcPg d + 0x158)
  | 0x04, 1 => s.bufLost d detail
  | 0x04, 3 =>
    let n := entrySize 0x04 (detail % 65536)
    s.damage d (swcPg 0 + (detail % 65536 - detail % 65536 % n)) n
  | 0x05, 1 =>
    let n := entrySize 0x05 (detail % 65536)
    s.damage d (schPg (d * 16 + inst) + (detail % 65536 - detail % 65536 % n)) n
  | 0x06, 0 =>
    if s.tel.writing.getD d false then ((s.setWriting d false).count (telPg d + 0x120)).setSkipped d true else s
  | 0x06, 1 => { s with tel := { s.tel with mapLost := s.tel.mapLost.set d true } }
  | 0x07, 1 => s.chainLost d (detail / 2 ^ 28 % 9) (detail % 2 ^ 20)
  | 0x08, 1 =>
    let s := s.damage d (gtblKey (detail % 65536) 0) 64
    ((s.ctxs.filter fun c => c.die == d && c.key.group.toNat % 65536 == detail % 65536).map (·.key)).foldl Dev.loseCtx s
  | 0x09, 3 => s.updCore (d * 64 + inst) fun k => { k with descs := Map.erase k.descs (detail % 4096) }
  | 0x09, 5 =>
    let t := (d * 64 + inst) * 16 + detail % 16
    if (s.thread t).state = tsIdle ∨ (s.thread t).state = tsFaulted then s else s.faultThread t 6
  | 0x0A, 2 =>
    let hit := s.ctxs.filter fun c => c.die == d && (match c.place with | .spilled us => us.contains detail | _ => false)
    (hit.map (·.key)).foldl Dev.loseCtx s
  | 0x0C, 1 => s.setCollector d { s.collector d with entries := Map.erase (s.collector d).entries detail }
  | _, _ => s

/-- The UCLASS that a FENCED bit names. -/
def fencedClass (blk bit : Nat) : Nat :=
  match blk, bit with
  | 0x03, 0 => 1
  | 0x03, 1 => 2
  | 0x03, _ => 3
  | 0x04, _ => 9
  | 0x09, 6 => 4
  | 0x09, _ => 5
  | 0x0A, _ => 6
  | 0x0B, 2 => 7
  | _, _ => 8

/-- A unit raises a bit of its page, and the device takes its action (R686, R723). -/
def Dev.unitFault (s : Dev) (d blk inst bit : Nat) (u reporter : BitVec 32) (inj : Bool) (detail : Nat) : Dev :=
  match blk, bit with
  | 0x0A, 0 => (s.fault d blk inst bit u reporter inj).count (rmemPg (d * 8 + inst) + 0x108)
  | 0x0A, 1 => s.rmemUncorr (d * 8 + inst) (detail % 2 ^ 24) reporter inj
  | 0x0B, 0 => (s.fault d blk inst bit u reporter inj).count (hbmPg (d * 4 + inst) + 0x108)
  | 0x0B, 1 =>
    if unitClass u = 7 then s.hbmUncorrBy (burstAddr (d * 4 + inst) (unitInst u % 32) detail) reporter inj
    else s.fault d blk inst bit u reporter inj
  | _, _ => (s.fault d blk inst bit u reporter inj).faultAction d blk inst bit detail

/-- A unit of page (d, block, inst) reports a fault that names `unit`. -/
def faultReportEffect (d : AnyDie) (block inst : Byte) (bit : Fin 64) (unit reporter detail : BitVec 32) (s : Dev) : Dev :=
  let d := d.val; let blk := block.toNat; let i := inst.toNat
  match faultClass blk bit.val with
  | none => s
  | some cls =>
    if s.pagePresent d blk i = false ∨ (s.unitPage unit).isNone ∨ (s.unitPage reporter).isNone
        ∨ (cls = 2 ∧ unitClass unit ≠ fencedClass blk bit.val) then s
    else s.unitFault d blk i bit.val unit reporter false detail.toNat
def execFaultReport (d : AnyDie) (block inst : Byte) (bit : Fin 64) (unit reporter detail : BitVec 32) (s : State) :=
  run (faultReportEffect d block inst bit unit reporter detail) s

/-! ### Silence (R694) -/

/-- FLT_SILENCE_BEATS of a die (R726). -/
def Dev.silenceBeats (s : Dev) (d : Nat) : Nat :=
  let n := s.cfg (fltPg d + 0x1020) 15 0
  if 32 ≤ n ∧ n ≤ 512 then n else 256

/-- The peer of an ACTIVE Porone port has sent no intact flit for FLT_SILENCE_BEATS beats. -/
def peerSilenceEffect (p : PortNo) (s : Dev) : Dev :=
  let p := p.val
  if s.portState p ≠ 5 ∨ isPorone (s.portMode p) = false ∨ s.ticks < (s.port p).lastOk + s.silenceBeats (p / 128) then s
  else s.failPort p
def execPeerSilence (p : PortNo) (s : State) := run (peerSilenceEffect p) s

/-! ### Notices (R704 to R707) -/

/-- A MGMT packet of a collector (R706, R707, R709). -/
def Dev.faultMgmt (s : Dev) (d : Nat) (payload : List Byte) : Packet :=
  mkPkt ptMgmt (s.cfg (fltPg d + 0x1030) 63 0) s.own 0 (s.cfg (fltPg d + 0x1028) 7 4) 7 7 payload

/-- Deliver a notice in the ways that FLT_NOTICE_CTRL enables. -/
def Dev.deliverNotice (s : Dev) (d : Nat) (e : FEntry) : Dev :=
  let s := s.count (fltPg d + 0x128)
  let ctrl := s.cfg (fltPg d + 0x1028) 2 0
  let s := if bit ctrl 0 && !s.fatal then
      s.sendMgmt d (s.faultMgmt d ([1] ++ List.replicate 7 0 ++ leBytes 4 s.own ++ List.replicate 4 0 ++ e.bytes))
    else s
  if bit ctrl 1 then
    if e.cls ≤ 1 then s.setLv (fltPg d + 0x218) 0 0 1 else if e.cls = 2 then s.setLv (fltPg d + 0x218) 1 1 1 else s
  else s

/-- The entry of a unit in a die's collector. -/
def Dev.entryAt (s : Dev) (d : Nat) (u : BitVec 32) : Option FEntry :=
  if collectorOf (unitDie u) = d then (s.collector d).entry u else none

/-- 64 beats after the report that opened the window. A window that has ended by then is closed with the notice (DEDUCED, log
142). -/
def noticeSendEffect (d : DieNo) (unit : BitVec 32) (s : Dev) : Dev :=
  match s.entryAt d.val unit with
  | none => s
  | some e =>
    match e.window with
    | some (t, false, _) =>
      if s.ticks < t + 64 then s
      else
        let ended := decide (t + s.noticeWindow d.val ≤ s.ticks)
        (s.updEntry unit fun (x : FEntry) => { x with window := if ended then none else some (t, true, false) }).deliverNotice d.val e
    | _ => s
def execNoticeSend (d : DieNo) (unit : BitVec 32) (s : State) := run (noticeSendEffect d unit) s

/-- A window whose notice has been sent closes. -/
def noticeWindowCloseEffect (d : DieNo) (unit : BitVec 32) (s : Dev) : Dev :=
  match s.entryAt d.val unit with
  | none => s
  | some e =>
    match e.window with
    | some (t, true, late) =>
      if s.ticks < t + s.noticeWindow d.val then s
      else if late then
        (s.updEntry unit fun (x : FEntry) => { x with window := some (s.ticks, true, false) }).deliverNotice d.val e
      else s.updEntry unit fun (x : FEntry) => { x with window := none }
    | _ => s
def execNoticeWindowClose (d : DieNo) (unit : BitVec 32) (s : State) := run (noticeWindowCloseEffect d unit) s

/-! ### The fabric fault summary (R708 to R710) -/

/-- Hold a child's summary for its period, unless that period has been sent. -/
def Dev.keepSummary (s : Dev) (pkt : Packet) : Dev :=
  match pkt.ext with
  | none => s
  | some x =>
    let late := match s.summary.last with
      | some b => decide ((x.chunk - BitVec.ofNat 32 (b / 2 ^ s.sumPower)).toNat ≥ 2 ^ 31)
      | none => false
    if late then s
    else
      let rest := s.summary.kids.filter fun y => !(y.1 == x.chunk && y.2.1 == pkt.src)
      { s with summary := { s.summary with kids := rest ++ [(x.chunk, pkt.src, pkt.payload)] } }

/-- A summary of the configured group arrives at die 0's collector. -/
def faultSummaryEffect (p : PortNo) (pkt : Packet) (s : Dev) : Dev :=
  if s.isSummary pkt = false then s else s.receive p.val pkt ptColl fun t q => t.keepSummary q
def execFaultSummary (p : PortNo) (pkt : Packet) (s : State) := run (faultSummaryEffect p pkt) s

/-- The 4,096-byte map of a list of bits. -/
def mapBytes (l : List Nat) : List Byte :=
  leBytes 4096 (listMask l.eraseDups)

/-- The OR of two maps. -/
def orMaps (a b : List Byte) : List Byte := List.zipWith (· ||| ·) a b

/-- The latest period whose sending time has come. -/
def Dev.sumDue (s : Dev) : Option Nat :=
  let w := s.cfg (fltPg 0 + 0x1040) 23 0
  let n := (s.beat.toNat - w) / 2 ^ s.sumPower
  if s.cfg (fltPg 0 + 0x1040) 63 63 = 0 ∨ n = 0 then none
  else match s.summary.last with
    | some b => if b < n * 2 ^ s.sumPower then some (n - 1) else none
    | none => some (n - 1)

/-- A period has ended and WAIT has passed: OR and send. -/
def summarySendEffect (s : Dev) : Dev :=
  match s.sumDue with
  | none => s
  | some k =>
    let g := s.cfg (fltPg 0 + 0x1040) 47 24
    let e := GEntry.read s.active g
    let chunk := BitVec.ofNat 32 k
    let kids := if e.childValid then s.childNodes (portSet s.active e.childSet) else []
    let came := s.summary.kids.filter fun x => x.1 == chunk && kids.contains x.2.1
    let missing := kids.filter fun n => !came.any fun x => x.2.1 == n
    let own := (s.summary.own.filter fun x => x.1 / 2 ^ s.sumPower == k).map (·.2)
    let map := (came.map (·.2.2)).foldl orMaps (mapBytes own)
    let s := s.addLv (fltPg 0 + 0x140) 63 0 missing.length
    let s : Dev := { s with summary := { own := s.summary.own.filter fun x => decide (k < x.1 / 2 ^ s.sumPower),
                                         kids := s.summary.kids.filter fun x => decide ((x.1 - (chunk + 1)).toNat < 2 ^ 31),
                                         last := some ((k + 1) * 2 ^ s.sumPower) } }
    if s.fatal ∨ groupValid s.active (BitVec.ofNat 24 g) = false then s
    else if e.root then
      let s := s.sendMgmt 0 (s.faultMgmt 0 ([2] ++ List.replicate 7 0 ++ leBytes 8 (k * 2 ^ s.sumPower) ++ map))
      s.setLv (fltPg 0 + 0x218) 4 4 1
    else
      let key : CtxKey := ⟨BitVec.ofNat 24 g, 0, chunk⟩
      let par := { Params.none with func := 4, fmt := 0xF }
      (s.form 0 (collPkt s.own key par e.part 7 ckPartial.toNat 7 0 0 0 0 map []) (.parents (ecmpPorts s.active e.parentSet))).1
def execSummarySend (s : State) := run summarySendEffect s

/-! ### Checks and unfencing (R713, R714, R717) -/

/-- The collector notes that a unit's check is under way. -/
def Dev.markCheck (s : Dev) (u : BitVec 32) (auto : Bool) : Dev :=
  let d := collectorOf (unitDie u)
  let s := s.stopCheck u
  let s := s.setCollector d { s.collector d with trials := (s.collector d).trials ++ [(u, s.ticks)] }
  match s.entryAt d u with
  | some _ => s.updEntry u fun (e : FEntry) => { e with checking := some auto, quietFrom := none }
  | none => s.setCollector d { s.collector d with bare := (s.collector d).bare ++ [u] }

/-- The beats in which a unit's check must pass; none is given for HBM (R714). -/
def Dev.checkLimit (s : Dev) (u : BitVec 32) : Option Nat :=
  let train := fun (g : Nat) => some (max 1 (s.cfg (lnkPg g + 0x1050) 31 0))
  match unitClass u with
  | 0x01 => train (unitDie u * 16 + unitInst u / 8)
  | 0x02 => match s.unitPlace (unitInst u) with | some p => train (p / 8) | none => none
  | 0x03 => train (unitDie u * 16 + unitInst u)
  | 0x04 | 0x05 | 0x06 | 0x09 => some 65536
  | _ => none

/-- The check of a unit has run longer than it may: what then ends it is a failure (R714; DEDUCED, log 141). -/
def Dev.checkLate (s : Dev) (u : BitVec 32) : Bool :=
  match s.checkLimit u, (s.collector (collectorOf (unitDie u))).trials.find? (·.1 == u) with
  | some n, some x => decide (x.2 + n < s.ticks)
  | _, _ => false

/-- A unit's check starts. The check of a link is one training, which tests it for both of its IDs (R53, R714). DESIGN CHOICE
(log 117). -/
def Dev.startCheck (s : Dev) (u : BitVec 32) (auto : Bool) : Dev :=
  let s := s.markCheck u auto
  match unitClass u with
  | 0x01 | 0x02 | 0x03 =>
    let t := (s.unitPorts u).foldl (fun t p => (if t.portState p = 5 ∨ t.portState p = 6 then t.portDown p else t).bringUp p) s
    t.touch (unitDie u) 0
  | 0x09 => s.setLinkBoth (unitDie u) (unitInst u) 1
  | _ => s

/-- A port that came up only for a check goes back to FENCED. -/
def Dev.backDown (s : Dev) (p : Nat) : Dev :=
  if s.heldDown p ∧ s.onTrial p = false ∧ s.portState p ≠ 7 then ((s.resetLink p).setPortState p 7).useLanes p [] else s

/-- A port returns to service: REJOINING, with its deficits 0 and its shapers full (R286, R308). -/
def Dev.rejoin (s : Dev) (p : Nat) : Dev :=
  let s := (s.fillShapers p).touch (p / 128) 0
  if s.heldDown p ∨ s.portMode p = 0 then s
  else
    let s := s.setFwdState (s.logNum p) 3
    if s.portState p = 7 then s.bringUp p else s

/-- A port takes up the lane that has returned (R191). -/
def Dev.rewiden (s : Dev) (p : Nat) : Dev :=
  let l := s.cleanLanes p 8 fun _ => true
  if s.portState p = 5 ∧ isPorone (s.portMode p) ∧ s.portCfg p 16 16 = 1 ∧ s.portWidth p < l.length then s.changeWidth p l else s

/-- A cluster's region starts again whole and free (R373, R378). -/
def Dev.wholeRegion (s : Dev) (k : Nat) : Dev :=
  let d := k / 8
  let r := 1 + k % 8
  let mine := fun (key : Nat) => key / 2 ^ 20 == d && key / 2 ^ 17 % 8 == 1 && key % 2 ^ 17 / 8192 == k % 8
  let s : Dev := { s with allocs := s.allocs.filter fun a => !(a.die == d && a.region == r), lost := Map.erase s.lost (d * 9 + r),
                          uncharged := s.uncharged.filter fun x => !mine x.1 }
  s.easeLevel d r

/-- Groups of a stack that return: those with no fenced pseudo-channel are cleared first (R670). -/
def Dev.clearGroups (s : Dev) (st : Nat) (gs : List Nat) : Dev :=
  gs.foldl (fun t g =>
    if t.fencedUnit (stackUnit st) || (List.range 4).any fun j => t.fencedUnit (pcUnit st (4 * g + j)) then t
    else t.setGroupState st g 2) s

/-- A unit returns to service under its block's rule (R717). -/
def Dev.returnUnit (s : Dev) (u : BitVec 32) : Dev :=
  let d := unitDie u
  let i := unitInst u
  let s := s.unmark u
  match unitClass u with
  | 0x01 =>
    let g := d * 16 + i / 8
    match s.logLane g (i % 8) with
    | none => s
    | some l => ((s.setLv (lnkPg g + 0x108) (8 + l) (8 + l) 0).backDown (s.portOfLane g l)).rewiden (s.portOfLane g l)
  | 0x02 => (s.unitPlaces u).foldl Dev.rejoin s
  | 0x03 =>
    -- ports that only the group's fence took down return with it
    let own := fun (t : Dev) (p : Nat) =>
      let v := portUnit d (t.logNum p)
      match t.entryAt d v with | some e => e.state == esFenced || e.state == esHeld | none => false
    (s.unitPlaces u).foldl (fun t p =>
      if own t p then t.backDown p else (t.unmark (portUnit d (t.logNum p))).rejoin p) s
  | 0x06 => s.wholeRegion (d * 8 + i)
  | 0x07 =>
    let st := d * 4 + i / 32
    let s : Dev := { s with memSt := { s.memSt with pcErr := Map.erase s.memSt.pcErr (st * 32 + i % 32) } }
    (s.setLv (hbmPg st + 0x100) (32 + i % 32) (32 + i % 32) 0).clearGroups st [i % 32 / 4]
  | 0x08 =>
    let st := d * 4 + i
    let s := s.setStackState st 3
    let s : Dev := { s with memSt := { s.memSt with ready := Map.insert s.memSt.ready st s.ticks,
                                                    pcErr := s.memSt.pcErr.filter fun x => x.1 / 32 != st } }
    s.clearGroups st (List.range 8)
  | 0x09 =>
    let s := (s.bothEnds u Dev.unmark).setLinkBoth d i 2
    if i < 4 then s else s.setVias
  | _ => s

/-- The region whose owners a unit's return makes active (R345). -/
def unitRegion (u : BitVec 32) : Option Nat :=
  match unitClass u with
  | 0x01 | 0x02 | 0x03 => some 0
  | 0x05 => some (1 + unitInst u / 8)
  | 0x06 => some (1 + unitInst u)
  | _ => none

/-- A unit returns to service, and with it the minima of its region's owners (R348, R717). -/
def Dev.unfence (s : Dev) (u : BitVec 32) : Dev :=
  match unitRegion u with
  | some r => (s.returnUnit u).touch (unitDie u) r
  | none => s.returnUnit u

/-- An entry becomes HELD. -/
def Dev.holdEntry (s : Dev) (d : Nat) (u : BitVec 32) : Dev :=
  (s.updEntry u fun (e : FEntry) => { e with state := esHeld, quietFrom := none }).setLv (fltPg d + 0x218) 2 2 1

/-- A unit's quiet end. -/
def quietEndEffect (d : DieNo) (unit : BitVec 32) (s : Dev) : Dev :=
  match s.entryAt d.val unit with
  | none => s
  | some e =>
    match e.quietFrom with
    | none => s
    | some t =>
      if s.fatal ∨ e.checking.isSome ∨ s.ticks < t + max 1 (s.cfg (fltPg d.val + 0x1000) 31 0) then s
      else if e.state = esActive then s.clearEntry unit false
      else if e.state = esFenced then
        if s.autoExit d.val unit e.recov then
          (s.updEntry unit fun (x : FEntry) => { x with recov := x.recov + 1 }).startCheck unit true
        else s.holdEntry d.val unit
      else s
def execQuietEnd (d : DieNo) (unit : BitVec 32) (s : State) := run (quietEndEffect d unit) s

/-- The unit of a die's FLT page, as the reporter of FLT_CLEAR (R701). -/
def fltUnit (d : Nat) : BitVec 32 := blockUnit d 0x0C 0

/-- The report that a failed check makes for a unit: of the same bit, or of the FLT unit where the first named none (R714). -/
def Dev.reportAgain (s : Dev) (u : BitVec 32) : Dev :=
  let d := collectorOf (unitDie u)
  match s.entryAt d u, s.unitPage u with
  | some e, some (pd, blk, inst) =>
    if e.firstBit = 0xFF then s.reportAt d u (fltUnit d) 0xFF 2 false else s.raiseOwn pd blk inst e.firstBit u
  | _, _ => s

/-- A check has failed: the unit is as before it, and is reported anew (R714), a link to the collectors of both its dies (R47). -/
def Dev.checkFailed (s : Dev) (u : BitVec 32) : Dev :=
  let s := s.bothEnds u Dev.stopCheck
  let s := match unitClass u with
    | 0x01 | 0x02 | 0x03 => (s.unitPorts u).foldl Dev.backDown s
    | 0x09 => s.setLinkBoth (unitDie u) (unitInst u) 3
    | _ => s
  s.bothEnds u Dev.reportAgain

/-- A check has passed: the unit is unfenced and its entry CLEAR, an automatic exit counted (R714). -/
def Dev.checkPassed (s : Dev) (u : BitVec 32) : Dev :=
  let d := collectorOf (unitDie u)
  let auto := match s.entryAt d u with | some e => e.checking == some true | none => false
  let s := (s.bothEnds u Dev.stopCheck).unfence u
  let s := s.bothEnds u fun t v => t.clearEntry v false
  if auto then s.count (fltPg d + 0x138) else s

/-- A check ends. A port's check passes only with its ports ACTIVE, and a check of limited time only within that time. -/
def unitCheckDoneEffect (d : DieNo) (unit : BitVec 32) (ok : Bool) (s : Dev) : Dev :=
  let up := (s.unitPorts unit).all (fun p => s.portState p == 5) && !((unitClass unit == 1 || unitClass unit == 2) && (s.unitPorts unit).isEmpty)
  if s.fatal ∨ collectorOf (unitDie unit) ≠ d.val ∨ s.checking unit = false ∨ (ok = true ∧ up = false ∧ s.checkLate unit = false) then s
  else if ok && !s.checkLate unit then s.checkPassed unit
  else s.checkFailed unit
def execUnitCheckDone (d : DieNo) (unit : BitVec 32) (ok : Bool) (s : State) := run (unitCheckDoneEffect d unit ok) s

/-- A link of die `d` has trained (R49, R53). The training of a fenced link is its check, which so passes (R714). -/
def d2dLinkUpEffect (d : DieNo) (peer : AnyDie) (s : Dev) : Dev :=
  let d := d.val; let k := peer.val
  if s.linkState d k ≠ 1 ∨ s.pwr.porLow then s
  else if s.linkOut d k then
    let u := d2dUnit d k
    match (u :: (peerUnit u).toList).find? s.checking with
    | some v => if s.fatal then s else if s.checkLate v then s.checkFailed v else s.checkPassed v
    | none => s
  else s.setLinkBoth d k 2
def execD2dLinkUp (d : DieNo) (peer : AnyDie) (s : State) := run (d2dLinkUpEffect d peer) s

/-- FLT_DECAY × 2^20 beats have passed without a report (R715). -/
def recoveryDecayEffect (d : DieNo) (unit : BitVec 32) (s : Dev) : Dev :=
  match s.entryAt d.val unit with
  | none => s
  | some e =>
    let n := s.cfg (fltPg d.val + 0x1010) 31 0
    if n = 0 ∨ e.state = esHeld ∨ e.state = esFatal ∨ s.ticks < e.decayFrom + n * 2 ^ 20 then s
    else s.updEntry unit fun (x : FEntry) => { x with recov := x.recov - 1, decayFrom := x.decayFrom + n * 2 ^ 20 }
def execRecoveryDecay (d : DieNo) (unit : BitVec 32) (s : State) := run (recoveryDecayEffect d unit) s

/-! ### FLT_CLEAR (R716) -/

/-- FLT_CLEAR_RESULT. -/
def Dev.clearResult (s : Dev) (d n : Nat) : Dev := s.setLv (fltPg d + 0x210) 2 0 n

/-- The command of a known CMD: refused while FATAL or for another die's unit, else what `act` does. -/
def Dev.fltCommand (s : Dev) (d : Nat) (u : BitVec 32) (act : Dev → Dev) : Dev :=
  if s.fatal then s.clearResult d 4 else if collectorOf (unitDie u) ≠ d then s.clearResult d 5 else act s

/-- A fenced unit without an entry gets one for its check, when a slot is left (R716, R718). -/
def Dev.openHeld (s : Dev) (d : Nat) (u : BitVec 32) : Dev :=
  let c := s.collector d
  match c.newSlot with
  | none => s
  | some k =>
    let e : FEntry := { unit := u, reporter := fltUnit d, first := s.beat, last := s.beat, count := 0, state := esHeld, cls := 2,
                        injected := false, recov := 0, firstBit := 0xFF, lastTick := s.ticks, slotTick := s.ticks, quietFrom := none, checking := none,
                        decayFrom := s.ticks, window := none }
    (s.setCollector d { c with entries := Map.insert c.entries k e }).setLv (fltPg d + 0x218) 2 2 1

def Dev.fltClear (s : Dev) (d : Nat) (u : BitVec 32) : Dev :=
  let s := s.clearResult d 1
  match s.entryAt d u with
  | none => if s.fencedUnit u then (s.openHeld d u).startCheck u false else s
  | some e =>
    if e.state = esActive then s.clearEntry u false
    else if e.state = esFenced ∨ e.state = esHeld then
      (s.updEntry u fun (x : FEntry) => { x with recov := 0 }).startCheck u false
    else s

def fltClearClearEffect (d : DieNo) (unit : BitVec 32) (s : Dev) : Dev := s.fltCommand d.val unit fun t => t.fltClear d.val unit
def execFltClearClear (d : DieNo) (unit : BitVec 32) (s : State) := run (fltClearClearEffect d unit) s

/-- A FENCED report of the FLT unit that names no bit, and the entry is HELD (R716). -/
def Dev.fenceReport (s : Dev) (u : BitVec 32) : Dev :=
  let d := collectorOf (unitDie u)
  let s := (s.stopCheck u).reportAt d u (fltUnit d) 0xFF 2 false
  match s.entryAt d u with
  | some e => if e.state = esHeld then s else s.holdEntry d u
  | none => s

/-- SWC bit 4 of both dies that a link joins, for the fence that left a pair without a path (R42). -/
def Dev.raiseCut (s : Dev) (u : BitVec 32) : Dev := s.raiseOwn (unitDie u) 0x04 0 4 u

/-- Fence a unit by software (R716); a link for the collectors of both its dies (R47). It sets no PG_FAULT bit, but that R42 has the
fence that isolates a pair reported as bit 4 on both dies. -/
def Dev.fltFence (s : Dev) (d : Nat) (u : BitVec 32) : Dev :=
  if s.fenceable u = false then s.clearResult d 3
  else
    let running := s.checking u
    let t := s.bothEnds u Dev.fenceReport
    let t := if running then (t.unitPorts u).foldl Dev.backDown t else t
    let t := t.fenceUnit u
    let t := if s.cutPairs.length < t.cutPairs.length then t.bothEnds u Dev.raiseCut else t
    t.clearResult d 1

def fltClearFenceEffect (d : DieNo) (unit : BitVec 32) (s : Dev) : Dev := s.fltCommand d.val unit fun t => t.fltFence d.val unit
def execFltClearFence (d : DieNo) (unit : BitVec 32) (s : State) := run (fltClearFenceEffect d unit) s

def Dev.fltForget (s : Dev) (d : Nat) (u : BitVec 32) : Dev :=
  let c := s.collector d
  match c.slotOf u, s.entryAt d u with
  | some k, some e =>
    if e.state = esClear then (s.setCollector d { c with entries := Map.erase c.entries k }).clearResult d 1 else s.clearResult d 2
  | _, _ => s.clearResult d 2

def fltClearForgetEffect (d : DieNo) (unit : BitVec 32) (s : Dev) : Dev := s.fltCommand d.val unit fun t => t.fltForget d.val unit
def execFltClearForget (d : DieNo) (unit : BitVec 32) (s : State) := run (fltClearForgetEffect d unit) s

/-- CMD 4 to 255; CMD 0 to 3 are not reserved, and 0 does nothing at all. -/
def fltClearReservedEffect (d : DieNo) (cmd : Byte) (_unit : BitVec 32) (s : Dev) : Dev :=
  if cmd.toNat < 4 then s else s.clearResult d.val 6
def execFltClearReserved (d : DieNo) (cmd : Byte) (unit : BitVec 32) (s : State) := run (fltClearReservedEffect d cmd unit) s

/-- A write of FLT_CLEAR (R725). -/
def Dev.fltClearWrite (s : Dev) (d : Nat) (v : Word) : Dev :=
  let u : BitVec 32 := BitVec.ofNat 32 v.toNat
  let die : DieNo := Fin.ofNat 4 d
  match fld v 39 32 with
  | 0 => s
  | 1 => fltClearClearEffect die u s
  | 2 => fltClearFenceEffect die u s
  | 3 => fltClearForgetEffect die u s
  | n => fltClearReservedEffect die (BitVec.ofNat 8 n) u s

/-! ### Injection (R722, R723) -/

/-- A write of FLT_INJ_CTRL in factory test mode: DATA and BIT are stored, and ARM = 1 arms. -/
def Dev.injectWrite (s : Dev) (d : Nat) (v : Nat) : Dev :=
  if s.factoryTest = false then s
  else
    let a := injPg d + 0x110
    let s := (s.setLv a 7 7 (bits v 7 7)).setLv a 5 0 (bits v 5 0)
    if bit v 8 = false then s
    else
      let u : BitVec 32 := BitVec.ofNat 32 (s.lv (injPg d + 0x100) 31 0)
      let atBeat := s.lv (injPg d + 0x108) 63 0
      let c := s.collector d
      let real := match s.unitPage u with
        | some (_, blk, _) => (faultClass blk (bits v 5 0)).isSome
        | none => false
      if real = false ∨ atBeat < s.beat.toNat + 32 then
        ((s.setCollector d { c with inj := none }).setLv a 11 10 2).setLv a 9 9 0
      else
        ((s.setCollector d { c with inj := some (u, BitVec.ofNat 64 atBeat, bits v 5 0, bit v 7) }).setLv a 11 10 0).setLv a 9 9 1

def injectArmEffect (d : DieNo) (v : BitVec 32) (s : Dev) : Dev := s.injectWrite d.val v.toNat
def execInjectArm (d : DieNo) (v : BitVec 32) (s : State) := run (injectArmEffect d v) s

/-- The next protected word or flit that the unit handles is corrupt (R723). -/
def Dev.hurtNext (s : Dev) (u : BitVec 32) : Dev :=
  let k := collectorOf (unitDie u)
  s.setCollector k { s.collector k with hurt := (s.collector k).hurt ++ [u] }

/-- FLT_INJ_AT: the unit raises the bit as its own report and the device takes the action of that bit; which packet, entry or word
the action meets is free (DESIGN CHOICE, log 81). With DATA the next protected word or flit that the unit handles is corrupt. -/
def injectFireEffect (d : DieNo) (s : Dev) : Dev :=
  let d := d.val
  let c := s.collector d
  match c.inj with
  | none => s
  | some (u, atBeat, b, data) =>
    if s.factoryTest = false ∨ s.beat < atBeat then s
    else
      let a := injPg d + 0x110
      let s := s.setCollector d { c with inj := none }
      let s := ((if data then s.hurtNext u else s).setLv a 11 10 1).setLv a 9 9 0
      match s.unitPage u with
      | some (pd, blk, inst) =>
        let k := s.draw
        k.2.unitFault pd blk inst b u u true k.1.toNat
      | none => s
def execInjectFire (d : DieNo) (s : State) := run (injectFireEffect d) s

end Sys2Proof.Machine
end

