-- ==== Sys2Proof/Machine/Molt.lean ====
section
/-! DEFINITION. The molt beat and what follows it: taking the new instar (R85, R86, R99, R101, R104, R105), leaving HOLD
(R100, R102, R192, R248, R286), releasing the retiring instar (R103) and expiring early tags (R108). -/

namespace Sys2Proof.Machine

/-! ### Packets held in the device -/

/-- Serve a held packet addressed to this device. Its cells return unless what takes it keeps them. -/
def Dev.serveHeld (s : Dev) (h : HeldPkt) (pkt : Packet) (f : RegFile) : Dev :=
  let p := h.port
  let done := fun (t : Dev) => t.release h.alloc
  if pkt.ptype = ptMemReadReq then done (s.serveRead p pkt .clean)
  else if pkt.ptype = ptMemReadResp then done (s.serveResp pkt)
  else if pkt.ptype = ptMemWrite then done (s.serveWrite p pkt)
  else if pkt.ptype = ptMemWriteAcked then done (s.serveAcked p pkt)
  else if pkt.ptype = ptMemStatus then done (s.serveStatus pkt)
  else if pkt.ptype = ptDoorbell then done (s.serveDoorbell p pkt)
  else if pkt.ptype = ptCompletion then done (s.serveCompletion pkt)
  else if pkt.ptype = ptMgmt then done (s.mgmtIn pkt (s.logNum p))
  else if pkt.ptype = ptTableReq then done (s.serveTableReq p pkt .clean)
  else if pkt.ptype = ptTableResp then done (s.serveTableResp p pkt)
  else if pkt.ptype = ptDispatchRows ∨ pkt.ptype = ptCombineRows then s.serveRoute p pkt h.alloc h.load
  else if pkt.ptype = ptEthFrame then s.toEth p pkt h.load
  else if pkt.ptype = ptColl then
    if s.isSummary pkt then done (s.keepSummary pkt)
    else
      match pkt.ext with
      | none => done s
      | some x =>
        if x.ckind = ckContribution ∨ x.ckind = ckPartial then s.takeColl p pkt h.alloc
        else if x.ckind = ckResult then done (s.serveResult p pkt f)
        else if x.ckind = ckAck then done (s.serveAck p pkt f)
        else done s
  else done s

/-- A held packet goes on under an instar: to this device, or by the forwarding tables (R100, R107). -/
def Dev.deliver (s : Dev) (h : HeldPkt) (pkt : Packet) (f : RegFile) : Dev :=
  if pkt.node = fld (RegFile.get f (insPg + 0x1000)) 19 0 then s.serveHeld h pkt f
  else s.route h.port pkt f h.load

/-- Discard a packet with INSTAR_RETIRED, counted (R104, R105, R107, R108). -/
def Dev.retireHeld (s : Dev) (h : HeldPkt) : Dev := (s.release h.alloc).count (insPg + 0x130)

/-- Discard every packet in the device that carries a tag; the copies of one packet count once (R104, R105). A copy
so discarded is a copy that is dropped: its child counts as undelivered, and SWC_MCAST_FENCED_CNT counts it (DESIGN CHOICE, log
116). -/
def Dev.retireTag (s : Dev) (tag : BitVec 2) : Dev :=
  let hit := fun (x : Nat × Port) => (x.2.queue.filter fun q => q.pkt.itag == tag).map fun q => (x.1, q)
  let gone := s.ports.flatMap hit
  let waits := s.ports.flatMap fun x => x.2.flushHeld.filter fun h => h.pkt.itag == tag
  let keep := fun (x : Nat × Port) =>
    (x.1, { x.2 with queue := x.2.queue.filter fun q => q.pkt.itag != tag,
                     flushHeld := x.2.flushHeld.filter fun h => h.pkt.itag != tag })
  let s := { s with ports := s.ports.map keep }
  let n := (gone.map fun y => y.2.alloc).eraseDups.length
  let s := gone.foldl (fun t y => t.dropQueued y.1 y.2) s
  let s := (List.range n).foldl (fun t _ => t.count (insPg + 0x130)) s
  waits.foldl Dev.retireHeld s

/-- Release the retiring instar: its remaining traffic is discarded (R103, R105). -/
def Dev.endRetiring (s : Dev) : Dev :=
  match s.retiring with
  | none => s
  | some (i, _) => { s.retireTag (BitVec.ofNat 2 i.number.toNat) with retiring := none }

/-! ### What a change of instar does at the molt beat -/

/-- The fields whose change restarts the links of a group: SPLIT, BASE_PORT and the lane map (R192). -/
def groupShape (f : RegFile) (g : Nat) : Nat × Nat × Word :=
  let w := RegFile.get f (lnkPg g + 0x1000)
  (fld w 3 0, fld w 31 24, RegFile.get f (lnkPg g + 0x1008))

/-- MODE and CHANNEL of a port. -/
def portShape (f : RegFile) (p : Nat) : Nat := fld (RegFile.get f (lnkPg (p / 8) + 0x1010 + 8 * (p % 8))) 7 0

/-- Ports that are to restart when STATE leaves HOLD (R192). -/
def restartPorts (old new : RegFile) : List Nat :=
  setOf 512 fun p => groupShape old (p / 8) != groupShape new (p / 8) || portShape old p != portShape new p

/-- The new word of a bucket limits it, and a rate that was 0 fills it (R307). -/
def bucketAt (old new : Word) (x : Int) : Int :=
  if fld old 23 0 = 0 ∧ fld new 23 0 ≠ 0 then burstOf new else min x (burstOf new)

/-- The quantum of a child of a level of a port, the levels numbered as in `pickPacket` and the steps below it (R296). -/
def Dev.quantum (s : Dev) (p key child : Nat) : Nat :=
  64 * (if key = 0 then s.vcWeight p child
    else if key < 16 then s.schWeight p (Dev.classOff p child)
    else if key < 1024 then s.tenantWeight p ((key - 16) / 8) child
    else if child = 65536 then 16
    else (GEntry.read s.active child).weight)

/-- The deficits and buckets of a port under the new weights, shapers and policers (R307). `old` holds the former words. -/
def Dev.moltSched (s : Dev) (old : Dev) (p : Nat) : Dev :=
  let x := s.port p
  let cut := fun (e : Nat × Drr) =>
    (e.1, { e.2 with deficits := e.2.deficits.map fun y => (y.1, min y.2 (s.quantum p e.1 y.1)) })
  let shapers := (List.range 25).foldl (fun (m : Map Int) j =>
    Map.put m j (bucketAt (old.shaperCfg p j) (s.shaperCfg p j) (Map.get m j 0)) 0) x.shapers
  let policers := (List.range 16).foldl (fun (m : Map Int) t =>
    Map.put m t (bucketAt (old.policerCfg p t) (s.policerCfg p t) (Map.get m t 0)) 0) x.policers
  s.setPort p { x with sched := x.sched.map cut, shapers := shapers, policers := policers }

/-- Cores that change their partition: their threads fault, and they leave the open epochs together (R32, R34, R604). -/
def Dev.moltCores (s : Dev) (old : RegFile) : Dev :=
  let cs := (List.range 256).filter fun c => fld (RegFile.get old (corePg c + 0x1000)) 3 0 != s.corePart c
  let ts := cs.flatMap fun c => (List.range 16).map (c * 16 + ·)
  ((ts.filter fun t => (s.thread t).state != tsIdle).foldl (fun u t => u.faultThread t 5) s).loseCores cs

/-- The ports that the new instar may give other weights, shapers or policers: every port that holds something, and every port of a
group whose SCH page changes (R307). -/
def Dev.schedPorts (s : Dev) (old : RegFile) : List Nat :=
  let changed := (List.range 64).filter fun g => pageDiffers old s.active (schPg g)
  let held := s.ports.map (·.1)
  (held ++ changed.flatMap fun g => (List.range 8).map (g * 8 + ·)).eraseDups

/-- Groups whose entry becomes valid or names another group hold no current epoch (R402). -/
def moltGroups (old new : RegFile) (l : Map GroupSt) : Map GroupSt :=
  l.map fun x =>
    let a := GEntry.read old x.1
    let b := GEntry.read new x.1
    if (b.valid && !a.valid) || a.groupId != b.groupId then
      (x.1, { x.2 with number := none, current := none, next := none, relHeld := false, past := x.2.current.toList ++ x.2.next.toList ++ x.2.past })
    else x

/-- Objects whose entry changes: VALUE and GEN return to 0 and every wait on them ends with TIMEOUT (R596). -/
def Dev.moltObjs (s : Dev) (old : RegFile) : Dev :=
  let waited := (s.threads.filterMap fun p =>
    match p.2.wait with
    | some w => (match w.on with | .obj o _ _ _ => some o | _ => none)
    | none => none)
  let held := s.cores.flatMap fun c => c.2.objs.map fun o => c.1 * 256 + o.1
  let word := fun (f : RegFile) (o : Nat) => RegFile.get f (corePg (objCore o) + 0xC000 + 8 * (o % 256))
  ((waited ++ held).eraseDups.filter fun o => word old o != word s.active o).foldl (fun t o =>
    (t.waitersOf o).foldl (fun u th => u.timeoutWait th false) (t.setObj o (0, 0))) s

/-- Every region is judged in the beat of a molt, under its new minima and thresholds (R348, R349, R375). -/
def Dev.moltPools (s : Dev) : Dev := { s with touched := List.range 36 }

/-! ### Leaving HOLD -/

/-- A logical number that no configured port has any more reads NONE (R290). -/
def Dev.clearFwd (s : Dev) : Dev :=
  ((List.range 256).filter fun lp => s.fwdState lp != 0 && (s.placeOf lp).isNone).foldl (fun t lp => t.setFwdState lp 0) s

/-- Restart the ports whose shape has changed, with those of every group that enters or leaves CFG_ERR by it (R182, R192). -/
def Dev.restartChanged (s : Dev) : Dev :=
  let flagged := (s.ports.filter fun x => x.2.restart).map (·.1)
  if flagged.isEmpty then s
  else
    let errs := fun (t : Dev) => (List.range 64).filter t.groupCfgErr
    let before := errs s
    let s := flagged.foldl (fun t p =>
      let t := (t.dropQueue p).portDown p
      if t.portExists p then t.setFwdState (t.logNum p) 0 else t) s
    let s := flagged.foldl (fun t p => t.updPort p fun x => { x with restart := false }) s
    let after := errs s
    let groups := (List.range 64).filter fun g => before.contains g != after.contains g
    let more := (groups.flatMap fun g => (List.range 8).map (g * 8 + ·)).filter fun p => !flagged.contains p
    let s := more.foldl (fun t p => (t.dropQueue p).portDown p) s
    let s := s.clearFwd
    (flagged ++ more).foldl (fun t p =>
      (if t.groupPresent (p / 8) ∧ t.lv (lnkPg (p / 8) + 0x110) 0 0 = 0 then t.bringUp p else t).touch (p / 128) 0) s

/-- A changed FLT_QUIET_BEATS counts the quiet ends of its die's entries from LAST_BEAT anew (R713). -/
def Dev.moltQuiet (s : Dev) (old : RegFile) : Dev :=
  ((List.range 4).filter fun d => bits (RegFile.get old (fltPg d + 0x1000)).toNat 31 0 != s.cfg (fltPg d + 0x1000) 31 0).foldl (fun t d =>
    let c := t.collector d
    t.setCollector d { c with entries := c.entries.map fun x => (x.1, { x.2 with quietFrom := x.2.quietFrom.map fun _ => x.2.lastTick }) }) s

/-- Adapter queues whose entry has changed: what is outstanding ends with QUOTA and the indices restart (R248, R506). -/
def Dev.moltQueues (s : Dev) (old : RegFile) : Dev :=
  let word := fun (f : RegFile) (k : Nat) => RegFile.bytes f (lnkPg (k / 256) + 0xD000 + 32 * (k % 256)) 32
  ((s.adapters.map (·.1)).filter fun k => word old k != word s.active k).foldl (fun t k =>
    (t.adpFinish k 0x0A).updAdp k fun a => { a with sqHead := 0, sqTail := 0, cqHead := 0, cqTail := 0, wr := [], txs := [], eyespot := [] }) s

/-- Tag and route the packets that a port held, in their order of arrival (R100). -/
def Dev.releaseIngress (s : Dev) (p : Nat) : Dev :=
  let l := (s.port p).held
  (l.foldl (fun t h => t.deliver h { h.pkt with itag := t.tagNow } t.active) (s.updPort p fun x => { x with held := [] }))

/-- What comes about at the beat at which STATE leaves HOLD (R100, R192, R248, R286). -/
def Dev.leaveHold (s : Dev) (st : Nat) : Dev :=
  let s := s.setInsState st
  let s := s.restartChanged
  let s := match s.previous with | some i => (s.moltQueues i.content).tryAcks | none => s
  let s := (List.range 256).foldl (fun t lp => if t.fwdState lp = 3 then t.setFwdState lp 1 else t) s
  ((s.ports.filter fun x => !x.2.held.isEmpty).map (·.1)).foldl Dev.releaseIngress s

/-! ### The commands -/

/-- Packets with an early tag that the new instar makes current are routed by it (R107). -/
def Dev.releaseEarly (s : Dev) : Dev :=
  let ready := fun (h : HeldPkt) => h.pkt.itag == s.tagNow
  let keep := fun (x : Nat × Port) => (x.1, { x.2 with early := x.2.early.filter fun h => !ready h })
  let l := s.ports.flatMap fun x => x.2.early.filter ready
  l.foldl (fun t h => t.deliver h h.pkt t.active) { s with ports := s.ports.map keep }

/-- The device switches to new content (R85, R86, R90, R113): the instars, the audit record and everything that acts at the
molt beat. -/
def Dev.takeInstar (s : Dev) (content : RegFile) (kind : Fin 4) (source : BitVec 32) : Dev :=
  let old := s.active
  let before := s
  let s := { s with previous := some { number := s.number, content := s.active }, number := s.number + 1, active := content,
                    staged := content, damaged := [], molt := none }
  let s := s.auditAppend kind source
  let s := (restartPorts old content).foldl (fun t p => t.updPort p fun x => { x with restart := true }) s
  let s := (s.schedPorts old).foldl (fun t p => t.moltSched before p) s
  let s := s.moltCores old
  let s : Dev := { s with groups := moltGroups old content s.groups }
  ((s.moltObjs old).moltQuiet old).moltPools

/-- The molt beat. -/
def moltEffect (s : Dev) : Dev :=
  match s.molt with
  | none => s
  | some m =>
    if s.beat < m.beat then s
    else
      let s := s.endRetiring
      let old := s.active
      let oldTag := s.tagNow
      let (content, source) : RegFile × BitVec 32 :=
        match (if m.rollback then s.previous else none) with
        | some i => (i.content, i.number)
        | none => (s.staged, s.number + 1)
      let dirty := routingPages.any (pageDiffers old content)
      let drained := m.drained || dirty
      let limit := s.lv (insPg + 0x120) 31 0
      let former : Instar := { number := s.number, content := old }
      let s := (s.takeInstar content (if m.rollback then 2 else 1) source).setMoltResult
        (if m.drained then 2 else if dirty then 3 else 1)
      if drained = false then (s.setInsState 0).releaseEarly
      else if limit = 0 then ((s.retireTag oldTag).leaveHold 0).releaseEarly
      else (({ s with retiring := some (former, s.ticks + limit) } : Dev).setInsState 2).releaseEarly
def execMolt (s : State) := run moltEffect s

/-- STATE leaves HOLD: nothing old-tagged is left, or the drain limit has passed. -/
def holdEndEffect (s : Dev) : Dev :=
  match s.retiring with
  | none => s
  | some (_, t) => if s.insState = 2 ∧ s.fatal = false ∧ (s.inflightOld = 0 ∨ t ≤ s.ticks) then s.leaveHold 3 else s
def execHoldEnd (s : State) := run holdEndEffect s

/-- The retiring instar is released. -/
def retireReleaseEffect (s : Dev) : Dev :=
  match s.retiring with
  | none => s
  | some (_, t) =>
    if s.insState = 2 ∨ s.ticks < t then s
    else
      let s := s.endRetiring
      if s.insState = 3 then s.setInsState 0 else s
def execRetireRelease (s : State) := run retireReleaseEffect s

/-- Early-tagged packets of a port that have been held too long are discarded. -/
def earlyTagExpireEffect (p : PortNo) (s : Dev) : Dev :=
  let limit := s.lv (insPg + 0x120) 31 0
  let late := fun (h : HeldPkt) => decide (h.tick + limit ≤ s.ticks)
  let gone := (s.port p.val).early.filter late
  gone.foldl Dev.retireHeld (s.updPort p.val fun x => { x with early := x.early.filter fun h => !late h })
def execEarlyTagExpire (p : PortNo) (s : State) := run (earlyTagExpireEffect p) s

end Sys2Proof.Machine
end

