-- ==== Sys2Proof/Machine/Sec.lean ====
section
/-! DEFINITION. The security block (chapter 15): boot images (R755, R756), measurements (R758), the SEC commands (R760 to
R764), quotes (R765, R766) and debug tokens (R767 to R770). -/

namespace Sys2Proof.Machine

/-! ### Registers of the SEC page -/

def secMeasBoot : Nat := secPg + 0x200
def secMeasRun : Nat := secPg + 0x240

/-- BOOT_DONE, and the debug level (R775). -/
def Dev.bootIsDone (s : Dev) : Bool := s.lv (secPg + 0x118) 4 4 == 1
def Dev.debugLevel (s : Dev) : Nat := s.lv (secPg + 0x118) 10 8

/-- Bytes of a SEC register. -/
def Dev.secBytes (s : Dev) (a n : Nat) : List Byte := RegFile.bytes s.live a n
def Dev.putSec (s : Dev) (a : Nat) (l : List Byte) : Dev := { s with live := RegFile.putBytes s.live a l }

/-- Extend a measurement register by a digest (R758). -/
def Dev.extendMeas (s : Dev) (a : Nat) (x : List Byte) : Dev := s.putSec a (shake256 (s.secBytes a 64 ++ x) 64)

/-! ### Boot images (R755, R756) -/

def allZero (l : List Byte) : Bool := l.all (· == 0)

/-- Fields of an image header. -/
def imgSlot (h : List Byte) : Nat := leAt h 6 1
def imgLoad (h : List Byte) : Nat := leAt h 16 8
def imgEntry (h : List Byte) : Nat := leAt h 24 8
def imgLength (h : List Byte) : Nat := leAt h 32 4

/-- The checks of R756, in order, up to BAD_KEY and ROLLBACK: 0 when none fails. `place` is the range check on LENGTH and on
where the payload lies. -/
def imgHeader (f : Fuses) (h : List Byte) (stageOk place : Bool) : Nat :=
  let entryOk := decide (imgLoad h ≤ imgEntry h) && decide (imgEntry h < imgLoad h + imgLength h)
  let format := leAt h 0 4 == 0x49425159 && leAt h 4 2 == 1 && decide (imgSlot h ≤ 3) && stageOk
    && allZero (slice h 12 4) && allZero (slice h 36 28) && allZero (slice h 121 7) && allZero (slice h 242 14)
  if !format then 0x01
  else if !place || !entryOk then 0x05
  else if shake256 (slice h 64 57) 64 != f.keyHash.getD (imgSlot h) [] || bit f.keyRevoke.toNat (imgSlot h) then 0x02
  else if leAt h 8 4 < f.svn then 0x04
  else 0

/-- The image digest D. -/
def imgDigest (h payload : List Byte) : List Byte := shake256 (h.take 128 ++ payload) 64

/-- All checks of R756 on a header and the payload behind it. -/
def imgCheck (f : Fuses) (h payload : List Byte) (stageOk place : Bool) : Nat :=
  match imgHeader f h stageOk place with
  | 0 => if edVerify (slice h 64 57) (imgDigest h payload) (slice h 128 114) then 0 else 0x03
  | r => r

/-! ### Commands (R760 to R764) -/

def Dev.secState (s : Dev) : Nat := s.lv (secPg + 0x110) 1 0
def Dev.secArg (s : Dev) : Nat := s.lv (secPg + 0x108) 63 0

/-- Begin a command: it runs until SEC_CMD_DONE, which reports `res` and takes the effect on `data` when that is OK. One written
while BUSY is ignored; while FATAL all but QUOTE end LOCKED. `body` gives the input read, the outcome and the data. -/
def Dev.secStart (s : Dev) (op : Nat) (body : Dev → Dev × Nat × List Byte) : Dev :=
  if s.secState = 1 then s
  else
    let r := if s.fatal && op != 3 then (s, 0x06, []) else body s
    let run : SecRun := { op := op, arg := BitVec.ofNat 64 s.secArg, res := r.2.1, data := r.2.2 }
    (({ r.1 with sec := { r.1.sec with run := some run } } : Dev).addJob .command).setLv (secPg + 0x110) 1 0 1

/-- Read `n` bytes of input at a local address: an uncorrectable error ends the command with ECC (R763). Lines that the LLC
serves alone make no HBM access (R735). -/
def Dev.secInput (s : Dev) (a n : Nat) (ecc : Ecc) : Dev × Option (List Byte) :=
  if s.carOn && decide (a < llcBytes) then (s, some (s.cpBytes a n))
  else
    let m := s.meetEcc a ecc
    (m.1, if m.2 then none else some (m.1.cpBytes a n))

/-- An image in place at ARG (R756, R759). -/
def Dev.verifyRun (s : Dev) (ecc : Ecc) : Dev × Nat × List Byte :=
  let a := s.secArg
  match s.secInput a 256 ecc with
  | (t, none) => (t, 0x08, [])
  | (t, some h) =>
    let n := imgLength h
    let place := decide (1 ≤ n) && decide (n ≤ 2 ^ 28) && decide (a + 256 + n ≤ 2 ^ 36)
    let stageOk := decide (2 ≤ leAt h 7 1)
    match imgHeader t.sec.fuses h stageOk place with
    | 0 =>
      let payload := t.cpBytes (a + 256) n
      (t, imgCheck t.sec.fuses h payload stageOk place, imgDigest h payload)
    | r => (t, r, [])

def verifyEffect (ecc : Ecc) (s : Dev) : Dev := s.secStart 0x01 fun t => t.verifyRun ecc
def execVerify (ecc : Ecc) (s : State) := run (verifyEffect ecc) s

/-- 64 bytes at ARG, in the control partition. -/
def Dev.extendRun (s : Dev) (ecc : Ecc) : Dev × Nat × List Byte :=
  if s.secArg + 64 > 2 ^ 36 then (s, 0x05, [])
  else match s.secInput s.secArg 64 ecc with
    | (t, none) => (t, 0x08, [])
    | (t, some l) => (t, 0, l)

def extendEffect (ecc : Ecc) (s : Dev) : Dev := s.secStart 0x02 fun t => t.extendRun ecc
def execExtend (ecc : Ecc) (s : State) := run (extendEffect ecc) s

/-- The quote message (R765), of the beat the command is written in (R766). -/
def Dev.quoteMessage (s : Dev) : List Byte :=
  leBytes 4 0x54515159 ++ leBytes 2 1 ++ leBytes 1 s.sec.latched ++ leBytes 1 s.debugLevel ++ leBytes 2 s.grade
    ++ leBytes 1 (b2n s.bootIsDone + 2 * b2n s.aligned + 4 * b2n s.fatal + 8 * s.cfg (topPg + 0x1080) 0 0) ++ leBytes 1 0
    ++ leBytes 4 (s.headerWord 4 0 0 4) ++ leBytes 8 (s.topLive 0x180 0) ++ leBytes 8 s.beat.toNat ++ leBytes 4 s.own
    ++ leBytes 4 s.number.toNat ++ leBytes 8 s.auditSeq ++ leBytes 4 (s.lv (secPg + 0x120) 31 0) ++ leBytes 4 s.sec.fuses.svn
    ++ leBytes 8 s.sec.fuses.serial.toNat ++ s.secBytes (secPg + 0x300) 32 ++ s.secBytes secMeasBoot 64
    ++ s.secBytes secMeasRun 64 ++ fit s.auditHead 64

def quoteEffect (s : Dev) : Dev := s.secStart 0x03 fun t => (t, 0, t.quoteMessage)
def execQuote (s : State) := run quoteEffect s

/-- A command allowed while BOOT_DONE is 0. -/
def Dev.beforeBootDone (s : Dev) (r : Nat) : Dev × Nat × List Byte := (s, if s.bootIsDone then 0x06 else r, [])

def bootDoneEffect (s : Dev) : Dev := s.secStart 0x04 fun t => t.beforeBootDone 0
def execBootDone (s : State) := run bootDoneEffect s

def advanceSvnEffect (s : Dev) : Dev :=
  s.secStart 0x05 fun t => t.beforeBootDone (if t.secArg ≤ t.sec.fuses.svn ∨ 64 < t.secArg then 0x07 else 0)
def execAdvanceSvn (s : State) := run advanceSvnEffect s

/-- Revoking a slot would revoke the last boot slot or the one that booted; a slot number above 5 names none. -/
def Dev.revokeResult (s : Dev) : Nat :=
  let a := s.secArg
  let m := s.sec.fuses.keyRevoke.toNat
  let rest := (List.range 4).filter fun i => !bit m i
  if 5 < a then 0x07
  else if a < 4 ∧ (rest = [a] ∨ s.sec.bootSlot = some a) then 0x06
  else 0

def revokeKeyEffect (s : Dev) : Dev := s.secStart 0x06 fun t => t.beforeBootDone t.revokeResult
def execRevokeKey (s : State) := run revokeKeyEffect s

/-- ARG 1 from FACTORY, 2 from PRODUCTION, 3 from any state. -/
def Dev.lifecycleResult (s : Dev) : Nat :=
  let now := lifecycleCode s.sec.fuses.lifecycle
  if (s.secArg = 1 ∧ now = 0) ∨ (s.secArg = 2 ∧ now = 1) ∨ s.secArg = 3 then 0 else 0x07

def advanceLifecycleEffect (s : Dev) : Dev :=
  s.secStart 0x07 fun t => (t, if t.bootIsDone && t.debugLevel == 0 then 0x06 else t.lifecycleResult, [])
def execAdvanceLifecycle (s : State) := run advanceLifecycleEffect s

/-- The 512-byte image at ARG, in the control partition. A blank UDS needs the random source, whose health is free (R763). -/
def Dev.fuseRun (s : Dev) (ecc : Ecc) : Dev × Nat × List Byte :=
  if s.sec.latched ≠ 0 ∨ s.debugLevel ≠ 2 then (s, 0x06, [])
  else if s.secArg + 512 > 2 ^ 36 then (s, 0x05, [])
  else if s.sec.fuses.uds.isNone && !Config.entropyOk s.fresh then (s, 0x09, [])
  else match s.secInput s.secArg 512 ecc with
    | (t, none) => (t, 0x08, [])
    | (t, some l) => (t, 0, l)

def fuseProgramEffect (ecc : Ecc) (s : Dev) : Dev := s.secStart 0x08 fun t => t.fuseRun ecc
def execFuseProgram (ecc : Ecc) (s : State) := run (fuseProgramEffect ecc) s

/-- OP 0x00 and 0x09 to 0xFF. -/
def secCmdReservedEffect (op : Byte) (s : Dev) : Dev :=
  if 1 ≤ op.toNat ∧ op.toNat ≤ 8 then s else s.secStart op.toNat fun t => (t, 0x07, [])
def execSecCmdReserved (op : Byte) (s : State) := run (secCmdReservedEffect op) s

/-- A write of SEC_CMD (R760); its inputs read without error. -/
def Dev.secCmdWrite (s : Dev) (op : Nat) : Dev :=
  match op with
  | 1 => verifyEffect .clean s
  | 2 => extendEffect .clean s
  | 3 => quoteEffect s
  | 4 => bootDoneEffect s
  | 5 => advanceSvnEffect s
  | 6 => revokeKeyEffect s
  | 7 => advanceLifecycleEffect s
  | 8 => fuseProgramEffect .clean s
  | n => secCmdReservedEffect (BitVec.ofNat 8 n) s

/-! ### Effects of commands -/

/-- Blow further bits of fuses: set bits stay (R760). -/
def orBytes (a b : List Byte) : List Byte := List.zipWith (· ||| ·) a b

/-- Fuses after the image of FUSE_PROGRAM, laid out as SEC_FUSE bytes 0x4000 to 0x41FF. -/
def Fuses.blow (f : Fuses) (l : List Byte) : Fuses :=
  let life : BitVec 3 := match leAt l 0 1 with | 0 => 0 | 1 => 1 | 2 => 3 | _ => 7
  { f with
    lifecycle := f.lifecycle ||| life
    debugDisable := f.debugDisable || leAt l 1 1 % 2 == 1
    grade := f.grade ||| BitVec.ofNat 16 (leAt l 2 2)
    svn := max f.svn (min 64 (leAt l 4 1))
    keyRevoke := f.keyRevoke ||| BitVec.ofNat 4 (leAt l 5 1)
    dbgRevoke := f.dbgRevoke ||| BitVec.ofNat 2 (leAt l 6 1)
    serial := f.serial ||| BitVec.ofNat 64 (leAt l 8 8)
    macBase := f.macBase ||| BitVec.ofNat 48 (leAt l 0x10 6)
    keyHash := f.keyHash.zipIdx.map fun x => orBytes x.1 (slice l (0x40 + 64 * x.2) 64)
    dbgHash := f.dbgHash.zipIdx.map fun x => orBytes x.1 (slice l (0x140 + 64 * x.2) 64) }

def Dev.setFuses (s : Dev) (f : Fuses) : Dev := { s with sec := { s.sec with fuses := f } }

/-- Generate and blow UDS when it is blank: 64 free bytes. -/
def Dev.makeUds (s : Dev) : Dev :=
  match s.sec.fuses.uds with
  | some _ => s
  | none => let r := drawBytes 64 s; r.2.setFuses { r.2.sec.fuses with uds := some r.1 }

/-- What a command that ends OK does. -/
def Dev.secApply (s : Dev) (r : SecRun) : Dev :=
  let f := s.sec.fuses
  let a := r.arg.toNat
  match r.op with
  | 1 => s.extendMeas (if s.bootIsDone then secMeasRun else secMeasBoot) r.data
  | 2 => s.extendMeas secMeasRun r.data
  | 3 => s.putSec (secPg + 0x400) (fit (r.data ++ edSign s.sec.secret r.data) 512)
  | 4 => s.setLv (secPg + 0x118) 4 4 1
  | 5 => s.setFuses { f with svn := a }
  | 6 =>
    if a < 4 then s.setFuses { f with keyRevoke := f.keyRevoke ||| BitVec.ofNat 4 (2 ^ a) }
    else s.setFuses { f with dbgRevoke := f.dbgRevoke ||| BitVec.ofNat 2 (2 ^ (a - 4)) }
  | 7 => s.setFuses { f with lifecycle := f.lifecycle ||| (if a = 1 then 1 else if a = 2 then 3 else 7) }
  | 8 => (s.setFuses (f.blow r.data)).makeUds
  | _ => s

/-- The command finishes; it waits for the requests before it (R761). -/
def secCmdDoneEffect (s : Dev) : Dev :=
  match (if s.jobNow = some .command then s.sec.run else none) with
  | none => s
  | some r =>
    let s : Dev := ({ s with sec := { s.sec with run := none } } : Dev).jobEnds
    let s := if r.res = 0 then s.secApply r else s
    (s.setLv (secPg + 0x110) 15 8 r.res).setLv (secPg + 0x110) 1 0 (if r.res = 0 then 2 else 3)
def execSecCmdDone (s : State) := run secCmdDoneEffect s

/-! ### Debug unlock (R767 to R770) -/

/-- 32 fresh random bytes: free values. -/
def newChallengeEffect (s : Dev) : Dev :=
  let r := drawBytes 32 s
  let t := r.2.putSec (secPg + 0x600) r.1
  { t with sec := { t.sec with challenge := true } }
def execNewChallenge (s : State) := run newChallengeEffect s

/-- The challenge that a SUBMIT would consume. -/
def Dev.challengeNow (s : Dev) : Option (List Byte) := if s.sec.challenge then some (s.secBytes (secPg + 0x600) 32) else none

/-- The first failing check of a token against the challenge of its SUBMIT (R769); 1 when it passes. -/
def Dev.tokenResult (s : Dev) (t : List Byte) (challenge : Option (List Byte)) : Nat :=
  let f := s.sec.fuses
  let level := leAt t 4 1
  let slot := leAt t 5 1
  let form := leAt t 0 4 == 0x54445159 && (level == 1 || level == 2) && decide (slot ≤ 1) && allZero (slice t 6 2)
    && allZero (slice t 161 7) && allZero (slice t 282 6)
  let idPub := fit (edPublic s.sec.secret) 64
  if f.debugDisable then 2
  else if challenge.isNone then 3
  else if !form then 4
  else if slice t 8 64 ≠ shake256 idPub 64 then 5
  else if some (slice t 72 32) ≠ challenge then 6
  else if shake256 (slice t 104 57) 64 ≠ f.dbgHash.getD slot [] ∨ bit f.dbgRevoke.toNat slot then 7
  else if !edVerify (slice t 104 57) (t.take 168) (slice t 168 114) then 8
  else if level = 2 ∧ s.sec.latched ≠ 0 ∧ s.sec.latched ≠ 2 then 9
  else 1

/-- Set the debug level; leaving factory test mode disarms any injection (R728). -/
def Dev.setDebug (s : Dev) (level : Nat) : Dev :=
  let s := s.setLv (secPg + 0x118) 10 8 level
  if level = 2 then s
  else (List.range 4).foldl (fun t d =>
    if (t.collector d).inj.isSome then (t.setCollector d { t.collector d with inj := none }).setLv (injPg d + 0x110) 9 9 0 else t) s

/-- The engine checks a token: RESULT, and what a token that passes does (R769, R770). -/
def Dev.checkToken (s : Dev) (t : List Byte) (challenge : Option (List Byte)) : Dev :=
  let r := s.tokenResult t challenge
  let s := s.setLv (secPg + 0x780) 15 8 r
  if r = 1 then (s.setDebug (leAt t 4 1)).extendMeas secMeasRun (shake256 t 64) else s

/-- Tokens that have come to the front of the engine's requests are checked (R761). -/
def Dev.checkTokens : Nat → Dev → Dev
  | 0, s => s
  | n + 1, s =>
    match s.jobNow with
    | some (.token t c) => Dev.checkTokens n (s.jobEnds.checkToken t c)
    | _ => s

/-- A SUBMIT consumes the challenge, and the token is checked once the engine is free (R761, R768). -/
def submitEffect (s : Dev) : Dev :=
  let t := s.secBytes (secPg + 0x640) 288
  let c := s.challengeNow
  let s := s.putSec (secPg + 0x600) (List.replicate 32 0)
  let s : Dev := { s with sec := { s.sec with challenge := false } }
  if s.sec.jobs.isEmpty then s.checkToken t c else s.addJob (.token t c)
def execSubmit (s : State) := run submitEffect s

def relockEffect (s : Dev) : Dev := s.setDebug 0
def execRelock (s : State) := run relockEffect s

/-- A write of SEC_DBG_CTRL (R775). -/
def Dev.dbgCtrlWrite (s : Dev) (cmd : Nat) : Dev :=
  match cmd % 4 with
  | 1 => newChallengeEffect s
  | 2 => submitEffect s
  | 3 => relockEffect s
  | _ => s

end Sys2Proof.Machine
end

