-- ==== Sys2Proof/Machine/Reset.lean ====
section
/-! DEFINITION. Power-on reset, warm reset and the boot ROM (chapters 15 and 16): R112, R130, R131, R753, R754, R757, R721,
R796 to R799. -/

namespace Sys2Proof.Machine

/-! ### What a hart may reach (R730, R731, R733) -/

/-- The parts of a hart's physical address space (R730). -/
inductive HartPlace where
  | map | rom | flash | nowhere
  deriving DecidableEq, Repr

/-- First address of the boot ROM. -/
def romBase : Nat := 0x100000000000

/-- The part of R730's table that holds a physical address. -/
def hartPlace (a : Nat) : HartPlace :=
  if a < romBase then .map
  else if a < 0x100000040000 then .rom
  else if 0x100010000000 ≤ a ∧ a < 0x100020000000 then .flash
  else .nowhere

/-- A hart's access in a mode raises no access fault: the boot ROM is read in M-mode only, while ROM_LOCK is 0 (R733), and nothing
lies outside R730's table. A store into the flash read window does nothing (DESIGN CHOICE, log 128). -/
def Dev.hartMay (s : Dev) (mode : HartMode) (write : Bool) (a : Nat) : Bool :=
  match hartPlace a with
  | .map | .flash => true
  | .rom => !write && mode == .m && s.lv (ctlPg + 0x100) 8 8 == 0
  | .nowhere => false

/-- A hart takes an access fault. -/
def Dev.hartFault (s : Dev) (n : Nat) : Dev :=
  { s with ctl := { s.ctl with harts := s.ctl.harts.modify n fun h => { h with fault := true } } }

/-- A hart starts in M-mode at an address: its first fetch is a read there (R731, R733). -/
def Dev.startHart (s : Dev) (n a : Nat) : Dev :=
  { s with ctl := { s.ctl with
      harts := s.ctl.harts.set n { run := true, start := BitVec.ofNat 64 a, fault := !s.hartMay .m false a } } }

/-! ### The boot ROM (R754, R757) -/

/-- Bytes of the boot flash (R744). -/
def Dev.flashBytes (s : Dev) (a n : Nat) : List Byte := Memory.readBytes s.ctl.flash a n

/-- The ROM's checks on the stage-1 image at a flash offset; 0 when it passes. -/
def Dev.romCheck (s : Dev) (off : Nat) : Nat :=
  let h := s.flashBytes off 256
  let n := imgLength h
  let place := decide (1 ≤ n) && decide (n ≤ 0x800000) && decide (imgLoad h + n ≤ llcBytes)
  match imgHeader s.sec.fuses h (leAt h 7 1 == 1) place with
  | 0 => imgCheck s.sec.fuses h (s.flashBytes (off + 256) n) (leAt h 7 1 == 1) place
  | r => r

def Dev.bootCode (s : Dev) (code : Nat) : Dev := s.setLv (ctlPg + 0x100) 7 0 code

/-- ASCII hexadecimal digits of a code; their case is free. -/
def hexText (upper : Bool) (n : Nat) : List Byte :=
  [n / 16 % 16, n % 16].map fun d => BitVec.ofNat 8 (if d < 10 then 0x30 + d else (if upper then 0x37 else 0x57) + d)

/-- The line of text that the ROM writes to the UART (R745): what stands before and after the code is free. -/
def Dev.bootLine (s : Dev) (code : Nat) : Dev :=
  let k := s.draw
  let pre := drawBytes (k.1.toNat / 2 % 24) k.2
  let post := drawBytes (k.1.toNat / 64 % 24) pre.2
  { post.2 with ctl := { post.2.ctl with txFifo := (post.2.ctl.txFifo ++ pre.1 ++ hexText (bit k.1.toNat 0) code ++ post.1).take 64 } }

def Dev.haltHart0 (s : Dev) : Dev :=
  { s with ctl := { s.ctl with harts := s.ctl.harts.set 0 { run := false, start := 0x100000000000, fault := false } } }

/-- Start the image at a flash offset: copied, measured and entered. -/
def Dev.bootImage (s : Dev) (off code : Nat) : Dev :=
  let h := s.flashBytes off 256
  let payload := s.flashBytes (off + 256) (imgLength h)
  let s := s.extendMeas secMeasBoot (imgDigest h payload)
  let s := s.setLv (ctlPg + 0x100) 63 32 off
  let s := (s.setLv (ctlPg + 0x100) 8 8 1).bootCode code
  ({ s with ctl := { s.ctl with llc := Memory.writeBytes s.ctl.llc (imgLoad h) payload },
            sec := { s.sec with bootSlot := some (imgSlot h) } } : Dev).startHart 0 (imgEntry h)

/-- The boot ROM runs on hart 0. -/
def Dev.bootRom (s : Dev) : Dev :=
  if s.sec.latched = 3 then ((s.bootCode 0x81).haltHart0).bootLine 0x81
  else if s.romCheck 0 = 0 then (s.bootImage 0 0x01).bootLine 0x01
  else if s.romCheck 0x1000000 = 0 then (s.bootImage 0x1000000 0x02).bootLine 0x02
  else ((s.bootCode 0x80).haltHart0).bootLine 0x80

/-! ### Power-on reset (R130, R753, R797) -/

/-- PWR_ON_RESET_N goes low: everything but the fuses returns to reset. The board's flash, the rails and the trace of the model
stand outside the reset. -/
def powerOnResetEffect (s : Dev) : Dev :=
  let t := Dev.powerOn s.sec.fuses s.ctl.flash
  { t with nextId := s.nextId, fresh := s.fresh, sent := s.sent, sig := s.sig, time := { t.time with refLost := s.time.refLost },
           pwr := { t.pwr with railStep := s.pwr.railStep } }
def execPowerOnReset (s : State) := run powerOnResetEffect s

/-- Every stack that is not fenced begins to train. -/
def Dev.trainStacks (s : Dev) : Dev :=
  (List.range 16).foldl (fun t st => if t.fencedUnit (stackUnit st) then t else t.setStackState st 1) s

/-- Latch the lifecycle and the grade, and derive the identity key; none is derived for a scrapped part (R753, R754). -/
def Dev.senseFuses (s : Dev) : Dev :=
  let f := s.sec.fuses
  let code := lifecycleCode f.lifecycle
  let uds := f.uds.getD (List.replicate 64 0)
  let secret := if code = 3 then [] else (shake256 (uds ++ [BitVec.ofNat 8 code]) 57)
  { s with sec := { s.sec with latched := code, grade := f.grade, secret := secret } }

/-- Hart 0 starts in M-mode at the ROM; the others are held (R731). -/
def Dev.startHart0 (s : Dev) : Dev := s.startHart 0 romBase

/-- PWR_ON_RESET_N rises, with every rail up (R788, R797). -/
def powerOnResetReleaseEffect (straps : BitVec 3) (s : Dev) : Dev :=
  if s.pwr.porLow = false ∨ s.pwr.railStep ≠ 4 then s
  else
    let s : Dev := { s with pwr := { s.pwr with porLow := false, straps := straps, resetAt := s.ticks, winAt := s.ticks } }
    let s := (s.senseFuses).setLv (pwrPg + 0x188) 4 0 1
    let s := (s.trainStacks).auditAppend 0 s.number
    (s.startHart0).bootRom
def execPowerOnResetRelease (straps : BitVec 3) (s : State) := run (powerOnResetReleaseEffect straps) s

/-! ### Warm reset (R88, R131, R672, R721, R796 to R798) -/

/-- A warm reset is running: a stack has not yet come to read READY, nor is fenced. -/
def Dev.warmRunning (s : Dev) : Bool :=
  s.pwr.warmAt.isSome && (List.range 16).any fun st => decide (s.stackState st < 3)

/-- Units of HBM that are fenced on a die. -/
def Dev.hbmFences (s : Dev) (d : Nat) : List (BitVec 32) :=
  (s.collector d).fenced.filter fun u => unitClass u == 7 || unitClass u == 8

/-- The entry that a fenced HBM unit keeps: HELD. -/
def heldAfter (s : Dev) (u : BitVec 32) : FEntry :=
  match s.entryAt (unitDie u) u with
  | some e => { e with state := esHeld, quietFrom := none, checking := none, window := none }
  | none =>
    { unit := u, reporter := fltUnit (unitDie u), first := s.beat, last := s.beat, count := 0, state := esHeld, cls := 2,
      injected := false, recov := 0, firstBit := 0xFF, lastTick := s.ticks, slotTick := s.ticks, quietFrom := none, checking := none,
      decayFrom := s.ticks, window := none }

/-- The collector of a die after warm reset. -/
def Dev.warmCollector (s : Dev) (d : Nat) : Collector :=
  let us := s.hbmFences d
  { Collector.reset with fenced := us, entries := us.zipIdx.map fun x => (x.2, heldAfter s x.1) }

/-- Restore the registers that show a fenced HBM unit. -/
def Dev.showFence (s : Dev) (u : BitVec 32) : Dev :=
  let st := unitDie u * 4 + (if unitClass u = 7 then unitInst u / 32 else unitInst u)
  if unitClass u = 7 then
    (s.setLv (hbmPg st + 0x100) (32 + unitInst u % 32) (32 + unitInst u % 32) 1).setGroupState st (unitInst u % 32 / 4) 1
  else (List.range 8).foldl (fun t g => t.setGroupState st g 1) (s.setStackState st 4)

/-- Fuses as an abandoned command leaves them: those of its bits that were blown in time stay so, and which they are is free (R762; log 4). -/
def Dev.abandonFuses (s : Dev) : Dev :=
  let f := s.sec.fuses
  match s.sec.run with
  | none => s
  | some r =>
    if r.res ≠ 0 then s
    else
      let k := s.draw
      let a := r.arg.toNat
      match r.op with
      | 5 => k.2.setFuses { f with svn := f.svn + k.1.toNat % (a - f.svn + 1) }
      | 6 =>
        if bit k.1.toNat 0 = false then k.2
        else if a < 4 then k.2.setFuses { f with keyRevoke := f.keyRevoke ||| BitVec.ofNat 4 (2 ^ a) }
        else k.2.setFuses { f with dbgRevoke := f.dbgRevoke ||| BitVec.ofNat 2 (2 ^ (a - 4)) }
      | 7 => k.2.setFuses { f with lifecycle := f.lifecycle ||| ((if a = 1 then 1 else if a = 2 then 3 else 7) &&& BitVec.ofNat 3 k.1.toNat) }
      | 8 =>
        let m := drawBytes 512 k.2
        let t := m.2.setFuses (f.blow (List.zipWith (· &&& ·) r.data m.1))
        if bit k.1.toNat 0 then t.makeUds else t
      | _ => s

/-- The molt of this very beat is discarded by a warm reset that begins in it, and its record with it (R798). -/
def Dev.dropMolt (s : Dev) : Dev :=
  match s.audit.getLast?, s.previous with
  | some r, some i =>
    if (r.kind = 1 ∨ r.kind = 2) ∧ r.beat = s.beat ∧ r.instar = s.number then { s with audit := s.audit.dropLast, number := i.number } else s
  | _, _ => s

/-- What a warm reset leaves before the boot ROM runs. -/
def Dev.afterWarm (s : Dev) (cause : Nat) : Dev :=
  let s := s.abandonFuses.dropMolt
  let t := Dev.powerOn s.sec.fuses s.ctl.flash
  let t : Dev :=
    { t with beat := s.beat, ticks := s.ticks, audit := s.audit, number := if s.number = 0xFFFFFFFF then 1 else s.number + 1,
             mem := s.mem.filter fun c => decide (c.1 < 2 ^ 41), memSt := { t.memSt with bad := s.memSt.bad }, collectors := (List.range 4).map s.warmCollector,
             nextId := s.nextId, fresh := s.fresh, sent := s.sent, sig := s.sig,
             time := { t.time with refLost := s.time.refLost },
             sec := { t.sec with latched := s.sec.latched, grade := s.sec.grade, secret := s.sec.secret },
             pwr := { t.pwr with porLow := false, tripLow := s.pwr.tripLow, straps := s.pwr.straps, railStep := s.pwr.railStep,
                                 resetAt := s.ticks, warmAt := some s.ticks, winAt := s.ticks } }
  let t := (List.range 4).foldl (fun u d =>
    let u := (u.putLv (fltPg d + 0x228) (s.lv (fltPg d + 0x228) 63 0)).putLv (fltPg d + 0x230) (s.lv (fltPg d + 0x230) 63 0)
    (s.hbmFences d).foldl Dev.showFence u) t
  let t := t.putLv (secPg + 0x120) (satAdd 32 (s.lv (secPg + 0x120) 31 0) 1)
  let t := (t.setLv (pwrPg + 0x188) 4 0 cause).trainStacks
  t.auditAppend 3 t.number

/-- A warm trigger: it has no effect with PWR_ON_RESET_N low or while a warm reset runs, but that triggers of one beat are all
recorded. `cause` is its bit of PWR_RESET_CAUSE. -/
def Dev.warmReset (s : Dev) (cause : Nat) : Dev :=
  if s.pwr.porLow then s
  else if s.warmRunning then
    if s.pwr.warmAt = some s.ticks then s.setLv (pwrPg + 0x188) 4 0 (s.lv (pwrPg + 0x188) 4 0 ||| cause) else s
  else ((s.afterWarm cause).startHart0).bootRom

def warmResetNEffect (s : Dev) : Dev := s.warmReset 0x02
def execWarmResetN (s : State) := run warmResetNEffect s

/-- A write of PWR_RESET_CTRL (R803). -/
def pwrResetCtrlWriteEffect (v : BitVec 32) (s : Dev) : Dev :=
  if bits v.toNat 15 8 = 0x5A ∧ bit v.toNat 0 then s.warmReset 0x10 else s
def execPwrResetCtrlWrite (v : BitVec 32) (s : State) := run (pwrResetCtrlWriteEffect v) s

end Sys2Proof.Machine
end

