-- ==== Sys2Proof/Machine/Ctl.lean ====
section
/-! DEFINITION. The control complex (chapter 15): harts (R731, R734), the last-level cache (R735), SPI (R744), UART (R745), I3C
(R746 to R748), JTAG (R749) but for REG_ACCESS, and the watchdogs (R751). -/

namespace Sys2Proof.Machine

def Dev.updCtl (s : Dev) (f : CtlSt → CtlSt) : Dev := { s with ctl := f s.ctl }

/-! ### Harts -/

/-- RUN of one hart is written: a bit that becomes 1 starts the hart at CTL_HART_ENTRY, a 0 resets it and holds it. -/
def Dev.runHart (s : Dev) (was : Nat) (v : Nat) (n : Nat) : Dev :=
  if bit v n then if bit was n then s else s.startHart n (RegFile.get s.live (ctlPg + 0x110)).toNat
  else s.updCtl fun c => { c with harts := c.harts.set n { run := false, start := 0, fault := false } }

def hartRunEffect (v : BitVec 16) (s : Dev) : Dev :=
  let was := s.lv (ctlPg + 0x108) 15 0
  (List.range 16).foldl (fun t n => t.runHart was v.toNat n) (s.setLv (ctlPg + 0x108) 15 0 v.toNat)
def execHartRun (v : BitVec 16) (s : State) := run (hartRunEffect v) s

/-- A running hart's access meets an uncorrectable error in the control partition: it takes an access fault. -/
def hartCpEccErrorEffect (h : Fin 16) (addr : BitVec 44) (s : Dev) : Dev :=
  let a := addr.toNat
  let hart := s.ctl.harts.getD h.val { run := false, start := 0, fault := false }
  if hart.run = false ∨ 2 ^ 36 ≤ a ∨ (s.carOn ∧ a < llcBytes) then s
  else
    let s := s.hartFault h.val
    let s := s.count (ctlPg + 0x288)
    let s := if s.lv (ctlPg + 0x280) 63 63 = 1 then s else s.putLv (ctlPg + 0x280) (2 ^ 63 + (a - a % 64))
    s.hbmUncorr a
def execHartCpEccError (h : Fin 16) (addr : BitVec 44) (s : State) := run (hartCpEccErrorEffect h addr) s

/-- A write of CAR = 0: once stack 0 of die 0 reads READY, every line goes back to HBM and the LLC works as a cache. -/
def llcCarWriteEffect (s : Dev) : Dev :=
  if s.carOn = false ∨ s.stackState 0 ≠ 3 then s
  else
    let s : Dev := { s with mem := s.ctl.llc ++ s.mem.filter fun c => decide (llcBytes ≤ c.1),
                            memSt := { s.memSt with bad := s.memSt.bad.filter fun b => decide (llcBytes ≤ b) } }
    let s := s.addLv (hbmPg 0 + 0x138) 63 0 llcBytes
    (s.updCtl fun c => { c with llc := [] }).setLv (ctlPg + 0x118) 0 0 0
def execLlcCarWrite (s : State) := run llcCarWriteEffect s

/-! ### SPI -/

/-- Data bytes of a command: LEN, at most 256. -/
def spiLen (v : Word) : Nat := min 256 (fld v 19 8)

/-- CTL_SPI_CMD is written; GO starts the command unless one runs. -/
def spiCmdEffect (v : Word) (s : Dev) : Dev :=
  if s.ctl.spi.isSome then s
  else
    let s := s.putLv (ctlPg + 0x600) (v.toNat &&& 0xFFFFFFFFFFFFFF06)
    if flag v 0 then
      let data := if flag v 2 then RegFile.bytes s.live (ctlPg + 0x700) (spiLen v) else []
      (s.updCtl fun c => { c with spi := some v }).emit (.spi v data)
    else s
def execSpiCmd (v : Word) (s : State) := run (spiCmdEffect v) s

/-- The command finishes; a reading one has placed the bytes the flash returned. -/
def spiCmdDoneEffect (data : List Byte) (s : Dev) : Dev :=
  match s.ctl.spi with
  | none => s
  | some v =>
    let s := s.updCtl fun c => { c with spi := none }
    if flag v 2 then s else { s with live := RegFile.putBytes s.live (ctlPg + 0x700) (fit data (spiLen v)) }
def execSpiCmdDone (data : List Byte) (s : State) := run (spiCmdDoneEffect data) s

/-! ### UART -/

def uartTxWriteEffect (b : Byte) (s : Dev) : Dev :=
  if s.ctl.txFifo.length ≥ 64 then s else s.updCtl fun c => { c with txFifo := c.txFifo ++ [b] }
def execUartTxWrite (b : Byte) (s : State) := run (uartTxWriteEffect b) s

def uartRxByteEffect (b : Byte) (s : Dev) : Dev :=
  if s.ctl.rxFifo.length ≥ 64 then s else s.updCtl fun c => { c with rxFifo := c.rxFifo ++ [b] }
def execUartRxByte (b : Byte) (s : State) := run (uartRxByteEffect b) s

/-- A read of CTL_UART_DATA by a privileged initiator takes the byte it returns. -/
def uartDataReadEffect (s : Dev) : Dev := s.updCtl fun c => { c with rxFifo := c.rxFifo.drop 1 }
def execUartDataRead (s : State) := run uartDataReadEffect s

/-- One byte has been sent. -/
def uartTxByteEffect (s : Dev) : Dev :=
  match s.ctl.txFifo with
  | [] => s
  | b :: t => (s.updCtl fun c => { c with txFifo := t }).emit (.uart b)
def execUartTxByte (s : State) := run uartTxByteEffect s

/-! ### I3C -/

def i3cIndexWriteEffect (i : Byte) (s : Dev) : Dev := s.updCtl fun c => { c with i3cIdx := i, i3cArm := false }
def execI3cIndexWrite (i : Byte) (s : State) := run (i3cIndexWriteEffect i) s

/-- The byte at an index (R746). -/
def Dev.i3cByte (s : Dev) (i : Nat) : Byte :=
  if i = 0 then 0x59
  else if i = 1 then 0xA0
  else if i = 2 then BitVec.ofNat 8 (s.lv (ctlPg + 0x100) 7 0)
  else if i = 3 then s.healthNow
  else if 4 ≤ i ∧ i < 8 then BitVec.ofNat 8 (s.lv (ctlPg + 0x120) 31 0 / 2 ^ (8 * (i - 4)))
  else if i = 8 then BitVec.ofNat 8 (listMask (setOf 4 fun w => s.lv (ctlPg + 0x200 + 8 * w) 4 4 == 1))
  else if 0x20 ≤ i ∧ i < 0x40 then
    let v := s.lv (fltPg ((i - 0x20) / 8) + 0x228) 63 0
    if bit v 63 then BitVec.ofNat 8 (v / 2 ^ (8 * ((i - 0x20) % 8))) else 0
  else 0

/-- A read of `n` bytes from the index on. -/
def i3cReadEffect (n : Fin 256) (s : Dev) : Dev :=
  s.emit (.i3c ((List.range n.val).map fun k => s.i3cByte (s.ctl.i3cIdx.toNat + k)))
def execI3cRead (n : Fin 256) (s : State) := run (i3cReadEffect n) s

/-- A write of RESET_REQ (R748). -/
def resetReqEffect (b : Byte) (s : Dev) : Dev :=
  let go := s.ctl.i3cArm && b == 0x5A
  let s := s.updCtl fun c => { c with i3cIdx := 0x10, i3cArm := b == 0xA5 }
  if go then s.warmReset 0x04 else s
def execResetReq (b : Byte) (s : State) := run (resetReqEffect b) s

def i3cDynAddrEffect (a : BitVec 7) (s : Dev) : Dev :=
  (s.setLv (ctlPg + 0x900) 15 15 1).setLv (ctlPg + 0x900) 14 8 a.toNat
def execI3cDynAddr (a : BitVec 7) (s : State) := run (i3cDynAddrEffect a) s

/-! ### JTAG -/

/-- An instruction whose answer the manual does not give: a free value. -/
def Dev.jtagFree (s : Dev) (ir : Byte) : Dev :=
  let r := s.draw
  (r.2.updCtl fun c => { c with ir := ir, dr := r.1 }).emit (.jtag r.1)

/-- Boundary scan: the chain is loaded; what it captures of the pins is free. -/
def extestEffect (scan : List Bool) (s : Dev) : Dev := (s.jtagFree 0x00).updCtl fun c => { c with scan := scan }
def execExtest (scan : List Bool) (s : State) := run (extestEffect scan) s

def samplePreloadEffect (scan : List Bool) (s : Dev) : Dev := (s.jtagFree 0x01).updCtl fun c => { c with scan := scan }
def execSamplePreload (scan : List Bool) (s : State) := run (samplePreloadEffect scan) s

def idcodeEffect (s : Dev) : Dev := (s.updCtl fun c => { c with ir := 0x02, dr := 0x0C512A6B }).emit (.jtag 0x0C512A6B)
def execIdcode (s : State) := run idcodeEffect s

/-- The one-bit register captures 0. -/
def Dev.jtagBypass (s : Dev) (ir : Byte) : Dev := (s.updCtl fun c => { c with ir := ir, dr := 0 }).emit (.jtag 0)

/-- The harts' debug module answers at debug level 1 or 2; what it answers is free. -/
def coreDebugEffect (_dr : Word) (s : Dev) : Dev := if s.debugLevel = 0 then s.jtagBypass 0x12 else s.jtagFree 0x12
def execCoreDebug (dr : Word) (s : State) := run (coreDebugEffect dr) s

/-- 0xFF and every code without another instruction. -/
def bypassEffect (code : Byte) (s : Dev) : Dev :=
  if [0x00, 0x01, 0x02, 0x11, 0x12].contains code.toNat then s else s.jtagBypass code
def execBypass (code : Byte) (s : State) := run (bypassEffect code) s

/-! ### Watchdogs -/

def wdogReg (w : Nat) : Nat := ctlPg + 0x200 + 8 * w
def Dev.wdogPeriod (s : Dev) (w : Nat) : Nat := s.lv (wdogReg w) 63 32
/-- The tick a watchdog's count began at, and whether it has expired since the last kick. -/
def Dev.wdogSt (s : Dev) (w : Nat) : Nat × Bool := s.ctl.wdog.getD w (0, false)
def Dev.setWdog (s : Dev) (w : Nat) (x : Nat × Bool) : Dev := s.updCtl fun c => { c with wdog := c.wdog.set w x }

def wdogKickEffect (w : Fin 4) (s : Dev) : Dev := s.setWdog w.val (s.ticks, false)
def execWdogKick (w : Fin 4) (s : State) := run (wdogKickEffect w) s

/-- PERIOD beats have passed without a kick. -/
def wdogExpireEffect (w : Fin 4) (s : Dev) : Dev :=
  let x := s.wdogSt w.val
  if s.wdogPeriod w.val = 0 ∨ s.ticks < x.1 + s.wdogPeriod w.val then s
  else
    let s := (s.setLv (wdogReg w.val) 4 4 1).setWdog w.val (s.ticks, true)
    if x.2 ∧ s.lv (wdogReg w.val) 1 0 = 1 then s.warmReset 0x08 else s
def execWdogExpire (w : Fin 4) (s : State) := run (wdogExpireEffect w) s

/-- A write of CTL_WDOG_w (R778): a period that becomes nonzero starts the count. -/
def Dev.wdogWrite (s : Dev) (w : Nat) (v : Word) : Dev :=
  let was := s.wdogPeriod w
  let exp := if flag v 4 then 0 else s.lv (wdogReg w) 4 4
  let s := s.putLv (wdogReg w) (v.toNat &&& 0xFFFFFFFF00000003 ||| exp * 16)
  let s := if was = 0 ∧ s.wdogPeriod w ≠ 0 then s.setWdog w (s.ticks, (s.wdogSt w).2) else s
  if flag v 3 then s.setWdog w (s.ticks, false) else s

end Sys2Proof.Machine
end

