-- ==== Sys2Proof/Machine/Pwr.lean ====
section
/-! DEFINITION. Rails, power and temperature (chapter 16): power-up steps (R788), rail faults (R790), the throttle level (R791
to R793, R795) and the thermal trip (R794). -/

namespace Sys2Proof.Machine

/-- The rails of a power-up step come within tolerance, those of every earlier step being so. Step 1 begins a power-up. -/
def railStepEffect (step : Fin 5) (s : Dev) : Dev :=
  if s.pwr.porLow ∧ (step.val = 1 ∨ (step.val ≠ 0 ∧ step.val = s.pwr.railStep + 1)) then
    { s with pwr := { s.pwr with railStep := step.val } }
  else s
def execRailStep (step : Fin 5) (s : State) := run (railStepEffect step) s

/-- The unit of the PWR page. -/
def pwrUnit : BitVec 32 := blockUnit 4 0x0F 0

/-- A rail has stayed outside its tolerance for 16 beats with PWR_ON_RESET_N high. -/
def railFaultEffect (_i : Fin 12) (s : Dev) : Dev := if s.pwr.porLow then s else s.faultOwn 4 0x0F 0 0 pwrUnit
def execRailFault (i : Fin 12) (s : State) := run (railFaultEffect i) s

/-- A sensor has reached 115 °C. -/
def thermtripEffect (_d : AnyDie) (t : Byte) (s : Dev) : Dev :=
  if s.pwr.porLow ∨ t.toNat < 115 then s
  else ({ s with pwr := { s.pwr with tripLow := true } } : Dev).faultOwn 4 0x0F 0 1 pwrUnit
def execThermtrip (d : AnyDie) (t : Byte) (s : State) := run (thermtripEffect d t) s

/-! ### The throttle level -/

/-- WATTS of PWR_LIMIT, THROTTLE and WARN of PWR_THERM as they act (R804). -/
def Dev.powerCap (s : Dev) : Nat := min 1900 (max 600 (s.cfg (pwrPg + 0x1000) 15 0))
def Dev.throttleAt (s : Dev) : Nat := min 105 (s.cfg (pwrPg + 0x1008) 15 8)
def Dev.warnAt (s : Dev) : Nat := min (s.cfg (pwrPg + 0x1008) 7 0) s.throttleAt

/-- Hottest valid sensor of each die in a window; `none` for a die without one. -/
def dieTemps (m : PowerWindow) : List (Option Byte) := (List.range 5).map fun d => m.temps.getD d none

/-- The temperature a die counts with: THROTTLE when its sensors have all failed (R793). -/
def Dev.tempOf (s : Dev) (t : Option Byte) : Nat := match t with | some b => b.toNat | none => s.throttleAt

/-- PWR_STATUS.STAGE of a level. -/
def stageOf (level : Nat) : Nat := if level = 0 then 0 else if level ≤ 12 then 1 else 2

/-- The measured registers of a window (R803). -/
def Dev.measure (s : Dev) (m : PowerWindow) : Dev :=
  let ts := dieTemps m
  let s := (List.range 12).foldl (fun t i =>
    t.putLv (pwrPg + 0x100 + 8 * i) ((m.mv.getD i 0).toNat * 2 ^ 32 + (m.cur.getD i 0).toNat)) s
  let s := s.setLv (pwrPg + 0x160) 15 0 m.watts.toNat
  let s := s.putLv (pwrPg + 0x168) (leNat (ts.map fun t => t.getD 0xFF))
  let s := s.setLv (pwrPg + 0x170) 12 8 (listMask (setOf 5 fun d => (ts.getD d none).isNone))
  s.setLv (pwrPg + 0x170) 4 4 (b2n (ts.any fun t => decide (s.warnAt ≤ s.tempOf t)))

/-- A window of 1,024 beats since the last ends: the level rises, falls or stays. -/
def throttleWindowEffect (m : PowerWindow) (s : Dev) : Dev :=
  if s.pwr.porLow ∨ s.ticks < s.pwr.winAt + 1024 then s
  else
    let ts := (dieTemps m).map s.tempOf
    let hot := ts.any fun t => decide (s.throttleAt ≤ t)
    let above := decide (s.powerCap < m.watts.toNat)
    let cool := ts.all fun t => decide (t + 3 ≤ s.throttleAt)
    let old := s.pwr.level
    let new := if hot || above then min 16 (old + 1)
      else if decide (m.watts.toNat * 100 < 97 * s.powerCap) && cool then old - 1 else old
    let s := s.measure m
    let s := if old < new then (s.setLv (pwrPg + 0x170) 1 1 (b2n hot)).setLv (pwrPg + 0x170) 0 0 (b2n above) else s
    ({ s with pwr := { s.pwr with level := new, winAt := s.ticks } } : Dev).setLv (pwrPg + 0x170) 3 2 (stageOf new)
def execThrottleWindow (m : PowerWindow) (s : State) := run (throttleWindowEffect m) s

end Sys2Proof.Machine
end

