-- ==== Sys2Proof/Machine/Bus.lean ====
section
/-! DEFINITION. Register writes of every initiator (R62 to R68, R75 to R82, R805) with the behaviour of the registers that have
one, and JTAG's REG_ACCESS (R749, R750). -/

namespace Sys2Proof.Machine

/-! ### Stored words -/

/-- A word after a write of `v` under the byte mask `m`: `rw` bits take the value, `w1c` bits written 1 become 0. -/
def wordAfter (old rw w1c m v : Nat) : Nat :=
  let set := rw &&& m
  let clr := w1c &&& m &&& v
  ((old ||| set ||| clr) ^^^ (set ||| clr)) ||| (v &&& set)

/-- The bits of a word that an access of `size` bytes at byte `lane` of it reaches. -/
def busMask (size lane : Nat) : Nat := (2 ^ (8 * size) - 1) * 2 ^ (8 * lane)

/-- A write to a live register without a behaviour of its own. -/
def Dev.storeLive (s : Dev) (a : Nat) (r : Reg) (m v : Nat) : Dev :=
  s.putLv a (wordAfter (RegFile.get s.live a).toNat r.rw r.w1c m v)

/-! ### Live registers with a behaviour -/

/-- INS_MOLT_CTRL: a molt command (R91 to R96, R121). -/
def Dev.moltCtrl (s : Dev) (v : Nat) : Dev :=
  let drained := bit v 8
  match v % 8 with
  | 0 => s
  | 1 => armEffect drained s
  | 2 => armNowEffect drained s
  | 3 => cancelEffect s
  | 4 => rollbackArmEffect drained s
  | 5 => rollbackNowEffect drained s
  | _ => malformedCmdEffect s

/-- CORE_THREAD_CTRL_t (R607). -/
def Dev.threadCtrl (s : Dev) (t v : Nat) : Dev :=
  match v % 4 with
  | 1 => s.startThread t (pcOf44 (bits v 63 20))
  | 2 => s.stopThread t
  | _ => s

/-- CTL registers (R731, R733, R735, R740, R743 to R745, R751, R778). -/
def Dev.ctlWrite (s : Dev) (off : Nat) (r : Reg) (m v : Nat) : Dev :=
  let a := ctlPg + off
  let w : Word := BitVec.ofNat 64 v
  if off = 0x100 then s.storeLive a r (if bit v 8 then m else m &&& (m64 - 2 ^ 8)) v
  else if off = 0x108 then hartRunEffect (BitVec.ofNat 16 v) s
  else if off = 0x118 then if bit v 0 then s else llcCarWriteEffect s
  else if 0x200 ≤ off ∧ off < 0x220 then s.wdogWrite ((off - 0x200) / 8) w
  else if off = 0x318 then mgmtTxEffect (BitVec.ofNat 32 (bits v 63 32)) s
  else if off = 0x428 ∨ off = 0x468 then mgmtEthTxEffect (Fin.ofNat 2 ((off - 0x428) / 0x40)) (BitVec.ofNat 32 (bits v 63 32)) s
  else if off = 0x400 ∨ off = 0x440 then (s.storeLive a r m v).ethOff ((off - 0x400) / 0x40)
  else if off = 0x500 then uartTxWriteEffect (BitVec.ofNat 8 v) s
  else if off = 0x600 then spiCmdEffect w s
  else s.storeLive a r m v

/-- A write that a live register at page offset `off` accepts; `m` is what it reaches of the register's word. -/
def Dev.liveWrite (s : Dev) (d blk inst off : Nat) (r : Reg) (m v : Nat) : Dev :=
  let a := pg d blk inst + off
  let plain := s.storeLive a r m v
  let w : Word := BitVec.ofNat 64 v
  if off < 0x100 then plain
  else
    match blk with
    | 0x01 =>
      if off = 0x118 then s.moltCtrl v
      else if off = 0x290 then if bit v 0 then insSignStartEffect s else s
      else plain
    | 0x02 =>
      if off = 0x110 then beatCtrlRoleWriteEffect (BitVec.ofNat 32 v) s
      else if off = 0x128 then plain.upstreamNamed
      else if 0x408 ≤ off ∧ off % 16 = 8 then s.alarmWrite d ((off - 0x408) / 16) w
      else plain
    | 0x03 => if off = 0x110 then lnkGroupResetEffect (Fin.ofNat 64 (d * 16 + inst)) (bit v 0) s else plain
    | 0x06 => if off = 0x100 then s.ringWrite d false v else if off = 0x108 then s.ringWrite d true v else plain
    | 0x08 => if off = 0x218 then if bit v 31 then s.groupResetAll (BitVec.ofNat 24 v) else s else plain
    | 0x09 =>
      let c := d * 64 + inst
      if off = 0x100 then coreCtrlResetEffect (Fin.ofNat 256 c) (bit v 0) s
      else if 0x200 ≤ off ∧ off < 0x400 then
        if off % 0x20 = 8 then s.threadCtrl (c * 16 + (off - 0x200) / 0x20) v else s.coreUserWrite c off v
      else plain
    | 0x0C =>
      if inst = 0 ∧ off = 0x208 then s.fltClearWrite d w
      else if inst = 1 ∧ off = 0x110 then s.injectWrite d v
      else plain
    | 0x0D =>
      if off = 0x100 then s.secCmdWrite (v % 256) else if off = 0x780 then s.dbgCtrlWrite v else plain
    | 0x0E => s.ctlWrite off r m v
    | 0x0F => if off = 0x180 then pwrResetCtrlWriteEffect (BitVec.ofNat 32 v) s else plain
    | _ => plain

/-! ### Staged registers and tables -/

/-- Staged content is locked while STATE is ARMED or HOLD (R77). -/
def Dev.stageLocked (s : Dev) : Bool := s.insState == 1 || s.insState == 2

/-- A write into the staged instar at a page address, under the writable bits `rw` and the mask `m` (R76). -/
def Dev.storeStaged (s : Dev) (a rw m v : Nat) : Dev :=
  if s.stageLocked then s.count (insPg + 0x148)
  else
    let k := s.home a
    { s with staged := RegFile.set s.staged k (BitVec.ofNat 64 (wordAfter (RegFile.get s.staged k).toNat rw 0 m v)) }

/-! ### A write on the bus -/

/-- Whose access to memory an initiator's is (R642, R657, R660, R732). -/
def Dev.memWho (s : Dev) (i : Initiator) (a : Nat) : Who :=
  if s.privileged i then .device
  else match i with
  | .jtag => .nobody
  | .thread t => .part (s.corePart (t.val / 16))
  | .porone p => .part p.val
  | .hart _ _ =>
    if inControl a then .device
    else match regionOf a, s.initPart i with
    | .hbm _ _, some p => .part p
    | _, _ => .nobody

/-- The LLC serves the access alone: one by a hart or by the unlocked JTAG port, below its 32 MiB, while it is the boot RAM (R735;
DEDUCED, log 137). -/
def Dev.llcServes (s : Dev) (i : Initiator) (a : Nat) : Bool :=
  s.carOn && decide (a < llcBytes) && match i with
    | .hart _ _ => true
    | .jtag => s.privileged i
    | .thread _ | .porone _ => false

/-- A hart's store that raises an access fault: its stack does not yet read READY (R800), or its refill meets a bad burst of the
control partition, of which it takes note (R734). -/
def Dev.hartStore (s : Dev) (n : Fin 16) (a size : Nat) : Option Dev :=
  match regionOf a with
  | .hbm st _ =>
    if s.stackState st < 3 then some (s.hartFault n.val)
    else
      match s.badMerge a size with
      | some b => if inControl b then some (hartCpEccErrorEffect n (BitVec.ofNat 44 b) s) else none
      | none => none
  | _ => none

/-- A write of `size` bytes at a local address outside the register pages (R57, R642 to R644, R658 to R661, R800). -/
def Dev.memStore (s : Dev) (i : Initiator) (a size v : Nat) : Dev :=
  if s.llcServes i a then s.updCtl fun c => { c with llc := Memory.writeBytes c.llc a (leBytes size v) }
  else
    match (match i with | .hart n _ => s.hartStore n a size | _ => none) with
    | some t => t
    | none => (s.memWrite (s.memWho i a) a (leBytes size v)).1

/-- What a context keeps in its cells or spill units: its records or other state as R476 lays them out, then the rounded result and its
digest (R456, R655). -/
def Dev.ctxContent (s : Dev) (c : Ctx) : List Byte :=
  match c.phase, s.epochAny c.key.group c.key.epoch with
  | .retained, _ => c.result ++ c.digest
  | _, some e => if c.params.isNone ∨ c.route.isSome then [] else c.state e.entry
  | _, none => []

/-- A byte of a cluster's reduction memory as a read of its window shows it (R644): the state of the context or the result whose block it
lies in, block after block in chain order (DEDUCED, log 135). A byte that none of them has written since is free (log 135). -/
def Dev.rmemByte (s : Dev) (k off : Nat) : Byte :=
  let stale := Config.staleByte (rmemBase k + off) s.ticks
  if s.fencedUnit (clusterUnit k) then 0
  else
    let cell := off / 256
    match (s.allocsIn (k / 8) (1 + k % 8)).find? fun a => a.blocks.any fun b => decide (b.2 ≤ cell) && decide (cell < b.2 + poolCells b.1) with
    | none => stale
    | some a =>
      match s.ctxs.find? fun c => c.place == .resident a.id with
      | none => stale
      | some c =>
        let before := a.blocks.takeWhile fun b => !(decide (b.2 ≤ cell) && decide (cell < b.2 + poolCells b.1))
        let start := ((a.blocks.drop before.length).headD (0, 0)).2
        let pos := 256 * (natSum (before.map fun b => poolCells b.1) + (cell - start)) + off % 256
        (s.ctxContent c).getD pos stale

/-- A byte of a spill area as a privileged read shows it (R661): the state of the context whose unit it lies in, unit after unit (DEDUCED,
log 135). The spec lays out no DISPATCH context: its bytes, and those of a unit that nothing holds, are free (log 135). -/
def Dev.spillByte (s : Dev) (a : Nat) : Byte :=
  let stale := Config.staleByte a s.ticks
  let st := a / 2 ^ 37
  let off := a % 2 ^ 34 - 0x3F8000000
  let u := off / 65536 * 16 + (a / 2 ^ 34 % 8 - 4) * 4 + st % 4
  let held := s.ctxs.findSome? fun c => match c.place with
    | .spilled us => if c.die = st / 4 then (us.idxOf? u).map fun i => (c, i) else none
    | _ => none
  match held with
  | none => stale
  | some (c, i) => (s.ctxContent c).getD (65536 * i + off % 65536) stale

/-- A byte as a read by an initiator of the control die or by JTAG shows it. -/
def Dev.seenByte (s : Dev) (i : Initiator) (a : Nat) : Byte :=
  if s.llcServes i a then Memory.read s.ctl.llc a
  else match regionOf a with
  | .rmem k => s.rmemByte k (a % 0x1000000)
  | _ => if inSpill a then s.spillByte a else Memory.read s.mem a

/-- A read of `size` bytes at a local address outside the register pages; what is denied or out of service reads zero. -/
def Dev.memLoad (s : Dev) (i : Initiator) (a size : Nat) : Dev × Nat :=
  let val := leNat ((List.range size).map fun j => s.seenByte i (a + j))
  if s.llcServes i a then (s, val)
  else
    let v := s.verdict (s.memWho i a) false a size
    match v with
    | .ok => (s.hbmBytes a size 0x130, val)
    | _ => (s.countVerdict v, 0)

/-- A write of `size` bytes (4 or 8) by a privileged initiator, or by JTAG before an unlock. A staged or table write that R62 or
R66 forbids is a violation also while the staged content is locked, and no dropped locked write (DESIGN CHOICE, log 115: R77 does
not say which is counted). -/
def Dev.fullWrite (s : Dev) (i : Initiator) (a size v : Nat) : Dev :=
  let d := addrDie a; let blk := addrBlk a; let inst := addrInst a; let off := addrOff a
  let priv := s.privileged i
  if off ≥ 0x4000 then
    match findTbl blk inst off with
    | none => s.violAt a
    | some t =>
      if !priv || off % size != 0 then s.violAt a
      else
        let lane := off % 8
        s.storeStaged (a - lane) (if t.ro || controlOwner a then 0 else t.mask (off - lane)) (busMask size lane) (v * 2 ^ (8 * lane))
  else
    match writeReg d blk inst off size with
    | none => s.violAt a
    | some r =>
      let b := r.base off
      let lane := off - b
      let m := busMask size lane
      let x := v * 2 ^ (8 * lane)
      if off ≥ 0x1000 then if priv then s.storeStaged (a - lane) r.rw m x else s.violAt a
      else if priv then s.liveWrite d blk inst b r m x
      else
        let open_ := if off < 0x10 then 0 else s.openBits i d blk inst r
        if open_ = 0 then s.violAt a
        else if r.rw &&& open_ = 0 ∧ r.rd &&& open_ ≠ 0 ∧ b ≠ 0x780 then s
        else s.liveWrite d blk inst b r (m &&& open_) x

/-- A write of `size` bytes at a local address by any initiator, to a register or to memory. While FATAL only privileged accesses and JTAG are served
(R720). -/
def Dev.busWrite (s : Dev) (i : Initiator) (a size v : Nat) : Dev :=
  if s.fatal && !s.privileged i && i != .jtag then s
  else if regionOf a ≠ .regs then s.memStore i a size v
  else
    let d := addrDie a; let blk := addrBlk a; let inst := addrInst a
    if !s.pagePresent d blk inst then s.violAt a
    else if s.privileged i || i == .jtag then s.fullWrite i a size v
    else s.userWrite i a size v

/-- A store at the address an initiator gives: a hart's is a physical address, which may lie outside the local map and then
raises the access fault of R730 and R733; the others give 44 bits of a local address. -/
def Dev.store (s : Dev) (i : Initiator) (addr : BitVec 64) (f : Dev → Nat → Dev) : Dev :=
  match i with
  | .hart n mode =>
    if hartPlace addr.toNat = .map then f s addr.toNat
    else if s.hartMay mode true addr.toNat then s
    else s.hartFault n.val
  | _ => f s (addr.toNat % 2 ^ 44)

def registerWriteEffect (i : Initiator) (addr : BitVec 64) (wide : Bool) (v : Word) (s : Dev) : Dev :=
  s.store i addr fun s a => if wide then s.busWrite i a 8 v.toNat else s.busWrite i a 4 (v.toNat % 2 ^ 32)
def execRegisterWrite (i : Initiator) (addr : BitVec 64) (wide : Bool) (v : Word) (s : State) :=
  run (registerWriteEffect i addr wide v) s

/-! ### Pairs (R78 to R82). No page map marks one: a pair command takes the 64-bit live register it names as a pair (log 60) -/

/-- The initiator may write the live 64-bit register at an address. -/
def Dev.pairAt (s : Dev) (i : Initiator) (a : Nat) : Bool :=
  let d := addrDie a; let blk := addrBlk a; let inst := addrInst a; let off := addrOff a
  regionOf a == .regs && s.pagePresent d blk inst && decide (0x100 ≤ off) && decide (off < 0x1000)
    && !(s.fatal && !s.privileged i && i != .jtag)
    && match writeReg d blk inst off 8 with
      | some r => r.rw != 0 && !r.wide && (s.privileged i || r.rw &&& s.openBits i d blk inst r != 0)
      | none => false

/-- The holding latch of the pair at an address. -/
def Dev.latch (s : Dev) (a : Nat) : Nat := (RegFile.get s.latches a).toNat % 2 ^ 32
def Dev.setLatch (s : Dev) (a v : Nat) : Dev :=
  { s with latches := RegFile.set s.latches a (setFld (RegFile.get s.latches a) 31 0 v),
           pairs := if s.pairs.contains a then s.pairs else s.pairs ++ [a] }

/-- The low word is written: it waits in the latch. -/
def pairLowWriteEffect (i : Initiator) (addr : BitVec 64) (v : BitVec 32) (s : Dev) : Dev :=
  s.store i addr fun s a => if s.pairAt i a then s.setLatch a v.toNat else s.busWrite i a 4 v.toNat
def execPairLowWrite (i : Initiator) (addr : BitVec 64) (v : BitVec 32) (s : State) := run (pairLowWriteEffect i addr v) s

/-- The high word, at `addr`, is written: latch and high word are committed together. -/
def pairHighWriteEffect (i : Initiator) (addr : BitVec 64) (v : BitVec 32) (s : Dev) : Dev :=
  s.store i addr fun s a =>
    if a % 8 = 4 ∧ s.pairAt i (a - 4) then s.busWrite i (a - 4) 8 (s.latch (a - 4) + 2 ^ 32 * v.toNat)
    else s.busWrite i a 4 v.toNat
def execPairHighWrite (i : Initiator) (addr : BitVec 64) (v : BitVec 32) (s : State) := run (pairHighWriteEffect i addr v) s

/-- Both words are committed at once; the low one is then the last low word written. -/
def pairWrite64Effect (i : Initiator) (addr : BitVec 64) (v : Word) (s : Dev) : Dev :=
  s.store i addr fun s a => (if s.pairAt i a then s.setLatch a (v.toNat % 2 ^ 32) else s).busWrite i a 8 v.toNat
def execPairWrite64 (i : Initiator) (addr : BitVec 64) (v : Word) (s : State) := run (pairWrite64Effect i addr v) s

/-! ### JTAG -/

/-- A read through REG_ACCESS: of a register, or of memory after an unlock (R64, R660). -/
def Dev.jtagRead (s : Dev) (a size : Nat) : Dev × Nat :=
  if regionOf a = .regs then s.busRead .jtag a size else s.memLoad .jtag a size

/-- REG_ACCESS: the capture returns the last read, and the shifted-in access is made. -/
def regAccessEffect (dr : BitVec 112) (s : Dev) : Dev :=
  let n := dr.toNat
  let a := bits n 111 68
  let size := if bit n 65 then 8 else 4
  let s := (s.updCtl fun c => { c with ir := 0x11, dr := c.lastRead }).emit (.jtag s.ctl.lastRead)
  match bits n 67 66 with
  | 1 =>
    let r := s.jtagRead a size
    r.1.updCtl fun c => { c with lastRead := BitVec.ofNat 64 r.2 }
  | 2 => s.busWrite .jtag a size (if size = 8 then bits n 63 0 else bits n 31 0)
  | _ => s
def execRegAccess (dr : BitVec 112) (s : State) := run (regAccessEffect dr) s

end Sys2Proof.Machine
end

