-- ==== Sys2Proof/Machine/Flit.lean ====
section
/-! DEFINITION. The receiving end of a Porone link (chapter 04): codewords and deskew (R178, R179), flits kept, failed and
acknowledged (R194 to R206), messages (R207, R208), and the end-of-packet check (R221 to R226). -/

namespace Sys2Proof.Machine

/-! ### Packets -/

/-- A packet that ends here has used the credit it was sent on; its VC is the flits' (R198, R344). -/
def Dev.spendFlits (s : Dev) (p vc n : Nat) : Dev :=
  let i := p % 128 * 8 + vc
  if s.lossless p vc then s.setCredit (p / 128) i (s.creditOf (p / 128) i - n) else s

/-- A packet whose check fails may have left for another port already (R223): whether it has is open (log 4). It is sent to its
end and stomped there. -/
def Dev.stompEarly (s : Dev) (p : Nat) (pkt : Packet) : Option Dev :=
  let r := s.draw
  if s.isOwn p pkt ∨ s.malformedAt p pkt ∨ r.1.toNat % 2 = 0 then none
  else
    match r.2.arrive p pkt false with
    | (_, none) => none
    | (t, some c) =>
      match t.egress c.file (p / 128) (some p) c.pkt with
      | .port e _ =>
        some ((t.route p c.pkt c.file c.load).updPort e fun x =>
          { x with queue := updWhere (fun (y : QPkt) => y.id == c.load.id) (fun y => { y with stomp := true }) x.queue })
      | _ => none

/-- The packet whose last flit has come is complete: its check (R221, R223, R224, R226). A packet whose LENGTH does not fit the
flits carried keeps all their bytes before the last four as payload, which makes it malformed. -/
def Dev.endPacket (s : Dev) (p vc : Nat) (l : List Byte) : Dev :=
  let pkt := Packet.ofBytes l
  let n := pkt.size
  let fits := decide (flitsOf n = l.length / 244)
  let crc := leAt l n 4
  let ok := crc32 (l.take n)
  let gone := fun (t : Dev) => t.spendFlits p vc (l.length / 244)
  let came := fun (t : Dev) (q : Packet) => { t with arrived := t.arrived ++ [{ port := p, pkt := q, sop := (t.port p).asmTick, frame := none }] }
  if fits && crc == ok then came s pkt
  else if fits && crc == 2 ^ 32 - 1 - ok then (gone s).countPort p 0x518 0x20
  else if fits then
    let s := (s.countPort p 0x220 0x40).faultOwn (p / 128) 0x03 (p / 8 % 16) 2 (portUnit (p / 128) (s.logNum p))
    match s.stompEarly p pkt with
    | some t => t
    | none => gone s.draw.2
  else
    let body := (l.take (l.length - 4)).drop (if pkt.ext.isSome then 32 else 16)
    came s { pkt with payload := body, trailer := [] }

/-! ### Flits -/

/-- A failed flit: ask for everything from the start of the packet it may belong to (R203). -/
def Dev.failFlit (s : Dev) (p : Nat) : Dev :=
  let s := (s.countPort p 0x210 0x40).updPort p fun x =>
    { x with nak := true, rxSeq := x.ackSeq + 1, asm := [], asmOpen := false }
  s.sendIdle p true none

/-- Flits kept (R201, R245). -/
def Dev.keptFlits (s : Dev) (p n : Nat) : Dev := s.addLv (lnkPg (p / 8) + 0x208 + 0x40 * (p % 8)) 63 0 n

/-- A DATA flit in sequence. The flits of a packet are kept with its last one. -/
def Dev.takeData (s : Dev) (p : Nat) (h : FlitHdr) (f : List Byte) : Dev :=
  let x := s.port p
  let x := if h.sop then { x with asm := flitData f, asmSop := h.seq, asmVc := h.vc, asmOpen := true, asmTick := s.ticks }
    else if x.asmOpen then { x with asm := x.asm ++ flitData f } else x
  let whole := h.eop && x.asmOpen
  let l := x.asm
  let vc := x.asmVc
  let x := if h.eop then { x with asm := [], asmOpen := false, ackSeq := h.seq } else x
  let s := s.setPort p x
  if whole then (s.keptFlits p (l.length / 244)).endPacket p vc l else s

/-- A message of a kept CONTROL flit acts (R208); `frac`: the fraction of the count at which the flit reached the ball (R209). -/
def Dev.takeMsg (p : PortNo) (frac : Byte) (s : Dev) : CtlMsg → Dev
  | .creditAll c => creditAllEffect p c s
  | .timeReq r t1 => timeReqEffect p t1 r frac s
  | .timeResp a r d h t2 t3 =>
    timeRespEffect p { aligned := a, replayed := r, domain := d, hops := h, t2 := t2, t3 := t3, t4frac := frac } s
  | .release g e b => releaseEffect p g e b s
  | .width a w c => if w.toNat ≤ 8 then widthEffect p a (Fin.ofNat 9 w.toNat) c s else s
  | .param m => paramEffect p m s
  | .reserved _ => s.countPort p.val 0x228 0x40

/-- A CONTROL flit in sequence. One acted on already is discarded (R204). -/
def Dev.takeControl (s : Dev) (p : PortNo) (frac : Byte) (h : FlitHdr) (f : List Byte) : Dev :=
  let again := seqCovered (s.port p.val).ctlSeq h.seq
  let s := s.updPort p.val fun x =>
    { x with ctlSeq := if again then x.ctlSeq else h.seq, ackSeq := if x.asmOpen then x.ackSeq else h.seq }
  if again then s else (ctlMsgs f).foldl (Dev.takeMsg p frac) (s.keptFlits p.val 1)

/-- The units that handle a flit of a port (R723). -/
def Dev.flitUnits (s : Dev) (p : Nat) : List (BitVec 32) :=
  [portUnit (p / 128) (s.logNum p), groupUnit (p / 8)] ++ (s.port p).lanes.map fun l => laneUnit (p / 8) (s.physLane (p / 8) l)

/-- One flit arrives; one that an injection corrupts fails (R723). -/
def Dev.takeFlit (p : PortNo) (frac : Byte) (s : Dev) (f : List Byte) : Dev :=
  let k := p.val
  if s.fatal ∨ (s.portState k ≠ 4 ∧ s.portState k ≠ 5) ∨ isPorone (s.portMode k) = false then s
  else if s.hurtAny (s.flitUnits k) then (s.unhurt (s.flitUnits k)).failFlit k
  else if flitIntact f = false then s.failFlit k
  else
    let h := flitHdr f
    let s := s.updPort k fun x =>
      { x with lastOk := s.ticks, granted := if h.crValid then x.granted.set h.crVc h.crCount else x.granted }
    let s := if h.nak then replayEffect p h.ackSeq s else s.ackTo k h.ackSeq
    if h.ftype = 0 ∨ h.seq ≠ (s.port k).rxSeq then s
    else
      let s := s.updPort k fun x => { x with nak := false, rxSeq := x.rxSeq + 1 }
      if h.ftype = 1 then s.takeData k h f else s.takeControl p frac h f

/-! ### Codewords (R178, R179) -/

/-- A lane's codeword is decoded and counted; its message. An uncorrectable word hands its message on as received: the CRCs of
the flits judge it (DESIGN CHOICE, log 101). -/
def Dev.takeWord (s : Dev) (g lane : Nat) (w : List (BitVec 10)) : Dev × List (BitVec 10) :=
  match rsDecode (w.map (·.toNat)) with
  | some (_, 0) => (s, w.take 500)
  | some (r, _) => (s.count (lnkPg g + 0x400 + 0x10 * lane), (r.take 500).map (BitVec.ofNat 10))
  | none => (s.laneUncorr g lane, w.take 500)

/-- The next codeword of each lane in use: passed over, or waiting for its fellows of the other lanes. -/
def Dev.takeWords (s : Dev) (p : Nat) (ws : List (List (BitVec 10))) : Dev :=
  ws.zipIdx.foldl (fun t x =>
    let r := t.takeWord (p / 8) ((s.port p).lanes.getD x.2 0) x.1
    r.1.updPort p fun y =>
      let k := y.skip.getD x.2 0
      if k > 0 then { y with skip := y.skip.set x.2 (k - 1) }
      else
        let q := if y.waiting.length ≤ x.2 then y.waiting ++ List.replicate (x.2 + 1 - y.waiting.length) [] else y.waiting
        { y with waiting := q.set x.2 (q.getD x.2 [] ++ [r.2]) }) s

/-- Cut bytes into flits; what is left of the last. -/
def cutFlits : Nat → List Byte → List (List Byte) × List Byte
  | 0, l => ([], l)
  | n + 1, l => if l.length < 256 then ([], l) else let r := cutFlits n (l.drop 256); (l.take 256 :: r.1, r.2)

/-- When a codeword of every lane is there, its messages go into the flit stream. -/
def Dev.joinLanes (p : PortNo) (frac : Byte) (s : Dev) : Dev :=
  let x := s.port p.val
  if x.waiting.length < x.lanes.length ∨ x.waiting.any (·.isEmpty) then s
  else
    let r := cutFlits 20 (x.rxBytes ++ symbolBytes (unstripe (x.waiting.map (·.headD []))))
    r.1.foldl (Dev.takeFlit p frac)
      (s.updPort p.val fun y => { y with waiting := y.waiting.map (·.drop 1), rxBytes := r.2 })

def flitReceiveEffect (p : PortNo) (w : Wire) (s : Dev) : Dev :=
  match w with
  | .flit f frac => Dev.takeFlit p frac s f
  | .words ws frac =>
    let k := p.val
    if s.fatal ∨ (s.portState k ≠ 4 ∧ s.portState k ≠ 5) ∨ isPorone (s.portMode k) = false ∨ ws.length ≠ (s.port k).lanes.length
        ∨ ws.any (·.length != 560) then s
    else Dev.joinLanes p frac (s.takeWords k ws)
def execFlitReceive (p : PortNo) (w : Wire) (s : State) := run (flitReceiveEffect p w) s

end Sys2Proof.Machine
end

