-- ==== Sys2Proof/Machine/Dispatch.lean ====
section
/-! DEFINITION. `exec`: one arm per command, each a direct call of its meaning. -/

namespace Sys2Proof.Machine

def exec (i : Instr) (s : State) : Host.Outcome State Fault Refusal :=
  match i with
  | .registerWrite who addr wide v => Sys2Proof.Machine.execRegisterWrite who addr wide v s
  | .pairLowWrite who addr v => Sys2Proof.Machine.execPairLowWrite who addr v s
  | .pairHighWrite who addr v => Sys2Proof.Machine.execPairHighWrite who addr v s
  | .pairWrite64 who addr v => Sys2Proof.Machine.execPairWrite64 who addr v s
  | .arm drained => Sys2Proof.Machine.execArm drained s
  | .armNow drained => Sys2Proof.Machine.execArmNow drained s
  | .cancel => Sys2Proof.Machine.execCancel s
  | .rollbackArm drained => Sys2Proof.Machine.execRollbackArm drained s
  | .rollbackNow drained => Sys2Proof.Machine.execRollbackNow drained s
  | .malformedCmd seven => Sys2Proof.Machine.execMalformedCmd seven s
  | .molt => Sys2Proof.Machine.execMolt s
  | .holdEnd => Sys2Proof.Machine.execHoldEnd s
  | .retireRelease => Sys2Proof.Machine.execRetireRelease s
  | .earlyTagExpire p => Sys2Proof.Machine.execEarlyTagExpire p s
  | .insSignStart => Sys2Proof.Machine.execInsSignStart s
  | .insSignDone ok => Sys2Proof.Machine.execInsSignDone ok s
  | .beatCtrlRoleWrite v => Sys2Proof.Machine.execBeatCtrlRoleWrite v s
  | .loadPulse => Sys2Proof.Machine.execLoadPulse s
  | .checkPulse => Sys2Proof.Machine.execCheckPulse s
  | .beatRefLoss => Sys2Proof.Machine.execBeatRefLoss s
  | .beatRefReturn => Sys2Proof.Machine.execBeatRefReturn s
  | .timeReqSend => Sys2Proof.Machine.execTimeReqSend s
  | .timeReq p t1 replayed t2frac => Sys2Proof.Machine.execTimeReq p t1 replayed t2frac s
  | .timeResp p m => Sys2Proof.Machine.execTimeResp p m s
  | .holdoverExpire => Sys2Proof.Machine.execHoldoverExpire s
  | .alarmArm d n v => Sys2Proof.Machine.execAlarmArm d n v s
  | .alarmDisarm d n => Sys2Proof.Machine.execAlarmDisarm d n s
  | .alarmFire d n => Sys2Proof.Machine.execAlarmFire d n s
  | .snapshotWriteDone d => Sys2Proof.Machine.execSnapshotWriteDone d s
  | .beatLaunch t => Sys2Proof.Machine.execBeatLaunch t s
  | .release p group epoch relBeat => Sys2Proof.Machine.execRelease p group epoch relBeat s
  | .beatRelease group epoch => Sys2Proof.Machine.execBeatRelease group epoch s
  | .signalDetect p => Sys2Proof.Machine.execSignalDetect p s
  | .trainDone p => Sys2Proof.Machine.execTrainDone p s
  | .trainTimeout p unlocked => Sys2Proof.Machine.execTrainTimeout p unlocked s
  | .lockAcquired l => Sys2Proof.Machine.execLockAcquired l s
  | .param p m => Sys2Proof.Machine.execParam p m s
  | .mismatchRetry p => Sys2Proof.Machine.execMismatchRetry p s
  | .laneSignalLoss g l => Sys2Proof.Machine.execLaneSignalLoss g l s
  | .laneErrWindow g lane => Sys2Proof.Machine.execLaneErrWindow g lane s
  | .width p accept newWidth clean => Sys2Proof.Machine.execWidth p accept newWidth clean s
  | .retrainDone l => Sys2Proof.Machine.execRetrainDone l s
  | .lnkGroupReset g on => Sys2Proof.Machine.execLnkGroupReset g on s
  | .flitReceive p w => Sys2Proof.Machine.execFlitReceive p w s
  | .replay p ackSeq => Sys2Proof.Machine.execReplay p ackSeq s
  | .creditAll p counts => Sys2Proof.Machine.execCreditAll p counts s
  | .packetForward p pkt => Sys2Proof.Machine.execPacketForward p pkt s
  | .memReadReq p pkt ecc => Sys2Proof.Machine.execMemReadReq p pkt ecc s
  | .memReadResp p pkt => Sys2Proof.Machine.execMemReadResp p pkt s
  | .memWrite p pkt => Sys2Proof.Machine.execMemWrite p pkt s
  | .memWriteAcked p pkt => Sys2Proof.Machine.execMemWriteAcked p pkt s
  | .memStatus p pkt => Sys2Proof.Machine.execMemStatus p pkt s
  | .doorbell p pkt => Sys2Proof.Machine.execDoorbell p pkt s
  | .completion p pkt => Sys2Proof.Machine.execCompletion p pkt s
  | .contribution p sop pkt => Sys2Proof.Machine.execContribution p sop pkt s
  | .contributionFlit p sop bytes => Sys2Proof.Machine.execContributionFlit p sop bytes s
  | .contributionConfirm p sop => Sys2Proof.Machine.execContributionConfirm p sop s
  | .contributionFail p sop => Sys2Proof.Machine.execContributionFail p sop s
  | .roundingDone k => Sys2Proof.Machine.execRoundingDone k s
  | .collPartial p pkt => Sys2Proof.Machine.execCollPartial p pkt s
  | .collResult p pkt => Sys2Proof.Machine.execCollResult p pkt s
  | .collAck p pkt => Sys2Proof.Machine.execCollAck p pkt s
  | .retainExpire k => Sys2Proof.Machine.execRetainExpire k s
  | .resendTimeout k child => Sys2Proof.Machine.execResendTimeout k child s
  | .contextTimeout k => Sys2Proof.Machine.execContextTimeout k s
  | .colGrpReset d group => Sys2Proof.Machine.execColGrpReset d group s
  | .resetGuardEnd group => Sys2Proof.Machine.execResetGuardEnd group s
  | .faultSummary p pkt => Sys2Proof.Machine.execFaultSummary p pkt s
  | .tableReq p pkt ecc => Sys2Proof.Machine.execTableReq p pkt ecc s
  | .tableGatherRead k src ecc => Sys2Proof.Machine.execTableGatherRead k src ecc s
  | .tableResp p pkt => Sys2Proof.Machine.execTableResp p pkt s
  | .dispatchRows p pkt => Sys2Proof.Machine.execDispatchRows p pkt s
  | .combineRows p pkt => Sys2Proof.Machine.execCombineRows p pkt s
  | .mgmt p pkt => Sys2Proof.Machine.execMgmt p pkt s
  | .ethFrame p pkt => Sys2Proof.Machine.execEthFrame p pkt s
  | .ethFrameRx p frame fcsOk => Sys2Proof.Machine.execEthFrameRx p frame fcsOk s
  | .pfcFrameRx p prio quanta => Sys2Proof.Machine.execPfcFrameRx p prio quanta s
  | .pfcPauseSend p vc => Sys2Proof.Machine.execPfcPauseSend p vc s
  | .adpWrStart d g q => Sys2Proof.Machine.execAdpWrStart d g q s
  | .adpRetry g q tag => Sys2Proof.Machine.execAdpRetry g q tag s
  | .adpCompletionWrite g q => Sys2Proof.Machine.execAdpCompletionWrite g q s
  | .packetSelect p => Sys2Proof.Machine.execPacketSelect p s
  | .ageDrop p sel => Sys2Proof.Machine.execAgeDrop p sel s
  | .escapeMove p sel => Sys2Proof.Machine.execEscapeMove p sel s
  | .shaperTick => Sys2Proof.Machine.execShaperTick s
  | .flushEnd p => Sys2Proof.Machine.execFlushEnd p s
  | .d2dPathMove a b => Sys2Proof.Machine.execD2dPathMove a b s
  | .d2dLinkUp d peer => Sys2Proof.Machine.execD2dLinkUp d peer s
  | .d2dLinkTimeout d peer => Sys2Proof.Machine.execD2dLinkTimeout d peer s
  | .telWindowEnd => Sys2Proof.Machine.execTelWindowEnd s
  | .telBlockWriteDone d ok => Sys2Proof.Machine.execTelBlockWriteDone d ok s
  | .telRingConfigWrite d blocks v => Sys2Proof.Machine.execTelRingConfigWrite d blocks v s
  | .congMapClose => Sys2Proof.Machine.execCongMapClose s
  | .blockReturn d ptr unit owner => Sys2Proof.Machine.execBlockReturn d ptr unit owner s
  | .creditGrant p vc => Sys2Proof.Machine.execCreditGrant p vc s
  | .parkedOffer c => Sys2Proof.Machine.execParkedOffer c s
  | .retainRetry k => Sys2Proof.Machine.execRetainRetry k s
  | .spillPass k => Sys2Proof.Machine.execSpillPass k s
  | .laneSteal c lane => Sys2Proof.Machine.execLaneSteal c lane s
  | .segmentDone c lane => Sys2Proof.Machine.execSegmentDone c lane s
  | .threadStart t pc => Sys2Proof.Machine.execThreadStart t pc s
  | .threadStop t => Sys2Proof.Machine.execThreadStop t s
  | .threadPendingRun t => Sys2Proof.Machine.execThreadPendingRun t s
  | .wordSkip t hdr => Sys2Proof.Machine.execWordSkip t hdr s
  | .wordEmpty t hdr => Sys2Proof.Machine.execWordEmpty t hdr s
  | .wordMalformed t hdr => Sys2Proof.Machine.execWordMalformed t hdr s
  | .slotReservedOp sc kind op x => Sys2Proof.Machine.execSlotReservedOp sc kind op x s
  | .cset sc x => Sys2Proof.Machine.execCset sc x s
  | .csethi sc x => Sys2Proof.Machine.execCsethi sc x s
  | .cadd sc x => Sys2Proof.Machine.execCadd sc x s
  | .caddi sc x => Sys2Proof.Machine.execCaddi sc x s
  | .cmuli sc x => Sys2Proof.Machine.execCmuli sc x s
  | .cshl sc x => Sys2Proof.Machine.execCshl sc x s
  | .cshr sc x => Sys2Proof.Machine.execCshr sc x s
  | .cmpset sc x => Sys2Proof.Machine.execCmpset sc x s
  | .cmprun sc x => Sys2Proof.Machine.execCmprun sc x s
  | .setvl sc x => Sys2Proof.Machine.execSetvl sc x s
  | .jmp sc x => Sys2Proof.Machine.execJmp sc x s
  | .jmpc sc x => Sys2Proof.Machine.execJmpc sc x s
  | .waitobj sc x => Sys2Proof.Machine.execWaitobj sc x s
  | .waitbeat sc x => Sys2Proof.Machine.execWaitbeat sc x s
  | .waitcnt sc x => Sys2Proof.Machine.execWaitcnt sc x s
  | .waitTimeout t => Sys2Proof.Machine.execWaitTimeout t s
  | .signal sc x => Sys2Proof.Machine.execSignal sc x s
  | .launch sc x => Sys2Proof.Machine.execLaunch sc x s
  | .desc sc x => Sys2Proof.Machine.execDesc sc x s
  | .sync sc x => Sys2Proof.Machine.execSync sc x s
  | .syncPublish t => Sys2Proof.Machine.execSyncPublish t s
  | .halt sc x => Sys2Proof.Machine.execHalt sc x s
  | .cqhead sc x => Sys2Proof.Machine.execCqhead sc x s
  | .vld sc x => Sys2Proof.Machine.execVld sc x s
  | .vst sc x => Sys2Proof.Machine.execVst sc x s
  | .ldc sc x => Sys2Proof.Machine.execLdc sc x s
  | .stc sc x => Sys2Proof.Machine.execStc sc x s
  | .copy sc x ecc => Sys2Proof.Machine.execCopy sc x ecc s
  | .coll sc x => Sys2Proof.Machine.execColl sc x s
  | .vadd sc second x => Sys2Proof.Machine.execVadd sc second x s
  | .vmul sc second x => Sys2Proof.Machine.execVmul sc second x s
  | .vfma sc second x => Sys2Proof.Machine.execVfma sc second x s
  | .vmin sc second x => Sys2Proof.Machine.execVmin sc second x s
  | .vmax sc second x => Sys2Proof.Machine.execVmax sc second x s
  | .vcmp sc second x => Sys2Proof.Machine.execVcmp sc second x s
  | .vsel sc second x => Sys2Proof.Machine.execVsel sc second x s
  | .vred sc second x => Sys2Proof.Machine.execVred sc second x s
  | .rsum sc sat x => Sys2Proof.Machine.execRsum sc sat x s
  | .rmin sc sat x => Sys2Proof.Machine.execRmin sc sat x s
  | .rmax sc sat x => Sys2Proof.Machine.execRmax sc sat x s
  | .rand sc sat x => Sys2Proof.Machine.execRand sc sat x s
  | .ror sc sat x => Sys2Proof.Machine.execRor sc sat x s
  | .rxor sc sat x => Sys2Proof.Machine.execRxor sc sat x s
  | .rargmin sc sat x => Sys2Proof.Machine.execRargmin sc sat x s
  | .rargmax sc sat x => Sys2Proof.Machine.execRargmax sc sat x s
  | .mma sc x => Sys2Proof.Machine.execMma sc x s
  | .mmac sc x => Sys2Proof.Machine.execMmac sc x s
  | .mmaf sc x => Sys2Proof.Machine.execMmaf sc x s
  | .mmacf sc x => Sys2Proof.Machine.execMmacf sc x s
  | .tileFeedSend t => Sys2Proof.Machine.execTileFeedSend t s
  | .senc sc x => Sys2Proof.Machine.execSenc sc x s
  | .sdec sc x => Sys2Proof.Machine.execSdec sc x s
  | .sgather sc x => Sys2Proof.Machine.execSgather sc x s
  | .sscatterAdd sc x => Sys2Proof.Machine.execSscatterAdd sc x s
  | .sort sc x => Sys2Proof.Machine.execSort sc x s
  | .merge sc x => Sys2Proof.Machine.execMerge sc x s
  | .topk sc x => Sys2Proof.Machine.execTopk sc x s
  | .filter sc x => Sys2Proof.Machine.execFilter sc x s
  | .asyncComplete c q => Sys2Proof.Machine.execAsyncComplete c q s
  | .cqEntryWrite t => Sys2Proof.Machine.execCqEntryWrite t s
  | .coreCtrlReset c on => Sys2Proof.Machine.execCoreCtrlReset c on s
  | .hbmScrubRead st pc ecc => Sys2Proof.Machine.execHbmScrubRead st pc ecc s
  | .rmemScrubRead c rm ws => Sys2Proof.Machine.execRmemScrubRead c rm ws s
  | .hbmErrWindow st pc => Sys2Proof.Machine.execHbmErrWindow st pc s
  | .hbmGroupClearDone st g => Sys2Proof.Machine.execHbmGroupClearDone st g s
  | .hbmTrainDone st ok => Sys2Proof.Machine.execHbmTrainDone st ok s
  | .hbmInitDone st => Sys2Proof.Machine.execHbmInitDone st s
  | .faultReport d block inst bit unit reporter detail => Sys2Proof.Machine.execFaultReport d block inst bit unit reporter detail s
  | .peerSilence p => Sys2Proof.Machine.execPeerSilence p s
  | .noticeSend d unit => Sys2Proof.Machine.execNoticeSend d unit s
  | .noticeWindowClose d unit => Sys2Proof.Machine.execNoticeWindowClose d unit s
  | .summarySend => Sys2Proof.Machine.execSummarySend s
  | .quietEnd d unit => Sys2Proof.Machine.execQuietEnd d unit s
  | .unitCheckDone d unit ok => Sys2Proof.Machine.execUnitCheckDone d unit ok s
  | .recoveryDecay d unit => Sys2Proof.Machine.execRecoveryDecay d unit s
  | .fltClearClear d unit => Sys2Proof.Machine.execFltClearClear d unit s
  | .fltClearFence d unit => Sys2Proof.Machine.execFltClearFence d unit s
  | .fltClearForget d unit => Sys2Proof.Machine.execFltClearForget d unit s
  | .fltClearReserved d cmd unit => Sys2Proof.Machine.execFltClearReserved d cmd unit s
  | .injectArm d v => Sys2Proof.Machine.execInjectArm d v s
  | .injectFire d => Sys2Proof.Machine.execInjectFire d s
  | .hartRun v => Sys2Proof.Machine.execHartRun v s
  | .hartCpEccError h addr => Sys2Proof.Machine.execHartCpEccError h addr s
  | .llcCarWrite => Sys2Proof.Machine.execLlcCarWrite s
  | .mgmtTx tail => Sys2Proof.Machine.execMgmtTx tail s
  | .mgmtEthRx k frame fcsOk => Sys2Proof.Machine.execMgmtEthRx k frame fcsOk s
  | .mgmtEthPauseRx k quanta => Sys2Proof.Machine.execMgmtEthPauseRx k quanta s
  | .mgmtEthTx k tail => Sys2Proof.Machine.execMgmtEthTx k tail s
  | .spiCmd v => Sys2Proof.Machine.execSpiCmd v s
  | .spiCmdDone data => Sys2Proof.Machine.execSpiCmdDone data s
  | .uartTxWrite b => Sys2Proof.Machine.execUartTxWrite b s
  | .uartRxByte b => Sys2Proof.Machine.execUartRxByte b s
  | .uartDataRead => Sys2Proof.Machine.execUartDataRead s
  | .i3cIndexWrite who => Sys2Proof.Machine.execI3cIndexWrite who s
  | .i3cRead n => Sys2Proof.Machine.execI3cRead n s
  | .resetReq b => Sys2Proof.Machine.execResetReq b s
  | .i3cDynAddr a => Sys2Proof.Machine.execI3cDynAddr a s
  | .extest scan => Sys2Proof.Machine.execExtest scan s
  | .samplePreload scan => Sys2Proof.Machine.execSamplePreload scan s
  | .idcode => Sys2Proof.Machine.execIdcode s
  | .regAccess dr => Sys2Proof.Machine.execRegAccess dr s
  | .coreDebug dr => Sys2Proof.Machine.execCoreDebug dr s
  | .bypass code => Sys2Proof.Machine.execBypass code s
  | .wdogKick w => Sys2Proof.Machine.execWdogKick w s
  | .wdogExpire w => Sys2Proof.Machine.execWdogExpire w s
  | .verify ecc => Sys2Proof.Machine.execVerify ecc s
  | .extend ecc => Sys2Proof.Machine.execExtend ecc s
  | .quote => Sys2Proof.Machine.execQuote s
  | .bootDone => Sys2Proof.Machine.execBootDone s
  | .advanceSvn => Sys2Proof.Machine.execAdvanceSvn s
  | .revokeKey => Sys2Proof.Machine.execRevokeKey s
  | .advanceLifecycle => Sys2Proof.Machine.execAdvanceLifecycle s
  | .fuseProgram ecc => Sys2Proof.Machine.execFuseProgram ecc s
  | .secCmdReserved op => Sys2Proof.Machine.execSecCmdReserved op s
  | .secCmdDone => Sys2Proof.Machine.execSecCmdDone s
  | .newChallenge => Sys2Proof.Machine.execNewChallenge s
  | .submit => Sys2Proof.Machine.execSubmit s
  | .relock => Sys2Proof.Machine.execRelock s
  | .railStep step => Sys2Proof.Machine.execRailStep step s
  | .railFault who => Sys2Proof.Machine.execRailFault who s
  | .throttleWindow m => Sys2Proof.Machine.execThrottleWindow m s
  | .thermtrip d t => Sys2Proof.Machine.execThermtrip d t s
  | .powerOnReset => Sys2Proof.Machine.execPowerOnReset s
  | .powerOnResetRelease straps => Sys2Proof.Machine.execPowerOnResetRelease straps s
  | .warmResetN => Sys2Proof.Machine.execWarmResetN s
  | .pwrResetCtrlWrite v => Sys2Proof.Machine.execPwrResetCtrlWrite v s
  | .remoteRetry t tag => Sys2Proof.Machine.execRemoteRetry t tag s
  | .mgmtEthLinkChange k st => Sys2Proof.Machine.execMgmtEthLinkChange k st s
  | .uartTxByte => Sys2Proof.Machine.execUartTxByte s
  | .pfcPauseExpire p prio => Sys2Proof.Machine.execPfcPauseExpire p prio s
  | .mgmtEthPauseExpire k => Sys2Proof.Machine.execMgmtEthPauseExpire k s
  | .hbmTempReport st t => Sys2Proof.Machine.execHbmTempReport st t s

end Sys2Proof.Machine
end

