-- ==== Sys2Proof/Machine/Tick.lean ====
section
/-! DEFINITION. The end of a beat, which a step takes when no command waits (DESIGN CHOICE, log 61): the work that a beat does
whatever is commanded, the count's advance (R24, R151), and the events that fall on the new beat, in the order of R153. -/

namespace Sys2Proof.Machine

/-! ### The work of the beat that ends -/

/-- Frequency steering takes out at most 1/256 beat in 64 beats (R138). -/
def Dev.steerTick (s : Dev) : Dev :=
  let v := s.time.steer
  if (s.ticks + 1) % 64 ≠ 0 ∨ v = 0 then s
  else { s with time := { s.time with steer := if v < 0 then v + 1 else v - 1 } }

/-- Answers that the device owes itself end their transactions (R255, R283). -/
def Dev.takeOwnAnswers (s : Dev) : Dev := s.ownAnswers.foldl Dev.serveStatus { s with ownAnswers := [] }

/-- Beats throttled (R791, R803), transactions that wait for a tag (R213), waiting packets tried again (R361), answers to this device's
own requests (R255), barrier arrivals that may go (R438), results whose last copy has been dropped (R416), management slots and descriptors (R740, R743), debug tokens (R761), the counts of DISPATCH chunks whose slots have left (R536), lost DISPATCH chunks
replayed (R542), pseudo-channels at their limit (R667), the
levels and minima of the regions that the beat has touched (R348, R374), and the heads that stand without credit (R276). -/
def Dev.endBeat (s : Dev) : Dev :=
  let s := if s.pwr.level = 0 then s else s.count (pwrPg + 0x178)
  let s := if s.fatal then s else (s.tagWaiting.retryInside s.stalled.length).retryStalled.takeOwnAnswers.sendBarriers.beatBarriers.tryAcks.sendAllCounts.replayRoutes
  let s := Dev.mgmtTxRun s.mgmtTxWaiting s
  let s := (Dev.checkTokens s.sec.jobs.length s).ethTx 0
  (s.ethTx 1).pcLimits.settleRegions.watchHeads.steerTick

/-- The next beat: the count wraps at 2^64, and elapsed ticks do not depend on steps of the count. -/
def Dev.nextBeat (s : Dev) : Dev := { s.endBeat with beat := s.beat + 1, ticks := s.ticks + 1, lostNow := [] }

/-! ### The events of a beat (R153) -/

/-- Alarms that fire at this beat, by kind, in ascending die and number. -/
def Dev.alarmsNow (s : Dev) (kind : Nat → Bool) : List Instr :=
  let due := s.alarms.filter fun a => a.atBeat == s.beat && kind a.kind
  (sortBy (fun (a b : Alarm) => decide (a.die * 64 + a.n < b.die * 64 + b.n)) due).map fun a =>
    .alarmFire (Fin.ofNat 4 a.die) (Fin.ofNat 64 a.n)

/-- The molt of this beat, and the ends of HOLD and of the retiring instar. -/
def Dev.moltNow (s : Dev) : List Instr :=
  let due := match s.molt with | some m => decide (m.beat ≤ s.beat) | none => false
  (if due then [.molt] else []) ++ (if due || s.insState == 2 then [.holdEnd] else [])
    ++ (if s.retiring.isSome then [.retireRelease] else [])

/-- Threads whose launch or wait names a beat that has come. -/
def Dev.launchesNow (s : Dev) : List Instr :=
  (s.threads.filter fun x =>
    let byLaunch := match x.2.launchAt with | some b => decide (b ≤ s.beat) | none => false
    let byWait := match x.2.wait with
      | some w => (match w.on with | .beat b => decide (b ≤ s.beat) | _ => false)
      | none => false
    byLaunch || byWait).map fun x => .beatLaunch (Fin.ofNat 4096 x.1)

/-- Barrier releases whose beat has come. -/
def Dev.releasesNow (s : Dev) : List Instr :=
  (s.releases.filter fun r => decide (r.beat ≤ s.beat)).map fun r => .beatRelease r.group r.epoch

/-- Lane windows that end (R187); a lane that has counted nothing needs none. -/
def Dev.laneWindowsNow (s : Dev) : List Instr :=
  (s.laneErr.filter fun x => s.windowEnds (x.1 / 8) (x.1 % 8)).map fun x => .laneErrWindow (Fin.ofNat 64 (x.1 / 8)) (Fin.ofNat 8 (x.1 % 8))

/-- What falls on the beat the state stands at: the steps of R153, then lane windows, the shapers' gain and an injection whose
beat has come. A telemetry window has at least 256 beats, and which of them ends is judged after the beat's molt. -/
def Dev.dueCommands (s : Dev) : List Instr :=
  s.alarmsNow (· == 3) ++ s.moltNow ++ s.alarmsNow (fun k => k != 1 && k != 2 && k != 3) ++ s.alarmsNow (fun k => k == 1 || k == 2)
    ++ s.launchesNow ++ s.releasesNow
    ++ (if s.beat.toNat % 256 = 0 then [.telWindowEnd] else [])
    ++ (if s.beat.toNat % 4096 = 0 then [.congMapClose] else [])
    ++ s.laneWindowsNow ++ [.shaperTick]
    ++ (List.range 4).filterMap fun d =>
      match (s.collector d).inj with
      | some (_, b, _, _) => if b ≤ s.beat then some (.injectFire (Fin.ofNat 4 d)) else none
      | none => none

/-- The end of a beat. While PWR_ON_RESET_N is low no beat passes (R112). -/
def tick (s : State) : Host.Outcome State Fault Refusal :=
  if s.pwr.porLow then .next s
  else
    let d := settle s.toDev.nextBeat
    .next { toDev := d, pending := d.dueCommands }

end Sys2Proof.Machine
end

