-- ==== Sys2Proof/Safety.lean ====
section
/-! DEFINITION. What claims about runs are stated in: the outcome of a step, the form in which registers and memory are kept,
the invariant of the signals, and what a command leaves unchanged. -/

namespace Sys2Proof.Machine

/-- The step went on. -/
def ok : Host.Outcome State Fault Refusal → Bool
  | .next _ => true
  | .fault _ => false
  | .refused _ => false

/-- The state a step went to; the given one where it stopped. -/
def after (s : State) : Host.Outcome State Fault Refusal → State
  | .next t => t
  | .fault _ => s
  | .refused _ => s

/-- Register files and memories are in canonical form (R69, R672): equal contents are equal data. -/
def Dev.canonical (s : Dev) : Bool :=
  s.live.wf && s.latches.wf && s.staged.wf && s.active.wf && s.mem.wf && s.ctl.llc.wf && s.ctl.flash.wf

/-- The driven signals are those that the registers call for (R736, R746, R785). -/
def Dev.driven (s : Dev) : Prop := s.sig = s.signalsNow

/-! ### Frames -/

/-- Every live register but those listed holds what it held. -/
def sameRegs (as : List Nat) (s t : State) : Prop := ∀ a, a ∉ as → RegFile.get t.live a = RegFile.get s.live a

/-- Every field of a live register that lies outside bits `hi:lo` holds what it held. -/
def sameBits (a hi lo : Nat) (s t : State) : Prop := ∀ h l, h < lo ∨ hi < l → t.lv a h l = s.lv a h l

/-- The in-band interrupt of a HEALTH bit that has risen (R747). -/
def risen (s t : State) : List Emit :=
  if t.sig.health &&& ~~~s.sig.health ≠ 0 then [.ibi t.sig.health] else []

/-- The signals follow the registers, and `l` has left the device, with an in-band interrupt where a HEALTH bit has risen. -/
def sends (l : List Emit) (s t : State) : Prop := t.driven ∧ t.sent = s.sent ++ l ++ risen s t

/-- Nothing but live registers has changed, of these only the listed ones, and `l` has left the device. -/
def onlyRegs (as : List Nat) (l : List Emit) (s t : State) : Prop :=
  t = { s with live := t.live, sent := t.sent, sig := t.sig } ∧ sameRegs as s t ∧ sends l s t

/-- Nothing has changed, and nothing but an in-band interrupt that was due has left the device. -/
def unchanged (s t : State) : Prop := t = { s with sent := t.sent, sig := t.sig } ∧ sends [] s t

/-- Nothing but one field of one live register has changed; it holds `v`. -/
def setsField (a hi lo v : Nat) (s t : State) : Prop :=
  onlyRegs [a] [] s t ∧ sameBits a hi lo s t ∧ t.lv a hi lo = v

/-- The counter at an address has counted one more, up to its largest value (R52, R121). -/
def countsOne (a : Nat) (s t : State) : Prop := t.lv a 63 0 = min (s.lv a 63 0 + 1) (2 ^ 64 - 1)

end Sys2Proof.Machine
end

