-- ==== Sys2Proof/Certificates/Slice0/Obligations.lean ====
section
/-! DEFINITION. The statements for the provers. Each docstring names the rules of spec/ that a statement formalises, and where a
clause rests on a choice of the model's own, the log entry. -/

open Sys2Proof Sys2Proof.Machine

/-- The device has become `d`, its signals driven. -/
def Sys2Proof.Machine.became (d : Dev) (s t : State) : Prop := t = { s with toDev := settle d }

/-! ### The step, the queue and the signals -/

/-- A step takes the command at the front and runs it on the rest of the queue. -/
def Obligations.StepRunsFrontCommand : Prop :=
  ∀ (s : State) (c : Instr), step { s with pending := c :: s.pending } = exec c s

/-- With no command waiting, the beat ends: nothing happens while PWR_ON_RESET_N is low; otherwise the count and the elapsed
ticks advance by one and what falls on the new beat is queued (R24, R151, R153; the model's choice, log 61). -/
def Obligations.EmptyQueueEndsBeat : Prop :=
  ∀ s : State, s.pending = [] →
    (s.pwr.porLow = true → step s = .next s) ∧
    (s.pwr.porLow = false →
      ∃ t, step s = .next t ∧ t.beat = s.beat + 1 ∧ t.ticks = s.ticks + 1 ∧ t.pending = t.dueCommands ∧ t.driven)

/-- Every command answers a next state, leaves the waiting commands as they are, and drives the signals of R736, R746 and R785. -/
def Obligations.EveryCommandCompletes : Prop :=
  ∀ (c : Instr) (s : State), ∃ t, exec c s = .next t ∧ t.pending = s.pending ∧ t.driven

/-- Every step keeps the signals those that the registers call for: HEALTH (R746), CTL_IRQ_PEND and the interrupt lines (R736)
and FATAL_N (R785). -/
def Obligations.StepKeepsSignalsDriven : Prop :=
  ∀ s t : State, s.driven → step s = .next t → t.driven

/-- Right after power-on reset: instar 0 is active, number 0, with no previous or retiring instar, STATE reads IDLE (R83,
R121), the count is 0 and the device FREE and not aligned (R130), memory reads zero (R672), no command waits, the signals are
driven and every file is in canonical form. -/
def Obligations.ResetState : Prop :=
  State.reset.number = 0 ∧ State.reset.previous = none ∧ State.reset.retiring = none ∧ State.reset.molt = none ∧
  State.reset.insState = 0 ∧ State.reset.beat = 0 ∧ State.reset.bState = bsFree ∧ State.reset.aligned = false ∧
  State.reset.fatal = false ∧ State.reset.pending = [] ∧ State.reset.driven ∧ State.reset.canonical = true ∧
  (∀ a, Memory.read State.reset.mem a = 0) ∧
  ∀ a, RegFile.get State.reset.active a = resetWord a ∧ RegFile.get State.reset.staged a = resetWord a

/-! ### Molts -/

/-- The molt was armed: what the arm sampled is held, STATE reads ARMED, and nothing else has changed. -/
def Sys2Proof.Machine.armed (beat : BitVec 64) (timed rollback drained : Bool) (s t : State) : Prop :=
  t = { s with molt := some { beat := beat, drained := drained, rollback := rollback, timed := timed },
               live := t.live, sent := t.sent, sig := t.sig } ∧
  sameRegs [insPg + 0x108] s t ∧ sameBits (insPg + 0x108) 2 0 s t ∧ t.insState = 1 ∧ sends [] s t

/-- The device can be armed: it is not FATAL, STATE is neither ARMED nor HOLD, and the number has not run out. -/
def Sys2Proof.Machine.armable (s : State) : Prop := s.fatal = false ∧ s.insState ≠ 1 ∧ s.insState ≠ 2 ∧ s.number ≠ 0xFFFFFFFF

/-- An arm command by its two traits. -/
def Sys2Proof.Machine.armCommand (timed rollback drained : Bool) : Instr :=
  match timed, rollback with
  | true, false => .arm drained
  | false, false => .armNow drained
  | true, true => .rollbackArm drained
  | false, true => .rollbackNow drained

/-- An arm command that meets no refusal arms the molt: at INS_MOLT_BEAT, sampled now, when it is beat-timed, at the current beat
plus 1,024 otherwise, whatever the alignment (R91, R94).
The first refusal that an arm command meets, in the order of R807, is all that it does: MALFORMED_CMD for a reserved CMD,
REFUSED_FATAL, REFUSED_BUSY, REFUSED_WRAPPED, REFUSED_NO_PREVIOUS, REFUSED_NOT_ALIGNED and REFUSED_LATE.
CANCEL in state ARMED cancels the molt with CANCELLED, STATE reading RETIRE while a retiring instar exists and IDLE
otherwise; in any other state it has no effect (R96). -/
def Obligations.ArmAndCancelCommands : Prop :=
  (
    ∀ (s : State) (drained : Bool), armable s →
      let b : BitVec 64 := RegFile.get s.live (insPg + 0x110)
      (s.aligned = true → s.beat.toNat + 1024 ≤ b.toNat →
        ∃ t, exec (.arm drained) s = .next t ∧ armed b true false drained s t) ∧
      (∃ t, exec (.armNow drained) s = .next t ∧ armed (s.beat + 1024) false false drained s t) ∧
      (s.previous.isSome → s.aligned = true → s.beat.toNat + 1024 ≤ b.toNat →
        ∃ t, exec (.rollbackArm drained) s = .next t ∧ armed b true true drained s t) ∧
      (s.previous.isSome → ∃ t, exec (.rollbackNow drained) s = .next t ∧ armed (s.beat + 1024) false true drained s t)) ∧
  (
    ∀ (s : State) (timed rollback drained seven : Bool) (c : Instr), c = armCommand timed rollback drained →
      let refused := fun (r : Nat) (c : Instr) => ∃ t, exec c s = .next t ∧ setsField (insPg + 0x108) 15 8 r s t
      let free := s.fatal = false ∧ s.insState ≠ 1 ∧ s.insState ≠ 2
      let beat := (RegFile.get s.live (insPg + 0x110)).toNat
      refused 0x0A (.malformedCmd seven) ∧
      (s.fatal = true → refused 0x0B c) ∧
      (s.fatal = false → s.insState = 1 ∨ s.insState = 2 → refused 0x08 c) ∧
      (free → s.number = 0xFFFFFFFF → refused 0x09 c) ∧
      (armable s → rollback = true → s.previous = none → refused 0x07 c) ∧
      (armable s → (rollback = true → s.previous ≠ none) → timed = true → s.aligned = false →
        ∃ t, exec c s = .next t ∧ onlyRegs [insPg + 0x108, beatPg 0 + 0x1A0] [] s t ∧ sameBits (insPg + 0x108) 15 8 s t ∧
          t.lv (insPg + 0x108) 15 8 = 0x06) ∧
      (armable s → (rollback = true → s.previous ≠ none) → timed = true → s.aligned = true → beat < s.beat.toNat + 1024 →
        refused 0x05 c)) ∧
  (
    ∀ s : State,
      (s.insState = 1 →
        ∃ t, exec .cancel s = .next t ∧ t = { s with molt := none, live := t.live, sent := t.sent, sig := t.sig } ∧
          sameRegs [insPg + 0x108] s t ∧ t.insState = (if s.retiring.isSome then 3 else 0) ∧
          t.lv (insPg + 0x108) 15 8 = 0x04 ∧ (∀ h l, 15 < l ∨ h < 8 ∧ 2 < l → t.lv (insPg + 0x108) h l = s.lv (insPg + 0x108) h l) ∧
          sends [] s t) ∧
      (s.insState ≠ 1 → ∃ t, exec .cancel s = .next t ∧ unchanged s t))

/-- At a molt the staged content becomes active under the next number and the former active instar becomes previous; a rollback
takes the previous content and leaves the staged content equal to it; one audit record is appended; the count does not move
(R85, R86, R113). A molt whose beat has not come does nothing. -/
def Obligations.MoltTakesStagedOrPrevious : Prop :=
  ∀ (s : State) (m : MoltSt), s.molt = some m →
    (s.beat < m.beat → ∃ t, exec .molt s = .next t ∧ unchanged s t) ∧
    (m.beat ≤ s.beat →
      let content := match (if m.rollback then s.previous else none) with | some i => i.content | none => s.staged
      ∃ t, exec .molt s = .next t ∧ t.number = s.number + 1 ∧ t.active = content ∧ t.staged = content ∧
        t.previous = some { number := s.number, content := s.active } ∧ t.audit.length = s.audit.length + 1 ∧
        (t.audit.take s.audit.length = s.audit) ∧ t.beat = s.beat ∧ t.ticks = s.ticks ∧ t.latches = s.latches)

/-- The retiring instar is released once its time has come and STATE is not HOLD, and STATE leaves RETIRE with it; before that
nothing happens (R103).
Leaving HOLD changes neither the instars nor the count; it waits while old-tagged traffic is left and the drain limit has not
passed, while FATAL, and in any state but HOLD (R102, R720). -/
def Obligations.RetireAndHoldEnd : Prop :=
  (
    ∀ (s : State) (i : Instar) (at_ : Nat), s.retiring = some (i, at_) →
      (s.insState ≠ 2 → at_ ≤ s.ticks →
        ∃ t, exec .retireRelease s = .next t ∧ t.retiring = none ∧ (s.insState = 3 → t.insState = 0) ∧
          t.active = s.active ∧ t.staged = s.staged ∧ t.number = s.number ∧ t.previous = s.previous) ∧
      (s.insState = 2 ∨ s.ticks < at_ → ∃ t, exec .retireRelease s = .next t ∧ unchanged s t)) ∧
  (
    ∀ (s : State) (i : Instar) (at_ : Nat), s.retiring = some (i, at_) →
      (s.insState ≠ 2 ∨ s.fatal = true ∨ s.inflightOld ≠ 0 ∧ s.ticks < at_ →
        ∃ t, exec .holdEnd s = .next t ∧ unchanged s t) ∧
      (s.insState = 2 → s.fatal = false → s.inflightOld = 0 ∨ at_ ≤ s.ticks →
        ∃ t, exec .holdEnd s = .next t ∧ t.active = s.active ∧ t.staged = s.staged ∧ t.number = s.number ∧
          t.previous = s.previous ∧ t.retiring = s.retiring ∧ t.audit = s.audit ∧ t.beat = s.beat))

/-- INS_SIGN_CTRL.START latches the message (head, sequence, nonce), sets BUSY and joins the requests of the security engine, unless
a signature is under way; when the engine has served the requests before it and finished, the signature stands in INS_AUDIT_SIG
and STATE reads DONE, or FAILED. While another request is being served nothing happens (R119, R120, R761). -/
def Obligations.SigningLatchesTheMessage : Prop :=
  ∀ s : State,
    (s.signState ≠ 1 →
      ∃ t, exec .insSignStart s = .next t ∧
        t = { s with sec := { s.sec with signMsg := some (s.auditHead ++ leBytes 8 s.auditSeq ++ RegFile.bytes s.live (insPg + 0x280) 16),
                                         jobs := t.sec.jobs },
                     live := t.live, sent := t.sent, sig := t.sig } ∧
        sameRegs [insPg + 0x298] s t ∧ sameBits (insPg + 0x298) 1 0 s t ∧ t.signState = 1 ∧ sends [] s t ∧
        (s.sec.jobs = [] → t.jobNow = some .sign) ∧ (∃ a b, s.sec.jobs = a ++ b ∧ t.sec.jobs = a ++ (s.ticks, .sign) :: b)) ∧
    (s.signState = 1 → ∃ t, exec .insSignStart s = .next t ∧ unchanged s t) ∧
    (∀ ok, s.jobNow ≠ some .sign → ∃ t, exec (.insSignDone ok) s = .next t ∧ unchanged s t) ∧
    (∀ m, s.jobNow = some .sign → s.sec.signMsg = some m →
      (∃ t, exec (.insSignDone true) s = .next t ∧
        t = { s with sec := { s.sec with signMsg := none, jobs := s.sec.jobs.drop 1 }, live := t.live, sent := t.sent, sig := t.sig } ∧
        sameRegs ((insPg + 0x298) :: (List.range 15).map fun i => insPg + 0x300 + 8 * i) s t ∧
        RegFile.bytes t.live (insPg + 0x300) 120 = fit (edSign s.sec.secret m) 120 ∧
        sameBits (insPg + 0x298) 1 0 s t ∧ t.signState = 2 ∧ sends [] s t) ∧
      (∃ t, exec (.insSignDone false) s = .next t ∧
        t = { s with sec := { s.sec with signMsg := none, jobs := s.sec.jobs.drop 1 }, live := t.live, sent := t.sent, sig := t.sig } ∧
        sameRegs [insPg + 0x298] s t ∧ sameBits (insPg + 0x298) 1 0 s t ∧ t.signState = 3 ∧ sends [] s t))

/-! ### Fabric time -/

/-- BEAT_STATUS says: state, aligned, and the remaining fields as they were. -/
def Sys2Proof.Machine.entered (st : Nat) (s t : State) : Prop :=
  t.bState = st ∧ t.aligned = (st == bsAligned || st == bsHoldover) ∧
  t.time.good = 0 ∧ t.time.bad = 0 ∧ t.time.first = (st == bsAcquiring) ∧
  ∀ h l, 3 < l → t.lv bsAddr h l = s.lv bsAddr h l

/-- A write to BEAT_CTRL restarts alignment by its role (R132): ALIGNED at once for a plain reference, ACQUIRING for the others,
FREE for none, with upstream, hops and domain cleared. From a state that is not aligned nothing else changes; a device that
was aligned records ROLE_CHANGED (9) on its way to FREE or ACQUIRING, and a device without BEAT_REF enters LOST with REF_LOST (7). -/
def Obligations.RoleWriteRestartsAlignment : Prop :=
  ∀ (s : State) (v : BitVec 32),
    let role := v.toNat % 4
    let load := bit v.toNat 4
    let enters := fun (st : Nat) => ∃ t, exec (.beatCtrlRoleWrite v) s = .next t ∧
      t = { s with live := t.live, time := t.time, sent := t.sent, sig := t.sig } ∧ sameRegs [beatPg 0 + 0x110, bsAddr] s t ∧
      t.role = role ∧ t.loadOnSync = load ∧ t.bState = st ∧ t.aligned = (st == bsAligned) ∧ t.lv bsAddr 24 24 = 0 ∧
      t.lv bsAddr 11 8 = 0 ∧ t.lv bsAddr 47 32 = 0 ∧ t.lv bsAddr 19 16 = s.lv bsAddr 19 16 ∧ t.time.t1 = none ∧
      t.time.holdoverEnd = none ∧ sends [] s t
    (s.time.refLost = false → role = 1 → load = false → enters bsAligned) ∧
    (s.aligned = false → s.time.refLost = false → (role = 1 ∧ load = true ∨ role = 2 ∨ role = 3) → enters bsAcquiring) ∧
    (s.aligned = false → role = 0 → enters bsFree) ∧
    (s.aligned = true → (role = 0 ∨ s.time.refLost = false ∧ ¬ (role = 1 ∧ load = false)) →
      ∃ t, exec (.beatCtrlRoleWrite v) s = .next t ∧ t.lv bsAddr 19 16 = 9) ∧
    (s.aligned = false → role ≠ 0 → s.time.refLost = true →
      ∃ t, exec (.beatCtrlRoleWrite v) s = .next t ∧ t.bState = bsLost ∧ t.aligned = false ∧ t.lv bsAddr 19 16 = 7 ∧
        t.role = role ∧ countsOne (beatPg 0 + 0x170) s t)

/-- The registers that a report of one unit at the collector of die `d` may change, the unit's page being at `page`. -/
def Sys2Proof.Machine.reportRegs (d page : Nat) : List Nat :=
  [page + 0x18, fltPg d + 0x18, fltPg d + 0x100, fltPg d + 0x108, fltPg d + 0x110, fltPg d + 0x120, fltPg d + 0x130, fltPg d + 0x218]

/-- A load pulse that a device of a pin role accepts while ACQUIRING makes the count BEAT_SYNC_LOAD, resets the divider phase and
aligns the device; where the count differs it is a step, counted, and every armed alarm ends. It is not accepted while a molt
is armed if it would step, nor in another state or role, nor without BEAT_REF (R127, R128, R145, R146).
A check pulse within one beat of a multiple of the check period, or at a device that is not aligned, has no pin role, no
BEAT_REF or no valid period, changes nothing; another one sends the device, with no release held and no thread waiting, through
LOST with SYNC_MISMATCH (6) back to ACQUIRING (R128, R144). -/
def Obligations.PulsesLoadAndTestTheCount : Prop :=
  (
    ∀ s : State,
      let load := RegFile.get s.live (beatPg 0 + 0x118)
      (s.pinRole = false ∨ s.time.refLost = true ∨ s.bState ≠ bsAcquiring ∨ load ≠ s.beat ∧ s.insState = 1 →
        ∃ t, exec .loadPulse s = .next t ∧ unchanged s t) ∧
      (s.pinRole = true → s.time.refLost = false → s.bState = bsAcquiring → load = s.beat →
        ∃ t, exec .loadPulse s = .next t ∧ t = { s with live := t.live, time := t.time, sent := t.sent, sig := t.sig } ∧
          sameRegs [bsAddr] s t ∧ entered bsAligned s t ∧ t.time.phase = s.ticks ∧ t.time.steer = 0 ∧ sends [] s t) ∧
      (s.pinRole = true → s.time.refLost = false → s.bState = bsAcquiring → load ≠ s.beat → s.insState ≠ 1 →
        ∃ t, exec .loadPulse s = .next t ∧ t.beat = load ∧ t.ticks = s.ticks ∧ t.bState = bsAligned ∧ t.aligned = true ∧
          t.alarms = [] ∧ t.time.phase = s.ticks)) ∧
  (
    ∀ s : State,
      let r := s.beat.toNat % 2 ^ s.syncPeriod
      (s.pinRole = false ∨ s.time.refLost = true ∨ s.aligned = false ∨ s.syncPeriod = 0 ∨ r ≤ 1 ∨ r + 1 = 2 ^ s.syncPeriod →
        ∃ t, exec .checkPulse s = .next t ∧ unchanged s t) ∧
      (s.pinRole = true → s.time.refLost = false → s.aligned = true → s.syncPeriod ≠ 0 → 1 < r → r + 1 ≠ 2 ^ s.syncPeriod →
        s.releases = [] → s.threads = [] →
        ∃ t, exec .checkPulse s = .next t ∧ t.bState = bsAcquiring ∧ t.aligned = false ∧ t.lv bsAddr 19 16 = 6 ∧
          countsOne (beatPg 0 + 0x170) s t ∧ t.time.first = true ∧ t.alarms = s.alarms.filter (fun a => a.isLoc) ∧
          t.beat = s.beat))

/-- Losing BEAT_REF: ALIGNED goes to HOLDOVER for the holdover limit, ACQUIRING to LOST, with reason REF_LOST (7), a loss counted
and a DEGRADED fault of the BEAT unit; every other state stays. Its return ends HOLDOVER of a pin role or reference, and brings
LOST back: a plain reference to ALIGNED, a pin role to ACQUIRING (R129, R134, R143, R144).
The holdover limit ends HOLDOVER in LOST with reason HOLDOVER (8) when it has elapsed, and does nothing before (R134). -/
def Obligations.ReferenceLossAndHoldover : Prop :=
  (
    ∀ s : State,
      let frame := fun (t : State) =>
        t = { s with live := t.live, time := t.time, collectors := t.collectors, summary := t.summary, sent := t.sent, sig := t.sig } ∧
        sameRegs ([beatPg 0 + 0x170, bsAddr] ++ reportRegs 0 (beatPg 0)) s t ∧ sends [] s t
      let loses := fun (st : Nat) => ∃ t, exec .beatRefLoss s = .next t ∧ frame t ∧ t.time.refLost = true ∧ t.bState = st ∧
        t.lv bsAddr 19 16 = 7 ∧ countsOne (beatPg 0 + 0x170) s t ∧ t.lv (beatPg 0 + 0x18) 0 0 = 1
      let back := fun (st : Nat) => ∃ t, exec .beatRefReturn s = .next t ∧
        t = { s with live := t.live, time := t.time, sent := t.sent, sig := t.sig } ∧ sameRegs [bsAddr] s t ∧ entered st s t ∧
        t.time.refLost = false ∧ sends [] s t
      (s.time.refLost = true → ∃ t, exec .beatRefLoss s = .next t ∧ unchanged s t) ∧
      (s.time.refLost = false → s.bState = bsAligned → s.aligned = true → s.lv (beatPg 0 + 0x140) 31 0 ≠ 0 →
        loses bsHoldover ∧ ∃ t, exec .beatRefLoss s = .next t ∧ t.aligned = true ∧
          t.time.holdoverEnd = some (s.ticks + s.lv (beatPg 0 + 0x140) 31 0)) ∧
      (s.time.refLost = false → s.bState = bsAcquiring → s.aligned = false → loses bsLost) ∧
      (s.time.refLost = false → s.bState ≠ bsAligned → s.bState ≠ bsAcquiring →
        ∃ t, exec .beatRefLoss s = .next t ∧ t = { s with time := { s.time with refLost := true }, sent := t.sent, sig := t.sig } ∧
          sends [] s t) ∧
      (s.time.refLost = true → s.role = 1 ∨ s.role = 2 → s.bState = bsHoldover → back bsAligned) ∧
      (s.time.refLost = true → s.role = 2 → s.bState = bsLost → s.aligned = false → back bsAcquiring) ∧
      (s.time.refLost = true → s.role = 1 → s.loadOnSync = false → s.bState = bsLost → s.aligned = false → back bsAligned) ∧
      (s.time.refLost = true → s.role = 0 ∨ s.role = 3 →
        ∃ t, exec .beatRefReturn s = .next t ∧ t = { s with time := { s.time with refLost := false }, sent := t.sent, sig := t.sig } ∧
          sends [] s t)) ∧
  (
    ∀ (s : State) (at_ : Nat), s.time.holdoverEnd = some at_ →
      (s.bState ≠ bsHoldover ∨ s.ticks < at_ → ∃ t, exec .holdoverExpire s = .next t ∧ unchanged s t) ∧
      (s.bState = bsHoldover → at_ ≤ s.ticks → s.releases = [] → s.threads = [] →
        ∃ t, exec .holdoverExpire s = .next t ∧ t.bState = bsLost ∧ t.aligned = false ∧ t.lv bsAddr 19 16 = 8 ∧
          t.time.holdoverEnd = none ∧ countsOne (beatPg 0 + 0x170) s t ∧ t.beat = s.beat))

/-- The header of a CONTROL flit of a port: it has the port's next sequence number and acknowledges what the port has received (R195,
R201). -/
def Sys2Proof.Machine.ctlHdr (x : Port) (h : FlitHdr) : Prop :=
  h.ftype = 2 ∧ h.vc = 7 ∧ h.sop = false ∧ h.eop = false ∧ h.nak = false ∧ h.seq = x.txSeq ∧ h.ackSeq = x.ackSeq

/-- LNK_FLIT_TX_CNT of a port. -/
def Sys2Proof.Machine.txReg (p : Nat) : Nat := lnkPg (p / 8) + 0x200 + 0x40 * (p % 8)

/-- One CONTROL flit with one message has left on a port; it is counted and kept for replay, and nothing else of the port has changed
(R202, R207, R245). -/
def Sys2Proof.Machine.sendsMsg (p : Nat) (m : CtlMsg) (s t : State) : Prop :=
  let x := s.port p
  let f : SentFlit := { seq := x.txSeq, vc := 7, eop := false, body := .control [m], die := p / 128, alloc := 0, mcast := none }
  (∃ h : FlitHdr, ctlHdr x h ∧ sends [.flit p h (.control [m])] s t) ∧
  (∀ q, t.port q = if q = p then { x with unacked := x.unacked ++ [f], txSeq := x.txSeq + 1 } else s.port q) ∧
  sameRegs [txReg p] s t ∧ countsOne (txReg p) s t

/-- A message can leave on a port at once: the package is not stopped, and fewer than 32,768 flits are unacknowledged (R206, R719). -/
def Sys2Proof.Machine.canSend (p : Nat) (s : State) : Prop := s.fatal = false ∧ s.txFull p = false

/-- A follower's request carries its count at transmission, is remembered, and goes out once the exchange period has passed; a
request is answered with the beat it arrived at and a later departure when the device is aligned, without timestamps when it
is not, and not at all when it was replayed. Both leave as messages of CONTROL flits. The fraction of the departure and of the request
are free (R135, R136, R207, R209; log 4).
An aligned answer of the followed domain gives delay = ((t4 - t1) - (t3 - t2)) / 2 - asymmetry and
offset = (t2 - t1) - delay. While ALIGNED an offset within tolerance changes no state; while ACQUIRING sixteen in a row within
tolerance align the device; a not-aligned answer sends an ALIGNED device without an alternate to HOLDOVER. An answer that was
not awaited, was replayed, or came on another port has no effect (R134, R137, R139, R140). -/
def Obligations.TimeExchanges : Prop :=
  (
    ∀ (s : State) (p : PortNo),
      let keeps := fun (t : State) =>
        t = { s with time := t.time, ports := t.ports, live := t.live, fresh := t.fresh, sent := t.sent, sig := t.sig }
      (s.role = 3 → s.exchPeriod ≠ 0 → s.time.lastReq + s.exchPeriod ≤ s.ticks → s.upPort = some p.val → s.exchUp (some p.val) = true →
        s.time.t1 = none ∨ s.bState ≠ bsLost → canSend p.val s →
        ∃ t t1, exec .timeReqSend s = .next t ∧ t1.toNat / 256 = s.beat.toNat ∧ sendsMsg p.val (.timeReq false t1) s t ∧
          t.time = { s.time with t1 := some t1, lastReq := s.ticks } ∧ keeps t) ∧
      (s.role = 3 → s.upPort = some p.val → s.exchUp (some p.val) = true →
        s.exchPeriod = 0 ∨ s.ticks < s.time.lastReq + s.exchPeriod → ∃ t, exec .timeReqSend s = .next t ∧ unchanged s t) ∧
      (∀ (t1 : BitVec 72) (frac : Byte),
        (s.exchUp (some p.val) = true → s.aligned = true → canSend p.val s →
          ∃ t t3, exec (.timeReq p t1 false frac) s = .next t ∧
            sendsMsg p.val (.timeResp true false (BitVec.ofNat 16 s.domainNow) (BitVec.ofNat 8 (s.lv bsAddr 11 8))
              (BitVec.ofNat 72 (s.beat.toNat * 256 + frac.toNat)) t3) s t ∧
            t3.toNat / 256 = s.beat.toNat ∧ s.beat.toNat * 256 + frac.toNat ≤ t3.toNat ∧ t.time = s.time ∧ keeps t) ∧
        (s.exchUp (some p.val) = true → s.aligned = false → canSend p.val s →
          ∃ t, exec (.timeReq p t1 false frac) s = .next t ∧
            sendsMsg p.val (.timeResp false false (BitVec.ofNat 16 s.domainNow) (BitVec.ofNat 8 (s.lv bsAddr 11 8)) 0 0) s t ∧
            t.fresh = s.fresh ∧ t.time = s.time ∧ keeps t) ∧
        ∃ t, exec (.timeReq p t1 true frac) s = .next t ∧ unchanged s t)) ∧
  (
    ∀ (s : State) (p : PortNo) (m : TimeRespMsg) (t1 : BitVec 72),
      let t4 := BitVec.ofNat 72 (s.beat.toNat * 256 + m.t4frac.toNat)
      let delay : Int := (sext 72 (t4 - t1).toNat - sext 72 (m.t3 - m.t2).toNat) / 2 - s.asym
      let offset : Int := sext 72 (m.t2 - t1).toNat - delay
      let taken := fun (t : State) => t = { s with live := t.live, time := t.time, sent := t.sent, sig := t.sig } ∧
        sameRegs [beatPg 0 + 0x160, beatPg 0 + 0x168, bsAddr] s t ∧ t.lv (beatPg 0 + 0x160) 31 0 = wrapN 32 offset ∧
        t.lv (beatPg 0 + 0x168) 31 0 = wrapN 32 delay ∧ t.lv bsAddr 11 8 = min (m.hops.toNat + 1) 15 ∧
        t.lv bsAddr 47 32 = m.domain.toNat ∧ t.time.t1 = none ∧ t.time.steer = offset ∧ sends [] s t
      let waited := s.role = 3 ∧ s.upPort = some p.val ∧ s.exchUp (some p.val) = true
      (s.role ≠ 3 ∨ m.replayed = true ∨ s.upPort ≠ some p.val ∨ s.exchUp (some p.val) = false ∨ s.time.t1 = none →
        ∃ t, exec (.timeResp p m) s = .next t ∧ unchanged s t) ∧
      (waited → m.replayed = false → s.time.t1 = some t1 → m.aligned = true → m.domain.toNat = s.lv (beatPg 0 + 0x158) 15 0 →
        m.hops.toNat + 1 ≤ s.lv (beatPg 0 + 0x150) 3 0 → offset.natAbs ≤ s.alignTol →
        (s.bState = bsAligned →
          ∃ t, exec (.timeResp p m) s = .next t ∧ taken t ∧ t.bState = bsAligned ∧ t.aligned = s.aligned ∧ t.time.bad = 0) ∧
        (s.bState = bsAcquiring → offset.natAbs ≤ 256 → 15 ≤ s.time.good →
          ∃ t, exec (.timeResp p m) s = .next t ∧ taken t ∧ t.bState = bsAligned ∧ t.aligned = true) ∧
        (s.bState = bsAcquiring → offset.natAbs ≤ 256 → s.time.good < 15 →
          ∃ t, exec (.timeResp p m) s = .next t ∧ taken t ∧ t.bState = bsAcquiring ∧ t.time.good = s.time.good + 1)) ∧
      (waited → m.replayed = false → s.time.t1 = some t1 → m.aligned = false → s.bState = bsAligned → s.aligned = true →
        s.altInUse = true ∨ s.altValid = false → s.lv (beatPg 0 + 0x140) 31 0 ≠ 0 →
        ∃ t, exec (.timeResp p m) s = .next t ∧ t.bState = bsHoldover ∧ t.aligned = true ∧ t.lv bsAddr 19 16 = 2 ∧
          countsOne (beatPg 0 + 0x170) s t))

/-- An arm write to an alarm: KIND 0 disarms with result NONE; otherwise the first of MALFORMED (KIND 5 to 7),
REFUSED_NOT_ALIGNED (fabric-timed, counted) and REFUSED_LATE (less than 32 beats ahead) disarms it, and without a refusal the
alarm is armed at its sampled beat in place of any earlier arming (R147, R154 to R157).
At its beat an armed alarm fires once: it is disarmed with result FIRED (1), and kind 1 sets its bit of CTL_ALARM_IRQ_d and
nothing else, kind 2 posts 1 to its object, kind 3 takes a snapshot of its die, kind 4 resets its group, with result MALFORMED (6) where that
has no valid entry; an alarm that is not armed for this beat does nothing. A snapshot's writing ends with STATE DONE, and the HBM stacks
count the records (R158, R164, R173; log 40).
A release notice is not taken while FATAL or on a port that is not UP, nor a second time while one of its epoch is held. Taken from the
parent by an aligned device of a group without children it is held until its beat; one that comes in its beat, or after it, is
taken at once, the latter counted; at that beat it ends, and where its epoch is the one after the current one the release
is held for it; where it is the current one, not open here, the next epoch becomes current, open or not (R168, R169, R170, R404,
R720; log 95 for the epochs that are not open). -/
def Obligations.AlarmsAndReleaseNotices : Prop :=
  (
    ∀ (s : State) (d : DieNo) (n : Fin 64) (v : Word), flag v 0 = true →
      let kind := fld v 10 8
      let isLoc := flag v 4
      let at_ := RegFile.get s.live (beatPg d.val + 0x400 + 16 * n.val)
      let others := s.alarms.filter fun a => !(a.die == d.val && a.n == n.val)
      let ends := fun (c : Instr) (l : List Alarm) (k r : Nat) (more : List Nat) => ∃ t, exec c s = .next t ∧
        t = { s with alarms := l, live := t.live, sent := t.sent, sig := t.sig } ∧ sameRegs (alarmCtrl d.val n.val :: more) s t ∧
        t.lv (alarmCtrl d.val n.val) 15 12 = r ∧ t.lv (alarmCtrl d.val n.val) 1 1 = b2n (decide (l ≠ others)) ∧
        t.lv (alarmCtrl d.val n.val) 10 8 = k ∧ sends [] s t
      ends (.alarmDisarm d n) others 0 0 [] ∧
      (kind = 0 → ends (.alarmArm d n v) others kind 0 []) ∧
      (5 ≤ kind → ends (.alarmArm d n v) others kind 6 []) ∧
      (kind ≠ 0 → kind < 5 → isLoc = false → s.aligned = false →
        ends (.alarmArm d n v) others kind 3 [beatPg d.val + 0x1A0] ∧
        ∃ t, exec (.alarmArm d n v) s = .next t ∧ countsOne (beatPg d.val + 0x1A0) s t) ∧
      (kind ≠ 0 → kind < 5 → (isLoc = false → s.aligned = true) → at_.toNat < s.beat.toNat + 32 →
        ends (.alarmArm d n v) others kind 2 []) ∧
      (kind ≠ 0 → kind < 5 → (isLoc = false → s.aligned = true) → s.beat.toNat + 32 ≤ at_.toNat →
        ends (.alarmArm d n v) (others ++ [⟨d.val, n.val, at_, kind, isLoc, BitVec.ofNat 24 (fld v 63 40)⟩]) kind 0 [])) ∧
  (
    ∀ (s : State) (d : DieNo) (n : Fin 64),
      ((∀ a ∈ s.alarms, ¬ (a.die = d.val ∧ a.n = n.val ∧ a.atBeat = s.beat)) →
        ∃ t, exec (.alarmFire d n) s = .next t ∧ unchanged s t) ∧
      (∀ a, s.alarms = [a] → a.die = d.val → a.n = n.val → a.atBeat = s.beat → a.kind = 1 →
        ∃ t, exec (.alarmFire d n) s = .next t ∧ t = { s with alarms := [], live := t.live, sent := t.sent, sig := t.sig } ∧
          sameRegs [alarmCtrl d.val n.val, ctlPg + 0x260 + 8 * d.val] s t ∧ t.lv (alarmCtrl d.val n.val) 15 12 = 1 ∧
          t.lv (alarmCtrl d.val n.val) 1 1 = 0 ∧ sameBits (ctlPg + 0x260 + 8 * d.val) n.val n.val s t ∧
          t.lv (ctlPg + 0x260 + 8 * d.val) n.val n.val = 1 ∧ sends [] s t) ∧
      (∀ a, s.alarms = [a] → a.die = d.val → a.n = n.val → a.atBeat = s.beat →
        let none_ : Dev := { s.toDev with alarms := [] }
        let ended := fun (r : Nat) => (none_.setLv (alarmCtrl d.val n.val) 15 12 r).setLv (alarmCtrl d.val n.val) 1 1 0
        let does := fun (v : Dev) => ∃ t, exec (.alarmFire d n) s = .next t ∧ became v s t
        let o := a.target.toNat % 65536
        (a.kind = 2 → objValid (s.objCfg o) = true → s.coreUp (o / 256) = true → does ((ended 1).postObj o 1)) ∧
        (a.kind = 3 → does ((ended 1).snapshot s.toDev a.die)) ∧
        (a.kind = 4 → groupValid s.active a.target = true → (s.grp a.target).resetAt ≠ some s.ticks → does ((ended 1).groupResetAll a.target)) ∧
        (a.kind = 4 → groupValid s.active a.target = false → does (ended 6))) ∧
      (let x := Map.get s.tel.snapAt d.val (0, 0)
       let counts := (List.range 16).flatMap fun st => [hbmPg st + 0x118, hbmPg st + 0x120, hbmPg st + 0x138]
       s.snapBusy d.val = true → x.1 % 4096 = 0 → x.1 + 4096 * x.2 ≤ 2 ^ 41 → (∀ b ∈ s.memSt.bad, b % 64 = 0) →
        ∃ t, exec (.snapshotWriteDone d) s = .next t ∧
          t = { s with tel := t.tel, memSt := t.memSt, live := t.live, sent := t.sent, sig := t.sig } ∧
          sameRegs ((beatPg d.val + 0x188) :: counts) s t ∧ t.lv (beatPg d.val + 0x188) 1 0 = 2 ∧ t.snapBusy d.val = false ∧ sends [] s t) ∧
      (s.snapBusy d.val = false → ∃ t, exec (.snapshotWriteDone d) s = .next t ∧ unchanged s t)) ∧
  (
    ∀ (s : State) (p : PortNo) (g : BitVec 24) (ep : BitVec 16) (r : BitVec 64),
      (s.fatal = true ∨ s.portState p.val ≠ 5 → ∃ t, exec (.release p g ep r) s = .next t ∧ unchanged s t) ∧
      (∀ e, s.fatal = false → s.portState p.val = 5 → isPorone (s.portMode p.val) = true → s.guarded g = false →
        s.epochOf g ep = some e → e.entry.root = false → e.children = [] →
        (s.releaseHeld g ep = true → ∃ t, exec (.release p g ep r) s = .next t ∧ unchanged s t) ∧
        (s.releaseHeld g ep = false → r ≠ 0 → s.aligned = true → s.beat < r →
          ∃ t, exec (.release p g ep r) s = .next t ∧
            t = { s with releases := s.releases ++ [{ group := g, epoch := ep, beat := r }], sent := t.sent, sig := t.sig } ∧ sends [] s t) ∧
        (s.releaseHeld g ep = false → r ≠ 0 → s.aligned = true → r ≤ s.beat → (s.grp g).number = some (ep - 1) →
          ∃ t, exec (.release p g ep r) s = .next t ∧
            t = { s with groups := t.groups, ctxs := t.ctxs, live := t.live, sent := t.sent, sig := t.sig } ∧
            t.grp g = { s.grp g with relHeld := true } ∧ sameRegs [beatPg 0 + 0x1B0] s t ∧
            (r < s.beat → countsOne (beatPg 0 + 0x1B0) s t) ∧ (r = s.beat → t.live = s.live) ∧ sends [] s t)) ∧
      (s.fatal = true → ∃ t, exec (.beatRelease g ep) s = .next t ∧ unchanged s t) ∧
      (s.fatal = false → (∀ x ∈ s.releases, ¬ (x.group = g ∧ x.epoch = ep ∧ x.beat ≤ s.beat)) →
        ∃ t, exec (.beatRelease g ep) s = .next t ∧ unchanged s t) ∧
      (∀ n, s.fatal = false → s.releases = [{ group := g, epoch := ep, beat := r }] → r ≤ s.beat → (s.grp g).number = some n →
        (ep = n + 1 → ∃ t, exec (.beatRelease g ep) s = .next t ∧
          t = { s with releases := [], groups := t.groups, ctxs := t.ctxs, sent := t.sent, sig := t.sig } ∧
          t.grp g = { s.grp g with relHeld := true } ∧ sends [] s t) ∧
        (ep = n → (s.grp g).current = none → (s.grp g).relHeld = false → ∃ t, exec (.beatRelease g ep) s = .next t ∧
          t = { s with releases := [], released := t.released, gotten := t.gotten, groups := t.groups, sent := t.sent, sig := t.sig } ∧
          (t.grp g).number = some (n + 1) ∧ (t.grp g).current = (s.grp g).next ∧ (t.grp g).next = none ∧ sends [] s t)))

/-! ### Links -/

/-- LNK_PORT_STATE of a port's group. -/
def Sys2Proof.Machine.stateReg (p : Nat) : Nat := lnkPg (p / 8) + 0x100

/-- The port came to a state: only the port's own record, its lanes' error windows and the registers of its link changed, and `l`
was sent. -/
def Sys2Proof.Machine.portMoves (p : PortNo) (dest : Nat) (l : List Emit) (more : List Nat) (s t : State) : Prop :=
  t = { s with live := t.live, ports := t.ports, laneErr := t.laneErr, sent := t.sent, sig := t.sig } ∧
  sameRegs (stateReg p.val :: more) s t ∧ t.portState p.val = dest ∧ (t.port p.val).queue = (s.port p.val).queue ∧
  (∀ q, q ≠ p.val → t.port q = s.port q) ∧ sends l s t

/-- A PARAM exchange has begun: only the port's own record, its credit and the registers of its link changed; one CONTROL flit has
left with this device's PARAM and the counts it grants (R186, R198, R208), and each lane passes over as many codewords as `skip`
says (R179). -/
def Sys2Proof.Machine.beginsParam (p : PortNo) (x : Port) (skip : List Nat) (s t : State) : Prop :=
  t = { s with live := t.live, ports := t.ports, credit := t.credit, touched := t.touched, sent := t.sent, sig := t.sig } ∧
  sameRegs [stateReg p.val, txReg p.val] s t ∧ t.portState p.val = 4 ∧ (t.port p.val).queue = (s.port p.val).queue ∧
  countsOne (txReg p.val) s t ∧ (t.port p.val).skip = skip ∧ (∀ q, q ≠ p.val → t.port q = s.port q) ∧
  ∃ h, ctlHdr x h ∧
    sends [.flit p.val h (.control [.param (s.ownParam p.val), .creditAll ((t.port p.val).ours.map (BitVec.ofNat 20))])] s t

/-- Every unacknowledged flit of a port leaves again, in order, under its own sequence number, its messages made anew (R202, R203). -/
def Sys2Proof.Machine.resentFlits (p : Nat) (s : State) (l : List Emit) : Prop :=
  ∃ hs : List FlitHdr, hs.map (·.seq) = (s.port p).unacked.map (·.seq) ∧
    l = List.zipWith (fun h f => Emit.flit p h (s.again p f).body) hs (s.port p).unacked

/-- Bring-up of a port (R186): DETECT to TRAIN, or to LOCK for C2M, on the lanes that are clean, of a width that REWIDEN allows; TRAIN to
LOCK; LOCK to PARAM, sending this device's PARAM message, or to ACTIVE in Ethernet mode; PARAM to ACTIVE on a consistent answer, which is
kept; MISMATCH to PARAM again after 390,625 beats, its link starting afresh (the model's choice, log 103). In any other state each event
does nothing. A Porone port locks with an alignment counter of every lane in use (R179, R191).
LNK_TRAIN_LIMIT beats in TRAIN end it in DETECT with no width; before that nothing happens. A width request at an ACTIVE Porone port
of four or eight lanes is answered with lanes that are clean at both ends, of at most either end's width, and the port retrains; an
answer is taken in RETRAIN; once locked the port is ACTIVE on those lanes and sends its unacknowledged flits again, in order, from the
first (R186, R188, R189, R190, R203; for the peer's mask log 104). -/
def Obligations.PortsComeUpAndRetrain : Prop :=
  (
    ∀ (s : State) (p : PortNo) (m : ParamMsg) (counters : List (BitVec 16)),
      let st := s.portState p.val
      let x := s.port p.val
      let ls := s.cleanLanes p.val (s.widest p.val) fun _ => true
      let none_ := fun (c : Instr) => ∃ t, exec c s = .next t ∧ unchanged s t
      (st = 1 → ls ≠ [] →
        ∃ t, exec (.signalDetect p) s = .next t ∧
          portMoves p (if s.portChannel p.val = 2 then 3 else 2) [] [lnkPg (p.val / 8) + 0x108] s t ∧
          t.lv (stateReg p.val) (35 + 4 * (p.val % 8)) (32 + 4 * (p.val % 8)) = widthCode ls.length ∧ (t.port p.val).lanes = ls) ∧
      (st ≠ 1 → none_ (.signalDetect p)) ∧
      (st = 2 → ∃ t, exec (.trainDone p) s = .next t ∧ portMoves p 3 [] [] s t) ∧ (st ≠ 2 → none_ (.trainDone p)) ∧
      (st = 3 → isPorone (s.portMode p.val) = true → x.lanes.length ≤ counters.length → s.fatal = false →
        ∃ t, exec (.lockAcquired ⟨p, counters⟩) s = .next t ∧ beginsParam p x (deskew x.lanes counters) s t) ∧
      (st = 3 → isPorone (s.portMode p.val) = false → ∃ t, exec (.lockAcquired ⟨p, counters⟩) s = .next t ∧ portMoves p 5 [] [] s t) ∧
      (st ≠ 3 ∨ isPorone (s.portMode p.val) = true ∧ counters.length < x.lanes.length → none_ (.lockAcquired ⟨p, counters⟩)) ∧
      (st = 4 → s.paramBad p.val m = false →
        ∃ t, exec (.param p m) s = .next t ∧ portMoves p 5 [] [] s t ∧ (t.port p.val).peer = some m ∧
          (t.port p.val).lastOk = s.ticks) ∧
      (st = 4 → s.paramBad p.val m = true →
        ∃ t, exec (.param p m) s = .next t ∧ t.portState p.val = 8 ∧ (t.port p.val).peer = some m ∧ t.mem = s.mem) ∧
      (st ≠ 4 → none_ (.param p m)) ∧
      (st = 8 → x.since + 390625 ≤ s.ticks → x.unacked = [] → s.inputs = [] → s.fatal = false →
        ∃ t, exec (.mismatchRetry p) s = .next t ∧ beginsParam p { x with txSeq := 0, ackSeq := 0xFFFF } [] s t) ∧
      (st ≠ 8 ∨ s.ticks < x.since + 390625 → none_ (.mismatchRetry p))) ∧
  (
    ∀ (s : State) (p : PortNo) (w : Fin 9) (clean : BitVec 8) (counters : List (BitVec 16)),
      let st := s.portState p.val
      let x := s.port p.val
      let n := (s.lanesOf p.val).length
      let both := fun (k : Nat) => s.cleanLanes p.val k fun l => bit clean.toNat (l % n)
      let proper := isPorone (s.portMode p.val) = true ∧ 4 ≤ n ∧ widthCode w.val ≠ 0 ∧ w.val ≠ 1 ∧ w.val ≤ n
      let now := if x.newLanes = [] then x.lanes else x.newLanes
      let field := fun (t : State) => t.lv (stateReg p.val) (35 + 4 * (p.val % 8)) (32 + 4 * (p.val % 8))
      let due := (s.port p.val).since + max 1 (s.cfg (lnkPg (p.val / 8) + 0x1050) 31 0)
      (st = 2 → due ≤ s.ticks →
        ∃ t, exec (.trainTimeout p 0) s = .next t ∧ portMoves p 1 [] [] s t ∧ field t = 0) ∧
      (∀ unlocked, st ≠ 2 ∨ s.ticks < due → ∃ t, exec (.trainTimeout p unlocked) s = .next t ∧ unchanged s t) ∧
      (st = 5 → proper → canSend p.val s → both (min w.val (s.widest p.val)) ≠ [] →
        let l := both (min w.val (s.widest p.val))
        ∃ t h, exec (.width p false w clean) s = .next t ∧ ctlHdr x h ∧
          portMoves p 6 [.flit p.val h (.control [.width true (BitVec.ofNat 8 l.length) (s.cleanMask p.val)])] [txReg p.val] s t ∧
          (t.port p.val).newLanes = l) ∧
      (st = 6 → proper → both w.val ≠ [] →
        ∃ t, exec (.width p true w clean) s = .next t ∧ t = { s with ports := t.ports, sent := t.sent, sig := t.sig } ∧
          t.port p.val = { x with newLanes := both w.val } ∧ sends [] s t) ∧
      (∀ accept, (st ≠ 5 ∧ st ≠ 6) ∨ ¬ proper ∨ (accept = true ∧ st = 5) →
        ∃ t, exec (.width p accept w clean) s = .next t ∧ unchanged s t) ∧
      (st = 6 → now.length ≤ counters.length → x.ctlWait = [] → s.fatal = false →
        ∃ t l, exec (.retrainDone ⟨p, counters⟩) s = .next t ∧ resentFlits p.val s l ∧ portMoves p 5 l [txReg p.val] s t ∧
          t.lv (txReg p.val) 63 0 = min (s.lv (txReg p.val) 63 0 + x.unacked.length) (2 ^ 64 - 1) ∧
          (t.port p.val).unacked = x.unacked ∧ (t.port p.val).newLanes = [] ∧ (t.port p.val).lanes = now ∧
          (t.port p.val).skip = deskew now counters ∧ field t = widthCode now.length) ∧
      (st ≠ 6 ∨ counters.length < now.length → ∃ t, exec (.retrainDone ⟨p, counters⟩) s = .next t ∧ unchanged s t))

/-- A lane's loss of signal shows in LNK_LANE_STATUS, and that is all where its port is not ACTIVE or the lane is fenced already; the loss
of codeword lock alone shows nothing there. At a lane in use of an ACTIVE port either is a fault of the lane, which is reported and fenced. The end of a lane's error window, 2^20 ticks after another from its port's entry into
ACTIVE, forgets the lane's count, and no other's; at any other time nothing happens (R187).
Port-group reset acts when LNK_GROUP_CTRL.RESET changes, on a group that is present. While it begins, no lane of the group keeps
signal or fence; as it ends on a group that holds no flits and no inputs, RESET is 0 and every port of the group begins its bring-up under the configuration it runs, with no lanes in use and its peer's last
PARAM (R183, R186, R193; the peer is log 94). -/
def Obligations.LaneWindowsAndGroupReset : Prop :=
  (
    ∀ (s : State) (g : GroupNo) (lane : Fin 8),
      (s.groupPresent g.val = true → s.portState (s.portOfLane g.val lane.val) ≠ 5 ∨ s.laneFenced g.val lane.val = true →
        (∃ t, exec (.laneSignalLoss g ⟨lane, false⟩) s = .next t ∧ setsField (lnkPg g.val + 0x108) lane.val lane.val 0 s t) ∧
        ∃ t, exec (.laneSignalLoss g ⟨lane, true⟩) s = .next t ∧ unchanged s t) ∧
      (s.groupPresent g.val = true → s.portState (s.portOfLane g.val lane.val) = 5 → s.laneFenced g.val lane.val = false → ∀ lockOnly,
        let u : Dev := if lockOnly then s.toDev else s.setLv (lnkPg g.val + 0x108) lane.val lane.val 0
        ∃ t, exec (.laneSignalLoss g ⟨lane, lockOnly⟩) s = .next t ∧
          became (u.faultOwn (g.val / 16) 0x03 (g.val % 16) 0 (laneUnit g.val (u.physLane g.val lane.val))) s t) ∧
      (s.groupPresent g.val = false → ∀ lockOnly, ∃ t, exec (.laneSignalLoss g ⟨lane, lockOnly⟩) s = .next t ∧ unchanged s t) ∧
      (s.windowEnds g.val lane.val = false → ∃ t, exec (.laneErrWindow g lane) s = .next t ∧ unchanged s t) ∧
      (s.windowEnds g.val lane.val = true → ∃ t, exec (.laneErrWindow g lane) s = .next t ∧ t = { s with laneErr := t.laneErr, sent := t.sent, sig := t.sig } ∧
        (∀ k, Map.get t.laneErr k 0 = if k = g.val * 8 + lane.val then 0 else Map.get s.laneErr k 0) ∧ sends [] s t)) ∧
  (
    ∀ (s : State) (g : GroupNo),
      let on := s.lv (lnkPg g.val + 0x110) 0 0 == 1
      (s.groupPresent g.val = false → ∀ b, ∃ t, exec (.lnkGroupReset g b) s = .next t ∧ unchanged s t) ∧
      (∃ t, exec (.lnkGroupReset g on) s = .next t ∧ unchanged s t) ∧
      (s.groupPresent g.val = true → on = false →
        ∃ t, exec (.lnkGroupReset g true) s = .next t ∧ t.lv (lnkPg g.val + 0x108) 15 0 = 0) ∧
      (s.groupPresent g.val = true → on = true → s.inputs = [] →
        (∀ k, k < 8 → (s.port (g.val * 8 + k)).unacked = [] ∧ (s.port (g.val * 8 + k)).restart = false) →
        ∃ t, exec (.lnkGroupReset g false) s = .next t ∧
          t = { s with live := t.live, ports := t.ports, credit := t.credit, touched := t.touched, sent := t.sent, sig := t.sig } ∧
          t.lv (lnkPg g.val + 0x110) 0 0 = 0 ∧ sends [] s t ∧
          ∀ k, k < 8 → t.portState (g.val * 8 + k) = t.startState (g.val * 8 + k) ∧ t.portWidth (g.val * 8 + k) = 0 ∧
            (t.port (g.val * 8 + k)).peer = (s.port (g.val * 8 + k)).peer))

/-- CREDIT_ALL sets the granted counts of a Porone port in PARAM or ACTIVE, and nothing else. A NAK makes such a port send its
unacknowledged flits again, in order, and counts a replay, while it has not resent them REPLAY_LIMIT times; one that acknowledges
nothing new keeps them (R198, R203, R205; log 98).
Flits reach a Porone port in PARAM or ACTIVE only, and none while FATAL. A flit that fails its check is answered with NAK and the
last sequence kept, and the packet in hand is dropped; an intact IDLE flit only brings its credit and acknowledgement; the only flit
of a packet, in sequence, is kept and its packet, intact by its CRC, arrives (R194, R197, R198, R201, R203, R221, R720). -/
def Obligations.FlitsCreditsAndReplays : Prop :=
  (
    ∀ (s : State) (p : PortNo) (counts : List (BitVec 20)) (ack : BitVec 16),
      let st := s.portState p.val
      let x := s.port p.val
      ((st = 4 ∨ st = 5) → isPorone (s.portMode p.val) = true →
        ∃ t, exec (.creditAll p counts) s = .next t ∧ t = { s with ports := t.ports, sent := t.sent, sig := t.sig } ∧
          t.port p.val = { x with granted := (List.range 8).map fun v => (counts.getD v 0).toNat } ∧
          (∀ q, q ≠ p.val → t.port q = s.port q) ∧ sends [] s t) ∧
      (st ≠ 4 ∧ st ≠ 5 ∨ isPorone (s.portMode p.val) = false → ∃ t, exec (.creditAll p counts) s = .next t ∧ unchanged s t) ∧
      (st ≠ 4 ∧ st ≠ 5 → ∃ t, exec (.replay p ack) s = .next t ∧ unchanged s t) ∧
      (st = 4 ∨ st = 5 → x.unacked ≠ [] → s.fatal = false → (∀ h ∈ x.unacked, seqCovered ack h.seq = false) →
        (if x.lastNak = ack then x.resends else 0) < max 1 (s.portCfg p.val 27 20) →
        ∃ t l, exec (.replay p ack) s = .next t ∧ resentFlits p.val s l ∧
          t = { s with live := t.live, ports := t.ports, sent := t.sent, sig := t.sig } ∧
          sameRegs [lnkPg (p.val / 8) + 0x218 + 0x40 * (p.val % 8), txReg p.val] s t ∧
          countsOne (lnkPg (p.val / 8) + 0x218 + 0x40 * (p.val % 8)) s t ∧
          t.port p.val = { x with lastNak := ack, resends := (if x.lastNak = ack then x.resends else 0) + 1 } ∧
          sends l s t)) ∧
  (
    ∀ (s : State) (p : PortNo) (flit : List Byte) (frac : Byte),
      let st := s.portState p.val
      let x := s.port p.val
      let h := flitHdr flit
      let live := s.fatal = false ∧ (st = 4 ∨ st = 5) ∧ isPorone (s.portMode p.val) = true ∧ s.hurtAny (s.flitUnits p.val) = false
      let reg := fun (off : Nat) => lnkPg (p.val / 8) + off + 0x40 * (p.val % 8)
      let head : Port := { x with lastOk := s.ticks, granted := if h.crValid then x.granted.set h.crVc h.crCount else x.granted }
      (s.fatal = true ∨ st ≠ 4 ∧ st ≠ 5 ∨ isPorone (s.portMode p.val) = false →
        ∃ t, exec (.flitReceive p (.flit flit frac)) s = .next t ∧ unchanged s t) ∧
      (live → flitIntact flit = false →
        ∃ t, exec (.flitReceive p (.flit flit frac)) s = .next t ∧
          onlyRegs [reg 0x210] [.flit p.val
            { ftype := 0, vc := 0, sop := false, eop := false, nak := true, seq := 0, ackSeq := x.ackSeq,
              crVc := 0, crValid := false, crCount := 0 } .idle] { s with ports := t.ports } t ∧
          countsOne (reg 0x210) s t ∧ t.port p.val = { x with nak := true, rxSeq := x.ackSeq + 1, asm := [], asmOpen := false }) ∧
      (live → flitIntact flit = true → h.ftype = 0 → x.unacked = [] →
        ∃ t, exec (.flitReceive p (.flit flit frac)) s = .next t ∧ t = { s with ports := t.ports, sent := t.sent, sig := t.sig } ∧
          t.port p.val = head ∧ sends [] s t) ∧
      (live → flitIntact flit = true → h.ftype = 1 → h.seq = x.rxSeq → h.sop = true → h.eop = true → x.unacked = [] →
        let pkt := Packet.ofBytes (flitData flit)
        flitsOf pkt.size = 1 → leAt (flitData flit) pkt.size 4 = crc32 ((flitData flit).take pkt.size) →
        ∃ t, exec (.flitReceive p (.flit flit frac)) s = .next t ∧
          onlyRegs [reg 0x208] [] { s with ports := t.ports, arrived := t.arrived } t ∧ countsOne (reg 0x208) s t ∧
          t.arrived = s.arrived ++ [{ port := p.val, pkt := pkt, sop := s.ticks, frame := none }] ∧ (t.port p.val).rxSeq = x.rxSeq + 1 ∧ (t.port p.val).ackSeq = h.seq ∧
          (t.port p.val).nak = false ∧ (t.port p.val).asmOpen = false))

/-! ### Packets -/

/-- A packet for this device has come in at a port: `q` is the packet as tagged, `u` the device with its cells held as allocation
`id`. -/
def Sys2Proof.Machine.heldIn (p : PortNo) (pkt : Packet) (s : State) (u : Dev) (q : Packet) (id : Nat) : Prop :=
  s.isOwn p.val pkt = true ∧
    ∃ w c, s.arrive p.val pkt false = (w, some c) ∧ c.pkt = q ∧ w.admitIn p.val none q = (u, some id)

/-- The device did what leads to `d`, then returned the packet's cells. -/
def Sys2Proof.Machine.servedAs (d : Dev) (id : Nat) (s t : State) : Prop := t = { s with toDev := settle (d.release id) }

/-- The device as the packet's arrival leaves it, its entry among the checked arrivals gone and its number in the order of arrivals
given; and the tick at which its SOP flit came. -/
def Sys2Proof.Machine.noted (p : PortNo) (pkt : Packet) (s : State) : Dev := (s.note p.val pkt).1
def Sys2Proof.Machine.sopTick (p : PortNo) (pkt : Packet) (s : State) : Nat := (s.note p.val pkt).2.1.tick

/-- The packet is gone: no record of the device but its own arrival, counters and the credit it came on has changed. -/
def Sys2Proof.Machine.dropped (p : PortNo) (pkt : Packet) (as : List Nat) (s t : State) : Prop :=
  onlyRegs as [] { s with arrived := (noted p pkt s).arrived, nextId := t.nextId, credit := t.credit, touched := t.touched } t

/-- A packet for another node that comes from an ACTIVE port of a device that is not FATAL is discarded and counted when it is
malformed (R226), when an endpoint sends it under another node or partition (R228), under instar 0 at an endpoint (R89, which
counts nothing), and when it has no route (R255); while FATAL or on a port that is not ACTIVE it vanishes (R720). A packet for
this device, well formed, is left to the command of its type.
A packet from a fabric port that the tables send to port `q` joins that port's queue with the cells it was given, its tag and its
SOP beat kept, behind every packet that arrived before it; the earlier packets of the queue keep their order (R106, R251, R258, R274,
R293).
A packet on a fabric port is judged by its tag against the active instar's number modulo 4: two ahead, or one behind with no
retiring instar, it is discarded and counted in INS_RETIRED_CNT; one ahead it is, given cells, held at its port and counted in
INS_EARLY_HOLD_CNT, and without cells it is gone and not counted there (R107). -/
def Obligations.ForwardedPacketsAreCheckedAndQueued : Prop :=
  (
    ∀ (s : State) (p : PortNo) (pkt : Packet),
      let lnk := lnkPg (p.val / 8)
      let ends := isEndpointMode (s.portMode p.val) = true
      let goes := s.fatal = false ∧ s.portState p.val = 5
      let other := s.isOwn p.val pkt = false ∧ pkt.answered = false
      let badId := pkt.src.toNat ≠ s.portCfg p.val 63 44 ∨ bit (s.portCfg p.val 43 28) pkt.part.toNat = false
      let bad := lnk + 0x228 + 0x40 * (p.val % 8)
      (s.isOwn p.val pkt = true → s.malformedAt p.val pkt = false → ∃ t, exec (.packetForward p pkt) s = .next t ∧ unchanged s t) ∧
      (s.isOwn p.val pkt = false → s.fatal = true ∨ s.portState p.val ≠ 5 →
        ∃ t, exec (.packetForward p pkt) s = .next t ∧
          t = { s with arrived := (noted p pkt s).arrived, sent := t.sent, sig := t.sig } ∧ sends [] s t) ∧
      (goes → pkt.answered = false → s.malformedAt p.val pkt = true →
        ∃ t, exec (.packetForward p pkt) s = .next t ∧ dropped p pkt [bad] s t ∧ countsOne bad s t) ∧
      (goes → other → s.malformedAt p.val pkt = false → ends → badId →
        ∃ t, exec (.packetForward p pkt) s = .next t ∧ dropped p pkt [lnk + 0x120] s t ∧ countsOne (lnk + 0x120) s t) ∧
      (goes → other → s.malformedAt p.val pkt = false → ends → ¬ badId → s.number = 0 →
        ∃ t, exec (.packetForward p pkt) s = .next t ∧ dropped p pkt [] s t) ∧
      (goes → other → s.malformedAt p.val pkt = false → s.portMode p.val = 1 → pkt.itag = s.tagNow →
        s.egress s.active (p.val / 128) (some p.val) pkt = .noRoute →
        ∃ t, exec (.packetForward p pkt) s = .next t ∧ dropped p pkt [swcPg (p.val / 128) + 0x100] s t ∧
          countsOne (swcPg (p.val / 128) + 0x100) s t)) ∧
  (
    ∀ (s : State) (p : PortNo) (pkt : Packet) (q id : Nat) (v : Dev),
      let w : Dev := noted p pkt s
      s.fatal = false → s.portState p.val = 5 → s.isOwn p.val pkt = false → s.malformedAt p.val pkt = false →
      s.portMode p.val = 1 → pkt.itag = s.tagNow → w.egress w.active (p.val / 128) (some p.val) pkt = .port q false →
      ¬ (pkt.ptype = ptEthFrame ∧ w.portMode q = 3) → (w.portMode q ≠ 4 → pkt.payload.length ≤ w.peerMax q) →
      w.staticRefuses (p.val / 128) q pkt = false → w.admitIn p.val (some q) pkt = (v, some id) →
      (∀ y ∈ (v.port q).queue, y.id ≤ s.nextId) →
      ∃ t, exec (.packetForward p pkt) s = .next t ∧
        (t.port q).queue = (v.port q).queue ++ [mkQ pkt (p.val / 128) id (some p.val) (sopTick p pkt s) s.nextId none] ∧
        (∀ r, r ≠ q → t.port r = v.port r) ∧ t.mem = v.mem ∧ t.allocs = v.allocs ∧ t.nextId = v.nextId) ∧
  (
    ∀ (s : State) (p : PortNo) (pkt : Packet),
      s.fatal = false → s.portState p.val = 5 → s.isOwn p.val pkt = false → s.malformedAt p.val pkt = false → s.portMode p.val = 1 →
      (pkt.itag = s.tagNow + 2 ∨ pkt.itag = s.tagNow - 1 ∧ s.retiring = none →
        ∃ t, exec (.packetForward p pkt) s = .next t ∧ dropped p pkt [insPg + 0x130] s t ∧ countsOne (insPg + 0x130) s t) ∧
      (∀ v id, pkt.itag = s.tagNow + 1 → (noted p pkt s).admitIn p.val none pkt = (v, some id) →
        ∃ t, exec (.packetForward p pkt) s = .next t ∧
          (t.port p.val).early = (v.port p.val).early ++
            [{ pkt := pkt, port := p.val, tick := sopTick p pkt s, die := p.val / 128, alloc := id, id := s.nextId, via := .table }] ∧
          (∀ r, r ≠ p.val → t.port r = v.port r) ∧ t.mem = v.mem ∧
          t.lv (insPg + 0x140) 63 0 = min (v.lv (insPg + 0x140) 63 0 + 1) (2 ^ 64 - 1)) ∧
      (∀ v, pkt.itag = s.tagNow + 1 → (noted p pkt s).admitIn p.val none pkt = (v, none) →
        ∃ t, exec (.packetForward p pkt) s = .next t ∧ became v s t))

/-- Writes that arrive for this device: a payload is stored at its address, all of it or nothing, as the controller's verdict on the
packet's partition says; an empty one is NULL and counted; one that would merge into a burst known to be uncorrectable is not stored,
and that burst is met once more; MEM_WRITE_ACKED is answered with the status of R20 and the bytes stored, or all of them where the
silent rule drops the write, MEM_WRITE with nothing (R62, R226, R227, R237, R643, R658, R666).
A read that arrives for this device is answered with the bytes that stand in memory, or with the status that denies it: NULL for
no bytes, CHUNK_LOST (4) for a word that cannot be corrected or a burst known to be so, QUOTA or FENCED_PATH; memory is left as it is
(R227, R237, R643, R666).
A response or a status for this device ends the transaction of the thread, or else of the adapter queue, that waits for its
tag and sender, a reserved status counting as MALFORMED; one that nobody waits for changes nothing. A completion entry is stored where
the packet says, its reserved status as MALFORMED (R19, R233, R234, R552). -/
def Obligations.MemoryTransactionsAreServed : Prop :=
  (
    ∀ (s : State) (p : PortNo) (pkt : Packet) (u : Dev) (q : Packet) (id : Nat), heldIn p pkt s u q id →
      let v := u.verdict (.part q.part.toNat) true q.laddr q.payload.length
      let null := u.count (lnkPg (p.val / 8) + 0x118)
      let merge := u.badMerge q.laddr q.payload.length
      (pkt.ptype = ptMemWrite → q.payload = [] → ∃ t, exec (.memWrite p pkt) s = .next t ∧ servedAs null id s t) ∧
      (pkt.ptype = ptMemWrite → q.payload ≠ [] → regionOf q.laddr ≠ .regs →
        ∃ t, exec (.memWrite p pkt) s = .next t ∧
          t.mem = (if v = .ok ∧ merge = none then Memory.writeBytes u.mem q.laddr q.payload else u.mem) ∧ t.ports = u.ports) ∧
      (pkt.ptype = ptMemWriteAcked → q.payload = [] →
        ∃ t, exec (.memWriteAcked p pkt) s = .next t ∧ servedAs (null.answerStatus (p.val / 128) q 1 0) id s t) ∧
      (∀ b, pkt.ptype = ptMemWriteAcked → q.payload ≠ [] → regionOf q.laddr ≠ .regs → v = .ok → merge = some b →
        ∃ t, exec (.memWriteAcked p pkt) s = .next t ∧ servedAs ((u.metBad b).answerStatus (p.val / 128) q 4 0) id s t) ∧
      (pkt.ptype = ptMemWriteAcked → q.payload ≠ [] → regionOf q.laddr ≠ .regs → v = .ok → merge = none →
        ∃ t, exec (.memWriteAcked p pkt) s = .next t ∧
          servedAs ((u.poke q.laddr q.payload).answerStatus (p.val / 128) q 0 q.payload.length) id s t) ∧
      (pkt.ptype = ptMemWriteAcked → q.payload ≠ [] → regionOf q.laddr ≠ .regs → v ≠ .ok →
        ∃ t, exec (.memWriteAcked p pkt) s = .next t ∧
          servedAs ((u.countVerdict v).answerStatus (p.val / 128) q (v.status.getD 0) (if v.status = none then q.payload.length else 0))
            id s t)) ∧
  (
    ∀ (s : State) (p : PortNo) (pkt : Packet) (u : Dev) (q : Packet) (id : Nat), heldIn p pkt s u q id → pkt.ptype = ptMemReadReq →
      let n := leAt q.payload 0 4
      let d := p.val / 128
      let v := u.verdict (.part q.part.toNat) false q.laddr n
      let whole := u.hurtAny (wordUnits q.laddr) = false
      (n = 0 → ∀ ecc, ∃ t, exec (.memReadReq p pkt ecc) s = .next t ∧
        servedAs ((u.count (lnkPg (p.val / 8) + 0x118)).answerStatus d q 1 0) id s t) ∧
      (∀ b, n ≠ 0 → regionOf q.laddr ≠ .regs → v = .ok → whole → u.badBurst q.laddr n = some b →
        ∃ t, exec (.memReadReq p pkt .clean) s = .next t ∧
          servedAs (((u.hbmBytes q.laddr n 0x130).metBad b).answerStatus d q 4 0) id s t) ∧
      (n ≠ 0 → regionOf q.laddr ≠ .regs → v = .ok → whole → u.badBurst q.laddr n = none →
        ∃ t, exec (.memReadReq p pkt .clean) s = .next t ∧
          servedAs ((u.hbmBytes q.laddr n 0x130).sendFormed d (memReadRespFor u.own q (u.rawBytes q.laddr n))) id s t) ∧
      (n ≠ 0 → regionOf q.laddr ≠ .regs → v = .ok →
        ∃ t, exec (.memReadReq p pkt .uncorrectable) s = .next t ∧
          servedAs ((u.eccAt q.laddr .uncorrectable).answerStatus d q 4 0) id s t) ∧
      (∀ st ecc, n ≠ 0 → regionOf q.laddr ≠ .regs → v ≠ .ok → v.status = some st →
        ∃ t, exec (.memReadReq p pkt ecc) s = .next t ∧ servedAs ((u.countVerdict v).answerStatus d q st 0) id s t)) ∧
  (
    ∀ (s : State) (p : PortNo) (pkt : Packet) (u : Dev) (q : Packet) (id : Nat), heldIn p pkt s u q id →
      let st := statusIn (leAt q.payload 0 1)
      (pkt.ptype = ptMemReadResp →
        (u.remoteOwner q.tag q.src = none → u.adpOwner q.tag q.src = none →
          ∃ t, exec (.memReadResp p pkt) s = .next t ∧ servedAs u id s t) ∧
        (∀ th r, u.remoteOwner q.tag q.src = some (th, r) →
          ∃ t, exec (.memReadResp p pkt) s = .next t ∧ servedAs (u.remoteEnd th r 0 q.payload) id s t) ∧
        (∀ k x, u.remoteOwner q.tag q.src = none → u.adpOwner q.tag q.src = some (k, x) →
          ∃ t, exec (.memReadResp p pkt) s = .next t ∧ servedAs (u.adpAnswer k x 0 q.payload) id s t)) ∧
      (pkt.ptype = ptMemStatus →
        (u.remoteOwner q.tag q.src = none → u.adpOwner q.tag q.src = none →
          ∃ t, exec (.memStatus p pkt) s = .next t ∧ servedAs u id s t) ∧
        (∀ th r, u.remoteOwner q.tag q.src = some (th, r) →
          ∃ t, exec (.memStatus p pkt) s = .next t ∧ servedAs (u.remoteEnd th r st []) id s t) ∧
        (∀ k x, u.remoteOwner q.tag q.src = none → u.adpOwner q.tag q.src = some (k, x) →
          ∃ t, exec (.memStatus p pkt) s = .next t ∧ servedAs (u.adpAnswer k x st []) id s t)) ∧
      (pkt.ptype = ptCompletion → regionOf q.laddr ≠ .regs →
        let entry := patch q.payload 0 [BitVec.ofNat 8 st]
        ∃ t, exec (.completion p pkt) s = .next t ∧
          t.mem = (if u.verdict (.part q.part.toNat) true q.laddr entry.length = .ok ∧ u.badMerge q.laddr entry.length = none then
                     Memory.writeBytes u.mem q.laddr entry else u.mem)))

/-- A doorbell on a port that is not in adapter mode posts VALUE to the object that DST_ADDR[15:0] names; one with higher address
bits set, for an object that is not valid or of another partition is discarded and counted in CORE_DOORBELL_DROP_CNT, for an
absent core in LNK_ADMIT_DROP_CNT, and a VALUE of 0 is NULL (R231, R588, R590). On an ADAPTER port it is the queue's. -/
def Obligations.DoorbellsPostToObjects : Prop :=
  ∀ (s : State) (p : PortNo) (pkt : Packet) (u : Dev) (q : Packet) (id : Nat), heldIn p pkt s u q id → pkt.ptype = ptDoorbell →
    let o := q.laddr % 65536
    let v := leAt q.payload 0 4
    let good := q.laddr / 65536 = 0 ∧ objValid (u.objCfg o) = true ∧ objPart (u.objCfg o) = q.part.toNat ∧ u.coreUp (o / 256) = true
    let does := fun (d : Dev) => ∃ t, exec (.doorbell p pkt) s = .next t ∧ servedAs d id s t
    (u.portMode p.val = 3 → does (u.adpDoorbell p.val q)) ∧
    (u.portMode p.val ≠ 3 → u.corePresent (o / 256) = false → does (u.count (lnkPg (p.val / 8) + 0x120))) ∧
    (u.portMode p.val ≠ 3 → u.corePresent (o / 256) = true → ¬ good → does (u.count (corePg (o / 256) + 0x140))) ∧
    (u.portMode p.val ≠ 3 → u.corePresent (o / 256) = true → good → v = 0 → does (u.count (corePg (o / 256) + 0x108))) ∧
    (u.portMode p.val ≠ 3 → u.corePresent (o / 256) = true → good → v ≠ 0 → does (u.postObj o v))

/-- Who may reach memory: a core's working SRAM its own partition and the device (R642, R643), the reduction-memory window no
packet or thread, its reads by the device alone (R644), a spill area nobody's writes but the reduction engines' (R661), an
unmapped hole nobody (R57). -/
def Obligations.MemoryVerdicts : Prop :=
  ∀ (s : State) (a t : Nat) (w : Bool),
    (regionOf a = .hole → ∀ who, s.verdictAt who w a = .silentTop) ∧
    (∀ c, regionOf a = .wsram c → s.corePresent c = true → s.fencedUnit (clusterUnit (c / 8)) = false →
      s.verdictAt (.part t) w a = (if s.corePart c = t then .ok else .denyCore c) ∧ s.verdictAt .device w a = .ok) ∧
    (∀ c, regionOf a = .wsram c → s.corePresent c = false → ∀ who, s.verdictAt who w a = .silentTop) ∧
    (∀ k, regionOf a = .rmem k → s.verdictAt (.part t) w a = .silentRm k ∧ s.verdictAt .device true a = .silentRm k ∧
      s.verdictAt .device false a = .ok) ∧
    (∀ st g, regionOf a = .hbm st g → inSpill a = true →
      s.verdictAt (.part t) w a = .denyStack st ∧ s.verdictAt .device true a = .denyStack st) ∧
    (∀ st g, regionOf a = .hbm st g → inControl a = true → s.verdictAt (.part t) w a = .denyStack st) ∧
    (∀ st g, regionOf a = .hbm st g → inSpill a = false → inControl a = false → s.ownerAllows st g t = false →
      s.verdictAt (.part t) w a = .denyStack st) ∧
    (∀ st g, regionOf a = .hbm st g → inSpill a = false → inControl a = false → s.ownerAllows st g t = true →
      s.stackState st = 3 → s.groupUp st g = true → s.verdictAt (.part t) w a = .ok)

/-! ### Collectives -/

/-- What is known of an input makes it an element of a resident, open context before its check: it is a contribution on a VC that
carries streaming, of a live source of an open epoch that has no other input there, with the context's own parameters, of an exact
format (R405, R417, R418). -/
def Sys2Proof.Machine.streamsInto (d : Dev) (i : Input) (x : Ext) (e : EpochSt) (y : Src) (c : Ctx) (q : Params) : Prop :=
  let k : CtxKey := ⟨x.group, x.epoch, x.chunk⟩
  let whole := { i.pkt with payload := fit i.data i.pkt.length.toNat }
  i.pkt.ext = some x ∧ x.ckind = ckContribution ∧ (i.pkt.vc = 2 ∨ i.pkt.vc = 6) ∧ i.wait = false ∧
  d.malformedAt i.port whole = false ∧ d.holdsIngress i.port = false ∧ (d.portMode i.port = 1 → i.pkt.itag = d.tagNow) ∧
  d.guarded x.group = false ∧ paramsKnown x i.pkt i.data = true ∧ d.epochOf x.group x.epoch = some e ∧
  d.srcOf e i.pkt.src = some y ∧ e.lost.contains y = false ∧ d.closedTo k y x = false ∧ d.earlyStatus e whole x = none ∧
  d.streaming k y = false ∧ d.ctx k = some c ∧ c.params = some q ∧ q = Params.ofContribution whole x whole.payload ∧
  q.exact = true ∧ ∃ id, c.place = .resident id

/-- The context after an input's elements have been added as far as they have come, those from `i.spec` on being new. -/
def Sys2Proof.Machine.withElements (i : Input) (x : Ext) (e : EpochSt) (c : Ctx) (q : Params) : Ctx :=
  let vs := ((decodeAll q.fmt e.cfg.flushIn i.data).take (specCount x q i.data)).drop i.spec
  { c with recs := c.recs.take i.spec ++ enterAll q.fmt 1 (c.recs.drop i.spec) vs }

/-- The elements of a contribution count in their context as its flits come: the first flit and every further one add what they carry;
the end-of-packet check then offers the input once more without adding them again, and an input that fails it has them taken out,
which is counted, and returns its cells (R222, R405, R418, R419).
A contribution or partial segment that streams in is held, with its packet cells, until its check: an input of its port and SOP
sequence stands afterwards, holding the bytes carried so far. On a VC that carries no streaming, and for what is no such packet, it
adds nothing to any context (R222, R405, R418).
The check of an input (R203, R222, R228, R419). One that fails leaves no trace: it is forgotten, its cells return, and what it had
added is undone. One that passes at an endpoint under another node or partition is discarded and counted; otherwise it is offered to
its context under its key. Without such an input, or while FATAL, nothing happens. -/
def Obligations.StreamedInputsAreConfirmedOrUndone : Prop :=
  (
    ∀ (s : State) (p : PortNo) (sop : BitVec 16) (pkt : Packet) (more : List Byte) (x : Ext) (e : EpochSt) (y : Src) (c : Ctx)
      (q : Params) (u : Dev) (id : Nat) (i : Input),
      let k : CtxKey := ⟨x.group, x.epoch, x.chunk⟩
      let adds := fun (cmd : Instr) (j : Input) => ∃ t, exec cmd s = .next t ∧ t.ctx k = some (withElements j x e c q) ∧
        t.inputAt p.val sop = some { j with src := some y, key := some k, spec := specCount x q j.data }
      let first : Input :=
        { port := p.val, sop := sop, pkt := { pkt with payload := [] }, src := none, key := none, data := pkt.payload, spec := 0,
          wait := false, passed := false, alloc := id, tick := s.ticks }
      let rest : Dev := s.toDev.dropInput p.val sop
      let whole : Packet := { i.pkt with payload := i.data }
      let back : Dev := (rest.note p.val whole).1
      (pkt.ptype = ptColl → s.isOwn p.val pkt = true → s.fatal = false → s.portState p.val = 5 → s.inputAt p.val sop = none →
        s.isSummary pkt = false → s.admitIn p.val none pkt = (u, some id) → streamsInto u first x e y c q →
        adds (.contribution p sop pkt) first) ∧
      (s.inputAt p.val sop = some i → streamsInto rest { i with data := i.data ++ more } x e y c q →
        adds (.contributionFlit p sop more) { i with data := i.data ++ more }) ∧
      (s.inputAt p.val sop = some i → s.fatal = false → i.key = some k → i.src = some y → i.wait = false → whole.ext = some x →
        x.ckind = ckContribution → s.malformedAt p.val whole = false → s.portMode p.val = 1 → whole.itag = s.tagNow →
        back.closedTo k y x = false →
        ∃ t, exec (.contributionConfirm p sop) s = .next t ∧
          became (((((back.updCtx k fun c => if c.fixed then c else { c with cls := whole.cls.toNat }).offer (p.val / 128)
            { i with pkt := whole, src := none, key := none, data := [], wait := false, passed := true, tick := s.ticks }).review
              k).beatBarriers).reopen k) s t) ∧
      (s.inputAt p.val sop = some i → s.fatal = false → (s.port p.val).nak = false → i.key = some k → i.pkt.ext = some x →
        x.ckind = ckContribution → i.spec ≠ 0 → s.ctx k = some c → c.phase = .open → c.fixed = true → c.par.exact = true →
        s.epochAny x.group x.epoch = some e →
        ∃ t, exec (.contributionFail p sop) s = .next t ∧ t.inputAt p.val sop = none ∧ countsOne (colPg c.die + 0x128) s t ∧
          t.ctx k = some { c with recs := enterAll c.par.fmt (-1) c.recs ((decodeAll c.par.fmt e.cfg.flushIn i.data).take i.spec) } ∧
          t.allocs = s.allocs.filter (fun a => a.id != i.alloc))) ∧
  (
    ∀ (s : State) (p : PortNo) (sop : BitVec 16) (pkt : Packet) (x : Ext) (u : Dev) (id : Nat) (more : List Byte) (i : Input),
      let coll := pkt.ptype = ptColl ∧ (x.ckind = ckContribution ∨ x.ckind = ckPartial)
      let input : Input :=
        { port := p.val, sop := sop, pkt := { pkt with payload := [] }, src := none, key := none, data := pkt.payload, spec := 0,
          wait := false, passed := false, alloc := id, tick := s.ticks }
      (pkt.ext = none ∨ pkt.ptype ≠ ptColl ∨ s.isOwn p.val pkt = false ∨ s.fatal = true ∨ s.portState p.val ≠ 5 →
        ∃ t, exec (.contribution p sop pkt) s = .next t ∧ unchanged s t) ∧
      (pkt.ext = some x → coll → s.isOwn p.val pkt = true → s.fatal = false → s.portState p.val = 5 →
        s.inputAt p.val sop = none → s.isSummary pkt = false → s.admitIn p.val none pkt = (u, some id) →
        (∃ t, exec (.contribution p sop pkt) s = .next t ∧ (t.inputAt p.val sop).isSome) ∧
        (pkt.vc ≠ 2 → pkt.vc ≠ 6 →
          ∃ t, exec (.contribution p sop pkt) s = .next t ∧
            t = { s with toDev := settle { u with inputs := u.inputs ++ [input] } })) ∧
      (s.inputAt p.val sop = none → ∃ t, exec (.contributionFlit p sop more) s = .next t ∧ unchanged s t) ∧
      (s.inputAt p.val sop = some i → i.pkt.vc ≠ 2 → i.pkt.vc ≠ 6 →
        ∃ t, exec (.contributionFlit p sop more) s = .next t ∧
          t = { s with inputs := (s.inputs.filter fun y => !(y.port == p.val && y.sop == sop && !y.passed)) ++ [{ i with data := i.data ++ more }],
                       sent := t.sent, sig := t.sig } ∧ sends [] s t)) ∧
  (
    ∀ (s : State) (p : PortNo) (sop : BitVec 16) (i : Input),
      let rest : Dev := s.toDev.dropInput p.val sop
      let pkt : Packet := { i.pkt with payload := i.data }
      let back : Dev := (rest.note p.val pkt).1
      let ends := isEndpointMode (s.portMode p.val) = true
      let badId := pkt.src.toNat ≠ s.portCfg p.val 63 44 ∨ bit (s.portCfg p.val 43 28) pkt.part.toNat = false
      (s.inputAt p.val sop = none ∨ s.fatal = true →
        (∃ t, exec (.contributionConfirm p sop) s = .next t ∧ unchanged s t) ∧
        ∃ t, exec (.contributionFail p sop) s = .next t ∧ unchanged s t) ∧
      (s.inputAt p.val sop = some i → s.fatal = false → i.key = none → i.spec = 0 →
        ((s.port p.val).nak = false →
          ∃ t, exec (.contributionFail p sop) s = .next t ∧ servedAs rest i.alloc s t ∧ t.inputAt p.val sop = none) ∧
        (s.malformedAt p.val pkt = false → ends → badId →
          ∃ t, exec (.contributionConfirm p sop) s = .next t ∧
            t = { s with toDev := settle ((back.release i.alloc).count (lnkPg (p.val / 8) + 0x120)) }) ∧
        (∀ x, s.malformedAt p.val pkt = false → s.portMode p.val = 1 → pkt.itag = s.tagNow → pkt.ext = some x →
          ∃ t, exec (.contributionConfirm p sop) s = .next t ∧
            t = { s with toDev := settle (((back.offer (p.val / 128)
              { i with pkt := pkt, src := none, key := none, data := [], spec := 0, wait := false, passed := true, tick := s.ticks }).review
                ⟨x.group, x.epoch, x.chunk⟩).beatBarriers) })))

/-- An input offered to its group: under the guard of a group reset it is discarded and counted (R440), for a group without a valid
entry too (R387), and for another epoch than the current one and the next too (R402); a source that has a confirmed input, or is lost, makes it a duplicate,
counted and discarded (R417, R431). Each returns the input's cells.
What a partial or a result from the tree does once its cells are held: a partial is offered to its context; a result is discarded
and counted under the guard (R440) or for a group that has no entry here (R387), is nothing at a root (R413), and changes nothing in a
context that holds its result already but the port it is known to come from (R262, R425). A context whose partial has left, or whose
copy is lost (R428), takes it (log 27, log 96), unless the loss of its chunk has come in this beat (R444). So is an ACK
counted and discarded (R387, R440); one that finds no context, or a context with no copies out, is nothing, and one of a child with a
copy out counts what it says was delivered (R416). -/
def Obligations.TreeTrafficMeetsItsGroup : Prop :=
  (
    ∀ (s : State) (d : Nat) (i : Input) (x : Ext) (c : Ctx) (e : EpochSt) (y : Src), i.pkt.ext = some x →
      let k : CtxKey := ⟨x.group, x.epoch, x.chunk⟩
      let f := s.sees d (s.fileFor i.pkt.itag)
      let gone := fun (a : Nat) => s.toDev.offer d i = (s.toDev.count a).release i.alloc
      (s.guarded x.group = true → gone (colPg d + 0x170)) ∧
      (s.guarded x.group = false → s.epochOf x.group x.epoch = none → groupValid f x.group = false → gone (colPg d + 0x110)) ∧
      (∀ n, s.guarded x.group = false → s.epochOf x.group x.epoch = none → groupValid f x.group = true →
        (s.grp x.group).number = some n → x.epoch ≠ n → x.epoch ≠ n + 1 →
        gone (colPg d + 0x118)) ∧
      (s.guarded x.group = false → s.epochOf x.group x.epoch = some e → i.src = some y → s.ctx k = some c → c.phase = .open →
        ((∃ z, c.src y = some z ∧ z.conf = true) ∨ x.pattern ≠ 3 ∧ e.lost.contains y = true) → gone (colPg c.die + 0x120))) ∧
  (
    ∀ (s : State) (p : PortNo) (pkt : Packet) (u : Dev) (q : Packet) (id : Nat) (x : Ext), heldIn p pkt s u q id →
      pkt.ext = some x → q.ext = some x → pkt.ptype = ptColl →
      let k : CtxKey := ⟨x.group, x.epoch, x.chunk⟩
      let f := u.fileFor q.itag
      let par : Params := { pattern := x.pattern.toNat, func := x.func.toNat, fmt := x.fmt.toNat, sat := x.sat,
                            length := q.payload.length, fused := if x.pattern = 7 then fit q.payload (fusedHead q.payload) else [] }
      let d := p.val / 128
      let entry := u.groupHere d f x.group x.epoch
      (x.ckind = ckPartial → s.isSummary pkt = false →
        ∃ t, exec (.collPartial p pkt) s = .next t ∧ t = { s with toDev := settle (u.takeColl p.val q id) }) ∧
      (x.ckind = ckResult →
        let does := fun (d : Dev) => ∃ t, exec (.collResult p pkt) s = .next t ∧ servedAs d.beatBarriers id s t
        (u.guarded x.group = true → does (u.count (colPg d + 0x170))) ∧
        (u.guarded x.group = false → entry = none → does (u.count (colPg d + 0x110))) ∧
        (∀ en, u.guarded x.group = false → entry = some en → en.root = true → does u) ∧
        (∀ en c, u.guarded x.group = false → entry = some en → en.root = false → u.ctx k = some c → x.status = 0 →
          let v := u.updCtx k fun c => { c with came := some p.val }
          (u.lostNow.contains k = true → does (v.count (colPg c.die + 0x120))) ∧
          (u.lostNow.contains k = false → c.phase = .retained → does v) ∧
          (u.lostNow.contains k = false → c.phase = .sentUp ∨ c.phase = .copyLost → does (v.takeResult k q par 0 x.form.toNat)))) ∧
      (x.ckind = ckAck → x.pattern ≠ 6 →
        let does := fun (d : Dev) => ∃ t, exec (.collAck p pkt) s = .next t ∧ servedAs d id s t
        (u.guarded x.group = true → does (u.count (colPg d + 0x170))) ∧
        (u.guarded x.group = false → entry = none → does (u.count (colPg d + 0x110))) ∧
        (u.guarded x.group = false → entry.isSome = true → u.ctx k = none → x.status = 0 → does u) ∧
        (∀ c, u.guarded x.group = false → entry.isSome = true → u.ctx k = some c → c.phase ≠ .retained → c.unacked = [] →
          x.status ≠ 4 → x.status ≠ 0x0C → does u) ∧
        (∀ c, u.guarded x.group = false → entry.isSome = true → u.ctx k = some c → x.status = 0 →
          c.phase ≠ .retained ∨ u.ticks < c.retainedAt + u.retainBeats →
          let mine := (c.unacked.map (·.1)).filter fun lp =>
            match u.placeOf lp with | some q' => u.peerNode q' == q.src.toNat | none => false
          mine ≠ [] →
          does ((u.updCtx k fun c => { c with unacked := c.unacked.filter fun y => !mine.contains y.1,
                                              delivered := c.delivered + leAt q.payload 0 4 }).tryAck k))))

/-- The timers and the completion of a context act on a context in the phase they belong to, once their time has come, and not while
FATAL: rounding yields the root's result, or that of a combine (R39, R540); retention ends the context and leaves what its ACK said (R426); a silent child's
copy is, once it has left, sent again, or is lost when it fails its check (R428), or the child counts as undelivered after the last
resend (R427); a context too long open completes with status 9
(R408).
Group reset ends what the group has here and starts its guard, whichever die the register is written on; the guard ends after its
beats, and with no adapter work of the group nothing else changes (R439, R440). -/
def Obligations.ContextTimersAndGuards : Prop :=
  (
    ∀ (s : State) (k : CtxKey) (child : LogPort) (c : Ctx),
      let idle := fun (i : Instr) => ∃ t, exec i s = .next t ∧ unchanged s t
      let limit := s.cfg (colPg 0 + 0x1010) 31 0
      let held := match c.route with | some r => r.contribs.map (·.2.2) | none => []
      (s.ctx k = none ∨ s.fatal = true →
        idle (.roundingDone k) ∧ idle (.retainExpire k) ∧ idle (.resendTimeout k child) ∧ idle (.contextTimeout k)) ∧
      (s.ctx k = some c →
        (c.phase ≠ .complete → idle (.roundingDone k)) ∧
        (c.phase ≠ .retained ∨ s.ticks < c.retainedAt + s.retainBeats → idle (.retainExpire k)) ∧
        (c.phase ≠ .open ∨ limit = 0 ∨ s.ticks < c.opened + limit → idle (.contextTimeout k)) ∧
        (c.unacked.find? (·.1 == child.val) = none → idle (.resendTimeout k child))) ∧
      (s.ctx k = some c → s.fatal = false →
        (c.phase = .complete → c.route = none →
          ∃ t, exec (.roundingDone k) s = .next t ∧ t = { s with toDev := settle (s.toDev.rootResult k).beatBarriers }) ∧
        (∀ e, c.phase = .complete → c.route.isSome = true → s.epochAny k.group k.epoch = some e →
          ∃ t, exec (.roundingDone k) s = .next t ∧ became (s.toDev.combineResult k e) s t) ∧
        (c.phase = .retained → c.retainedAt + s.retainBeats ≤ s.ticks → c.route = none → s.epochAny k.group k.epoch = none →
          ∃ t, exec (.retainExpire k) s = .next t ∧ t.ctx k = none ∧
            t.released = s.released ++ [(k, c.delivered, c.undelivered)] ∧ t.mem = s.mem ∧
            ∀ j, j ≠ k → t.ctx j = s.ctx j) ∧
        (c.phase = .open → limit ≠ 0 → c.opened + limit ≤ s.ticks →
          ∃ t, exec (.contextTimeout k) s = .next t ∧ became ((s.toDev.releaseAll held).failCtx k 9).beatBarriers s t) ∧
        (∀ at_ n, c.phase = .retained → c.unacked.find? (·.1 == child.val) = some (child.val, at_, n) →
          at_ + max 1024 (s.cfg (colPg 0 + 0x1008) 31 0) ≤ s.ticks → s.copyWaits k child.val = false →
          (s.resendMax ≤ n →
            ∃ t, exec (.resendTimeout k child) s = .next t ∧
              t = { s with toDev := settle ((s.toDev.notDelivered (some k) child.val).tryAck k) }) ∧
          (n < s.resendMax → s.copyGood c = true → s.logLive child.val = true →
            ∃ t, exec (.resendTimeout k child) s = .next t ∧
              let v := (s.count (colPg c.die + 0x130)).updCtx k fun c =>
                { c with unacked := c.unacked.map fun y => if y.1 = child.val then (child.val, s.ticks, y.2.2 + 1) else y }
              became ((v.form c.die (c.resultPkt s.own) (.copies [child.val] (some k) c.came)).1.tryAck k) s t) ∧
          (n < s.resendMax → s.copyGood c = false →
            ∃ t, exec (.resendTimeout k child) s = .next t ∧ t = { s with toDev := settle (s.toDev.copyLost k) })))) ∧
  (
    ∀ (s : State) (d : DieNo) (g : BitVec 24) (at_ : Nat),
      (∃ t, exec (.colGrpReset d g) s = .next t ∧ t = { s with toDev := settle (s.toDev.groupResetAll g) }) ∧
      (∀ d', exec (.colGrpReset d g) s = exec (.colGrpReset d' g) s) ∧
      ((s.grp g).guardEnd = none ∨ s.fatal = true → ∃ t, exec (.resetGuardEnd g) s = .next t ∧ unchanged s t) ∧
      ((s.grp g).guardEnd = some at_ → s.ticks < at_ → ∃ t, exec (.resetGuardEnd g) s = .next t ∧ unchanged s t) ∧
      ((s.grp g).guardEnd = some at_ → at_ ≤ s.ticks → s.fatal = false → (∀ w ∈ s.works, w.group ≠ g) →
        ∃ t, exec (.resetGuardEnd g) s = .next t ∧ t = { s with groups := t.groups, sent := t.sent, sig := t.sig } ∧
          t.grp g = { s.grp g with guardEnd := none } ∧ (∀ h, h ≠ g → t.grp h = s.grp h) ∧ sends [] s t))

/-! ### Tables and dispatch -/

/-- A table request that has come in is discarded and counted under the guard (R440), answered MALFORMED (8) for a group without an
open epoch or valid entry (R387, R513), and otherwise served under its table's header: NULL for an empty one (R516), a gather at once or
once earlier batches are applied (R527), a scatter-add by the row-home cores. A table response lands at a member that waits for its chunk, and is nothing
to anyone else; one whose digest differs ends its chunk with INTEGRITY (0x0C) (R524).
A gather waits while an earlier batch of its rows is pending, and then leaves the waiting list, reads its rows and is answered; a
result of rows lands, a contribution is kept at the root and goes up elsewhere, one of a guarded group is discarded, and other kinds are
nothing (R440, R527, R530).
An idle lane of a sparse engine takes the oldest unstarted segment of its fuller neighbour where
stealing is on; the end of a segment takes it from its lane and adds its exact record to its row's, and the
request ends with its last one (R508 to R511, R522). Nothing happens while FATAL. -/
def Obligations.SparseTrafficIsServed : Prop :=
  (
    ∀ (s : State) (p : PortNo) (pkt : Packet) (u : Dev) (q : Packet) (id : Nat) (x : Ext) (ecc : Ecc), heldIn p pkt s u q id →
      q.ext = some x →
      let k : CtxKey := ⟨x.group, x.epoch, x.chunk⟩
      let par : Params := { pattern := 5, func := x.func.toNat, fmt := x.fmt.toNat, sat := x.sat, length := 0, fused := [] }
      let waits := fun (w : Work) => w.group == x.group && w.epoch == x.epoch && w.pattern == 5 && w.func == x.func.toNat
          && w.rank == x.rank.toNat && decide (w.first.toNat ≤ x.chunk.toNat) && decide (x.chunk.toNat < w.first.toNat + w.count)
      (pkt.ptype = ptTableReq →
        let does := fun (d : Dev) => ∃ t, exec (.tableReq p pkt ecc) s = .next t ∧ servedAs d id s t
        (u.guarded x.group = true → does (u.count (colPg (p.val / 128) + 0x170))) ∧
        (u.guarded x.group = false → u.epochOf x.group x.epoch = none → groupValid (u.fileFor q.itag) x.group = false →
          does (Dev.takeAnswer (u.answerTable (p.val / 128) (tableAnswer u.own q x 8 [])))) ∧
        (∀ v w e h core, u.guarded x.group = false → (u.epochOf x.group x.epoch ≠ none ∨ groupValid (u.fileFor q.itag) x.group = true) →
          u.admitEpoch (p.val / 128) (u.fileFor q.itag) x.group x.epoch = (v, some e) → v.tableHdr e q ecc = (w, .inr h) →
          homeOf (e.tableCores h.part) e.entry.salt k = some core → x.ckind = ckContribution →
          let n := leAt q.payload 8 4
          (x.func = 0 → n * (h.rowBytes + 2 * rowTiles h.elems) ≤ 4096 → q.payload.length = 16 + 4 * n → n ≠ 0 →
            w.gatherWaits q x = false → does (Dev.takeAnswer (w.serveGather (p.val / 128) q x h core))) ∧
          (x.func = 0 → n * (h.rowBytes + 2 * rowTiles h.elems) ≤ 4096 → q.payload.length = 16 + 4 * n → n ≠ 0 →
            w.gatherWaits q x = true →
            does { w with gathers := w.gathers ++ [{ key := k, src := q.src, port := p.val, pkt := q }] }) ∧
          (x.func ≠ 0 → h.group = x.group.toNat → n = 0 →
            does (Dev.takeAnswer ((w.count (corePg core + 0x108)).answerTable (p.val / 128) (tableAnswer w.own q x 1 [])))) ∧
          (x.func ≠ 0 → h.group = x.group.toNat → n ≠ 0 →
            does (Dev.takeAnswer (w.serveScatter (p.val / 128) q x h e core))))) ∧
      (pkt.ptype = ptTableResp →
        let does := fun (d : Dev) => ∃ t, exec (.tableResp p pkt) s = .next t ∧ servedAs d id s t
        (u.guarded x.group = true → does (u.count (colPg (p.val / 128) + 0x170))) ∧
        (u.guarded x.group = false → u.works.find? waits = none → does u) ∧
        (∀ w, u.guarded x.group = false → u.works.find? waits = some w →
          (w.landed.contains x.chunk.toNat = true → does u) ∧
          (w.landed.contains x.chunk.toNat = false → q.trailer ≠ chunkDigest k par q.payload →
            does (u.chunkDone w x.chunk.toNat 0x0C 0)) ∧
          (w.landed.contains x.chunk.toNat = false → q.trailer = chunkDigest k par q.payload → x.func ≠ 0 ∨ q.payload = [] →
            does (u.chunkDone w x.chunk.toNat x.status.toNat 0))))) ∧
  (
    ∀ (s : State) (p : PortNo) (pkt : Packet) (u : Dev) (q : Packet) (id : Nat) (x : Ext) (k : CtxKey) (src : BitVec 20) (ecc : Ecc),
      (s.fatal = true ∨ s.gathers.find? (fun g => g.key == k && g.src == src) = none →
        ∃ t, exec (.tableGatherRead k src ecc) s = .next t ∧ unchanged s t) ∧
      (∀ g y, s.fatal = false → s.gathers.find? (fun g => g.key == k && g.src == src) = some g → g.pkt.ext = some y →
        s.gatherWaits g.pkt y = true → ∃ t, exec (.tableGatherRead k src ecc) s = .next t ∧ unchanged s t) ∧
      (∀ g y, s.fatal = false → s.gathers.find? (fun g => g.key == k && g.src == src) = some g → g.pkt.ext = some y →
        s.gatherWaits g.pkt y = false → s.epochAny y.group y.epoch = none →
        ∃ t, exec (.tableGatherRead k src ecc) s = .next t ∧
          became (Dev.takeAnswer (({ s.toDev with gathers := s.gathers.filter fun z => !(z.key == k && z.src == src) } : Dev).answerTable
            (g.port / 128 % 4) (tableAnswer s.own g.pkt y 5 []))) s t) ∧
      (∀ g y e v h r m, s.fatal = false → s.gathers.find? (fun g => g.key == k && g.src == src) = some g → g.pkt.ext = some y →
        s.gatherWaits g.pkt y = false → s.epochAny y.group y.epoch = some e →
        ({ s.toDev with gathers := s.gathers.filter fun z => !(z.key == k && z.src == src) } : Dev).tableHdr e g.pkt .clean = (v, .inr h) →
        (gatherIdx g.pkt).find? (fun r => decide (r < h.rows)) = some r → v.hbmMeets (h.rowAddr r) ecc = (m, false) →
        ∃ t, exec (.tableGatherRead k src ecc) s = .next t ∧
          became (Dev.takeAnswer (m.serveGather (g.port / 128 % 4) g.pkt y h ((homeOf (e.tableCores h.part) e.entry.salt k).getD 0))) s t) ∧
      (∀ g y e v st, s.fatal = false → s.gathers.find? (fun g => g.key == k && g.src == src) = some g → g.pkt.ext = some y →
        s.gatherWaits g.pkt y = false → s.epochAny y.group y.epoch = some e →
        ({ s.toDev with gathers := s.gathers.filter fun z => !(z.key == k && z.src == src) } : Dev).tableHdr e g.pkt .clean = (v, .inl st) →
        ∃ t, exec (.tableGatherRead k src ecc) s = .next t ∧
          t = { s with toDev := settle (Dev.takeAnswer (v.answerTable (g.port / 128 % 4) (tableAnswer v.own g.pkt y st []))) }) ∧
      (heldIn p pkt s u q id → q.ext = some x → ∀ c : Instr,
        (c = .dispatchRows p pkt ∧ pkt.ptype = ptDispatchRows ∨ c = .combineRows p pkt ∧ pkt.ptype = ptCombineRows) →
        let does := fun (d : Dev) => ∃ t, exec c s = .next t ∧ servedAs d id s t
        (u.guarded x.group = true → does (u.count (colPg (p.val / 128) + 0x170))) ∧
        (u.guarded x.group = false → x.ckind = ckResult → does (u.routeLand (p.val / 128) q x)) ∧
        (u.guarded x.group = false → x.ckind ≠ ckResult → x.ckind ≠ ckContribution → does u) ∧
        (∀ v, u.guarded x.group = false → x.ckind = ckContribution →
          u.admitEpoch (p.val / 128) (u.fileFor q.itag) x.group x.epoch = (v, none) → does v) ∧
        (∀ v e, u.guarded x.group = false → x.ckind = ckContribution →
          u.admitEpoch (p.val / 128) (u.fileFor q.itag) x.group x.epoch = (v, some e) →
          ∃ t, exec c s = .next t ∧
            became (if e.entry.root then v.routeHere (p.val / 128) q x e p.val id
              else (v.routeParents p.val q (v.fileFor q.itag) e.parents
                { alloc := some id, tick := sopTick p pkt s, id := s.nextId }).routeSeen (p.val / 128) q x) s t))) ∧
  (
    ∀ (s : State) (c : CoreNo) (lane : Fin 16),
      let ls := (s.core c.val).lanes
      let hi := (lane.val + 1) % 16
      let lo := (lane.val + 15) % 16
      let v := if laneLoad (ls.getD lo []) > laneLoad (ls.getD hi []) then lo else hi
      (s.fatal = true ∨ ls.getD lane.val [] ≠ [] ∨ s.cfg (corePg c.val + 0x1800) 16 16 = 0 →
        ∃ t, exec (.laneSteal c lane) s = .next t ∧ unchanged s t) ∧
      (∀ r x rest, s.fatal = false → ls.getD lane.val [] = [] → s.cfg (corePg c.val + 0x1800) 16 16 ≠ 0 →
        ls.getD v [] = r :: x :: rest →
        ∃ t, exec (.laneSteal c lane) s = .next t ∧ onlyRegs [corePg c.val + 0x820] [] { s with cores := t.cores } t ∧
          countsOne (corePg c.val + 0x820) s t ∧
          (t.core c.val) = { s.core c.val with lanes := (ls.set v (r :: rest)).set lane.val [x] }) ∧
      (s.fatal = true ∨ ls.getD lane.val [] = [] → ∃ t, exec (.segmentDone c lane) s = .next t ∧ unchanged s t) ∧
      (∀ g rest w, s.fatal = false → ls.getD lane.val [] = g :: rest → s.tableWorks.find? (·.id == g.req) = some w → 1 < w.left →
        ∃ t, exec (.segmentDone c lane) s = .next t ∧
          t = { s with cores := t.cores, tableWorks := t.tableWorks, sent := t.sent, sig := t.sig } ∧
          t.core c.val = { s.core c.val with lanes := ls.set lane.val rest } ∧
          t.tableWorks = updWhere (·.id == w.id) (fun _ =>
            { w with left := w.left - 1,
                     adds := w.adds.map fun a => if a.1 = g.row then (a.1, mergeRecs w.fmt 1 a.2 g.recs) else a }) s.tableWorks ∧
          sends [] s t))

/-! ### Register pages -/

/-- A register word after a write: a bit that the access reaches (`size` bytes from byte `lane` on) takes the written bit where
`rw` has a one, becomes 0 where `w1c` has a one and a 1 is written, and stays as it is everywhere else. -/
def Sys2Proof.Machine.landed (rw w1c lane size : Nat) (v old new : Word) : Prop :=
  ∀ j, j < 64 →
    let reached := 8 * lane ≤ j ∧ j < 8 * lane + 8 * size
    let x := v.getLsbD (j - 8 * lane)
    (¬ reached ∨ bit rw j = false ∧ (bit w1c j = false ∨ x = false) → new.getLsbD j = old.getLsbD j) ∧
    (reached → bit rw j = true → new.getLsbD j = x) ∧
    (reached → bit rw j = false → bit w1c j = true → x = true → new.getLsbD j = false)

/-- The page of a register address is present (R58; the injection page only in factory test mode, R722). -/
def Sys2Proof.Machine.reachable (s : State) (a : Nat) : Prop :=
  regionOf a = .regs ∧ s.pagePresent (addrDie a) (addrBlk a) (addrInst a) = true

/-- A privileged write to a staged register or to a table that is not read-only lands in the staged instar, bit by bit, and nowhere
else, while STATE is IDLE or RETIRE; while it is ARMED or HOLD nothing is written and INS_LOCK_DROP_CNT counts (R67, R76, R77,
R805). Entries 0 to 3 of
HBM_GROUP_OWNER of die 0, stack 0 keep what they hold (R660).
A privileged write to a header register, or to a live register of a block whose live registers only hold what is written, changes
that register alone: RW and WS bits take the value, W1C bits written 1 become 0, every other bit stays (R12, R67, R69).
Accesses that are dropped silently change nothing but a count of dropped accesses: an absent page counts in TOP, and so does the
injection page outside factory test mode, which is the model's reading (log 48); an offset that
holds no register or another width in its own page, and an unprivileged write to a header, a staged register or a table in its
own page too (R62, R63, R65). While FATAL an unprivileged write is not served and not counted (R720). -/
def Obligations.RegisterWritesLandOrAreDropped : Prop :=
  (
    ∀ (s : State) (i : Initiator) (addr : BitVec 44) (wide : Bool) (v : Word),
      let a := addr.toNat
      let off := addrOff a
      let size := if wide then 8 else 4
      let lands := fun (rw lane : Nat) =>
        (s.insState ≠ 1 → s.insState ≠ 2 → ∃ t, exec (.registerWrite i (addr.setWidth 64) wide v) s = .next t ∧
          t = { s with staged := t.staged, sent := t.sent, sig := t.sig } ∧ sends [] s t ∧
          (∀ b, b ≠ s.home (a - lane) → RegFile.get t.staged b = RegFile.get s.staged b) ∧
          landed rw 0 lane size v (RegFile.get s.staged (s.home (a - lane))) (RegFile.get t.staged (s.home (a - lane)))) ∧
        (s.insState = 1 ∨ s.insState = 2 → ∃ t, exec (.registerWrite i (addr.setWidth 64) wide v) s = .next t ∧
          onlyRegs [insPg + 0x148] [] s t ∧ countsOne (insPg + 0x148) s t)
      reachable s a → s.privileged i = true →
      (∀ r, 0x1000 ≤ off → off < 0x4000 → writeReg (addrDie a) (addrBlk a) (addrInst a) off size = some r →
        lands r.rw (off - r.base off)) ∧
      (∀ x, 0x4000 ≤ off → findTbl (addrBlk a) (addrInst a) off = some x → x.ro = false → off % size = 0 →
        lands (if controlOwner a then 0 else x.mask (off - off % 8)) (off % 8))) ∧
  (
    ∀ (s : State) (i : Initiator) (addr : BitVec 44) (wide : Bool) (v : Word) (r : Reg),
      let a := addr.toNat
      let off := addrOff a
      let size := if wide then 8 else 4
      let home := pg (addrDie a) (addrBlk a) (addrInst a) + r.base off
      reachable s a → s.privileged i = true → off < 0x1000 → off < 0x100 ∨ addrBlk a ∈ [0, 4, 5, 7, 10, 11] →
      writeReg (addrDie a) (addrBlk a) (addrInst a) off size = some r →
      ∃ t, exec (.registerWrite i (addr.setWidth 64) wide v) s = .next t ∧ onlyRegs [home] [] s t ∧
        landed r.rw r.w1c (off - r.base off) size v (RegFile.get s.live home) (RegFile.get t.live home)) ∧
  (
    ∀ (s : State) (i : Initiator) (addr : BitVec 44) (wide : Bool) (v : Word),
      let a := addr.toNat
      let off := addrOff a
      let size := if wide then 8 else 4
      let own := pg (addrDie a) (addrBlk a) (addrInst a) + 0x28
      let drops := fun (c : Nat) => ∃ t, exec (.registerWrite i (addr.setWidth 64) wide v) s = .next t ∧ onlyRegs [c] [] s t ∧ countsOne c s t
      (s.fatal = true → s.privileged i = false → i ≠ .jtag →
        ∃ t, exec (.registerWrite i (addr.setWidth 64) wide v) s = .next t ∧ unchanged s t) ∧
      (s.fatal = false ∨ s.privileged i = true → regionOf a = .hole → drops (topPg + 0x28)) ∧
      (s.fatal = false ∨ s.privileged i = true → regionOf a = .regs →
        s.pagePresent (addrDie a) (addrBlk a) (addrInst a) = false → drops (topPg + 0x28)) ∧
      (reachable s a → s.privileged i = true → off < 0x4000 →
        writeReg (addrDie a) (addrBlk a) (addrInst a) off size = none → drops own) ∧
      (reachable s a → s.privileged i = true → 0x4000 ≤ off →
        findTbl (addrBlk a) (addrInst a) off = none ∨ off % size ≠ 0 → drops own) ∧
      (s.fatal = false → reachable s a → s.privileged i = false → i ≠ .jtag → off < 0x100 ∨ 0x1000 ≤ off → drops own))

/-- Registers with a behaviour act as the command that they stand for: the molt commands, signing, BEAT_CTRL, port-group reset,
core reset, CTL_HART_RUN, the transmit indices of the rings, the UART, SPI and PWR_RESET_CTRL (R91 to R96, R119, R132, R193,
R603, R731, R742 to R745, R784, R808). -/
def Obligations.RegistersActAsTheirCommands : Prop :=
  ∀ (s : State) (i : Initiator) (v : Word), s.privileged i = true →
    let narrow := fun (a : Nat) => exec (.registerWrite i (BitVec.ofNat 64 a) false v) s
    let wide := fun (a : Nat) => exec (.registerWrite i (BitVec.ofNat 64 a) true v) s
    let low := BitVec.ofNat 32 (fld v 31 0)
    let high := BitVec.ofNat 32 (fld v 63 32)
    (fld v 2 0 = 0 → ∃ t, narrow (insPg + 0x118) = .next t ∧ unchanged s t) ∧
    (fld v 2 0 = 1 → narrow (insPg + 0x118) = exec (.arm (flag v 8)) s) ∧
    (fld v 2 0 = 2 → narrow (insPg + 0x118) = exec (.armNow (flag v 8)) s) ∧
    (fld v 2 0 = 3 → narrow (insPg + 0x118) = exec .cancel s) ∧
    (fld v 2 0 = 4 → narrow (insPg + 0x118) = exec (.rollbackArm (flag v 8)) s) ∧
    (fld v 2 0 = 5 → narrow (insPg + 0x118) = exec (.rollbackNow (flag v 8)) s) ∧
    (6 ≤ fld v 2 0 → narrow (insPg + 0x118) = exec (.malformedCmd (flag v 0)) s) ∧
    (flag v 0 = true → narrow (insPg + 0x290) = exec .insSignStart s) ∧
    narrow (beatPg 0 + 0x110) = exec (.beatCtrlRoleWrite low) s ∧
    (s.groupPresent 0 = true → narrow (lnkPg 0 + 0x110) = exec (.lnkGroupReset 0 (flag v 0)) s) ∧
    (s.corePresent 0 = true → narrow (corePg 0 + 0x100) = exec (.coreCtrlReset 0 (flag v 0)) s) ∧
    narrow (ctlPg + 0x108) = exec (.hartRun (BitVec.ofNat 16 (fld v 15 0))) s ∧
    (flag v 0 = false → narrow (ctlPg + 0x118) = exec .llcCarWrite s) ∧
    wide (ctlPg + 0x318) = exec (.mgmtTx high) s ∧
    wide (ctlPg + 0x428) = exec (.mgmtEthTx 0 high) s ∧
    wide (ctlPg + 0x468) = exec (.mgmtEthTx 1 high) s ∧
    narrow (ctlPg + 0x500) = exec (.uartTxWrite (BitVec.ofNat 8 (fld v 7 0))) s ∧
    wide (ctlPg + 0x600) = exec (.spiCmd v) s ∧
    narrow (pwrPg + 0x180) = exec (.pwrResetCtrlWrite low) s

/-- Pairs, in the model's own reading of them (log 60): the low word waits in the latch and nothing else changes; the high word
commits the latch and itself as one 64-bit write; a 64-bit write commits both and is the last low word written: MOLT_BEAT and the
beats of fabric time then hold the whole 64 bits, where they are writable; a register that is no pair takes the write as it is (R78 to R81). REG_ACCESS sends the last value read and then writes for JTAG, or reads: the
value that JTAG's view gives, or memory, is the last one read (R64, R749). -/
def Obligations.PairsAndJtagReachTheBus : Prop :=
  ∀ (s : State) (i : Initiator) (addr : BitVec 44) (v : BitVec 32) (w : Word) (dr : BitVec 112),
    let a := addr.toNat
    let at_ : BitVec 64 := addr.setWidth 64
    let latched : Nat → State := fun x => { s with latches := RegFile.set s.latches a (setFld (RegFile.get s.latches a) 31 0 x),
                                                   pairs := if s.pairs.contains a then s.pairs else s.pairs ++ [a] }
    let high : BitVec 64 := (addr + 4).setWidth 64
    let js : State := { s with toDev := (s.updCtl fun c => { c with ir := 0x11, dr := c.lastRead }).emit (.jtag s.ctl.lastRead) }
    let place := bits dr.toNat 111 68
    let target := BitVec.ofNat 64 place
    let big := bit dr.toNat 65
    (s.pairAt i a = true → ∃ t, exec (.pairLowWrite i at_ v) s = .next t ∧
      t = { latched v.toNat with sent := t.sent, sig := t.sig } ∧ sends [] s t) ∧
    (s.pairAt i a = true → a % 8 = 0 →
      exec (.pairHighWrite i high v) s =
        exec (.registerWrite i at_ true (BitVec.ofNat 64 (s.latch a + 2 ^ 32 * v.toNat))) s) ∧
    (s.pairAt i a = true → exec (.pairWrite64 i at_ w) s =
      exec (.registerWrite i at_ true w) (latched (fld w 31 0))) ∧
    (s.pairAt i a = false → exec (.pairLowWrite i at_ v) s = exec (.registerWrite i at_ false (v.setWidth 64)) s ∧
      exec (.pairWrite64 i at_ w) s = exec (.registerWrite i at_ true w) s) ∧
    (∀ r, s.pairAt i a = true → a % 8 = 0 → s.privileged i = true →
      addrBlk a = 1 ∧ addrOff a ∉ [0x118, 0x290] ∨ addrBlk a = 2 ∧ addrOff a < 0x400 ∧ addrOff a ∉ [0x110, 0x128] →
      writeReg (addrDie a) (addrBlk a) (addrInst a) (addrOff a) 8 = some r →
      let home := pg (addrDie a) (addrBlk a) (addrInst a) + r.base (addrOff a)
      let lands := fun (x : Word) (t : State) =>
        landed r.rw r.w1c (addrOff a - r.base (addrOff a)) 8 x (RegFile.get s.live home) (RegFile.get t.live home)
      (∃ t, exec (.pairHighWrite i high v) s = .next t ∧ onlyRegs [home] [] s t ∧
        lands (BitVec.ofNat 64 (s.latch a + 2 ^ 32 * v.toNat)) t) ∧
      ∃ t, exec (.pairWrite64 i at_ w) s = .next t ∧ onlyRegs [home] [] (latched (fld w 31 0)) t ∧ lands w t) ∧
    (s.pairAt i (a - 4) = false ∨ a % 8 ≠ 4 →
      exec (.pairHighWrite i at_ v) s = exec (.registerWrite i at_ false (v.setWidth 64)) s) ∧
    (bits dr.toNat 67 66 = 2 → exec (.regAccess dr) s =
      exec (.registerWrite .jtag target big (BitVec.ofNat 64 (bits dr.toNat 63 0))) js) ∧
    (bits dr.toNat 67 66 = 1 → s.ctl.rxFifo = [] ∨ place ≠ ctlPg + 0x500 →
      let got := if regionOf place = .regs then (js.busRead .jtag place (if big then 8 else 4)).2
        else (js.memLoad .jtag place (if big then 8 else 4)).2
      ∃ t, exec (.regAccess dr) s = .next t ∧ t.ctl = { js.ctl with lastRead := BitVec.ofNat 64 got } ∧
        t = { js with ctl := t.ctl, live := t.live, sent := t.sent, sig := t.sig } ∧ sends [.jtag s.ctl.lastRead] s t) ∧
    (bits dr.toNat 67 66 = 0 ∨ bits dr.toNat 67 66 = 3 → ∃ t, exec (.regAccess dr) s = .next t ∧
      t = { js with sent := t.sent, sig := t.sig } ∧ sends [.jtag s.ctl.lastRead] s t)

/-! ### Management plane, Ethernet and adapter ports -/

/-- MGMT packets fill the receive ring: header, arrival beat, arrival port, LENGTH and the payload in slot TAIL, then TAIL counts on; a
ring that is off or full discards and counts them (R738, R739). TAIL of the transmit ring is what software writes; a slot that
holds no MGMT packet that may be sent is consumed and counted, one that finds no cells stays, and another one leaves for the port
that the tables choose, or for the receive ring where it is this device's own, HEAD counting on (R740). While CAR is 1 the rings lie
in the LLC (R735; the model's reading, log 137).
The management Ethernet ports: frames of 64 to 9,216 bytes with a right FCS are stored in the buffer of descriptor HEAD, which
is completed with its length and status 0, or with status 1 and no data where the buffer is not in the control partition; other
frames, and frames that find no descriptor, are counted. A descriptor to send puts its frame on the wire and is completed. A PAUSE
frame holds the port for its quanta, 2 beats each; when they have passed the port goes on. A link that goes down ends a pause; a
disabled port stays down (R741 to R743). -/
def Obligations.ManagementTraffic : Prop :=
  (
    (∀ (s : State) (p : PortNo) (pkt : Packet) (u : Dev) (q : Packet) (id : Nat), heldIn p pkt s u q id → pkt.ptype = ptMgmt →
      let base := u.lv (ctlPg + 0x300) 63 0
      let head := u.lv (ctlPg + 0x308) 31 0
      let tail := u.lv (ctlPg + 0x308) 63 32
      let used := (tail + 2 ^ 32 - head) % 2 ^ 32
      let slot := leBytes 16 q.header ++ leBytes 8 u.beat.toNat ++ leBytes 2 (u.logNum p.val) ++ leBytes 2 0
        ++ leBytes 4 q.length.toNat ++ List.replicate 32 0 ++ q.payload
      (mgmtRingOn base = none → ∃ t, exec (.mgmt p pkt) s = .next t ∧ servedAs (u.count (ctlPg + 0x320)) id s t) ∧
      (∀ l, mgmtRingOn base = some l → 2 ^ l ≤ used →
        ∃ t, exec (.mgmt p pkt) s = .next t ∧ servedAs (u.count (ctlPg + 0x320)) id s t) ∧
      (∀ l, mgmtRingOn base = some l → used < 2 ^ l →
        let a := bits base 43 0 + tail % 2 ^ l * 0x4000
        ((u.cpWrite a slot).2 = true →
          ∃ t, exec (.mgmt p pkt) s = .next t ∧ servedAs ((u.cpWrite a slot).1.setLv (ctlPg + 0x308) 63 32 (tail + 1)) id s t) ∧
        ((u.cpWrite a slot).2 = false →
          ∃ t, exec (.mgmt p pkt) s = .next t ∧ servedAs (u.count (ctlPg + 0x320)) id s t))) ∧
    ∀ (s : State) (tail : BitVec 32),
      let idx := ctlPg + 0x318
      let base := s.lv (ctlPg + 0x310) 63 0
      let head := s.lv idx 31 0
      let w := s.setLv idx 63 32 tail.toNat
      (mgmtRingOn base = none ∨ s.fatal = true ∨ tail.toNat = head →
        ∃ t, exec (.mgmtTx tail) s = .next t ∧ setsField idx 63 32 tail.toNat s t) ∧
      (∀ l, mgmtRingOn base = some l → s.fatal = false → tail.toNat = head + 1 →
        let a := bits base 43 0 + head % 2 ^ l * 0x4000
        let size := min 8208 (16 + bits (leNat (s.cpRead a 16)) 31 18)
        let pkt := { Packet.ofBytes (s.cpRead a size) with src := BitVec.ofNat 20 s.own }
        (pkt.ptype ≠ ptMgmt ∨ pkt.vc ≠ 7 ∨ pkt.ext.isSome = true ∨ pkt.length = 0 ∨ 8192 < pkt.length.toNat →
          ∃ t, exec (.mgmtTx tail) s = .next t ∧ onlyRegs [idx, ctlPg + 0x328] [] s t ∧ countsOne (ctlPg + 0x328) s t ∧
            t.lv idx 31 0 = tail.toNat ∧ t.lv idx 63 32 = tail.toNat) ∧
        (pkt.ptype = ptMgmt → pkt.vc = 7 → pkt.ext = none → pkt.length ≠ 0 → pkt.length.toNat ≤ 8192 →
          (∀ u, w.form 0 pkt .table = (u, .waits) →
            ∃ t, exec (.mgmtTx tail) s = .next t ∧ setsField idx 63 32 tail.toNat s t) ∧
          (∀ u, w.form 0 pkt .table = (u, .own) → ∃ t, exec (.mgmtTx tail) s = .next t ∧
            t = { s with toDev := settle ((u.mgmtIn { pkt with itag := u.tagNow } 0xFFFF).setLv idx 31 0 (head + 1)) }) ∧
          ∀ u r, w.form 0 pkt .table = (u, r) → r ≠ .waits → r ≠ .own →
            ∃ t, exec (.mgmtTx tail) s = .next t ∧ t = { s with toDev := settle (u.setLv idx 31 0 (head + 1)) }))) ∧
  (
    ∀ (s : State) (k : Fin 2) (frame : List Byte),
      let n := frame.length
      let rx := ethReg k.val 0x418
      let tx := ethReg k.val 0x428
      let st := ethReg k.val 0x408
      let ready := s.ethUp k.val = true ∧ 60 ≤ n ∧ n ≤ 9212
      let counts := fun (ok : Bool) => ∃ t, exec (.mgmtEthRx k frame ok) s = .next t ∧ onlyRegs [ethReg k.val 0x430] [] s t ∧
        countsOne (ethReg k.val 0x430) s t
      (∀ ok, s.ethUp k.val = false → ∃ t, exec (.mgmtEthRx k frame ok) s = .next t ∧ unchanged s t) ∧
      (s.ethUp k.val = true → counts false) ∧
      (s.ethUp k.val = true → n < 60 ∨ 9212 < n → counts true) ∧
      (ready → descRing (s.lv (ethReg k.val 0x410) 63 0) = none ∨ s.lv rx 31 0 = s.lv rx 63 32 → counts true) ∧
      (∀ l b, ready → descRing (s.lv (ethReg k.val 0x410) 63 0) = some (l, b) → s.lv rx 31 0 ≠ s.lv rx 63 32 →
        let a := b + 16 * (s.lv rx 31 0 % 2 ^ l)
        let buf := leNat (s.cpRead a 8)
        let filled := s.cpWrite buf frame
        let done := filled.1.cpWrite (a + 8) (leBytes 2 n ++ [0])
        let told := s.cpWrite (a + 8) (leBytes 2 n ++ [1])
        (inControlAll buf 9216 = true → filled.2 = true → done.2 = true →
          ∃ t, exec (.mgmtEthRx k frame true) s = .next t ∧ t.mem = done.1.mem ∧ t.ctl = done.1.ctl ∧
            t.lv rx 31 0 = (s.lv rx 31 0 + 1) % 2 ^ 32 ∧ t.lv rx 63 32 = s.lv rx 63 32 ∧ t.lv st 4 4 = 1 ∧ sends [] s t) ∧
        (inControlAll buf 9216 = false → told.2 = true →
          ∃ t, exec (.mgmtEthRx k frame true) s = .next t ∧ t.mem = told.1.mem ∧ t.ctl = told.1.ctl ∧
            t.lv rx 31 0 = (s.lv rx 31 0 + 1) % 2 ^ 32 ∧ t.lv st 4 4 = 1 ∧ sends [] s t)) ∧
      (∀ tail : BitVec 32, s.ethMaySend k.val = false ∨ descRing (s.lv (ethReg k.val 0x420) 63 0) = none ∨ tail.toNat = s.lv tx 31 0 →
        ∃ t, exec (.mgmtEthTx k tail) s = .next t ∧ setsField tx 63 32 tail.toNat s t) ∧
      (∀ (tail : BitVec 32) (l b : Nat), s.ethMaySend k.val = true → descRing (s.lv (ethReg k.val 0x420) 63 0) = some (l, b) →
        tail.toNat = s.lv tx 31 0 + 1 →
        let a := b + 16 * (s.lv tx 31 0 % 2 ^ l)
        let buf := leNat (s.cpRead a 8)
        let len := leNat (s.cpRead (a + 8) 2)
        let told := fun (st : Byte) => s.cpWrite (a + 8) (leBytes 2 len ++ [st])
        let good := len ≠ 0 ∧ len ≤ 9212 ∧ inControlAll buf len = true
        (good → (told 0).2 = true → ∃ t, exec (.mgmtEthTx k tail) s = .next t ∧ sends [.mgmtFrame k.val (s.cpRead buf len)] s t ∧
          t.mem = (told 0).1.mem ∧ t.ctl = (told 0).1.ctl ∧ t.lv tx 31 0 = tail.toNat ∧ t.lv st 5 5 = 1) ∧
        (¬ good → (told 1).2 = true → ∃ t, exec (.mgmtEthTx k tail) s = .next t ∧ sends [] s t ∧
          t.mem = (told 1).1.mem ∧ t.ctl = (told 1).1.ctl ∧ t.lv tx 31 0 = tail.toNat ∧ t.lv st 5 5 = 1)) ∧
      (∀ quanta : BitVec 16,
        (s.ethUp k.val = false → ∃ t, exec (.mgmtEthPauseRx k quanta) s = .next t ∧ unchanged s t) ∧
        (s.ethUp k.val = true → quanta ≠ 0 → ∃ t, exec (.mgmtEthPauseRx k quanta) s = .next t ∧ sends [] s t ∧
          t = { s with ctl := { s.ctl with pause := s.ctl.pause.set k.val (some (s.ticks + 2 * quanta.toNat)) }, sent := t.sent, sig := t.sig })) ∧
      (∀ u, s.ctl.pause.getD k.val none = some u → s.ticks < u →
        ∃ t, exec (.mgmtEthPauseExpire k) s = .next t ∧ unchanged s t) ∧
      (∀ u, s.ctl.pause.getD k.val none = some u → u ≤ s.ticks → s.lv tx 31 0 = s.lv tx 63 32 →
        ∃ t, exec (.mgmtEthPauseExpire k) s = .next t ∧ sends [] s t ∧
          t = { s with ctl := { s.ctl with pause := s.ctl.pause.set k.val none }, sent := t.sent, sig := t.sig }) ∧
      (∀ x : Fin 3,
        let mode := s.lv (ethReg k.val 0x400) 1 0
        let disabled := mode = 0 ∨ mode = 3
        (x.val = s.lv st 1 0 ∨ x.val ≠ 0 ∧ disabled → ∃ t, exec (.mgmtEthLinkChange k x) s = .next t ∧ unchanged s t) ∧
        (x.val ≠ s.lv st 1 0 → x.val = 2 → ¬ disabled → s.lv tx 31 0 = s.lv tx 63 32 →
          ∃ t, exec (.mgmtEthLinkChange k x) s = .next t ∧ onlyRegs [st] [] s t ∧ t.lv st 1 0 = 2 ∧ t.lv st 6 6 = 1) ∧
        (x.val ≠ s.lv st 1 0 → x.val = 0 → ∃ t, exec (.mgmtEthLinkChange k x) s = .next t ∧ sameRegs [st] s t ∧ sends [] s t ∧
          t = { s with ctl := { s.ctl with pause := s.ctl.pause.set k.val none }, live := t.live, sent := t.sent, sig := t.sig } ∧
          t.lv st 1 0 = 0 ∧ t.lv st 6 6 = 1)))

/-- Frames at an Ethernet port that is UP: a wrong FCS is counted; the configured Ethertype holds a packet that then comes in like
one of a link, a truncated one is malformed; a plain frame whose VLAN or tenant entry is not valid is counted, one of more than
8,192 bytes too, and another one becomes an ETH_FRAME of its tenant's destination, partition and class and joins the queue that
the tables choose. An ETH_FRAME for this device goes to the Ethernet port that its address names, or is malformed where that is
none. Priority flow control: a received pause holds its priority, one that has passed ends, and the pause of a lossless VC under
pressure is sent at its beginning, every 4,096 beats and at its end (R239, R240, R242, R357). -/
def Obligations.EthernetPortsCarryFrames : Prop :=
  ∀ (s : State) (p : PortNo),
    let lnk := lnkPg (p.val / 8)
    let k := p.val % 8
    let up := s.fatal = false ∧ s.portMode p.val = 4 ∧ s.portState p.val = 5
    let w : Dev := s.updPort p.val fun x => { x with lastOk := s.ticks }
    let counted := fun (frame : List Byte) (ok : Bool) (a : Nat) => ∃ t, exec (.ethFrameRx p frame ok) s = .next t ∧
      t = { s with ports := w.ports, live := t.live, sent := t.sent, sig := t.sig } ∧ sameRegs [a] s t ∧ countsOne a s t ∧ sends [] s t
    (∀ frame ok, ¬ up → ∃ t, exec (.ethFrameRx p frame ok) s = .next t ∧ unchanged s t) ∧
    (∀ frame, up → counted frame false (lnk + 0x500 + 0x20 * k)) ∧
    (∀ frame, up → (frameHead frame).1 = s.cfg (lnk + 0x1068) 15 0 →
      let body := frame.drop (frameHead frame).2.2
      let pkt := Packet.ofBytes body
      (pkt.size ≤ body.length → ∃ t, exec (.ethFrameRx p frame true) s = .next t ∧
        t = { s with ports := w.ports, arrived := s.arrived ++ [⟨p.val, pkt, s.ticks, some (frame.length + 4)⟩], sent := t.sent, sig := t.sig } ∧ sends [] s t) ∧
      (body.length < pkt.size → pkt.answered = false → counted frame true (lnk + 0x228 + 0x40 * k))) ∧
    (∀ frame, up → (frameHead frame).1 ≠ s.cfg (lnk + 0x1068) 15 0 →
      let vid := (frameHead frame).2.1.getD 0 % 4096
      let e := s.vlanEntry p.val vid
      let tenant := s.ethTenant p.val (bits e 3 0)
      let pkt := mkPkt ptEthFrame tenant.1 s.own 0 (bits e 3 0) (bits e 6 4) 0 frame
      (vid = 4095 ∨ bit e 7 = false ∨ tenant.2.2 = false → counted frame true (lnk + 0x508 + 0x20 * k)) ∧
      (vid ≠ 4095 → bit e 7 = true → tenant.2.2 = true → 8192 < frame.length → counted frame true (lnk + 0x510 + 0x20 * k)) ∧
      (∀ u c q v id, vid ≠ 4095 → bit e 7 = true → tenant.2.2 = true → frame.length ≤ 8192 →
        ({ w with arrived := w.arrived ++ [⟨p.val, pkt, s.ticks, some (frame.length + 4)⟩] } : Dev).arrive p.val pkt true = (u, some c) →
        u.isOwn p.val c.pkt = false → u.egress c.file (p.val / 128) (some p.val) c.pkt = .port q false → u.portMode q ≠ 3 →
        (u.portMode q ≠ 4 → c.pkt.payload.length ≤ u.peerMax q) → u.staticRefuses (p.val / 128) q c.pkt = false →
        u.admitIn p.val (some q) c.pkt = (v, some id) → (∀ y ∈ (v.port q).queue, y.id ≤ c.load.id) →
        ∃ t, exec (.ethFrameRx p frame true) s = .next t ∧
          (t.port q).queue = (v.port q).queue ++ [mkQ c.pkt (p.val / 128) id (some p.val) c.load.tick c.load.id none] ∧
          ∀ r, r ≠ q → t.port r = v.port r)) ∧
    (∀ pkt, pkt.ptype ≠ ptEthFrame ∨ s.isOwn p.val pkt = false → ∃ t, exec (.ethFrame p pkt) s = .next t ∧ unchanged s t) ∧
    (∀ pkt u c, pkt.ptype = ptEthFrame → s.isOwn p.val pkt = true → s.arrive p.val pkt false = (u, some c) →
      u.isOwn p.val c.pkt = true → c.pkt.answered = false →
      (u.placeOf (c.pkt.laddr % 256) = none →
        ∃ t, exec (.ethFrame p pkt) s = .next t ∧
          t = { s with toDev := settle ((u.spend p.val c.pkt).count (lnk + 0x228 + 0x40 * k)) }) ∧
      (∀ q v id, u.placeOf (c.pkt.laddr % 256) = some q → u.portMode q = 4 → u.portLive q = true →
        u.staticRefuses (p.val / 128) q c.pkt = false → u.admitIn p.val (some q) c.pkt = (v, some id) →
        (∀ y ∈ (v.port q).queue, y.id ≤ c.load.id) →
        ∃ t, exec (.ethFrame p pkt) s = .next t ∧
          (t.port q).queue = (v.port q).queue ++ [mkQ c.pkt (p.val / 128) id (some p.val) c.load.tick c.load.id none])) ∧
    ∀ v : Vc,
      (∀ quanta : BitVec 16,
        (s.portMode p.val ≠ 4 ∨ s.portState p.val ≠ 5 → ∃ t, exec (.pfcFrameRx p v quanta) s = .next t ∧ unchanged s t) ∧
        (s.portMode p.val = 4 → s.portState p.val = 5 → ∃ t, exec (.pfcFrameRx p v quanta) s = .next t ∧ sends [] s t ∧
          t = { s with ports := t.ports, sent := t.sent, sig := t.sig } ∧ (∀ r, r ≠ p.val → t.port r = s.port r) ∧
          t.port p.val = { s.port p.val with paused := (t.port p.val).paused } ∧
          Map.find (t.port p.val).paused v.val =
            if quanta = 0 then none else some (s.ticks + ceilDiv quanta.toNat (max 1 (s.portWidth p.val))))) ∧
      (∀ u, Map.find (s.port p.val).paused v.val = some u →
        (s.ticks < u → ∃ t, exec (.pfcPauseExpire p v) s = .next t ∧ unchanged s t) ∧
        (u ≤ s.ticks → ∃ t, exec (.pfcPauseExpire p v) s = .next t ∧ sends [] s t ∧
          t = { s with ports := t.ports, sent := t.sent, sig := t.sig } ∧ (∀ r, r ≠ p.val → t.port r = s.port r) ∧
          t.port p.val = { s.port p.val with paused := Map.erase (s.port p.val).paused v.val })) ∧
      (up → s.pfcPressed p.val v.val = true →
        (∀ u, Map.find (s.port p.val).pausing v.val = some u → s.ticks < u + 4096 →
          ∃ t, exec (.pfcPauseSend p v) s = .next t ∧ unchanged s t) ∧
        ((∀ u, Map.find (s.port p.val).pausing v.val = some u → u + 4096 ≤ s.ticks) →
          ∃ t, exec (.pfcPauseSend p v) s = .next t ∧ sends [.pause p.val v.val 0xFFFF] s t ∧
            Map.find (t.port p.val).pausing v.val = some s.ticks)) ∧
      (up → s.pfcPressed p.val v.val = false →
        (Map.find (s.port p.val).pausing v.val = none → ∃ t, exec (.pfcPauseSend p v) s = .next t ∧ unchanged s t) ∧
        ((Map.find (s.port p.val).pausing v.val).isSome = true →
          ∃ t, exec (.pfcPauseSend p v) s = .next t ∧ sends [.pause p.val v.val 0] s t ∧
            Map.find (t.port p.val).pausing v.val = none))

/-- A queue takes its next work request when it may run, its last has ended and its completion queue has room: it reads its 64 bytes
from the send queue at the endpoint, and once they are here executes it. WRITE first reads its source from the endpoint, READ reads the remote memory; a request of length 0 is NULL and counted, a malformed one or one for a
group without an entry or open epoch ends with MALFORMED. A transaction without an answer is sent again with its tag after RETRY_BEATS, and after
RETRY_MAX tries its request ends with TIMEOUT. The oldest owed entry goes to the endpoint in a COMPLETION (R231 to R238). -/
def Obligations.WorkRequestsRunInQueueOrder : Prop :=
  ∀ (s : State) (d : DieNo) (i : Fin 16) (g : GroupNo) (q : Fin 256), g.val = d.val * 16 + i.val →
    let k := g.val * 256 + q.val
    let a := s.adp k
    let c := s.adpCfg k
    let ready := s.fatal = false ∧ s.adpUp k = true ∧ a.sqHead ≠ a.sqTail ∧ a.cur = none ∧
      a.txs = [] ∧ s.adpCqFull k = false ∧ s.holdsIngress c.port = false
    let others := fun (t : State) => ∀ j, j ≠ k → t.adp j = s.adp j
    (¬ ready → ∃ t, exec (.adpWrStart d i q) s = .next t ∧ unchanged s t) ∧
    (ready → a.wr = [] → ∃ t, exec (.adpWrStart d i q) s = .next t ∧ others t ∧
      ∃ x, t.adp k = { a with txs := [x] } ∧ x.tries = 0 ∧ x.tick = s.ticks ∧ s.freeTag (s.peerNode c.port) = (if x.held then none else some x.tag) ∧
        x.pkt = mkPkt ptMemReadReq (s.peerNode c.port * 2 ^ 44 + (c.sqBase + 64 * (a.sqHead % 2 ^ c.sqLog)) % 2 ^ 44) s.own
          x.tag.toNat c.part 0 1 (readLen 64)) ∧
    (a.wr ≠ [] →
      let w := WrImg.read a.wr
      let ended := fun (st : Nat) => { a with sqHead := a.sqHead + 1, cur := none, wr := [], txs := [], done := a.done ++ [(st, 0, w.wrId, 0)] }
      let moves := w.clean = true ∧ w.count = 0 ∧ w.length ≠ 0
      (ready → s.adpWork k = none → w.op = 1 ∨ w.op = 2 → w.clean = true → w.count = 0 → w.length = 0 →
        ∃ t, exec (.adpWrStart d i q) s = .next t ∧ t = { s with adapters := t.adapters, live := t.live, sent := t.sent, sig := t.sig } ∧
          sameRegs [lnkPg g.val + 0x118] s t ∧ countsOne (lnkPg g.val + 0x118) s t ∧ t.adp k = ended 1 ∧ others t ∧ sends [] s t) ∧
      (ready → s.adpWork k = none → (w.op = 1 ∨ w.op = 2) ∧ (w.clean = false ∨ w.count ≠ 0) ∨
          w.op ≠ 1 ∧ w.op ≠ 2 ∧ (w.collBad = true ∨ s.epochOf w.group w.epoch = none ∧ groupValid s.active w.group = false) →
        ∃ t, exec (.adpWrStart d i q) s = .next t ∧ t = { s with adapters := t.adapters, sent := t.sent, sig := t.sig } ∧
          t.adp k = ended 8 ∧ others t ∧ sends [] s t) ∧
      (ready → w.op = 1 → moves → ∃ t, exec (.adpWrStart d i q) s = .next t ∧ (t.adp k).cur = some (1, w.wrId, 0, 0) ∧ others t ∧
        ∃ x, (t.adp k).txs = [x] ∧ x.tries = 0 ∧ x.tick = s.ticks ∧
          x.pkt = mkPkt ptMemReadReq (s.peerNode c.port * 2 ^ 44 + w.localA.toNat % 2 ^ 44) s.own x.tag.toNat c.part 0 1
            (readLen (min 4096 w.length))) ∧
      (ready → w.op = 2 → moves → w.remote.toNat / 2 ^ 44 ≠ s.own →
        ∃ t, exec (.adpWrStart d i q) s = .next t ∧ (t.adp k).cur = some (2, w.wrId, 0, 0) ∧ others t ∧
          ∃ x, (t.adp k).txs = [x] ∧
            x.pkt = mkPkt ptMemReadReq w.remote.toNat s.own x.tag.toNat c.part 0 1 (readLen (min 4096 w.length)))) ∧
    (∀ tag : BitVec 12,
      let late := fun (x : AdpTx) => x.tick + max 1024 (s.cfg (lnkPg g.val + 0x1060) 31 0) ≤ s.ticks
      let limit := s.cfg (lnkPg g.val + 0x1060) 39 32
      ((∀ x ∈ a.txs, x.tag ≠ tag ∨ x.held = true ∨ ¬ late x) ∨ s.fatal = true →
        ∃ t, exec (.adpRetry g q tag) s = .next t ∧ unchanged s t) ∧
      (∀ x, a.txs = [x] → x.tag = tag → x.held = false → s.fatal = false →
        (late x → x.tries < limit → ∃ t, exec (.adpRetry g q tag) s = .next t ∧ others t ∧
          t.adp k = { a with txs := [{ x with tries := x.tries + 1, tick := s.ticks }] } ∧ t.mem = s.mem) ∧
        (∀ y, late x → limit ≤ x.tries → a.cur = some y → s.adpWork k = none → s.ctxs = [] →
          ∃ t, exec (.adpRetry g q tag) s = .next t ∧ t = { s with adapters := t.adapters, sent := t.sent, sig := t.sig } ∧ sends [] s t ∧
            t.adp k = { a with sqHead := a.sqHead + 1, cur := none, wr := [], txs := [], done := a.done ++ [(9, 0, y.2.1, BitVec.ofNat 32 y.2.2.2)] } ∧
            others t) ∧
        (late x → limit ≤ x.tries → a.cur = none →
          ∃ t, exec (.adpRetry g q tag) s = .next t ∧ t = { s with adapters := t.adapters, sent := t.sent, sig := t.sig } ∧ sends [] s t ∧
            t.adp k = { a with sqHead := a.sqHead + 1, txs := [], done := a.done ++ [(9, 0, 0, 0)] } ∧ others t))) ∧
    (a.done = [] ∨ s.fatal = true ∨ s.adpUp k = false ∨ s.adpCqFull k = true →
      ∃ t, exec (.adpCompletionWrite g q) s = .next t ∧ unchanged s t) ∧
    (∀ e rest, a.done = e :: rest → s.fatal = false → s.adpUp k = true → s.adpCqFull k = false →
      let phase := xor Config.firstPhase (a.cqTail / 2 ^ c.cqLog % 2 == 1)
      let img := [BitVec.ofNat 8 e.1, BitVec.ofNat 8 ((2 * e.2.1) % 256 + b2n phase)] ++ leBytes 2 q.val ++ leBytes 4 e.2.2.1.toNat
        ++ leBytes 4 e.2.2.2.toNat ++ leBytes 4 0
      let dst := s.peerNode c.port * 2 ^ 44 + (c.cqBase + 16 * (a.cqTail % 2 ^ c.cqLog)) % 2 ^ 44
      ∃ t, exec (.adpCompletionWrite g q) s = .next t ∧ others t ∧ t.adp k = { a with done := rest, cqTail := a.cqTail + 1 } ∧
        t = { s with toDev := settle ((s.updAdp k fun x => { x with done := rest, cqTail := x.cqTail + 1 }).sendFormed (c.port / 128)
          (mkPkt ptCompletion dst s.own 0 c.part 0 1 img)) })

/-! ### Scheduling, mesh, telemetry and pools -/

/-- The scheduler is work-conserving and chooses only what may be sent: with heads no longer than the largest packet, its choice is
an eligible head of the port, and whenever some head is eligible it chooses one, whatever the weights, deficits and strict classes
are (R294 to R299). -/
def Obligations.SchedulerIsWorkConserving : Prop :=
  ∀ (s : State) (p : PortNo), (∀ q ∈ s.heads p.val, q.pkt.payload.length ≤ 8192 ∧ q.pkt.trailer.length ≤ 8) →
    (∀ q sched, s.pickPacket p.val = some (q, sched) → q ∈ s.heads p.val ∧ s.eligible p.val q = true) ∧
    ((∃ q ∈ s.heads p.val, s.eligible p.val q = true) → (s.pickPacket p.val).isSome = true)

/-- The die-to-die mesh: a flow whose queue is empty takes the direct link, or while that is fenced the relay die, the lower one of
those whose links to both ends are not fenced, or none; a link that has trained is up at both dies, and where its training is its
check after a fence, that check has passed (R714); one that trains too long is fenced, and before that time nothing happens (R41, R44, R49 to R53, R799). -/
def Obligations.MeshLinksTrainAndFlowsTakePaths : Prop :=
  (∀ (s : State) (a b : DieNo),
    let path := fun (v : Nat) => ∃ t, exec (.d2dPathMove a b) s = .next t ∧ setsField (swcPg a.val + 0xE04) (4 * b.val + 3) (4 * b.val) v s t
    let relays := fun (c : Nat) => c < 4 ∧ c ≠ a.val ∧ c ≠ b.val ∧ s.linkOut c a.val = false ∧ s.linkOut c b.val = false
    (a = b → ∃ t, exec (.d2dPathMove a b) s = .next t ∧ unchanged s t) ∧
    (a ≠ b → s.linkOut a.val b.val = false → path 8) ∧
    (∀ c, a ≠ b → s.linkOut a.val b.val = true → relays c → (∀ e, e < c → ¬ relays e) → path c) ∧
    (a ≠ b → s.linkOut a.val b.val = true → (∀ c, ¬ relays c) → path 0xA)) ∧
  ∀ (s : State) (d : DieNo) (k : AnyDie),
    let comes := s.linkState d.val k.val = 1 ∧ s.pwr.porLow = false
    let trains := comes ∧ s.linkOut d.val k.val = false
    let check := (d2dUnit d.val k.val :: (peerUnit (d2dUnit d.val k.val)).toList).find? s.checking
    (¬ comes ∨ s.linkOut d.val k.val = true ∧ check = none → ∃ t, exec (.d2dLinkUp d k) s = .next t ∧ unchanged s t) ∧
    (∀ v, comes → s.linkOut d.val k.val = true → check = some v → s.fatal = false → s.checkLate v = false →
      ∃ t, exec (.d2dLinkUp d k) s = .next t ∧ became (s.checkPassed v) s t) ∧
    (trains → k.val = 4 → ∃ t, exec (.d2dLinkUp d k) s = .next t ∧ setsField (swcPg d.val + 0xE00) 19 16 2 s t) ∧
    (trains → k.val < 4 → ∃ t, exec (.d2dLinkUp d k) s = .next t ∧
      onlyRegs [swcPg d.val + 0xE00, swcPg k.val + 0xE00] [] s t ∧ t.linkState d.val k.val = 2 ∧ t.linkState k.val d.val = 2) ∧
    (¬ (trains ∧ s.pwr.resetAt + 781250 ≤ s.ticks) → ∃ t, exec (.d2dLinkTimeout d k) s = .next t ∧ unchanged s t) ∧
    (trains → s.pwr.resetAt + 781250 ≤ s.ticks → ∃ t, exec (.d2dLinkTimeout d k) s = .next t ∧
      became (s.faultOwn d.val 0x04 0 4 (d2dUnit d.val k.val)) s t)

/-- Telemetry: at a beat that begins a window a die whose ring runs and has room writes the block of its sequence and one that is full
or still writes skips it and counts; at another beat nothing happens. A block that has been written counts on TEL_RING_WR, one that
failed is a skip and a fault. Writing BASE or BLOCKS returns both indices to 0. At a multiple of 4,096 beats the map of every logical
port and VC is published, its sequence counts and the interrupt is raised if configured (R311 to R319). -/
def Obligations.WindowsBlocksAndMapsClose : Prop :=
  ∀ s : State,
    let due := s.beat.toNat % s.winLen = 0 ∧ s.tel.winBeat ≠ s.beat ∧ s.pwr.porLow = false
    let off := fun (d : Nat) => s.lv (telPg d + 0x108) 31 0 = 0
    let base := s.lv (telPg 0 + 0x100) 43 0
    let blocks := s.lv (telPg 0 + 0x108) 31 0
    let wr := s.lv (telPg 0 + 0x110) 63 0
    let full := (wr + 2 ^ 64 - s.lv (telPg 0 + 0x118) 63 0) % 2 ^ 64 = blocks ∨ s.tel.writing.getD 0 false = true
    let runs := off 1 ∧ off 2 ∧ off 3 ∧ blocks ≠ 0 ∧ base % 256 = 0 ∧ base + blocks * 16640 ≤ 2 ^ 41
    let at_ := base + wr % blocks * 16640
    let block := (s.setLv (telPg 0 + 0x128) 1 0 1).telBlock 0 wr
    let mapDue := s.beat.toNat % 4096 = 0 ∧ s.tel.mapBeat ≠ s.beat ∧ s.pwr.porLow = false
    (¬ due → ∃ t, exec .telWindowEnd s = .next t ∧ unchanged s t) ∧
    (due → off 0 → off 1 → off 2 → off 3 → ∃ t, exec .telWindowEnd s = .next t ∧ t.mem = s.mem ∧ t.tel.winBeat = s.beat ∧
      ∀ d, d < 4 → t.lv (telPg d + 0x128) 1 0 = 0) ∧
    (due → runs → ¬ full → ((s.setLv (telPg 0 + 0x128) 1 0 1).devWrite at_ block).2 = true →
      ∃ t, exec .telWindowEnd s = .next t ∧ t.mem = Memory.writeBytes s.mem at_ block ∧ t.tel.winBeat = s.beat ∧
        t.lv (telPg 0 + 0x128) 1 0 = 1 ∧ t.lv (telPg 0 + 0x110) 63 0 = wr) ∧
    (due → runs → full → ∃ t, exec .telWindowEnd s = .next t ∧ t.mem = s.mem ∧ t.tel.winBeat = s.beat ∧
      countsOne (telPg 0 + 0x120) s t ∧ t.lv (telPg 0 + 0x110) 63 0 = wr) ∧
    (∀ d : DieNo,
      let a := telPg d.val
      let frame := fun (as : List Nat) (t : State) => t = { s with live := t.live, tel := { s.tel with writing := s.tel.writing.set d.val false }, sent := t.sent, sig := t.sig } ∧
        sameRegs as s t ∧ sends [] s t
      (∀ ok, s.tel.writing.getD d.val false = false → ∃ t, exec (.telBlockWriteDone d ok) s = .next t ∧ unchanged s t) ∧
      (s.tel.writing.getD d.val false = true → ∃ t, exec (.telBlockWriteDone d true) s = .next t ∧ frame [a + 0x110] t ∧
        countsOne (a + 0x110) s t) ∧
      (s.tel.writing.getD d.val false = true → ∃ t, exec (.telBlockWriteDone d false) s = .next t ∧
        sameRegs ((a + 0x120) :: reportRegs d.val a) s t ∧ countsOne (a + 0x120) s t ∧ t.lv (a + 0x18) 0 0 = 1 ∧
        t.tel.writing = s.tel.writing.set d.val false ∧ t.tel.skipped = s.tel.skipped.set d.val true) ∧
      (∀ v : Word,
        (∃ t, exec (.telRingConfigWrite d true v) s = .next t ∧ frame [a + 0x108, a + 0x110, a + 0x118] t ∧
          t.lv (a + 0x108) 31 0 = fld v 31 0 ∧ t.lv (a + 0x110) 63 0 = 0 ∧ t.lv (a + 0x118) 63 0 = 0) ∧
        ∃ t, exec (.telRingConfigWrite d false v) s = .next t ∧ frame [a + 0x100, a + 0x110, a + 0x118] t ∧
          t.lv (a + 0x100) 43 0 = fld v 43 0 ∧ t.lv (a + 0x110) 63 0 = 0 ∧ t.lv (a + 0x118) 63 0 = 0)) ∧
    (¬ mapDue → ∃ t, exec .congMapClose s = .next t ∧ unchanged s t) ∧
    (mapDue → s.cfg (telPg 0 + 0x1018) 0 0 = 0 → ∃ t, exec .congMapClose s = .next t ∧
      t = { s with live := t.live, tel := t.tel, sent := t.sent, sig := t.sig } ∧
      sameRegs ([telPg 0 + 0x200, ctlPg + 0x240] ++ (List.range 64).map fun i => telPg 0 + 0x800 + 8 * i) s t ∧ sends [] s t ∧
      t.lv (telPg 0 + 0x200) 63 0 = min (s.lv (telPg 0 + 0x200) 63 0 + 1) (2 ^ 64 - 1) ∧ t.tel.mapBeat = s.beat ∧
      (s.cfg (telPg 0 + 0x1018) 1 1 = 1 → t.lv (ctlPg + 0x240) 9 9 = 1) ∧
      ∀ lp v, lp < 256 → v < 8 →
        let i := 8 * lp + v
        t.lv (telPg 0 + 0x800 + 8 * (i / 32)) (2 * (i % 32) + 1) (2 * (i % 32)) = s.mapLevel lp v)

/-- A live port sends the packet that its scheduler chooses, whole: its flits, numbered in order, leave the queue for those that wait for their
acknowledgement, or it leaves as a frame with its FCS; without a choice, or while FATAL, nothing changes. A lossy packet at a head that is older than its
limit is discarded and counted; no other packet is. A head that has waited for credit moves to VC6 of its live escape port when that
has credit for all of it, taking its place there by its arrival, and is counted once where it has none. A tick adds RATE x 0.00032 bytes to every bucket, up to BURST. The end
of a flush sends on what it held. Packets under an early tag end at the drain limit (R108, R197, R198, R274 to R279, R284, R299,
R303, R305; the bucket's fraction: log 51).
The buffer pool manager: a returned pointer that a check refuses is counted, recorded where no record stands, and loses its owner
the size returned, the block it stood for staying allocated; an accepted one frees its block, and so does one returned to a region
that is out of service, unchecked (R378). Credit is granted up to the target and sent in an IDLE flit's header. Parked contributions are offered
when their cluster may take them, a RETAIN that waited is served when cells are there, and a pass brings in the inputs of its
context (R353, R366, R368, R371, R372, R654). -/
def Obligations.PacketsLeaveAndPoolsGrant : Prop :=
  (
    ∀ (s : State) (p : PortNo),
      let x := s.port p.val
      let keeps := fun (t : State) => ∀ r, r ≠ p.val → t.port r = s.port r
      let fits := s.portMode p.val = 4 ∨ ∀ q ∈ s.heads p.val, q.pkt.payload.length ≤ s.peerMax p.val
      (s.fatal = true ∨ s.portLive p.val = true ∧ fits ∧ s.pickPacket p.val = none ∨
        s.portLive p.val = false ∧ (∀ q ∈ s.heads p.val, q.mcast = none) →
        ∃ t, exec (.packetSelect p) s = .next t ∧ unchanged s t) ∧
      (∀ q sched, s.fatal = false → s.portLive p.val = true → s.pickPacket p.val = some (q, sched) → s.portMode p.val ≠ 4 → fits →
        let n := q.pkt.flits
        ∃ (t : State) (hs : List FlitHdr), exec (.packetSelect p) s = .next t ∧ keeps t ∧
          hs.map (·.seq) = (List.range n).map (fun i => x.txSeq + BitVec.ofNat 16 i) ∧
          sends (List.zipWith (fun h i => Emit.flit p.val h (.data q.pkt i q.stomp)) hs (List.range n)) s t ∧
          (t.port p.val).queue = x.queue.filter (fun y => y.id != q.id) ∧ (t.port p.val).sched = sched ∧
          (t.port p.val).txSeq = x.txSeq + BitVec.ofNat 16 n ∧ (t.port p.val).unacked.length = x.unacked.length + n ∧
          t.mem = s.mem ∧ t.allocs = s.allocs) ∧
      (∀ q sched, s.fatal = false → s.portLive p.val = true → s.pickPacket p.val = some (q, sched) → s.portMode p.val = 4 →
        q.mcast = none → s.stalled = [] →
        ∃ t, exec (.packetSelect p) s = .next t ∧ sends [.frame p.val (withFcs q.stomp (s.frameOf p.val q.pkt))] s t ∧ keeps t ∧
          (t.port p.val).queue = x.queue.filter (fun y => y.id != q.id) ∧ t.allocs = s.allocs.filter fun a => a.id != q.alloc) ∧
      (∀ sel, s.headAt p.val sel = none →
        (∃ t, exec (.ageDrop p sel) s = .next t ∧ unchanged s t) ∧ ∃ t, exec (.escapeMove p sel) s = .next t ∧ unchanged s t) ∧
      (∀ sel q, s.headAt p.val sel = some q →
        let limit := s.cfg (swcPg q.die + 0x1040 + 8 * q.pkt.cls.toNat) 31 0
        let old := s.fatal = false ∧ s.lossless p.val q.pkt.vc.toNat = false ∧ q.pkt.vc ≠ 6 ∧ limit ≠ 0 ∧ q.tick + limit < s.ticks
        (¬ old → ∃ t, exec (.ageDrop p sel) s = .next t ∧ unchanged s t) ∧
        (old → q.mcast = none → s.stalled = [] → ∃ t, exec (.ageDrop p sel) s = .next t ∧
          became ((((s.unqueue p.val q).release q.alloc).count (swcPg q.die + 0x128)).telDrop p.val q.pkt.vc.toNat) s t ∧
          (t.port p.val).queue = x.queue.filter (fun y => y.id != q.id) ∧ keeps t)) ∧
      (∀ sel q, s.headAt p.val sel = some q →
        let beats := s.cfg (swcPg q.die + 0x1018) 31 0
        let waited := (∃ u, q.since = some u ∧ u + beats ≤ s.ticks) ∧ s.lacksCredit p.val q = true
        let moves := s.fatal = false ∧ beats ≠ 0 ∧ q.mcast = none ∧ q.pkt.vc ≠ 3 ∧ q.pkt.vc ≠ 6 ∧
          s.lossless p.val q.pkt.vc.toNat = true ∧ isPorone (s.portMode p.val) = true ∧ (waited ∨ s.escapedAhead q ≠ none)
        let moved := { q with pkt := { q.pkt with vc := 6 }, escaped := some q.pkt.vc, since := none, escCnt := false }
        (¬ moves → ∃ t, exec (.escapeMove p sel) s = .next t ∧ unchanged s t) ∧
        (moves → s.escapePort q = none → q.escCnt = true → ∃ t, exec (.escapeMove p sel) s = .next t ∧ unchanged s t) ∧
        (moves → s.escapePort q = none → q.escCnt = false → ∃ t, exec (.escapeMove p sel) s = .next t ∧ keeps t ∧
          t = { s with ports := t.ports, live := t.live, sent := t.sent, sig := t.sig } ∧ sameRegs [swcPg q.die + 0x138] s t ∧
          countsOne (swcPg q.die + 0x138) s t ∧ sends [] s t) ∧
        (∀ e, moves → s.escapePort q = some e → s.txCredit e 6 < q.pkt.flits →
          ∃ t, exec (.escapeMove p sel) s = .next t ∧ unchanged s t) ∧
        (∀ e, moves → s.escapePort q = some e → q.pkt.flits ≤ s.txCredit e 6 → e ≠ p.val →
          ∃ t, exec (.escapeMove p sel) s = .next t ∧ (t.port e).queue = ((s.port e).queue.filter fun y => decide (y.id ≤ q.id)) ++ moved :: (s.port e).queue.filter (fun y => decide (q.id < y.id)) ∧
            (t.port p.val).queue = x.queue.filter (fun y => y.id != q.id) ∧ (∀ r, r ≠ e → r ≠ p.val → t.port r = s.port r) ∧
            countsOne (swcPg q.die + 0x130) s t ∧ t.allocs = s.allocs)) ∧
      (∃ t, exec .shaperTick s = .next t ∧ t = { s with ports := t.ports, sent := t.sent, sig := t.sig } ∧ sends [] s t ∧
        (t.port p.val).queue = x.queue ∧
        (∀ j, j < 25 →
          let w := s.shaperCfg p.val j
          let b := Map.get x.shapers j 0
          Map.get (t.port p.val).shapers j 0 =
            if fld w 23 0 = 0 then b else min (b + (fld w 23 0 * 65536 / 3125 : Nat)) (fld w 55 32 * 65536)) ∧
        ∀ j, j < 16 →
          let w := s.policerCfg p.val j
          let b := Map.get x.policers j 0
          Map.get (t.port p.val).policers j 0 =
            if fld w 23 0 = 0 then b else min (b + (fld w 23 0 * 65536 / 3125 : Nat)) (fld w 55 32 * 65536)) ∧
      (x.flushing = false ∨ s.fatal = true → ∃ t, exec (.flushEnd p) s = .next t ∧ unchanged s t) ∧
      (x.flushing = true → s.fatal = false → x.flushHeld = [] → ∃ t, exec (.flushEnd p) s = .next t ∧ keeps t ∧
        t = { s with ports := t.ports, sent := t.sent, sig := t.sig } ∧ t.port p.val = { x with flushing := false } ∧ sends [] s t) ∧
      (∀ h, x.flushing = true → s.fatal = false → x.flushHeld = [h] → ∃ t, exec (.flushEnd p) s = .next t ∧
        became ((s.setPort p.val { x with flushing := false, flushHeld := [] }).forwardHeld h) s t) ∧
      (let limit := s.lv (insPg + 0x120) 31 0
       ((∀ h ∈ x.early, s.ticks < h.tick + limit) → ∃ t, exec (.earlyTagExpire p) s = .next t ∧
         t = { s with ports := t.ports, sent := t.sent, sig := t.sig } ∧ (∀ r, t.port r = s.port r) ∧ sends [] s t) ∧
       (∀ h, x.early = [h] → h.tick + limit ≤ s.ticks → ∃ t, exec (.earlyTagExpire p) s = .next t ∧ keeps t ∧
         t.port p.val = { x with early := [] } ∧ t.allocs = s.allocs.filter (fun a => a.id != h.alloc)))) ∧
  (
    (∀ (s : State) (d : DieNo) (ptr unit : BitVec 32) (o : Owner),
      let n := ptr.toNat
      let reason := s.ptrReason d.val n o
      let r := ownerRegion o
      let a := bpmPg d.val
      let size := if 4 < bits n 27 25 then 1 else poolCells (bits n 27 25)
      let out := 0 < bits n 31 28 ∧ bits n 31 28 = r ∧ s.regionUp (d.val * 8 + (r - 1)) = false
      (out → ∃ t, exec (.blockReturn d ptr unit o) s = .next t ∧ became (s.takeBlock d.val r (bits n 27 25, bits n 18 0)) s t) ∧
      (¬ out → reason ≠ 0 → ∃ t, exec (.blockReturn d ptr unit o) s = .next t ∧ t.allocs = (s.loseBlock d.val (bits n 27 25) o).allocs ∧
        sameRegs ([a + 0x410, a + 0x418, a + 0x420, a + 0x428] ++ reportRegs d.val a) s t ∧ countsOne (a + 0x410) s t ∧
        t.lostCells d.val (ownerRegion o) = s.lostCells d.val (ownerRegion o) + size ∧
        Map.get t.uncharged (ownerKey d.val o) 0 = Map.get s.uncharged (ownerKey d.val o) 0 + size ∧ t.lv (a + 0x18) 2 2 = 1 ∧
        (s.lv (a + 0x420) 0 0 = 0 → t.lv (a + 0x418) 31 0 = n ∧ t.lv (a + 0x418) 63 32 = unit.toNat ∧ t.lv (a + 0x420) 0 0 = 1 ∧
          t.lv (a + 0x420) 7 4 = reason ∧ RegFile.get t.live (a + 0x428) = s.beat) ∧
        (s.lv (a + 0x420) 0 0 = 1 → t.lv (a + 0x418) 63 0 = s.lv (a + 0x418) 63 0 ∧ t.lv (a + 0x420) 63 0 = s.lv (a + 0x420) 63 0)) ∧
      (¬ out → reason = 0 → s.stalled = [] → ∃ t, exec (.blockReturn d ptr unit o) s = .next t ∧ t.lost = s.lost ∧ t.mem = s.mem ∧
        ∀ x ∈ t.allocs, x.die = d.val → x.region = bits n 31 28 → (bits n 27 25, bits n 18 0) ∉ x.blocks)) ∧
    (∀ (s : State) (p : PortNo) (v : Vc),
      let room := s.creditRoom p.val v.val
      let total := ((s.port p.val).ours.getD v.val 0 + room) % 2 ^ 20
      let may := s.fatal = false ∧ s.portState p.val = 5 ∧ isPorone (s.portMode p.val) = true ∧ s.lossless p.val v.val = true ∧ room ≠ 0 ∧
        (s.holdsIngress p.val = false ∨ v.val = 7)
      (¬ may → ∃ t, exec (.creditGrant p v) s = .next t ∧ unchanged s t) ∧
      (may → ∃ t, exec (.creditGrant p v) s = .next t ∧
        sends [.flit p.val
          { ftype := 0, vc := 0, sop := false, eop := false, nak := false, seq := 0, ackSeq := (s.port p.val).ackSeq,
            crVc := v.val, crValid := true, crCount := ((s.port p.val).ours.set v.val total).getD v.val 0 } .idle] s t ∧
        t = { s with credit := t.credit, ports := t.ports, touched := t.touched, sent := t.sent, sig := t.sig } ∧
        t.creditOf (p.val / 128) (p.val % 128 * 8 + v.val) = s.creditOf (p.val / 128) (p.val % 128 * 8 + v.val) + room ∧
        t.port p.val = { s.port p.val with ours := (s.port p.val).ours.set v.val total } ∧ ∀ r, r ≠ p.val → t.port r = s.port r)) ∧
    (∀ (s : State) (c : ClusterNo),
      let d := c.val / 8
      let may := s.fatal = false ∧ (s.level d (1 + c.val % 8) 0 < 2 ∨ s.spillFree d ≠ 0 ∨ s.ctxUsed d < 32768)
      (¬ may ∨ (∀ x ∈ s.parked, x.cluster ≠ c.val) → ∃ t, exec (.parkedOffer c) s = .next t ∧ unchanged s t) ∧
      (∀ x, may → s.parked = [x] → x.cluster = c.val →
        ∃ t, exec (.parkedOffer c) s = .next t ∧ became ({ s.toDev with parked := [] }.offerParked x) s t)) ∧
    (∀ (s : State) (k : CtxKey) (c : Ctx), s.ctx k = some c →
      let formed := c.digest ≠ []
      let n := if c.digest = [] then resultBytes c.par c.par.length else c.result.length
      (c.phase ≠ .retainWait ∨ s.fatal = true ∨ (s.retainCells c n).2 = none →
        ∃ t, exec (.retainRetry k) s = .next t ∧ unchanged s t) ∧
      (∀ u id, c.phase = .retainWait → s.fatal = false → s.retainCells c n = (u, some id) → ¬ formed →
        ∃ t, exec (.retainRetry k) s = .next t ∧
          became ((u.updCtx k fun c => { c with retain := some id }).updCtx k fun c => { c with phase := .complete, retainedAt := s.ticks }) s t) ∧
      (∀ u id, c.phase = .retainWait → s.fatal = false → s.retainCells c n = (u, some id) → formed →
        ∃ t, exec (.retainRetry k) s = .next t ∧ became ((u.updCtx k fun c => { c with retain := some id }).retainNow k) s t)) ∧
    ∀ (s : State) (k : CtxKey) (c : Ctx) (e : EpochSt), s.ctx k = some c → s.epochAny k.group k.epoch = some e →
      (c.passQ = [] ∨ s.fatal = true → ∃ t, exec (.spillPass k) s = .next t ∧ unchanged s t) ∧
      (∀ i, c.passQ = [i] → s.fatal = false → c.route = none → ∃ t, exec (.spillPass k) s = .next t ∧
        became ((((s.updCtx k fun c => { c with passQ := [] }).passInput k e i).tryDone k).beatBarriers) s t) ∧
      (c.passQ ≠ [] → s.fatal = false → c.route ≠ none → ∃ t, exec (.spillPass k) s = .next t ∧ became (s.routePass k e) s t))

/-! ### Threads and their control slot -/

/-- The thread's next word, of `len` bytes, may be fetched: its PC lies where R551 allows, memory denies none of it and is in service,
and no burst of it is known to be bad. -/
def Sys2Proof.Machine.fetchable (n len : Nat) (s : State) : Prop :=
  let pc := (s.thread n).pc.toNat
  let v := s.verdict (.part (s.corePart (n / 16))) false pc len
  pcOk (n / 16) pc = true ∧ (v.status = some 0 ∨ v.status = none) ∧ s.badBurst pc len = none

/-- The slot is the last of a word that its thread can issue: the thread runs, waits for nothing, has no write pending, and has
begun the word or may fetch it. -/
def Sys2Proof.Machine.lastSlot (sc : SlotCtx) (s : State) : Prop :=
  s.canIssue sc.thread.val = true ∧ sc.last = true ∧ (s.thread sc.thread.val).pend = [] ∧ (s.thread sc.thread.val).wait = none ∧
    ((s.thread sc.thread.val).mid = true ∨ fetchable sc.thread.val (2 + 8 * sc.slots.val) s)

/-- The slot's guard is 1 (R559). -/
def Sys2Proof.Machine.guardOn (sc : SlotCtx) (s : State) : Prop := xor ((s.thread sc.thread.val).pred sc.pred.val) sc.neg = true

/-- Address of the word that the thread is issuing. -/
def Sys2Proof.Machine.wordOf (n : Nat) (s : State) : BitVec 44 := if (s.thread n).mid then (s.thread n).word else (s.thread n).pc

/-- The device with the word begun. -/
def Sys2Proof.Machine.begun (n : Nat) (s : State) : Dev :=
  if (s.thread n).mid then s.toDev else s.setThread n { s.thread n with word := (s.thread n).pc, mid := true, mark := (s.thread n).order }

/-- The thread after a step of a word of the given length that wrote nothing. -/
def Sys2Proof.Machine.stepOver (n len : Nat) (s : State) : Thread :=
  { s.thread n with pc := (s.thread n).pc + BitVec.ofNat 44 len, step := (s.thread n).step + 1, mid := false, word := wordOf n s,
                    mark := if (s.thread n).mid then (s.thread n).mark else (s.thread n).order }

/-- The device with the fetch of the thread's word counted, where it lies in HBM (R681). -/
def Sys2Proof.Machine.fetchedAt (n len : Nat) (s : State) : State := { s with toDev := s.hbmBytes (s.thread n).pc.toNat len 0x130 }
def Sys2Proof.Machine.fetched (sc : SlotCtx) (s : State) : State := fetchedAt sc.thread.val (2 + 8 * sc.slots.val) s

/-- Only one thread has changed: it is `y`. -/
def Sys2Proof.Machine.onlyThread (n : Nat) (y : Thread) (s t : State) : Prop :=
  t = { s with threads := t.threads, sent := t.sent, sig := t.sig } ∧ sends [] s t ∧ t.thread n = y ∧
    ∀ r, r ≠ n → t.thread r = s.thread r

/-- The slot's word has ended, and only its thread has changed: it is `y`. -/
def Sys2Proof.Machine.steps (sc : SlotCtx) (y : Thread) (s t : State) : Prop := onlyThread sc.thread.val y (fetched sc s) t

/-- The thread after the last slot of a word. -/
def Sys2Proof.Machine.wordDone (sc : SlotCtx) (s : State) : Thread := stepOver sc.thread.val (2 + 8 * sc.slots.val) s

/-- The slot's operation completed with a status other than OK: it is counted and shown as LAST, and with a status other than NULL
an entry is owed to the thread's completion queue, or counted as dropped where it has none (R572, R573, R600, R602). -/
def Sys2Proof.Machine.failsWith (sc : SlotCtx) (st : Nat) (s t : State) : Prop :=
  let n := sc.thread.val
  let page := corePg (n / 16)
  t = { s with threads := t.threads, cores := t.cores, live := t.live, sent := t.sent, sig := t.sig } ∧ sends [] s t ∧
    t.thread n = { wordDone sc s with last := st } ∧ (∀ r, r ≠ n → t.thread r = s.thread r) ∧
    sameRegs [page + 0x108, page + 0x110, page + 0x118, page + 0x138] (fetched sc s) t ∧
    (st = 1 → countsOne (page + 0x108) s t ∧ t.cores = s.cores) ∧ (st = 2 → countsOne (page + 0x110) s t) ∧
    (st = 8 → countsOne (page + 0x118) s t) ∧
    (2 ≤ st → s.tcqLog n = 0 → countsOne (page + 0x138) s t ∧ t.cores = s.cores) ∧
    (2 ≤ st → s.tcqLog n ≠ 0 → (∀ c, c ≠ n / 16 → t.core c = s.core c) ∧
      (t.core (n / 16)).cqWait = (s.core (n / 16)).cqWait ++ [(n, { bytes := cqEntry st 0 n ((wordOf n s).toNat % 2 ^ 32) 0 })])

/-- The control operations of a slot. -/
def Sys2Proof.Machine.controlOps (sc : SlotCtx) (x : BitVec 52) : List Instr :=
  [.cset sc x, .csethi sc x, .cadd sc x, .caddi sc x, .cmuli sc x, .cshl sc x, .cshr sc x, .cmpset sc x, .cmprun sc x, .setvl sc x,
   .jmp sc x, .jmpc sc x, .waitobj sc x, .waitbeat sc x, .waitcnt sc x, .signal sc x, .launch sc x, .desc sc x, .sync sc x, .halt sc x,
   .cqhead sc x]

/-- The operations of the other slots. -/
def Sys2Proof.Machine.engineOps (sc : SlotCtx) (x : BitVec 52) (b : Bool) (ecc : Ecc) : List Instr :=
  [.vld sc x, .vst sc x, .ldc sc x, .stc sc x, .copy sc x ecc, .coll sc x, .vadd sc b x, .vmul sc b x, .vfma sc b x, .vmin sc b x,
   .vmax sc b x, .vcmp sc b x, .vsel sc b x, .vred sc b x, .rsum sc b x, .rmin sc b x, .rmax sc b x, .rand sc b x, .ror sc b x,
   .rxor sc b x, .rargmin sc b x, .rargmax sc b x, .mma sc x, .mmac sc x, .mmaf sc x, .mmacf sc x, .senc sc x, .sdec sc x,
   .sgather sc x, .sscatterAdd sc x, .sort sc x, .merge sc x, .topk sc x, .filter sc x]

/-- Every slot operation: where its thread cannot issue, nothing changes; on a PC that no word may be fetched from, the thread faults
with MALFORMED (3); a slot whose guard is 0 does nothing, and the word that it ends takes its step (R551, R555, R559). A control
slot with a reserved operand bit completes with MALFORMED and writes nothing, one that names absent hardware with UNSUPPORTED (R20,
R559). -/
def Obligations.SlotsIssueUnderTheirGuard : Prop :=
  ∀ (s : State) (sc : SlotCtx) (x : BitVec 52) (b : Bool) (ecc : Ecc),
    let n := sc.thread.val
    (∀ c ∈ controlOps sc x ++ engineOps sc x b ecc,
      (s.canIssue n = false → ∃ t, exec c s = .next t ∧ unchanged s t) ∧
      (s.canIssue n = true → (s.thread n).mid = false → pcOk (n / 16) (s.thread n).pc.toNat = false → (s.thread n).pend = [] →
        ∃ t, exec c s = .next t ∧
          onlyThread n { s.thread n with state := 4, reason := 3, wait := none, launchAt := none, mid := false, syncing := false } s t) ∧
      (lastSlot sc s → ¬ guardOn sc s → ∃ t, exec c s = .next t ∧ steps sc (wordDone sc s) s t)) ∧
    (∀ c ∈ controlOps sc x, lastSlot sc s → guardOn sc s → bits x.toNat 33 32 ≠ 0 →
      (c ∉ [.waitobj sc x, .signal sc x, .launch sc x, .desc sc x] → ∃ t, exec c s = .next t ∧ failsWith sc 8 s t) ∧
      ∃ t, exec c s = .next t ∧ (failsWith sc 8 s t ∨ failsWith sc 2 s t))

/-- The counters, comparators, VL and jumps of the control slot: the value of R561, visible from the next step of the thread
(counters, comparators, PC) or two steps on (predicates of CMPRUN and VL), and nothing else (R561 to R564). -/
def Obligations.ControlSlotsWriteTheirRegisters : Prop :=
  ∀ (s : State) (sc : SlotCtx) (x : BitVec 52), lastSlot sc s → guardOn sc s → bits x.toNat 33 32 = 0 →
    let n := sc.thread.val
    let th := s.thread n
    let y := wordDone sc s
    let cd := bits x.toNat 51 48
    let a := th.ctr (bits x.toNat 47 44)
    let b := th.ctr (bits x.toNat 43 40)
    let k := bits x.toNat 39 37
    let imm := bits x.toNat 31 0
    let immS := BitVec.ofInt 64 (sext 32 imm)
    let counter := fun (c : Instr) (v : Word) => ∃ t, exec c s = .next t ∧
      steps sc { y with ctrs := th.ctrs.set cd v, order := th.order + 1 } s t
    let later := fun (c : Instr) (l : List WriteTo) => ∃ t, exec c s = .next t ∧
      steps sc { y with pend := l.zipIdx.map fun w => { vis := th.step + 2, order := th.order + w.2, w := w.1 },
                            order := th.order + l.length } s t
    let jumps := fun (c : Instr) (pc : BitVec 44) => ∃ t, exec c s = .next t ∧
      steps sc { y with pc := pc, order := th.order + 1 } s t
    counter (.cset sc x) immS ∧
    counter (.csethi sc x) (BitVec.ofNat 64 (imm * 2 ^ 32 + (th.ctr cd).toNat % 2 ^ 32)) ∧
    counter (.cadd sc x) (a + b + immS) ∧
    counter (.caddi sc x) (a + immS) ∧
    counter (.cmuli sc x) (a * immS) ∧
    counter (.cshl sc x) (a <<< (imm % 64)) ∧
    counter (.cshr sc x) (a >>> (imm % 64)) ∧
    (6 ≤ cd → ∃ t, exec (.cmpset sc x) s = .next t ∧ failsWith sc 8 s t) ∧
    (cd < 6 → ∃ t, exec (.cmpset sc x) s = .next t ∧
      steps sc { y with cmps := th.cmps.set k { a := bits x.toNat 47 44, rel := cd, b := bits x.toNat 43 40, imm := BitVec.ofNat 32 imm,
                                                    target := bits x.toNat 36 34 }, order := th.order + 1 } s t) ∧
    (256 ≤ imm → ∃ t, exec (.cmprun sc x) s = .next t ∧ failsWith sc 8 s t) ∧
    (imm = 0 → ∃ t, exec (.cmprun sc x) s = .next t ∧ failsWith sc 1 s t) ∧
    (imm ≠ 0 → imm < 256 → later (.cmprun sc x) (((maskList 8 imm).filter fun j => (th.cmp j).target ≠ 0).map fun j =>
      .pred (th.cmp j).target (relHolds (th.cmp j).rel (th.ctr (th.cmp j).a)
        (th.ctr (th.cmp j).b + BitVec.ofInt 64 (sext 32 (th.cmp j).imm.toNat))))) ∧
    later (.setvl sc x) [.vl (min (a + immS).toNat 256)] ∧
    jumps (.jmp sc x) (wordOf n s + BitVec.ofNat 44 (2 + 8 * sc.slots.val) + BitVec.ofInt 44 (2 * sext 32 imm)) ∧
    jumps (.jmpc sc x) (BitVec.ofNat 44 (a.toNat - a.toNat % 2))

/-- Waits: a condition that holds at once gives its predicate and the thread goes on; otherwise the thread is WAITING. WAITOBJ takes a
valid object of the own partition, in mode 1 takes the bound from a semaphore; WAITBEAT while not aligned ends with TIMEOUT and is
counted; a wait on an object or counter ends at the limit with TIMEOUT, a beat wait never does (R561, R591 to R595, R160, R170;
when the predicate can be read: R564).
SIGNAL posts its amount to an object of the own partition, or sends a DOORBELL to another node; an amount of 0 is NULL. LAUNCH puts
an idle or faulted thread of the own partition in PENDING with its start address and argument, for a beat where one is given. DESC
loads a descriptor image from the own working SRAM for a later SYNC; SYNC holds the thread until it is published; HALT stops it;
CQHEAD moves the head of its completion queue (R561, R575 to R580, R588, R591, R597 to R599). -/
def Obligations.WaitsSignalsAndLaunches : Prop :=
  (
    ∀ (s : State) (sc : SlotCtx) (x : BitVec 52),
      let n := sc.thread.val
      let th := s.thread n
      let y := wordDone sc s
      let a := th.ctr (bits x.toNat 47 44)
      let b := th.ctr (bits x.toNat 43 40)
      let mode := bits x.toNat 51 48
      let p := bits x.toNat 36 34
      let immS := BitVec.ofInt 64 (sext 32 (bits x.toNat 31 0))
      let goesOn := fun (ok : Bool) => if p = 0 then y else { y with pend := [{ vis := th.step + 2, order := th.order, w := .pred p ok }], order := th.order + 1 }
      let waits := fun (on : Wait) => { y with state := 3, wait := some { on := on, p := p, start := s.ticks } }
      let issues := lastSlot sc s ∧ guardOn sc s ∧ bits x.toNat 33 32 = 0
      (lastSlot sc s → guardOn sc s → s.coreUp (a.toNat % 65536 / 256) = false →
        ∃ t, exec (.waitobj sc x) s = .next t ∧ failsWith sc 2 s t) ∧
      (issues →
        let o := a.toNat % 65536
        let bound := (b + immS).toNat % 2 ^ 32
        let v := s.obj o
        let mine := objValid (s.objCfg o) = true ∧ objPart (s.objCfg o) = s.corePart (n / 16) ∧ s.coreUp (o / 256) = true
        (s.coreUp (o / 256) = true → 65536 ≤ a.toNat ∨ 3 ≤ mode ∨ objValid (s.objCfg o) = false ∨ mode = 1 ∧ objKind (s.objCfg o) ≠ 1 ∨
            mode = 2 ∧ objKind (s.objCfg o) ≠ 2 → ∃ t, exec (.waitobj sc x) s = .next t ∧ failsWith sc 8 s t) ∧
        (a.toNat < 65536 → mode = 0 → mine → bound ≤ v.1.toNat → ∃ t, exec (.waitobj sc x) s = .next t ∧ steps sc (goesOn true) s t) ∧
        (a.toNat < 65536 → mode = 1 → objKind (s.objCfg o) = 1 → mine → bound ≤ v.1.toNat →
          ∃ t, exec (.waitobj sc x) s = .next t ∧ t.thread n = goesOn true ∧ t.obj o = (v.1 - BitVec.ofNat 32 bound, v.2) ∧
            t = { fetched sc s with threads := t.threads, cores := t.cores, sent := t.sent, sig := t.sig } ∧ sends [] s t) ∧
        (a.toNat < 65536 → mode = 0 ∨ mode = 1 ∧ objKind (s.objCfg o) = 1 → mine → v.1.toNat < bound →
          ∃ t, exec (.waitobj sc x) s = .next t ∧ steps sc (waits (.obj o mode bound v.2.toNat)) s t) ∧
        (s.aligned = true → s.beat < a → ∃ t, exec (.waitbeat sc x) s = .next t ∧ steps sc (waits (.beat a)) s t) ∧
        (s.aligned = true → s.beat = a → ∃ t, exec (.waitbeat sc x) s = .next t ∧ steps sc (goesOn true) s t) ∧
        (s.aligned = true → a < s.beat → ∃ t, exec (.waitbeat sc x) s = .next t ∧ t.thread n = goesOn true ∧
          countsOne (beatPg (n / 1024) + 0x1B0) s t ∧ sameRegs [beatPg (n / 1024) + 0x1B0] (fetched sc s) t) ∧
        (s.aligned = false → ∃ t, exec (.waitbeat sc x) s = .next t ∧ t.thread n = { goesOn false with last := 9 } ∧
          countsOne (beatPg (n / 1024) + 0x1A0) s t ∧ t.mem = s.mem) ∧
        ((b + immS).toInt ≤ a.toInt → ∃ t, exec (.waitcnt sc x) s = .next t ∧ steps sc (goesOn true) s t) ∧
        (a.toInt < (b + immS).toInt →
          ∃ t, exec (.waitcnt sc x) s = .next t ∧ steps sc (waits (.cnt (bits x.toNat 47 44) (b + immS).toInt)) s t)) ∧
      (th.wait = none ∨ (∃ w c, th.wait = some w ∧ w.on = .beat c) ∨ s.cfg (corePg (n / 16) + 0x1008) 31 0 = 0 ∨
          (∃ w, th.wait = some w ∧ s.ticks < w.start + s.cfg (corePg (n / 16) + 0x1008) 31 0) →
        ∃ t, exec (.waitTimeout sc.thread) s = .next t ∧ unchanged s t) ∧
      (∀ w, th.wait = some w → (∀ c, w.on ≠ .beat c) → s.cfg (corePg (n / 16) + 0x1008) 31 0 ≠ 0 →
        w.start + s.cfg (corePg (n / 16) + 0x1008) 31 0 ≤ s.ticks →
        ∃ t, exec (.waitTimeout sc.thread) s = .next t ∧ countsOne (corePg (n / 16) + 0x128) s t ∧ (t.thread n).state = 2 ∧
          (t.thread n).wait = none ∧ (t.thread n).last = 9 ∧ (t.thread n).ctrs = th.ctrs ∧
          (t.thread n).pend = th.pend ++ (if w.p = 0 then [] else [{ vis := th.step + 1, order := th.order, w := .pred w.p false }])
          ∧ t.mem = s.mem ∧ ∀ r, r ≠ n → t.thread r = s.thread r)) ∧
  (
    ∀ (s : State) (sc : SlotCtx) (x : BitVec 52),
      let n := sc.thread.val
      let th := s.thread n
      let y := wordDone sc s
      let a := (th.ctr (bits x.toNat 47 44)).toNat
      let b := th.ctr (bits x.toNat 43 40)
      let c := th.ctr (bits x.toNat 51 48)
      let imm := bits x.toNat 31 0
      let o := a % 65536
      let here := a / 2 ^ 44 = s.own ∧ bits a 43 16 = 0 ∧ s.coreUp (o / 256) = true ∧ objValid (s.objCfg o) = true ∧
        objPart (s.objCfg o) = s.corePart (n / 16) ∧ (s.core (o / 256)).inReset = false
      let part := s.corePart (n / 16)
      let m := a % 4096
      let launches := a < 4096 ∧ bits imm 31 8 = 0 ∧ bits imm 3 1 = 0 ∧ s.startable m = true ∧ s.corePart (m / 16) = part
      let started := fun (l : Option (BitVec 64)) => { s.thread m with pc := BitVec.ofNat 44 (b.toNat - b.toNat % 2), arg := c, state := 1, reason := 0,
                                                                        wait := none, launchAt := l, mid := false, syncing := false }
      lastSlot sc s → guardOn sc s →
        (a / 2 ^ 44 = s.own → s.coreUp (o / 256) = false → ∃ t, exec (.signal sc x) s = .next t ∧ failsWith sc 2 s t) ∧
        (s.coreUp (m / 16) = false → ∃ t, exec (.launch sc x) s = .next t ∧ failsWith sc 2 s t) ∧
        (bits x.toNat 33 32 = 0 →
        (here → imm = 0 → ∃ t, exec (.signal sc x) s = .next t ∧ failsWith sc 1 s t) ∧
        (here → imm ≠ 0 → s.waitersOf o = [] → ∃ t, exec (.signal sc x) s = .next t ∧ t.thread n = y ∧ t.mem = s.mem ∧
          (let v := s.obj o
           t.obj o = if objKind (s.objCfg o) = 2 then
               (if objTarget (s.objCfg o) ≤ v.1.toNat + imm then (0, v.2 + 1) else (BitVec.ofNat 32 (v.1.toNat + imm), v.2))
             else (v.1 + BitVec.ofNat 32 imm, v.2)) ∧ sends [] s t) ∧
        (a / 2 ^ 44 = s.own → s.coreUp (o / 256) = true → bits a 43 16 ≠ 0 ∨ objValid (s.objCfg o) = false →
          ∃ t, exec (.signal sc x) s = .next t ∧ failsWith sc 8 s t) ∧
        (a / 2 ^ 44 ≠ s.own → bits a 43 16 = 0 → imm ≠ 0 → ∃ t, exec (.signal sc x) s = .next t ∧
          became (((begun n s).sendFormed (n / 1024) (mkPkt ptDoorbell a s.own 0 part (s.coreClass (n / 16)) 1
            (leBytes 4 imm ++ leBytes 4 0))).endSlot sc) s t) ∧
        (launches → bit imm 0 = true → ∃ t, exec (.launch sc x) s = .next t ∧ t.thread m = started none ∧ t.thread n = y ∧
          (∀ r, r ≠ m → r ≠ n → t.thread r = s.thread r) ∧ t = { fetched sc s with threads := t.threads, sent := t.sent, sig := t.sig } ∧ sends [] s t) ∧
        (launches → bit imm 0 = false → s.aligned = true → s.beat = th.ctr (bits imm 7 4) → ∃ t, exec (.launch sc x) s = .next t ∧
          t.thread m = { started none with launchDie := n / 1024 } ∧ t.thread n = y ∧
          t = { fetched sc s with threads := t.threads, sent := t.sent, sig := t.sig } ∧ sends [] s t) ∧
        (launches → bit imm 0 = false → s.aligned = true → s.beat < th.ctr (bits imm 7 4) → ∃ t, exec (.launch sc x) s = .next t ∧
          t.thread m = { started (some (th.ctr (bits imm 7 4))) with launchDie := n / 1024 } ∧ t.thread n = y ∧
          t = { fetched sc s with threads := t.threads, sent := t.sent, sig := t.sig } ∧ sends [] s t) ∧
        (s.coreUp (m / 16) = true → 4096 ≤ a ∨ bits imm 31 8 ≠ 0 ∨ bits imm 3 1 ≠ 0 ∨ s.startable m = false →
          ∃ t, exec (.launch sc x) s = .next t ∧ failsWith sc 8 s t) ∧
        (let img := s.rawBytes (a % 2 ^ 44) 64
         let h := imm % 4096
         (a % 64 ≠ 0 ∨ s.inOwnSram (n / 16) a 64 = false → ∃ t, exec (.desc sc x) s = .next t ∧ failsWith sc 8 s t) ∧
         (a % 64 = 0 → s.inOwnSram (n / 16) a 64 = true → s.descStatus img = 0 → h ≠ 0 → (Desc.read img).valid = false ∨ (Desc.read img).meta_ = none →
           ∃ t, exec (.desc sc x) s = .next t ∧ t = { fetched sc s with threads := t.threads, cores := t.cores, sent := t.sent, sig := t.sig } ∧
             t.thread n = y ∧ t.core (n / 16) = { s.core (n / 16) with descPend := Map.insert (s.core (n / 16)).descPend h (n, img) } ∧
             sends [] s t)) ∧
        (∃ t, exec (.sync sc x) s = .next t ∧ steps sc { y with syncing := true } s t) ∧
        (∃ t, exec (.halt sc x) s = .next t ∧ steps sc { y with state := 0, reason := 1 } s t) ∧
        ∃ t, exec (.cqhead sc x) s = .next t ∧ t.thread n = y ∧ t.lv (corePg (n / 16) + 0x218 + 0x20 * (n % 16)) 31 0 = a % 2 ^ 32 ∧
          t = { fetched sc s with threads := t.threads, live := t.live, sent := t.sent, sig := t.sig } ∧
          sameRegs [corePg (n / 16) + 0x218 + 0x20 * (n % 16)] (fetched sc s) t ∧ sends [] s t))

/-- Threads start, stop and step. START and a launch's beat put an IDLE or FAULTED thread, once none of its operations is
outstanding, in RUNNING with its registers at reset and its argument in counter 0; STOP makes it IDLE. A word that is skipped or empty
takes one step, one with a reserved header bit faults the thread. A published SYNC stores what the thread has issued and lets it go on. A
reset of a core ends its threads, queues and objects (R546 to R549, R555 to R557, R579, R580, R597, R603). -/
def Obligations.ThreadsStartStopAndStep : Prop :=
  ∀ (s : State) (m : ThreadNo),
    let n := m.val
    let th := s.thread n
    let fresh := fun (pc : BitVec 44) (arg : Word) => Thread.start pc arg 2 none th.last 0
    let stopped := fun (st why : Nat) => { th with state := st, reason := why, wait := none, launchAt := none, mid := false, syncing := false }
    (∀ pc, s.startable n = false → ∃ t, exec (.threadStart m pc) s = .next t ∧ unchanged s t) ∧
    (∀ pc : BitVec 44, s.startable n = true → th.outstanding = 0 → ∃ t, exec (.threadStart m pc) s = .next t ∧
      onlyThread n (fresh (BitVec.ofNat 44 (pc.toNat - pc.toNat % 2)) 0) s t) ∧
    (∀ pc : BitVec 44, s.startable n = true → th.outstanding ≠ 0 → ∃ t, exec (.threadStart m pc) s = .next t ∧
      onlyThread n { stopped 1 0 with pc := BitVec.ofNat 44 (pc.toNat - pc.toNat % 2), arg := 0 } s t) ∧
    (th.state = 0 → ∃ t, exec (.threadStop m) s = .next t ∧ unchanged s t) ∧
    (th.state ≠ 0 → th.pend = [] → ∃ t, exec (.threadStop m) s = .next t ∧ onlyThread n (stopped 0 2) s t) ∧
    (let may := s.fatal = false ∧ th.state = 1 ∧ th.launchAt = none ∧ th.outstanding = 0 ∧ threadUp s.toDev n = true
     (may → ∃ t, exec (.threadPendingRun m) s = .next t ∧ onlyThread n (fresh th.pc th.arg) s t) ∧
     (¬ may → ∃ t, exec (.threadPendingRun m) s = .next t ∧ unchanged s t)) ∧
    (∀ b, s.fatal = false → th.state = 1 → th.launchAt = some b →
      (s.aligned = true → b ≤ s.beat → th.outstanding = 0 → threadUp s.toDev n = true →
        ∃ t, exec (.beatLaunch m) s = .next t ∧ onlyThread n (fresh th.pc th.arg) s t) ∧
      (s.aligned = false ∨ s.beat < b → ∃ t, exec (.beatLaunch m) s = .next t ∧ unchanged s t)) ∧
    (∀ w b, s.fatal = false → th.state ≠ 1 → th.wait = some w → w.on = .beat b →
      (s.aligned = true → b ≤ s.beat → ∃ t, exec (.beatLaunch m) s = .next t ∧ (t.thread n).state = 2 ∧ (t.thread n).wait = none ∧
        (t.thread n).pend = th.pend ++ (if w.p = 0 then [] else [{ vis := th.step + 1, order := th.order, w := .pred w.p true }])) ∧
      (s.aligned = false ∨ s.beat < b → ∃ t, exec (.beatLaunch m) s = .next t ∧ unchanged s t)) ∧
    (∀ h : BitVec 16,
      let plain := h.toNat / 4096 = 0
      let guard := xor (th.pred (bits h.toNat 10 8)) (bit h.toNat 11)
      let count := ((List.range 8).filter fun i => bit h.toNat i).length
      let at_ := s.canIssue n = true ∧ th.mid = false ∧ th.pend = [] ∧ th.wait = none
      (at_ → fetchable n (2 + 8 * count) s → plain → guard = false → ∃ t, exec (.wordSkip m h) s = .next t ∧
        onlyThread n (stepOver n (2 + 8 * count) s) (fetchedAt n (2 + 8 * count) s) t) ∧
      (s.canIssue n = false ∨ th.mid = true ∨ ¬ plain ∨ guard = true → ∃ t, exec (.wordSkip m h) s = .next t ∧ unchanged s t) ∧
      (at_ → fetchable n 2 s → plain → count = 0 → ∃ t, exec (.wordEmpty m h) s = .next t ∧
        onlyThread n (stepOver n 2 s) (fetchedAt n 2 s) t) ∧
      (s.canIssue n = false ∨ th.mid = true ∨ ¬ plain ∨ count ≠ 0 → ∃ t, exec (.wordEmpty m h) s = .next t ∧ unchanged s t) ∧
      (at_ → ¬ plain → ∃ t, exec (.wordMalformed m h) s = .next t ∧ onlyThread n (stopped 4 3) s t) ∧
      (s.canIssue n = false ∨ th.mid = true ∨ plain → ∃ t, exec (.wordMalformed m h) s = .next t ∧ unchanged s t)) ∧
    (th.syncing = false → ∃ t, exec (.syncPublish m) s = .next t ∧ unchanged s t) ∧
    (∀ a l v o, th.syncing = true → th.pend = [⟨v, o, .mem a l⟩] → (s.core (n / 16)).descPend = [] →
      ∃ t, exec (.syncPublish m) s = .next t ∧ t.mem = Memory.writeBytes s.mem a l ∧ t.thread n = { th with pend := [], syncing := false }) ∧
    (∀ h img, th.syncing = true → th.pend = [] → (s.core (n / 16)).descPend = [(h, (n, img))] →
      ∃ t, exec (.syncPublish m) s = .next t ∧ t.mem = s.mem ∧ t.thread n = { th with syncing := false } ∧
        t.core (n / 16) = { s.core (n / 16) with descs := Map.insert (s.core (n / 16)).descs h img, descPend := [] }) ∧
    ∀ c : CoreNo,
      (∀ on, s.corePresent c.val = false → ∃ t, exec (.coreCtrlReset c on) s = .next t ∧ unchanged s t) ∧
      (s.corePresent c.val = true → ∃ t, exec (.coreCtrlReset c false) s = .next t ∧ onlyRegs [corePg c.val + 0x100] [] { s with cores := t.cores } t ∧
        t.lv (corePg c.val + 0x100) 0 0 = 0 ∧ t.core c.val = { s.core c.val with inReset := false }) ∧
      (s.corePresent c.val = true → ∃ t, exec (.coreCtrlReset c true) s = .next t ∧
        became (((s.setLv (corePg c.val + 0x100) 0 0 1).updCore c.val fun k => { k with inReset := true }).coreDown c.val) s t)

/-- Asynchronous operations complete in issue order: the head of a queue that waits for nothing ends, adds 1 to its counter, shows its
status, and owes an entry for a status other than OK and NULL; while entries wait for room it waits. The oldest entry that a thread is
owed is stored at TAIL of its completion queue, and TAIL counts on. A reserved OP completes with MALFORMED, or UNSUPPORTED where its
engine is absent (R559, R569 to R573, R234). -/
def Obligations.OperationsCompleteInIssueOrder : Prop :=
  (∀ (s : State) (c : CoreNo) (q : AsyncQ),
    ((s.core c.val).queue q = [] → ∃ t, exec (.asyncComplete c q) s = .next t ∧ unchanged s t) ∧
    ∀ o rest, (s.core c.val).queue q = o :: rest →
      (o.coll = true ∨ o.remote ≠ [] ∨ s.tcqOwing o.thread = true ∨ 2 ≤ o.status ∧ o.owed = false ∧ s.tcqRoom o.thread = false →
        ∃ t, exec (.asyncComplete c q) s = .next t ∧ unchanged s t) ∧
      (let th := s.thread o.thread
       let ends := fun (last : Nat) => { th with outstanding := th.outstanding - 1, ctrs := th.ctrs.set o.cnt (th.ctr o.cnt + 1), last := last }
       o.coll = false → o.remote = [] → s.tcqOwing o.thread = false → th.mid = false → th.wait = none →
       (o.status = 0 → ∃ t, exec (.asyncComplete c q) s = .next t ∧ t.core c.val = (s.core c.val).setQueue q rest ∧
         (∀ d, d ≠ c.val → t.core d = s.core d) ∧ t.thread o.thread = ends th.last ∧ (∀ r, r ≠ o.thread → t.thread r = s.thread r) ∧
         t = { s with threads := t.threads, cores := t.cores, sent := t.sent, sig := t.sig } ∧ sends [] s t) ∧
       (2 ≤ o.status → o.owed = false → s.tcqRoom o.thread = true → s.tcqLog o.thread ≠ 0 →
         ∃ t, exec (.asyncComplete c q) s = .next t ∧ t.thread o.thread = ends o.status ∧
           (t.core (o.thread / 16)).cqWait = (s.core (o.thread / 16)).cqWait ++
             [(o.thread, { bytes := cqEntry o.status 0 o.thread o.wrId.toNat 0 })] ∧ t.mem = s.mem))) ∧
  (∀ (s : State) (m : ThreadNo),
    let n := m.val
    let idx := corePg (n / 16) + 0x218 + 0x20 * (n % 16)
    let base := s.lv (corePg (n / 16) + 0x210 + 0x20 * (n % 16)) 43 0
    let tail := s.lv idx 63 32
    ((s.core (n / 16)).cqWait.find? (·.1 == n) = none → ∃ t, exec (.cqEntryWrite m) s = .next t ∧ unchanged s t) ∧
    (∀ e, (s.core (n / 16)).cqWait.find? (·.1 == n) = some e →
      (s.tcqRoom n = false → ∃ t, exec (.cqEntryWrite m) s = .next t ∧ unchanged s t) ∧
      (s.tcqRoom n = true → s.tcqLog n ≠ 0 → e.2.bytes.length = 16 →
        let at_ := base + 16 * (tail % 2 ^ s.tcqLog n)
        let phase := xor Config.firstPhase (tail / 2 ^ s.tcqLog n % 2 == 1)
        s.inOwnSram (n / 16) (s.own * 2 ^ 44 + at_) 16 = true →
        ∃ t, exec (.cqEntryWrite m) s = .next t ∧ t.lv idx 63 32 = (tail + 1) % 2 ^ 32 ∧
          (t.core (n / 16)).cqWait = (s.core (n / 16)).cqWait.erase e ∧
          t.mem = Memory.writeBytes s.mem at_ (patch e.2.bytes 1 [BitVec.ofNat 8 (leAt e.2.bytes 1 1 + b2n phase)])))) ∧
  ∀ (s : State) (sc : SlotCtx) (op : BitVec 8) (x : BitVec 52), lastSlot sc s → guardOn sc s →
    let n := sc.thread.val
    (∀ kind, opReserved kind op.toNat = false → ∃ t, exec (.slotReservedOp sc kind op x) s = .next t ∧ unchanged s t) ∧
    (∀ kind, opReserved kind op.toNat = true → kind = .control ∨ kind = .move →
      ∃ t, exec (.slotReservedOp sc kind op x) s = .next t ∧ failsWith sc 8 s t) ∧
    ∀ kind q e, opReserved kind op.toNat = true → slotQueue kind = some (q, e) → s.queueFull n q = false →
      (s.core (n / 16)).queues.length = 5 →
      ∃ t, exec (.slotReservedOp sc kind op x) s = .next t ∧
        (t.core (n / 16)).queue q = (s.core (n / 16)).queue q ++
          [{ thread := n, cnt := bits x.toNat 3 0, status := if s.engineUp (n / 16) e then 8 else 2,
             wrId := BitVec.ofNat 32 (wordOf n s).toNat, coll := false, owed := false, remote := [] }] ∧
        (t.thread n).outstanding = (s.thread n).outstanding + 1

/-! ### Moves, vectors and engines -/

/-- The word has ended and its thread owes these writes, visible after `lat` more steps. -/
def Sys2Proof.Machine.owesWrites (sc : SlotCtx) (lat : Nat) (l : List WriteTo) (s t : State) : Prop :=
  let th := s.thread sc.thread.val
  steps sc { wordDone sc s with
    pend := l.zipIdx.map fun w => { vis := th.step + lat, order := th.order + w.2, w := w.1 }, order := th.order + l.length } s t

/-- The word has ended, and its thread owes a write of a vector register: lane `i` below `n` takes `f i`, no other lane is written. -/
def Sys2Proof.Machine.owesLanes (sc : SlotCtx) (lat v e n : Nat) (f : Nat → Nat) (s t : State) : Prop :=
  ∃ mask w : BitVec 2048, owesWrites sc lat [.vreg v mask w] s t ∧
    ∀ i, laneOf e mask i = (if i < n then 2 ^ (8 * e) - 1 else 0) ∧ (i < n → laneOf e w i = f i % 2 ^ (8 * e))

/-- The word has ended, and its operation stands last in a queue with the status it met, which is counted; nothing else has happened. -/
def Sys2Proof.Machine.queuedWith (sc : SlotCtx) (q : AsyncQ) (cnt st : Nat) (wrId : BitVec 32) (s t : State) : Prop :=
  let n := sc.thread.val
  let page := corePg (n / 16)
  let k := s.core (n / 16)
  t = { s with threads := t.threads, cores := t.cores, live := t.live, sent := t.sent, sig := t.sig } ∧ sends [] s t ∧
    t.core (n / 16) = k.setQueue q (k.queue q ++ [{ thread := n, cnt := cnt, status := st, wrId := wrId, coll := false, owed := false, remote := [] }]) ∧
    (∀ c, c ≠ n / 16 → t.core c = s.core c) ∧
    t.thread n = { wordDone sc s with outstanding := (s.thread n).outstanding + 1 } ∧ (∀ r, r ≠ n → t.thread r = s.thread r) ∧
    sameRegs [page + 0x108, page + 0x110, page + 0x118] (fetched sc s) t ∧
    (st = 1 → countsOne (page + 0x108) s t) ∧ (st = 2 → countsOne (page + 0x110) s t) ∧ (st = 8 → countsOne (page + 0x118) s t)

/-- The word's address as the operation's WR_ID. -/
def Sys2Proof.Machine.wordWr (sc : SlotCtx) (s : State) : BitVec 32 := BitVec.ofNat 32 (wordOf sc.thread.val s).toNat

/-- The slot's own effect follows its guard. -/
def Sys2Proof.Machine.issuesNow (sc : SlotCtx) (s : State) : Prop := lastSlot sc s ∧ guardOn sc s

/-- VLD loads the elements of a tensor from the unit that a counter names into the lanes below VL, zero past the tensor, visible after 8
steps; VST stores them, in rising order, visible after 4. LDC and STC move a counter. An operand that R551, R560 or R582 forbids ends
with MALFORMED and moves nothing; a tensor of no elements with NULL (R560, R564, R582, R583). That MX elements cannot be moved so is
the model's choice (log 30).
COPY and COLL enter the move queue, and wait for room in it. COPY moves one tensor to another of its format and size; COLL starts
the work request whose image its descriptor names. A breach ends with MALFORMED, no elements with NULL (R569, R583, R584). A transaction with
another node that has waited CORE_REMOTE_CFG's beats is sent again until it has been tried often enough, and then ends with TIMEOUT
(R552, R608); when it has its answer, the retry does nothing. -/
def Obligations.MoveSlots : Prop :=
  (
    ∀ (s : State) (sc : SlotCtx) (x : BitVec 52), issuesNow sc s →
      let n := sc.thread.val
      let th := s.thread n
      let v := bits x.toNat 51 47
      let hd := bits x.toNat 46 35
      let ha := bits x.toNat 34 23
      let ca := bits x.toNat 22 19
      let cb := bits x.toNat 18 15
      let rsv := bits x.toNat 10 0
      let a := (th.ctr ca).toNat
      let scalar := rsv = 0 ∧ hd = 0 ∧ ha = 0 ∧ a % 8 = 0 ∧ s.inOwnSram (n / 16) a 8 = true
      let bothFail := fun st => (∃ t, exec (.vld sc x) s = .next t ∧ failsWith sc st s t) ∧ ∃ t, exec (.vst sc x) s = .next t ∧ failsWith sc st s t
      (rsv ≠ 0 ∨ hd ≠ 0 ∨ s.desc n ha = none → bothFail 8) ∧
      (∀ d, s.desc n ha = some d → rsv = 0 → hd = 0 →
        let e := elemBytes d.fmt
        let k := min th.vl (256 / e)
        let inside := (List.range k).filter fun i => a + i < d.count
        (isMx d.fmt = true ∨ d.count ≠ 0 ∧ (∃ i ∈ inside, s.inOwnSram (n / 16) (d.unitAddr (a + i)) e = false) → bothFail 8) ∧
        (isMx d.fmt = false → d.count = 0 → bothFail 1) ∧
        (isMx d.fmt = false → d.count ≠ 0 → (∀ i ∈ inside, s.inOwnSram (n / 16) (d.unitAddr (a + i)) e = true) →
          (∃ t, exec (.vld sc x) s = .next t ∧ owesLanes sc 8 v e k (fun i =>
            if a + i < d.count then leNat (s.rawBytes (d.unitAddr (a + i) % 2 ^ 44) e) else 0) s t) ∧
          ∃ t, exec (.vst sc x) s = .next t ∧ owesWrites sc 4 (inside.map fun i =>
            .mem (d.unitAddr (a + i) % 2 ^ 44) (leBytes e (laneOf e (th.vreg v) i))) s t)) ∧
      (scalar → (∃ t, exec (.ldc sc x) s = .next t ∧
          owesWrites sc 8 [.counter cb (BitVec.ofNat 64 (leNat (s.rawBytes (a % 2 ^ 44) 8)))] s t) ∧
        ∃ t, exec (.stc sc x) s = .next t ∧ owesWrites sc 4 [.mem (a % 2 ^ 44) (leBytes 8 (th.ctr cb).toNat)] s t) ∧
      (¬ scalar → (∃ t, exec (.ldc sc x) s = .next t ∧ failsWith sc 8 s t) ∧ ∃ t, exec (.stc sc x) s = .next t ∧ failsWith sc 8 s t)) ∧
  (
    (∀ (s : State) (sc : SlotCtx) (x : BitVec 52) (ecc : Ecc), issuesNow sc s →
      let n := sc.thread.val
      let hd := bits x.toNat 46 35
      let ha := bits x.toNat 34 23
      let cnt := bits x.toNat 14 11
      let rsv := bits x.toNat 10 0
      let ends := fun (c : Instr) st id => ∃ t, exec c s = .next t ∧ queuedWith sc .move cnt st id s t
      (16 ≤ ((s.core (n / 16)).queue .move).length →
        (∃ t, exec (.copy sc x ecc) s = .next t ∧ unchanged s t) ∧ ∃ t, exec (.coll sc x) s = .next t ∧ unchanged s t) ∧
      (((s.core (n / 16)).queue .move).length < 16 →
        (s.desc n ha = none ∨ s.desc n hd = none → ends (.copy sc x ecc) 8 (wordWr sc s)) ∧
        (∀ a d, s.desc n ha = some a → s.desc n hd = some d →
          (rsv ≠ 0 ∨ a.fmt ≠ d.fmt ∨ a.count ≠ d.count → ends (.copy sc x ecc) 8 (wordWr sc s)) ∧
          (rsv = 0 → a.fmt = d.fmt → a.count = d.count → a.count = 0 → ends (.copy sc x ecc) 1 (wordWr sc s)) ∧
          (rsv = 0 → a.fmt = d.fmt → a.count = d.count → a.count ≠ 0 → ∃ t, exec (.copy sc x ecc) s = .next t ∧
            became (((begun n s).copyRun n (Mv.of x) a d ecc).endSlot sc) s t)) ∧
        (s.desc n ha = none → ends (.coll sc x) 8 (wordWr sc s)) ∧
        (∀ a, s.desc n ha = some a →
          let w := WrImg.read (s.rawBytes (a.base % 2 ^ 44) 64)
          let sound := rsv = 0 ∧ hd = 0 ∧ s.inOwnSram (n / 16) a.base 64 = true
          (¬ sound → ends (.coll sc x) 8 (wordWr sc s)) ∧
          (∀ st, sound → s.collCheck n w = .inl st → ends (.coll sc x) st w.wrId) ∧
          (∀ slot e, sound → s.collCheck n w = .inr (slot, e) →
            (w.expected e = 0 → ends (.coll sc x) 1 w.wrId) ∧
            (w.expected e ≠ 0 → ∃ t, exec (.coll sc x) s = .next t ∧
              let y := w.work (.thread n) slot e cnt
              let q := (begun n s).enqueueOp n .move cnt 0 w.wrId true []
              became ((({ q with works := q.works ++ [y] } : Dev).startWork n y e).endSlot sc) s t))))) ∧
    ∀ (s : State) (m : ThreadNo) (tag : BitVec 12),
      let n := m.val
      let cfg := corePg (n / 16) + 0x1010
      (s.remoteTx n tag = none → ∃ t, exec (.remoteRetry m tag) s = .next t ∧ unchanged s t) ∧
      ∀ r, s.remoteTx n tag = some r →
        (s.ticks < r.tick + max 1024 (s.cfg cfg 31 0) → ∃ t, exec (.remoteRetry m tag) s = .next t ∧ unchanged s t) ∧
        (r.tick + max 1024 (s.cfg cfg 31 0) ≤ s.ticks → s.cfg cfg 39 32 ≤ r.tries → ∃ t, exec (.remoteRetry m tag) s = .next t ∧
          became (s.remoteEnd n r 9 []) s t) ∧
        (r.tick + max 1024 (s.cfg cfg 31 0) ≤ s.ticks → r.tries < s.cfg cfg 39 32 → ∃ t, exec (.remoteRetry m tag) s = .next t ∧
          let again := fun (y : Nat × RemoteTx) => if y.1 = n ∧ y.2.tag = tag ∧ y.2.held = false then (y.1, { y.2 with tries := y.2.tries + 1, tick := s.ticks }) else y
          became ((s.updCore (n / 16) fun k => { k with remote := k.remote.map again }).sendFormed (n / 1024) r.pkt) s t))

/-- A vector slot without its engine ends with UNSUPPORTED, one that names a reserved value or sets a field it does not use with
MALFORMED, neither with an entry. Otherwise every active lane of VD takes the exact result of its elements rounded once, visible
after 4 steps (VFMA 6, VRED 4 and 2 for each round), and the other lanes keep theirs (R560, R564, R611, R620 to R624). -/
def Obligations.VectorSlotsComputeLanes : Prop :=
  ∀ (s : State) (sc : SlotCtx) (x : BitVec 52) (second : Bool), issuesNow sc s →
    let n := sc.thread.val
    let th := s.thread n
    let page := corePg (n / 16)
    let vd := bits x.toNat 51 47
    let va := bits x.toNat 46 42
    let vb := bits x.toNat 41 37
    let vc := bits x.toNat 36 32
    let fmt := bits x.toNat 31 27
    let rel := bits x.toNat 26 24
    let rfunc := bits x.toNat 23 22
    let sat := bit x.toNat 21
    let e := elemBytes fmt
    let k := min th.vl (256 / e)
    let val := fun r i => vecNum fmt (laneOf e (th.vreg r) i)
    let flip := fun (b : Bool) (y : Sys2Proof.Machine.Num) => if b then y.neg else y
    let b' := fun i => flip (bit x.toNat 20) (val vb i)
    let c' := fun i => flip (bit x.toNat 19) (val vc i)
    let fails := fun (c : Instr) (st at_ : Nat) => ∃ t, exec c s = .next t ∧
      t = { s with threads := t.threads, live := t.live, sent := t.sent, sig := t.sig } ∧ sends [] s t ∧
      t.thread n = { wordDone sc s with last := st } ∧ (∀ r, r ≠ n → t.thread r = s.thread r) ∧ countsOne (page + at_) s t ∧ sameRegs [page + at_] (fetched sc s) t
    let up := s.engineUp (n / 16) 1 = true
    let wrong := fun (srcs uses : Nat) => vecFmt fmt = false ∨ bits x.toNat 26 0 &&& uses ≠ bits x.toNat 26 0 ∨ 6 ≤ rel ∨ rfunc = 3 ∨ (srcs < 2 ∧ vb ≠ 0) ∨ (srcs < 3 ∧ vc ≠ 0)
    let op := fun (c : Instr) (srcs uses lat : Nat) (f : Nat → Nat) =>
      (¬ up → fails c 2 0x110) ∧ (up → wrong srcs uses → fails c 8 0x118) ∧
      (up → ¬ wrong srcs uses → ∃ t, exec c s = .next t ∧ owesLanes sc lat vd e k f s t)
    op (.vadd sc second x) 2 0x300000 4 (fun i => vecRound fmt sat ((val va i).add (b' i))) ∧
    op (.vmul sc second x) 2 0x300000 4 (fun i => vecRound fmt sat ((val va i).mul (b' i))) ∧
    op (.vfma sc second x) 3 0x280000 6 (fun i => vecRound fmt sat (((val va i).mul (val vb i)).add (c' i))) ∧
    op (.vmin sc second x) 2 0 4 (fun i => encSame fmt (minMax false (val va i) (val vb i))) ∧
    op (.vmax sc second x) 2 0 4 (fun i => encSame fmt (minMax true (val va i) (val vb i))) ∧
    op (.vcmp sc second x) 2 0x7000000 4 (fun i => if vecRel rel (val va i) (val vb i) then 2 ^ (8 * e) - 1 else 0) ∧
    op (.vsel sc second x) 3 0 4 (fun i => vecCopy fmt (laneOf e (th.vreg (if vecZero fmt (laneOf e (th.vreg vc) i) then vb else va)) i)) ∧
    op (.vred sc second x) 1 0xC00000 (4 + 2 * redRounds k) (fun _ =>
      vredValue (Vo.of x) ((List.range k).map fun i => laneOf e (th.vreg va) i))

/-- The engine operations of a word, with the queue and the engine of each. -/
def Sys2Proof.Machine.engineSlots (sc : SlotCtx) (x : BitVec 52) (sat : Bool) : List (Instr × AsyncQ × Nat) :=
  ([.rsum sc sat x, .rmin sc sat x, .rmax sc sat x, .rand sc sat x, .ror sc sat x, .rxor sc sat x, .rargmin sc sat x,
    .rargmax sc sat x].map fun c => (c, .reduction, 0)) ++
  ([.mma sc x, .mmac sc x, .mmaf sc x, .mmacf sc x].map fun c => (c, .tile, 2)) ++
  ([.senc sc x, .sdec sc x, .sgather sc x, .sscatterAdd sc x].map fun c => (c, .sparse, 3)) ++
  [.sort sc x, .merge sc x, .topk sc x, .filter sc x].map fun c => (c, .sort, 4)

/-- Every engine operation waits for room in its queue; without its engine it is queued with UNSUPPORTED, and where a descriptor that all of
its kind read or write is missing, with MALFORMED, its counter and WR_ID kept for its completion (R553, R560, R569, R570, R572, R600).
What the engine operations make of sound operands, as R614 to R635 give it: the reductions one element from each slice, strip by strip, the matrix
products D = A·Bᵀ (+ C), the sparse engine encoded and decoded tiles and rows by index, the sort engine elements by key. No elements
end it with NULL.
MMAF and MMACF keep their output tiles ready as the chunks of the work request whose image D names, and TILE_FEED_SEND sends the
oldest: the contribution for its chunk, and the source copy. A breach of R629 ends with MALFORMED, no elements with NULL (R629 to
R631). -/
def Obligations.EngineOperations : Prop :=
  (
    ∀ (s : State) (sc : SlotCtx) (x : BitVec 52) (sat : Bool), issuesNow sc s →
      ∀ c ∈ engineSlots sc x sat,
        let n := sc.thread.val
        let q := c.2.1
        let cnt := bits x.toNat 3 0
        (16 ≤ ((s.core (n / 16)).queue q).length → ∃ t, exec c.1 s = .next t ∧ unchanged s t) ∧
        (((s.core (n / 16)).queue q).length < 16 →
          (s.engineUp (n / 16) c.2.2 = false → ∃ t, exec c.1 s = .next t ∧ queuedWith sc q cnt 2 (wordWr sc s) s t) ∧
          (s.engineUp (n / 16) c.2.2 = true → s.desc n (bits x.toNat 51 40) = none ∨ s.desc n (bits x.toNat 39 28) = none →
            ∃ t, exec c.1 s = .next t ∧ queuedWith sc q cnt 8 (wordWr sc s) s t))) ∧
  (
    ∀ (s : State) (sc : SlotCtx) (x : BitVec 52) (sat : Bool), issuesNow sc s →
      let n := sc.thread.val
      let cnt := bits x.toNat 3 0
      let hb := bits x.toNat 27 16
      let hc := bits x.toNat 15 4
      ∀ a d, s.desc n (bits x.toNat 39 28) = some a → s.desc n (bits x.toNat 51 40) = some d →
        let room := fun (q : AsyncQ) (e : Nat) => ((s.core (n / 16)).queue q).length < 16 ∧ s.engineUp (n / 16) e = true
        let null := fun (c : Instr) (q : AsyncQ) => ∃ t, exec c s = .next t ∧ queuedWith sc q cnt 1 (wordWr sc s) s t
        let u := begun n s
        let leaves := fun (c : Instr) (q : AsyncQ) (r : Dev × Nat) =>
          ∃ t, exec c s = .next t ∧ became ((r.1.enqueueOp n q cnt r.2 (wordWr sc s) false []).endSlot sc) s t
        let made := fun (c : Instr) (q : AsyncQ) (ins outs : List Desc) (f : List (List Byte) → Nat × List (List Byte)) =>
          leaves c q (u.engineRun n ins outs f)
        let bytes := fun (y : Desc) => y.all.flatMap fun r => u.rawBytes (r.1 % 2 ^ 44) r.2
        let dropped := fun (v : Dev) (k : Nat) => v.addLv (corePg (n / 16) + 0x800) 63 0 k
        (room .reduction 0 → hb = 0 → hc = 0 →
          ∀ c ∈ [(Instr.rsum sc sat x, 0), (.rmin sc sat x, 1), (.rmax sc sat x, 2), (.rand sc sat x, 3), (.ror sc sat x, 4), (.rxor sc sat x, 5),
                 (.rargmin sc sat x, 6), (.rargmax sc sat x, 7)],
            fmtAccepted 0 c.2 a.fmt = true → a.fmt ≠ 2 → d.count = a.slices.1 → d.fmt = (if 6 ≤ c.2 then 0x15 else a.fmt) →
            ¬ (c.2 = 0 ∧ a.fmt = 0 ∧ s.fp64x = false) →
            (a.count = 0 → null c.1 .reduction) ∧
            (a.count ≠ 0 → leaves c.1 .reduction (u.reduceRun n a d
              (reduceSlices { pattern := 0, func := c.2, fmt := a.fmt, sat := sat, length := 0, fused := [] } (s.arithNow n) (slotKey n d) a.slices.2)))) ∧
        (room .tile 2 → ∀ b, s.desc n hb = some b → tileShapes a b = true → tilePair a.fmt b.fmt = true → tileShape a b d = true → tileOut d.fmt = true →
          (hc = 0 → tileNull a b = true → null (.mma sc x) .tile) ∧
          (hc = 0 → tileNull a b = false → made (.mma sc x) .tile [a, b] [d] fun l => (0, [(tileResult a b none d.fmt l).flatMap (leBytes (elemBytes d.fmt))])) ∧
          ∀ c, s.desc n hc = some c → tileShape a b c = true → tileOut c.fmt = true →
            (tileNull a b = true → null (.mmac sc x) .tile) ∧
            (tileNull a b = false → made (.mmac sc x) .tile [a, b, c] [d] fun l => (0, [(tileResult a b (some c) d.fmt l).flatMap (leBytes (elemBytes d.fmt))]))) ∧
        (room .sparse 3 → hb = 0 → hc = 0 → a.count ≠ 0 → d.count ≠ 0 →
          (d.fmt = 0x1A →
            leaves (.senc sc x) .sparse (u.engineGuard n [a] [d] fun who =>
              let l := u.readRuns who a.all
              let tiles := allTiles a (unitsOf a.fmt l.2)
              let r := packTiles d.count (tiles.map (encodeUnits a.fmt))
              ((l.1.writeRuns who (d.runs 0 r.1.length) r.1).eyespot n a tiles, if r.2 then 0 else 0x0A))) ∧
          (a.fmt = 0x1A →
            let q := decodeTiles d.fmt (tileSizes d) (bytes a)
            let r := u.engineRun n [a] [d] fun l =>
              let q := decodeTiles d.fmt (tileSizes d) (l.headD [])
              if q.bad then (8, []) else if q.whole then (6, []) else (if q.drops = 0 then 0 else 6, [q.out])
            (r.2 ≠ 6 → leaves (.sdec sc x) .sparse r) ∧
            (r.2 = 6 → leaves (.sdec sc x) .sparse (if q.whole then r.1.count (corePg (n / 16) + 0x808) else dropped r.1 q.drops, 6)))) ∧
        (room .sparse 3 → hc = 0 → ∀ b, s.desc n hb = some b →
          let ix := indices (bytes b)
          (rowsOk a d b = true → a.count ≠ 0 → d.count ≠ 0 →
            let w := a.size 0 * elemBytes a.fmt
            let r := u.engineRun n [a, b] [d] fun l =>
              let ix := indices (l.getD 1 [])
              (if ix.any (a.size 1 ≤ ·) then 6 else 0,
                [ix.flatMap fun q => if q < a.size 1 then slice (l.getD 0 []) (q * w) w else List.replicate w 0])
            (r.2 ≠ 6 → leaves (.sgather sc x) .sparse r) ∧
            (r.2 = 6 → leaves (.sgather sc x) .sparse (dropped r.1 (ix.filter (a.size 1 ≤ ·)).length, 6))) ∧
          (rowsOk d a b = true → a.count ≠ 0 → d.count ≠ 0 →
            let r := u.engineRun n [d, a, b] [d] fun l =>
              let ix := indices (l.getD 2 [])
              (if ix.any (d.size 1 ≤ ·) then 6 else 0,
                [scatterTable d.fmt (d.size 0) (d.size 1) (s.arithNow n) (slotKey n d) (l.getD 0 []) (l.getD 1 []) ix])
            (r.2 ≠ 0 → r.2 ≠ 6 → leaves (.sscatterAdd sc x) .sparse r) ∧
            (r.2 = 0 ∨ r.2 = 6 → leaves (.sscatterAdd sc x) .sparse
              (dropped (r.1.addLv (corePg (n / 16) + 0x828) 63 0 (u.splits (n / 16) (ix.filter (· < d.size 1)))) (ix.filter (d.size 1 ≤ ·)).length, r.2)))) ∧
        (room .sort 4 → keyFmt a.fmt = true → d.fmt = a.fmt →
          (hb = 0 → hc = 0 → d.count = a.count → 1 ≤ a.count → a.count ≤ 65536 →
            made (.sort sc x) .sort [a] [d] fun l => (0, [(sortAsc a.fmt (keyElems a.fmt (l.headD []))).flatten])) ∧
          (hb = 0 → hc = 0 → 1 ≤ d.count → d.count ≤ 1024 → d.count ≤ a.count →
            made (.topk sc x) .sort [a] [d] fun l => (0, [((sortDesc a.fmt (keyElems a.fmt (l.headD []))).take d.count).flatten])) ∧
          (hc = 0 → ∀ b, s.desc n hb = some b → b.fmt = a.fmt → a.count ≠ 0 → b.count ≠ 0 → d.count = a.count + b.count →
            made (.merge sc x) .sort [a, b] [d] fun l =>
              (0, [(mergeRuns a.fmt d.count (keyElems a.fmt (l.getD 0 [])) (keyElems a.fmt (l.getD 1 []))).flatten])) ∧
          ∀ b c, s.desc n hb = some b → s.desc n hc = some c → b.fmt = 0x15 → b.count = 2 → c.fmt = 0x15 → c.count = 1 → a.count ≠ 0 → d.count ≠ 0 →
            made (.filter sc x) .sort [a, b] [d, c] fun l =>
              let es := passing a.fmt (leAt (l.getD 1 []) 0 8) (leAt (l.getD 1 []) 8 8) (keyElems a.fmt (l.getD 0 []))
              (if d.count < es.length then 0x0A else 0, [(es.take d.count).flatten, leBytes 8 es.length]))) ∧
  (
    (∀ (s : State) (sc : SlotCtx) (x : BitVec 52) (withC : Bool), issuesNow sc s →
      let n := sc.thread.val
      let cnt := bits x.toNat 3 0
      let c : Instr := if withC then .mmacf sc x else .mmaf sc x
      let u := begun n s
      ((s.core (n / 16)).queue .tile).length < 16 → s.engineUp (n / 16) 2 = true →
      ∀ h a b third, s.desc n (bits x.toNat 51 40) = some h → s.tileOps n (Eo.of x) withC = .inr (a, b, third) →
        let w := WrImg.read (s.rawBytes (h.base % 2 ^ 44) 64)
        let ends := fun st id => ∃ t, exec c s = .next t ∧ queuedWith sc .tile cnt st id s t
        let sound := h.fmt = 0x1A ∧ h.count = 64 ∧ s.inOwnSram (n / 16) h.base 64 = true
        (¬ sound → ends 8 (wordWr sc s)) ∧
        (∀ st, sound → s.collCheck n w = .inl st → ends st w.wrId) ∧
        ∀ slot e, sound → s.collCheck n w = .inr (slot, e) →
          (feedBad w (a.size 1) (b.size 1) = true → ends 8 w.wrId) ∧
          (feedBad w (a.size 1) (b.size 1) = false → tileNull a b = true → ends 1 w.wrId) ∧
          (let ins := a :: b :: third.toList
           let who := Who.part (s.corePart (n / 16))
           feedBad w (a.size 1) (b.size 1) = false → tileNull a b = false → s.local (ins.flatMap Desc.all) = true →
           s.runsStatus who false (ins.flatMap Desc.all) = 0 → ∃ t, exec c s = .next t ∧
            let r := ins.foldl (fun (acc : Dev × List (List Byte)) d => let y := acc.1.readRuns who d.all; (y.1, acc.2 ++ [y.2])) (u, [])
            let vals := tileResult a b third w.fmt r.2
            let tiles := (List.range (a.size 1 / 32)).flatMap fun p => (List.range (b.size 1 / 32)).map fun q =>
              (tileAt (b.size 1) p q vals).flatMap (leBytes (elemBytes w.fmt))
            let v := r.1.enqueueOp n .tile cnt 0 w.wrId true []
            became (({ v with works := v.works ++ [{ w.work (.thread n) slot e cnt with tiles := tiles }] } : Dev).endSlot sc) s t)) ∧
    ∀ (s : State) (m : ThreadNo),
      let n := m.val
      let found := s.works.find? fun w => w.who == .thread n && !w.tiles.isEmpty
      (found = none ∨ s.engineUp (n / 16) 2 = false → ∃ t, exec (.tileFeedSend m) s = .next t ∧ unchanged s t) ∧
      ∀ y l rest, found = some y → y.tiles = l :: rest → s.engineUp (n / 16) 2 = true → ∃ t, exec (.tileFeedSend m) s = .next t ∧
        let z := { y with tiles := rest, sentTiles := y.sentTiles + 1 }
        became (((s.updWork y fun _ => z).sourceCopy n z (y.localA.toNat + y.sentTiles * y.length) l).memberSend (n / 1024) y.slot z
          (y.first.toNat + y.sentTiles) l (s.corePart (n / 16)) (s.coreClass (n / 16))) s t)

/-! ### What the engines and the fabric compute -/

/-- Sorting gives the same elements in rising (falling) key order, equal keys in their order of input; merging two sorted runs
gives the sorted whole, the first run's elements before equal ones of the second, and any two runs are merged by the same two-pointer
rule; TOPK takes the first elements in falling order, which no key left out exceeds; FILTER keeps those within its bounds in their
order (R634). -/
def Obligations.SortsAreStableAndComplete : Prop :=
  ∀ (fmt : Nat) (l : List (List Byte)),
    let key := elemKey fmt
    (sortAsc fmt l).Perm l ∧ (sortDesc fmt l).Perm l ∧
    (sortAsc fmt l).Pairwise (fun a b => key a ≤ key b) ∧ (sortDesc fmt l).Pairwise (fun a b => key b ≤ key a) ∧
    (∀ k, (sortAsc fmt l).filter (fun a => key a = k) = l.filter (fun a => key a = k) ∧
      (sortDesc fmt l).filter (fun a => key a = k) = l.filter (fun a => key a = k)) ∧
    (∀ m, l.Pairwise (fun a b => key a ≤ key b) → m.Pairwise (fun a b => key a ≤ key b) →
      mergeRuns fmt (l.length + m.length) l m = sortAsc fmt (l ++ m)) ∧
    (∀ n a b m, mergeRuns fmt (n + 1) (a :: l) (b :: m) =
      if key a ≤ key b then a :: mergeRuns fmt n l (b :: m) else b :: mergeRuns fmt n (a :: l) m) ∧
    (∀ lo hi, (passing fmt lo hi l).Sublist l ∧ ∀ a ∈ l, a ∈ passing fmt lo hi l ↔ lo ≤ key a ∧ key a ≤ hi) ∧
    ∀ k, ∀ a ∈ (sortDesc fmt l).take k, ∀ b ∈ (sortDesc fmt l).drop k, key b ≤ key a

/-- Decoding the encoded tiles of any row gives its elements bit for bit, drops none and leaves what follows; a tile of a sparse
format takes the form that R493 chooses, which is the shortest of its three, another is DENSE, and no tile is longer than its dense form (R489 to R493). -/
def Obligations.SparseTilesRoundTrip : Prop :=
  ∀ (fmt : Nat) (tiles : List (List Nat)), (∀ us ∈ tiles, 1 ≤ us.length ∧ us.length ≤ tileUnits fmt) →
    let e := elemBytes fmt
    decodeTiles fmt (tiles.map List.length) (tiles.flatMap (encodeUnits fmt)) =
        { out := tiles.flatten.flatMap (leBytes e), drops := 0, whole := false, bad := false } ∧
    ∀ us ∈ tiles, (∀ rest, decodeTile fmt us.length (encodeUnits fmt us ++ rest) =
        ({ out := us.flatMap (leBytes e), drops := 0, whole := false, bad := false }, rest)) ∧
      (encodeUnits fmt us).length ≤ 2 + us.length * e ∧
      (sparseFmt fmt = true →
        let k := (us.filter (· ≠ 0)).length
        let dense := us.length * e
        let bitmap := 32 + k * e
        let index := 1 + k * (1 + e)
        (encodeUnits fmt us).length = 2 + min dense (min bitmap index) ∧
        leAt (encodeUnits fmt us) 0 1 = (if dense ≤ min bitmap index then 0 else if bitmap ≤ index then 1 else 2)) ∧
      (sparseFmt fmt = false → (encodeUnits fmt us).length = 2 + us.length * e ∧ leAt (encodeUnits fmt us) 0 1 = 0)

/-- A record that inputs have formed, and the values behind it: each a value entered, or a partial's record merged. -/
inductive Sys2Proof.Machine.Formed (fmt : Nat) : Rec → List Sys2Proof.Machine.Num → Prop
  | empty : Formed fmt Rec.zero []
  | value (r : Rec) (xs : List Sys2Proof.Machine.Num) (x : Sys2Proof.Machine.Num) : Formed fmt r xs → Formed fmt (r.enter fmt x) (x :: xs)
  | part (r p : Rec) (xs ys : List Sys2Proof.Machine.Num) : Formed fmt r xs → Formed fmt p ys → Formed fmt (r.merge fmt 1 p) (ys ++ xs)

/-- The exact sum does not depend on the order of the inputs or on the tree: whatever order values and partials entered in, at
whatever nodes, FIX is the sum of the values modulo its width, it is that sum while the sum fits, and one rounding gives the same
bits. An input removed again leaves the record as it was, short of a saturated tally (R457 to R463). -/
def Obligations.ExactSumsAreOrderAndTreeIndependent : Prop :=
  ∀ (fmt : Nat),
    (∀ r xs, Formed fmt r xs →
      let sum := (xs.map (Sys2Proof.Machine.Num.intAt (recL fmt))).foldl (· + ·) 0
      r.fix = wrapN (fixBits fmt) sum ∧
      (-(2 ^ (fixBits fmt - 1) : Int) ≤ sum → sum < 2 ^ (fixBits fmt - 1) → r.sum fmt = sum)) ∧
    (∀ r p xs ys, Formed fmt r xs → Formed fmt p ys → xs.Perm ys →
      ∀ (sat : Bool) (cfg : ArithCfg) (mode : Mode), roundScalar fmt sat cfg mode r = roundScalar fmt sat cfg mode p) ∧
    ∀ r : Rec, r.fix < 2 ^ fixBits fmt → r.pinf < 254 → r.ninf < 254 → r.nz < 254 →
      (∀ x, (r.enter fmt x).remove fmt x = r) ∧ ∀ p : Rec, (r.merge fmt 1 p).merge fmt (-1) p = r

/-! ### Memory (chapter 13) -/

/-- The address lies in a channel group of a stack. -/
def Sys2Proof.Machine.inGroup (st g a : Nat) : Prop := groupBase st g ≤ a ∧ a < groupBase st g + 2 ^ 34

/-- An HBM address names its stack, channel group, pseudo-channel and the byte within it by R656's bits, and no two addresses name the same
byte. A pseudo-channel's scrubbing visits each of its bursts once a pass: burst `i` lies in the pseudo-channel, and every burst of an
HBM address is burst `i` of its own for one `i` below 2^26 (R656, R663). -/
def Obligations.HbmAddressesAndTheirScrubbing : Prop :=
  (∀ a : Nat, a < 2 ^ 41 → regionOf a = .hbm (bits a 40 37) (bits a 36 34) ∧ pcOf a = 4 * bits a 36 34 + bits a 9 8 ∧
    ∀ b, b < 2 ^ 41 → bits b 40 37 = bits a 40 37 → pcOf b = pcOf a → bits b 33 10 = bits a 33 10 → bits b 7 0 = bits a 7 0 → b = a) ∧
  (∀ st pc i : Nat, st < 16 → pc < 32 → regionOf (burstAddr st pc i) = .hbm st (pc / 4) ∧ pcOf (burstAddr st pc i) = pc ∧
    burstAddr st pc i % 64 = 0 ∧ ∀ j, burstAddr st pc i = burstAddr st pc j ↔ i % 2 ^ 26 = j % 2 ^ 26) ∧
  ∀ a : Nat, a < 2 ^ 41 → ∃ i, i < 2 ^ 26 ∧ burstAddr (a / 2 ^ 37) (pcOf a) i = a - a % 64

/-- A scrub read moves its pseudo-channel (cluster) to the next word, does what the word it meets calls for (an injected error included,
R723), and counts a whole pass; an
error window of 2^24 ticks since READY that ends forgets its pseudo-channel's errors. Out of service, with scrubbing off or while FATAL
nothing happens (R663 to R667, R720).
Training that ends well starts the zero fill, otherwise the stack is fenced; the fill's end leaves the stack READY, its error counts 0
and its spill areas zero; a group that returns reads as zero and is in service, and no other byte has changed. A stack's temperature is
shown, and raises HOT when it comes to the one that asks for faster refresh (R649, R668, R670, R672, R673, R675, R681, R799). Which
temperature asks for it is free (log 4). -/
def Obligations.ScrubbingTrainingAndFills : Prop :=
  (
    (∀ (s : State) (st : StackNo) (pc : Fin 32) (ecc : Ecc),
      let k := st.val * 32 + pc.val
      let off := s.stackState st.val ≠ 3 ∨ s.fencedUnit (pcUnit st.val pc.val) = true ∨ s.cfg (hbmPg st.val + 0x1000) 15 0 = 0 ∨ s.fatal = true
      let n := Map.get s.memSt.hbmScrub k 0
      let a := burstAddr st.val pc.val n
      let m := s.meetEcc a ecc
      let met := if m.2 = true then m.1.spillLost a else m.1
      let moved : Dev := { met with memSt := { met.memSt with hbmScrub := Map.insert met.memSt.hbmScrub k (n + 1) } }
      (off → ∃ t, exec (.hbmScrubRead st pc ecc) s = .next t ∧ unchanged s t) ∧
      (¬ off → ∃ t, exec (.hbmScrubRead st pc ecc) s = .next t ∧
        became (if s.stackPasses st.val < moved.stackPasses st.val then moved.count (hbmPg st.val + 0x128) else moved) s t) ∧
      (¬ off → ecc = .clean → s.hurtAny (wordUnits a) = false → ∃ t, exec (.hbmScrubRead st pc ecc) s = .next t ∧
        onlyRegs [hbmPg st.val + 0x128] [] { s with memSt := { s.memSt with hbmScrub := Map.insert s.memSt.hbmScrub k (n + 1) } } t) ∧
      (let at_ := s.stackState st.val = 3 ∧ Map.get s.memSt.ready st.val 0 < s.ticks ∧ (s.ticks - Map.get s.memSt.ready st.val 0) % 2 ^ 24 = 0
       (¬ at_ → ∃ t, exec (.hbmErrWindow st pc) s = .next t ∧ unchanged s t) ∧
       (at_ → ∃ t, exec (.hbmErrWindow st pc) s = .next t ∧
         t = { s with memSt := { s.memSt with pcErr := Map.erase s.memSt.pcErr k }, sent := t.sent, sig := t.sig } ∧ sends [] s t))) ∧
    ∀ (s : State) (c : ClusterNo) (rm : Ecc) (ws : List (Fin 8 × Ecc)),
      let k := c.val
      let off := s.fencedUnit (clusterUnit k) = true ∨ s.cfg (rmemPg k + 0x1000) 15 0 = 0 ∨ s.fatal = true
      let n := Map.get s.memSt.rmScrub k 0
      let sees := fun (i : Nat) => match ws.find? (·.1.val == i) with | some y => y.2 | none => Ecc.clean
      let met := (List.range 8).foldl (fun (t : Dev) i =>
        if t.corePresent (k * 8 + i) then t.wsramEcc (k * 8 + i) (n % 2 ^ 16 * 32) (sees i) else t) (s.rmemWord k (n % 2 ^ 19 * 32) rm)
      let moved : Dev := { met with memSt := { met.memSt with rmScrub := Map.insert met.memSt.rmScrub k (n + 1) } }
      (off → ∃ t, exec (.rmemScrubRead c rm ws) s = .next t ∧ unchanged s t) ∧
      (¬ off → ∃ t, exec (.rmemScrubRead c rm ws) s = .next t ∧
        became (if (n + 1) % 2 ^ 19 = 0 then moved.count (rmemPg k + 0x128) else moved) s t) ∧
      (¬ off → rm = .clean → ws = [] → s.hurtAny (clusterUnit k :: (List.range 8).map fun i => coreUnit (k * 8 + i)) = false → ∃ t, exec (.rmemScrubRead c rm ws) s = .next t ∧
        t = { s with memSt := { s.memSt with rmScrub := Map.insert s.memSt.rmScrub k (n + 1) }, live := t.live, sent := t.sent, sig := t.sig } ∧
        sends [] s t ∧ sameRegs [rmemPg k + 0x128] s t ∧ ((n + 1) % 2 ^ 19 = 0 → countsOne (rmemPg k + 0x128) s t))) ∧
  (
    ∀ (s : State) (st : StackNo),
      let k := st.val
      let status := hbmPg k + 0x100
      (∀ ok, s.stackState k ≠ 1 → ∃ t, exec (.hbmTrainDone st ok) s = .next t ∧ unchanged s t) ∧
      (s.stackState k = 1 → (∃ t, exec (.hbmTrainDone st true) s = .next t ∧ setsField status 2 0 2 s t) ∧
        ∃ t, exec (.hbmTrainDone st false) s = .next t ∧ became (s.faultOwn (k / 4) 0x0B (k % 4) 3 (stackUnit k)) s t) ∧
      (s.stackState k ≠ 2 → ∃ t, exec (.hbmInitDone st) s = .next t ∧ unchanged s t) ∧
      (s.stackState k = 2 → ∃ t, exec (.hbmInitDone st) s = .next t ∧
        t = { s with mem := t.mem, memSt := t.memSt, live := t.live, sent := t.sent, sig := t.sig } ∧ sends [] s t ∧
        t.stackState k = 3 ∧ sameRegs [status] s t ∧ sameBits status 2 0 s t ∧
        Map.get t.memSt.ready k 0 = s.ticks ∧ (∀ pc, pc < 32 → Map.get t.memSt.pcErr (k * 32 + pc) 0 = 0) ∧
        t.memSt.hbmScrub = s.memSt.hbmScrub ∧ t.memSt.rmScrub = s.memSt.rmScrub ∧
        ∀ a, Memory.read t.mem a = if inSpill a = true ∧ a / 2 ^ 37 = k then 0 else Memory.read s.mem a) ∧
      (∀ g : Fin 8,
        (s.groupState k g.val ≠ 2 → ∃ t, exec (.hbmGroupClearDone st g) s = .next t ∧ unchanged s t) ∧
        (s.groupState k g.val = 2 → ∃ t, exec (.hbmGroupClearDone st g) s = .next t ∧
          t = { s with mem := t.mem, memSt := { s.memSt with bad := t.memSt.bad }, live := t.live, sent := t.sent, sig := t.sig } ∧ sends [] s t ∧ t.groupState k g.val = 0 ∧
          sameRegs [status] s t ∧ sameBits status (17 + 2 * g.val) (16 + 2 * g.val) s t ∧
          ∀ a, (inGroup k g.val a → Memory.read t.mem a = 0) ∧ (¬ inGroup k g.val a → Memory.read t.mem a = Memory.read s.mem a))) ∧
      ∀ c : Byte,
        let rises := s.lv status 15 8 < Config.hbmHot ∧ Config.hbmHot ≤ c.toNat
        (¬ rises → ∃ t, exec (.hbmTempReport st c) s = .next t ∧ setsField status 15 8 c.toNat s t) ∧
        (rises → ∃ t, exec (.hbmTempReport st c) s = .next t ∧
          became ((s.setLv status 15 8 c.toNat).faultOwn (k / 4) 0x0B (k % 4) 4 (stackUnit k)) s t))

/-! ### Faults (chapter 14) -/

/-- A fault report that the page, the unit or the reporter does not bear out is none; otherwise the bit's block takes its action. An
unmasked DEGRADED report of a bit with no further action sets its PG_FAULT bit, is counted, and opens the entry of its unit in a FREE (or
the oldest CLEAR) slot, ACTIVE, with a notice window and its quiet end running from now; an ACTIVE entry counts it; the reports of one beat for a unit are taken in ascending reporter, whichever
came first. Masked, it sets its bit only (R687, R688, R702 to R705, R711, R713, R718). -/
def Obligations.FaultReportsOpenAndCountEntries : Prop :=
  ∀ (s : State) (d : AnyDie) (block inst : Byte) (b : Fin 64) (unit reporter detail : BitVec 32),
    let blk := block.toNat
    let page := pg d.val blk inst.toNat
    let borne := (faultClass blk b.val).isSome ∧ s.pagePresent d.val blk inst.toNat = true ∧ (s.unitPage unit).isSome ∧ (s.unitPage reporter).isSome ∧
      (faultClass blk b.val = some 2 → unitClass unit = fencedClass blk b.val)
    let c := collectorOf d.val
    let col := s.collector c
    let fresh := col.heardAt ≠ s.ticks ∧ ∀ x ∈ col.entries, x.2.slotTick ≠ s.ticks
    let r : Report := ⟨reporter, b.val, 1, false⟩
    let plain := blk = 1 ∧ b.val = 0 ∨ blk = 2 ∧ b.val = 0 ∨ blk = 3 ∧ (b.val = 2 ∨ b.val = 3 ∨ b.val = 4)
    (¬ borne → ∃ t, exec (.faultReport d block inst b unit reporter detail) s = .next t ∧ unchanged s t) ∧
    (borne → ∃ t, exec (.faultReport d block inst b unit reporter detail) s = .next t ∧
      became (s.unitFault d.val blk inst.toNat b.val unit reporter false detail.toNat) s t) ∧
    (borne → plain → s.lv (page + 0x20) b.val b.val = 1 → ∃ t, exec (.faultReport d block inst b unit reporter detail) s = .next t ∧
      setsField (page + 0x18) b.val b.val 1 s t) ∧
    (borne → plain → s.lv (page + 0x20) b.val b.val = 0 → ∃ t, exec (.faultReport d block inst b unit reporter detail) s = .next t ∧
      let opened := fun (k : Nat) (old : Option FEntry) (e : FEntry) => t.collectors = s.collectors.set c
        { col with entries := Map.insert col.entries k e, heardAt := s.ticks, heard := [(unit, old, [r])] }
      t = { s with live := t.live, collectors := t.collectors, summary := t.summary, sent := t.sent, sig := t.sig } ∧ sends [] s t ∧
      t.lv (page + 0x18) b.val b.val = 1 ∧
      (∀ k, fresh → col.slotOf unit = none → col.newSlot = some k → sameRegs [page + 0x18, fltPg c + 0x108] s t ∧ countsOne (fltPg c + 0x108) s t ∧
        opened k none
          { unit := unit, reporter := reporter, first := s.beat, last := s.beat, count := 1, state := 2, cls := 1, injected := false, recov := 0,
            firstBit := b.val, lastTick := s.ticks, slotTick := s.ticks, quietFrom := some s.ticks,
            checking := none, decayFrom := s.ticks, window := some (s.ticks, false, false) }) ∧
      (∀ k e, fresh → col.slotOf unit = some k → Map.find col.entries k = some e → e.state = 2 →
        let ended := ∃ at_, e.window = some (at_, true, false) ∧ at_ + max 1 (s.cfg (fltPg c + 0x1038) 31 0) ≤ s.ticks
        (e.window ≠ none → ¬ ended → countsOne (fltPg c + 0x130) s t) ∧
        ∃ w, opened k (some e) { e with count := min (e.count + 1) (2 ^ 32 - 1), cls := max e.cls 1, last := s.beat, lastTick := s.ticks,
                                        decayFrom := s.ticks, quietFrom := some s.ticks, window := some w } ∧
          (e.window = none ∨ ended → w = (s.ticks, false, false)) ∧
          ∀ at_ told late, e.window = some (at_, told, late) → ¬ ended → w = (at_, told, late || told)) ∧
      (∀ k old was rs e, col.slotOf unit = some k → Map.find col.entries k = some old → col.heardAt = s.ticks →
        col.heard.find? (fun h => h.1 == unit) = some (unit, was, rs) →
        (s.takeReports c unit was (sortBy (fun x y => decide (x.reporter < y.reporter)) (rs ++ [r]))).1 = some e →
        ∃ h, t.collectors = s.collectors.set c
          { col with entries := orderSlots s.ticks (Map.insert col.entries k e), heardAt := s.ticks, heard := h }) ∧
      (fresh → col.slotOf unit = none → col.newSlot = none → countsOne (fltPg c + 0x120) s t ∧ t.lv (fltPg c + 0x18) 2 2 = 1 ∧
        t.lv (fltPg c + 0x218) 3 3 = 1))

/-- A Porone port whose peer has been silent for FLT_SILENCE_BEATS fails. The notice of a window goes 64 beats after its report, and once
more at its close where reports followed; windows close without a notice otherwise. Each is counted, raises the interrupt bit of its class where
IRQ is on, and goes as a MGMT packet where SEND is on and the package is not FATAL (R694, R704, R706, R707). That every notice counts
in NOTICE_CNT and that a FATAL one sets no class bit is the model's choice (log 80).
The fabric fault summary: a period is sent once, WAIT beats after its end, as the OR of the own bits and the children's maps
that have come, the missing ones counted; then the period is forgotten. The root tells its host and raises SUMMARY; another sends its map
to its parents; while FATAL or without the group nothing is sent (R708 to R710, R720). A summary of another group is no event; one of the
group is served as any packet is. -/
def Obligations.SilenceNoticesAndSummaries : Prop :=
  (
    (∀ (s : State) (p : PortNo),
      let n := s.cfg (fltPg (p.val / 128) + 0x1020) 15 0
      let beats := if 32 ≤ n ∧ n ≤ 512 then n else 256
      let silent := s.portState p.val = 5 ∧ isPorone (s.portMode p.val) = true ∧ (s.port p.val).lastOk + beats ≤ s.ticks
      (¬ silent → ∃ t, exec (.peerSilence p) s = .next t ∧ unchanged s t) ∧
      (silent → ∃ t, exec (.peerSilence p) s = .next t ∧ became (s.failPort p.val) s t)) ∧
    ∀ (s : State) (d : DieNo) (u : BitVec 32),
      let len := max 1 (s.cfg (fltPg d.val + 0x1038) 31 0)
      let ctrl := s.cfg (fltPg d.val + 0x1028) 2 0
      let both := fun (r : Instr → Prop) => r (.noticeSend d u) ∧ r (.noticeWindowClose d u)
      let still := fun (c : Instr) => ∃ t, exec c s = .next t ∧ unchanged s t
      let tells := fun (c : Instr) (e : FEntry) (w : Option (Nat × Bool × Bool)) => ∃ t, exec c s = .next t ∧
        let v := Dev.count (s.updEntry u fun (y : FEntry) => { y with window := w }) (fltPg d.val + 0x128)
        let note : List Byte := [1] ++ List.replicate 7 0 ++ leBytes 4 s.own ++ List.replicate 4 0 ++ e.bytes
        let pkt := mkPkt ptMgmt (s.cfg (fltPg d.val + 0x1030) 63 0) s.own 0 (s.cfg (fltPg d.val + 0x1028) 7 4) 7 7 note
        let sent := if bit ctrl 0 = true ∧ s.fatal = false then v.sendMgmt d.val pkt else v
        became (if bit ctrl 1 = false ∨ 3 ≤ e.cls then sent else sent.setLv (fltPg d.val + 0x218) (e.cls - 1) (e.cls - 1) 1) s t
      (s.entryAt d.val u = none → both still) ∧
      ∀ e, s.entryAt d.val u = some e →
        (e.window = none → both still) ∧
        (∀ at_ late, e.window = some (at_, false, late) → still (.noticeWindowClose d u) ∧
          (s.ticks < at_ + 64 → still (.noticeSend d u)) ∧
          (at_ + 64 ≤ s.ticks → tells (.noticeSend d u) e (if at_ + len ≤ s.ticks then none else some (at_, true, false)))) ∧
        ∀ at_ late, e.window = some (at_, true, late) → still (.noticeSend d u) ∧
          (s.ticks < at_ + len → still (.noticeWindowClose d u)) ∧
          (at_ + len ≤ s.ticks → late = true → tells (.noticeWindowClose d u) e (some (s.ticks, true, false))) ∧
          (at_ + len ≤ s.ticks → late = false → ∃ t, exec (.noticeWindowClose d u) s = .next t ∧
            became (s.updEntry u fun (y : FEntry) => { y with window := none }) s t)) ∧
  (
    (∀ (s : State) (p : PortNo) (pkt : Packet),
      (s.isSummary pkt = false → ∃ t, exec (.faultSummary p pkt) s = .next t ∧ unchanged s t) ∧
      (s.isSummary pkt = true → ∃ t, exec (.faultSummary p pkt) s = .next t ∧ became (s.receive p.val pkt ptColl fun t q => t.keepSummary q) s t)) ∧
    ∀ s : State,
      let g := s.cfg (fltPg 0 + 0x1040) 47 24
      let e := GEntry.read s.active g
      (s.sumDue = none → ∃ t, exec .summarySend s = .next t ∧ unchanged s t) ∧
      ∀ k, s.sumDue = some k →
        let chunk := BitVec.ofNat 32 k
        let kids := if e.childValid then s.childNodes (portSet s.active e.childSet) else []
        let came := s.summary.kids.filter fun y => y.1 = chunk ∧ y.2.1 ∈ kids
        let missing := kids.filter fun n => came.all fun y => y.2.1 ≠ n
        let own := (s.summary.own.filter fun y => y.1 / 2 ^ s.sumPower = k).map (·.2)
        let map := (came.map (·.2.2)).foldl orMaps (mapBytes own)
        let v : Dev := s.addLv (fltPg 0 + 0x140) 63 0 missing.length
        let w : Dev := { v with summary := { own := s.summary.own.filter fun y => k < y.1 / 2 ^ s.sumPower,
                                             kids := s.summary.kids.filter fun y => (y.1 - (chunk + 1)).toNat < 2 ^ 31, last := some ((k + 1) * 2 ^ s.sumPower) } }
        let quiet := s.fatal = true ∨ groupValid s.active (BitVec.ofNat 24 g) = false
        (quiet → ∃ t, exec .summarySend s = .next t ∧ became w s t) ∧
        (¬ quiet → e.root = true → ∃ t, exec .summarySend s = .next t ∧
          became ((w.sendMgmt 0 (w.faultMgmt 0 ([2] ++ List.replicate 7 0 ++ leBytes 8 (k * 2 ^ s.sumPower) ++ map))).setLv (fltPg 0 + 0x218) 4 4 1) s t) ∧
        (¬ quiet → e.root = false → ∃ t, exec .summarySend s = .next t ∧
          became (w.form 0 (collPkt s.own ⟨BitVec.ofNat 24 g, 0, chunk⟩ { Params.none with func := 4, fmt := 0xF } e.part 7 ckPartial.toNat 7 0 0 0 0 map [])
            (.parents (ecmpPorts s.active e.parentSet))).1 s t))

/-- Leaving the fault state: at its quiet end an ACTIVE entry clears, a FENCED one starts its check where its class and count allow and is
HELD otherwise; a check that passes unfences its unit and clears its entry, one that fails reports again; the recovery count decays after
FLT_DECAY × 2^20 beats, to no lower than 0. None of it while FATAL (R713 to R717, R720).
FLT_CLEAR: refused while FATAL (4) and for another die's unit (5). CLEAR clears an ACTIVE entry, starts the check of a FENCED or HELD one
with its count 0, and that of a unit fenced without an entry; FENCE fences a unit that can be fenced, HELD, refused otherwise (3); FORGET
frees a CLEAR entry's slot, refused otherwise (2); a reserved CMD is refused (6) (R716, R718, R725). -/
def Obligations.RecoveryAndFaultCommands : Prop :=
  (
    ∀ (s : State) (d : DieNo) (u : BitVec 32),
      let still := fun (c : Instr) => ∃ t, exec c s = .next t ∧ unchanged s t
      let cfg := fun (a hi : Nat) => s.cfg (fltPg d.val + a) hi 0
      (s.entryAt d.val u = none → still (.quietEnd d u) ∧ still (.recoveryDecay d u)) ∧
      (∀ e, s.entryAt d.val u = some e →
        let ended := s.fatal = false ∧ e.checking = none ∧ ∃ at_, e.quietFrom = some at_ ∧ at_ + max 1 (cfg 0x1000 31) ≤ s.ticks
        (¬ ended ∨ e.state ≠ 2 ∧ e.state ≠ 3 → still (.quietEnd d u)) ∧
        (ended → e.state = 2 → ∃ t, exec (.quietEnd d u) s = .next t ∧ became (s.updEntry u fun (y : FEntry) =>
          { y with state := 1, quietFrom := none, checking := none }) s t) ∧
        (let auto := bit (cfg 0x1018 31) (unitClass u) = true ∧ e.recov < cfg 0x1008 7
         (ended → e.state = 3 → auto → ∃ t, exec (.quietEnd d u) s = .next t ∧
           became ((s.updEntry u fun (y : FEntry) => { y with recov := y.recov + 1 }).startCheck u true) s t) ∧
         (ended → e.state = 3 → ¬ auto → ∃ t, exec (.quietEnd d u) s = .next t ∧
           became ((s.updEntry u fun (y : FEntry) => { y with state := 4, quietFrom := none }).setLv (fltPg d.val + 0x218) 2 2 1) s t)) ∧
        (let due := cfg 0x1010 31 ≠ 0 ∧ e.state ≠ 4 ∧ e.state ≠ 5 ∧ e.decayFrom + cfg 0x1010 31 * 2 ^ 20 ≤ s.ticks
         (¬ due → still (.recoveryDecay d u)) ∧
         (due → ∃ t, exec (.recoveryDecay d u) s = .next t ∧
           became (s.updEntry u fun (y : FEntry) => { y with recov := y.recov - 1, decayFrom := e.decayFrom + cfg 0x1010 31 * 2 ^ 20 }) s t))) ∧
      ∀ ok,
        let up := (∀ p ∈ s.unitPorts u, s.portState p = 5) ∧ ¬ ((unitClass u = 1 ∨ unitClass u = 2) ∧ s.unitPorts u = [])
        let late := s.checkLate u = true
        let may := s.fatal = false ∧ collectorOf (unitDie u) = d.val ∧ s.checking u = true ∧ (ok = true → up ∨ late)
        (¬ may → still (.unitCheckDone d u ok)) ∧
        (may → ok = false ∨ late → ∃ t, exec (.unitCheckDone d u ok) s = .next t ∧
          let v := s.bothEnds u Dev.stopCheck
          let back := if unitClass u = 1 ∨ unitClass u = 2 ∨ unitClass u = 3 then (v.unitPorts u).foldl Dev.backDown v
            else if unitClass u = 9 then v.setLinkBoth (unitDie u) (unitInst u) 3 else v
          became (back.bothEnds u Dev.reportAgain) s t) ∧
        (may → ok = true → ¬ late → ∃ t, exec (.unitCheckDone d u ok) s = .next t ∧
          let v := ((s.bothEnds u Dev.stopCheck).unfence u).bothEnds u fun x w => x.clearEntry w false
          became (if ∃ e, s.entryAt d.val u = some e ∧ e.checking = some true then v.count (fltPg d.val + 0x138) else v) s t)) ∧
  (
    ∀ (s : State) (d : DieNo) (u : BitVec 32),
      let result := fltPg d.val + 0x210
      let ends := fun (c : Instr) (v : Nat) => ∃ t, exec c s = .next t ∧ setsField result 2 0 v s t
      let c := s.collector d.val
      let mine := s.fatal = false ∧ collectorOf (unitDie u) = d.val
      (∀ i ∈ [Instr.fltClearClear d u, .fltClearFence d u, .fltClearForget d u],
        (s.fatal = true → ends i 4) ∧ (s.fatal = false → collectorOf (unitDie u) ≠ d.val → ends i 5)) ∧
      (mine → s.entryAt d.val u = none → s.fencedUnit u = false → ends (.fltClearClear d u) 1) ∧
      (mine → s.entryAt d.val u = none → s.fencedUnit u = true → ∃ t, exec (.fltClearClear d u) s = .next t ∧
        became (((s.setLv result 2 0 1).openHeld d.val u).startCheck u false) s t) ∧
      (∀ e, mine → s.entryAt d.val u = some e →
        (e.state ≠ 2 → e.state ≠ 3 → e.state ≠ 4 → ends (.fltClearClear d u) 1) ∧
        (e.state = 2 → ∃ t, exec (.fltClearClear d u) s = .next t ∧ became ((s.setLv result 2 0 1).clearEntry u false) s t) ∧
        (e.state = 3 ∨ e.state = 4 → ∃ t, exec (.fltClearClear d u) s = .next t ∧
          became (((s.setLv result 2 0 1).updEntry u fun (y : FEntry) => { y with recov := 0 }).startCheck u false) s t)) ∧
      (mine → unitClass u = 0x0A ∨ s.unitPage u = none → ends (.fltClearFence d u) 3) ∧
      (mine → unitClass u ≠ 0x0A → s.unitPage u ≠ none → ∃ t, exec (.fltClearFence d u) s = .next t ∧
        let told := fun (x : Dev) (w : BitVec 32) =>
          let n := collectorOf (unitDie w)
          let v := (x.stopCheck w).reportAt n w (fltUnit n) 0xFF 2 false
          match v.entryAt n w with
          | some e => if e.state = 4 then v else v.holdEntry n w
          | none => v
        let w := s.bothEnds u told
        let y := (if s.checking u = true then (w.unitPorts u).foldl Dev.backDown w else w).fenceUnit u
        let cut := if s.cutPairs.length < y.cutPairs.length then y.bothEnds u fun x v => x.raise (unitDie v) 0x04 0 4 v v false else y
        became (cut.setLv result 2 0 1) s t) ∧
      (mine → s.entryAt d.val u = none → ends (.fltClearForget d u) 2) ∧
      (∀ e, mine → s.entryAt d.val u = some e → e.state ≠ 1 → ends (.fltClearForget d u) 2) ∧
      (∀ e k, mine → s.entryAt d.val u = some e → c.slotOf u = some k → e.state = 1 → ∃ t, exec (.fltClearForget d u) s = .next t ∧
        t = { s with collectors := s.collectors.set d.val { c with entries := Map.erase c.entries k }, live := t.live, sent := t.sent, sig := t.sig } ∧
        sends [] s t ∧ sameRegs [result] s t ∧ sameBits result 2 0 s t ∧ t.lv result 2 0 = 1) ∧
      ∀ cmd : Byte, (4 ≤ cmd.toNat → ends (.fltClearReserved d cmd u) 6) ∧
        (cmd.toNat < 4 → ∃ t, exec (.fltClearReserved d cmd u) s = .next t ∧ unchanged s t))

/-- Fault injection acts in factory test mode only. Arming takes the unit and the beat of its page: for a bit that the unit's page
has, whichever die it is of, at a beat at least 32 on, the injection is armed (STATE 0); otherwise it is refused (STATE 2). At its beat the unit
raises the bit as its own report, marked INJECTED, and STATE is 1; with DATA the next protected word or flit of the unit is corrupt
(R722, R723). Which packet, entry or word the action of the bit then meets is free (log 81). -/
def Obligations.InjectionsArmAndFire : Prop :=
  ∀ (s : State) (d : DieNo) (v : BitVec 32),
    let ctrl := injPg d.val + 0x110
    let c := s.collector d.val
    let u : BitVec 32 := BitVec.ofNat 32 (s.lv (injPg d.val + 0x100) 31 0)
    let at_ := s.lv (injPg d.val + 0x108) 63 0
    let b := bits v.toNat 5 0
    let sound := (∃ pd blk inst, s.unitPage u = some (pd, blk, inst) ∧ (faultClass blk b).isSome) ∧ s.beat.toNat + 32 ≤ at_
    let still := fun (i : Instr) => ∃ t, exec i s = .next t ∧ unchanged s t
    let armed := fun (inj : Option (BitVec 32 × BitVec 64 × Nat × Bool)) (st on : Nat) => ∃ t, exec (.injectArm d v) s = .next t ∧
      t = { s with collectors := s.collectors.set d.val { c with inj := inj }, live := t.live, sent := t.sent, sig := t.sig } ∧ sends [] s t ∧
      sameRegs [ctrl] s t ∧ t.lv ctrl 7 7 = bits v.toNat 7 7 ∧ t.lv ctrl 5 0 = b ∧ t.lv ctrl 11 10 = st ∧ t.lv ctrl 9 9 = on
    (s.factoryTest = false → still (.injectArm d v) ∧ still (.injectFire d)) ∧
    (s.factoryTest = true → bit v.toNat 8 = false → ∃ t, exec (.injectArm d v) s = .next t ∧ onlyRegs [ctrl] [] s t ∧
      t.lv ctrl 7 7 = bits v.toNat 7 7 ∧ t.lv ctrl 5 0 = b ∧ t.lv ctrl 11 8 = s.lv ctrl 11 8) ∧
    (s.factoryTest = true → bit v.toNat 8 = true → ¬ sound → armed none 2 0) ∧
    (s.factoryTest = true → bit v.toNat 8 = true → sound → armed (some (u, BitVec.ofNat 64 at_, b, bit v.toNat 7)) 0 1) ∧
    (c.inj = none → still (.injectFire d)) ∧
    ∀ w beat b k, c.inj = some (w, beat, b, k) →
      (s.beat < beat → still (.injectFire d)) ∧
      (s.factoryTest = true → beat ≤ s.beat →
        let z := s.setCollector d.val { c with inj := none }
        let y := ((if k = true then z.hurtNext w else z).setLv ctrl 11 10 1).setLv ctrl 9 9 0
        (s.unitPage w = none → ∃ t, exec (.injectFire d) s = .next t ∧ became y s t) ∧
        ∀ pd blk inst, s.unitPage w = some (pd, blk, inst) →
          ∃ t, exec (.injectFire d) s = .next t ∧ became (y.draw.2.unitFault pd blk inst b w w true y.draw.1.toNat) s t)

/-! ### The control complex (chapter 15) -/

/-- A warm reset of the given cause: nothing with PWR_ON_RESET_N low, and nothing while one runs, but that a trigger of its own tick is
recorded; otherwise the count and the audit log go on, but that a molt of its own beat is discarded, the instar number counts one more, HBM
keeps its bytes and its fences, the fuses stay but for those that an abandoned command was blowing, everything else returns to reset, stacks
not fenced train, and the boot ROM runs (R88, R131, R672, R721, R762, R796 to R798). -/
def Sys2Proof.Machine.warmed (cause : Nat) (s t : State) : Prop :=
  (s.pwr.porLow = true → unchanged s t) ∧
  (s.pwr.porLow = false → s.warmRunning = true → s.pwr.warmAt ≠ some s.ticks → unchanged s t) ∧
  (s.pwr.porLow = false → s.warmRunning = true → s.pwr.warmAt = some s.ticks →
    setsField (pwrPg + 0x188) 4 0 (s.lv (pwrPg + 0x188) 4 0 ||| cause) s t) ∧
  (s.pwr.porLow = false → s.warmRunning = false →
    (∀ n l, (n, l) = (match s.audit.getLast?, s.previous with
        | some r, some i =>
          if (r.kind = 1 ∨ r.kind = 2) ∧ r.beat = s.beat ∧ r.instar = s.number then (i.number, s.audit.dropLast) else (s.number, s.audit)
        | _, _ => (s.number, s.audit)) →
      t.number = (if n = 0xFFFFFFFF then 1 else n + 1) ∧ t.audit.take l.length = l ∧ t.audit.length = l.length + 1) ∧
    t.beat = s.beat ∧ t.ticks = s.ticks ∧ t.pending = s.pending ∧
    (∀ a, Memory.read t.mem a = if a < 2 ^ 41 then Memory.read s.mem a else 0) ∧
    ((∀ r, s.sec.run = some r → r.res ≠ 0 ∨ r.op < 5 ∨ 8 < r.op) → t.sec.fuses = s.sec.fuses) ∧ t.sec.latched = s.sec.latched ∧ t.sec.secret = s.sec.secret ∧ t.ctl.flash = s.ctl.flash ∧
    t.fatal = false ∧ t.molt = none ∧ t.threads = [] ∧ t.cores = [] ∧ t.adapters = [] ∧ t.groups = [] ∧ t.ctxs = [] ∧ t.works = [] ∧ t.ports = [] ∧
    (∀ d, d < 4 → (t.collector d).fenced = (s.collector d).fenced.filter fun u => unitClass u = 7 ∨ unitClass u = 8) ∧
    (∀ a, RegFile.get t.active a = resetWord a ∧ RegFile.get t.staged a = resetWord a) ∧
    t.lv (pwrPg + 0x188) 4 0 = cause ∧ t.lv (secPg + 0x120) 31 0 = min (s.lv (secPg + 0x120) 31 0 + 1) (2 ^ 32 - 1) ∧
    (∀ st, st < 16 → stackUnit st ∉ (s.collector (st / 4)).fenced → t.stackState st = 1) ∧ t.pwr.warmAt = some s.ticks)

/-- RUN starts and holds harts one by one, a running hart whose bit stays 1 going on; one that starts in the boot ROM with ROM_LOCK 1, or
outside the hart map, takes an access fault at once; a hart's access that meets an uncorrectable error in
the control partition faults, is counted and logged once; and a write of CAR = 0 puts every LLC line back in HBM once stack 0 is READY
(R730, R731, R733 to R735). That a running hart keeps running is the model's choice (log 87).
SPI: a command written while none runs is kept, and GO sends it with its data; when it is done a reading one has filled the buffer. UART:
bytes queue up to 64 and leave in order, further ones are dropped (R744, R745). -/
def Obligations.HartsCacheSpiAndUart : Prop :=
  (
    (∀ (s : State) (v : BitVec 16), ∃ t, exec (.hartRun v) s = .next t ∧
      t = { s with ctl := { s.ctl with harts := t.ctl.harts }, live := t.live, sent := t.sent, sig := t.sig } ∧ sends [] s t ∧
      sameRegs [ctlPg + 0x108] s t ∧ sameBits (ctlPg + 0x108) 15 0 s t ∧ t.lv (ctlPg + 0x108) 15 0 = v.toNat ∧
      t.ctl.harts.length = s.ctl.harts.length ∧
      ∀ n h, s.ctl.harts[n]? = some h → t.ctl.harts[n]? = some (
        if 16 ≤ n then h
        else if bit v.toNat n = false then { run := false, start := 0, fault := false }
        else if bit (s.lv (ctlPg + 0x108) 15 0) n = true then h
        else
          let entry := RegFile.get s.live (ctlPg + 0x110)
          let e := entry.toNat
          { run := true, start := entry,
            fault := !decide (e < 2 ^ 44 ∨ 2 ^ 44 ≤ e ∧ e < 2 ^ 44 + 2 ^ 18 ∧ s.lv (ctlPg + 0x100) 8 8 = 0 ∨
                              2 ^ 44 + 2 ^ 28 ≤ e ∧ e < 2 ^ 44 + 2 ^ 29) })) ∧
    (∀ (s : State) (h : Fin 16) (a : BitVec 44),
      let hart := s.ctl.harts.getD h.val { run := false, start := 0, fault := false }
      let meets := hart.run = true ∧ a.toNat < 2 ^ 36 ∧ ¬ (s.carOn = true ∧ a.toNat < 2 ^ 25)
      (¬ meets → ∃ t, exec (.hartCpEccError h a) s = .next t ∧ unchanged s t) ∧
      (meets → ∃ t, exec (.hartCpEccError h a) s = .next t ∧
        let u := Dev.count { s.toDev with ctl := { s.ctl with harts := s.ctl.harts.set h.val { hart with fault := true } } } (ctlPg + 0x288)
        became (Dev.hbmUncorr (if s.lv (ctlPg + 0x280) 63 63 = 1 then u else u.putLv (ctlPg + 0x280) (2 ^ 63 + (a.toNat - a.toNat % 64))) a.toNat) s t)) ∧
    ∀ s : State,
      let flushes := s.carOn = true ∧ s.stackState 0 = 3
      (¬ flushes → ∃ t, exec .llcCarWrite s = .next t ∧ unchanged s t) ∧
      (flushes → ∃ t, exec .llcCarWrite s = .next t ∧ t.carOn = false ∧ t.ctl.llc = [] ∧ sends [] s t ∧
        t = { s with mem := t.mem, memSt := { s.memSt with bad := s.memSt.bad.filter fun b => 2 ^ 25 ≤ b }, ctl := { s.ctl with llc := [] },
                     live := t.live, sent := t.sent, sig := t.sig } ∧
        sameRegs [ctlPg + 0x118, hbmPg 0 + 0x138] s t ∧ t.lv (hbmPg 0 + 0x138) 63 0 = min (s.lv (hbmPg 0 + 0x138) 63 0 + 2 ^ 25) (2 ^ 64 - 1) ∧ sameBits (ctlPg + 0x118) 0 0 s t ∧
        (∀ a, a < 2 ^ 25 → Memory.read t.mem a = Memory.read s.ctl.llc a) ∧
        ∀ a, 2 ^ 25 ≤ a → (∀ c ∈ s.ctl.llc, c.1 ≠ a) → Memory.read t.mem a = Memory.read s.mem a)) ∧
  (
    ∀ s : State,
      let ctl := fun (i : Instr) (l : List Emit) (c : CtlSt) => ∃ t, exec i s = .next t ∧ t = { s with ctl := c, sent := t.sent, sig := t.sig } ∧ sends l s t
      let still := fun (i : Instr) => ∃ t, exec i s = .next t ∧ unchanged s t
      let n := fun (v : Word) => min 256 (fld v 19 8)
      let kept := fun (v : Word) => BitVec.ofNat 64 (v.toNat &&& 0xFFFFFFFFFFFFFF06)
      (∀ v r, s.ctl.spi = some r → still (.spiCmd v)) ∧
      (∀ v, s.ctl.spi = none → flag v 0 = false → ∃ t, exec (.spiCmd v) s = .next t ∧ onlyRegs [ctlPg + 0x600] [] s t ∧
        RegFile.get t.live (ctlPg + 0x600) = kept v) ∧
      (∀ v, s.ctl.spi = none → flag v 0 = true → ∃ t, exec (.spiCmd v) s = .next t ∧ RegFile.get t.live (ctlPg + 0x600) = kept v ∧
        t = { s with ctl := { s.ctl with spi := some v }, live := t.live, sent := t.sent, sig := t.sig } ∧ sameRegs [ctlPg + 0x600] s t ∧
        sends [.spi v (if flag v 2 = true then RegFile.bytes s.live (ctlPg + 0x700) (n v) else [])] s t) ∧
      (∀ data, s.ctl.spi = none → still (.spiCmdDone data)) ∧
      (∀ data v, s.ctl.spi = some v → flag v 2 = true → ctl (.spiCmdDone data) [] { s.ctl with spi := none }) ∧
      (∀ data v, s.ctl.spi = some v → flag v 2 = false → ∃ t, exec (.spiCmdDone data) s = .next t ∧
        t = { s with ctl := { s.ctl with spi := none }, live := t.live, sent := t.sent, sig := t.sig } ∧ sends [] s t ∧
        sameRegs ((List.range 32).map fun i => ctlPg + 0x700 + 8 * i) s t ∧
        RegFile.bytes t.live (ctlPg + 0x700) (n v) = fit data (n v)) ∧
      (∀ b, 64 ≤ s.ctl.txFifo.length → still (.uartTxWrite b)) ∧
      (∀ b, s.ctl.txFifo.length < 64 → ctl (.uartTxWrite b) [] { s.ctl with txFifo := s.ctl.txFifo ++ [b] }) ∧
      (∀ b, 64 ≤ s.ctl.rxFifo.length → still (.uartRxByte b)) ∧
      (∀ b, s.ctl.rxFifo.length < 64 → ctl (.uartRxByte b) [] { s.ctl with rxFifo := s.ctl.rxFifo ++ [b] }) ∧
      ctl .uartDataRead [] { s.ctl with rxFifo := s.ctl.rxFifo.drop 1 } ∧
      (s.ctl.txFifo = [] → still .uartTxByte) ∧
      ∀ b rest, s.ctl.txFifo = b :: rest → ctl .uartTxByte [.uart b] { s.ctl with txFifo := rest })

/-- I3C: an index write points the reads, which return the bytes of R746; RESET_REQ resets the package when 0x5A follows 0xA5 at once;
an assigned address is shown. JTAG: IDCODE answers 0x0C512A6B, the bypass register 0, the debug module answers at debug level 1
or 2 only; what EXTEST, SAMPLE and the module answer is free (log 4, log 88) (R746, R748, R749). -/
def Obligations.I3cAndJtagAnswer : Prop :=
  ∀ s : State,
    let ctl := fun (i : Instr) (l : List Emit) (c : CtlSt) => ∃ t, exec i s = .next t ∧ t = { s with ctl := c, sent := t.sent, sig := t.sig } ∧ sends l s t
    let free := fun (i : Instr) (ir : Byte) (scan : List Bool) => ∃ t, exec i s = .next t ∧ sends [.jtag (Config.freeWord s.fresh)] s t ∧
      t = { s with ctl := { s.ctl with ir := ir, dr := Config.freeWord s.fresh, scan := scan }, fresh := s.fresh + 1, sent := t.sent, sig := t.sig }
    let idx := s.ctl.i3cIdx.toNat
    (∀ i, ctl (.i3cIndexWrite i) [] { s.ctl with i3cIdx := i, i3cArm := false }) ∧
    (∀ n : Fin 256, ∃ l, ctl (.i3cRead n) [.i3c l] s.ctl ∧ l.length = n.val ∧ ∀ k b, l[k]? = some b →
      (idx + k = 0 → b = 0x59) ∧ (idx + k = 1 → b = 0xA0) ∧ (idx + k = 2 → b.toNat = s.lv (ctlPg + 0x100) 7 0) ∧
      (idx + k = 3 → b = s.healthNow) ∧ (∀ j, j < 4 → idx + k = 4 + j → b.toNat = s.lv (ctlPg + 0x120) (8 * j + 7) (8 * j)) ∧
      (∀ d j, d < 4 → j < 8 → idx + k = 0x20 + 8 * d + j →
        b.toNat = if s.lv (fltPg d + 0x228) 63 63 = 1 then s.lv (fltPg d + 0x228) (8 * j + 7) (8 * j) else 0) ∧
      (8 < idx + k → idx + k < 0x20 ∨ 0x40 ≤ idx + k → b = 0)) ∧
    (∀ b, ¬ (s.ctl.i3cArm = true ∧ b = 0x5A) → ctl (.resetReq b) [] { s.ctl with i3cIdx := 0x10, i3cArm := b == 0xA5 }) ∧
    (s.ctl.i3cArm = true → ∃ t, exec (.resetReq 0x5A) s = .next t ∧
      warmed 0x04 { s with ctl := { s.ctl with i3cIdx := 0x10, i3cArm := false } } t) ∧
    (∀ a, ∃ t, exec (.i3cDynAddr a) s = .next t ∧ onlyRegs [ctlPg + 0x900] [] s t ∧ t.lv (ctlPg + 0x900) 15 8 = 2 ^ 7 + a.toNat) ∧
    (∀ scan, free (.extest scan) 0x00 scan ∧ free (.samplePreload scan) 0x01 scan) ∧
    ctl .idcode [.jtag 0x0C512A6B] { s.ctl with ir := 0x02, dr := 0x0C512A6B } ∧
    (∀ dr, s.debugLevel = 0 → ctl (.coreDebug dr) [.jtag 0] { s.ctl with ir := 0x12, dr := 0 }) ∧
    (∀ dr, s.debugLevel ≠ 0 → free (.coreDebug dr) 0x12 s.ctl.scan) ∧
    (∀ code : Byte, code.toNat ∉ [0x00, 0x01, 0x02, 0x11, 0x12] → ctl (.bypass code) [.jtag 0] { s.ctl with ir := code, dr := 0 }) ∧
    ∀ code : Byte, code.toNat ∈ [0x00, 0x01, 0x02, 0x11, 0x12] → ∃ t, exec (.bypass code) s = .next t ∧ unchanged s t

/-- A kick starts a watchdog's count anew. One that has run its period without a kick shows EXPIRED and starts again; a second time it resets
the package where its ACTION is 1 (R751). -/
def Obligations.WatchdogsExpire : Prop :=
  ∀ (s : State) (w : Fin 4),
    let reg := ctlPg + 0x200 + 8 * w.val
    let period := s.lv reg 63 32
    let x := s.ctl.wdog.getD w.val (0, false)
    let due := period ≠ 0 ∧ x.1 + period ≤ s.ticks
    (∃ t, exec (.wdogKick w) s = .next t ∧
      t = { s with ctl := { s.ctl with wdog := s.ctl.wdog.set w.val (s.ticks, false) }, sent := t.sent, sig := t.sig } ∧ sends [] s t) ∧
    (¬ due → ∃ t, exec (.wdogExpire w) s = .next t ∧ unchanged s t) ∧
    (due → x.2 = false ∨ s.lv reg 1 0 ≠ 1 → ∃ t, exec (.wdogExpire w) s = .next t ∧ t.lv reg 4 4 = 1 ∧ sameRegs [reg] s t ∧ sameBits reg 4 4 s t ∧
      t = { s with ctl := { s.ctl with wdog := s.ctl.wdog.set w.val (s.ticks, true) }, live := t.live, sent := t.sent, sig := t.sig } ∧ sends [] s t) ∧
    (due → x.2 = true → s.lv reg 1 0 = 1 → s.pwr.porLow = false → s.warmRunning = false → ∃ t, exec (.wdogExpire w) s = .next t ∧ warmed 0x08 s t)

/-! ### Security (chapter 15) -/

/-- A SEC command has begun: SEC_STATE is BUSY, the outcome it will report is `res` on `data`, and it has joined the requests of the engine,
before a token of its own beat (R761). -/
def Sys2Proof.Machine.secRuns (op res : Nat) (data : List Byte) (s t : State) : Prop :=
  t = { s with sec := { s.sec with run := some { op := op, arg := BitVec.ofNat 64 s.secArg, res := res, data := data }, jobs := t.sec.jobs },
               live := t.live, sent := t.sent, sig := t.sig } ∧
    (∃ a b, s.sec.jobs = a ++ b ∧ t.sec.jobs = a ++ (s.ticks, .command) :: b ∧
      (∀ y ∈ a, y.1 ≠ s.ticks ∨ y.2 = .sign ∨ y.2 = .command) ∧ ∀ y, b.head? = some y → y.1 = s.ticks ∧ y.2 ≠ .sign ∧ y.2 ≠ .command) ∧
    sends [] s t ∧ sameRegs [secPg + 0x110] s t ∧ sameBits (secPg + 0x110) 1 0 s t ∧ t.secState = 1

/-- The SEC commands of a state, each with its opcode. -/
def Sys2Proof.Machine.secCommands (ecc : Ecc) : List (Instr × Nat) :=
  [(.verify ecc, 1), (.extend ecc, 2), (.quote, 3), (.bootDone, 4), (.advanceSvn, 5), (.revokeKey, 6), (.advanceLifecycle, 7), (.fuseProgram ecc, 8)]

/-- A SEC command written while BUSY is ignored; while FATAL all but QUOTE end LOCKED. Otherwise each runs towards the result its rule
gives: BOOT_DONE, ADVANCE_SVN and REVOKE_KEY are LOCKED after BOOT_DONE, ADVANCE_LIFECYCLE also without debug access, FUSE_PROGRAM outside factory test;
VERIFY reports the first check of R756 that fails, input that cannot be read ends with ECC, and a blank UDS whose random source fails its
test with ENTROPY (R756, R760 to R766, R769, R723). Which result a range
or an argument outside its rule gets is the model's choice (log 86).
A SEC command ends once the engine has served the requests before it: SEC_RESULT shows its result and SEC_STATE 2 when that is OK, 3 otherwise; only then it has its effect. An image or an
input extends its measurement register, a quote stands signed, BOOT_DONE is set, and fuses are blown, never cleared (R753, R758, R760, R761, R765). -/
def Obligations.SecurityCommandsRunAndEnd : Prop :=
  (
    ∀ (s : State) (ecc : Ecc),
      let arg := s.secArg
      let idle := s.secState ≠ 1 ∧ s.fatal = false
      let f := s.sec.fuses
      let runs := fun (i : Instr) op res data => ∃ t, exec i s = .next t ∧ secRuns op res data s t
      let boot := fun (r : Nat) => if s.bootIsDone = true then 6 else r
      let served := s.carOn = true ∧ arg < 2 ^ 25
      -- the memory that the command's read meets
      let hurt := s.hurtAny (wordUnits arg) = true
      let u := s.eccAt arg ecc
      let after := fun (i : Instr) op res data => ∃ t, exec i s = .next t ∧
        became (Dev.setLv (Dev.addJob { u with sec := { u.sec with run := some { op := op, arg := BitVec.ofNat 64 arg, res := res, data := data } } } .command)
          (secPg + 0x110) 1 0 1) s t
      let bad := fun (i : Instr) op => after i op 8 []
      let source := f.uds.isSome = true ∨ Config.entropyOk s.fresh = true
      (s.secState = 1 → ∀ i ∈ secCommands ecc, ∃ t, exec i.1 s = .next t ∧ unchanged s t) ∧
      (s.secState ≠ 1 → s.fatal = true → ∀ i ∈ secCommands ecc, i.2 ≠ 3 → runs i.1 i.2 6 []) ∧
      (s.secState ≠ 1 → runs .quote 3 0 s.quoteMessage) ∧
      (∀ op : Byte, 1 ≤ op.toNat → op.toNat ≤ 8 → ∃ t, exec (.secCmdReserved op) s = .next t ∧ unchanged s t) ∧
      (∀ op : Byte, op.toNat = 0 ∨ 8 < op.toNat →
        (s.secState = 1 → ∃ t, exec (.secCmdReserved op) s = .next t ∧ unchanged s t) ∧ (idle → runs (.secCmdReserved op) op.toNat 7 [])) ∧
      (idle →
        runs .bootDone 4 (boot 0) [] ∧
        runs .advanceSvn 5 (boot (if f.svn < arg ∧ arg ≤ 64 then 0 else 7)) [] ∧
        runs .revokeKey 6 (boot (if 5 < arg then 7
          else if arg < 4 ∧ ((List.range 4).filter (fun i => bit f.keyRevoke.toNat i = false) = [arg] ∨ s.sec.bootSlot = some arg) then 6 else 0)) [] ∧
        runs .advanceLifecycle 7 (if s.bootIsDone = true ∧ s.debugLevel = 0 then 6
          else if arg = 1 ∧ f.lifecycle = 0 ∨ arg = 2 ∧ f.lifecycle = 1 ∨ arg = 3 then 0 else 7) [] ∧
        (2 ^ 36 < arg + 64 → runs (.extend ecc) 2 5 []) ∧
        (s.sec.latched ≠ 0 ∨ s.debugLevel ≠ 2 → runs (.fuseProgram ecc) 8 6 []) ∧
        (s.sec.latched = 0 → s.debugLevel = 2 → 2 ^ 36 < arg + 512 → runs (.fuseProgram ecc) 8 5 []) ∧
        (s.sec.latched = 0 → s.debugLevel = 2 → arg + 512 ≤ 2 ^ 36 → ¬ source → runs (.fuseProgram ecc) 8 9 []) ∧
        (let judged := fun (x : Dev) (runs : Instr → Nat → Nat → List Byte → Prop) =>
          (arg + 64 ≤ 2 ^ 36 → runs (.extend ecc) 2 0 (x.cpBytes arg 64)) ∧
          (s.sec.latched = 0 → s.debugLevel = 2 → arg + 512 ≤ 2 ^ 36 → source → runs (.fuseProgram ecc) 8 0 (x.cpBytes arg 512)) ∧
          (let h := x.cpBytes arg 256
           let n := imgLength h
           let payload := x.cpBytes (arg + 256) n
           let formed := leAt h 0 4 = 0x49425159 ∧ leAt h 4 2 = 1 ∧ imgSlot h ≤ 3 ∧ 2 ≤ leAt h 7 1 ∧ allZero (slice h 12 4) = true ∧ allZero (slice h 36 28) = true ∧
             allZero (slice h 121 7) = true ∧ allZero (slice h 242 14) = true
           let placed := 1 ≤ n ∧ n ≤ 2 ^ 28 ∧ arg + 256 + n ≤ 2 ^ 36 ∧ imgLoad h ≤ imgEntry h ∧ imgEntry h < imgLoad h + n
           let keyed := shake256 (slice h 64 57) 64 = f.keyHash.getD (imgSlot h) [] ∧ bit f.keyRevoke.toNat (imgSlot h) = false
           let fresh := f.svn ≤ leAt h 8 4
           let signed := edVerify (slice h 64 57) (imgDigest h payload) (slice h 128 114) = true
           (¬ formed → runs (.verify ecc) 1 1 []) ∧ (formed → ¬ placed → runs (.verify ecc) 1 5 []) ∧
           (formed → placed → ¬ keyed → runs (.verify ecc) 1 2 []) ∧ (formed → placed → keyed → ¬ fresh → runs (.verify ecc) 1 4 []) ∧
           (formed → placed → keyed → fresh → ¬ signed → runs (.verify ecc) 1 3 (imgDigest h payload)) ∧
           (formed → placed → keyed → fresh → signed → runs (.verify ecc) 1 0 (imgDigest h payload)))
         (ecc = .clean ∧ ¬ hurt ∨ served → judged s.toDev runs) ∧ (ecc = .corrected → ¬ hurt → ¬ served → judged u after)) ∧
        (ecc = .uncorrectable ∨ hurt → ¬ served → bad (.verify ecc) 1 ∧ (arg + 64 ≤ 2 ^ 36 → bad (.extend ecc) 2) ∧
          (s.sec.latched = 0 → s.debugLevel = 2 → arg + 512 ≤ 2 ^ 36 → source → bad (.fuseProgram ecc) 8)))) ∧
  (
    ∀ s : State,
      (s.sec.run = none ∨ s.jobNow ≠ some .command → ∃ t, exec .secCmdDone s = .next t ∧ unchanged s t) ∧
      ∀ r, s.sec.run = some r → s.jobNow = some .command →
        let f := s.sec.fuses
        let a := r.arg.toNat
        let v : Dev := { s.toDev with sec := { s.sec with run := none, jobs := s.sec.jobs.drop 1 } }
        let ends := fun (w : Dev) => ∃ t, exec .secCmdDone s = .next t ∧
          became ((w.setLv (secPg + 0x110) 15 8 r.res).setLv (secPg + 0x110) 1 0 (if r.res = 0 then 2 else 3)) s t
        let blown := fun (g : Fuses) => ends { v with sec := { v.sec with fuses := g } }
        let extended := fun (reg : Nat) => ends { v with live := RegFile.putBytes v.live reg (shake256 (RegFile.bytes s.live reg 64 ++ r.data) 64) }
        (r.res ≠ 0 → ends v) ∧
        (r.res = 0 →
          (r.op = 1 → extended (secPg + (if s.bootIsDone = true then 0x240 else 0x200))) ∧
          (r.op = 2 → extended (secPg + 0x240)) ∧
          (r.op = 3 → ends { v with live := RegFile.putBytes v.live (secPg + 0x400) (fit (r.data ++ edSign s.sec.secret r.data) 512) }) ∧
          (r.op = 4 → ends (v.setLv (secPg + 0x118) 4 4 1)) ∧
          (r.op = 5 → blown { f with svn := a }) ∧
          (r.op = 6 → a < 4 → blown { f with keyRevoke := f.keyRevoke ||| BitVec.ofNat 4 (2 ^ a) }) ∧
          (r.op = 6 → 4 ≤ a → blown { f with dbgRevoke := f.dbgRevoke ||| BitVec.ofNat 2 (2 ^ (a - 4)) }) ∧
          (r.op = 7 → blown { f with lifecycle := f.lifecycle ||| (if a = 1 then 1 else if a = 2 then 3 else 7) }) ∧
          (∀ uds, r.op = 8 → f.uds = some uds → blown (f.blow r.data)) ∧
          (r.op = 8 → f.uds = none →
            let d := drawBytes 64 { v with sec := { v.sec with fuses := f.blow r.data } }
            ends { d.2 with sec := { d.2.sec with fuses := { d.2.sec.fuses with uds := some d.1 } } })))

/-- A challenge is fresh random bytes. A token is judged, at once where the security engine serves nothing else and after the requests before
it otherwise, by R769's checks in order; its challenge is used up whatever they say, and only one that passes
all sets the debug level and extends MEAS_RUN. RELOCK ends debug access, and leaving factory test mode disarms every injection (R728, R761, R767 to R770).
The random bytes are free (log 4). -/
def Obligations.DebugTokensUnlock : Prop :=
  ∀ s : State,
    let challenge := secPg + 0x600
    let tok := RegFile.bytes s.live (secPg + 0x640) 288
    let f := s.sec.fuses
    let level := leAt tok 4 1
    let slot := leAt tok 5 1
    let enabled := f.debugDisable = false
    let asked := s.sec.challenge = true
    let formed := leAt tok 0 4 = 0x54445159 ∧ (level = 1 ∨ level = 2) ∧ slot ≤ 1 ∧ allZero (slice tok 6 2) = true ∧ allZero (slice tok 161 7) = true ∧ allZero (slice tok 282 6) = true
    let mine := slice tok 8 64 = shake256 (fit (edPublic s.sec.secret) 64) 64
    let answers := slice tok 72 32 = RegFile.bytes s.live challenge 32
    let keyed := shake256 (slice tok 104 57) 64 = f.dbgHash.getD slot [] ∧ bit f.dbgRevoke.toNat slot = false
    let signed := edVerify (slice tok 104 57) (tok.take 168) (slice tok 168 114) = true
    let allowed := level = 2 → s.sec.latched = 0 ∨ s.sec.latched = 2
    let serves := s.sec.jobs = []
    let fails := fun (r : Nat) => serves → ∃ t, exec .submit s = .next t ∧
      t = { s with sec := { s.sec with challenge := false }, live := t.live, sent := t.sent, sig := t.sig } ∧ sends [] s t ∧
      sameRegs [challenge, challenge + 8, challenge + 16, challenge + 24, secPg + 0x780] s t ∧
      RegFile.bytes t.live challenge 32 = List.replicate 32 0 ∧ t.lv (secPg + 0x780) 15 8 = r
    (∃ t, exec .newChallenge s = .next t ∧ sends [] s t ∧
      t = { s with sec := { s.sec with challenge := true }, fresh := s.fresh + 4, live := t.live, sent := t.sent, sig := t.sig } ∧
      sameRegs [challenge, challenge + 8, challenge + 16, challenge + 24] s t ∧
      RegFile.bytes t.live challenge 32 = (List.range 4).flatMap fun i => leBytes 8 (Config.freeWord (s.fresh + i)).toNat) ∧
    (¬ enabled → fails 2) ∧ (enabled → ¬ asked → fails 3) ∧ (enabled → asked → ¬ formed → fails 4) ∧
    (enabled → asked → formed → ¬ mine → fails 5) ∧ (enabled → asked → formed → mine → ¬ answers → fails 6) ∧
    (enabled → asked → formed → mine → answers → ¬ keyed → fails 7) ∧
    (enabled → asked → formed → mine → answers → keyed → ¬ signed → fails 8) ∧
    (enabled → asked → formed → mine → answers → keyed → signed → ¬ allowed → fails 9) ∧
    (enabled → asked → formed → mine → answers → keyed → signed → allowed → serves → ∃ t, exec .submit s = .next t ∧ t.debugLevel = level ∧
      t.sec.challenge = false ∧ t.lv (secPg + 0x780) 15 8 = 1 ∧ t.mem = s.mem ∧
      RegFile.bytes t.live (secPg + 0x240) 64 = shake256 (RegFile.bytes s.live (secPg + 0x240) 64 ++ shake256 tok 64) 64) ∧
    (¬ serves → ∃ t, exec .submit s = .next t ∧
      t = { s with sec := { s.sec with challenge := false, jobs := t.sec.jobs }, live := t.live, sent := t.sent, sig := t.sig } ∧ sends [] s t ∧
      sameRegs [challenge, challenge + 8, challenge + 16, challenge + 24] s t ∧ RegFile.bytes t.live challenge 32 = List.replicate 32 0 ∧
      t.sec.jobs = s.sec.jobs ++ [(s.ticks, .token tok (if asked then some (RegFile.bytes s.live challenge 32) else none))]) ∧
    ∃ t, exec .relock s = .next t ∧ t = { s with collectors := t.collectors, live := t.live, sent := t.sent, sig := t.sig } ∧ t.debugLevel = 0 ∧
      ∀ d, d < 4 → (t.collector d).inj = none ∧ (t.collector d).entries = (s.collector d).entries ∧ (t.collector d).fenced = (s.collector d).fenced

/-! ### Power, reset and boot (chapters 15 and 16) -/

/-- The rails come up step by step while PWR_ON_RESET_N is low, step 1 beginning a power-up; a rail or a temperature of 115 °C is FATAL once
it is high, the trip pulling THERMTRIP_N low (R788, R790, R794). Every 1,024 beats the throttle level rises by one while a die is at
THROTTLE or the power above its limit, falls by one when both are well below, and STAGE follows it; before the window's end nothing happens (R791 to R793, R803, R804). -/
def Obligations.RailsAndThrottleFollowTheirRules : Prop :=
  ∀ s : State,
    let still := fun (i : Instr) => ∃ t, exec i s = .next t ∧ unchanged s t
    (∀ step : Fin 5,
      let may := s.pwr.porLow = true ∧ (step.val = 1 ∨ step.val ≠ 0 ∧ step.val = s.pwr.railStep + 1)
      (¬ may → still (.railStep step)) ∧
      (may → ∃ t, exec (.railStep step) s = .next t ∧ t = { s with pwr := { s.pwr with railStep := step.val }, sent := t.sent, sig := t.sig } ∧ sends [] s t)) ∧
    (s.pwr.porLow = true → (∀ i, still (.railFault i)) ∧ (∀ d c, still (.thermtrip d c)) ∧ ∀ m, still (.throttleWindow m)) ∧
    (s.ticks < s.pwr.winAt + 1024 → ∀ m, still (.throttleWindow m)) ∧
    (s.pwr.porLow = false →
      (∀ i, ∃ t, exec (.railFault i) s = .next t ∧ became (s.faultOwn 4 0x0F 0 0 pwrUnit) s t) ∧
      (∀ d (c : Byte), c.toNat < 115 → still (.thermtrip d c)) ∧
      (∀ d (c : Byte), 115 ≤ c.toNat → ∃ t, exec (.thermtrip d c) s = .next t ∧ t.fatal = true ∧ t.pwr = { s.pwr with tripLow := true }) ∧
      ∀ m : PowerWindow,
        let cap := min 1900 (max 600 (s.cfg (pwrPg + 0x1000) 15 0))
        let throttle := min 105 (s.cfg (pwrPg + 0x1008) 15 8)
        let temp := fun d => match m.temps.getD d none with | some b => b.toNat | none => throttle
        let watts := m.watts.toNat
        let hot := ∃ d, d < 5 ∧ throttle ≤ temp d
        let above := cap < watts
        let low := watts * 100 < 97 * cap ∧ ∀ d, d < 5 → temp d + 3 ≤ throttle
        let level := s.pwr.level
        s.pwr.winAt + 1024 ≤ s.ticks → ∃ t, exec (.throttleWindow m) s = .next t ∧ sends [] s t ∧
          t = { s with pwr := { s.pwr with level := t.pwr.level, winAt := s.ticks }, live := t.live, sent := t.sent, sig := t.sig } ∧
          (hot ∨ above → t.pwr.level = min 16 (level + 1)) ∧
          (¬ hot → ¬ above → low → t.pwr.level = level - 1) ∧
          (¬ hot → ¬ above → ¬ low → t.pwr.level = level) ∧
          t.lv (pwrPg + 0x170) 3 2 = (if t.pwr.level = 0 then 0 else if t.pwr.level ≤ 12 then 1 else 2) ∧
          (level < t.pwr.level → (t.lv (pwrPg + 0x170) 1 1 = 1 ↔ hot) ∧ (t.lv (pwrPg + 0x170) 0 0 = 1 ↔ above)) ∧
          t.lv (pwrPg + 0x160) 15 0 = watts ∧
          (∀ d, d < 5 → t.lv (pwrPg + 0x168) (8 * d + 7) (8 * d) = match m.temps.getD d none with | some b => b.toNat | none => 0xFF) ∧
          (∀ i, i < 12 → t.lv (pwrPg + 0x100 + 8 * i) 47 32 = (m.mv.getD i 0).toNat ∧ t.lv (pwrPg + 0x100 + 8 * i) 15 0 = (m.cur.getD i 0).toNat))

/-- The boot ROM's outcome from fuses, flash and the lifecycle latched: 0x81 for a scrapped part, else the first of the two flash images that passes
its checks (0x01, 0x02), else 0x80; it is shown in CTL_BOOT and in a line of text on the UART, and hart 0 runs the image or is halted (R745, R754, R757). -/
def Sys2Proof.Machine.booted (latched : Nat) (s t : State) : Prop :=
  let code := if latched = 3 then 0x81 else if s.romCheck 0 = 0 then 1 else if s.romCheck 0x1000000 = 0 then 2 else 0x80
  t.lv (ctlPg + 0x100) 7 0 = code ∧ (∃ pre up post, t.ctl.txFifo = (pre ++ hexText up code ++ post).take 64) ∧
    (0x80 ≤ code → t.ctl.harts[0]? = some { run := false, start := 0x100000000000, fault := false }) ∧
    (∀ off, code = 1 ∧ off = 0 ∨ code = 2 ∧ off = 0x1000000 →
      let h := s.flashBytes off 256
      t.ctl.harts[0]? = some { run := true, start := BitVec.ofNat 64 (imgEntry h), fault := false } ∧ t.lv (ctlPg + 0x100) 8 8 = 1 ∧
      t.lv (ctlPg + 0x100) 63 32 = off ∧ t.sec.bootSlot = some (imgSlot h) ∧
      ∀ i, i < imgLength h → Memory.read t.ctl.llc (imgLoad h + i) = Memory.read s.ctl.flash (off + 256 + i))

/-- PWR_ON_RESET_N low returns everything but fuses, flash and rails to reset. Its rise does nothing before every rail is up; then the cause is
1, the lifecycle, grade and identity are sensed, every stack not fenced trains, the audit log starts, and the boot ROM runs. WARM_RESET_N and
PWR_RESET_CTRL with its key reset warm (R130, R753, R754, R757, R788, R796 to R799, R803). -/
def Obligations.ResetsAndBoot : Prop :=
  ∀ s : State,
    (∃ t, exec .powerOnReset s = .next t ∧ t.pwr.porLow = true ∧ t.sec = SecSt.reset s.sec.fuses ∧ t.ctl = CtlSt.reset s.ctl.flash ∧
      t.pwr = { PwrSt.reset with railStep := s.pwr.railStep } ∧ t.beat = 0 ∧ t.ticks = 0 ∧ t.number = 0 ∧ t.mem = [] ∧ t.live = [] ∧ t.active = [] ∧
      t.staged = [] ∧ t.latches = [] ∧ t.threads = [] ∧ t.cores = [] ∧ t.adapters = [] ∧ t.ports = [] ∧ t.groups = [] ∧ t.ctxs = [] ∧ t.works = [] ∧
      t.audit = [] ∧ t.fatal = false ∧ t.molt = none ∧ t.pending = s.pending ∧ ∀ d, t.collector d = Collector.reset) ∧
    (∀ straps, s.pwr.porLow = false ∨ s.pwr.railStep ≠ 4 → ∃ t, exec (.powerOnResetRelease straps) s = .next t ∧ unchanged s t) ∧
    (∀ straps, s.pwr.porLow = true → s.pwr.railStep = 4 → ∃ t, exec (.powerOnResetRelease straps) s = .next t ∧
      let code := lifecycleCode s.sec.fuses.lifecycle
      t.pwr = { s.pwr with porLow := false, straps := straps, resetAt := s.ticks, winAt := s.ticks } ∧ t.lv (pwrPg + 0x188) 4 0 = 1 ∧
      t.sec.latched = code ∧ t.sec.grade = s.sec.fuses.grade ∧ t.sec.fuses = s.sec.fuses ∧ t.mem = s.mem ∧
      t.sec.secret = (if code = 3 then [] else shake256 (s.sec.fuses.uds.getD (List.replicate 64 0) ++ [BitVec.ofNat 8 code]) 57) ∧
      t.audit.length = s.audit.length + 1 ∧ (s.ctl.harts ≠ [] → booted code s t) ∧
      ∀ st, st < 16 → (s.fencedUnit (stackUnit st) = false → t.stackState st = 1) ∧ (s.fencedUnit (stackUnit st) = true → t.stackState st = s.stackState st)) ∧
    (∃ t, exec .warmResetN s = .next t ∧ warmed 0x02 s t ∧ (s.pwr.porLow = false → s.warmRunning = false → booted s.sec.latched { s with sec := { s.sec with fuses := t.sec.fuses } } t)) ∧
    (∀ v : BitVec 32, bits v.toNat 15 8 = 0x5A → bit v.toNat 0 = true → ∃ t, exec (.pwrResetCtrlWrite v) s = .next t ∧ warmed 0x10 s t) ∧
    ∀ v : BitVec 32, bits v.toNat 15 8 ≠ 0x5A ∨ bit v.toNat 0 = false → ∃ t, exec (.pwrResetCtrlWrite v) s = .next t ∧ unchanged s t
end

