-- ==== Sys2Proof/Laws/State.lean ====
section
/-! SUPPORT. One lemma per field per update of the device, each true by `rfl`, so that no later proof unfolds a record update; and
what `settle` leaves alone. -/

namespace Sys2Proof.Machine

/-! ### A new value of `live` -/

theorem with_live_beat (s : Dev) (x : RegFile) : ({ s with live := x } : Dev).beat = s.beat := rfl
theorem with_live_ticks (s : Dev) (x : RegFile) : ({ s with live := x } : Dev).ticks = s.ticks := rfl
theorem with_live_latches (s : Dev) (x : RegFile) : ({ s with live := x } : Dev).latches = s.latches := rfl
theorem with_live_pairs (s : Dev) (x : RegFile) : ({ s with live := x } : Dev).pairs = s.pairs := rfl
theorem with_live_staged (s : Dev) (x : RegFile) : ({ s with live := x } : Dev).staged = s.staged := rfl
theorem with_live_active (s : Dev) (x : RegFile) : ({ s with live := x } : Dev).active = s.active := rfl
theorem with_live_number (s : Dev) (x : RegFile) : ({ s with live := x } : Dev).number = s.number := rfl
theorem with_live_previous (s : Dev) (x : RegFile) : ({ s with live := x } : Dev).previous = s.previous := rfl
theorem with_live_retiring (s : Dev) (x : RegFile) : ({ s with live := x } : Dev).retiring = s.retiring := rfl
theorem with_live_molt (s : Dev) (x : RegFile) : ({ s with live := x } : Dev).molt = s.molt := rfl
theorem with_live_damaged (s : Dev) (x : RegFile) : ({ s with live := x } : Dev).damaged = s.damaged := rfl
theorem with_live_audit (s : Dev) (x : RegFile) : ({ s with live := x } : Dev).audit = s.audit := rfl
theorem with_live_mem (s : Dev) (x : RegFile) : ({ s with live := x } : Dev).mem = s.mem := rfl
theorem with_live_memSt (s : Dev) (x : RegFile) : ({ s with live := x } : Dev).memSt = s.memSt := rfl
theorem with_live_time (s : Dev) (x : RegFile) : ({ s with live := x } : Dev).time = s.time := rfl
theorem with_live_alarms (s : Dev) (x : RegFile) : ({ s with live := x } : Dev).alarms = s.alarms := rfl
theorem with_live_releases (s : Dev) (x : RegFile) : ({ s with live := x } : Dev).releases = s.releases := rfl
theorem with_live_ports (s : Dev) (x : RegFile) : ({ s with live := x } : Dev).ports = s.ports := rfl
theorem with_live_laneErr (s : Dev) (x : RegFile) : ({ s with live := x } : Dev).laneErr = s.laneErr := rfl
theorem with_live_arrived (s : Dev) (x : RegFile) : ({ s with live := x } : Dev).arrived = s.arrived := rfl
theorem with_live_mcasts (s : Dev) (x : RegFile) : ({ s with live := x } : Dev).mcasts = s.mcasts := rfl
theorem with_live_stalled (s : Dev) (x : RegFile) : ({ s with live := x } : Dev).stalled = s.stalled := rfl
theorem with_live_ownAnswers (s : Dev) (x : RegFile) : ({ s with live := x } : Dev).ownAnswers = s.ownAnswers := rfl
theorem with_live_allocs (s : Dev) (x : RegFile) : ({ s with live := x } : Dev).allocs = s.allocs := rfl
theorem with_live_credit (s : Dev) (x : RegFile) : ({ s with live := x } : Dev).credit = s.credit := rfl
theorem with_live_lost (s : Dev) (x : RegFile) : ({ s with live := x } : Dev).lost = s.lost := rfl
theorem with_live_touched (s : Dev) (x : RegFile) : ({ s with live := x } : Dev).touched = s.touched := rfl
theorem with_live_cfgErr (s : Dev) (x : RegFile) : ({ s with live := x } : Dev).cfgErr = s.cfgErr := rfl
theorem with_live_uncharged (s : Dev) (x : RegFile) : ({ s with live := x } : Dev).uncharged = s.uncharged := rfl
theorem with_live_parked (s : Dev) (x : RegFile) : ({ s with live := x } : Dev).parked = s.parked := rfl
theorem with_live_groups (s : Dev) (x : RegFile) : ({ s with live := x } : Dev).groups = s.groups := rfl
theorem with_live_ctxs (s : Dev) (x : RegFile) : ({ s with live := x } : Dev).ctxs = s.ctxs := rfl
theorem with_live_released (s : Dev) (x : RegFile) : ({ s with live := x } : Dev).released = s.released := rfl
theorem with_live_gotten (s : Dev) (x : RegFile) : ({ s with live := x } : Dev).gotten = s.gotten := rfl
theorem with_live_lostNow (s : Dev) (x : RegFile) : ({ s with live := x } : Dev).lostNow = s.lostNow := rfl
theorem with_live_replays (s : Dev) (x : RegFile) : ({ s with live := x } : Dev).replays = s.replays := rfl
theorem with_live_inputs (s : Dev) (x : RegFile) : ({ s with live := x } : Dev).inputs = s.inputs := rfl
theorem with_live_works (s : Dev) (x : RegFile) : ({ s with live := x } : Dev).works = s.works := rfl
theorem with_live_routeInfo (s : Dev) (x : RegFile) : ({ s with live := x } : Dev).routeInfo = s.routeInfo := rfl
theorem with_live_batches (s : Dev) (x : RegFile) : ({ s with live := x } : Dev).batches = s.batches := rfl
theorem with_live_tableWorks (s : Dev) (x : RegFile) : ({ s with live := x } : Dev).tableWorks = s.tableWorks := rfl
theorem with_live_gathers (s : Dev) (x : RegFile) : ({ s with live := x } : Dev).gathers = s.gathers := rfl
theorem with_live_threads (s : Dev) (x : RegFile) : ({ s with live := x } : Dev).threads = s.threads := rfl
theorem with_live_cores (s : Dev) (x : RegFile) : ({ s with live := x } : Dev).cores = s.cores := rfl
theorem with_live_adapters (s : Dev) (x : RegFile) : ({ s with live := x } : Dev).adapters = s.adapters := rfl
theorem with_live_collectors (s : Dev) (x : RegFile) : ({ s with live := x } : Dev).collectors = s.collectors := rfl
theorem with_live_summary (s : Dev) (x : RegFile) : ({ s with live := x } : Dev).summary = s.summary := rfl
theorem with_live_fatal (s : Dev) (x : RegFile) : ({ s with live := x } : Dev).fatal = s.fatal := rfl
theorem with_live_tel (s : Dev) (x : RegFile) : ({ s with live := x } : Dev).tel = s.tel := rfl
theorem with_live_sec (s : Dev) (x : RegFile) : ({ s with live := x } : Dev).sec = s.sec := rfl
theorem with_live_ctl (s : Dev) (x : RegFile) : ({ s with live := x } : Dev).ctl = s.ctl := rfl
theorem with_live_pwr (s : Dev) (x : RegFile) : ({ s with live := x } : Dev).pwr = s.pwr := rfl
theorem with_live_nextId (s : Dev) (x : RegFile) : ({ s with live := x } : Dev).nextId = s.nextId := rfl
theorem with_live_fresh (s : Dev) (x : RegFile) : ({ s with live := x } : Dev).fresh = s.fresh := rfl
theorem with_live_sent (s : Dev) (x : RegFile) : ({ s with live := x } : Dev).sent = s.sent := rfl
theorem with_live_sig (s : Dev) (x : RegFile) : ({ s with live := x } : Dev).sig = s.sig := rfl

/-! ### A new value of `sent` -/

theorem with_sent_beat (s : Dev) (x : List Emit) : ({ s with sent := x } : Dev).beat = s.beat := rfl
theorem with_sent_ticks (s : Dev) (x : List Emit) : ({ s with sent := x } : Dev).ticks = s.ticks := rfl
theorem with_sent_live (s : Dev) (x : List Emit) : ({ s with sent := x } : Dev).live = s.live := rfl
theorem with_sent_latches (s : Dev) (x : List Emit) : ({ s with sent := x } : Dev).latches = s.latches := rfl
theorem with_sent_pairs (s : Dev) (x : List Emit) : ({ s with sent := x } : Dev).pairs = s.pairs := rfl
theorem with_sent_staged (s : Dev) (x : List Emit) : ({ s with sent := x } : Dev).staged = s.staged := rfl
theorem with_sent_active (s : Dev) (x : List Emit) : ({ s with sent := x } : Dev).active = s.active := rfl
theorem with_sent_number (s : Dev) (x : List Emit) : ({ s with sent := x } : Dev).number = s.number := rfl
theorem with_sent_previous (s : Dev) (x : List Emit) : ({ s with sent := x } : Dev).previous = s.previous := rfl
theorem with_sent_retiring (s : Dev) (x : List Emit) : ({ s with sent := x } : Dev).retiring = s.retiring := rfl
theorem with_sent_molt (s : Dev) (x : List Emit) : ({ s with sent := x } : Dev).molt = s.molt := rfl
theorem with_sent_damaged (s : Dev) (x : List Emit) : ({ s with sent := x } : Dev).damaged = s.damaged := rfl
theorem with_sent_audit (s : Dev) (x : List Emit) : ({ s with sent := x } : Dev).audit = s.audit := rfl
theorem with_sent_mem (s : Dev) (x : List Emit) : ({ s with sent := x } : Dev).mem = s.mem := rfl
theorem with_sent_memSt (s : Dev) (x : List Emit) : ({ s with sent := x } : Dev).memSt = s.memSt := rfl
theorem with_sent_time (s : Dev) (x : List Emit) : ({ s with sent := x } : Dev).time = s.time := rfl
theorem with_sent_alarms (s : Dev) (x : List Emit) : ({ s with sent := x } : Dev).alarms = s.alarms := rfl
theorem with_sent_releases (s : Dev) (x : List Emit) : ({ s with sent := x } : Dev).releases = s.releases := rfl
theorem with_sent_ports (s : Dev) (x : List Emit) : ({ s with sent := x } : Dev).ports = s.ports := rfl
theorem with_sent_laneErr (s : Dev) (x : List Emit) : ({ s with sent := x } : Dev).laneErr = s.laneErr := rfl
theorem with_sent_arrived (s : Dev) (x : List Emit) : ({ s with sent := x } : Dev).arrived = s.arrived := rfl
theorem with_sent_mcasts (s : Dev) (x : List Emit) : ({ s with sent := x } : Dev).mcasts = s.mcasts := rfl
theorem with_sent_stalled (s : Dev) (x : List Emit) : ({ s with sent := x } : Dev).stalled = s.stalled := rfl
theorem with_sent_ownAnswers (s : Dev) (x : List Emit) : ({ s with sent := x } : Dev).ownAnswers = s.ownAnswers := rfl
theorem with_sent_allocs (s : Dev) (x : List Emit) : ({ s with sent := x } : Dev).allocs = s.allocs := rfl
theorem with_sent_credit (s : Dev) (x : List Emit) : ({ s with sent := x } : Dev).credit = s.credit := rfl
theorem with_sent_lost (s : Dev) (x : List Emit) : ({ s with sent := x } : Dev).lost = s.lost := rfl
theorem with_sent_touched (s : Dev) (x : List Emit) : ({ s with sent := x } : Dev).touched = s.touched := rfl
theorem with_sent_cfgErr (s : Dev) (x : List Emit) : ({ s with sent := x } : Dev).cfgErr = s.cfgErr := rfl
theorem with_sent_uncharged (s : Dev) (x : List Emit) : ({ s with sent := x } : Dev).uncharged = s.uncharged := rfl
theorem with_sent_parked (s : Dev) (x : List Emit) : ({ s with sent := x } : Dev).parked = s.parked := rfl
theorem with_sent_groups (s : Dev) (x : List Emit) : ({ s with sent := x } : Dev).groups = s.groups := rfl
theorem with_sent_ctxs (s : Dev) (x : List Emit) : ({ s with sent := x } : Dev).ctxs = s.ctxs := rfl
theorem with_sent_released (s : Dev) (x : List Emit) : ({ s with sent := x } : Dev).released = s.released := rfl
theorem with_sent_gotten (s : Dev) (x : List Emit) : ({ s with sent := x } : Dev).gotten = s.gotten := rfl
theorem with_sent_lostNow (s : Dev) (x : List Emit) : ({ s with sent := x } : Dev).lostNow = s.lostNow := rfl
theorem with_sent_replays (s : Dev) (x : List Emit) : ({ s with sent := x } : Dev).replays = s.replays := rfl
theorem with_sent_inputs (s : Dev) (x : List Emit) : ({ s with sent := x } : Dev).inputs = s.inputs := rfl
theorem with_sent_works (s : Dev) (x : List Emit) : ({ s with sent := x } : Dev).works = s.works := rfl
theorem with_sent_routeInfo (s : Dev) (x : List Emit) : ({ s with sent := x } : Dev).routeInfo = s.routeInfo := rfl
theorem with_sent_batches (s : Dev) (x : List Emit) : ({ s with sent := x } : Dev).batches = s.batches := rfl
theorem with_sent_tableWorks (s : Dev) (x : List Emit) : ({ s with sent := x } : Dev).tableWorks = s.tableWorks := rfl
theorem with_sent_gathers (s : Dev) (x : List Emit) : ({ s with sent := x } : Dev).gathers = s.gathers := rfl
theorem with_sent_threads (s : Dev) (x : List Emit) : ({ s with sent := x } : Dev).threads = s.threads := rfl
theorem with_sent_cores (s : Dev) (x : List Emit) : ({ s with sent := x } : Dev).cores = s.cores := rfl
theorem with_sent_adapters (s : Dev) (x : List Emit) : ({ s with sent := x } : Dev).adapters = s.adapters := rfl
theorem with_sent_collectors (s : Dev) (x : List Emit) : ({ s with sent := x } : Dev).collectors = s.collectors := rfl
theorem with_sent_summary (s : Dev) (x : List Emit) : ({ s with sent := x } : Dev).summary = s.summary := rfl
theorem with_sent_fatal (s : Dev) (x : List Emit) : ({ s with sent := x } : Dev).fatal = s.fatal := rfl
theorem with_sent_tel (s : Dev) (x : List Emit) : ({ s with sent := x } : Dev).tel = s.tel := rfl
theorem with_sent_sec (s : Dev) (x : List Emit) : ({ s with sent := x } : Dev).sec = s.sec := rfl
theorem with_sent_ctl (s : Dev) (x : List Emit) : ({ s with sent := x } : Dev).ctl = s.ctl := rfl
theorem with_sent_pwr (s : Dev) (x : List Emit) : ({ s with sent := x } : Dev).pwr = s.pwr := rfl
theorem with_sent_nextId (s : Dev) (x : List Emit) : ({ s with sent := x } : Dev).nextId = s.nextId := rfl
theorem with_sent_fresh (s : Dev) (x : List Emit) : ({ s with sent := x } : Dev).fresh = s.fresh := rfl
theorem with_sent_sig (s : Dev) (x : List Emit) : ({ s with sent := x } : Dev).sig = s.sig := rfl

/-! ### A new value of `ports` -/

theorem with_ports_beat (s : Dev) (x : Map Port) : ({ s with ports := x } : Dev).beat = s.beat := rfl
theorem with_ports_ticks (s : Dev) (x : Map Port) : ({ s with ports := x } : Dev).ticks = s.ticks := rfl
theorem with_ports_live (s : Dev) (x : Map Port) : ({ s with ports := x } : Dev).live = s.live := rfl
theorem with_ports_latches (s : Dev) (x : Map Port) : ({ s with ports := x } : Dev).latches = s.latches := rfl
theorem with_ports_pairs (s : Dev) (x : Map Port) : ({ s with ports := x } : Dev).pairs = s.pairs := rfl
theorem with_ports_staged (s : Dev) (x : Map Port) : ({ s with ports := x } : Dev).staged = s.staged := rfl
theorem with_ports_active (s : Dev) (x : Map Port) : ({ s with ports := x } : Dev).active = s.active := rfl
theorem with_ports_number (s : Dev) (x : Map Port) : ({ s with ports := x } : Dev).number = s.number := rfl
theorem with_ports_previous (s : Dev) (x : Map Port) : ({ s with ports := x } : Dev).previous = s.previous := rfl
theorem with_ports_retiring (s : Dev) (x : Map Port) : ({ s with ports := x } : Dev).retiring = s.retiring := rfl
theorem with_ports_molt (s : Dev) (x : Map Port) : ({ s with ports := x } : Dev).molt = s.molt := rfl
theorem with_ports_damaged (s : Dev) (x : Map Port) : ({ s with ports := x } : Dev).damaged = s.damaged := rfl
theorem with_ports_audit (s : Dev) (x : Map Port) : ({ s with ports := x } : Dev).audit = s.audit := rfl
theorem with_ports_mem (s : Dev) (x : Map Port) : ({ s with ports := x } : Dev).mem = s.mem := rfl
theorem with_ports_memSt (s : Dev) (x : Map Port) : ({ s with ports := x } : Dev).memSt = s.memSt := rfl
theorem with_ports_time (s : Dev) (x : Map Port) : ({ s with ports := x } : Dev).time = s.time := rfl
theorem with_ports_alarms (s : Dev) (x : Map Port) : ({ s with ports := x } : Dev).alarms = s.alarms := rfl
theorem with_ports_releases (s : Dev) (x : Map Port) : ({ s with ports := x } : Dev).releases = s.releases := rfl
theorem with_ports_laneErr (s : Dev) (x : Map Port) : ({ s with ports := x } : Dev).laneErr = s.laneErr := rfl
theorem with_ports_arrived (s : Dev) (x : Map Port) : ({ s with ports := x } : Dev).arrived = s.arrived := rfl
theorem with_ports_mcasts (s : Dev) (x : Map Port) : ({ s with ports := x } : Dev).mcasts = s.mcasts := rfl
theorem with_ports_stalled (s : Dev) (x : Map Port) : ({ s with ports := x } : Dev).stalled = s.stalled := rfl
theorem with_ports_ownAnswers (s : Dev) (x : Map Port) : ({ s with ports := x } : Dev).ownAnswers = s.ownAnswers := rfl
theorem with_ports_allocs (s : Dev) (x : Map Port) : ({ s with ports := x } : Dev).allocs = s.allocs := rfl
theorem with_ports_credit (s : Dev) (x : Map Port) : ({ s with ports := x } : Dev).credit = s.credit := rfl
theorem with_ports_lost (s : Dev) (x : Map Port) : ({ s with ports := x } : Dev).lost = s.lost := rfl
theorem with_ports_touched (s : Dev) (x : Map Port) : ({ s with ports := x } : Dev).touched = s.touched := rfl
theorem with_ports_cfgErr (s : Dev) (x : Map Port) : ({ s with ports := x } : Dev).cfgErr = s.cfgErr := rfl
theorem with_ports_uncharged (s : Dev) (x : Map Port) : ({ s with ports := x } : Dev).uncharged = s.uncharged := rfl
theorem with_ports_parked (s : Dev) (x : Map Port) : ({ s with ports := x } : Dev).parked = s.parked := rfl
theorem with_ports_groups (s : Dev) (x : Map Port) : ({ s with ports := x } : Dev).groups = s.groups := rfl
theorem with_ports_ctxs (s : Dev) (x : Map Port) : ({ s with ports := x } : Dev).ctxs = s.ctxs := rfl
theorem with_ports_released (s : Dev) (x : Map Port) : ({ s with ports := x } : Dev).released = s.released := rfl
theorem with_ports_gotten (s : Dev) (x : Map Port) : ({ s with ports := x } : Dev).gotten = s.gotten := rfl
theorem with_ports_lostNow (s : Dev) (x : Map Port) : ({ s with ports := x } : Dev).lostNow = s.lostNow := rfl
theorem with_ports_replays (s : Dev) (x : Map Port) : ({ s with ports := x } : Dev).replays = s.replays := rfl
theorem with_ports_inputs (s : Dev) (x : Map Port) : ({ s with ports := x } : Dev).inputs = s.inputs := rfl
theorem with_ports_works (s : Dev) (x : Map Port) : ({ s with ports := x } : Dev).works = s.works := rfl
theorem with_ports_routeInfo (s : Dev) (x : Map Port) : ({ s with ports := x } : Dev).routeInfo = s.routeInfo := rfl
theorem with_ports_batches (s : Dev) (x : Map Port) : ({ s with ports := x } : Dev).batches = s.batches := rfl
theorem with_ports_tableWorks (s : Dev) (x : Map Port) : ({ s with ports := x } : Dev).tableWorks = s.tableWorks := rfl
theorem with_ports_gathers (s : Dev) (x : Map Port) : ({ s with ports := x } : Dev).gathers = s.gathers := rfl
theorem with_ports_threads (s : Dev) (x : Map Port) : ({ s with ports := x } : Dev).threads = s.threads := rfl
theorem with_ports_cores (s : Dev) (x : Map Port) : ({ s with ports := x } : Dev).cores = s.cores := rfl
theorem with_ports_adapters (s : Dev) (x : Map Port) : ({ s with ports := x } : Dev).adapters = s.adapters := rfl
theorem with_ports_collectors (s : Dev) (x : Map Port) : ({ s with ports := x } : Dev).collectors = s.collectors := rfl
theorem with_ports_summary (s : Dev) (x : Map Port) : ({ s with ports := x } : Dev).summary = s.summary := rfl
theorem with_ports_fatal (s : Dev) (x : Map Port) : ({ s with ports := x } : Dev).fatal = s.fatal := rfl
theorem with_ports_tel (s : Dev) (x : Map Port) : ({ s with ports := x } : Dev).tel = s.tel := rfl
theorem with_ports_sec (s : Dev) (x : Map Port) : ({ s with ports := x } : Dev).sec = s.sec := rfl
theorem with_ports_ctl (s : Dev) (x : Map Port) : ({ s with ports := x } : Dev).ctl = s.ctl := rfl
theorem with_ports_pwr (s : Dev) (x : Map Port) : ({ s with ports := x } : Dev).pwr = s.pwr := rfl
theorem with_ports_nextId (s : Dev) (x : Map Port) : ({ s with ports := x } : Dev).nextId = s.nextId := rfl
theorem with_ports_fresh (s : Dev) (x : Map Port) : ({ s with ports := x } : Dev).fresh = s.fresh := rfl
theorem with_ports_sent (s : Dev) (x : Map Port) : ({ s with ports := x } : Dev).sent = s.sent := rfl
theorem with_ports_sig (s : Dev) (x : Map Port) : ({ s with ports := x } : Dev).sig = s.sig := rfl

/-! ### A new value of `collectors` -/

theorem with_collectors_beat (s : Dev) (x : List Collector) : ({ s with collectors := x } : Dev).beat = s.beat := rfl
theorem with_collectors_ticks (s : Dev) (x : List Collector) : ({ s with collectors := x } : Dev).ticks = s.ticks := rfl
theorem with_collectors_live (s : Dev) (x : List Collector) : ({ s with collectors := x } : Dev).live = s.live := rfl
theorem with_collectors_latches (s : Dev) (x : List Collector) : ({ s with collectors := x } : Dev).latches = s.latches := rfl
theorem with_collectors_pairs (s : Dev) (x : List Collector) : ({ s with collectors := x } : Dev).pairs = s.pairs := rfl
theorem with_collectors_staged (s : Dev) (x : List Collector) : ({ s with collectors := x } : Dev).staged = s.staged := rfl
theorem with_collectors_active (s : Dev) (x : List Collector) : ({ s with collectors := x } : Dev).active = s.active := rfl
theorem with_collectors_number (s : Dev) (x : List Collector) : ({ s with collectors := x } : Dev).number = s.number := rfl
theorem with_collectors_previous (s : Dev) (x : List Collector) : ({ s with collectors := x } : Dev).previous = s.previous := rfl
theorem with_collectors_retiring (s : Dev) (x : List Collector) : ({ s with collectors := x } : Dev).retiring = s.retiring := rfl
theorem with_collectors_molt (s : Dev) (x : List Collector) : ({ s with collectors := x } : Dev).molt = s.molt := rfl
theorem with_collectors_damaged (s : Dev) (x : List Collector) : ({ s with collectors := x } : Dev).damaged = s.damaged := rfl
theorem with_collectors_audit (s : Dev) (x : List Collector) : ({ s with collectors := x } : Dev).audit = s.audit := rfl
theorem with_collectors_mem (s : Dev) (x : List Collector) : ({ s with collectors := x } : Dev).mem = s.mem := rfl
theorem with_collectors_memSt (s : Dev) (x : List Collector) : ({ s with collectors := x } : Dev).memSt = s.memSt := rfl
theorem with_collectors_time (s : Dev) (x : List Collector) : ({ s with collectors := x } : Dev).time = s.time := rfl
theorem with_collectors_alarms (s : Dev) (x : List Collector) : ({ s with collectors := x } : Dev).alarms = s.alarms := rfl
theorem with_collectors_releases (s : Dev) (x : List Collector) : ({ s with collectors := x } : Dev).releases = s.releases := rfl
theorem with_collectors_ports (s : Dev) (x : List Collector) : ({ s with collectors := x } : Dev).ports = s.ports := rfl
theorem with_collectors_laneErr (s : Dev) (x : List Collector) : ({ s with collectors := x } : Dev).laneErr = s.laneErr := rfl
theorem with_collectors_arrived (s : Dev) (x : List Collector) : ({ s with collectors := x } : Dev).arrived = s.arrived := rfl
theorem with_collectors_mcasts (s : Dev) (x : List Collector) : ({ s with collectors := x } : Dev).mcasts = s.mcasts := rfl
theorem with_collectors_stalled (s : Dev) (x : List Collector) : ({ s with collectors := x } : Dev).stalled = s.stalled := rfl
theorem with_collectors_ownAnswers (s : Dev) (x : List Collector) : ({ s with collectors := x } : Dev).ownAnswers = s.ownAnswers := rfl
theorem with_collectors_allocs (s : Dev) (x : List Collector) : ({ s with collectors := x } : Dev).allocs = s.allocs := rfl
theorem with_collectors_credit (s : Dev) (x : List Collector) : ({ s with collectors := x } : Dev).credit = s.credit := rfl
theorem with_collectors_lost (s : Dev) (x : List Collector) : ({ s with collectors := x } : Dev).lost = s.lost := rfl
theorem with_collectors_touched (s : Dev) (x : List Collector) : ({ s with collectors := x } : Dev).touched = s.touched := rfl
theorem with_collectors_cfgErr (s : Dev) (x : List Collector) : ({ s with collectors := x } : Dev).cfgErr = s.cfgErr := rfl
theorem with_collectors_uncharged (s : Dev) (x : List Collector) : ({ s with collectors := x } : Dev).uncharged = s.uncharged := rfl
theorem with_collectors_parked (s : Dev) (x : List Collector) : ({ s with collectors := x } : Dev).parked = s.parked := rfl
theorem with_collectors_groups (s : Dev) (x : List Collector) : ({ s with collectors := x } : Dev).groups = s.groups := rfl
theorem with_collectors_ctxs (s : Dev) (x : List Collector) : ({ s with collectors := x } : Dev).ctxs = s.ctxs := rfl
theorem with_collectors_released (s : Dev) (x : List Collector) : ({ s with collectors := x } : Dev).released = s.released := rfl
theorem with_collectors_gotten (s : Dev) (x : List Collector) : ({ s with collectors := x } : Dev).gotten = s.gotten := rfl
theorem with_collectors_lostNow (s : Dev) (x : List Collector) : ({ s with collectors := x } : Dev).lostNow = s.lostNow := rfl
theorem with_collectors_replays (s : Dev) (x : List Collector) : ({ s with collectors := x } : Dev).replays = s.replays := rfl
theorem with_collectors_inputs (s : Dev) (x : List Collector) : ({ s with collectors := x } : Dev).inputs = s.inputs := rfl
theorem with_collectors_works (s : Dev) (x : List Collector) : ({ s with collectors := x } : Dev).works = s.works := rfl
theorem with_collectors_routeInfo (s : Dev) (x : List Collector) : ({ s with collectors := x } : Dev).routeInfo = s.routeInfo := rfl
theorem with_collectors_batches (s : Dev) (x : List Collector) : ({ s with collectors := x } : Dev).batches = s.batches := rfl
theorem with_collectors_tableWorks (s : Dev) (x : List Collector) : ({ s with collectors := x } : Dev).tableWorks = s.tableWorks := rfl
theorem with_collectors_gathers (s : Dev) (x : List Collector) : ({ s with collectors := x } : Dev).gathers = s.gathers := rfl
theorem with_collectors_threads (s : Dev) (x : List Collector) : ({ s with collectors := x } : Dev).threads = s.threads := rfl
theorem with_collectors_cores (s : Dev) (x : List Collector) : ({ s with collectors := x } : Dev).cores = s.cores := rfl
theorem with_collectors_adapters (s : Dev) (x : List Collector) : ({ s with collectors := x } : Dev).adapters = s.adapters := rfl
theorem with_collectors_summary (s : Dev) (x : List Collector) : ({ s with collectors := x } : Dev).summary = s.summary := rfl
theorem with_collectors_fatal (s : Dev) (x : List Collector) : ({ s with collectors := x } : Dev).fatal = s.fatal := rfl
theorem with_collectors_tel (s : Dev) (x : List Collector) : ({ s with collectors := x } : Dev).tel = s.tel := rfl
theorem with_collectors_sec (s : Dev) (x : List Collector) : ({ s with collectors := x } : Dev).sec = s.sec := rfl
theorem with_collectors_ctl (s : Dev) (x : List Collector) : ({ s with collectors := x } : Dev).ctl = s.ctl := rfl
theorem with_collectors_pwr (s : Dev) (x : List Collector) : ({ s with collectors := x } : Dev).pwr = s.pwr := rfl
theorem with_collectors_nextId (s : Dev) (x : List Collector) : ({ s with collectors := x } : Dev).nextId = s.nextId := rfl
theorem with_collectors_fresh (s : Dev) (x : List Collector) : ({ s with collectors := x } : Dev).fresh = s.fresh := rfl
theorem with_collectors_sent (s : Dev) (x : List Collector) : ({ s with collectors := x } : Dev).sent = s.sent := rfl
theorem with_collectors_sig (s : Dev) (x : List Collector) : ({ s with collectors := x } : Dev).sig = s.sig := rfl

/-! ### A new value of `threads` -/

theorem with_threads_beat (s : Dev) (x : Map Thread) : ({ s with threads := x } : Dev).beat = s.beat := rfl
theorem with_threads_ticks (s : Dev) (x : Map Thread) : ({ s with threads := x } : Dev).ticks = s.ticks := rfl
theorem with_threads_live (s : Dev) (x : Map Thread) : ({ s with threads := x } : Dev).live = s.live := rfl
theorem with_threads_latches (s : Dev) (x : Map Thread) : ({ s with threads := x } : Dev).latches = s.latches := rfl
theorem with_threads_pairs (s : Dev) (x : Map Thread) : ({ s with threads := x } : Dev).pairs = s.pairs := rfl
theorem with_threads_staged (s : Dev) (x : Map Thread) : ({ s with threads := x } : Dev).staged = s.staged := rfl
theorem with_threads_active (s : Dev) (x : Map Thread) : ({ s with threads := x } : Dev).active = s.active := rfl
theorem with_threads_number (s : Dev) (x : Map Thread) : ({ s with threads := x } : Dev).number = s.number := rfl
theorem with_threads_previous (s : Dev) (x : Map Thread) : ({ s with threads := x } : Dev).previous = s.previous := rfl
theorem with_threads_retiring (s : Dev) (x : Map Thread) : ({ s with threads := x } : Dev).retiring = s.retiring := rfl
theorem with_threads_molt (s : Dev) (x : Map Thread) : ({ s with threads := x } : Dev).molt = s.molt := rfl
theorem with_threads_damaged (s : Dev) (x : Map Thread) : ({ s with threads := x } : Dev).damaged = s.damaged := rfl
theorem with_threads_audit (s : Dev) (x : Map Thread) : ({ s with threads := x } : Dev).audit = s.audit := rfl
theorem with_threads_mem (s : Dev) (x : Map Thread) : ({ s with threads := x } : Dev).mem = s.mem := rfl
theorem with_threads_memSt (s : Dev) (x : Map Thread) : ({ s with threads := x } : Dev).memSt = s.memSt := rfl
theorem with_threads_time (s : Dev) (x : Map Thread) : ({ s with threads := x } : Dev).time = s.time := rfl
theorem with_threads_alarms (s : Dev) (x : Map Thread) : ({ s with threads := x } : Dev).alarms = s.alarms := rfl
theorem with_threads_releases (s : Dev) (x : Map Thread) : ({ s with threads := x } : Dev).releases = s.releases := rfl
theorem with_threads_ports (s : Dev) (x : Map Thread) : ({ s with threads := x } : Dev).ports = s.ports := rfl
theorem with_threads_laneErr (s : Dev) (x : Map Thread) : ({ s with threads := x } : Dev).laneErr = s.laneErr := rfl
theorem with_threads_arrived (s : Dev) (x : Map Thread) : ({ s with threads := x } : Dev).arrived = s.arrived := rfl
theorem with_threads_mcasts (s : Dev) (x : Map Thread) : ({ s with threads := x } : Dev).mcasts = s.mcasts := rfl
theorem with_threads_stalled (s : Dev) (x : Map Thread) : ({ s with threads := x } : Dev).stalled = s.stalled := rfl
theorem with_threads_ownAnswers (s : Dev) (x : Map Thread) : ({ s with threads := x } : Dev).ownAnswers = s.ownAnswers := rfl
theorem with_threads_allocs (s : Dev) (x : Map Thread) : ({ s with threads := x } : Dev).allocs = s.allocs := rfl
theorem with_threads_credit (s : Dev) (x : Map Thread) : ({ s with threads := x } : Dev).credit = s.credit := rfl
theorem with_threads_lost (s : Dev) (x : Map Thread) : ({ s with threads := x } : Dev).lost = s.lost := rfl
theorem with_threads_touched (s : Dev) (x : Map Thread) : ({ s with threads := x } : Dev).touched = s.touched := rfl
theorem with_threads_cfgErr (s : Dev) (x : Map Thread) : ({ s with threads := x } : Dev).cfgErr = s.cfgErr := rfl
theorem with_threads_uncharged (s : Dev) (x : Map Thread) : ({ s with threads := x } : Dev).uncharged = s.uncharged := rfl
theorem with_threads_parked (s : Dev) (x : Map Thread) : ({ s with threads := x } : Dev).parked = s.parked := rfl
theorem with_threads_groups (s : Dev) (x : Map Thread) : ({ s with threads := x } : Dev).groups = s.groups := rfl
theorem with_threads_ctxs (s : Dev) (x : Map Thread) : ({ s with threads := x } : Dev).ctxs = s.ctxs := rfl
theorem with_threads_released (s : Dev) (x : Map Thread) : ({ s with threads := x } : Dev).released = s.released := rfl
theorem with_threads_gotten (s : Dev) (x : Map Thread) : ({ s with threads := x } : Dev).gotten = s.gotten := rfl
theorem with_threads_lostNow (s : Dev) (x : Map Thread) : ({ s with threads := x } : Dev).lostNow = s.lostNow := rfl
theorem with_threads_replays (s : Dev) (x : Map Thread) : ({ s with threads := x } : Dev).replays = s.replays := rfl
theorem with_threads_inputs (s : Dev) (x : Map Thread) : ({ s with threads := x } : Dev).inputs = s.inputs := rfl
theorem with_threads_works (s : Dev) (x : Map Thread) : ({ s with threads := x } : Dev).works = s.works := rfl
theorem with_threads_routeInfo (s : Dev) (x : Map Thread) : ({ s with threads := x } : Dev).routeInfo = s.routeInfo := rfl
theorem with_threads_batches (s : Dev) (x : Map Thread) : ({ s with threads := x } : Dev).batches = s.batches := rfl
theorem with_threads_tableWorks (s : Dev) (x : Map Thread) : ({ s with threads := x } : Dev).tableWorks = s.tableWorks := rfl
theorem with_threads_gathers (s : Dev) (x : Map Thread) : ({ s with threads := x } : Dev).gathers = s.gathers := rfl
theorem with_threads_cores (s : Dev) (x : Map Thread) : ({ s with threads := x } : Dev).cores = s.cores := rfl
theorem with_threads_adapters (s : Dev) (x : Map Thread) : ({ s with threads := x } : Dev).adapters = s.adapters := rfl
theorem with_threads_collectors (s : Dev) (x : Map Thread) : ({ s with threads := x } : Dev).collectors = s.collectors := rfl
theorem with_threads_summary (s : Dev) (x : Map Thread) : ({ s with threads := x } : Dev).summary = s.summary := rfl
theorem with_threads_fatal (s : Dev) (x : Map Thread) : ({ s with threads := x } : Dev).fatal = s.fatal := rfl
theorem with_threads_tel (s : Dev) (x : Map Thread) : ({ s with threads := x } : Dev).tel = s.tel := rfl
theorem with_threads_sec (s : Dev) (x : Map Thread) : ({ s with threads := x } : Dev).sec = s.sec := rfl
theorem with_threads_ctl (s : Dev) (x : Map Thread) : ({ s with threads := x } : Dev).ctl = s.ctl := rfl
theorem with_threads_pwr (s : Dev) (x : Map Thread) : ({ s with threads := x } : Dev).pwr = s.pwr := rfl
theorem with_threads_nextId (s : Dev) (x : Map Thread) : ({ s with threads := x } : Dev).nextId = s.nextId := rfl
theorem with_threads_fresh (s : Dev) (x : Map Thread) : ({ s with threads := x } : Dev).fresh = s.fresh := rfl
theorem with_threads_sent (s : Dev) (x : Map Thread) : ({ s with threads := x } : Dev).sent = s.sent := rfl
theorem with_threads_sig (s : Dev) (x : Map Thread) : ({ s with threads := x } : Dev).sig = s.sig := rfl

/-! ### A new value of `cores` -/

theorem with_cores_beat (s : Dev) (x : Map CoreSt) : ({ s with cores := x } : Dev).beat = s.beat := rfl
theorem with_cores_ticks (s : Dev) (x : Map CoreSt) : ({ s with cores := x } : Dev).ticks = s.ticks := rfl
theorem with_cores_live (s : Dev) (x : Map CoreSt) : ({ s with cores := x } : Dev).live = s.live := rfl
theorem with_cores_latches (s : Dev) (x : Map CoreSt) : ({ s with cores := x } : Dev).latches = s.latches := rfl
theorem with_cores_pairs (s : Dev) (x : Map CoreSt) : ({ s with cores := x } : Dev).pairs = s.pairs := rfl
theorem with_cores_staged (s : Dev) (x : Map CoreSt) : ({ s with cores := x } : Dev).staged = s.staged := rfl
theorem with_cores_active (s : Dev) (x : Map CoreSt) : ({ s with cores := x } : Dev).active = s.active := rfl
theorem with_cores_number (s : Dev) (x : Map CoreSt) : ({ s with cores := x } : Dev).number = s.number := rfl
theorem with_cores_previous (s : Dev) (x : Map CoreSt) : ({ s with cores := x } : Dev).previous = s.previous := rfl
theorem with_cores_retiring (s : Dev) (x : Map CoreSt) : ({ s with cores := x } : Dev).retiring = s.retiring := rfl
theorem with_cores_molt (s : Dev) (x : Map CoreSt) : ({ s with cores := x } : Dev).molt = s.molt := rfl
theorem with_cores_damaged (s : Dev) (x : Map CoreSt) : ({ s with cores := x } : Dev).damaged = s.damaged := rfl
theorem with_cores_audit (s : Dev) (x : Map CoreSt) : ({ s with cores := x } : Dev).audit = s.audit := rfl
theorem with_cores_mem (s : Dev) (x : Map CoreSt) : ({ s with cores := x } : Dev).mem = s.mem := rfl
theorem with_cores_memSt (s : Dev) (x : Map CoreSt) : ({ s with cores := x } : Dev).memSt = s.memSt := rfl
theorem with_cores_time (s : Dev) (x : Map CoreSt) : ({ s with cores := x } : Dev).time = s.time := rfl
theorem with_cores_alarms (s : Dev) (x : Map CoreSt) : ({ s with cores := x } : Dev).alarms = s.alarms := rfl
theorem with_cores_releases (s : Dev) (x : Map CoreSt) : ({ s with cores := x } : Dev).releases = s.releases := rfl
theorem with_cores_ports (s : Dev) (x : Map CoreSt) : ({ s with cores := x } : Dev).ports = s.ports := rfl
theorem with_cores_laneErr (s : Dev) (x : Map CoreSt) : ({ s with cores := x } : Dev).laneErr = s.laneErr := rfl
theorem with_cores_arrived (s : Dev) (x : Map CoreSt) : ({ s with cores := x } : Dev).arrived = s.arrived := rfl
theorem with_cores_mcasts (s : Dev) (x : Map CoreSt) : ({ s with cores := x } : Dev).mcasts = s.mcasts := rfl
theorem with_cores_stalled (s : Dev) (x : Map CoreSt) : ({ s with cores := x } : Dev).stalled = s.stalled := rfl
theorem with_cores_ownAnswers (s : Dev) (x : Map CoreSt) : ({ s with cores := x } : Dev).ownAnswers = s.ownAnswers := rfl
theorem with_cores_allocs (s : Dev) (x : Map CoreSt) : ({ s with cores := x } : Dev).allocs = s.allocs := rfl
theorem with_cores_credit (s : Dev) (x : Map CoreSt) : ({ s with cores := x } : Dev).credit = s.credit := rfl
theorem with_cores_lost (s : Dev) (x : Map CoreSt) : ({ s with cores := x } : Dev).lost = s.lost := rfl
theorem with_cores_touched (s : Dev) (x : Map CoreSt) : ({ s with cores := x } : Dev).touched = s.touched := rfl
theorem with_cores_cfgErr (s : Dev) (x : Map CoreSt) : ({ s with cores := x } : Dev).cfgErr = s.cfgErr := rfl
theorem with_cores_uncharged (s : Dev) (x : Map CoreSt) : ({ s with cores := x } : Dev).uncharged = s.uncharged := rfl
theorem with_cores_parked (s : Dev) (x : Map CoreSt) : ({ s with cores := x } : Dev).parked = s.parked := rfl
theorem with_cores_groups (s : Dev) (x : Map CoreSt) : ({ s with cores := x } : Dev).groups = s.groups := rfl
theorem with_cores_ctxs (s : Dev) (x : Map CoreSt) : ({ s with cores := x } : Dev).ctxs = s.ctxs := rfl
theorem with_cores_released (s : Dev) (x : Map CoreSt) : ({ s with cores := x } : Dev).released = s.released := rfl
theorem with_cores_gotten (s : Dev) (x : Map CoreSt) : ({ s with cores := x } : Dev).gotten = s.gotten := rfl
theorem with_cores_lostNow (s : Dev) (x : Map CoreSt) : ({ s with cores := x } : Dev).lostNow = s.lostNow := rfl
theorem with_cores_replays (s : Dev) (x : Map CoreSt) : ({ s with cores := x } : Dev).replays = s.replays := rfl
theorem with_cores_inputs (s : Dev) (x : Map CoreSt) : ({ s with cores := x } : Dev).inputs = s.inputs := rfl
theorem with_cores_works (s : Dev) (x : Map CoreSt) : ({ s with cores := x } : Dev).works = s.works := rfl
theorem with_cores_routeInfo (s : Dev) (x : Map CoreSt) : ({ s with cores := x } : Dev).routeInfo = s.routeInfo := rfl
theorem with_cores_batches (s : Dev) (x : Map CoreSt) : ({ s with cores := x } : Dev).batches = s.batches := rfl
theorem with_cores_tableWorks (s : Dev) (x : Map CoreSt) : ({ s with cores := x } : Dev).tableWorks = s.tableWorks := rfl
theorem with_cores_gathers (s : Dev) (x : Map CoreSt) : ({ s with cores := x } : Dev).gathers = s.gathers := rfl
theorem with_cores_threads (s : Dev) (x : Map CoreSt) : ({ s with cores := x } : Dev).threads = s.threads := rfl
theorem with_cores_adapters (s : Dev) (x : Map CoreSt) : ({ s with cores := x } : Dev).adapters = s.adapters := rfl
theorem with_cores_collectors (s : Dev) (x : Map CoreSt) : ({ s with cores := x } : Dev).collectors = s.collectors := rfl
theorem with_cores_summary (s : Dev) (x : Map CoreSt) : ({ s with cores := x } : Dev).summary = s.summary := rfl
theorem with_cores_fatal (s : Dev) (x : Map CoreSt) : ({ s with cores := x } : Dev).fatal = s.fatal := rfl
theorem with_cores_tel (s : Dev) (x : Map CoreSt) : ({ s with cores := x } : Dev).tel = s.tel := rfl
theorem with_cores_sec (s : Dev) (x : Map CoreSt) : ({ s with cores := x } : Dev).sec = s.sec := rfl
theorem with_cores_ctl (s : Dev) (x : Map CoreSt) : ({ s with cores := x } : Dev).ctl = s.ctl := rfl
theorem with_cores_pwr (s : Dev) (x : Map CoreSt) : ({ s with cores := x } : Dev).pwr = s.pwr := rfl
theorem with_cores_nextId (s : Dev) (x : Map CoreSt) : ({ s with cores := x } : Dev).nextId = s.nextId := rfl
theorem with_cores_fresh (s : Dev) (x : Map CoreSt) : ({ s with cores := x } : Dev).fresh = s.fresh := rfl
theorem with_cores_sent (s : Dev) (x : Map CoreSt) : ({ s with cores := x } : Dev).sent = s.sent := rfl
theorem with_cores_sig (s : Dev) (x : Map CoreSt) : ({ s with cores := x } : Dev).sig = s.sig := rfl

/-! ### A new value of `adapters` -/

theorem with_adapters_beat (s : Dev) (x : Map AdpQ) : ({ s with adapters := x } : Dev).beat = s.beat := rfl
theorem with_adapters_ticks (s : Dev) (x : Map AdpQ) : ({ s with adapters := x } : Dev).ticks = s.ticks := rfl
theorem with_adapters_live (s : Dev) (x : Map AdpQ) : ({ s with adapters := x } : Dev).live = s.live := rfl
theorem with_adapters_latches (s : Dev) (x : Map AdpQ) : ({ s with adapters := x } : Dev).latches = s.latches := rfl
theorem with_adapters_pairs (s : Dev) (x : Map AdpQ) : ({ s with adapters := x } : Dev).pairs = s.pairs := rfl
theorem with_adapters_staged (s : Dev) (x : Map AdpQ) : ({ s with adapters := x } : Dev).staged = s.staged := rfl
theorem with_adapters_active (s : Dev) (x : Map AdpQ) : ({ s with adapters := x } : Dev).active = s.active := rfl
theorem with_adapters_number (s : Dev) (x : Map AdpQ) : ({ s with adapters := x } : Dev).number = s.number := rfl
theorem with_adapters_previous (s : Dev) (x : Map AdpQ) : ({ s with adapters := x } : Dev).previous = s.previous := rfl
theorem with_adapters_retiring (s : Dev) (x : Map AdpQ) : ({ s with adapters := x } : Dev).retiring = s.retiring := rfl
theorem with_adapters_molt (s : Dev) (x : Map AdpQ) : ({ s with adapters := x } : Dev).molt = s.molt := rfl
theorem with_adapters_damaged (s : Dev) (x : Map AdpQ) : ({ s with adapters := x } : Dev).damaged = s.damaged := rfl
theorem with_adapters_audit (s : Dev) (x : Map AdpQ) : ({ s with adapters := x } : Dev).audit = s.audit := rfl
theorem with_adapters_mem (s : Dev) (x : Map AdpQ) : ({ s with adapters := x } : Dev).mem = s.mem := rfl
theorem with_adapters_memSt (s : Dev) (x : Map AdpQ) : ({ s with adapters := x } : Dev).memSt = s.memSt := rfl
theorem with_adapters_time (s : Dev) (x : Map AdpQ) : ({ s with adapters := x } : Dev).time = s.time := rfl
theorem with_adapters_alarms (s : Dev) (x : Map AdpQ) : ({ s with adapters := x } : Dev).alarms = s.alarms := rfl
theorem with_adapters_releases (s : Dev) (x : Map AdpQ) : ({ s with adapters := x } : Dev).releases = s.releases := rfl
theorem with_adapters_ports (s : Dev) (x : Map AdpQ) : ({ s with adapters := x } : Dev).ports = s.ports := rfl
theorem with_adapters_laneErr (s : Dev) (x : Map AdpQ) : ({ s with adapters := x } : Dev).laneErr = s.laneErr := rfl
theorem with_adapters_arrived (s : Dev) (x : Map AdpQ) : ({ s with adapters := x } : Dev).arrived = s.arrived := rfl
theorem with_adapters_mcasts (s : Dev) (x : Map AdpQ) : ({ s with adapters := x } : Dev).mcasts = s.mcasts := rfl
theorem with_adapters_stalled (s : Dev) (x : Map AdpQ) : ({ s with adapters := x } : Dev).stalled = s.stalled := rfl
theorem with_adapters_ownAnswers (s : Dev) (x : Map AdpQ) : ({ s with adapters := x } : Dev).ownAnswers = s.ownAnswers := rfl
theorem with_adapters_allocs (s : Dev) (x : Map AdpQ) : ({ s with adapters := x } : Dev).allocs = s.allocs := rfl
theorem with_adapters_credit (s : Dev) (x : Map AdpQ) : ({ s with adapters := x } : Dev).credit = s.credit := rfl
theorem with_adapters_lost (s : Dev) (x : Map AdpQ) : ({ s with adapters := x } : Dev).lost = s.lost := rfl
theorem with_adapters_touched (s : Dev) (x : Map AdpQ) : ({ s with adapters := x } : Dev).touched = s.touched := rfl
theorem with_adapters_cfgErr (s : Dev) (x : Map AdpQ) : ({ s with adapters := x } : Dev).cfgErr = s.cfgErr := rfl
theorem with_adapters_uncharged (s : Dev) (x : Map AdpQ) : ({ s with adapters := x } : Dev).uncharged = s.uncharged := rfl
theorem with_adapters_parked (s : Dev) (x : Map AdpQ) : ({ s with adapters := x } : Dev).parked = s.parked := rfl
theorem with_adapters_groups (s : Dev) (x : Map AdpQ) : ({ s with adapters := x } : Dev).groups = s.groups := rfl
theorem with_adapters_ctxs (s : Dev) (x : Map AdpQ) : ({ s with adapters := x } : Dev).ctxs = s.ctxs := rfl
theorem with_adapters_released (s : Dev) (x : Map AdpQ) : ({ s with adapters := x } : Dev).released = s.released := rfl
theorem with_adapters_gotten (s : Dev) (x : Map AdpQ) : ({ s with adapters := x } : Dev).gotten = s.gotten := rfl
theorem with_adapters_lostNow (s : Dev) (x : Map AdpQ) : ({ s with adapters := x } : Dev).lostNow = s.lostNow := rfl
theorem with_adapters_replays (s : Dev) (x : Map AdpQ) : ({ s with adapters := x } : Dev).replays = s.replays := rfl
theorem with_adapters_inputs (s : Dev) (x : Map AdpQ) : ({ s with adapters := x } : Dev).inputs = s.inputs := rfl
theorem with_adapters_works (s : Dev) (x : Map AdpQ) : ({ s with adapters := x } : Dev).works = s.works := rfl
theorem with_adapters_routeInfo (s : Dev) (x : Map AdpQ) : ({ s with adapters := x } : Dev).routeInfo = s.routeInfo := rfl
theorem with_adapters_batches (s : Dev) (x : Map AdpQ) : ({ s with adapters := x } : Dev).batches = s.batches := rfl
theorem with_adapters_tableWorks (s : Dev) (x : Map AdpQ) : ({ s with adapters := x } : Dev).tableWorks = s.tableWorks := rfl
theorem with_adapters_gathers (s : Dev) (x : Map AdpQ) : ({ s with adapters := x } : Dev).gathers = s.gathers := rfl
theorem with_adapters_threads (s : Dev) (x : Map AdpQ) : ({ s with adapters := x } : Dev).threads = s.threads := rfl
theorem with_adapters_cores (s : Dev) (x : Map AdpQ) : ({ s with adapters := x } : Dev).cores = s.cores := rfl
theorem with_adapters_collectors (s : Dev) (x : Map AdpQ) : ({ s with adapters := x } : Dev).collectors = s.collectors := rfl
theorem with_adapters_summary (s : Dev) (x : Map AdpQ) : ({ s with adapters := x } : Dev).summary = s.summary := rfl
theorem with_adapters_fatal (s : Dev) (x : Map AdpQ) : ({ s with adapters := x } : Dev).fatal = s.fatal := rfl
theorem with_adapters_tel (s : Dev) (x : Map AdpQ) : ({ s with adapters := x } : Dev).tel = s.tel := rfl
theorem with_adapters_sec (s : Dev) (x : Map AdpQ) : ({ s with adapters := x } : Dev).sec = s.sec := rfl
theorem with_adapters_ctl (s : Dev) (x : Map AdpQ) : ({ s with adapters := x } : Dev).ctl = s.ctl := rfl
theorem with_adapters_pwr (s : Dev) (x : Map AdpQ) : ({ s with adapters := x } : Dev).pwr = s.pwr := rfl
theorem with_adapters_nextId (s : Dev) (x : Map AdpQ) : ({ s with adapters := x } : Dev).nextId = s.nextId := rfl
theorem with_adapters_fresh (s : Dev) (x : Map AdpQ) : ({ s with adapters := x } : Dev).fresh = s.fresh := rfl
theorem with_adapters_sent (s : Dev) (x : Map AdpQ) : ({ s with adapters := x } : Dev).sent = s.sent := rfl
theorem with_adapters_sig (s : Dev) (x : Map AdpQ) : ({ s with adapters := x } : Dev).sig = s.sig := rfl

/-! ### A new value of `groups` -/

theorem with_groups_beat (s : Dev) (x : Map GroupSt) : ({ s with groups := x } : Dev).beat = s.beat := rfl
theorem with_groups_ticks (s : Dev) (x : Map GroupSt) : ({ s with groups := x } : Dev).ticks = s.ticks := rfl
theorem with_groups_live (s : Dev) (x : Map GroupSt) : ({ s with groups := x } : Dev).live = s.live := rfl
theorem with_groups_latches (s : Dev) (x : Map GroupSt) : ({ s with groups := x } : Dev).latches = s.latches := rfl
theorem with_groups_pairs (s : Dev) (x : Map GroupSt) : ({ s with groups := x } : Dev).pairs = s.pairs := rfl
theorem with_groups_staged (s : Dev) (x : Map GroupSt) : ({ s with groups := x } : Dev).staged = s.staged := rfl
theorem with_groups_active (s : Dev) (x : Map GroupSt) : ({ s with groups := x } : Dev).active = s.active := rfl
theorem with_groups_number (s : Dev) (x : Map GroupSt) : ({ s with groups := x } : Dev).number = s.number := rfl
theorem with_groups_previous (s : Dev) (x : Map GroupSt) : ({ s with groups := x } : Dev).previous = s.previous := rfl
theorem with_groups_retiring (s : Dev) (x : Map GroupSt) : ({ s with groups := x } : Dev).retiring = s.retiring := rfl
theorem with_groups_molt (s : Dev) (x : Map GroupSt) : ({ s with groups := x } : Dev).molt = s.molt := rfl
theorem with_groups_damaged (s : Dev) (x : Map GroupSt) : ({ s with groups := x } : Dev).damaged = s.damaged := rfl
theorem with_groups_audit (s : Dev) (x : Map GroupSt) : ({ s with groups := x } : Dev).audit = s.audit := rfl
theorem with_groups_mem (s : Dev) (x : Map GroupSt) : ({ s with groups := x } : Dev).mem = s.mem := rfl
theorem with_groups_memSt (s : Dev) (x : Map GroupSt) : ({ s with groups := x } : Dev).memSt = s.memSt := rfl
theorem with_groups_time (s : Dev) (x : Map GroupSt) : ({ s with groups := x } : Dev).time = s.time := rfl
theorem with_groups_alarms (s : Dev) (x : Map GroupSt) : ({ s with groups := x } : Dev).alarms = s.alarms := rfl
theorem with_groups_releases (s : Dev) (x : Map GroupSt) : ({ s with groups := x } : Dev).releases = s.releases := rfl
theorem with_groups_ports (s : Dev) (x : Map GroupSt) : ({ s with groups := x } : Dev).ports = s.ports := rfl
theorem with_groups_laneErr (s : Dev) (x : Map GroupSt) : ({ s with groups := x } : Dev).laneErr = s.laneErr := rfl
theorem with_groups_arrived (s : Dev) (x : Map GroupSt) : ({ s with groups := x } : Dev).arrived = s.arrived := rfl
theorem with_groups_mcasts (s : Dev) (x : Map GroupSt) : ({ s with groups := x } : Dev).mcasts = s.mcasts := rfl
theorem with_groups_stalled (s : Dev) (x : Map GroupSt) : ({ s with groups := x } : Dev).stalled = s.stalled := rfl
theorem with_groups_ownAnswers (s : Dev) (x : Map GroupSt) : ({ s with groups := x } : Dev).ownAnswers = s.ownAnswers := rfl
theorem with_groups_allocs (s : Dev) (x : Map GroupSt) : ({ s with groups := x } : Dev).allocs = s.allocs := rfl
theorem with_groups_credit (s : Dev) (x : Map GroupSt) : ({ s with groups := x } : Dev).credit = s.credit := rfl
theorem with_groups_lost (s : Dev) (x : Map GroupSt) : ({ s with groups := x } : Dev).lost = s.lost := rfl
theorem with_groups_touched (s : Dev) (x : Map GroupSt) : ({ s with groups := x } : Dev).touched = s.touched := rfl
theorem with_groups_cfgErr (s : Dev) (x : Map GroupSt) : ({ s with groups := x } : Dev).cfgErr = s.cfgErr := rfl
theorem with_groups_uncharged (s : Dev) (x : Map GroupSt) : ({ s with groups := x } : Dev).uncharged = s.uncharged := rfl
theorem with_groups_parked (s : Dev) (x : Map GroupSt) : ({ s with groups := x } : Dev).parked = s.parked := rfl
theorem with_groups_ctxs (s : Dev) (x : Map GroupSt) : ({ s with groups := x } : Dev).ctxs = s.ctxs := rfl
theorem with_groups_released (s : Dev) (x : Map GroupSt) : ({ s with groups := x } : Dev).released = s.released := rfl
theorem with_groups_gotten (s : Dev) (x : Map GroupSt) : ({ s with groups := x } : Dev).gotten = s.gotten := rfl
theorem with_groups_lostNow (s : Dev) (x : Map GroupSt) : ({ s with groups := x } : Dev).lostNow = s.lostNow := rfl
theorem with_groups_replays (s : Dev) (x : Map GroupSt) : ({ s with groups := x } : Dev).replays = s.replays := rfl
theorem with_groups_inputs (s : Dev) (x : Map GroupSt) : ({ s with groups := x } : Dev).inputs = s.inputs := rfl
theorem with_groups_works (s : Dev) (x : Map GroupSt) : ({ s with groups := x } : Dev).works = s.works := rfl
theorem with_groups_routeInfo (s : Dev) (x : Map GroupSt) : ({ s with groups := x } : Dev).routeInfo = s.routeInfo := rfl
theorem with_groups_batches (s : Dev) (x : Map GroupSt) : ({ s with groups := x } : Dev).batches = s.batches := rfl
theorem with_groups_tableWorks (s : Dev) (x : Map GroupSt) : ({ s with groups := x } : Dev).tableWorks = s.tableWorks := rfl
theorem with_groups_gathers (s : Dev) (x : Map GroupSt) : ({ s with groups := x } : Dev).gathers = s.gathers := rfl
theorem with_groups_threads (s : Dev) (x : Map GroupSt) : ({ s with groups := x } : Dev).threads = s.threads := rfl
theorem with_groups_cores (s : Dev) (x : Map GroupSt) : ({ s with groups := x } : Dev).cores = s.cores := rfl
theorem with_groups_adapters (s : Dev) (x : Map GroupSt) : ({ s with groups := x } : Dev).adapters = s.adapters := rfl
theorem with_groups_collectors (s : Dev) (x : Map GroupSt) : ({ s with groups := x } : Dev).collectors = s.collectors := rfl
theorem with_groups_summary (s : Dev) (x : Map GroupSt) : ({ s with groups := x } : Dev).summary = s.summary := rfl
theorem with_groups_fatal (s : Dev) (x : Map GroupSt) : ({ s with groups := x } : Dev).fatal = s.fatal := rfl
theorem with_groups_tel (s : Dev) (x : Map GroupSt) : ({ s with groups := x } : Dev).tel = s.tel := rfl
theorem with_groups_sec (s : Dev) (x : Map GroupSt) : ({ s with groups := x } : Dev).sec = s.sec := rfl
theorem with_groups_ctl (s : Dev) (x : Map GroupSt) : ({ s with groups := x } : Dev).ctl = s.ctl := rfl
theorem with_groups_pwr (s : Dev) (x : Map GroupSt) : ({ s with groups := x } : Dev).pwr = s.pwr := rfl
theorem with_groups_nextId (s : Dev) (x : Map GroupSt) : ({ s with groups := x } : Dev).nextId = s.nextId := rfl
theorem with_groups_fresh (s : Dev) (x : Map GroupSt) : ({ s with groups := x } : Dev).fresh = s.fresh := rfl
theorem with_groups_sent (s : Dev) (x : Map GroupSt) : ({ s with groups := x } : Dev).sent = s.sent := rfl
theorem with_groups_sig (s : Dev) (x : Map GroupSt) : ({ s with groups := x } : Dev).sig = s.sig := rfl

/-! ### A new value of `ctxs` -/

theorem with_ctxs_beat (s : Dev) (x : List Ctx) : ({ s with ctxs := x } : Dev).beat = s.beat := rfl
theorem with_ctxs_ticks (s : Dev) (x : List Ctx) : ({ s with ctxs := x } : Dev).ticks = s.ticks := rfl
theorem with_ctxs_live (s : Dev) (x : List Ctx) : ({ s with ctxs := x } : Dev).live = s.live := rfl
theorem with_ctxs_latches (s : Dev) (x : List Ctx) : ({ s with ctxs := x } : Dev).latches = s.latches := rfl
theorem with_ctxs_pairs (s : Dev) (x : List Ctx) : ({ s with ctxs := x } : Dev).pairs = s.pairs := rfl
theorem with_ctxs_staged (s : Dev) (x : List Ctx) : ({ s with ctxs := x } : Dev).staged = s.staged := rfl
theorem with_ctxs_active (s : Dev) (x : List Ctx) : ({ s with ctxs := x } : Dev).active = s.active := rfl
theorem with_ctxs_number (s : Dev) (x : List Ctx) : ({ s with ctxs := x } : Dev).number = s.number := rfl
theorem with_ctxs_previous (s : Dev) (x : List Ctx) : ({ s with ctxs := x } : Dev).previous = s.previous := rfl
theorem with_ctxs_retiring (s : Dev) (x : List Ctx) : ({ s with ctxs := x } : Dev).retiring = s.retiring := rfl
theorem with_ctxs_molt (s : Dev) (x : List Ctx) : ({ s with ctxs := x } : Dev).molt = s.molt := rfl
theorem with_ctxs_damaged (s : Dev) (x : List Ctx) : ({ s with ctxs := x } : Dev).damaged = s.damaged := rfl
theorem with_ctxs_audit (s : Dev) (x : List Ctx) : ({ s with ctxs := x } : Dev).audit = s.audit := rfl
theorem with_ctxs_mem (s : Dev) (x : List Ctx) : ({ s with ctxs := x } : Dev).mem = s.mem := rfl
theorem with_ctxs_memSt (s : Dev) (x : List Ctx) : ({ s with ctxs := x } : Dev).memSt = s.memSt := rfl
theorem with_ctxs_time (s : Dev) (x : List Ctx) : ({ s with ctxs := x } : Dev).time = s.time := rfl
theorem with_ctxs_alarms (s : Dev) (x : List Ctx) : ({ s with ctxs := x } : Dev).alarms = s.alarms := rfl
theorem with_ctxs_releases (s : Dev) (x : List Ctx) : ({ s with ctxs := x } : Dev).releases = s.releases := rfl
theorem with_ctxs_ports (s : Dev) (x : List Ctx) : ({ s with ctxs := x } : Dev).ports = s.ports := rfl
theorem with_ctxs_laneErr (s : Dev) (x : List Ctx) : ({ s with ctxs := x } : Dev).laneErr = s.laneErr := rfl
theorem with_ctxs_arrived (s : Dev) (x : List Ctx) : ({ s with ctxs := x } : Dev).arrived = s.arrived := rfl
theorem with_ctxs_mcasts (s : Dev) (x : List Ctx) : ({ s with ctxs := x } : Dev).mcasts = s.mcasts := rfl
theorem with_ctxs_stalled (s : Dev) (x : List Ctx) : ({ s with ctxs := x } : Dev).stalled = s.stalled := rfl
theorem with_ctxs_ownAnswers (s : Dev) (x : List Ctx) : ({ s with ctxs := x } : Dev).ownAnswers = s.ownAnswers := rfl
theorem with_ctxs_allocs (s : Dev) (x : List Ctx) : ({ s with ctxs := x } : Dev).allocs = s.allocs := rfl
theorem with_ctxs_credit (s : Dev) (x : List Ctx) : ({ s with ctxs := x } : Dev).credit = s.credit := rfl
theorem with_ctxs_lost (s : Dev) (x : List Ctx) : ({ s with ctxs := x } : Dev).lost = s.lost := rfl
theorem with_ctxs_touched (s : Dev) (x : List Ctx) : ({ s with ctxs := x } : Dev).touched = s.touched := rfl
theorem with_ctxs_cfgErr (s : Dev) (x : List Ctx) : ({ s with ctxs := x } : Dev).cfgErr = s.cfgErr := rfl
theorem with_ctxs_uncharged (s : Dev) (x : List Ctx) : ({ s with ctxs := x } : Dev).uncharged = s.uncharged := rfl
theorem with_ctxs_parked (s : Dev) (x : List Ctx) : ({ s with ctxs := x } : Dev).parked = s.parked := rfl
theorem with_ctxs_groups (s : Dev) (x : List Ctx) : ({ s with ctxs := x } : Dev).groups = s.groups := rfl
theorem with_ctxs_released (s : Dev) (x : List Ctx) : ({ s with ctxs := x } : Dev).released = s.released := rfl
theorem with_ctxs_gotten (s : Dev) (x : List Ctx) : ({ s with ctxs := x } : Dev).gotten = s.gotten := rfl
theorem with_ctxs_lostNow (s : Dev) (x : List Ctx) : ({ s with ctxs := x } : Dev).lostNow = s.lostNow := rfl
theorem with_ctxs_replays (s : Dev) (x : List Ctx) : ({ s with ctxs := x } : Dev).replays = s.replays := rfl
theorem with_ctxs_inputs (s : Dev) (x : List Ctx) : ({ s with ctxs := x } : Dev).inputs = s.inputs := rfl
theorem with_ctxs_works (s : Dev) (x : List Ctx) : ({ s with ctxs := x } : Dev).works = s.works := rfl
theorem with_ctxs_routeInfo (s : Dev) (x : List Ctx) : ({ s with ctxs := x } : Dev).routeInfo = s.routeInfo := rfl
theorem with_ctxs_batches (s : Dev) (x : List Ctx) : ({ s with ctxs := x } : Dev).batches = s.batches := rfl
theorem with_ctxs_tableWorks (s : Dev) (x : List Ctx) : ({ s with ctxs := x } : Dev).tableWorks = s.tableWorks := rfl
theorem with_ctxs_gathers (s : Dev) (x : List Ctx) : ({ s with ctxs := x } : Dev).gathers = s.gathers := rfl
theorem with_ctxs_threads (s : Dev) (x : List Ctx) : ({ s with ctxs := x } : Dev).threads = s.threads := rfl
theorem with_ctxs_cores (s : Dev) (x : List Ctx) : ({ s with ctxs := x } : Dev).cores = s.cores := rfl
theorem with_ctxs_adapters (s : Dev) (x : List Ctx) : ({ s with ctxs := x } : Dev).adapters = s.adapters := rfl
theorem with_ctxs_collectors (s : Dev) (x : List Ctx) : ({ s with ctxs := x } : Dev).collectors = s.collectors := rfl
theorem with_ctxs_summary (s : Dev) (x : List Ctx) : ({ s with ctxs := x } : Dev).summary = s.summary := rfl
theorem with_ctxs_fatal (s : Dev) (x : List Ctx) : ({ s with ctxs := x } : Dev).fatal = s.fatal := rfl
theorem with_ctxs_tel (s : Dev) (x : List Ctx) : ({ s with ctxs := x } : Dev).tel = s.tel := rfl
theorem with_ctxs_sec (s : Dev) (x : List Ctx) : ({ s with ctxs := x } : Dev).sec = s.sec := rfl
theorem with_ctxs_ctl (s : Dev) (x : List Ctx) : ({ s with ctxs := x } : Dev).ctl = s.ctl := rfl
theorem with_ctxs_pwr (s : Dev) (x : List Ctx) : ({ s with ctxs := x } : Dev).pwr = s.pwr := rfl
theorem with_ctxs_nextId (s : Dev) (x : List Ctx) : ({ s with ctxs := x } : Dev).nextId = s.nextId := rfl
theorem with_ctxs_fresh (s : Dev) (x : List Ctx) : ({ s with ctxs := x } : Dev).fresh = s.fresh := rfl
theorem with_ctxs_sent (s : Dev) (x : List Ctx) : ({ s with ctxs := x } : Dev).sent = s.sent := rfl
theorem with_ctxs_sig (s : Dev) (x : List Ctx) : ({ s with ctxs := x } : Dev).sig = s.sig := rfl

/-! ### A new value of `credit` -/

theorem with_credit_beat (s : Dev) (x : Map Nat) : ({ s with credit := x } : Dev).beat = s.beat := rfl
theorem with_credit_ticks (s : Dev) (x : Map Nat) : ({ s with credit := x } : Dev).ticks = s.ticks := rfl
theorem with_credit_live (s : Dev) (x : Map Nat) : ({ s with credit := x } : Dev).live = s.live := rfl
theorem with_credit_latches (s : Dev) (x : Map Nat) : ({ s with credit := x } : Dev).latches = s.latches := rfl
theorem with_credit_pairs (s : Dev) (x : Map Nat) : ({ s with credit := x } : Dev).pairs = s.pairs := rfl
theorem with_credit_staged (s : Dev) (x : Map Nat) : ({ s with credit := x } : Dev).staged = s.staged := rfl
theorem with_credit_active (s : Dev) (x : Map Nat) : ({ s with credit := x } : Dev).active = s.active := rfl
theorem with_credit_number (s : Dev) (x : Map Nat) : ({ s with credit := x } : Dev).number = s.number := rfl
theorem with_credit_previous (s : Dev) (x : Map Nat) : ({ s with credit := x } : Dev).previous = s.previous := rfl
theorem with_credit_retiring (s : Dev) (x : Map Nat) : ({ s with credit := x } : Dev).retiring = s.retiring := rfl
theorem with_credit_molt (s : Dev) (x : Map Nat) : ({ s with credit := x } : Dev).molt = s.molt := rfl
theorem with_credit_damaged (s : Dev) (x : Map Nat) : ({ s with credit := x } : Dev).damaged = s.damaged := rfl
theorem with_credit_audit (s : Dev) (x : Map Nat) : ({ s with credit := x } : Dev).audit = s.audit := rfl
theorem with_credit_mem (s : Dev) (x : Map Nat) : ({ s with credit := x } : Dev).mem = s.mem := rfl
theorem with_credit_memSt (s : Dev) (x : Map Nat) : ({ s with credit := x } : Dev).memSt = s.memSt := rfl
theorem with_credit_time (s : Dev) (x : Map Nat) : ({ s with credit := x } : Dev).time = s.time := rfl
theorem with_credit_alarms (s : Dev) (x : Map Nat) : ({ s with credit := x } : Dev).alarms = s.alarms := rfl
theorem with_credit_releases (s : Dev) (x : Map Nat) : ({ s with credit := x } : Dev).releases = s.releases := rfl
theorem with_credit_ports (s : Dev) (x : Map Nat) : ({ s with credit := x } : Dev).ports = s.ports := rfl
theorem with_credit_laneErr (s : Dev) (x : Map Nat) : ({ s with credit := x } : Dev).laneErr = s.laneErr := rfl
theorem with_credit_arrived (s : Dev) (x : Map Nat) : ({ s with credit := x } : Dev).arrived = s.arrived := rfl
theorem with_credit_mcasts (s : Dev) (x : Map Nat) : ({ s with credit := x } : Dev).mcasts = s.mcasts := rfl
theorem with_credit_stalled (s : Dev) (x : Map Nat) : ({ s with credit := x } : Dev).stalled = s.stalled := rfl
theorem with_credit_ownAnswers (s : Dev) (x : Map Nat) : ({ s with credit := x } : Dev).ownAnswers = s.ownAnswers := rfl
theorem with_credit_allocs (s : Dev) (x : Map Nat) : ({ s with credit := x } : Dev).allocs = s.allocs := rfl
theorem with_credit_lost (s : Dev) (x : Map Nat) : ({ s with credit := x } : Dev).lost = s.lost := rfl
theorem with_credit_touched (s : Dev) (x : Map Nat) : ({ s with credit := x } : Dev).touched = s.touched := rfl
theorem with_credit_cfgErr (s : Dev) (x : Map Nat) : ({ s with credit := x } : Dev).cfgErr = s.cfgErr := rfl
theorem with_credit_uncharged (s : Dev) (x : Map Nat) : ({ s with credit := x } : Dev).uncharged = s.uncharged := rfl
theorem with_credit_parked (s : Dev) (x : Map Nat) : ({ s with credit := x } : Dev).parked = s.parked := rfl
theorem with_credit_groups (s : Dev) (x : Map Nat) : ({ s with credit := x } : Dev).groups = s.groups := rfl
theorem with_credit_ctxs (s : Dev) (x : Map Nat) : ({ s with credit := x } : Dev).ctxs = s.ctxs := rfl
theorem with_credit_released (s : Dev) (x : Map Nat) : ({ s with credit := x } : Dev).released = s.released := rfl
theorem with_credit_gotten (s : Dev) (x : Map Nat) : ({ s with credit := x } : Dev).gotten = s.gotten := rfl
theorem with_credit_lostNow (s : Dev) (x : Map Nat) : ({ s with credit := x } : Dev).lostNow = s.lostNow := rfl
theorem with_credit_replays (s : Dev) (x : Map Nat) : ({ s with credit := x } : Dev).replays = s.replays := rfl
theorem with_credit_inputs (s : Dev) (x : Map Nat) : ({ s with credit := x } : Dev).inputs = s.inputs := rfl
theorem with_credit_works (s : Dev) (x : Map Nat) : ({ s with credit := x } : Dev).works = s.works := rfl
theorem with_credit_routeInfo (s : Dev) (x : Map Nat) : ({ s with credit := x } : Dev).routeInfo = s.routeInfo := rfl
theorem with_credit_batches (s : Dev) (x : Map Nat) : ({ s with credit := x } : Dev).batches = s.batches := rfl
theorem with_credit_tableWorks (s : Dev) (x : Map Nat) : ({ s with credit := x } : Dev).tableWorks = s.tableWorks := rfl
theorem with_credit_gathers (s : Dev) (x : Map Nat) : ({ s with credit := x } : Dev).gathers = s.gathers := rfl
theorem with_credit_threads (s : Dev) (x : Map Nat) : ({ s with credit := x } : Dev).threads = s.threads := rfl
theorem with_credit_cores (s : Dev) (x : Map Nat) : ({ s with credit := x } : Dev).cores = s.cores := rfl
theorem with_credit_adapters (s : Dev) (x : Map Nat) : ({ s with credit := x } : Dev).adapters = s.adapters := rfl
theorem with_credit_collectors (s : Dev) (x : Map Nat) : ({ s with credit := x } : Dev).collectors = s.collectors := rfl
theorem with_credit_summary (s : Dev) (x : Map Nat) : ({ s with credit := x } : Dev).summary = s.summary := rfl
theorem with_credit_fatal (s : Dev) (x : Map Nat) : ({ s with credit := x } : Dev).fatal = s.fatal := rfl
theorem with_credit_tel (s : Dev) (x : Map Nat) : ({ s with credit := x } : Dev).tel = s.tel := rfl
theorem with_credit_sec (s : Dev) (x : Map Nat) : ({ s with credit := x } : Dev).sec = s.sec := rfl
theorem with_credit_ctl (s : Dev) (x : Map Nat) : ({ s with credit := x } : Dev).ctl = s.ctl := rfl
theorem with_credit_pwr (s : Dev) (x : Map Nat) : ({ s with credit := x } : Dev).pwr = s.pwr := rfl
theorem with_credit_nextId (s : Dev) (x : Map Nat) : ({ s with credit := x } : Dev).nextId = s.nextId := rfl
theorem with_credit_fresh (s : Dev) (x : Map Nat) : ({ s with credit := x } : Dev).fresh = s.fresh := rfl
theorem with_credit_sent (s : Dev) (x : Map Nat) : ({ s with credit := x } : Dev).sent = s.sent := rfl
theorem with_credit_sig (s : Dev) (x : Map Nat) : ({ s with credit := x } : Dev).sig = s.sig := rfl

/-! ### A new value of `ctl` -/

theorem with_ctl_beat (s : Dev) (x : CtlSt) : ({ s with ctl := x } : Dev).beat = s.beat := rfl
theorem with_ctl_ticks (s : Dev) (x : CtlSt) : ({ s with ctl := x } : Dev).ticks = s.ticks := rfl
theorem with_ctl_live (s : Dev) (x : CtlSt) : ({ s with ctl := x } : Dev).live = s.live := rfl
theorem with_ctl_latches (s : Dev) (x : CtlSt) : ({ s with ctl := x } : Dev).latches = s.latches := rfl
theorem with_ctl_pairs (s : Dev) (x : CtlSt) : ({ s with ctl := x } : Dev).pairs = s.pairs := rfl
theorem with_ctl_staged (s : Dev) (x : CtlSt) : ({ s with ctl := x } : Dev).staged = s.staged := rfl
theorem with_ctl_active (s : Dev) (x : CtlSt) : ({ s with ctl := x } : Dev).active = s.active := rfl
theorem with_ctl_number (s : Dev) (x : CtlSt) : ({ s with ctl := x } : Dev).number = s.number := rfl
theorem with_ctl_previous (s : Dev) (x : CtlSt) : ({ s with ctl := x } : Dev).previous = s.previous := rfl
theorem with_ctl_retiring (s : Dev) (x : CtlSt) : ({ s with ctl := x } : Dev).retiring = s.retiring := rfl
theorem with_ctl_molt (s : Dev) (x : CtlSt) : ({ s with ctl := x } : Dev).molt = s.molt := rfl
theorem with_ctl_damaged (s : Dev) (x : CtlSt) : ({ s with ctl := x } : Dev).damaged = s.damaged := rfl
theorem with_ctl_audit (s : Dev) (x : CtlSt) : ({ s with ctl := x } : Dev).audit = s.audit := rfl
theorem with_ctl_mem (s : Dev) (x : CtlSt) : ({ s with ctl := x } : Dev).mem = s.mem := rfl
theorem with_ctl_memSt (s : Dev) (x : CtlSt) : ({ s with ctl := x } : Dev).memSt = s.memSt := rfl
theorem with_ctl_time (s : Dev) (x : CtlSt) : ({ s with ctl := x } : Dev).time = s.time := rfl
theorem with_ctl_alarms (s : Dev) (x : CtlSt) : ({ s with ctl := x } : Dev).alarms = s.alarms := rfl
theorem with_ctl_releases (s : Dev) (x : CtlSt) : ({ s with ctl := x } : Dev).releases = s.releases := rfl
theorem with_ctl_ports (s : Dev) (x : CtlSt) : ({ s with ctl := x } : Dev).ports = s.ports := rfl
theorem with_ctl_laneErr (s : Dev) (x : CtlSt) : ({ s with ctl := x } : Dev).laneErr = s.laneErr := rfl
theorem with_ctl_arrived (s : Dev) (x : CtlSt) : ({ s with ctl := x } : Dev).arrived = s.arrived := rfl
theorem with_ctl_mcasts (s : Dev) (x : CtlSt) : ({ s with ctl := x } : Dev).mcasts = s.mcasts := rfl
theorem with_ctl_stalled (s : Dev) (x : CtlSt) : ({ s with ctl := x } : Dev).stalled = s.stalled := rfl
theorem with_ctl_ownAnswers (s : Dev) (x : CtlSt) : ({ s with ctl := x } : Dev).ownAnswers = s.ownAnswers := rfl
theorem with_ctl_allocs (s : Dev) (x : CtlSt) : ({ s with ctl := x } : Dev).allocs = s.allocs := rfl
theorem with_ctl_credit (s : Dev) (x : CtlSt) : ({ s with ctl := x } : Dev).credit = s.credit := rfl
theorem with_ctl_lost (s : Dev) (x : CtlSt) : ({ s with ctl := x } : Dev).lost = s.lost := rfl
theorem with_ctl_touched (s : Dev) (x : CtlSt) : ({ s with ctl := x } : Dev).touched = s.touched := rfl
theorem with_ctl_cfgErr (s : Dev) (x : CtlSt) : ({ s with ctl := x } : Dev).cfgErr = s.cfgErr := rfl
theorem with_ctl_uncharged (s : Dev) (x : CtlSt) : ({ s with ctl := x } : Dev).uncharged = s.uncharged := rfl
theorem with_ctl_parked (s : Dev) (x : CtlSt) : ({ s with ctl := x } : Dev).parked = s.parked := rfl
theorem with_ctl_groups (s : Dev) (x : CtlSt) : ({ s with ctl := x } : Dev).groups = s.groups := rfl
theorem with_ctl_ctxs (s : Dev) (x : CtlSt) : ({ s with ctl := x } : Dev).ctxs = s.ctxs := rfl
theorem with_ctl_released (s : Dev) (x : CtlSt) : ({ s with ctl := x } : Dev).released = s.released := rfl
theorem with_ctl_gotten (s : Dev) (x : CtlSt) : ({ s with ctl := x } : Dev).gotten = s.gotten := rfl
theorem with_ctl_lostNow (s : Dev) (x : CtlSt) : ({ s with ctl := x } : Dev).lostNow = s.lostNow := rfl
theorem with_ctl_replays (s : Dev) (x : CtlSt) : ({ s with ctl := x } : Dev).replays = s.replays := rfl
theorem with_ctl_inputs (s : Dev) (x : CtlSt) : ({ s with ctl := x } : Dev).inputs = s.inputs := rfl
theorem with_ctl_works (s : Dev) (x : CtlSt) : ({ s with ctl := x } : Dev).works = s.works := rfl
theorem with_ctl_routeInfo (s : Dev) (x : CtlSt) : ({ s with ctl := x } : Dev).routeInfo = s.routeInfo := rfl
theorem with_ctl_batches (s : Dev) (x : CtlSt) : ({ s with ctl := x } : Dev).batches = s.batches := rfl
theorem with_ctl_tableWorks (s : Dev) (x : CtlSt) : ({ s with ctl := x } : Dev).tableWorks = s.tableWorks := rfl
theorem with_ctl_gathers (s : Dev) (x : CtlSt) : ({ s with ctl := x } : Dev).gathers = s.gathers := rfl
theorem with_ctl_threads (s : Dev) (x : CtlSt) : ({ s with ctl := x } : Dev).threads = s.threads := rfl
theorem with_ctl_cores (s : Dev) (x : CtlSt) : ({ s with ctl := x } : Dev).cores = s.cores := rfl
theorem with_ctl_adapters (s : Dev) (x : CtlSt) : ({ s with ctl := x } : Dev).adapters = s.adapters := rfl
theorem with_ctl_collectors (s : Dev) (x : CtlSt) : ({ s with ctl := x } : Dev).collectors = s.collectors := rfl
theorem with_ctl_summary (s : Dev) (x : CtlSt) : ({ s with ctl := x } : Dev).summary = s.summary := rfl
theorem with_ctl_fatal (s : Dev) (x : CtlSt) : ({ s with ctl := x } : Dev).fatal = s.fatal := rfl
theorem with_ctl_tel (s : Dev) (x : CtlSt) : ({ s with ctl := x } : Dev).tel = s.tel := rfl
theorem with_ctl_sec (s : Dev) (x : CtlSt) : ({ s with ctl := x } : Dev).sec = s.sec := rfl
theorem with_ctl_pwr (s : Dev) (x : CtlSt) : ({ s with ctl := x } : Dev).pwr = s.pwr := rfl
theorem with_ctl_nextId (s : Dev) (x : CtlSt) : ({ s with ctl := x } : Dev).nextId = s.nextId := rfl
theorem with_ctl_fresh (s : Dev) (x : CtlSt) : ({ s with ctl := x } : Dev).fresh = s.fresh := rfl
theorem with_ctl_sent (s : Dev) (x : CtlSt) : ({ s with ctl := x } : Dev).sent = s.sent := rfl
theorem with_ctl_sig (s : Dev) (x : CtlSt) : ({ s with ctl := x } : Dev).sig = s.sig := rfl

/-! ### A new value of `sig` -/

theorem with_sig_beat (s : Dev) (x : Signals) : ({ s with sig := x } : Dev).beat = s.beat := rfl
theorem with_sig_ticks (s : Dev) (x : Signals) : ({ s with sig := x } : Dev).ticks = s.ticks := rfl
theorem with_sig_live (s : Dev) (x : Signals) : ({ s with sig := x } : Dev).live = s.live := rfl
theorem with_sig_latches (s : Dev) (x : Signals) : ({ s with sig := x } : Dev).latches = s.latches := rfl
theorem with_sig_pairs (s : Dev) (x : Signals) : ({ s with sig := x } : Dev).pairs = s.pairs := rfl
theorem with_sig_staged (s : Dev) (x : Signals) : ({ s with sig := x } : Dev).staged = s.staged := rfl
theorem with_sig_active (s : Dev) (x : Signals) : ({ s with sig := x } : Dev).active = s.active := rfl
theorem with_sig_number (s : Dev) (x : Signals) : ({ s with sig := x } : Dev).number = s.number := rfl
theorem with_sig_previous (s : Dev) (x : Signals) : ({ s with sig := x } : Dev).previous = s.previous := rfl
theorem with_sig_retiring (s : Dev) (x : Signals) : ({ s with sig := x } : Dev).retiring = s.retiring := rfl
theorem with_sig_molt (s : Dev) (x : Signals) : ({ s with sig := x } : Dev).molt = s.molt := rfl
theorem with_sig_damaged (s : Dev) (x : Signals) : ({ s with sig := x } : Dev).damaged = s.damaged := rfl
theorem with_sig_audit (s : Dev) (x : Signals) : ({ s with sig := x } : Dev).audit = s.audit := rfl
theorem with_sig_mem (s : Dev) (x : Signals) : ({ s with sig := x } : Dev).mem = s.mem := rfl
theorem with_sig_memSt (s : Dev) (x : Signals) : ({ s with sig := x } : Dev).memSt = s.memSt := rfl
theorem with_sig_time (s : Dev) (x : Signals) : ({ s with sig := x } : Dev).time = s.time := rfl
theorem with_sig_alarms (s : Dev) (x : Signals) : ({ s with sig := x } : Dev).alarms = s.alarms := rfl
theorem with_sig_releases (s : Dev) (x : Signals) : ({ s with sig := x } : Dev).releases = s.releases := rfl
theorem with_sig_ports (s : Dev) (x : Signals) : ({ s with sig := x } : Dev).ports = s.ports := rfl
theorem with_sig_laneErr (s : Dev) (x : Signals) : ({ s with sig := x } : Dev).laneErr = s.laneErr := rfl
theorem with_sig_arrived (s : Dev) (x : Signals) : ({ s with sig := x } : Dev).arrived = s.arrived := rfl
theorem with_sig_mcasts (s : Dev) (x : Signals) : ({ s with sig := x } : Dev).mcasts = s.mcasts := rfl
theorem with_sig_stalled (s : Dev) (x : Signals) : ({ s with sig := x } : Dev).stalled = s.stalled := rfl
theorem with_sig_ownAnswers (s : Dev) (x : Signals) : ({ s with sig := x } : Dev).ownAnswers = s.ownAnswers := rfl
theorem with_sig_allocs (s : Dev) (x : Signals) : ({ s with sig := x } : Dev).allocs = s.allocs := rfl
theorem with_sig_credit (s : Dev) (x : Signals) : ({ s with sig := x } : Dev).credit = s.credit := rfl
theorem with_sig_lost (s : Dev) (x : Signals) : ({ s with sig := x } : Dev).lost = s.lost := rfl
theorem with_sig_touched (s : Dev) (x : Signals) : ({ s with sig := x } : Dev).touched = s.touched := rfl
theorem with_sig_cfgErr (s : Dev) (x : Signals) : ({ s with sig := x } : Dev).cfgErr = s.cfgErr := rfl
theorem with_sig_uncharged (s : Dev) (x : Signals) : ({ s with sig := x } : Dev).uncharged = s.uncharged := rfl
theorem with_sig_parked (s : Dev) (x : Signals) : ({ s with sig := x } : Dev).parked = s.parked := rfl
theorem with_sig_groups (s : Dev) (x : Signals) : ({ s with sig := x } : Dev).groups = s.groups := rfl
theorem with_sig_ctxs (s : Dev) (x : Signals) : ({ s with sig := x } : Dev).ctxs = s.ctxs := rfl
theorem with_sig_released (s : Dev) (x : Signals) : ({ s with sig := x } : Dev).released = s.released := rfl
theorem with_sig_gotten (s : Dev) (x : Signals) : ({ s with sig := x } : Dev).gotten = s.gotten := rfl
theorem with_sig_lostNow (s : Dev) (x : Signals) : ({ s with sig := x } : Dev).lostNow = s.lostNow := rfl
theorem with_sig_replays (s : Dev) (x : Signals) : ({ s with sig := x } : Dev).replays = s.replays := rfl
theorem with_sig_inputs (s : Dev) (x : Signals) : ({ s with sig := x } : Dev).inputs = s.inputs := rfl
theorem with_sig_works (s : Dev) (x : Signals) : ({ s with sig := x } : Dev).works = s.works := rfl
theorem with_sig_routeInfo (s : Dev) (x : Signals) : ({ s with sig := x } : Dev).routeInfo = s.routeInfo := rfl
theorem with_sig_batches (s : Dev) (x : Signals) : ({ s with sig := x } : Dev).batches = s.batches := rfl
theorem with_sig_tableWorks (s : Dev) (x : Signals) : ({ s with sig := x } : Dev).tableWorks = s.tableWorks := rfl
theorem with_sig_gathers (s : Dev) (x : Signals) : ({ s with sig := x } : Dev).gathers = s.gathers := rfl
theorem with_sig_threads (s : Dev) (x : Signals) : ({ s with sig := x } : Dev).threads = s.threads := rfl
theorem with_sig_cores (s : Dev) (x : Signals) : ({ s with sig := x } : Dev).cores = s.cores := rfl
theorem with_sig_adapters (s : Dev) (x : Signals) : ({ s with sig := x } : Dev).adapters = s.adapters := rfl
theorem with_sig_collectors (s : Dev) (x : Signals) : ({ s with sig := x } : Dev).collectors = s.collectors := rfl
theorem with_sig_summary (s : Dev) (x : Signals) : ({ s with sig := x } : Dev).summary = s.summary := rfl
theorem with_sig_fatal (s : Dev) (x : Signals) : ({ s with sig := x } : Dev).fatal = s.fatal := rfl
theorem with_sig_tel (s : Dev) (x : Signals) : ({ s with sig := x } : Dev).tel = s.tel := rfl
theorem with_sig_sec (s : Dev) (x : Signals) : ({ s with sig := x } : Dev).sec = s.sec := rfl
theorem with_sig_ctl (s : Dev) (x : Signals) : ({ s with sig := x } : Dev).ctl = s.ctl := rfl
theorem with_sig_pwr (s : Dev) (x : Signals) : ({ s with sig := x } : Dev).pwr = s.pwr := rfl
theorem with_sig_nextId (s : Dev) (x : Signals) : ({ s with sig := x } : Dev).nextId = s.nextId := rfl
theorem with_sig_fresh (s : Dev) (x : Signals) : ({ s with sig := x } : Dev).fresh = s.fresh := rfl
theorem with_sig_sent (s : Dev) (x : Signals) : ({ s with sig := x } : Dev).sent = s.sent := rfl

/-! ### setLv changes `live` only -/

@[simp] theorem setLv_beat (s : Dev) (a hi lo v : Nat) : (s.setLv a hi lo v).beat = s.beat := with_live_beat _ _
@[simp] theorem setLv_ticks (s : Dev) (a hi lo v : Nat) : (s.setLv a hi lo v).ticks = s.ticks := with_live_ticks _ _
@[simp] theorem setLv_latches (s : Dev) (a hi lo v : Nat) : (s.setLv a hi lo v).latches = s.latches := with_live_latches _ _
@[simp] theorem setLv_pairs (s : Dev) (a hi lo v : Nat) : (s.setLv a hi lo v).pairs = s.pairs := with_live_pairs _ _
@[simp] theorem setLv_staged (s : Dev) (a hi lo v : Nat) : (s.setLv a hi lo v).staged = s.staged := with_live_staged _ _
@[simp] theorem setLv_active (s : Dev) (a hi lo v : Nat) : (s.setLv a hi lo v).active = s.active := with_live_active _ _
@[simp] theorem setLv_number (s : Dev) (a hi lo v : Nat) : (s.setLv a hi lo v).number = s.number := with_live_number _ _
@[simp] theorem setLv_previous (s : Dev) (a hi lo v : Nat) : (s.setLv a hi lo v).previous = s.previous := with_live_previous _ _
@[simp] theorem setLv_retiring (s : Dev) (a hi lo v : Nat) : (s.setLv a hi lo v).retiring = s.retiring := with_live_retiring _ _
@[simp] theorem setLv_molt (s : Dev) (a hi lo v : Nat) : (s.setLv a hi lo v).molt = s.molt := with_live_molt _ _
@[simp] theorem setLv_damaged (s : Dev) (a hi lo v : Nat) : (s.setLv a hi lo v).damaged = s.damaged := with_live_damaged _ _
@[simp] theorem setLv_audit (s : Dev) (a hi lo v : Nat) : (s.setLv a hi lo v).audit = s.audit := with_live_audit _ _
@[simp] theorem setLv_mem (s : Dev) (a hi lo v : Nat) : (s.setLv a hi lo v).mem = s.mem := with_live_mem _ _
@[simp] theorem setLv_memSt (s : Dev) (a hi lo v : Nat) : (s.setLv a hi lo v).memSt = s.memSt := with_live_memSt _ _
@[simp] theorem setLv_time (s : Dev) (a hi lo v : Nat) : (s.setLv a hi lo v).time = s.time := with_live_time _ _
@[simp] theorem setLv_alarms (s : Dev) (a hi lo v : Nat) : (s.setLv a hi lo v).alarms = s.alarms := with_live_alarms _ _
@[simp] theorem setLv_releases (s : Dev) (a hi lo v : Nat) : (s.setLv a hi lo v).releases = s.releases := with_live_releases _ _
@[simp] theorem setLv_ports (s : Dev) (a hi lo v : Nat) : (s.setLv a hi lo v).ports = s.ports := with_live_ports _ _
@[simp] theorem setLv_laneErr (s : Dev) (a hi lo v : Nat) : (s.setLv a hi lo v).laneErr = s.laneErr := with_live_laneErr _ _
@[simp] theorem setLv_arrived (s : Dev) (a hi lo v : Nat) : (s.setLv a hi lo v).arrived = s.arrived := with_live_arrived _ _
@[simp] theorem setLv_mcasts (s : Dev) (a hi lo v : Nat) : (s.setLv a hi lo v).mcasts = s.mcasts := with_live_mcasts _ _
@[simp] theorem setLv_stalled (s : Dev) (a hi lo v : Nat) : (s.setLv a hi lo v).stalled = s.stalled := with_live_stalled _ _
@[simp] theorem setLv_ownAnswers (s : Dev) (a hi lo v : Nat) : (s.setLv a hi lo v).ownAnswers = s.ownAnswers := with_live_ownAnswers _ _
@[simp] theorem setLv_allocs (s : Dev) (a hi lo v : Nat) : (s.setLv a hi lo v).allocs = s.allocs := with_live_allocs _ _
@[simp] theorem setLv_credit (s : Dev) (a hi lo v : Nat) : (s.setLv a hi lo v).credit = s.credit := with_live_credit _ _
@[simp] theorem setLv_lost (s : Dev) (a hi lo v : Nat) : (s.setLv a hi lo v).lost = s.lost := with_live_lost _ _
@[simp] theorem setLv_touched (s : Dev) (a hi lo v : Nat) : (s.setLv a hi lo v).touched = s.touched := with_live_touched _ _
@[simp] theorem setLv_cfgErr (s : Dev) (a hi lo v : Nat) : (s.setLv a hi lo v).cfgErr = s.cfgErr := with_live_cfgErr _ _
@[simp] theorem setLv_uncharged (s : Dev) (a hi lo v : Nat) : (s.setLv a hi lo v).uncharged = s.uncharged := with_live_uncharged _ _
@[simp] theorem setLv_parked (s : Dev) (a hi lo v : Nat) : (s.setLv a hi lo v).parked = s.parked := with_live_parked _ _
@[simp] theorem setLv_groups (s : Dev) (a hi lo v : Nat) : (s.setLv a hi lo v).groups = s.groups := with_live_groups _ _
@[simp] theorem setLv_ctxs (s : Dev) (a hi lo v : Nat) : (s.setLv a hi lo v).ctxs = s.ctxs := with_live_ctxs _ _
@[simp] theorem setLv_released (s : Dev) (a hi lo v : Nat) : (s.setLv a hi lo v).released = s.released := with_live_released _ _
@[simp] theorem setLv_gotten (s : Dev) (a hi lo v : Nat) : (s.setLv a hi lo v).gotten = s.gotten := with_live_gotten _ _
@[simp] theorem setLv_lostNow (s : Dev) (a hi lo v : Nat) : (s.setLv a hi lo v).lostNow = s.lostNow := with_live_lostNow _ _
@[simp] theorem setLv_replays (s : Dev) (a hi lo v : Nat) : (s.setLv a hi lo v).replays = s.replays := with_live_replays _ _
@[simp] theorem setLv_inputs (s : Dev) (a hi lo v : Nat) : (s.setLv a hi lo v).inputs = s.inputs := with_live_inputs _ _
@[simp] theorem setLv_works (s : Dev) (a hi lo v : Nat) : (s.setLv a hi lo v).works = s.works := with_live_works _ _
@[simp] theorem setLv_routeInfo (s : Dev) (a hi lo v : Nat) : (s.setLv a hi lo v).routeInfo = s.routeInfo := with_live_routeInfo _ _
@[simp] theorem setLv_batches (s : Dev) (a hi lo v : Nat) : (s.setLv a hi lo v).batches = s.batches := with_live_batches _ _
@[simp] theorem setLv_tableWorks (s : Dev) (a hi lo v : Nat) : (s.setLv a hi lo v).tableWorks = s.tableWorks := with_live_tableWorks _ _
@[simp] theorem setLv_gathers (s : Dev) (a hi lo v : Nat) : (s.setLv a hi lo v).gathers = s.gathers := with_live_gathers _ _
@[simp] theorem setLv_threads (s : Dev) (a hi lo v : Nat) : (s.setLv a hi lo v).threads = s.threads := with_live_threads _ _
@[simp] theorem setLv_cores (s : Dev) (a hi lo v : Nat) : (s.setLv a hi lo v).cores = s.cores := with_live_cores _ _
@[simp] theorem setLv_adapters (s : Dev) (a hi lo v : Nat) : (s.setLv a hi lo v).adapters = s.adapters := with_live_adapters _ _
@[simp] theorem setLv_collectors (s : Dev) (a hi lo v : Nat) : (s.setLv a hi lo v).collectors = s.collectors := with_live_collectors _ _
@[simp] theorem setLv_summary (s : Dev) (a hi lo v : Nat) : (s.setLv a hi lo v).summary = s.summary := with_live_summary _ _
@[simp] theorem setLv_fatal (s : Dev) (a hi lo v : Nat) : (s.setLv a hi lo v).fatal = s.fatal := with_live_fatal _ _
@[simp] theorem setLv_tel (s : Dev) (a hi lo v : Nat) : (s.setLv a hi lo v).tel = s.tel := with_live_tel _ _
@[simp] theorem setLv_sec (s : Dev) (a hi lo v : Nat) : (s.setLv a hi lo v).sec = s.sec := with_live_sec _ _
@[simp] theorem setLv_ctl (s : Dev) (a hi lo v : Nat) : (s.setLv a hi lo v).ctl = s.ctl := with_live_ctl _ _
@[simp] theorem setLv_pwr (s : Dev) (a hi lo v : Nat) : (s.setLv a hi lo v).pwr = s.pwr := with_live_pwr _ _
@[simp] theorem setLv_nextId (s : Dev) (a hi lo v : Nat) : (s.setLv a hi lo v).nextId = s.nextId := with_live_nextId _ _
@[simp] theorem setLv_fresh (s : Dev) (a hi lo v : Nat) : (s.setLv a hi lo v).fresh = s.fresh := with_live_fresh _ _
@[simp] theorem setLv_sent (s : Dev) (a hi lo v : Nat) : (s.setLv a hi lo v).sent = s.sent := with_live_sent _ _
@[simp] theorem setLv_sig (s : Dev) (a hi lo v : Nat) : (s.setLv a hi lo v).sig = s.sig := with_live_sig _ _

/-! ### putLv changes `live` only -/

@[simp] theorem putLv_beat (s : Dev) (a v : Nat) : (s.putLv a v).beat = s.beat := with_live_beat _ _
@[simp] theorem putLv_ticks (s : Dev) (a v : Nat) : (s.putLv a v).ticks = s.ticks := with_live_ticks _ _
@[simp] theorem putLv_latches (s : Dev) (a v : Nat) : (s.putLv a v).latches = s.latches := with_live_latches _ _
@[simp] theorem putLv_pairs (s : Dev) (a v : Nat) : (s.putLv a v).pairs = s.pairs := with_live_pairs _ _
@[simp] theorem putLv_staged (s : Dev) (a v : Nat) : (s.putLv a v).staged = s.staged := with_live_staged _ _
@[simp] theorem putLv_active (s : Dev) (a v : Nat) : (s.putLv a v).active = s.active := with_live_active _ _
@[simp] theorem putLv_number (s : Dev) (a v : Nat) : (s.putLv a v).number = s.number := with_live_number _ _
@[simp] theorem putLv_previous (s : Dev) (a v : Nat) : (s.putLv a v).previous = s.previous := with_live_previous _ _
@[simp] theorem putLv_retiring (s : Dev) (a v : Nat) : (s.putLv a v).retiring = s.retiring := with_live_retiring _ _
@[simp] theorem putLv_molt (s : Dev) (a v : Nat) : (s.putLv a v).molt = s.molt := with_live_molt _ _
@[simp] theorem putLv_damaged (s : Dev) (a v : Nat) : (s.putLv a v).damaged = s.damaged := with_live_damaged _ _
@[simp] theorem putLv_audit (s : Dev) (a v : Nat) : (s.putLv a v).audit = s.audit := with_live_audit _ _
@[simp] theorem putLv_mem (s : Dev) (a v : Nat) : (s.putLv a v).mem = s.mem := with_live_mem _ _
@[simp] theorem putLv_memSt (s : Dev) (a v : Nat) : (s.putLv a v).memSt = s.memSt := with_live_memSt _ _
@[simp] theorem putLv_time (s : Dev) (a v : Nat) : (s.putLv a v).time = s.time := with_live_time _ _
@[simp] theorem putLv_alarms (s : Dev) (a v : Nat) : (s.putLv a v).alarms = s.alarms := with_live_alarms _ _
@[simp] theorem putLv_releases (s : Dev) (a v : Nat) : (s.putLv a v).releases = s.releases := with_live_releases _ _
@[simp] theorem putLv_ports (s : Dev) (a v : Nat) : (s.putLv a v).ports = s.ports := with_live_ports _ _
@[simp] theorem putLv_laneErr (s : Dev) (a v : Nat) : (s.putLv a v).laneErr = s.laneErr := with_live_laneErr _ _
@[simp] theorem putLv_arrived (s : Dev) (a v : Nat) : (s.putLv a v).arrived = s.arrived := with_live_arrived _ _
@[simp] theorem putLv_mcasts (s : Dev) (a v : Nat) : (s.putLv a v).mcasts = s.mcasts := with_live_mcasts _ _
@[simp] theorem putLv_stalled (s : Dev) (a v : Nat) : (s.putLv a v).stalled = s.stalled := with_live_stalled _ _
@[simp] theorem putLv_ownAnswers (s : Dev) (a v : Nat) : (s.putLv a v).ownAnswers = s.ownAnswers := with_live_ownAnswers _ _
@[simp] theorem putLv_allocs (s : Dev) (a v : Nat) : (s.putLv a v).allocs = s.allocs := with_live_allocs _ _
@[simp] theorem putLv_credit (s : Dev) (a v : Nat) : (s.putLv a v).credit = s.credit := with_live_credit _ _
@[simp] theorem putLv_lost (s : Dev) (a v : Nat) : (s.putLv a v).lost = s.lost := with_live_lost _ _
@[simp] theorem putLv_touched (s : Dev) (a v : Nat) : (s.putLv a v).touched = s.touched := with_live_touched _ _
@[simp] theorem putLv_cfgErr (s : Dev) (a v : Nat) : (s.putLv a v).cfgErr = s.cfgErr := with_live_cfgErr _ _
@[simp] theorem putLv_uncharged (s : Dev) (a v : Nat) : (s.putLv a v).uncharged = s.uncharged := with_live_uncharged _ _
@[simp] theorem putLv_parked (s : Dev) (a v : Nat) : (s.putLv a v).parked = s.parked := with_live_parked _ _
@[simp] theorem putLv_groups (s : Dev) (a v : Nat) : (s.putLv a v).groups = s.groups := with_live_groups _ _
@[simp] theorem putLv_ctxs (s : Dev) (a v : Nat) : (s.putLv a v).ctxs = s.ctxs := with_live_ctxs _ _
@[simp] theorem putLv_released (s : Dev) (a v : Nat) : (s.putLv a v).released = s.released := with_live_released _ _
@[simp] theorem putLv_gotten (s : Dev) (a v : Nat) : (s.putLv a v).gotten = s.gotten := with_live_gotten _ _
@[simp] theorem putLv_lostNow (s : Dev) (a v : Nat) : (s.putLv a v).lostNow = s.lostNow := with_live_lostNow _ _
@[simp] theorem putLv_replays (s : Dev) (a v : Nat) : (s.putLv a v).replays = s.replays := with_live_replays _ _
@[simp] theorem putLv_inputs (s : Dev) (a v : Nat) : (s.putLv a v).inputs = s.inputs := with_live_inputs _ _
@[simp] theorem putLv_works (s : Dev) (a v : Nat) : (s.putLv a v).works = s.works := with_live_works _ _
@[simp] theorem putLv_routeInfo (s : Dev) (a v : Nat) : (s.putLv a v).routeInfo = s.routeInfo := with_live_routeInfo _ _
@[simp] theorem putLv_batches (s : Dev) (a v : Nat) : (s.putLv a v).batches = s.batches := with_live_batches _ _
@[simp] theorem putLv_tableWorks (s : Dev) (a v : Nat) : (s.putLv a v).tableWorks = s.tableWorks := with_live_tableWorks _ _
@[simp] theorem putLv_gathers (s : Dev) (a v : Nat) : (s.putLv a v).gathers = s.gathers := with_live_gathers _ _
@[simp] theorem putLv_threads (s : Dev) (a v : Nat) : (s.putLv a v).threads = s.threads := with_live_threads _ _
@[simp] theorem putLv_cores (s : Dev) (a v : Nat) : (s.putLv a v).cores = s.cores := with_live_cores _ _
@[simp] theorem putLv_adapters (s : Dev) (a v : Nat) : (s.putLv a v).adapters = s.adapters := with_live_adapters _ _
@[simp] theorem putLv_collectors (s : Dev) (a v : Nat) : (s.putLv a v).collectors = s.collectors := with_live_collectors _ _
@[simp] theorem putLv_summary (s : Dev) (a v : Nat) : (s.putLv a v).summary = s.summary := with_live_summary _ _
@[simp] theorem putLv_fatal (s : Dev) (a v : Nat) : (s.putLv a v).fatal = s.fatal := with_live_fatal _ _
@[simp] theorem putLv_tel (s : Dev) (a v : Nat) : (s.putLv a v).tel = s.tel := with_live_tel _ _
@[simp] theorem putLv_sec (s : Dev) (a v : Nat) : (s.putLv a v).sec = s.sec := with_live_sec _ _
@[simp] theorem putLv_ctl (s : Dev) (a v : Nat) : (s.putLv a v).ctl = s.ctl := with_live_ctl _ _
@[simp] theorem putLv_pwr (s : Dev) (a v : Nat) : (s.putLv a v).pwr = s.pwr := with_live_pwr _ _
@[simp] theorem putLv_nextId (s : Dev) (a v : Nat) : (s.putLv a v).nextId = s.nextId := with_live_nextId _ _
@[simp] theorem putLv_fresh (s : Dev) (a v : Nat) : (s.putLv a v).fresh = s.fresh := with_live_fresh _ _
@[simp] theorem putLv_sent (s : Dev) (a v : Nat) : (s.putLv a v).sent = s.sent := with_live_sent _ _
@[simp] theorem putLv_sig (s : Dev) (a v : Nat) : (s.putLv a v).sig = s.sig := with_live_sig _ _

/-! ### addLv changes `live` only -/

@[simp] theorem addLv_beat (s : Dev) (a hi lo n : Nat) : (s.addLv a hi lo n).beat = s.beat := setLv_beat _ _ _ _ _
@[simp] theorem addLv_ticks (s : Dev) (a hi lo n : Nat) : (s.addLv a hi lo n).ticks = s.ticks := setLv_ticks _ _ _ _ _
@[simp] theorem addLv_latches (s : Dev) (a hi lo n : Nat) : (s.addLv a hi lo n).latches = s.latches := setLv_latches _ _ _ _ _
@[simp] theorem addLv_pairs (s : Dev) (a hi lo n : Nat) : (s.addLv a hi lo n).pairs = s.pairs := setLv_pairs _ _ _ _ _
@[simp] theorem addLv_staged (s : Dev) (a hi lo n : Nat) : (s.addLv a hi lo n).staged = s.staged := setLv_staged _ _ _ _ _
@[simp] theorem addLv_active (s : Dev) (a hi lo n : Nat) : (s.addLv a hi lo n).active = s.active := setLv_active _ _ _ _ _
@[simp] theorem addLv_number (s : Dev) (a hi lo n : Nat) : (s.addLv a hi lo n).number = s.number := setLv_number _ _ _ _ _
@[simp] theorem addLv_previous (s : Dev) (a hi lo n : Nat) : (s.addLv a hi lo n).previous = s.previous := setLv_previous _ _ _ _ _
@[simp] theorem addLv_retiring (s : Dev) (a hi lo n : Nat) : (s.addLv a hi lo n).retiring = s.retiring := setLv_retiring _ _ _ _ _
@[simp] theorem addLv_molt (s : Dev) (a hi lo n : Nat) : (s.addLv a hi lo n).molt = s.molt := setLv_molt _ _ _ _ _
@[simp] theorem addLv_damaged (s : Dev) (a hi lo n : Nat) : (s.addLv a hi lo n).damaged = s.damaged := setLv_damaged _ _ _ _ _
@[simp] theorem addLv_audit (s : Dev) (a hi lo n : Nat) : (s.addLv a hi lo n).audit = s.audit := setLv_audit _ _ _ _ _
@[simp] theorem addLv_mem (s : Dev) (a hi lo n : Nat) : (s.addLv a hi lo n).mem = s.mem := setLv_mem _ _ _ _ _
@[simp] theorem addLv_memSt (s : Dev) (a hi lo n : Nat) : (s.addLv a hi lo n).memSt = s.memSt := setLv_memSt _ _ _ _ _
@[simp] theorem addLv_time (s : Dev) (a hi lo n : Nat) : (s.addLv a hi lo n).time = s.time := setLv_time _ _ _ _ _
@[simp] theorem addLv_alarms (s : Dev) (a hi lo n : Nat) : (s.addLv a hi lo n).alarms = s.alarms := setLv_alarms _ _ _ _ _
@[simp] theorem addLv_releases (s : Dev) (a hi lo n : Nat) : (s.addLv a hi lo n).releases = s.releases := setLv_releases _ _ _ _ _
@[simp] theorem addLv_ports (s : Dev) (a hi lo n : Nat) : (s.addLv a hi lo n).ports = s.ports := setLv_ports _ _ _ _ _
@[simp] theorem addLv_laneErr (s : Dev) (a hi lo n : Nat) : (s.addLv a hi lo n).laneErr = s.laneErr := setLv_laneErr _ _ _ _ _
@[simp] theorem addLv_arrived (s : Dev) (a hi lo n : Nat) : (s.addLv a hi lo n).arrived = s.arrived := setLv_arrived _ _ _ _ _
@[simp] theorem addLv_mcasts (s : Dev) (a hi lo n : Nat) : (s.addLv a hi lo n).mcasts = s.mcasts := setLv_mcasts _ _ _ _ _
@[simp] theorem addLv_stalled (s : Dev) (a hi lo n : Nat) : (s.addLv a hi lo n).stalled = s.stalled := setLv_stalled _ _ _ _ _
@[simp] theorem addLv_ownAnswers (s : Dev) (a hi lo n : Nat) : (s.addLv a hi lo n).ownAnswers = s.ownAnswers := setLv_ownAnswers _ _ _ _ _
@[simp] theorem addLv_allocs (s : Dev) (a hi lo n : Nat) : (s.addLv a hi lo n).allocs = s.allocs := setLv_allocs _ _ _ _ _
@[simp] theorem addLv_credit (s : Dev) (a hi lo n : Nat) : (s.addLv a hi lo n).credit = s.credit := setLv_credit _ _ _ _ _
@[simp] theorem addLv_lost (s : Dev) (a hi lo n : Nat) : (s.addLv a hi lo n).lost = s.lost := setLv_lost _ _ _ _ _
@[simp] theorem addLv_touched (s : Dev) (a hi lo n : Nat) : (s.addLv a hi lo n).touched = s.touched := setLv_touched _ _ _ _ _
@[simp] theorem addLv_cfgErr (s : Dev) (a hi lo n : Nat) : (s.addLv a hi lo n).cfgErr = s.cfgErr := setLv_cfgErr _ _ _ _ _
@[simp] theorem addLv_uncharged (s : Dev) (a hi lo n : Nat) : (s.addLv a hi lo n).uncharged = s.uncharged := setLv_uncharged _ _ _ _ _
@[simp] theorem addLv_parked (s : Dev) (a hi lo n : Nat) : (s.addLv a hi lo n).parked = s.parked := setLv_parked _ _ _ _ _
@[simp] theorem addLv_groups (s : Dev) (a hi lo n : Nat) : (s.addLv a hi lo n).groups = s.groups := setLv_groups _ _ _ _ _
@[simp] theorem addLv_ctxs (s : Dev) (a hi lo n : Nat) : (s.addLv a hi lo n).ctxs = s.ctxs := setLv_ctxs _ _ _ _ _
@[simp] theorem addLv_released (s : Dev) (a hi lo n : Nat) : (s.addLv a hi lo n).released = s.released := setLv_released _ _ _ _ _
@[simp] theorem addLv_gotten (s : Dev) (a hi lo n : Nat) : (s.addLv a hi lo n).gotten = s.gotten := setLv_gotten _ _ _ _ _
@[simp] theorem addLv_lostNow (s : Dev) (a hi lo n : Nat) : (s.addLv a hi lo n).lostNow = s.lostNow := setLv_lostNow _ _ _ _ _
@[simp] theorem addLv_replays (s : Dev) (a hi lo n : Nat) : (s.addLv a hi lo n).replays = s.replays := setLv_replays _ _ _ _ _
@[simp] theorem addLv_inputs (s : Dev) (a hi lo n : Nat) : (s.addLv a hi lo n).inputs = s.inputs := setLv_inputs _ _ _ _ _
@[simp] theorem addLv_works (s : Dev) (a hi lo n : Nat) : (s.addLv a hi lo n).works = s.works := setLv_works _ _ _ _ _
@[simp] theorem addLv_routeInfo (s : Dev) (a hi lo n : Nat) : (s.addLv a hi lo n).routeInfo = s.routeInfo := setLv_routeInfo _ _ _ _ _
@[simp] theorem addLv_batches (s : Dev) (a hi lo n : Nat) : (s.addLv a hi lo n).batches = s.batches := setLv_batches _ _ _ _ _
@[simp] theorem addLv_tableWorks (s : Dev) (a hi lo n : Nat) : (s.addLv a hi lo n).tableWorks = s.tableWorks := setLv_tableWorks _ _ _ _ _
@[simp] theorem addLv_gathers (s : Dev) (a hi lo n : Nat) : (s.addLv a hi lo n).gathers = s.gathers := setLv_gathers _ _ _ _ _
@[simp] theorem addLv_threads (s : Dev) (a hi lo n : Nat) : (s.addLv a hi lo n).threads = s.threads := setLv_threads _ _ _ _ _
@[simp] theorem addLv_cores (s : Dev) (a hi lo n : Nat) : (s.addLv a hi lo n).cores = s.cores := setLv_cores _ _ _ _ _
@[simp] theorem addLv_adapters (s : Dev) (a hi lo n : Nat) : (s.addLv a hi lo n).adapters = s.adapters := setLv_adapters _ _ _ _ _
@[simp] theorem addLv_collectors (s : Dev) (a hi lo n : Nat) : (s.addLv a hi lo n).collectors = s.collectors := setLv_collectors _ _ _ _ _
@[simp] theorem addLv_summary (s : Dev) (a hi lo n : Nat) : (s.addLv a hi lo n).summary = s.summary := setLv_summary _ _ _ _ _
@[simp] theorem addLv_fatal (s : Dev) (a hi lo n : Nat) : (s.addLv a hi lo n).fatal = s.fatal := setLv_fatal _ _ _ _ _
@[simp] theorem addLv_tel (s : Dev) (a hi lo n : Nat) : (s.addLv a hi lo n).tel = s.tel := setLv_tel _ _ _ _ _
@[simp] theorem addLv_sec (s : Dev) (a hi lo n : Nat) : (s.addLv a hi lo n).sec = s.sec := setLv_sec _ _ _ _ _
@[simp] theorem addLv_ctl (s : Dev) (a hi lo n : Nat) : (s.addLv a hi lo n).ctl = s.ctl := setLv_ctl _ _ _ _ _
@[simp] theorem addLv_pwr (s : Dev) (a hi lo n : Nat) : (s.addLv a hi lo n).pwr = s.pwr := setLv_pwr _ _ _ _ _
@[simp] theorem addLv_nextId (s : Dev) (a hi lo n : Nat) : (s.addLv a hi lo n).nextId = s.nextId := setLv_nextId _ _ _ _ _
@[simp] theorem addLv_fresh (s : Dev) (a hi lo n : Nat) : (s.addLv a hi lo n).fresh = s.fresh := setLv_fresh _ _ _ _ _
@[simp] theorem addLv_sent (s : Dev) (a hi lo n : Nat) : (s.addLv a hi lo n).sent = s.sent := setLv_sent _ _ _ _ _
@[simp] theorem addLv_sig (s : Dev) (a hi lo n : Nat) : (s.addLv a hi lo n).sig = s.sig := setLv_sig _ _ _ _ _

/-! ### count changes `live` only -/

@[simp] theorem count_beat (s : Dev) (a : Nat) : (s.count a).beat = s.beat := addLv_beat _ _ _ _ _
@[simp] theorem count_ticks (s : Dev) (a : Nat) : (s.count a).ticks = s.ticks := addLv_ticks _ _ _ _ _
@[simp] theorem count_latches (s : Dev) (a : Nat) : (s.count a).latches = s.latches := addLv_latches _ _ _ _ _
@[simp] theorem count_pairs (s : Dev) (a : Nat) : (s.count a).pairs = s.pairs := addLv_pairs _ _ _ _ _
@[simp] theorem count_staged (s : Dev) (a : Nat) : (s.count a).staged = s.staged := addLv_staged _ _ _ _ _
@[simp] theorem count_active (s : Dev) (a : Nat) : (s.count a).active = s.active := addLv_active _ _ _ _ _
@[simp] theorem count_number (s : Dev) (a : Nat) : (s.count a).number = s.number := addLv_number _ _ _ _ _
@[simp] theorem count_previous (s : Dev) (a : Nat) : (s.count a).previous = s.previous := addLv_previous _ _ _ _ _
@[simp] theorem count_retiring (s : Dev) (a : Nat) : (s.count a).retiring = s.retiring := addLv_retiring _ _ _ _ _
@[simp] theorem count_molt (s : Dev) (a : Nat) : (s.count a).molt = s.molt := addLv_molt _ _ _ _ _
@[simp] theorem count_damaged (s : Dev) (a : Nat) : (s.count a).damaged = s.damaged := addLv_damaged _ _ _ _ _
@[simp] theorem count_audit (s : Dev) (a : Nat) : (s.count a).audit = s.audit := addLv_audit _ _ _ _ _
@[simp] theorem count_mem (s : Dev) (a : Nat) : (s.count a).mem = s.mem := addLv_mem _ _ _ _ _
@[simp] theorem count_memSt (s : Dev) (a : Nat) : (s.count a).memSt = s.memSt := addLv_memSt _ _ _ _ _
@[simp] theorem count_time (s : Dev) (a : Nat) : (s.count a).time = s.time := addLv_time _ _ _ _ _
@[simp] theorem count_alarms (s : Dev) (a : Nat) : (s.count a).alarms = s.alarms := addLv_alarms _ _ _ _ _
@[simp] theorem count_releases (s : Dev) (a : Nat) : (s.count a).releases = s.releases := addLv_releases _ _ _ _ _
@[simp] theorem count_ports (s : Dev) (a : Nat) : (s.count a).ports = s.ports := addLv_ports _ _ _ _ _
@[simp] theorem count_laneErr (s : Dev) (a : Nat) : (s.count a).laneErr = s.laneErr := addLv_laneErr _ _ _ _ _
@[simp] theorem count_arrived (s : Dev) (a : Nat) : (s.count a).arrived = s.arrived := addLv_arrived _ _ _ _ _
@[simp] theorem count_mcasts (s : Dev) (a : Nat) : (s.count a).mcasts = s.mcasts := addLv_mcasts _ _ _ _ _
@[simp] theorem count_stalled (s : Dev) (a : Nat) : (s.count a).stalled = s.stalled := addLv_stalled _ _ _ _ _
@[simp] theorem count_ownAnswers (s : Dev) (a : Nat) : (s.count a).ownAnswers = s.ownAnswers := addLv_ownAnswers _ _ _ _ _
@[simp] theorem count_allocs (s : Dev) (a : Nat) : (s.count a).allocs = s.allocs := addLv_allocs _ _ _ _ _
@[simp] theorem count_credit (s : Dev) (a : Nat) : (s.count a).credit = s.credit := addLv_credit _ _ _ _ _
@[simp] theorem count_lost (s : Dev) (a : Nat) : (s.count a).lost = s.lost := addLv_lost _ _ _ _ _
@[simp] theorem count_touched (s : Dev) (a : Nat) : (s.count a).touched = s.touched := addLv_touched _ _ _ _ _
@[simp] theorem count_cfgErr (s : Dev) (a : Nat) : (s.count a).cfgErr = s.cfgErr := addLv_cfgErr _ _ _ _ _
@[simp] theorem count_uncharged (s : Dev) (a : Nat) : (s.count a).uncharged = s.uncharged := addLv_uncharged _ _ _ _ _
@[simp] theorem count_parked (s : Dev) (a : Nat) : (s.count a).parked = s.parked := addLv_parked _ _ _ _ _
@[simp] theorem count_groups (s : Dev) (a : Nat) : (s.count a).groups = s.groups := addLv_groups _ _ _ _ _
@[simp] theorem count_ctxs (s : Dev) (a : Nat) : (s.count a).ctxs = s.ctxs := addLv_ctxs _ _ _ _ _
@[simp] theorem count_released (s : Dev) (a : Nat) : (s.count a).released = s.released := addLv_released _ _ _ _ _
@[simp] theorem count_gotten (s : Dev) (a : Nat) : (s.count a).gotten = s.gotten := addLv_gotten _ _ _ _ _
@[simp] theorem count_lostNow (s : Dev) (a : Nat) : (s.count a).lostNow = s.lostNow := addLv_lostNow _ _ _ _ _
@[simp] theorem count_replays (s : Dev) (a : Nat) : (s.count a).replays = s.replays := addLv_replays _ _ _ _ _
@[simp] theorem count_inputs (s : Dev) (a : Nat) : (s.count a).inputs = s.inputs := addLv_inputs _ _ _ _ _
@[simp] theorem count_works (s : Dev) (a : Nat) : (s.count a).works = s.works := addLv_works _ _ _ _ _
@[simp] theorem count_routeInfo (s : Dev) (a : Nat) : (s.count a).routeInfo = s.routeInfo := addLv_routeInfo _ _ _ _ _
@[simp] theorem count_batches (s : Dev) (a : Nat) : (s.count a).batches = s.batches := addLv_batches _ _ _ _ _
@[simp] theorem count_tableWorks (s : Dev) (a : Nat) : (s.count a).tableWorks = s.tableWorks := addLv_tableWorks _ _ _ _ _
@[simp] theorem count_gathers (s : Dev) (a : Nat) : (s.count a).gathers = s.gathers := addLv_gathers _ _ _ _ _
@[simp] theorem count_threads (s : Dev) (a : Nat) : (s.count a).threads = s.threads := addLv_threads _ _ _ _ _
@[simp] theorem count_cores (s : Dev) (a : Nat) : (s.count a).cores = s.cores := addLv_cores _ _ _ _ _
@[simp] theorem count_adapters (s : Dev) (a : Nat) : (s.count a).adapters = s.adapters := addLv_adapters _ _ _ _ _
@[simp] theorem count_collectors (s : Dev) (a : Nat) : (s.count a).collectors = s.collectors := addLv_collectors _ _ _ _ _
@[simp] theorem count_summary (s : Dev) (a : Nat) : (s.count a).summary = s.summary := addLv_summary _ _ _ _ _
@[simp] theorem count_fatal (s : Dev) (a : Nat) : (s.count a).fatal = s.fatal := addLv_fatal _ _ _ _ _
@[simp] theorem count_tel (s : Dev) (a : Nat) : (s.count a).tel = s.tel := addLv_tel _ _ _ _ _
@[simp] theorem count_sec (s : Dev) (a : Nat) : (s.count a).sec = s.sec := addLv_sec _ _ _ _ _
@[simp] theorem count_ctl (s : Dev) (a : Nat) : (s.count a).ctl = s.ctl := addLv_ctl _ _ _ _ _
@[simp] theorem count_pwr (s : Dev) (a : Nat) : (s.count a).pwr = s.pwr := addLv_pwr _ _ _ _ _
@[simp] theorem count_nextId (s : Dev) (a : Nat) : (s.count a).nextId = s.nextId := addLv_nextId _ _ _ _ _
@[simp] theorem count_fresh (s : Dev) (a : Nat) : (s.count a).fresh = s.fresh := addLv_fresh _ _ _ _ _
@[simp] theorem count_sent (s : Dev) (a : Nat) : (s.count a).sent = s.sent := addLv_sent _ _ _ _ _
@[simp] theorem count_sig (s : Dev) (a : Nat) : (s.count a).sig = s.sig := addLv_sig _ _ _ _ _

/-! ### setInsState changes `live` only -/

@[simp] theorem setInsState_beat (s : Dev) (v : Nat) : (s.setInsState v).beat = s.beat := setLv_beat _ _ _ _ _
@[simp] theorem setInsState_ticks (s : Dev) (v : Nat) : (s.setInsState v).ticks = s.ticks := setLv_ticks _ _ _ _ _
@[simp] theorem setInsState_latches (s : Dev) (v : Nat) : (s.setInsState v).latches = s.latches := setLv_latches _ _ _ _ _
@[simp] theorem setInsState_pairs (s : Dev) (v : Nat) : (s.setInsState v).pairs = s.pairs := setLv_pairs _ _ _ _ _
@[simp] theorem setInsState_staged (s : Dev) (v : Nat) : (s.setInsState v).staged = s.staged := setLv_staged _ _ _ _ _
@[simp] theorem setInsState_active (s : Dev) (v : Nat) : (s.setInsState v).active = s.active := setLv_active _ _ _ _ _
@[simp] theorem setInsState_number (s : Dev) (v : Nat) : (s.setInsState v).number = s.number := setLv_number _ _ _ _ _
@[simp] theorem setInsState_previous (s : Dev) (v : Nat) : (s.setInsState v).previous = s.previous := setLv_previous _ _ _ _ _
@[simp] theorem setInsState_retiring (s : Dev) (v : Nat) : (s.setInsState v).retiring = s.retiring := setLv_retiring _ _ _ _ _
@[simp] theorem setInsState_molt (s : Dev) (v : Nat) : (s.setInsState v).molt = s.molt := setLv_molt _ _ _ _ _
@[simp] theorem setInsState_damaged (s : Dev) (v : Nat) : (s.setInsState v).damaged = s.damaged := setLv_damaged _ _ _ _ _
@[simp] theorem setInsState_audit (s : Dev) (v : Nat) : (s.setInsState v).audit = s.audit := setLv_audit _ _ _ _ _
@[simp] theorem setInsState_mem (s : Dev) (v : Nat) : (s.setInsState v).mem = s.mem := setLv_mem _ _ _ _ _
@[simp] theorem setInsState_memSt (s : Dev) (v : Nat) : (s.setInsState v).memSt = s.memSt := setLv_memSt _ _ _ _ _
@[simp] theorem setInsState_time (s : Dev) (v : Nat) : (s.setInsState v).time = s.time := setLv_time _ _ _ _ _
@[simp] theorem setInsState_alarms (s : Dev) (v : Nat) : (s.setInsState v).alarms = s.alarms := setLv_alarms _ _ _ _ _
@[simp] theorem setInsState_releases (s : Dev) (v : Nat) : (s.setInsState v).releases = s.releases := setLv_releases _ _ _ _ _
@[simp] theorem setInsState_ports (s : Dev) (v : Nat) : (s.setInsState v).ports = s.ports := setLv_ports _ _ _ _ _
@[simp] theorem setInsState_laneErr (s : Dev) (v : Nat) : (s.setInsState v).laneErr = s.laneErr := setLv_laneErr _ _ _ _ _
@[simp] theorem setInsState_arrived (s : Dev) (v : Nat) : (s.setInsState v).arrived = s.arrived := setLv_arrived _ _ _ _ _
@[simp] theorem setInsState_mcasts (s : Dev) (v : Nat) : (s.setInsState v).mcasts = s.mcasts := setLv_mcasts _ _ _ _ _
@[simp] theorem setInsState_stalled (s : Dev) (v : Nat) : (s.setInsState v).stalled = s.stalled := setLv_stalled _ _ _ _ _
@[simp] theorem setInsState_ownAnswers (s : Dev) (v : Nat) : (s.setInsState v).ownAnswers = s.ownAnswers := setLv_ownAnswers _ _ _ _ _
@[simp] theorem setInsState_allocs (s : Dev) (v : Nat) : (s.setInsState v).allocs = s.allocs := setLv_allocs _ _ _ _ _
@[simp] theorem setInsState_credit (s : Dev) (v : Nat) : (s.setInsState v).credit = s.credit := setLv_credit _ _ _ _ _
@[simp] theorem setInsState_lost (s : Dev) (v : Nat) : (s.setInsState v).lost = s.lost := setLv_lost _ _ _ _ _
@[simp] theorem setInsState_touched (s : Dev) (v : Nat) : (s.setInsState v).touched = s.touched := setLv_touched _ _ _ _ _
@[simp] theorem setInsState_cfgErr (s : Dev) (v : Nat) : (s.setInsState v).cfgErr = s.cfgErr := setLv_cfgErr _ _ _ _ _
@[simp] theorem setInsState_uncharged (s : Dev) (v : Nat) : (s.setInsState v).uncharged = s.uncharged := setLv_uncharged _ _ _ _ _
@[simp] theorem setInsState_parked (s : Dev) (v : Nat) : (s.setInsState v).parked = s.parked := setLv_parked _ _ _ _ _
@[simp] theorem setInsState_groups (s : Dev) (v : Nat) : (s.setInsState v).groups = s.groups := setLv_groups _ _ _ _ _
@[simp] theorem setInsState_ctxs (s : Dev) (v : Nat) : (s.setInsState v).ctxs = s.ctxs := setLv_ctxs _ _ _ _ _
@[simp] theorem setInsState_released (s : Dev) (v : Nat) : (s.setInsState v).released = s.released := setLv_released _ _ _ _ _
@[simp] theorem setInsState_gotten (s : Dev) (v : Nat) : (s.setInsState v).gotten = s.gotten := setLv_gotten _ _ _ _ _
@[simp] theorem setInsState_lostNow (s : Dev) (v : Nat) : (s.setInsState v).lostNow = s.lostNow := setLv_lostNow _ _ _ _ _
@[simp] theorem setInsState_replays (s : Dev) (v : Nat) : (s.setInsState v).replays = s.replays := setLv_replays _ _ _ _ _
@[simp] theorem setInsState_inputs (s : Dev) (v : Nat) : (s.setInsState v).inputs = s.inputs := setLv_inputs _ _ _ _ _
@[simp] theorem setInsState_works (s : Dev) (v : Nat) : (s.setInsState v).works = s.works := setLv_works _ _ _ _ _
@[simp] theorem setInsState_routeInfo (s : Dev) (v : Nat) : (s.setInsState v).routeInfo = s.routeInfo := setLv_routeInfo _ _ _ _ _
@[simp] theorem setInsState_batches (s : Dev) (v : Nat) : (s.setInsState v).batches = s.batches := setLv_batches _ _ _ _ _
@[simp] theorem setInsState_tableWorks (s : Dev) (v : Nat) : (s.setInsState v).tableWorks = s.tableWorks := setLv_tableWorks _ _ _ _ _
@[simp] theorem setInsState_gathers (s : Dev) (v : Nat) : (s.setInsState v).gathers = s.gathers := setLv_gathers _ _ _ _ _
@[simp] theorem setInsState_threads (s : Dev) (v : Nat) : (s.setInsState v).threads = s.threads := setLv_threads _ _ _ _ _
@[simp] theorem setInsState_cores (s : Dev) (v : Nat) : (s.setInsState v).cores = s.cores := setLv_cores _ _ _ _ _
@[simp] theorem setInsState_adapters (s : Dev) (v : Nat) : (s.setInsState v).adapters = s.adapters := setLv_adapters _ _ _ _ _
@[simp] theorem setInsState_collectors (s : Dev) (v : Nat) : (s.setInsState v).collectors = s.collectors := setLv_collectors _ _ _ _ _
@[simp] theorem setInsState_summary (s : Dev) (v : Nat) : (s.setInsState v).summary = s.summary := setLv_summary _ _ _ _ _
@[simp] theorem setInsState_fatal (s : Dev) (v : Nat) : (s.setInsState v).fatal = s.fatal := setLv_fatal _ _ _ _ _
@[simp] theorem setInsState_tel (s : Dev) (v : Nat) : (s.setInsState v).tel = s.tel := setLv_tel _ _ _ _ _
@[simp] theorem setInsState_sec (s : Dev) (v : Nat) : (s.setInsState v).sec = s.sec := setLv_sec _ _ _ _ _
@[simp] theorem setInsState_ctl (s : Dev) (v : Nat) : (s.setInsState v).ctl = s.ctl := setLv_ctl _ _ _ _ _
@[simp] theorem setInsState_pwr (s : Dev) (v : Nat) : (s.setInsState v).pwr = s.pwr := setLv_pwr _ _ _ _ _
@[simp] theorem setInsState_nextId (s : Dev) (v : Nat) : (s.setInsState v).nextId = s.nextId := setLv_nextId _ _ _ _ _
@[simp] theorem setInsState_fresh (s : Dev) (v : Nat) : (s.setInsState v).fresh = s.fresh := setLv_fresh _ _ _ _ _
@[simp] theorem setInsState_sent (s : Dev) (v : Nat) : (s.setInsState v).sent = s.sent := setLv_sent _ _ _ _ _
@[simp] theorem setInsState_sig (s : Dev) (v : Nat) : (s.setInsState v).sig = s.sig := setLv_sig _ _ _ _ _

/-! ### setMoltResult changes `live` only -/

@[simp] theorem setMoltResult_beat (s : Dev) (v : Nat) : (s.setMoltResult v).beat = s.beat := setLv_beat _ _ _ _ _
@[simp] theorem setMoltResult_ticks (s : Dev) (v : Nat) : (s.setMoltResult v).ticks = s.ticks := setLv_ticks _ _ _ _ _
@[simp] theorem setMoltResult_latches (s : Dev) (v : Nat) : (s.setMoltResult v).latches = s.latches := setLv_latches _ _ _ _ _
@[simp] theorem setMoltResult_pairs (s : Dev) (v : Nat) : (s.setMoltResult v).pairs = s.pairs := setLv_pairs _ _ _ _ _
@[simp] theorem setMoltResult_staged (s : Dev) (v : Nat) : (s.setMoltResult v).staged = s.staged := setLv_staged _ _ _ _ _
@[simp] theorem setMoltResult_active (s : Dev) (v : Nat) : (s.setMoltResult v).active = s.active := setLv_active _ _ _ _ _
@[simp] theorem setMoltResult_number (s : Dev) (v : Nat) : (s.setMoltResult v).number = s.number := setLv_number _ _ _ _ _
@[simp] theorem setMoltResult_previous (s : Dev) (v : Nat) : (s.setMoltResult v).previous = s.previous := setLv_previous _ _ _ _ _
@[simp] theorem setMoltResult_retiring (s : Dev) (v : Nat) : (s.setMoltResult v).retiring = s.retiring := setLv_retiring _ _ _ _ _
@[simp] theorem setMoltResult_molt (s : Dev) (v : Nat) : (s.setMoltResult v).molt = s.molt := setLv_molt _ _ _ _ _
@[simp] theorem setMoltResult_damaged (s : Dev) (v : Nat) : (s.setMoltResult v).damaged = s.damaged := setLv_damaged _ _ _ _ _
@[simp] theorem setMoltResult_audit (s : Dev) (v : Nat) : (s.setMoltResult v).audit = s.audit := setLv_audit _ _ _ _ _
@[simp] theorem setMoltResult_mem (s : Dev) (v : Nat) : (s.setMoltResult v).mem = s.mem := setLv_mem _ _ _ _ _
@[simp] theorem setMoltResult_memSt (s : Dev) (v : Nat) : (s.setMoltResult v).memSt = s.memSt := setLv_memSt _ _ _ _ _
@[simp] theorem setMoltResult_time (s : Dev) (v : Nat) : (s.setMoltResult v).time = s.time := setLv_time _ _ _ _ _
@[simp] theorem setMoltResult_alarms (s : Dev) (v : Nat) : (s.setMoltResult v).alarms = s.alarms := setLv_alarms _ _ _ _ _
@[simp] theorem setMoltResult_releases (s : Dev) (v : Nat) : (s.setMoltResult v).releases = s.releases := setLv_releases _ _ _ _ _
@[simp] theorem setMoltResult_ports (s : Dev) (v : Nat) : (s.setMoltResult v).ports = s.ports := setLv_ports _ _ _ _ _
@[simp] theorem setMoltResult_laneErr (s : Dev) (v : Nat) : (s.setMoltResult v).laneErr = s.laneErr := setLv_laneErr _ _ _ _ _
@[simp] theorem setMoltResult_arrived (s : Dev) (v : Nat) : (s.setMoltResult v).arrived = s.arrived := setLv_arrived _ _ _ _ _
@[simp] theorem setMoltResult_mcasts (s : Dev) (v : Nat) : (s.setMoltResult v).mcasts = s.mcasts := setLv_mcasts _ _ _ _ _
@[simp] theorem setMoltResult_stalled (s : Dev) (v : Nat) : (s.setMoltResult v).stalled = s.stalled := setLv_stalled _ _ _ _ _
@[simp] theorem setMoltResult_ownAnswers (s : Dev) (v : Nat) : (s.setMoltResult v).ownAnswers = s.ownAnswers := setLv_ownAnswers _ _ _ _ _
@[simp] theorem setMoltResult_allocs (s : Dev) (v : Nat) : (s.setMoltResult v).allocs = s.allocs := setLv_allocs _ _ _ _ _
@[simp] theorem setMoltResult_credit (s : Dev) (v : Nat) : (s.setMoltResult v).credit = s.credit := setLv_credit _ _ _ _ _
@[simp] theorem setMoltResult_lost (s : Dev) (v : Nat) : (s.setMoltResult v).lost = s.lost := setLv_lost _ _ _ _ _
@[simp] theorem setMoltResult_touched (s : Dev) (v : Nat) : (s.setMoltResult v).touched = s.touched := setLv_touched _ _ _ _ _
@[simp] theorem setMoltResult_cfgErr (s : Dev) (v : Nat) : (s.setMoltResult v).cfgErr = s.cfgErr := setLv_cfgErr _ _ _ _ _
@[simp] theorem setMoltResult_uncharged (s : Dev) (v : Nat) : (s.setMoltResult v).uncharged = s.uncharged := setLv_uncharged _ _ _ _ _
@[simp] theorem setMoltResult_parked (s : Dev) (v : Nat) : (s.setMoltResult v).parked = s.parked := setLv_parked _ _ _ _ _
@[simp] theorem setMoltResult_groups (s : Dev) (v : Nat) : (s.setMoltResult v).groups = s.groups := setLv_groups _ _ _ _ _
@[simp] theorem setMoltResult_ctxs (s : Dev) (v : Nat) : (s.setMoltResult v).ctxs = s.ctxs := setLv_ctxs _ _ _ _ _
@[simp] theorem setMoltResult_released (s : Dev) (v : Nat) : (s.setMoltResult v).released = s.released := setLv_released _ _ _ _ _
@[simp] theorem setMoltResult_gotten (s : Dev) (v : Nat) : (s.setMoltResult v).gotten = s.gotten := setLv_gotten _ _ _ _ _
@[simp] theorem setMoltResult_lostNow (s : Dev) (v : Nat) : (s.setMoltResult v).lostNow = s.lostNow := setLv_lostNow _ _ _ _ _
@[simp] theorem setMoltResult_replays (s : Dev) (v : Nat) : (s.setMoltResult v).replays = s.replays := setLv_replays _ _ _ _ _
@[simp] theorem setMoltResult_inputs (s : Dev) (v : Nat) : (s.setMoltResult v).inputs = s.inputs := setLv_inputs _ _ _ _ _
@[simp] theorem setMoltResult_works (s : Dev) (v : Nat) : (s.setMoltResult v).works = s.works := setLv_works _ _ _ _ _
@[simp] theorem setMoltResult_routeInfo (s : Dev) (v : Nat) : (s.setMoltResult v).routeInfo = s.routeInfo := setLv_routeInfo _ _ _ _ _
@[simp] theorem setMoltResult_batches (s : Dev) (v : Nat) : (s.setMoltResult v).batches = s.batches := setLv_batches _ _ _ _ _
@[simp] theorem setMoltResult_tableWorks (s : Dev) (v : Nat) : (s.setMoltResult v).tableWorks = s.tableWorks := setLv_tableWorks _ _ _ _ _
@[simp] theorem setMoltResult_gathers (s : Dev) (v : Nat) : (s.setMoltResult v).gathers = s.gathers := setLv_gathers _ _ _ _ _
@[simp] theorem setMoltResult_threads (s : Dev) (v : Nat) : (s.setMoltResult v).threads = s.threads := setLv_threads _ _ _ _ _
@[simp] theorem setMoltResult_cores (s : Dev) (v : Nat) : (s.setMoltResult v).cores = s.cores := setLv_cores _ _ _ _ _
@[simp] theorem setMoltResult_adapters (s : Dev) (v : Nat) : (s.setMoltResult v).adapters = s.adapters := setLv_adapters _ _ _ _ _
@[simp] theorem setMoltResult_collectors (s : Dev) (v : Nat) : (s.setMoltResult v).collectors = s.collectors := setLv_collectors _ _ _ _ _
@[simp] theorem setMoltResult_summary (s : Dev) (v : Nat) : (s.setMoltResult v).summary = s.summary := setLv_summary _ _ _ _ _
@[simp] theorem setMoltResult_fatal (s : Dev) (v : Nat) : (s.setMoltResult v).fatal = s.fatal := setLv_fatal _ _ _ _ _
@[simp] theorem setMoltResult_tel (s : Dev) (v : Nat) : (s.setMoltResult v).tel = s.tel := setLv_tel _ _ _ _ _
@[simp] theorem setMoltResult_sec (s : Dev) (v : Nat) : (s.setMoltResult v).sec = s.sec := setLv_sec _ _ _ _ _
@[simp] theorem setMoltResult_ctl (s : Dev) (v : Nat) : (s.setMoltResult v).ctl = s.ctl := setLv_ctl _ _ _ _ _
@[simp] theorem setMoltResult_pwr (s : Dev) (v : Nat) : (s.setMoltResult v).pwr = s.pwr := setLv_pwr _ _ _ _ _
@[simp] theorem setMoltResult_nextId (s : Dev) (v : Nat) : (s.setMoltResult v).nextId = s.nextId := setLv_nextId _ _ _ _ _
@[simp] theorem setMoltResult_fresh (s : Dev) (v : Nat) : (s.setMoltResult v).fresh = s.fresh := setLv_fresh _ _ _ _ _
@[simp] theorem setMoltResult_sent (s : Dev) (v : Nat) : (s.setMoltResult v).sent = s.sent := setLv_sent _ _ _ _ _
@[simp] theorem setMoltResult_sig (s : Dev) (v : Nat) : (s.setMoltResult v).sig = s.sig := setLv_sig _ _ _ _ _

/-! ### emit changes `sent` only -/

@[simp] theorem emit_beat (s : Dev) (e : Emit) : (s.emit e).beat = s.beat := with_sent_beat _ _
@[simp] theorem emit_ticks (s : Dev) (e : Emit) : (s.emit e).ticks = s.ticks := with_sent_ticks _ _
@[simp] theorem emit_live (s : Dev) (e : Emit) : (s.emit e).live = s.live := with_sent_live _ _
@[simp] theorem emit_latches (s : Dev) (e : Emit) : (s.emit e).latches = s.latches := with_sent_latches _ _
@[simp] theorem emit_pairs (s : Dev) (e : Emit) : (s.emit e).pairs = s.pairs := with_sent_pairs _ _
@[simp] theorem emit_staged (s : Dev) (e : Emit) : (s.emit e).staged = s.staged := with_sent_staged _ _
@[simp] theorem emit_active (s : Dev) (e : Emit) : (s.emit e).active = s.active := with_sent_active _ _
@[simp] theorem emit_number (s : Dev) (e : Emit) : (s.emit e).number = s.number := with_sent_number _ _
@[simp] theorem emit_previous (s : Dev) (e : Emit) : (s.emit e).previous = s.previous := with_sent_previous _ _
@[simp] theorem emit_retiring (s : Dev) (e : Emit) : (s.emit e).retiring = s.retiring := with_sent_retiring _ _
@[simp] theorem emit_molt (s : Dev) (e : Emit) : (s.emit e).molt = s.molt := with_sent_molt _ _
@[simp] theorem emit_damaged (s : Dev) (e : Emit) : (s.emit e).damaged = s.damaged := with_sent_damaged _ _
@[simp] theorem emit_audit (s : Dev) (e : Emit) : (s.emit e).audit = s.audit := with_sent_audit _ _
@[simp] theorem emit_mem (s : Dev) (e : Emit) : (s.emit e).mem = s.mem := with_sent_mem _ _
@[simp] theorem emit_memSt (s : Dev) (e : Emit) : (s.emit e).memSt = s.memSt := with_sent_memSt _ _
@[simp] theorem emit_time (s : Dev) (e : Emit) : (s.emit e).time = s.time := with_sent_time _ _
@[simp] theorem emit_alarms (s : Dev) (e : Emit) : (s.emit e).alarms = s.alarms := with_sent_alarms _ _
@[simp] theorem emit_releases (s : Dev) (e : Emit) : (s.emit e).releases = s.releases := with_sent_releases _ _
@[simp] theorem emit_ports (s : Dev) (e : Emit) : (s.emit e).ports = s.ports := with_sent_ports _ _
@[simp] theorem emit_laneErr (s : Dev) (e : Emit) : (s.emit e).laneErr = s.laneErr := with_sent_laneErr _ _
@[simp] theorem emit_arrived (s : Dev) (e : Emit) : (s.emit e).arrived = s.arrived := with_sent_arrived _ _
@[simp] theorem emit_mcasts (s : Dev) (e : Emit) : (s.emit e).mcasts = s.mcasts := with_sent_mcasts _ _
@[simp] theorem emit_stalled (s : Dev) (e : Emit) : (s.emit e).stalled = s.stalled := with_sent_stalled _ _
@[simp] theorem emit_ownAnswers (s : Dev) (e : Emit) : (s.emit e).ownAnswers = s.ownAnswers := with_sent_ownAnswers _ _
@[simp] theorem emit_allocs (s : Dev) (e : Emit) : (s.emit e).allocs = s.allocs := with_sent_allocs _ _
@[simp] theorem emit_credit (s : Dev) (e : Emit) : (s.emit e).credit = s.credit := with_sent_credit _ _
@[simp] theorem emit_lost (s : Dev) (e : Emit) : (s.emit e).lost = s.lost := with_sent_lost _ _
@[simp] theorem emit_touched (s : Dev) (e : Emit) : (s.emit e).touched = s.touched := with_sent_touched _ _
@[simp] theorem emit_cfgErr (s : Dev) (e : Emit) : (s.emit e).cfgErr = s.cfgErr := with_sent_cfgErr _ _
@[simp] theorem emit_uncharged (s : Dev) (e : Emit) : (s.emit e).uncharged = s.uncharged := with_sent_uncharged _ _
@[simp] theorem emit_parked (s : Dev) (e : Emit) : (s.emit e).parked = s.parked := with_sent_parked _ _
@[simp] theorem emit_groups (s : Dev) (e : Emit) : (s.emit e).groups = s.groups := with_sent_groups _ _
@[simp] theorem emit_ctxs (s : Dev) (e : Emit) : (s.emit e).ctxs = s.ctxs := with_sent_ctxs _ _
@[simp] theorem emit_released (s : Dev) (e : Emit) : (s.emit e).released = s.released := with_sent_released _ _
@[simp] theorem emit_gotten (s : Dev) (e : Emit) : (s.emit e).gotten = s.gotten := with_sent_gotten _ _
@[simp] theorem emit_lostNow (s : Dev) (e : Emit) : (s.emit e).lostNow = s.lostNow := with_sent_lostNow _ _
@[simp] theorem emit_replays (s : Dev) (e : Emit) : (s.emit e).replays = s.replays := with_sent_replays _ _
@[simp] theorem emit_inputs (s : Dev) (e : Emit) : (s.emit e).inputs = s.inputs := with_sent_inputs _ _
@[simp] theorem emit_works (s : Dev) (e : Emit) : (s.emit e).works = s.works := with_sent_works _ _
@[simp] theorem emit_routeInfo (s : Dev) (e : Emit) : (s.emit e).routeInfo = s.routeInfo := with_sent_routeInfo _ _
@[simp] theorem emit_batches (s : Dev) (e : Emit) : (s.emit e).batches = s.batches := with_sent_batches _ _
@[simp] theorem emit_tableWorks (s : Dev) (e : Emit) : (s.emit e).tableWorks = s.tableWorks := with_sent_tableWorks _ _
@[simp] theorem emit_gathers (s : Dev) (e : Emit) : (s.emit e).gathers = s.gathers := with_sent_gathers _ _
@[simp] theorem emit_threads (s : Dev) (e : Emit) : (s.emit e).threads = s.threads := with_sent_threads _ _
@[simp] theorem emit_cores (s : Dev) (e : Emit) : (s.emit e).cores = s.cores := with_sent_cores _ _
@[simp] theorem emit_adapters (s : Dev) (e : Emit) : (s.emit e).adapters = s.adapters := with_sent_adapters _ _
@[simp] theorem emit_collectors (s : Dev) (e : Emit) : (s.emit e).collectors = s.collectors := with_sent_collectors _ _
@[simp] theorem emit_summary (s : Dev) (e : Emit) : (s.emit e).summary = s.summary := with_sent_summary _ _
@[simp] theorem emit_fatal (s : Dev) (e : Emit) : (s.emit e).fatal = s.fatal := with_sent_fatal _ _
@[simp] theorem emit_tel (s : Dev) (e : Emit) : (s.emit e).tel = s.tel := with_sent_tel _ _
@[simp] theorem emit_sec (s : Dev) (e : Emit) : (s.emit e).sec = s.sec := with_sent_sec _ _
@[simp] theorem emit_ctl (s : Dev) (e : Emit) : (s.emit e).ctl = s.ctl := with_sent_ctl _ _
@[simp] theorem emit_pwr (s : Dev) (e : Emit) : (s.emit e).pwr = s.pwr := with_sent_pwr _ _
@[simp] theorem emit_nextId (s : Dev) (e : Emit) : (s.emit e).nextId = s.nextId := with_sent_nextId _ _
@[simp] theorem emit_fresh (s : Dev) (e : Emit) : (s.emit e).fresh = s.fresh := with_sent_fresh _ _
@[simp] theorem emit_sig (s : Dev) (e : Emit) : (s.emit e).sig = s.sig := with_sent_sig _ _

/-! ### setPort changes `ports` only -/

@[simp] theorem setPort_beat (s : Dev) (p : Nat) (x : Port) : (s.setPort p x).beat = s.beat := with_ports_beat _ _
@[simp] theorem setPort_ticks (s : Dev) (p : Nat) (x : Port) : (s.setPort p x).ticks = s.ticks := with_ports_ticks _ _
@[simp] theorem setPort_live (s : Dev) (p : Nat) (x : Port) : (s.setPort p x).live = s.live := with_ports_live _ _
@[simp] theorem setPort_latches (s : Dev) (p : Nat) (x : Port) : (s.setPort p x).latches = s.latches := with_ports_latches _ _
@[simp] theorem setPort_pairs (s : Dev) (p : Nat) (x : Port) : (s.setPort p x).pairs = s.pairs := with_ports_pairs _ _
@[simp] theorem setPort_staged (s : Dev) (p : Nat) (x : Port) : (s.setPort p x).staged = s.staged := with_ports_staged _ _
@[simp] theorem setPort_active (s : Dev) (p : Nat) (x : Port) : (s.setPort p x).active = s.active := with_ports_active _ _
@[simp] theorem setPort_number (s : Dev) (p : Nat) (x : Port) : (s.setPort p x).number = s.number := with_ports_number _ _
@[simp] theorem setPort_previous (s : Dev) (p : Nat) (x : Port) : (s.setPort p x).previous = s.previous := with_ports_previous _ _
@[simp] theorem setPort_retiring (s : Dev) (p : Nat) (x : Port) : (s.setPort p x).retiring = s.retiring := with_ports_retiring _ _
@[simp] theorem setPort_molt (s : Dev) (p : Nat) (x : Port) : (s.setPort p x).molt = s.molt := with_ports_molt _ _
@[simp] theorem setPort_damaged (s : Dev) (p : Nat) (x : Port) : (s.setPort p x).damaged = s.damaged := with_ports_damaged _ _
@[simp] theorem setPort_audit (s : Dev) (p : Nat) (x : Port) : (s.setPort p x).audit = s.audit := with_ports_audit _ _
@[simp] theorem setPort_mem (s : Dev) (p : Nat) (x : Port) : (s.setPort p x).mem = s.mem := with_ports_mem _ _
@[simp] theorem setPort_memSt (s : Dev) (p : Nat) (x : Port) : (s.setPort p x).memSt = s.memSt := with_ports_memSt _ _
@[simp] theorem setPort_time (s : Dev) (p : Nat) (x : Port) : (s.setPort p x).time = s.time := with_ports_time _ _
@[simp] theorem setPort_alarms (s : Dev) (p : Nat) (x : Port) : (s.setPort p x).alarms = s.alarms := with_ports_alarms _ _
@[simp] theorem setPort_releases (s : Dev) (p : Nat) (x : Port) : (s.setPort p x).releases = s.releases := with_ports_releases _ _
@[simp] theorem setPort_laneErr (s : Dev) (p : Nat) (x : Port) : (s.setPort p x).laneErr = s.laneErr := with_ports_laneErr _ _
@[simp] theorem setPort_arrived (s : Dev) (p : Nat) (x : Port) : (s.setPort p x).arrived = s.arrived := with_ports_arrived _ _
@[simp] theorem setPort_mcasts (s : Dev) (p : Nat) (x : Port) : (s.setPort p x).mcasts = s.mcasts := with_ports_mcasts _ _
@[simp] theorem setPort_stalled (s : Dev) (p : Nat) (x : Port) : (s.setPort p x).stalled = s.stalled := with_ports_stalled _ _
@[simp] theorem setPort_ownAnswers (s : Dev) (p : Nat) (x : Port) : (s.setPort p x).ownAnswers = s.ownAnswers := with_ports_ownAnswers _ _
@[simp] theorem setPort_allocs (s : Dev) (p : Nat) (x : Port) : (s.setPort p x).allocs = s.allocs := with_ports_allocs _ _
@[simp] theorem setPort_credit (s : Dev) (p : Nat) (x : Port) : (s.setPort p x).credit = s.credit := with_ports_credit _ _
@[simp] theorem setPort_lost (s : Dev) (p : Nat) (x : Port) : (s.setPort p x).lost = s.lost := with_ports_lost _ _
@[simp] theorem setPort_touched (s : Dev) (p : Nat) (x : Port) : (s.setPort p x).touched = s.touched := with_ports_touched _ _
@[simp] theorem setPort_cfgErr (s : Dev) (p : Nat) (x : Port) : (s.setPort p x).cfgErr = s.cfgErr := with_ports_cfgErr _ _
@[simp] theorem setPort_uncharged (s : Dev) (p : Nat) (x : Port) : (s.setPort p x).uncharged = s.uncharged := with_ports_uncharged _ _
@[simp] theorem setPort_parked (s : Dev) (p : Nat) (x : Port) : (s.setPort p x).parked = s.parked := with_ports_parked _ _
@[simp] theorem setPort_groups (s : Dev) (p : Nat) (x : Port) : (s.setPort p x).groups = s.groups := with_ports_groups _ _
@[simp] theorem setPort_ctxs (s : Dev) (p : Nat) (x : Port) : (s.setPort p x).ctxs = s.ctxs := with_ports_ctxs _ _
@[simp] theorem setPort_released (s : Dev) (p : Nat) (x : Port) : (s.setPort p x).released = s.released := with_ports_released _ _
@[simp] theorem setPort_gotten (s : Dev) (p : Nat) (x : Port) : (s.setPort p x).gotten = s.gotten := with_ports_gotten _ _
@[simp] theorem setPort_lostNow (s : Dev) (p : Nat) (x : Port) : (s.setPort p x).lostNow = s.lostNow := with_ports_lostNow _ _
@[simp] theorem setPort_replays (s : Dev) (p : Nat) (x : Port) : (s.setPort p x).replays = s.replays := with_ports_replays _ _
@[simp] theorem setPort_inputs (s : Dev) (p : Nat) (x : Port) : (s.setPort p x).inputs = s.inputs := with_ports_inputs _ _
@[simp] theorem setPort_works (s : Dev) (p : Nat) (x : Port) : (s.setPort p x).works = s.works := with_ports_works _ _
@[simp] theorem setPort_routeInfo (s : Dev) (p : Nat) (x : Port) : (s.setPort p x).routeInfo = s.routeInfo := with_ports_routeInfo _ _
@[simp] theorem setPort_batches (s : Dev) (p : Nat) (x : Port) : (s.setPort p x).batches = s.batches := with_ports_batches _ _
@[simp] theorem setPort_tableWorks (s : Dev) (p : Nat) (x : Port) : (s.setPort p x).tableWorks = s.tableWorks := with_ports_tableWorks _ _
@[simp] theorem setPort_gathers (s : Dev) (p : Nat) (x : Port) : (s.setPort p x).gathers = s.gathers := with_ports_gathers _ _
@[simp] theorem setPort_threads (s : Dev) (p : Nat) (x : Port) : (s.setPort p x).threads = s.threads := with_ports_threads _ _
@[simp] theorem setPort_cores (s : Dev) (p : Nat) (x : Port) : (s.setPort p x).cores = s.cores := with_ports_cores _ _
@[simp] theorem setPort_adapters (s : Dev) (p : Nat) (x : Port) : (s.setPort p x).adapters = s.adapters := with_ports_adapters _ _
@[simp] theorem setPort_collectors (s : Dev) (p : Nat) (x : Port) : (s.setPort p x).collectors = s.collectors := with_ports_collectors _ _
@[simp] theorem setPort_summary (s : Dev) (p : Nat) (x : Port) : (s.setPort p x).summary = s.summary := with_ports_summary _ _
@[simp] theorem setPort_fatal (s : Dev) (p : Nat) (x : Port) : (s.setPort p x).fatal = s.fatal := with_ports_fatal _ _
@[simp] theorem setPort_tel (s : Dev) (p : Nat) (x : Port) : (s.setPort p x).tel = s.tel := with_ports_tel _ _
@[simp] theorem setPort_sec (s : Dev) (p : Nat) (x : Port) : (s.setPort p x).sec = s.sec := with_ports_sec _ _
@[simp] theorem setPort_ctl (s : Dev) (p : Nat) (x : Port) : (s.setPort p x).ctl = s.ctl := with_ports_ctl _ _
@[simp] theorem setPort_pwr (s : Dev) (p : Nat) (x : Port) : (s.setPort p x).pwr = s.pwr := with_ports_pwr _ _
@[simp] theorem setPort_nextId (s : Dev) (p : Nat) (x : Port) : (s.setPort p x).nextId = s.nextId := with_ports_nextId _ _
@[simp] theorem setPort_fresh (s : Dev) (p : Nat) (x : Port) : (s.setPort p x).fresh = s.fresh := with_ports_fresh _ _
@[simp] theorem setPort_sent (s : Dev) (p : Nat) (x : Port) : (s.setPort p x).sent = s.sent := with_ports_sent _ _
@[simp] theorem setPort_sig (s : Dev) (p : Nat) (x : Port) : (s.setPort p x).sig = s.sig := with_ports_sig _ _

/-! ### updPort changes `ports` only -/

@[simp] theorem updPort_beat (s : Dev) (p : Nat) (f : Port → Port) : (s.updPort p f).beat = s.beat := setPort_beat _ _ _
@[simp] theorem updPort_ticks (s : Dev) (p : Nat) (f : Port → Port) : (s.updPort p f).ticks = s.ticks := setPort_ticks _ _ _
@[simp] theorem updPort_live (s : Dev) (p : Nat) (f : Port → Port) : (s.updPort p f).live = s.live := setPort_live _ _ _
@[simp] theorem updPort_latches (s : Dev) (p : Nat) (f : Port → Port) : (s.updPort p f).latches = s.latches := setPort_latches _ _ _
@[simp] theorem updPort_pairs (s : Dev) (p : Nat) (f : Port → Port) : (s.updPort p f).pairs = s.pairs := setPort_pairs _ _ _
@[simp] theorem updPort_staged (s : Dev) (p : Nat) (f : Port → Port) : (s.updPort p f).staged = s.staged := setPort_staged _ _ _
@[simp] theorem updPort_active (s : Dev) (p : Nat) (f : Port → Port) : (s.updPort p f).active = s.active := setPort_active _ _ _
@[simp] theorem updPort_number (s : Dev) (p : Nat) (f : Port → Port) : (s.updPort p f).number = s.number := setPort_number _ _ _
@[simp] theorem updPort_previous (s : Dev) (p : Nat) (f : Port → Port) : (s.updPort p f).previous = s.previous := setPort_previous _ _ _
@[simp] theorem updPort_retiring (s : Dev) (p : Nat) (f : Port → Port) : (s.updPort p f).retiring = s.retiring := setPort_retiring _ _ _
@[simp] theorem updPort_molt (s : Dev) (p : Nat) (f : Port → Port) : (s.updPort p f).molt = s.molt := setPort_molt _ _ _
@[simp] theorem updPort_damaged (s : Dev) (p : Nat) (f : Port → Port) : (s.updPort p f).damaged = s.damaged := setPort_damaged _ _ _
@[simp] theorem updPort_audit (s : Dev) (p : Nat) (f : Port → Port) : (s.updPort p f).audit = s.audit := setPort_audit _ _ _
@[simp] theorem updPort_mem (s : Dev) (p : Nat) (f : Port → Port) : (s.updPort p f).mem = s.mem := setPort_mem _ _ _
@[simp] theorem updPort_memSt (s : Dev) (p : Nat) (f : Port → Port) : (s.updPort p f).memSt = s.memSt := setPort_memSt _ _ _
@[simp] theorem updPort_time (s : Dev) (p : Nat) (f : Port → Port) : (s.updPort p f).time = s.time := setPort_time _ _ _
@[simp] theorem updPort_alarms (s : Dev) (p : Nat) (f : Port → Port) : (s.updPort p f).alarms = s.alarms := setPort_alarms _ _ _
@[simp] theorem updPort_releases (s : Dev) (p : Nat) (f : Port → Port) : (s.updPort p f).releases = s.releases := setPort_releases _ _ _
@[simp] theorem updPort_laneErr (s : Dev) (p : Nat) (f : Port → Port) : (s.updPort p f).laneErr = s.laneErr := setPort_laneErr _ _ _
@[simp] theorem updPort_arrived (s : Dev) (p : Nat) (f : Port → Port) : (s.updPort p f).arrived = s.arrived := setPort_arrived _ _ _
@[simp] theorem updPort_mcasts (s : Dev) (p : Nat) (f : Port → Port) : (s.updPort p f).mcasts = s.mcasts := setPort_mcasts _ _ _
@[simp] theorem updPort_stalled (s : Dev) (p : Nat) (f : Port → Port) : (s.updPort p f).stalled = s.stalled := setPort_stalled _ _ _
@[simp] theorem updPort_ownAnswers (s : Dev) (p : Nat) (f : Port → Port) : (s.updPort p f).ownAnswers = s.ownAnswers := setPort_ownAnswers _ _ _
@[simp] theorem updPort_allocs (s : Dev) (p : Nat) (f : Port → Port) : (s.updPort p f).allocs = s.allocs := setPort_allocs _ _ _
@[simp] theorem updPort_credit (s : Dev) (p : Nat) (f : Port → Port) : (s.updPort p f).credit = s.credit := setPort_credit _ _ _
@[simp] theorem updPort_lost (s : Dev) (p : Nat) (f : Port → Port) : (s.updPort p f).lost = s.lost := setPort_lost _ _ _
@[simp] theorem updPort_touched (s : Dev) (p : Nat) (f : Port → Port) : (s.updPort p f).touched = s.touched := setPort_touched _ _ _
@[simp] theorem updPort_cfgErr (s : Dev) (p : Nat) (f : Port → Port) : (s.updPort p f).cfgErr = s.cfgErr := setPort_cfgErr _ _ _
@[simp] theorem updPort_uncharged (s : Dev) (p : Nat) (f : Port → Port) : (s.updPort p f).uncharged = s.uncharged := setPort_uncharged _ _ _
@[simp] theorem updPort_parked (s : Dev) (p : Nat) (f : Port → Port) : (s.updPort p f).parked = s.parked := setPort_parked _ _ _
@[simp] theorem updPort_groups (s : Dev) (p : Nat) (f : Port → Port) : (s.updPort p f).groups = s.groups := setPort_groups _ _ _
@[simp] theorem updPort_ctxs (s : Dev) (p : Nat) (f : Port → Port) : (s.updPort p f).ctxs = s.ctxs := setPort_ctxs _ _ _
@[simp] theorem updPort_released (s : Dev) (p : Nat) (f : Port → Port) : (s.updPort p f).released = s.released := setPort_released _ _ _
@[simp] theorem updPort_gotten (s : Dev) (p : Nat) (f : Port → Port) : (s.updPort p f).gotten = s.gotten := setPort_gotten _ _ _
@[simp] theorem updPort_lostNow (s : Dev) (p : Nat) (f : Port → Port) : (s.updPort p f).lostNow = s.lostNow := setPort_lostNow _ _ _
@[simp] theorem updPort_replays (s : Dev) (p : Nat) (f : Port → Port) : (s.updPort p f).replays = s.replays := setPort_replays _ _ _
@[simp] theorem updPort_inputs (s : Dev) (p : Nat) (f : Port → Port) : (s.updPort p f).inputs = s.inputs := setPort_inputs _ _ _
@[simp] theorem updPort_works (s : Dev) (p : Nat) (f : Port → Port) : (s.updPort p f).works = s.works := setPort_works _ _ _
@[simp] theorem updPort_routeInfo (s : Dev) (p : Nat) (f : Port → Port) : (s.updPort p f).routeInfo = s.routeInfo := setPort_routeInfo _ _ _
@[simp] theorem updPort_batches (s : Dev) (p : Nat) (f : Port → Port) : (s.updPort p f).batches = s.batches := setPort_batches _ _ _
@[simp] theorem updPort_tableWorks (s : Dev) (p : Nat) (f : Port → Port) : (s.updPort p f).tableWorks = s.tableWorks := setPort_tableWorks _ _ _
@[simp] theorem updPort_gathers (s : Dev) (p : Nat) (f : Port → Port) : (s.updPort p f).gathers = s.gathers := setPort_gathers _ _ _
@[simp] theorem updPort_threads (s : Dev) (p : Nat) (f : Port → Port) : (s.updPort p f).threads = s.threads := setPort_threads _ _ _
@[simp] theorem updPort_cores (s : Dev) (p : Nat) (f : Port → Port) : (s.updPort p f).cores = s.cores := setPort_cores _ _ _
@[simp] theorem updPort_adapters (s : Dev) (p : Nat) (f : Port → Port) : (s.updPort p f).adapters = s.adapters := setPort_adapters _ _ _
@[simp] theorem updPort_collectors (s : Dev) (p : Nat) (f : Port → Port) : (s.updPort p f).collectors = s.collectors := setPort_collectors _ _ _
@[simp] theorem updPort_summary (s : Dev) (p : Nat) (f : Port → Port) : (s.updPort p f).summary = s.summary := setPort_summary _ _ _
@[simp] theorem updPort_fatal (s : Dev) (p : Nat) (f : Port → Port) : (s.updPort p f).fatal = s.fatal := setPort_fatal _ _ _
@[simp] theorem updPort_tel (s : Dev) (p : Nat) (f : Port → Port) : (s.updPort p f).tel = s.tel := setPort_tel _ _ _
@[simp] theorem updPort_sec (s : Dev) (p : Nat) (f : Port → Port) : (s.updPort p f).sec = s.sec := setPort_sec _ _ _
@[simp] theorem updPort_ctl (s : Dev) (p : Nat) (f : Port → Port) : (s.updPort p f).ctl = s.ctl := setPort_ctl _ _ _
@[simp] theorem updPort_pwr (s : Dev) (p : Nat) (f : Port → Port) : (s.updPort p f).pwr = s.pwr := setPort_pwr _ _ _
@[simp] theorem updPort_nextId (s : Dev) (p : Nat) (f : Port → Port) : (s.updPort p f).nextId = s.nextId := setPort_nextId _ _ _
@[simp] theorem updPort_fresh (s : Dev) (p : Nat) (f : Port → Port) : (s.updPort p f).fresh = s.fresh := setPort_fresh _ _ _
@[simp] theorem updPort_sent (s : Dev) (p : Nat) (f : Port → Port) : (s.updPort p f).sent = s.sent := setPort_sent _ _ _
@[simp] theorem updPort_sig (s : Dev) (p : Nat) (f : Port → Port) : (s.updPort p f).sig = s.sig := setPort_sig _ _ _

/-! ### setCollector changes `collectors` only -/

@[simp] theorem setCollector_beat (s : Dev) (d : Nat) (c : Collector) : (s.setCollector d c).beat = s.beat := with_collectors_beat _ _
@[simp] theorem setCollector_ticks (s : Dev) (d : Nat) (c : Collector) : (s.setCollector d c).ticks = s.ticks := with_collectors_ticks _ _
@[simp] theorem setCollector_live (s : Dev) (d : Nat) (c : Collector) : (s.setCollector d c).live = s.live := with_collectors_live _ _
@[simp] theorem setCollector_latches (s : Dev) (d : Nat) (c : Collector) : (s.setCollector d c).latches = s.latches := with_collectors_latches _ _
@[simp] theorem setCollector_pairs (s : Dev) (d : Nat) (c : Collector) : (s.setCollector d c).pairs = s.pairs := with_collectors_pairs _ _
@[simp] theorem setCollector_staged (s : Dev) (d : Nat) (c : Collector) : (s.setCollector d c).staged = s.staged := with_collectors_staged _ _
@[simp] theorem setCollector_active (s : Dev) (d : Nat) (c : Collector) : (s.setCollector d c).active = s.active := with_collectors_active _ _
@[simp] theorem setCollector_number (s : Dev) (d : Nat) (c : Collector) : (s.setCollector d c).number = s.number := with_collectors_number _ _
@[simp] theorem setCollector_previous (s : Dev) (d : Nat) (c : Collector) : (s.setCollector d c).previous = s.previous := with_collectors_previous _ _
@[simp] theorem setCollector_retiring (s : Dev) (d : Nat) (c : Collector) : (s.setCollector d c).retiring = s.retiring := with_collectors_retiring _ _
@[simp] theorem setCollector_molt (s : Dev) (d : Nat) (c : Collector) : (s.setCollector d c).molt = s.molt := with_collectors_molt _ _
@[simp] theorem setCollector_damaged (s : Dev) (d : Nat) (c : Collector) : (s.setCollector d c).damaged = s.damaged := with_collectors_damaged _ _
@[simp] theorem setCollector_audit (s : Dev) (d : Nat) (c : Collector) : (s.setCollector d c).audit = s.audit := with_collectors_audit _ _
@[simp] theorem setCollector_mem (s : Dev) (d : Nat) (c : Collector) : (s.setCollector d c).mem = s.mem := with_collectors_mem _ _
@[simp] theorem setCollector_memSt (s : Dev) (d : Nat) (c : Collector) : (s.setCollector d c).memSt = s.memSt := with_collectors_memSt _ _
@[simp] theorem setCollector_time (s : Dev) (d : Nat) (c : Collector) : (s.setCollector d c).time = s.time := with_collectors_time _ _
@[simp] theorem setCollector_alarms (s : Dev) (d : Nat) (c : Collector) : (s.setCollector d c).alarms = s.alarms := with_collectors_alarms _ _
@[simp] theorem setCollector_releases (s : Dev) (d : Nat) (c : Collector) : (s.setCollector d c).releases = s.releases := with_collectors_releases _ _
@[simp] theorem setCollector_ports (s : Dev) (d : Nat) (c : Collector) : (s.setCollector d c).ports = s.ports := with_collectors_ports _ _
@[simp] theorem setCollector_laneErr (s : Dev) (d : Nat) (c : Collector) : (s.setCollector d c).laneErr = s.laneErr := with_collectors_laneErr _ _
@[simp] theorem setCollector_arrived (s : Dev) (d : Nat) (c : Collector) : (s.setCollector d c).arrived = s.arrived := with_collectors_arrived _ _
@[simp] theorem setCollector_mcasts (s : Dev) (d : Nat) (c : Collector) : (s.setCollector d c).mcasts = s.mcasts := with_collectors_mcasts _ _
@[simp] theorem setCollector_stalled (s : Dev) (d : Nat) (c : Collector) : (s.setCollector d c).stalled = s.stalled := with_collectors_stalled _ _
@[simp] theorem setCollector_ownAnswers (s : Dev) (d : Nat) (c : Collector) : (s.setCollector d c).ownAnswers = s.ownAnswers := with_collectors_ownAnswers _ _
@[simp] theorem setCollector_allocs (s : Dev) (d : Nat) (c : Collector) : (s.setCollector d c).allocs = s.allocs := with_collectors_allocs _ _
@[simp] theorem setCollector_credit (s : Dev) (d : Nat) (c : Collector) : (s.setCollector d c).credit = s.credit := with_collectors_credit _ _
@[simp] theorem setCollector_lost (s : Dev) (d : Nat) (c : Collector) : (s.setCollector d c).lost = s.lost := with_collectors_lost _ _
@[simp] theorem setCollector_touched (s : Dev) (d : Nat) (c : Collector) : (s.setCollector d c).touched = s.touched := with_collectors_touched _ _
@[simp] theorem setCollector_cfgErr (s : Dev) (d : Nat) (c : Collector) : (s.setCollector d c).cfgErr = s.cfgErr := with_collectors_cfgErr _ _
@[simp] theorem setCollector_uncharged (s : Dev) (d : Nat) (c : Collector) : (s.setCollector d c).uncharged = s.uncharged := with_collectors_uncharged _ _
@[simp] theorem setCollector_parked (s : Dev) (d : Nat) (c : Collector) : (s.setCollector d c).parked = s.parked := with_collectors_parked _ _
@[simp] theorem setCollector_groups (s : Dev) (d : Nat) (c : Collector) : (s.setCollector d c).groups = s.groups := with_collectors_groups _ _
@[simp] theorem setCollector_ctxs (s : Dev) (d : Nat) (c : Collector) : (s.setCollector d c).ctxs = s.ctxs := with_collectors_ctxs _ _
@[simp] theorem setCollector_released (s : Dev) (d : Nat) (c : Collector) : (s.setCollector d c).released = s.released := with_collectors_released _ _
@[simp] theorem setCollector_gotten (s : Dev) (d : Nat) (c : Collector) : (s.setCollector d c).gotten = s.gotten := with_collectors_gotten _ _
@[simp] theorem setCollector_lostNow (s : Dev) (d : Nat) (c : Collector) : (s.setCollector d c).lostNow = s.lostNow := with_collectors_lostNow _ _
@[simp] theorem setCollector_replays (s : Dev) (d : Nat) (c : Collector) : (s.setCollector d c).replays = s.replays := with_collectors_replays _ _
@[simp] theorem setCollector_inputs (s : Dev) (d : Nat) (c : Collector) : (s.setCollector d c).inputs = s.inputs := with_collectors_inputs _ _
@[simp] theorem setCollector_works (s : Dev) (d : Nat) (c : Collector) : (s.setCollector d c).works = s.works := with_collectors_works _ _
@[simp] theorem setCollector_routeInfo (s : Dev) (d : Nat) (c : Collector) : (s.setCollector d c).routeInfo = s.routeInfo := with_collectors_routeInfo _ _
@[simp] theorem setCollector_batches (s : Dev) (d : Nat) (c : Collector) : (s.setCollector d c).batches = s.batches := with_collectors_batches _ _
@[simp] theorem setCollector_tableWorks (s : Dev) (d : Nat) (c : Collector) : (s.setCollector d c).tableWorks = s.tableWorks := with_collectors_tableWorks _ _
@[simp] theorem setCollector_gathers (s : Dev) (d : Nat) (c : Collector) : (s.setCollector d c).gathers = s.gathers := with_collectors_gathers _ _
@[simp] theorem setCollector_threads (s : Dev) (d : Nat) (c : Collector) : (s.setCollector d c).threads = s.threads := with_collectors_threads _ _
@[simp] theorem setCollector_cores (s : Dev) (d : Nat) (c : Collector) : (s.setCollector d c).cores = s.cores := with_collectors_cores _ _
@[simp] theorem setCollector_adapters (s : Dev) (d : Nat) (c : Collector) : (s.setCollector d c).adapters = s.adapters := with_collectors_adapters _ _
@[simp] theorem setCollector_summary (s : Dev) (d : Nat) (c : Collector) : (s.setCollector d c).summary = s.summary := with_collectors_summary _ _
@[simp] theorem setCollector_fatal (s : Dev) (d : Nat) (c : Collector) : (s.setCollector d c).fatal = s.fatal := with_collectors_fatal _ _
@[simp] theorem setCollector_tel (s : Dev) (d : Nat) (c : Collector) : (s.setCollector d c).tel = s.tel := with_collectors_tel _ _
@[simp] theorem setCollector_sec (s : Dev) (d : Nat) (c : Collector) : (s.setCollector d c).sec = s.sec := with_collectors_sec _ _
@[simp] theorem setCollector_ctl (s : Dev) (d : Nat) (c : Collector) : (s.setCollector d c).ctl = s.ctl := with_collectors_ctl _ _
@[simp] theorem setCollector_pwr (s : Dev) (d : Nat) (c : Collector) : (s.setCollector d c).pwr = s.pwr := with_collectors_pwr _ _
@[simp] theorem setCollector_nextId (s : Dev) (d : Nat) (c : Collector) : (s.setCollector d c).nextId = s.nextId := with_collectors_nextId _ _
@[simp] theorem setCollector_fresh (s : Dev) (d : Nat) (c : Collector) : (s.setCollector d c).fresh = s.fresh := with_collectors_fresh _ _
@[simp] theorem setCollector_sent (s : Dev) (d : Nat) (c : Collector) : (s.setCollector d c).sent = s.sent := with_collectors_sent _ _
@[simp] theorem setCollector_sig (s : Dev) (d : Nat) (c : Collector) : (s.setCollector d c).sig = s.sig := with_collectors_sig _ _

/-! ### setThread changes `threads` only -/

@[simp] theorem setThread_beat (s : Dev) (t : Nat) (x : Thread) : (s.setThread t x).beat = s.beat := with_threads_beat _ _
@[simp] theorem setThread_ticks (s : Dev) (t : Nat) (x : Thread) : (s.setThread t x).ticks = s.ticks := with_threads_ticks _ _
@[simp] theorem setThread_live (s : Dev) (t : Nat) (x : Thread) : (s.setThread t x).live = s.live := with_threads_live _ _
@[simp] theorem setThread_latches (s : Dev) (t : Nat) (x : Thread) : (s.setThread t x).latches = s.latches := with_threads_latches _ _
@[simp] theorem setThread_pairs (s : Dev) (t : Nat) (x : Thread) : (s.setThread t x).pairs = s.pairs := with_threads_pairs _ _
@[simp] theorem setThread_staged (s : Dev) (t : Nat) (x : Thread) : (s.setThread t x).staged = s.staged := with_threads_staged _ _
@[simp] theorem setThread_active (s : Dev) (t : Nat) (x : Thread) : (s.setThread t x).active = s.active := with_threads_active _ _
@[simp] theorem setThread_number (s : Dev) (t : Nat) (x : Thread) : (s.setThread t x).number = s.number := with_threads_number _ _
@[simp] theorem setThread_previous (s : Dev) (t : Nat) (x : Thread) : (s.setThread t x).previous = s.previous := with_threads_previous _ _
@[simp] theorem setThread_retiring (s : Dev) (t : Nat) (x : Thread) : (s.setThread t x).retiring = s.retiring := with_threads_retiring _ _
@[simp] theorem setThread_molt (s : Dev) (t : Nat) (x : Thread) : (s.setThread t x).molt = s.molt := with_threads_molt _ _
@[simp] theorem setThread_damaged (s : Dev) (t : Nat) (x : Thread) : (s.setThread t x).damaged = s.damaged := with_threads_damaged _ _
@[simp] theorem setThread_audit (s : Dev) (t : Nat) (x : Thread) : (s.setThread t x).audit = s.audit := with_threads_audit _ _
@[simp] theorem setThread_mem (s : Dev) (t : Nat) (x : Thread) : (s.setThread t x).mem = s.mem := with_threads_mem _ _
@[simp] theorem setThread_memSt (s : Dev) (t : Nat) (x : Thread) : (s.setThread t x).memSt = s.memSt := with_threads_memSt _ _
@[simp] theorem setThread_time (s : Dev) (t : Nat) (x : Thread) : (s.setThread t x).time = s.time := with_threads_time _ _
@[simp] theorem setThread_alarms (s : Dev) (t : Nat) (x : Thread) : (s.setThread t x).alarms = s.alarms := with_threads_alarms _ _
@[simp] theorem setThread_releases (s : Dev) (t : Nat) (x : Thread) : (s.setThread t x).releases = s.releases := with_threads_releases _ _
@[simp] theorem setThread_ports (s : Dev) (t : Nat) (x : Thread) : (s.setThread t x).ports = s.ports := with_threads_ports _ _
@[simp] theorem setThread_laneErr (s : Dev) (t : Nat) (x : Thread) : (s.setThread t x).laneErr = s.laneErr := with_threads_laneErr _ _
@[simp] theorem setThread_arrived (s : Dev) (t : Nat) (x : Thread) : (s.setThread t x).arrived = s.arrived := with_threads_arrived _ _
@[simp] theorem setThread_mcasts (s : Dev) (t : Nat) (x : Thread) : (s.setThread t x).mcasts = s.mcasts := with_threads_mcasts _ _
@[simp] theorem setThread_stalled (s : Dev) (t : Nat) (x : Thread) : (s.setThread t x).stalled = s.stalled := with_threads_stalled _ _
@[simp] theorem setThread_ownAnswers (s : Dev) (t : Nat) (x : Thread) : (s.setThread t x).ownAnswers = s.ownAnswers := with_threads_ownAnswers _ _
@[simp] theorem setThread_allocs (s : Dev) (t : Nat) (x : Thread) : (s.setThread t x).allocs = s.allocs := with_threads_allocs _ _
@[simp] theorem setThread_credit (s : Dev) (t : Nat) (x : Thread) : (s.setThread t x).credit = s.credit := with_threads_credit _ _
@[simp] theorem setThread_lost (s : Dev) (t : Nat) (x : Thread) : (s.setThread t x).lost = s.lost := with_threads_lost _ _
@[simp] theorem setThread_touched (s : Dev) (t : Nat) (x : Thread) : (s.setThread t x).touched = s.touched := with_threads_touched _ _
@[simp] theorem setThread_cfgErr (s : Dev) (t : Nat) (x : Thread) : (s.setThread t x).cfgErr = s.cfgErr := with_threads_cfgErr _ _
@[simp] theorem setThread_uncharged (s : Dev) (t : Nat) (x : Thread) : (s.setThread t x).uncharged = s.uncharged := with_threads_uncharged _ _
@[simp] theorem setThread_parked (s : Dev) (t : Nat) (x : Thread) : (s.setThread t x).parked = s.parked := with_threads_parked _ _
@[simp] theorem setThread_groups (s : Dev) (t : Nat) (x : Thread) : (s.setThread t x).groups = s.groups := with_threads_groups _ _
@[simp] theorem setThread_ctxs (s : Dev) (t : Nat) (x : Thread) : (s.setThread t x).ctxs = s.ctxs := with_threads_ctxs _ _
@[simp] theorem setThread_released (s : Dev) (t : Nat) (x : Thread) : (s.setThread t x).released = s.released := with_threads_released _ _
@[simp] theorem setThread_gotten (s : Dev) (t : Nat) (x : Thread) : (s.setThread t x).gotten = s.gotten := with_threads_gotten _ _
@[simp] theorem setThread_lostNow (s : Dev) (t : Nat) (x : Thread) : (s.setThread t x).lostNow = s.lostNow := with_threads_lostNow _ _
@[simp] theorem setThread_replays (s : Dev) (t : Nat) (x : Thread) : (s.setThread t x).replays = s.replays := with_threads_replays _ _
@[simp] theorem setThread_inputs (s : Dev) (t : Nat) (x : Thread) : (s.setThread t x).inputs = s.inputs := with_threads_inputs _ _
@[simp] theorem setThread_works (s : Dev) (t : Nat) (x : Thread) : (s.setThread t x).works = s.works := with_threads_works _ _
@[simp] theorem setThread_routeInfo (s : Dev) (t : Nat) (x : Thread) : (s.setThread t x).routeInfo = s.routeInfo := with_threads_routeInfo _ _
@[simp] theorem setThread_batches (s : Dev) (t : Nat) (x : Thread) : (s.setThread t x).batches = s.batches := with_threads_batches _ _
@[simp] theorem setThread_tableWorks (s : Dev) (t : Nat) (x : Thread) : (s.setThread t x).tableWorks = s.tableWorks := with_threads_tableWorks _ _
@[simp] theorem setThread_gathers (s : Dev) (t : Nat) (x : Thread) : (s.setThread t x).gathers = s.gathers := with_threads_gathers _ _
@[simp] theorem setThread_cores (s : Dev) (t : Nat) (x : Thread) : (s.setThread t x).cores = s.cores := with_threads_cores _ _
@[simp] theorem setThread_adapters (s : Dev) (t : Nat) (x : Thread) : (s.setThread t x).adapters = s.adapters := with_threads_adapters _ _
@[simp] theorem setThread_collectors (s : Dev) (t : Nat) (x : Thread) : (s.setThread t x).collectors = s.collectors := with_threads_collectors _ _
@[simp] theorem setThread_summary (s : Dev) (t : Nat) (x : Thread) : (s.setThread t x).summary = s.summary := with_threads_summary _ _
@[simp] theorem setThread_fatal (s : Dev) (t : Nat) (x : Thread) : (s.setThread t x).fatal = s.fatal := with_threads_fatal _ _
@[simp] theorem setThread_tel (s : Dev) (t : Nat) (x : Thread) : (s.setThread t x).tel = s.tel := with_threads_tel _ _
@[simp] theorem setThread_sec (s : Dev) (t : Nat) (x : Thread) : (s.setThread t x).sec = s.sec := with_threads_sec _ _
@[simp] theorem setThread_ctl (s : Dev) (t : Nat) (x : Thread) : (s.setThread t x).ctl = s.ctl := with_threads_ctl _ _
@[simp] theorem setThread_pwr (s : Dev) (t : Nat) (x : Thread) : (s.setThread t x).pwr = s.pwr := with_threads_pwr _ _
@[simp] theorem setThread_nextId (s : Dev) (t : Nat) (x : Thread) : (s.setThread t x).nextId = s.nextId := with_threads_nextId _ _
@[simp] theorem setThread_fresh (s : Dev) (t : Nat) (x : Thread) : (s.setThread t x).fresh = s.fresh := with_threads_fresh _ _
@[simp] theorem setThread_sent (s : Dev) (t : Nat) (x : Thread) : (s.setThread t x).sent = s.sent := with_threads_sent _ _
@[simp] theorem setThread_sig (s : Dev) (t : Nat) (x : Thread) : (s.setThread t x).sig = s.sig := with_threads_sig _ _

/-! ### updThread changes `threads` only -/

@[simp] theorem updThread_beat (s : Dev) (t : Nat) (f : Thread → Thread) : (s.updThread t f).beat = s.beat := setThread_beat _ _ _
@[simp] theorem updThread_ticks (s : Dev) (t : Nat) (f : Thread → Thread) : (s.updThread t f).ticks = s.ticks := setThread_ticks _ _ _
@[simp] theorem updThread_live (s : Dev) (t : Nat) (f : Thread → Thread) : (s.updThread t f).live = s.live := setThread_live _ _ _
@[simp] theorem updThread_latches (s : Dev) (t : Nat) (f : Thread → Thread) : (s.updThread t f).latches = s.latches := setThread_latches _ _ _
@[simp] theorem updThread_pairs (s : Dev) (t : Nat) (f : Thread → Thread) : (s.updThread t f).pairs = s.pairs := setThread_pairs _ _ _
@[simp] theorem updThread_staged (s : Dev) (t : Nat) (f : Thread → Thread) : (s.updThread t f).staged = s.staged := setThread_staged _ _ _
@[simp] theorem updThread_active (s : Dev) (t : Nat) (f : Thread → Thread) : (s.updThread t f).active = s.active := setThread_active _ _ _
@[simp] theorem updThread_number (s : Dev) (t : Nat) (f : Thread → Thread) : (s.updThread t f).number = s.number := setThread_number _ _ _
@[simp] theorem updThread_previous (s : Dev) (t : Nat) (f : Thread → Thread) : (s.updThread t f).previous = s.previous := setThread_previous _ _ _
@[simp] theorem updThread_retiring (s : Dev) (t : Nat) (f : Thread → Thread) : (s.updThread t f).retiring = s.retiring := setThread_retiring _ _ _
@[simp] theorem updThread_molt (s : Dev) (t : Nat) (f : Thread → Thread) : (s.updThread t f).molt = s.molt := setThread_molt _ _ _
@[simp] theorem updThread_damaged (s : Dev) (t : Nat) (f : Thread → Thread) : (s.updThread t f).damaged = s.damaged := setThread_damaged _ _ _
@[simp] theorem updThread_audit (s : Dev) (t : Nat) (f : Thread → Thread) : (s.updThread t f).audit = s.audit := setThread_audit _ _ _
@[simp] theorem updThread_mem (s : Dev) (t : Nat) (f : Thread → Thread) : (s.updThread t f).mem = s.mem := setThread_mem _ _ _
@[simp] theorem updThread_memSt (s : Dev) (t : Nat) (f : Thread → Thread) : (s.updThread t f).memSt = s.memSt := setThread_memSt _ _ _
@[simp] theorem updThread_time (s : Dev) (t : Nat) (f : Thread → Thread) : (s.updThread t f).time = s.time := setThread_time _ _ _
@[simp] theorem updThread_alarms (s : Dev) (t : Nat) (f : Thread → Thread) : (s.updThread t f).alarms = s.alarms := setThread_alarms _ _ _
@[simp] theorem updThread_releases (s : Dev) (t : Nat) (f : Thread → Thread) : (s.updThread t f).releases = s.releases := setThread_releases _ _ _
@[simp] theorem updThread_ports (s : Dev) (t : Nat) (f : Thread → Thread) : (s.updThread t f).ports = s.ports := setThread_ports _ _ _
@[simp] theorem updThread_laneErr (s : Dev) (t : Nat) (f : Thread → Thread) : (s.updThread t f).laneErr = s.laneErr := setThread_laneErr _ _ _
@[simp] theorem updThread_arrived (s : Dev) (t : Nat) (f : Thread → Thread) : (s.updThread t f).arrived = s.arrived := setThread_arrived _ _ _
@[simp] theorem updThread_mcasts (s : Dev) (t : Nat) (f : Thread → Thread) : (s.updThread t f).mcasts = s.mcasts := setThread_mcasts _ _ _
@[simp] theorem updThread_stalled (s : Dev) (t : Nat) (f : Thread → Thread) : (s.updThread t f).stalled = s.stalled := setThread_stalled _ _ _
@[simp] theorem updThread_ownAnswers (s : Dev) (t : Nat) (f : Thread → Thread) : (s.updThread t f).ownAnswers = s.ownAnswers := setThread_ownAnswers _ _ _
@[simp] theorem updThread_allocs (s : Dev) (t : Nat) (f : Thread → Thread) : (s.updThread t f).allocs = s.allocs := setThread_allocs _ _ _
@[simp] theorem updThread_credit (s : Dev) (t : Nat) (f : Thread → Thread) : (s.updThread t f).credit = s.credit := setThread_credit _ _ _
@[simp] theorem updThread_lost (s : Dev) (t : Nat) (f : Thread → Thread) : (s.updThread t f).lost = s.lost := setThread_lost _ _ _
@[simp] theorem updThread_touched (s : Dev) (t : Nat) (f : Thread → Thread) : (s.updThread t f).touched = s.touched := setThread_touched _ _ _
@[simp] theorem updThread_cfgErr (s : Dev) (t : Nat) (f : Thread → Thread) : (s.updThread t f).cfgErr = s.cfgErr := setThread_cfgErr _ _ _
@[simp] theorem updThread_uncharged (s : Dev) (t : Nat) (f : Thread → Thread) : (s.updThread t f).uncharged = s.uncharged := setThread_uncharged _ _ _
@[simp] theorem updThread_parked (s : Dev) (t : Nat) (f : Thread → Thread) : (s.updThread t f).parked = s.parked := setThread_parked _ _ _
@[simp] theorem updThread_groups (s : Dev) (t : Nat) (f : Thread → Thread) : (s.updThread t f).groups = s.groups := setThread_groups _ _ _
@[simp] theorem updThread_ctxs (s : Dev) (t : Nat) (f : Thread → Thread) : (s.updThread t f).ctxs = s.ctxs := setThread_ctxs _ _ _
@[simp] theorem updThread_released (s : Dev) (t : Nat) (f : Thread → Thread) : (s.updThread t f).released = s.released := setThread_released _ _ _
@[simp] theorem updThread_gotten (s : Dev) (t : Nat) (f : Thread → Thread) : (s.updThread t f).gotten = s.gotten := setThread_gotten _ _ _
@[simp] theorem updThread_lostNow (s : Dev) (t : Nat) (f : Thread → Thread) : (s.updThread t f).lostNow = s.lostNow := setThread_lostNow _ _ _
@[simp] theorem updThread_replays (s : Dev) (t : Nat) (f : Thread → Thread) : (s.updThread t f).replays = s.replays := setThread_replays _ _ _
@[simp] theorem updThread_inputs (s : Dev) (t : Nat) (f : Thread → Thread) : (s.updThread t f).inputs = s.inputs := setThread_inputs _ _ _
@[simp] theorem updThread_works (s : Dev) (t : Nat) (f : Thread → Thread) : (s.updThread t f).works = s.works := setThread_works _ _ _
@[simp] theorem updThread_routeInfo (s : Dev) (t : Nat) (f : Thread → Thread) : (s.updThread t f).routeInfo = s.routeInfo := setThread_routeInfo _ _ _
@[simp] theorem updThread_batches (s : Dev) (t : Nat) (f : Thread → Thread) : (s.updThread t f).batches = s.batches := setThread_batches _ _ _
@[simp] theorem updThread_tableWorks (s : Dev) (t : Nat) (f : Thread → Thread) : (s.updThread t f).tableWorks = s.tableWorks := setThread_tableWorks _ _ _
@[simp] theorem updThread_gathers (s : Dev) (t : Nat) (f : Thread → Thread) : (s.updThread t f).gathers = s.gathers := setThread_gathers _ _ _
@[simp] theorem updThread_cores (s : Dev) (t : Nat) (f : Thread → Thread) : (s.updThread t f).cores = s.cores := setThread_cores _ _ _
@[simp] theorem updThread_adapters (s : Dev) (t : Nat) (f : Thread → Thread) : (s.updThread t f).adapters = s.adapters := setThread_adapters _ _ _
@[simp] theorem updThread_collectors (s : Dev) (t : Nat) (f : Thread → Thread) : (s.updThread t f).collectors = s.collectors := setThread_collectors _ _ _
@[simp] theorem updThread_summary (s : Dev) (t : Nat) (f : Thread → Thread) : (s.updThread t f).summary = s.summary := setThread_summary _ _ _
@[simp] theorem updThread_fatal (s : Dev) (t : Nat) (f : Thread → Thread) : (s.updThread t f).fatal = s.fatal := setThread_fatal _ _ _
@[simp] theorem updThread_tel (s : Dev) (t : Nat) (f : Thread → Thread) : (s.updThread t f).tel = s.tel := setThread_tel _ _ _
@[simp] theorem updThread_sec (s : Dev) (t : Nat) (f : Thread → Thread) : (s.updThread t f).sec = s.sec := setThread_sec _ _ _
@[simp] theorem updThread_ctl (s : Dev) (t : Nat) (f : Thread → Thread) : (s.updThread t f).ctl = s.ctl := setThread_ctl _ _ _
@[simp] theorem updThread_pwr (s : Dev) (t : Nat) (f : Thread → Thread) : (s.updThread t f).pwr = s.pwr := setThread_pwr _ _ _
@[simp] theorem updThread_nextId (s : Dev) (t : Nat) (f : Thread → Thread) : (s.updThread t f).nextId = s.nextId := setThread_nextId _ _ _
@[simp] theorem updThread_fresh (s : Dev) (t : Nat) (f : Thread → Thread) : (s.updThread t f).fresh = s.fresh := setThread_fresh _ _ _
@[simp] theorem updThread_sent (s : Dev) (t : Nat) (f : Thread → Thread) : (s.updThread t f).sent = s.sent := setThread_sent _ _ _
@[simp] theorem updThread_sig (s : Dev) (t : Nat) (f : Thread → Thread) : (s.updThread t f).sig = s.sig := setThread_sig _ _ _

/-! ### setCore changes `cores` only -/

@[simp] theorem setCore_beat (s : Dev) (c : Nat) (x : CoreSt) : (s.setCore c x).beat = s.beat := with_cores_beat _ _
@[simp] theorem setCore_ticks (s : Dev) (c : Nat) (x : CoreSt) : (s.setCore c x).ticks = s.ticks := with_cores_ticks _ _
@[simp] theorem setCore_live (s : Dev) (c : Nat) (x : CoreSt) : (s.setCore c x).live = s.live := with_cores_live _ _
@[simp] theorem setCore_latches (s : Dev) (c : Nat) (x : CoreSt) : (s.setCore c x).latches = s.latches := with_cores_latches _ _
@[simp] theorem setCore_pairs (s : Dev) (c : Nat) (x : CoreSt) : (s.setCore c x).pairs = s.pairs := with_cores_pairs _ _
@[simp] theorem setCore_staged (s : Dev) (c : Nat) (x : CoreSt) : (s.setCore c x).staged = s.staged := with_cores_staged _ _
@[simp] theorem setCore_active (s : Dev) (c : Nat) (x : CoreSt) : (s.setCore c x).active = s.active := with_cores_active _ _
@[simp] theorem setCore_number (s : Dev) (c : Nat) (x : CoreSt) : (s.setCore c x).number = s.number := with_cores_number _ _
@[simp] theorem setCore_previous (s : Dev) (c : Nat) (x : CoreSt) : (s.setCore c x).previous = s.previous := with_cores_previous _ _
@[simp] theorem setCore_retiring (s : Dev) (c : Nat) (x : CoreSt) : (s.setCore c x).retiring = s.retiring := with_cores_retiring _ _
@[simp] theorem setCore_molt (s : Dev) (c : Nat) (x : CoreSt) : (s.setCore c x).molt = s.molt := with_cores_molt _ _
@[simp] theorem setCore_damaged (s : Dev) (c : Nat) (x : CoreSt) : (s.setCore c x).damaged = s.damaged := with_cores_damaged _ _
@[simp] theorem setCore_audit (s : Dev) (c : Nat) (x : CoreSt) : (s.setCore c x).audit = s.audit := with_cores_audit _ _
@[simp] theorem setCore_mem (s : Dev) (c : Nat) (x : CoreSt) : (s.setCore c x).mem = s.mem := with_cores_mem _ _
@[simp] theorem setCore_memSt (s : Dev) (c : Nat) (x : CoreSt) : (s.setCore c x).memSt = s.memSt := with_cores_memSt _ _
@[simp] theorem setCore_time (s : Dev) (c : Nat) (x : CoreSt) : (s.setCore c x).time = s.time := with_cores_time _ _
@[simp] theorem setCore_alarms (s : Dev) (c : Nat) (x : CoreSt) : (s.setCore c x).alarms = s.alarms := with_cores_alarms _ _
@[simp] theorem setCore_releases (s : Dev) (c : Nat) (x : CoreSt) : (s.setCore c x).releases = s.releases := with_cores_releases _ _
@[simp] theorem setCore_ports (s : Dev) (c : Nat) (x : CoreSt) : (s.setCore c x).ports = s.ports := with_cores_ports _ _
@[simp] theorem setCore_laneErr (s : Dev) (c : Nat) (x : CoreSt) : (s.setCore c x).laneErr = s.laneErr := with_cores_laneErr _ _
@[simp] theorem setCore_arrived (s : Dev) (c : Nat) (x : CoreSt) : (s.setCore c x).arrived = s.arrived := with_cores_arrived _ _
@[simp] theorem setCore_mcasts (s : Dev) (c : Nat) (x : CoreSt) : (s.setCore c x).mcasts = s.mcasts := with_cores_mcasts _ _
@[simp] theorem setCore_stalled (s : Dev) (c : Nat) (x : CoreSt) : (s.setCore c x).stalled = s.stalled := with_cores_stalled _ _
@[simp] theorem setCore_ownAnswers (s : Dev) (c : Nat) (x : CoreSt) : (s.setCore c x).ownAnswers = s.ownAnswers := with_cores_ownAnswers _ _
@[simp] theorem setCore_allocs (s : Dev) (c : Nat) (x : CoreSt) : (s.setCore c x).allocs = s.allocs := with_cores_allocs _ _
@[simp] theorem setCore_credit (s : Dev) (c : Nat) (x : CoreSt) : (s.setCore c x).credit = s.credit := with_cores_credit _ _
@[simp] theorem setCore_lost (s : Dev) (c : Nat) (x : CoreSt) : (s.setCore c x).lost = s.lost := with_cores_lost _ _
@[simp] theorem setCore_touched (s : Dev) (c : Nat) (x : CoreSt) : (s.setCore c x).touched = s.touched := with_cores_touched _ _
@[simp] theorem setCore_cfgErr (s : Dev) (c : Nat) (x : CoreSt) : (s.setCore c x).cfgErr = s.cfgErr := with_cores_cfgErr _ _
@[simp] theorem setCore_uncharged (s : Dev) (c : Nat) (x : CoreSt) : (s.setCore c x).uncharged = s.uncharged := with_cores_uncharged _ _
@[simp] theorem setCore_parked (s : Dev) (c : Nat) (x : CoreSt) : (s.setCore c x).parked = s.parked := with_cores_parked _ _
@[simp] theorem setCore_groups (s : Dev) (c : Nat) (x : CoreSt) : (s.setCore c x).groups = s.groups := with_cores_groups _ _
@[simp] theorem setCore_ctxs (s : Dev) (c : Nat) (x : CoreSt) : (s.setCore c x).ctxs = s.ctxs := with_cores_ctxs _ _
@[simp] theorem setCore_released (s : Dev) (c : Nat) (x : CoreSt) : (s.setCore c x).released = s.released := with_cores_released _ _
@[simp] theorem setCore_gotten (s : Dev) (c : Nat) (x : CoreSt) : (s.setCore c x).gotten = s.gotten := with_cores_gotten _ _
@[simp] theorem setCore_lostNow (s : Dev) (c : Nat) (x : CoreSt) : (s.setCore c x).lostNow = s.lostNow := with_cores_lostNow _ _
@[simp] theorem setCore_replays (s : Dev) (c : Nat) (x : CoreSt) : (s.setCore c x).replays = s.replays := with_cores_replays _ _
@[simp] theorem setCore_inputs (s : Dev) (c : Nat) (x : CoreSt) : (s.setCore c x).inputs = s.inputs := with_cores_inputs _ _
@[simp] theorem setCore_works (s : Dev) (c : Nat) (x : CoreSt) : (s.setCore c x).works = s.works := with_cores_works _ _
@[simp] theorem setCore_routeInfo (s : Dev) (c : Nat) (x : CoreSt) : (s.setCore c x).routeInfo = s.routeInfo := with_cores_routeInfo _ _
@[simp] theorem setCore_batches (s : Dev) (c : Nat) (x : CoreSt) : (s.setCore c x).batches = s.batches := with_cores_batches _ _
@[simp] theorem setCore_tableWorks (s : Dev) (c : Nat) (x : CoreSt) : (s.setCore c x).tableWorks = s.tableWorks := with_cores_tableWorks _ _
@[simp] theorem setCore_gathers (s : Dev) (c : Nat) (x : CoreSt) : (s.setCore c x).gathers = s.gathers := with_cores_gathers _ _
@[simp] theorem setCore_threads (s : Dev) (c : Nat) (x : CoreSt) : (s.setCore c x).threads = s.threads := with_cores_threads _ _
@[simp] theorem setCore_adapters (s : Dev) (c : Nat) (x : CoreSt) : (s.setCore c x).adapters = s.adapters := with_cores_adapters _ _
@[simp] theorem setCore_collectors (s : Dev) (c : Nat) (x : CoreSt) : (s.setCore c x).collectors = s.collectors := with_cores_collectors _ _
@[simp] theorem setCore_summary (s : Dev) (c : Nat) (x : CoreSt) : (s.setCore c x).summary = s.summary := with_cores_summary _ _
@[simp] theorem setCore_fatal (s : Dev) (c : Nat) (x : CoreSt) : (s.setCore c x).fatal = s.fatal := with_cores_fatal _ _
@[simp] theorem setCore_tel (s : Dev) (c : Nat) (x : CoreSt) : (s.setCore c x).tel = s.tel := with_cores_tel _ _
@[simp] theorem setCore_sec (s : Dev) (c : Nat) (x : CoreSt) : (s.setCore c x).sec = s.sec := with_cores_sec _ _
@[simp] theorem setCore_ctl (s : Dev) (c : Nat) (x : CoreSt) : (s.setCore c x).ctl = s.ctl := with_cores_ctl _ _
@[simp] theorem setCore_pwr (s : Dev) (c : Nat) (x : CoreSt) : (s.setCore c x).pwr = s.pwr := with_cores_pwr _ _
@[simp] theorem setCore_nextId (s : Dev) (c : Nat) (x : CoreSt) : (s.setCore c x).nextId = s.nextId := with_cores_nextId _ _
@[simp] theorem setCore_fresh (s : Dev) (c : Nat) (x : CoreSt) : (s.setCore c x).fresh = s.fresh := with_cores_fresh _ _
@[simp] theorem setCore_sent (s : Dev) (c : Nat) (x : CoreSt) : (s.setCore c x).sent = s.sent := with_cores_sent _ _
@[simp] theorem setCore_sig (s : Dev) (c : Nat) (x : CoreSt) : (s.setCore c x).sig = s.sig := with_cores_sig _ _

/-! ### updCore changes `cores` only -/

@[simp] theorem updCore_beat (s : Dev) (c : Nat) (f : CoreSt → CoreSt) : (s.updCore c f).beat = s.beat := setCore_beat _ _ _
@[simp] theorem updCore_ticks (s : Dev) (c : Nat) (f : CoreSt → CoreSt) : (s.updCore c f).ticks = s.ticks := setCore_ticks _ _ _
@[simp] theorem updCore_live (s : Dev) (c : Nat) (f : CoreSt → CoreSt) : (s.updCore c f).live = s.live := setCore_live _ _ _
@[simp] theorem updCore_latches (s : Dev) (c : Nat) (f : CoreSt → CoreSt) : (s.updCore c f).latches = s.latches := setCore_latches _ _ _
@[simp] theorem updCore_pairs (s : Dev) (c : Nat) (f : CoreSt → CoreSt) : (s.updCore c f).pairs = s.pairs := setCore_pairs _ _ _
@[simp] theorem updCore_staged (s : Dev) (c : Nat) (f : CoreSt → CoreSt) : (s.updCore c f).staged = s.staged := setCore_staged _ _ _
@[simp] theorem updCore_active (s : Dev) (c : Nat) (f : CoreSt → CoreSt) : (s.updCore c f).active = s.active := setCore_active _ _ _
@[simp] theorem updCore_number (s : Dev) (c : Nat) (f : CoreSt → CoreSt) : (s.updCore c f).number = s.number := setCore_number _ _ _
@[simp] theorem updCore_previous (s : Dev) (c : Nat) (f : CoreSt → CoreSt) : (s.updCore c f).previous = s.previous := setCore_previous _ _ _
@[simp] theorem updCore_retiring (s : Dev) (c : Nat) (f : CoreSt → CoreSt) : (s.updCore c f).retiring = s.retiring := setCore_retiring _ _ _
@[simp] theorem updCore_molt (s : Dev) (c : Nat) (f : CoreSt → CoreSt) : (s.updCore c f).molt = s.molt := setCore_molt _ _ _
@[simp] theorem updCore_damaged (s : Dev) (c : Nat) (f : CoreSt → CoreSt) : (s.updCore c f).damaged = s.damaged := setCore_damaged _ _ _
@[simp] theorem updCore_audit (s : Dev) (c : Nat) (f : CoreSt → CoreSt) : (s.updCore c f).audit = s.audit := setCore_audit _ _ _
@[simp] theorem updCore_mem (s : Dev) (c : Nat) (f : CoreSt → CoreSt) : (s.updCore c f).mem = s.mem := setCore_mem _ _ _
@[simp] theorem updCore_memSt (s : Dev) (c : Nat) (f : CoreSt → CoreSt) : (s.updCore c f).memSt = s.memSt := setCore_memSt _ _ _
@[simp] theorem updCore_time (s : Dev) (c : Nat) (f : CoreSt → CoreSt) : (s.updCore c f).time = s.time := setCore_time _ _ _
@[simp] theorem updCore_alarms (s : Dev) (c : Nat) (f : CoreSt → CoreSt) : (s.updCore c f).alarms = s.alarms := setCore_alarms _ _ _
@[simp] theorem updCore_releases (s : Dev) (c : Nat) (f : CoreSt → CoreSt) : (s.updCore c f).releases = s.releases := setCore_releases _ _ _
@[simp] theorem updCore_ports (s : Dev) (c : Nat) (f : CoreSt → CoreSt) : (s.updCore c f).ports = s.ports := setCore_ports _ _ _
@[simp] theorem updCore_laneErr (s : Dev) (c : Nat) (f : CoreSt → CoreSt) : (s.updCore c f).laneErr = s.laneErr := setCore_laneErr _ _ _
@[simp] theorem updCore_arrived (s : Dev) (c : Nat) (f : CoreSt → CoreSt) : (s.updCore c f).arrived = s.arrived := setCore_arrived _ _ _
@[simp] theorem updCore_mcasts (s : Dev) (c : Nat) (f : CoreSt → CoreSt) : (s.updCore c f).mcasts = s.mcasts := setCore_mcasts _ _ _
@[simp] theorem updCore_stalled (s : Dev) (c : Nat) (f : CoreSt → CoreSt) : (s.updCore c f).stalled = s.stalled := setCore_stalled _ _ _
@[simp] theorem updCore_ownAnswers (s : Dev) (c : Nat) (f : CoreSt → CoreSt) : (s.updCore c f).ownAnswers = s.ownAnswers := setCore_ownAnswers _ _ _
@[simp] theorem updCore_allocs (s : Dev) (c : Nat) (f : CoreSt → CoreSt) : (s.updCore c f).allocs = s.allocs := setCore_allocs _ _ _
@[simp] theorem updCore_credit (s : Dev) (c : Nat) (f : CoreSt → CoreSt) : (s.updCore c f).credit = s.credit := setCore_credit _ _ _
@[simp] theorem updCore_lost (s : Dev) (c : Nat) (f : CoreSt → CoreSt) : (s.updCore c f).lost = s.lost := setCore_lost _ _ _
@[simp] theorem updCore_touched (s : Dev) (c : Nat) (f : CoreSt → CoreSt) : (s.updCore c f).touched = s.touched := setCore_touched _ _ _
@[simp] theorem updCore_cfgErr (s : Dev) (c : Nat) (f : CoreSt → CoreSt) : (s.updCore c f).cfgErr = s.cfgErr := setCore_cfgErr _ _ _
@[simp] theorem updCore_uncharged (s : Dev) (c : Nat) (f : CoreSt → CoreSt) : (s.updCore c f).uncharged = s.uncharged := setCore_uncharged _ _ _
@[simp] theorem updCore_parked (s : Dev) (c : Nat) (f : CoreSt → CoreSt) : (s.updCore c f).parked = s.parked := setCore_parked _ _ _
@[simp] theorem updCore_groups (s : Dev) (c : Nat) (f : CoreSt → CoreSt) : (s.updCore c f).groups = s.groups := setCore_groups _ _ _
@[simp] theorem updCore_ctxs (s : Dev) (c : Nat) (f : CoreSt → CoreSt) : (s.updCore c f).ctxs = s.ctxs := setCore_ctxs _ _ _
@[simp] theorem updCore_released (s : Dev) (c : Nat) (f : CoreSt → CoreSt) : (s.updCore c f).released = s.released := setCore_released _ _ _
@[simp] theorem updCore_gotten (s : Dev) (c : Nat) (f : CoreSt → CoreSt) : (s.updCore c f).gotten = s.gotten := setCore_gotten _ _ _
@[simp] theorem updCore_lostNow (s : Dev) (c : Nat) (f : CoreSt → CoreSt) : (s.updCore c f).lostNow = s.lostNow := setCore_lostNow _ _ _
@[simp] theorem updCore_replays (s : Dev) (c : Nat) (f : CoreSt → CoreSt) : (s.updCore c f).replays = s.replays := setCore_replays _ _ _
@[simp] theorem updCore_inputs (s : Dev) (c : Nat) (f : CoreSt → CoreSt) : (s.updCore c f).inputs = s.inputs := setCore_inputs _ _ _
@[simp] theorem updCore_works (s : Dev) (c : Nat) (f : CoreSt → CoreSt) : (s.updCore c f).works = s.works := setCore_works _ _ _
@[simp] theorem updCore_routeInfo (s : Dev) (c : Nat) (f : CoreSt → CoreSt) : (s.updCore c f).routeInfo = s.routeInfo := setCore_routeInfo _ _ _
@[simp] theorem updCore_batches (s : Dev) (c : Nat) (f : CoreSt → CoreSt) : (s.updCore c f).batches = s.batches := setCore_batches _ _ _
@[simp] theorem updCore_tableWorks (s : Dev) (c : Nat) (f : CoreSt → CoreSt) : (s.updCore c f).tableWorks = s.tableWorks := setCore_tableWorks _ _ _
@[simp] theorem updCore_gathers (s : Dev) (c : Nat) (f : CoreSt → CoreSt) : (s.updCore c f).gathers = s.gathers := setCore_gathers _ _ _
@[simp] theorem updCore_threads (s : Dev) (c : Nat) (f : CoreSt → CoreSt) : (s.updCore c f).threads = s.threads := setCore_threads _ _ _
@[simp] theorem updCore_adapters (s : Dev) (c : Nat) (f : CoreSt → CoreSt) : (s.updCore c f).adapters = s.adapters := setCore_adapters _ _ _
@[simp] theorem updCore_collectors (s : Dev) (c : Nat) (f : CoreSt → CoreSt) : (s.updCore c f).collectors = s.collectors := setCore_collectors _ _ _
@[simp] theorem updCore_summary (s : Dev) (c : Nat) (f : CoreSt → CoreSt) : (s.updCore c f).summary = s.summary := setCore_summary _ _ _
@[simp] theorem updCore_fatal (s : Dev) (c : Nat) (f : CoreSt → CoreSt) : (s.updCore c f).fatal = s.fatal := setCore_fatal _ _ _
@[simp] theorem updCore_tel (s : Dev) (c : Nat) (f : CoreSt → CoreSt) : (s.updCore c f).tel = s.tel := setCore_tel _ _ _
@[simp] theorem updCore_sec (s : Dev) (c : Nat) (f : CoreSt → CoreSt) : (s.updCore c f).sec = s.sec := setCore_sec _ _ _
@[simp] theorem updCore_ctl (s : Dev) (c : Nat) (f : CoreSt → CoreSt) : (s.updCore c f).ctl = s.ctl := setCore_ctl _ _ _
@[simp] theorem updCore_pwr (s : Dev) (c : Nat) (f : CoreSt → CoreSt) : (s.updCore c f).pwr = s.pwr := setCore_pwr _ _ _
@[simp] theorem updCore_nextId (s : Dev) (c : Nat) (f : CoreSt → CoreSt) : (s.updCore c f).nextId = s.nextId := setCore_nextId _ _ _
@[simp] theorem updCore_fresh (s : Dev) (c : Nat) (f : CoreSt → CoreSt) : (s.updCore c f).fresh = s.fresh := setCore_fresh _ _ _
@[simp] theorem updCore_sent (s : Dev) (c : Nat) (f : CoreSt → CoreSt) : (s.updCore c f).sent = s.sent := setCore_sent _ _ _
@[simp] theorem updCore_sig (s : Dev) (c : Nat) (f : CoreSt → CoreSt) : (s.updCore c f).sig = s.sig := setCore_sig _ _ _

/-! ### setAdp changes `adapters` only -/

@[simp] theorem setAdp_beat (s : Dev) (k : Nat) (x : AdpQ) : (s.setAdp k x).beat = s.beat := with_adapters_beat _ _
@[simp] theorem setAdp_ticks (s : Dev) (k : Nat) (x : AdpQ) : (s.setAdp k x).ticks = s.ticks := with_adapters_ticks _ _
@[simp] theorem setAdp_live (s : Dev) (k : Nat) (x : AdpQ) : (s.setAdp k x).live = s.live := with_adapters_live _ _
@[simp] theorem setAdp_latches (s : Dev) (k : Nat) (x : AdpQ) : (s.setAdp k x).latches = s.latches := with_adapters_latches _ _
@[simp] theorem setAdp_pairs (s : Dev) (k : Nat) (x : AdpQ) : (s.setAdp k x).pairs = s.pairs := with_adapters_pairs _ _
@[simp] theorem setAdp_staged (s : Dev) (k : Nat) (x : AdpQ) : (s.setAdp k x).staged = s.staged := with_adapters_staged _ _
@[simp] theorem setAdp_active (s : Dev) (k : Nat) (x : AdpQ) : (s.setAdp k x).active = s.active := with_adapters_active _ _
@[simp] theorem setAdp_number (s : Dev) (k : Nat) (x : AdpQ) : (s.setAdp k x).number = s.number := with_adapters_number _ _
@[simp] theorem setAdp_previous (s : Dev) (k : Nat) (x : AdpQ) : (s.setAdp k x).previous = s.previous := with_adapters_previous _ _
@[simp] theorem setAdp_retiring (s : Dev) (k : Nat) (x : AdpQ) : (s.setAdp k x).retiring = s.retiring := with_adapters_retiring _ _
@[simp] theorem setAdp_molt (s : Dev) (k : Nat) (x : AdpQ) : (s.setAdp k x).molt = s.molt := with_adapters_molt _ _
@[simp] theorem setAdp_damaged (s : Dev) (k : Nat) (x : AdpQ) : (s.setAdp k x).damaged = s.damaged := with_adapters_damaged _ _
@[simp] theorem setAdp_audit (s : Dev) (k : Nat) (x : AdpQ) : (s.setAdp k x).audit = s.audit := with_adapters_audit _ _
@[simp] theorem setAdp_mem (s : Dev) (k : Nat) (x : AdpQ) : (s.setAdp k x).mem = s.mem := with_adapters_mem _ _
@[simp] theorem setAdp_memSt (s : Dev) (k : Nat) (x : AdpQ) : (s.setAdp k x).memSt = s.memSt := with_adapters_memSt _ _
@[simp] theorem setAdp_time (s : Dev) (k : Nat) (x : AdpQ) : (s.setAdp k x).time = s.time := with_adapters_time _ _
@[simp] theorem setAdp_alarms (s : Dev) (k : Nat) (x : AdpQ) : (s.setAdp k x).alarms = s.alarms := with_adapters_alarms _ _
@[simp] theorem setAdp_releases (s : Dev) (k : Nat) (x : AdpQ) : (s.setAdp k x).releases = s.releases := with_adapters_releases _ _
@[simp] theorem setAdp_ports (s : Dev) (k : Nat) (x : AdpQ) : (s.setAdp k x).ports = s.ports := with_adapters_ports _ _
@[simp] theorem setAdp_laneErr (s : Dev) (k : Nat) (x : AdpQ) : (s.setAdp k x).laneErr = s.laneErr := with_adapters_laneErr _ _
@[simp] theorem setAdp_arrived (s : Dev) (k : Nat) (x : AdpQ) : (s.setAdp k x).arrived = s.arrived := with_adapters_arrived _ _
@[simp] theorem setAdp_mcasts (s : Dev) (k : Nat) (x : AdpQ) : (s.setAdp k x).mcasts = s.mcasts := with_adapters_mcasts _ _
@[simp] theorem setAdp_stalled (s : Dev) (k : Nat) (x : AdpQ) : (s.setAdp k x).stalled = s.stalled := with_adapters_stalled _ _
@[simp] theorem setAdp_ownAnswers (s : Dev) (k : Nat) (x : AdpQ) : (s.setAdp k x).ownAnswers = s.ownAnswers := with_adapters_ownAnswers _ _
@[simp] theorem setAdp_allocs (s : Dev) (k : Nat) (x : AdpQ) : (s.setAdp k x).allocs = s.allocs := with_adapters_allocs _ _
@[simp] theorem setAdp_credit (s : Dev) (k : Nat) (x : AdpQ) : (s.setAdp k x).credit = s.credit := with_adapters_credit _ _
@[simp] theorem setAdp_lost (s : Dev) (k : Nat) (x : AdpQ) : (s.setAdp k x).lost = s.lost := with_adapters_lost _ _
@[simp] theorem setAdp_touched (s : Dev) (k : Nat) (x : AdpQ) : (s.setAdp k x).touched = s.touched := with_adapters_touched _ _
@[simp] theorem setAdp_cfgErr (s : Dev) (k : Nat) (x : AdpQ) : (s.setAdp k x).cfgErr = s.cfgErr := with_adapters_cfgErr _ _
@[simp] theorem setAdp_uncharged (s : Dev) (k : Nat) (x : AdpQ) : (s.setAdp k x).uncharged = s.uncharged := with_adapters_uncharged _ _
@[simp] theorem setAdp_parked (s : Dev) (k : Nat) (x : AdpQ) : (s.setAdp k x).parked = s.parked := with_adapters_parked _ _
@[simp] theorem setAdp_groups (s : Dev) (k : Nat) (x : AdpQ) : (s.setAdp k x).groups = s.groups := with_adapters_groups _ _
@[simp] theorem setAdp_ctxs (s : Dev) (k : Nat) (x : AdpQ) : (s.setAdp k x).ctxs = s.ctxs := with_adapters_ctxs _ _
@[simp] theorem setAdp_released (s : Dev) (k : Nat) (x : AdpQ) : (s.setAdp k x).released = s.released := with_adapters_released _ _
@[simp] theorem setAdp_gotten (s : Dev) (k : Nat) (x : AdpQ) : (s.setAdp k x).gotten = s.gotten := with_adapters_gotten _ _
@[simp] theorem setAdp_lostNow (s : Dev) (k : Nat) (x : AdpQ) : (s.setAdp k x).lostNow = s.lostNow := with_adapters_lostNow _ _
@[simp] theorem setAdp_replays (s : Dev) (k : Nat) (x : AdpQ) : (s.setAdp k x).replays = s.replays := with_adapters_replays _ _
@[simp] theorem setAdp_inputs (s : Dev) (k : Nat) (x : AdpQ) : (s.setAdp k x).inputs = s.inputs := with_adapters_inputs _ _
@[simp] theorem setAdp_works (s : Dev) (k : Nat) (x : AdpQ) : (s.setAdp k x).works = s.works := with_adapters_works _ _
@[simp] theorem setAdp_routeInfo (s : Dev) (k : Nat) (x : AdpQ) : (s.setAdp k x).routeInfo = s.routeInfo := with_adapters_routeInfo _ _
@[simp] theorem setAdp_batches (s : Dev) (k : Nat) (x : AdpQ) : (s.setAdp k x).batches = s.batches := with_adapters_batches _ _
@[simp] theorem setAdp_tableWorks (s : Dev) (k : Nat) (x : AdpQ) : (s.setAdp k x).tableWorks = s.tableWorks := with_adapters_tableWorks _ _
@[simp] theorem setAdp_gathers (s : Dev) (k : Nat) (x : AdpQ) : (s.setAdp k x).gathers = s.gathers := with_adapters_gathers _ _
@[simp] theorem setAdp_threads (s : Dev) (k : Nat) (x : AdpQ) : (s.setAdp k x).threads = s.threads := with_adapters_threads _ _
@[simp] theorem setAdp_cores (s : Dev) (k : Nat) (x : AdpQ) : (s.setAdp k x).cores = s.cores := with_adapters_cores _ _
@[simp] theorem setAdp_collectors (s : Dev) (k : Nat) (x : AdpQ) : (s.setAdp k x).collectors = s.collectors := with_adapters_collectors _ _
@[simp] theorem setAdp_summary (s : Dev) (k : Nat) (x : AdpQ) : (s.setAdp k x).summary = s.summary := with_adapters_summary _ _
@[simp] theorem setAdp_fatal (s : Dev) (k : Nat) (x : AdpQ) : (s.setAdp k x).fatal = s.fatal := with_adapters_fatal _ _
@[simp] theorem setAdp_tel (s : Dev) (k : Nat) (x : AdpQ) : (s.setAdp k x).tel = s.tel := with_adapters_tel _ _
@[simp] theorem setAdp_sec (s : Dev) (k : Nat) (x : AdpQ) : (s.setAdp k x).sec = s.sec := with_adapters_sec _ _
@[simp] theorem setAdp_ctl (s : Dev) (k : Nat) (x : AdpQ) : (s.setAdp k x).ctl = s.ctl := with_adapters_ctl _ _
@[simp] theorem setAdp_pwr (s : Dev) (k : Nat) (x : AdpQ) : (s.setAdp k x).pwr = s.pwr := with_adapters_pwr _ _
@[simp] theorem setAdp_nextId (s : Dev) (k : Nat) (x : AdpQ) : (s.setAdp k x).nextId = s.nextId := with_adapters_nextId _ _
@[simp] theorem setAdp_fresh (s : Dev) (k : Nat) (x : AdpQ) : (s.setAdp k x).fresh = s.fresh := with_adapters_fresh _ _
@[simp] theorem setAdp_sent (s : Dev) (k : Nat) (x : AdpQ) : (s.setAdp k x).sent = s.sent := with_adapters_sent _ _
@[simp] theorem setAdp_sig (s : Dev) (k : Nat) (x : AdpQ) : (s.setAdp k x).sig = s.sig := with_adapters_sig _ _

/-! ### updAdp changes `adapters` only -/

@[simp] theorem updAdp_beat (s : Dev) (k : Nat) (f : AdpQ → AdpQ) : (s.updAdp k f).beat = s.beat := setAdp_beat _ _ _
@[simp] theorem updAdp_ticks (s : Dev) (k : Nat) (f : AdpQ → AdpQ) : (s.updAdp k f).ticks = s.ticks := setAdp_ticks _ _ _
@[simp] theorem updAdp_live (s : Dev) (k : Nat) (f : AdpQ → AdpQ) : (s.updAdp k f).live = s.live := setAdp_live _ _ _
@[simp] theorem updAdp_latches (s : Dev) (k : Nat) (f : AdpQ → AdpQ) : (s.updAdp k f).latches = s.latches := setAdp_latches _ _ _
@[simp] theorem updAdp_pairs (s : Dev) (k : Nat) (f : AdpQ → AdpQ) : (s.updAdp k f).pairs = s.pairs := setAdp_pairs _ _ _
@[simp] theorem updAdp_staged (s : Dev) (k : Nat) (f : AdpQ → AdpQ) : (s.updAdp k f).staged = s.staged := setAdp_staged _ _ _
@[simp] theorem updAdp_active (s : Dev) (k : Nat) (f : AdpQ → AdpQ) : (s.updAdp k f).active = s.active := setAdp_active _ _ _
@[simp] theorem updAdp_number (s : Dev) (k : Nat) (f : AdpQ → AdpQ) : (s.updAdp k f).number = s.number := setAdp_number _ _ _
@[simp] theorem updAdp_previous (s : Dev) (k : Nat) (f : AdpQ → AdpQ) : (s.updAdp k f).previous = s.previous := setAdp_previous _ _ _
@[simp] theorem updAdp_retiring (s : Dev) (k : Nat) (f : AdpQ → AdpQ) : (s.updAdp k f).retiring = s.retiring := setAdp_retiring _ _ _
@[simp] theorem updAdp_molt (s : Dev) (k : Nat) (f : AdpQ → AdpQ) : (s.updAdp k f).molt = s.molt := setAdp_molt _ _ _
@[simp] theorem updAdp_damaged (s : Dev) (k : Nat) (f : AdpQ → AdpQ) : (s.updAdp k f).damaged = s.damaged := setAdp_damaged _ _ _
@[simp] theorem updAdp_audit (s : Dev) (k : Nat) (f : AdpQ → AdpQ) : (s.updAdp k f).audit = s.audit := setAdp_audit _ _ _
@[simp] theorem updAdp_mem (s : Dev) (k : Nat) (f : AdpQ → AdpQ) : (s.updAdp k f).mem = s.mem := setAdp_mem _ _ _
@[simp] theorem updAdp_memSt (s : Dev) (k : Nat) (f : AdpQ → AdpQ) : (s.updAdp k f).memSt = s.memSt := setAdp_memSt _ _ _
@[simp] theorem updAdp_time (s : Dev) (k : Nat) (f : AdpQ → AdpQ) : (s.updAdp k f).time = s.time := setAdp_time _ _ _
@[simp] theorem updAdp_alarms (s : Dev) (k : Nat) (f : AdpQ → AdpQ) : (s.updAdp k f).alarms = s.alarms := setAdp_alarms _ _ _
@[simp] theorem updAdp_releases (s : Dev) (k : Nat) (f : AdpQ → AdpQ) : (s.updAdp k f).releases = s.releases := setAdp_releases _ _ _
@[simp] theorem updAdp_ports (s : Dev) (k : Nat) (f : AdpQ → AdpQ) : (s.updAdp k f).ports = s.ports := setAdp_ports _ _ _
@[simp] theorem updAdp_laneErr (s : Dev) (k : Nat) (f : AdpQ → AdpQ) : (s.updAdp k f).laneErr = s.laneErr := setAdp_laneErr _ _ _
@[simp] theorem updAdp_arrived (s : Dev) (k : Nat) (f : AdpQ → AdpQ) : (s.updAdp k f).arrived = s.arrived := setAdp_arrived _ _ _
@[simp] theorem updAdp_mcasts (s : Dev) (k : Nat) (f : AdpQ → AdpQ) : (s.updAdp k f).mcasts = s.mcasts := setAdp_mcasts _ _ _
@[simp] theorem updAdp_stalled (s : Dev) (k : Nat) (f : AdpQ → AdpQ) : (s.updAdp k f).stalled = s.stalled := setAdp_stalled _ _ _
@[simp] theorem updAdp_ownAnswers (s : Dev) (k : Nat) (f : AdpQ → AdpQ) : (s.updAdp k f).ownAnswers = s.ownAnswers := setAdp_ownAnswers _ _ _
@[simp] theorem updAdp_allocs (s : Dev) (k : Nat) (f : AdpQ → AdpQ) : (s.updAdp k f).allocs = s.allocs := setAdp_allocs _ _ _
@[simp] theorem updAdp_credit (s : Dev) (k : Nat) (f : AdpQ → AdpQ) : (s.updAdp k f).credit = s.credit := setAdp_credit _ _ _
@[simp] theorem updAdp_lost (s : Dev) (k : Nat) (f : AdpQ → AdpQ) : (s.updAdp k f).lost = s.lost := setAdp_lost _ _ _
@[simp] theorem updAdp_touched (s : Dev) (k : Nat) (f : AdpQ → AdpQ) : (s.updAdp k f).touched = s.touched := setAdp_touched _ _ _
@[simp] theorem updAdp_cfgErr (s : Dev) (k : Nat) (f : AdpQ → AdpQ) : (s.updAdp k f).cfgErr = s.cfgErr := setAdp_cfgErr _ _ _
@[simp] theorem updAdp_uncharged (s : Dev) (k : Nat) (f : AdpQ → AdpQ) : (s.updAdp k f).uncharged = s.uncharged := setAdp_uncharged _ _ _
@[simp] theorem updAdp_parked (s : Dev) (k : Nat) (f : AdpQ → AdpQ) : (s.updAdp k f).parked = s.parked := setAdp_parked _ _ _
@[simp] theorem updAdp_groups (s : Dev) (k : Nat) (f : AdpQ → AdpQ) : (s.updAdp k f).groups = s.groups := setAdp_groups _ _ _
@[simp] theorem updAdp_ctxs (s : Dev) (k : Nat) (f : AdpQ → AdpQ) : (s.updAdp k f).ctxs = s.ctxs := setAdp_ctxs _ _ _
@[simp] theorem updAdp_released (s : Dev) (k : Nat) (f : AdpQ → AdpQ) : (s.updAdp k f).released = s.released := setAdp_released _ _ _
@[simp] theorem updAdp_gotten (s : Dev) (k : Nat) (f : AdpQ → AdpQ) : (s.updAdp k f).gotten = s.gotten := setAdp_gotten _ _ _
@[simp] theorem updAdp_lostNow (s : Dev) (k : Nat) (f : AdpQ → AdpQ) : (s.updAdp k f).lostNow = s.lostNow := setAdp_lostNow _ _ _
@[simp] theorem updAdp_replays (s : Dev) (k : Nat) (f : AdpQ → AdpQ) : (s.updAdp k f).replays = s.replays := setAdp_replays _ _ _
@[simp] theorem updAdp_inputs (s : Dev) (k : Nat) (f : AdpQ → AdpQ) : (s.updAdp k f).inputs = s.inputs := setAdp_inputs _ _ _
@[simp] theorem updAdp_works (s : Dev) (k : Nat) (f : AdpQ → AdpQ) : (s.updAdp k f).works = s.works := setAdp_works _ _ _
@[simp] theorem updAdp_routeInfo (s : Dev) (k : Nat) (f : AdpQ → AdpQ) : (s.updAdp k f).routeInfo = s.routeInfo := setAdp_routeInfo _ _ _
@[simp] theorem updAdp_batches (s : Dev) (k : Nat) (f : AdpQ → AdpQ) : (s.updAdp k f).batches = s.batches := setAdp_batches _ _ _
@[simp] theorem updAdp_tableWorks (s : Dev) (k : Nat) (f : AdpQ → AdpQ) : (s.updAdp k f).tableWorks = s.tableWorks := setAdp_tableWorks _ _ _
@[simp] theorem updAdp_gathers (s : Dev) (k : Nat) (f : AdpQ → AdpQ) : (s.updAdp k f).gathers = s.gathers := setAdp_gathers _ _ _
@[simp] theorem updAdp_threads (s : Dev) (k : Nat) (f : AdpQ → AdpQ) : (s.updAdp k f).threads = s.threads := setAdp_threads _ _ _
@[simp] theorem updAdp_cores (s : Dev) (k : Nat) (f : AdpQ → AdpQ) : (s.updAdp k f).cores = s.cores := setAdp_cores _ _ _
@[simp] theorem updAdp_collectors (s : Dev) (k : Nat) (f : AdpQ → AdpQ) : (s.updAdp k f).collectors = s.collectors := setAdp_collectors _ _ _
@[simp] theorem updAdp_summary (s : Dev) (k : Nat) (f : AdpQ → AdpQ) : (s.updAdp k f).summary = s.summary := setAdp_summary _ _ _
@[simp] theorem updAdp_fatal (s : Dev) (k : Nat) (f : AdpQ → AdpQ) : (s.updAdp k f).fatal = s.fatal := setAdp_fatal _ _ _
@[simp] theorem updAdp_tel (s : Dev) (k : Nat) (f : AdpQ → AdpQ) : (s.updAdp k f).tel = s.tel := setAdp_tel _ _ _
@[simp] theorem updAdp_sec (s : Dev) (k : Nat) (f : AdpQ → AdpQ) : (s.updAdp k f).sec = s.sec := setAdp_sec _ _ _
@[simp] theorem updAdp_ctl (s : Dev) (k : Nat) (f : AdpQ → AdpQ) : (s.updAdp k f).ctl = s.ctl := setAdp_ctl _ _ _
@[simp] theorem updAdp_pwr (s : Dev) (k : Nat) (f : AdpQ → AdpQ) : (s.updAdp k f).pwr = s.pwr := setAdp_pwr _ _ _
@[simp] theorem updAdp_nextId (s : Dev) (k : Nat) (f : AdpQ → AdpQ) : (s.updAdp k f).nextId = s.nextId := setAdp_nextId _ _ _
@[simp] theorem updAdp_fresh (s : Dev) (k : Nat) (f : AdpQ → AdpQ) : (s.updAdp k f).fresh = s.fresh := setAdp_fresh _ _ _
@[simp] theorem updAdp_sent (s : Dev) (k : Nat) (f : AdpQ → AdpQ) : (s.updAdp k f).sent = s.sent := setAdp_sent _ _ _
@[simp] theorem updAdp_sig (s : Dev) (k : Nat) (f : AdpQ → AdpQ) : (s.updAdp k f).sig = s.sig := setAdp_sig _ _ _

/-! ### setGrp changes `groups` only -/

@[simp] theorem setGrp_beat (s : Dev) (g : BitVec 24) (x : GroupSt) : (s.setGrp g x).beat = s.beat := with_groups_beat _ _
@[simp] theorem setGrp_ticks (s : Dev) (g : BitVec 24) (x : GroupSt) : (s.setGrp g x).ticks = s.ticks := with_groups_ticks _ _
@[simp] theorem setGrp_live (s : Dev) (g : BitVec 24) (x : GroupSt) : (s.setGrp g x).live = s.live := with_groups_live _ _
@[simp] theorem setGrp_latches (s : Dev) (g : BitVec 24) (x : GroupSt) : (s.setGrp g x).latches = s.latches := with_groups_latches _ _
@[simp] theorem setGrp_pairs (s : Dev) (g : BitVec 24) (x : GroupSt) : (s.setGrp g x).pairs = s.pairs := with_groups_pairs _ _
@[simp] theorem setGrp_staged (s : Dev) (g : BitVec 24) (x : GroupSt) : (s.setGrp g x).staged = s.staged := with_groups_staged _ _
@[simp] theorem setGrp_active (s : Dev) (g : BitVec 24) (x : GroupSt) : (s.setGrp g x).active = s.active := with_groups_active _ _
@[simp] theorem setGrp_number (s : Dev) (g : BitVec 24) (x : GroupSt) : (s.setGrp g x).number = s.number := with_groups_number _ _
@[simp] theorem setGrp_previous (s : Dev) (g : BitVec 24) (x : GroupSt) : (s.setGrp g x).previous = s.previous := with_groups_previous _ _
@[simp] theorem setGrp_retiring (s : Dev) (g : BitVec 24) (x : GroupSt) : (s.setGrp g x).retiring = s.retiring := with_groups_retiring _ _
@[simp] theorem setGrp_molt (s : Dev) (g : BitVec 24) (x : GroupSt) : (s.setGrp g x).molt = s.molt := with_groups_molt _ _
@[simp] theorem setGrp_damaged (s : Dev) (g : BitVec 24) (x : GroupSt) : (s.setGrp g x).damaged = s.damaged := with_groups_damaged _ _
@[simp] theorem setGrp_audit (s : Dev) (g : BitVec 24) (x : GroupSt) : (s.setGrp g x).audit = s.audit := with_groups_audit _ _
@[simp] theorem setGrp_mem (s : Dev) (g : BitVec 24) (x : GroupSt) : (s.setGrp g x).mem = s.mem := with_groups_mem _ _
@[simp] theorem setGrp_memSt (s : Dev) (g : BitVec 24) (x : GroupSt) : (s.setGrp g x).memSt = s.memSt := with_groups_memSt _ _
@[simp] theorem setGrp_time (s : Dev) (g : BitVec 24) (x : GroupSt) : (s.setGrp g x).time = s.time := with_groups_time _ _
@[simp] theorem setGrp_alarms (s : Dev) (g : BitVec 24) (x : GroupSt) : (s.setGrp g x).alarms = s.alarms := with_groups_alarms _ _
@[simp] theorem setGrp_releases (s : Dev) (g : BitVec 24) (x : GroupSt) : (s.setGrp g x).releases = s.releases := with_groups_releases _ _
@[simp] theorem setGrp_ports (s : Dev) (g : BitVec 24) (x : GroupSt) : (s.setGrp g x).ports = s.ports := with_groups_ports _ _
@[simp] theorem setGrp_laneErr (s : Dev) (g : BitVec 24) (x : GroupSt) : (s.setGrp g x).laneErr = s.laneErr := with_groups_laneErr _ _
@[simp] theorem setGrp_arrived (s : Dev) (g : BitVec 24) (x : GroupSt) : (s.setGrp g x).arrived = s.arrived := with_groups_arrived _ _
@[simp] theorem setGrp_mcasts (s : Dev) (g : BitVec 24) (x : GroupSt) : (s.setGrp g x).mcasts = s.mcasts := with_groups_mcasts _ _
@[simp] theorem setGrp_stalled (s : Dev) (g : BitVec 24) (x : GroupSt) : (s.setGrp g x).stalled = s.stalled := with_groups_stalled _ _
@[simp] theorem setGrp_ownAnswers (s : Dev) (g : BitVec 24) (x : GroupSt) : (s.setGrp g x).ownAnswers = s.ownAnswers := with_groups_ownAnswers _ _
@[simp] theorem setGrp_allocs (s : Dev) (g : BitVec 24) (x : GroupSt) : (s.setGrp g x).allocs = s.allocs := with_groups_allocs _ _
@[simp] theorem setGrp_credit (s : Dev) (g : BitVec 24) (x : GroupSt) : (s.setGrp g x).credit = s.credit := with_groups_credit _ _
@[simp] theorem setGrp_lost (s : Dev) (g : BitVec 24) (x : GroupSt) : (s.setGrp g x).lost = s.lost := with_groups_lost _ _
@[simp] theorem setGrp_touched (s : Dev) (g : BitVec 24) (x : GroupSt) : (s.setGrp g x).touched = s.touched := with_groups_touched _ _
@[simp] theorem setGrp_cfgErr (s : Dev) (g : BitVec 24) (x : GroupSt) : (s.setGrp g x).cfgErr = s.cfgErr := with_groups_cfgErr _ _
@[simp] theorem setGrp_uncharged (s : Dev) (g : BitVec 24) (x : GroupSt) : (s.setGrp g x).uncharged = s.uncharged := with_groups_uncharged _ _
@[simp] theorem setGrp_parked (s : Dev) (g : BitVec 24) (x : GroupSt) : (s.setGrp g x).parked = s.parked := with_groups_parked _ _
@[simp] theorem setGrp_ctxs (s : Dev) (g : BitVec 24) (x : GroupSt) : (s.setGrp g x).ctxs = s.ctxs := with_groups_ctxs _ _
@[simp] theorem setGrp_released (s : Dev) (g : BitVec 24) (x : GroupSt) : (s.setGrp g x).released = s.released := with_groups_released _ _
@[simp] theorem setGrp_gotten (s : Dev) (g : BitVec 24) (x : GroupSt) : (s.setGrp g x).gotten = s.gotten := with_groups_gotten _ _
@[simp] theorem setGrp_lostNow (s : Dev) (g : BitVec 24) (x : GroupSt) : (s.setGrp g x).lostNow = s.lostNow := with_groups_lostNow _ _
@[simp] theorem setGrp_replays (s : Dev) (g : BitVec 24) (x : GroupSt) : (s.setGrp g x).replays = s.replays := with_groups_replays _ _
@[simp] theorem setGrp_inputs (s : Dev) (g : BitVec 24) (x : GroupSt) : (s.setGrp g x).inputs = s.inputs := with_groups_inputs _ _
@[simp] theorem setGrp_works (s : Dev) (g : BitVec 24) (x : GroupSt) : (s.setGrp g x).works = s.works := with_groups_works _ _
@[simp] theorem setGrp_routeInfo (s : Dev) (g : BitVec 24) (x : GroupSt) : (s.setGrp g x).routeInfo = s.routeInfo := with_groups_routeInfo _ _
@[simp] theorem setGrp_batches (s : Dev) (g : BitVec 24) (x : GroupSt) : (s.setGrp g x).batches = s.batches := with_groups_batches _ _
@[simp] theorem setGrp_tableWorks (s : Dev) (g : BitVec 24) (x : GroupSt) : (s.setGrp g x).tableWorks = s.tableWorks := with_groups_tableWorks _ _
@[simp] theorem setGrp_gathers (s : Dev) (g : BitVec 24) (x : GroupSt) : (s.setGrp g x).gathers = s.gathers := with_groups_gathers _ _
@[simp] theorem setGrp_threads (s : Dev) (g : BitVec 24) (x : GroupSt) : (s.setGrp g x).threads = s.threads := with_groups_threads _ _
@[simp] theorem setGrp_cores (s : Dev) (g : BitVec 24) (x : GroupSt) : (s.setGrp g x).cores = s.cores := with_groups_cores _ _
@[simp] theorem setGrp_adapters (s : Dev) (g : BitVec 24) (x : GroupSt) : (s.setGrp g x).adapters = s.adapters := with_groups_adapters _ _
@[simp] theorem setGrp_collectors (s : Dev) (g : BitVec 24) (x : GroupSt) : (s.setGrp g x).collectors = s.collectors := with_groups_collectors _ _
@[simp] theorem setGrp_summary (s : Dev) (g : BitVec 24) (x : GroupSt) : (s.setGrp g x).summary = s.summary := with_groups_summary _ _
@[simp] theorem setGrp_fatal (s : Dev) (g : BitVec 24) (x : GroupSt) : (s.setGrp g x).fatal = s.fatal := with_groups_fatal _ _
@[simp] theorem setGrp_tel (s : Dev) (g : BitVec 24) (x : GroupSt) : (s.setGrp g x).tel = s.tel := with_groups_tel _ _
@[simp] theorem setGrp_sec (s : Dev) (g : BitVec 24) (x : GroupSt) : (s.setGrp g x).sec = s.sec := with_groups_sec _ _
@[simp] theorem setGrp_ctl (s : Dev) (g : BitVec 24) (x : GroupSt) : (s.setGrp g x).ctl = s.ctl := with_groups_ctl _ _
@[simp] theorem setGrp_pwr (s : Dev) (g : BitVec 24) (x : GroupSt) : (s.setGrp g x).pwr = s.pwr := with_groups_pwr _ _
@[simp] theorem setGrp_nextId (s : Dev) (g : BitVec 24) (x : GroupSt) : (s.setGrp g x).nextId = s.nextId := with_groups_nextId _ _
@[simp] theorem setGrp_fresh (s : Dev) (g : BitVec 24) (x : GroupSt) : (s.setGrp g x).fresh = s.fresh := with_groups_fresh _ _
@[simp] theorem setGrp_sent (s : Dev) (g : BitVec 24) (x : GroupSt) : (s.setGrp g x).sent = s.sent := with_groups_sent _ _
@[simp] theorem setGrp_sig (s : Dev) (g : BitVec 24) (x : GroupSt) : (s.setGrp g x).sig = s.sig := with_groups_sig _ _

/-! ### updCtx changes `ctxs` only -/

@[simp] theorem updCtx_beat (s : Dev) (k : CtxKey) (f : Ctx → Ctx) : (s.updCtx k f).beat = s.beat := with_ctxs_beat _ _
@[simp] theorem updCtx_ticks (s : Dev) (k : CtxKey) (f : Ctx → Ctx) : (s.updCtx k f).ticks = s.ticks := with_ctxs_ticks _ _
@[simp] theorem updCtx_live (s : Dev) (k : CtxKey) (f : Ctx → Ctx) : (s.updCtx k f).live = s.live := with_ctxs_live _ _
@[simp] theorem updCtx_latches (s : Dev) (k : CtxKey) (f : Ctx → Ctx) : (s.updCtx k f).latches = s.latches := with_ctxs_latches _ _
@[simp] theorem updCtx_pairs (s : Dev) (k : CtxKey) (f : Ctx → Ctx) : (s.updCtx k f).pairs = s.pairs := with_ctxs_pairs _ _
@[simp] theorem updCtx_staged (s : Dev) (k : CtxKey) (f : Ctx → Ctx) : (s.updCtx k f).staged = s.staged := with_ctxs_staged _ _
@[simp] theorem updCtx_active (s : Dev) (k : CtxKey) (f : Ctx → Ctx) : (s.updCtx k f).active = s.active := with_ctxs_active _ _
@[simp] theorem updCtx_number (s : Dev) (k : CtxKey) (f : Ctx → Ctx) : (s.updCtx k f).number = s.number := with_ctxs_number _ _
@[simp] theorem updCtx_previous (s : Dev) (k : CtxKey) (f : Ctx → Ctx) : (s.updCtx k f).previous = s.previous := with_ctxs_previous _ _
@[simp] theorem updCtx_retiring (s : Dev) (k : CtxKey) (f : Ctx → Ctx) : (s.updCtx k f).retiring = s.retiring := with_ctxs_retiring _ _
@[simp] theorem updCtx_molt (s : Dev) (k : CtxKey) (f : Ctx → Ctx) : (s.updCtx k f).molt = s.molt := with_ctxs_molt _ _
@[simp] theorem updCtx_damaged (s : Dev) (k : CtxKey) (f : Ctx → Ctx) : (s.updCtx k f).damaged = s.damaged := with_ctxs_damaged _ _
@[simp] theorem updCtx_audit (s : Dev) (k : CtxKey) (f : Ctx → Ctx) : (s.updCtx k f).audit = s.audit := with_ctxs_audit _ _
@[simp] theorem updCtx_mem (s : Dev) (k : CtxKey) (f : Ctx → Ctx) : (s.updCtx k f).mem = s.mem := with_ctxs_mem _ _
@[simp] theorem updCtx_memSt (s : Dev) (k : CtxKey) (f : Ctx → Ctx) : (s.updCtx k f).memSt = s.memSt := with_ctxs_memSt _ _
@[simp] theorem updCtx_time (s : Dev) (k : CtxKey) (f : Ctx → Ctx) : (s.updCtx k f).time = s.time := with_ctxs_time _ _
@[simp] theorem updCtx_alarms (s : Dev) (k : CtxKey) (f : Ctx → Ctx) : (s.updCtx k f).alarms = s.alarms := with_ctxs_alarms _ _
@[simp] theorem updCtx_releases (s : Dev) (k : CtxKey) (f : Ctx → Ctx) : (s.updCtx k f).releases = s.releases := with_ctxs_releases _ _
@[simp] theorem updCtx_ports (s : Dev) (k : CtxKey) (f : Ctx → Ctx) : (s.updCtx k f).ports = s.ports := with_ctxs_ports _ _
@[simp] theorem updCtx_laneErr (s : Dev) (k : CtxKey) (f : Ctx → Ctx) : (s.updCtx k f).laneErr = s.laneErr := with_ctxs_laneErr _ _
@[simp] theorem updCtx_arrived (s : Dev) (k : CtxKey) (f : Ctx → Ctx) : (s.updCtx k f).arrived = s.arrived := with_ctxs_arrived _ _
@[simp] theorem updCtx_mcasts (s : Dev) (k : CtxKey) (f : Ctx → Ctx) : (s.updCtx k f).mcasts = s.mcasts := with_ctxs_mcasts _ _
@[simp] theorem updCtx_stalled (s : Dev) (k : CtxKey) (f : Ctx → Ctx) : (s.updCtx k f).stalled = s.stalled := with_ctxs_stalled _ _
@[simp] theorem updCtx_ownAnswers (s : Dev) (k : CtxKey) (f : Ctx → Ctx) : (s.updCtx k f).ownAnswers = s.ownAnswers := with_ctxs_ownAnswers _ _
@[simp] theorem updCtx_allocs (s : Dev) (k : CtxKey) (f : Ctx → Ctx) : (s.updCtx k f).allocs = s.allocs := with_ctxs_allocs _ _
@[simp] theorem updCtx_credit (s : Dev) (k : CtxKey) (f : Ctx → Ctx) : (s.updCtx k f).credit = s.credit := with_ctxs_credit _ _
@[simp] theorem updCtx_lost (s : Dev) (k : CtxKey) (f : Ctx → Ctx) : (s.updCtx k f).lost = s.lost := with_ctxs_lost _ _
@[simp] theorem updCtx_touched (s : Dev) (k : CtxKey) (f : Ctx → Ctx) : (s.updCtx k f).touched = s.touched := with_ctxs_touched _ _
@[simp] theorem updCtx_cfgErr (s : Dev) (k : CtxKey) (f : Ctx → Ctx) : (s.updCtx k f).cfgErr = s.cfgErr := with_ctxs_cfgErr _ _
@[simp] theorem updCtx_uncharged (s : Dev) (k : CtxKey) (f : Ctx → Ctx) : (s.updCtx k f).uncharged = s.uncharged := with_ctxs_uncharged _ _
@[simp] theorem updCtx_parked (s : Dev) (k : CtxKey) (f : Ctx → Ctx) : (s.updCtx k f).parked = s.parked := with_ctxs_parked _ _
@[simp] theorem updCtx_groups (s : Dev) (k : CtxKey) (f : Ctx → Ctx) : (s.updCtx k f).groups = s.groups := with_ctxs_groups _ _
@[simp] theorem updCtx_released (s : Dev) (k : CtxKey) (f : Ctx → Ctx) : (s.updCtx k f).released = s.released := with_ctxs_released _ _
@[simp] theorem updCtx_gotten (s : Dev) (k : CtxKey) (f : Ctx → Ctx) : (s.updCtx k f).gotten = s.gotten := with_ctxs_gotten _ _
@[simp] theorem updCtx_lostNow (s : Dev) (k : CtxKey) (f : Ctx → Ctx) : (s.updCtx k f).lostNow = s.lostNow := with_ctxs_lostNow _ _
@[simp] theorem updCtx_replays (s : Dev) (k : CtxKey) (f : Ctx → Ctx) : (s.updCtx k f).replays = s.replays := with_ctxs_replays _ _
@[simp] theorem updCtx_inputs (s : Dev) (k : CtxKey) (f : Ctx → Ctx) : (s.updCtx k f).inputs = s.inputs := with_ctxs_inputs _ _
@[simp] theorem updCtx_works (s : Dev) (k : CtxKey) (f : Ctx → Ctx) : (s.updCtx k f).works = s.works := with_ctxs_works _ _
@[simp] theorem updCtx_routeInfo (s : Dev) (k : CtxKey) (f : Ctx → Ctx) : (s.updCtx k f).routeInfo = s.routeInfo := with_ctxs_routeInfo _ _
@[simp] theorem updCtx_batches (s : Dev) (k : CtxKey) (f : Ctx → Ctx) : (s.updCtx k f).batches = s.batches := with_ctxs_batches _ _
@[simp] theorem updCtx_tableWorks (s : Dev) (k : CtxKey) (f : Ctx → Ctx) : (s.updCtx k f).tableWorks = s.tableWorks := with_ctxs_tableWorks _ _
@[simp] theorem updCtx_gathers (s : Dev) (k : CtxKey) (f : Ctx → Ctx) : (s.updCtx k f).gathers = s.gathers := with_ctxs_gathers _ _
@[simp] theorem updCtx_threads (s : Dev) (k : CtxKey) (f : Ctx → Ctx) : (s.updCtx k f).threads = s.threads := with_ctxs_threads _ _
@[simp] theorem updCtx_cores (s : Dev) (k : CtxKey) (f : Ctx → Ctx) : (s.updCtx k f).cores = s.cores := with_ctxs_cores _ _
@[simp] theorem updCtx_adapters (s : Dev) (k : CtxKey) (f : Ctx → Ctx) : (s.updCtx k f).adapters = s.adapters := with_ctxs_adapters _ _
@[simp] theorem updCtx_collectors (s : Dev) (k : CtxKey) (f : Ctx → Ctx) : (s.updCtx k f).collectors = s.collectors := with_ctxs_collectors _ _
@[simp] theorem updCtx_summary (s : Dev) (k : CtxKey) (f : Ctx → Ctx) : (s.updCtx k f).summary = s.summary := with_ctxs_summary _ _
@[simp] theorem updCtx_fatal (s : Dev) (k : CtxKey) (f : Ctx → Ctx) : (s.updCtx k f).fatal = s.fatal := with_ctxs_fatal _ _
@[simp] theorem updCtx_tel (s : Dev) (k : CtxKey) (f : Ctx → Ctx) : (s.updCtx k f).tel = s.tel := with_ctxs_tel _ _
@[simp] theorem updCtx_sec (s : Dev) (k : CtxKey) (f : Ctx → Ctx) : (s.updCtx k f).sec = s.sec := with_ctxs_sec _ _
@[simp] theorem updCtx_ctl (s : Dev) (k : CtxKey) (f : Ctx → Ctx) : (s.updCtx k f).ctl = s.ctl := with_ctxs_ctl _ _
@[simp] theorem updCtx_pwr (s : Dev) (k : CtxKey) (f : Ctx → Ctx) : (s.updCtx k f).pwr = s.pwr := with_ctxs_pwr _ _
@[simp] theorem updCtx_nextId (s : Dev) (k : CtxKey) (f : Ctx → Ctx) : (s.updCtx k f).nextId = s.nextId := with_ctxs_nextId _ _
@[simp] theorem updCtx_fresh (s : Dev) (k : CtxKey) (f : Ctx → Ctx) : (s.updCtx k f).fresh = s.fresh := with_ctxs_fresh _ _
@[simp] theorem updCtx_sent (s : Dev) (k : CtxKey) (f : Ctx → Ctx) : (s.updCtx k f).sent = s.sent := with_ctxs_sent _ _
@[simp] theorem updCtx_sig (s : Dev) (k : CtxKey) (f : Ctx → Ctx) : (s.updCtx k f).sig = s.sig := with_ctxs_sig _ _

/-! ### updCtl changes `ctl` only -/

@[simp] theorem updCtl_beat (s : Dev) (f : CtlSt → CtlSt) : (s.updCtl f).beat = s.beat := with_ctl_beat _ _
@[simp] theorem updCtl_ticks (s : Dev) (f : CtlSt → CtlSt) : (s.updCtl f).ticks = s.ticks := with_ctl_ticks _ _
@[simp] theorem updCtl_live (s : Dev) (f : CtlSt → CtlSt) : (s.updCtl f).live = s.live := with_ctl_live _ _
@[simp] theorem updCtl_latches (s : Dev) (f : CtlSt → CtlSt) : (s.updCtl f).latches = s.latches := with_ctl_latches _ _
@[simp] theorem updCtl_pairs (s : Dev) (f : CtlSt → CtlSt) : (s.updCtl f).pairs = s.pairs := with_ctl_pairs _ _
@[simp] theorem updCtl_staged (s : Dev) (f : CtlSt → CtlSt) : (s.updCtl f).staged = s.staged := with_ctl_staged _ _
@[simp] theorem updCtl_active (s : Dev) (f : CtlSt → CtlSt) : (s.updCtl f).active = s.active := with_ctl_active _ _
@[simp] theorem updCtl_number (s : Dev) (f : CtlSt → CtlSt) : (s.updCtl f).number = s.number := with_ctl_number _ _
@[simp] theorem updCtl_previous (s : Dev) (f : CtlSt → CtlSt) : (s.updCtl f).previous = s.previous := with_ctl_previous _ _
@[simp] theorem updCtl_retiring (s : Dev) (f : CtlSt → CtlSt) : (s.updCtl f).retiring = s.retiring := with_ctl_retiring _ _
@[simp] theorem updCtl_molt (s : Dev) (f : CtlSt → CtlSt) : (s.updCtl f).molt = s.molt := with_ctl_molt _ _
@[simp] theorem updCtl_damaged (s : Dev) (f : CtlSt → CtlSt) : (s.updCtl f).damaged = s.damaged := with_ctl_damaged _ _
@[simp] theorem updCtl_audit (s : Dev) (f : CtlSt → CtlSt) : (s.updCtl f).audit = s.audit := with_ctl_audit _ _
@[simp] theorem updCtl_mem (s : Dev) (f : CtlSt → CtlSt) : (s.updCtl f).mem = s.mem := with_ctl_mem _ _
@[simp] theorem updCtl_memSt (s : Dev) (f : CtlSt → CtlSt) : (s.updCtl f).memSt = s.memSt := with_ctl_memSt _ _
@[simp] theorem updCtl_time (s : Dev) (f : CtlSt → CtlSt) : (s.updCtl f).time = s.time := with_ctl_time _ _
@[simp] theorem updCtl_alarms (s : Dev) (f : CtlSt → CtlSt) : (s.updCtl f).alarms = s.alarms := with_ctl_alarms _ _
@[simp] theorem updCtl_releases (s : Dev) (f : CtlSt → CtlSt) : (s.updCtl f).releases = s.releases := with_ctl_releases _ _
@[simp] theorem updCtl_ports (s : Dev) (f : CtlSt → CtlSt) : (s.updCtl f).ports = s.ports := with_ctl_ports _ _
@[simp] theorem updCtl_laneErr (s : Dev) (f : CtlSt → CtlSt) : (s.updCtl f).laneErr = s.laneErr := with_ctl_laneErr _ _
@[simp] theorem updCtl_arrived (s : Dev) (f : CtlSt → CtlSt) : (s.updCtl f).arrived = s.arrived := with_ctl_arrived _ _
@[simp] theorem updCtl_mcasts (s : Dev) (f : CtlSt → CtlSt) : (s.updCtl f).mcasts = s.mcasts := with_ctl_mcasts _ _
@[simp] theorem updCtl_stalled (s : Dev) (f : CtlSt → CtlSt) : (s.updCtl f).stalled = s.stalled := with_ctl_stalled _ _
@[simp] theorem updCtl_ownAnswers (s : Dev) (f : CtlSt → CtlSt) : (s.updCtl f).ownAnswers = s.ownAnswers := with_ctl_ownAnswers _ _
@[simp] theorem updCtl_allocs (s : Dev) (f : CtlSt → CtlSt) : (s.updCtl f).allocs = s.allocs := with_ctl_allocs _ _
@[simp] theorem updCtl_credit (s : Dev) (f : CtlSt → CtlSt) : (s.updCtl f).credit = s.credit := with_ctl_credit _ _
@[simp] theorem updCtl_lost (s : Dev) (f : CtlSt → CtlSt) : (s.updCtl f).lost = s.lost := with_ctl_lost _ _
@[simp] theorem updCtl_touched (s : Dev) (f : CtlSt → CtlSt) : (s.updCtl f).touched = s.touched := with_ctl_touched _ _
@[simp] theorem updCtl_cfgErr (s : Dev) (f : CtlSt → CtlSt) : (s.updCtl f).cfgErr = s.cfgErr := with_ctl_cfgErr _ _
@[simp] theorem updCtl_uncharged (s : Dev) (f : CtlSt → CtlSt) : (s.updCtl f).uncharged = s.uncharged := with_ctl_uncharged _ _
@[simp] theorem updCtl_parked (s : Dev) (f : CtlSt → CtlSt) : (s.updCtl f).parked = s.parked := with_ctl_parked _ _
@[simp] theorem updCtl_groups (s : Dev) (f : CtlSt → CtlSt) : (s.updCtl f).groups = s.groups := with_ctl_groups _ _
@[simp] theorem updCtl_ctxs (s : Dev) (f : CtlSt → CtlSt) : (s.updCtl f).ctxs = s.ctxs := with_ctl_ctxs _ _
@[simp] theorem updCtl_released (s : Dev) (f : CtlSt → CtlSt) : (s.updCtl f).released = s.released := with_ctl_released _ _
@[simp] theorem updCtl_gotten (s : Dev) (f : CtlSt → CtlSt) : (s.updCtl f).gotten = s.gotten := with_ctl_gotten _ _
@[simp] theorem updCtl_lostNow (s : Dev) (f : CtlSt → CtlSt) : (s.updCtl f).lostNow = s.lostNow := with_ctl_lostNow _ _
@[simp] theorem updCtl_replays (s : Dev) (f : CtlSt → CtlSt) : (s.updCtl f).replays = s.replays := with_ctl_replays _ _
@[simp] theorem updCtl_inputs (s : Dev) (f : CtlSt → CtlSt) : (s.updCtl f).inputs = s.inputs := with_ctl_inputs _ _
@[simp] theorem updCtl_works (s : Dev) (f : CtlSt → CtlSt) : (s.updCtl f).works = s.works := with_ctl_works _ _
@[simp] theorem updCtl_routeInfo (s : Dev) (f : CtlSt → CtlSt) : (s.updCtl f).routeInfo = s.routeInfo := with_ctl_routeInfo _ _
@[simp] theorem updCtl_batches (s : Dev) (f : CtlSt → CtlSt) : (s.updCtl f).batches = s.batches := with_ctl_batches _ _
@[simp] theorem updCtl_tableWorks (s : Dev) (f : CtlSt → CtlSt) : (s.updCtl f).tableWorks = s.tableWorks := with_ctl_tableWorks _ _
@[simp] theorem updCtl_gathers (s : Dev) (f : CtlSt → CtlSt) : (s.updCtl f).gathers = s.gathers := with_ctl_gathers _ _
@[simp] theorem updCtl_threads (s : Dev) (f : CtlSt → CtlSt) : (s.updCtl f).threads = s.threads := with_ctl_threads _ _
@[simp] theorem updCtl_cores (s : Dev) (f : CtlSt → CtlSt) : (s.updCtl f).cores = s.cores := with_ctl_cores _ _
@[simp] theorem updCtl_adapters (s : Dev) (f : CtlSt → CtlSt) : (s.updCtl f).adapters = s.adapters := with_ctl_adapters _ _
@[simp] theorem updCtl_collectors (s : Dev) (f : CtlSt → CtlSt) : (s.updCtl f).collectors = s.collectors := with_ctl_collectors _ _
@[simp] theorem updCtl_summary (s : Dev) (f : CtlSt → CtlSt) : (s.updCtl f).summary = s.summary := with_ctl_summary _ _
@[simp] theorem updCtl_fatal (s : Dev) (f : CtlSt → CtlSt) : (s.updCtl f).fatal = s.fatal := with_ctl_fatal _ _
@[simp] theorem updCtl_tel (s : Dev) (f : CtlSt → CtlSt) : (s.updCtl f).tel = s.tel := with_ctl_tel _ _
@[simp] theorem updCtl_sec (s : Dev) (f : CtlSt → CtlSt) : (s.updCtl f).sec = s.sec := with_ctl_sec _ _
@[simp] theorem updCtl_pwr (s : Dev) (f : CtlSt → CtlSt) : (s.updCtl f).pwr = s.pwr := with_ctl_pwr _ _
@[simp] theorem updCtl_nextId (s : Dev) (f : CtlSt → CtlSt) : (s.updCtl f).nextId = s.nextId := with_ctl_nextId _ _
@[simp] theorem updCtl_fresh (s : Dev) (f : CtlSt → CtlSt) : (s.updCtl f).fresh = s.fresh := with_ctl_fresh _ _
@[simp] theorem updCtl_sent (s : Dev) (f : CtlSt → CtlSt) : (s.updCtl f).sent = s.sent := with_ctl_sent _ _
@[simp] theorem updCtl_sig (s : Dev) (f : CtlSt → CtlSt) : (s.updCtl f).sig = s.sig := with_ctl_sig _ _

/-! ### touch changes `touched` only, and setCredit `credit` besides -/

@[simp] theorem touch_beat (s : Dev) (d r : Nat) : (s.touch d r).beat = s.beat := by unfold Dev.touch; split <;> rfl
@[simp] theorem touch_ticks (s : Dev) (d r : Nat) : (s.touch d r).ticks = s.ticks := by unfold Dev.touch; split <;> rfl
@[simp] theorem touch_live (s : Dev) (d r : Nat) : (s.touch d r).live = s.live := by unfold Dev.touch; split <;> rfl
@[simp] theorem touch_latches (s : Dev) (d r : Nat) : (s.touch d r).latches = s.latches := by unfold Dev.touch; split <;> rfl
@[simp] theorem touch_pairs (s : Dev) (d r : Nat) : (s.touch d r).pairs = s.pairs := by unfold Dev.touch; split <;> rfl
@[simp] theorem touch_staged (s : Dev) (d r : Nat) : (s.touch d r).staged = s.staged := by unfold Dev.touch; split <;> rfl
@[simp] theorem touch_active (s : Dev) (d r : Nat) : (s.touch d r).active = s.active := by unfold Dev.touch; split <;> rfl
@[simp] theorem touch_number (s : Dev) (d r : Nat) : (s.touch d r).number = s.number := by unfold Dev.touch; split <;> rfl
@[simp] theorem touch_previous (s : Dev) (d r : Nat) : (s.touch d r).previous = s.previous := by unfold Dev.touch; split <;> rfl
@[simp] theorem touch_retiring (s : Dev) (d r : Nat) : (s.touch d r).retiring = s.retiring := by unfold Dev.touch; split <;> rfl
@[simp] theorem touch_molt (s : Dev) (d r : Nat) : (s.touch d r).molt = s.molt := by unfold Dev.touch; split <;> rfl
@[simp] theorem touch_damaged (s : Dev) (d r : Nat) : (s.touch d r).damaged = s.damaged := by unfold Dev.touch; split <;> rfl
@[simp] theorem touch_audit (s : Dev) (d r : Nat) : (s.touch d r).audit = s.audit := by unfold Dev.touch; split <;> rfl
@[simp] theorem touch_mem (s : Dev) (d r : Nat) : (s.touch d r).mem = s.mem := by unfold Dev.touch; split <;> rfl
@[simp] theorem touch_memSt (s : Dev) (d r : Nat) : (s.touch d r).memSt = s.memSt := by unfold Dev.touch; split <;> rfl
@[simp] theorem touch_time (s : Dev) (d r : Nat) : (s.touch d r).time = s.time := by unfold Dev.touch; split <;> rfl
@[simp] theorem touch_alarms (s : Dev) (d r : Nat) : (s.touch d r).alarms = s.alarms := by unfold Dev.touch; split <;> rfl
@[simp] theorem touch_releases (s : Dev) (d r : Nat) : (s.touch d r).releases = s.releases := by unfold Dev.touch; split <;> rfl
@[simp] theorem touch_ports (s : Dev) (d r : Nat) : (s.touch d r).ports = s.ports := by unfold Dev.touch; split <;> rfl
@[simp] theorem touch_laneErr (s : Dev) (d r : Nat) : (s.touch d r).laneErr = s.laneErr := by unfold Dev.touch; split <;> rfl
@[simp] theorem touch_arrived (s : Dev) (d r : Nat) : (s.touch d r).arrived = s.arrived := by unfold Dev.touch; split <;> rfl
@[simp] theorem touch_mcasts (s : Dev) (d r : Nat) : (s.touch d r).mcasts = s.mcasts := by unfold Dev.touch; split <;> rfl
@[simp] theorem touch_stalled (s : Dev) (d r : Nat) : (s.touch d r).stalled = s.stalled := by unfold Dev.touch; split <;> rfl
@[simp] theorem touch_ownAnswers (s : Dev) (d r : Nat) : (s.touch d r).ownAnswers = s.ownAnswers := by unfold Dev.touch; split <;> rfl
@[simp] theorem touch_allocs (s : Dev) (d r : Nat) : (s.touch d r).allocs = s.allocs := by unfold Dev.touch; split <;> rfl
@[simp] theorem touch_credit (s : Dev) (d r : Nat) : (s.touch d r).credit = s.credit := by unfold Dev.touch; split <;> rfl
@[simp] theorem touch_lost (s : Dev) (d r : Nat) : (s.touch d r).lost = s.lost := by unfold Dev.touch; split <;> rfl
@[simp] theorem touch_cfgErr (s : Dev) (d r : Nat) : (s.touch d r).cfgErr = s.cfgErr := by unfold Dev.touch; split <;> rfl
@[simp] theorem touch_uncharged (s : Dev) (d r : Nat) : (s.touch d r).uncharged = s.uncharged := by unfold Dev.touch; split <;> rfl
@[simp] theorem touch_parked (s : Dev) (d r : Nat) : (s.touch d r).parked = s.parked := by unfold Dev.touch; split <;> rfl
@[simp] theorem touch_groups (s : Dev) (d r : Nat) : (s.touch d r).groups = s.groups := by unfold Dev.touch; split <;> rfl
@[simp] theorem touch_ctxs (s : Dev) (d r : Nat) : (s.touch d r).ctxs = s.ctxs := by unfold Dev.touch; split <;> rfl
@[simp] theorem touch_released (s : Dev) (d r : Nat) : (s.touch d r).released = s.released := by unfold Dev.touch; split <;> rfl
@[simp] theorem touch_gotten (s : Dev) (d r : Nat) : (s.touch d r).gotten = s.gotten := by unfold Dev.touch; split <;> rfl
@[simp] theorem touch_lostNow (s : Dev) (d r : Nat) : (s.touch d r).lostNow = s.lostNow := by unfold Dev.touch; split <;> rfl
@[simp] theorem touch_replays (s : Dev) (d r : Nat) : (s.touch d r).replays = s.replays := by unfold Dev.touch; split <;> rfl
@[simp] theorem touch_inputs (s : Dev) (d r : Nat) : (s.touch d r).inputs = s.inputs := by unfold Dev.touch; split <;> rfl
@[simp] theorem touch_works (s : Dev) (d r : Nat) : (s.touch d r).works = s.works := by unfold Dev.touch; split <;> rfl
@[simp] theorem touch_routeInfo (s : Dev) (d r : Nat) : (s.touch d r).routeInfo = s.routeInfo := by unfold Dev.touch; split <;> rfl
@[simp] theorem touch_batches (s : Dev) (d r : Nat) : (s.touch d r).batches = s.batches := by unfold Dev.touch; split <;> rfl
@[simp] theorem touch_tableWorks (s : Dev) (d r : Nat) : (s.touch d r).tableWorks = s.tableWorks := by unfold Dev.touch; split <;> rfl
@[simp] theorem touch_gathers (s : Dev) (d r : Nat) : (s.touch d r).gathers = s.gathers := by unfold Dev.touch; split <;> rfl
@[simp] theorem touch_threads (s : Dev) (d r : Nat) : (s.touch d r).threads = s.threads := by unfold Dev.touch; split <;> rfl
@[simp] theorem touch_cores (s : Dev) (d r : Nat) : (s.touch d r).cores = s.cores := by unfold Dev.touch; split <;> rfl
@[simp] theorem touch_adapters (s : Dev) (d r : Nat) : (s.touch d r).adapters = s.adapters := by unfold Dev.touch; split <;> rfl
@[simp] theorem touch_collectors (s : Dev) (d r : Nat) : (s.touch d r).collectors = s.collectors := by unfold Dev.touch; split <;> rfl
@[simp] theorem touch_summary (s : Dev) (d r : Nat) : (s.touch d r).summary = s.summary := by unfold Dev.touch; split <;> rfl
@[simp] theorem touch_fatal (s : Dev) (d r : Nat) : (s.touch d r).fatal = s.fatal := by unfold Dev.touch; split <;> rfl
@[simp] theorem touch_tel (s : Dev) (d r : Nat) : (s.touch d r).tel = s.tel := by unfold Dev.touch; split <;> rfl
@[simp] theorem touch_sec (s : Dev) (d r : Nat) : (s.touch d r).sec = s.sec := by unfold Dev.touch; split <;> rfl
@[simp] theorem touch_ctl (s : Dev) (d r : Nat) : (s.touch d r).ctl = s.ctl := by unfold Dev.touch; split <;> rfl
@[simp] theorem touch_pwr (s : Dev) (d r : Nat) : (s.touch d r).pwr = s.pwr := by unfold Dev.touch; split <;> rfl
@[simp] theorem touch_nextId (s : Dev) (d r : Nat) : (s.touch d r).nextId = s.nextId := by unfold Dev.touch; split <;> rfl
@[simp] theorem touch_fresh (s : Dev) (d r : Nat) : (s.touch d r).fresh = s.fresh := by unfold Dev.touch; split <;> rfl
@[simp] theorem touch_sent (s : Dev) (d r : Nat) : (s.touch d r).sent = s.sent := by unfold Dev.touch; split <;> rfl
@[simp] theorem touch_sig (s : Dev) (d r : Nat) : (s.touch d r).sig = s.sig := by unfold Dev.touch; split <;> rfl

@[simp] theorem setCredit_beat (s : Dev) (d i v : Nat) : (s.setCredit d i v).beat = s.beat := touch_beat _ d 0
@[simp] theorem setCredit_ticks (s : Dev) (d i v : Nat) : (s.setCredit d i v).ticks = s.ticks := touch_ticks _ d 0
@[simp] theorem setCredit_live (s : Dev) (d i v : Nat) : (s.setCredit d i v).live = s.live := touch_live _ d 0
@[simp] theorem setCredit_latches (s : Dev) (d i v : Nat) : (s.setCredit d i v).latches = s.latches := touch_latches _ d 0
@[simp] theorem setCredit_pairs (s : Dev) (d i v : Nat) : (s.setCredit d i v).pairs = s.pairs := touch_pairs _ d 0
@[simp] theorem setCredit_staged (s : Dev) (d i v : Nat) : (s.setCredit d i v).staged = s.staged := touch_staged _ d 0
@[simp] theorem setCredit_active (s : Dev) (d i v : Nat) : (s.setCredit d i v).active = s.active := touch_active _ d 0
@[simp] theorem setCredit_number (s : Dev) (d i v : Nat) : (s.setCredit d i v).number = s.number := touch_number _ d 0
@[simp] theorem setCredit_previous (s : Dev) (d i v : Nat) : (s.setCredit d i v).previous = s.previous := touch_previous _ d 0
@[simp] theorem setCredit_retiring (s : Dev) (d i v : Nat) : (s.setCredit d i v).retiring = s.retiring := touch_retiring _ d 0
@[simp] theorem setCredit_molt (s : Dev) (d i v : Nat) : (s.setCredit d i v).molt = s.molt := touch_molt _ d 0
@[simp] theorem setCredit_damaged (s : Dev) (d i v : Nat) : (s.setCredit d i v).damaged = s.damaged := touch_damaged _ d 0
@[simp] theorem setCredit_audit (s : Dev) (d i v : Nat) : (s.setCredit d i v).audit = s.audit := touch_audit _ d 0
@[simp] theorem setCredit_mem (s : Dev) (d i v : Nat) : (s.setCredit d i v).mem = s.mem := touch_mem _ d 0
@[simp] theorem setCredit_memSt (s : Dev) (d i v : Nat) : (s.setCredit d i v).memSt = s.memSt := touch_memSt _ d 0
@[simp] theorem setCredit_time (s : Dev) (d i v : Nat) : (s.setCredit d i v).time = s.time := touch_time _ d 0
@[simp] theorem setCredit_alarms (s : Dev) (d i v : Nat) : (s.setCredit d i v).alarms = s.alarms := touch_alarms _ d 0
@[simp] theorem setCredit_releases (s : Dev) (d i v : Nat) : (s.setCredit d i v).releases = s.releases := touch_releases _ d 0
@[simp] theorem setCredit_ports (s : Dev) (d i v : Nat) : (s.setCredit d i v).ports = s.ports := touch_ports _ d 0
@[simp] theorem setCredit_laneErr (s : Dev) (d i v : Nat) : (s.setCredit d i v).laneErr = s.laneErr := touch_laneErr _ d 0
@[simp] theorem setCredit_arrived (s : Dev) (d i v : Nat) : (s.setCredit d i v).arrived = s.arrived := touch_arrived _ d 0
@[simp] theorem setCredit_mcasts (s : Dev) (d i v : Nat) : (s.setCredit d i v).mcasts = s.mcasts := touch_mcasts _ d 0
@[simp] theorem setCredit_stalled (s : Dev) (d i v : Nat) : (s.setCredit d i v).stalled = s.stalled := touch_stalled _ d 0
@[simp] theorem setCredit_ownAnswers (s : Dev) (d i v : Nat) : (s.setCredit d i v).ownAnswers = s.ownAnswers := touch_ownAnswers _ d 0
@[simp] theorem setCredit_allocs (s : Dev) (d i v : Nat) : (s.setCredit d i v).allocs = s.allocs := touch_allocs _ d 0
@[simp] theorem setCredit_lost (s : Dev) (d i v : Nat) : (s.setCredit d i v).lost = s.lost := touch_lost _ d 0
@[simp] theorem setCredit_cfgErr (s : Dev) (d i v : Nat) : (s.setCredit d i v).cfgErr = s.cfgErr := touch_cfgErr _ d 0
@[simp] theorem setCredit_uncharged (s : Dev) (d i v : Nat) : (s.setCredit d i v).uncharged = s.uncharged := touch_uncharged _ d 0
@[simp] theorem setCredit_parked (s : Dev) (d i v : Nat) : (s.setCredit d i v).parked = s.parked := touch_parked _ d 0
@[simp] theorem setCredit_groups (s : Dev) (d i v : Nat) : (s.setCredit d i v).groups = s.groups := touch_groups _ d 0
@[simp] theorem setCredit_ctxs (s : Dev) (d i v : Nat) : (s.setCredit d i v).ctxs = s.ctxs := touch_ctxs _ d 0
@[simp] theorem setCredit_released (s : Dev) (d i v : Nat) : (s.setCredit d i v).released = s.released := touch_released _ d 0
@[simp] theorem setCredit_gotten (s : Dev) (d i v : Nat) : (s.setCredit d i v).gotten = s.gotten := touch_gotten _ d 0
@[simp] theorem setCredit_lostNow (s : Dev) (d i v : Nat) : (s.setCredit d i v).lostNow = s.lostNow := touch_lostNow _ d 0
@[simp] theorem setCredit_replays (s : Dev) (d i v : Nat) : (s.setCredit d i v).replays = s.replays := touch_replays _ d 0
@[simp] theorem setCredit_inputs (s : Dev) (d i v : Nat) : (s.setCredit d i v).inputs = s.inputs := touch_inputs _ d 0
@[simp] theorem setCredit_works (s : Dev) (d i v : Nat) : (s.setCredit d i v).works = s.works := touch_works _ d 0
@[simp] theorem setCredit_routeInfo (s : Dev) (d i v : Nat) : (s.setCredit d i v).routeInfo = s.routeInfo := touch_routeInfo _ d 0
@[simp] theorem setCredit_batches (s : Dev) (d i v : Nat) : (s.setCredit d i v).batches = s.batches := touch_batches _ d 0
@[simp] theorem setCredit_tableWorks (s : Dev) (d i v : Nat) : (s.setCredit d i v).tableWorks = s.tableWorks := touch_tableWorks _ d 0
@[simp] theorem setCredit_gathers (s : Dev) (d i v : Nat) : (s.setCredit d i v).gathers = s.gathers := touch_gathers _ d 0
@[simp] theorem setCredit_threads (s : Dev) (d i v : Nat) : (s.setCredit d i v).threads = s.threads := touch_threads _ d 0
@[simp] theorem setCredit_cores (s : Dev) (d i v : Nat) : (s.setCredit d i v).cores = s.cores := touch_cores _ d 0
@[simp] theorem setCredit_adapters (s : Dev) (d i v : Nat) : (s.setCredit d i v).adapters = s.adapters := touch_adapters _ d 0
@[simp] theorem setCredit_collectors (s : Dev) (d i v : Nat) : (s.setCredit d i v).collectors = s.collectors := touch_collectors _ d 0
@[simp] theorem setCredit_summary (s : Dev) (d i v : Nat) : (s.setCredit d i v).summary = s.summary := touch_summary _ d 0
@[simp] theorem setCredit_fatal (s : Dev) (d i v : Nat) : (s.setCredit d i v).fatal = s.fatal := touch_fatal _ d 0
@[simp] theorem setCredit_tel (s : Dev) (d i v : Nat) : (s.setCredit d i v).tel = s.tel := touch_tel _ d 0
@[simp] theorem setCredit_sec (s : Dev) (d i v : Nat) : (s.setCredit d i v).sec = s.sec := touch_sec _ d 0
@[simp] theorem setCredit_ctl (s : Dev) (d i v : Nat) : (s.setCredit d i v).ctl = s.ctl := touch_ctl _ d 0
@[simp] theorem setCredit_pwr (s : Dev) (d i v : Nat) : (s.setCredit d i v).pwr = s.pwr := touch_pwr _ d 0
@[simp] theorem setCredit_nextId (s : Dev) (d i v : Nat) : (s.setCredit d i v).nextId = s.nextId := touch_nextId _ d 0
@[simp] theorem setCredit_fresh (s : Dev) (d i v : Nat) : (s.setCredit d i v).fresh = s.fresh := touch_fresh _ d 0
@[simp] theorem setCredit_sent (s : Dev) (d i v : Nat) : (s.setCredit d i v).sent = s.sent := touch_sent _ d 0
@[simp] theorem setCredit_sig (s : Dev) (d i v : Nat) : (s.setCredit d i v).sig = s.sig := touch_sig _ d 0

/-! ### settle changes `sent` and `sig` only -/

/-- `settle` sets the signals, and appends at most an in-band interrupt to the trace. -/
theorem settle_eq (s : Dev) : ∃ l, settle s = { s with sent := l, sig := s.signalsNow } := by
  unfold settle
  dsimp only
  split
  · exact ⟨_, rfl⟩
  · exact ⟨_, rfl⟩

theorem settle_ind {P : Dev → Prop} (s : Dev) (h : ∀ l g, P { s with sent := l, sig := g }) : P (settle s) := by
  obtain ⟨l, e⟩ := settle_eq s
  rw [e]
  exact h l _

@[simp] theorem settle_beat (s : Dev) : (settle s).beat = s.beat := settle_ind (P := fun t => t.beat = s.beat) s fun _ _ => rfl
@[simp] theorem settle_ticks (s : Dev) : (settle s).ticks = s.ticks := settle_ind (P := fun t => t.ticks = s.ticks) s fun _ _ => rfl
@[simp] theorem settle_live (s : Dev) : (settle s).live = s.live := settle_ind (P := fun t => t.live = s.live) s fun _ _ => rfl
@[simp] theorem settle_latches (s : Dev) : (settle s).latches = s.latches := settle_ind (P := fun t => t.latches = s.latches) s fun _ _ => rfl
@[simp] theorem settle_pairs (s : Dev) : (settle s).pairs = s.pairs := settle_ind (P := fun t => t.pairs = s.pairs) s fun _ _ => rfl
@[simp] theorem settle_staged (s : Dev) : (settle s).staged = s.staged := settle_ind (P := fun t => t.staged = s.staged) s fun _ _ => rfl
@[simp] theorem settle_active (s : Dev) : (settle s).active = s.active := settle_ind (P := fun t => t.active = s.active) s fun _ _ => rfl
@[simp] theorem settle_number (s : Dev) : (settle s).number = s.number := settle_ind (P := fun t => t.number = s.number) s fun _ _ => rfl
@[simp] theorem settle_previous (s : Dev) : (settle s).previous = s.previous := settle_ind (P := fun t => t.previous = s.previous) s fun _ _ => rfl
@[simp] theorem settle_retiring (s : Dev) : (settle s).retiring = s.retiring := settle_ind (P := fun t => t.retiring = s.retiring) s fun _ _ => rfl
@[simp] theorem settle_molt (s : Dev) : (settle s).molt = s.molt := settle_ind (P := fun t => t.molt = s.molt) s fun _ _ => rfl
@[simp] theorem settle_damaged (s : Dev) : (settle s).damaged = s.damaged := settle_ind (P := fun t => t.damaged = s.damaged) s fun _ _ => rfl
@[simp] theorem settle_audit (s : Dev) : (settle s).audit = s.audit := settle_ind (P := fun t => t.audit = s.audit) s fun _ _ => rfl
@[simp] theorem settle_mem (s : Dev) : (settle s).mem = s.mem := settle_ind (P := fun t => t.mem = s.mem) s fun _ _ => rfl
@[simp] theorem settle_memSt (s : Dev) : (settle s).memSt = s.memSt := settle_ind (P := fun t => t.memSt = s.memSt) s fun _ _ => rfl
@[simp] theorem settle_time (s : Dev) : (settle s).time = s.time := settle_ind (P := fun t => t.time = s.time) s fun _ _ => rfl
@[simp] theorem settle_alarms (s : Dev) : (settle s).alarms = s.alarms := settle_ind (P := fun t => t.alarms = s.alarms) s fun _ _ => rfl
@[simp] theorem settle_releases (s : Dev) : (settle s).releases = s.releases := settle_ind (P := fun t => t.releases = s.releases) s fun _ _ => rfl
@[simp] theorem settle_ports (s : Dev) : (settle s).ports = s.ports := settle_ind (P := fun t => t.ports = s.ports) s fun _ _ => rfl
@[simp] theorem settle_laneErr (s : Dev) : (settle s).laneErr = s.laneErr := settle_ind (P := fun t => t.laneErr = s.laneErr) s fun _ _ => rfl
@[simp] theorem settle_arrived (s : Dev) : (settle s).arrived = s.arrived := settle_ind (P := fun t => t.arrived = s.arrived) s fun _ _ => rfl
@[simp] theorem settle_mcasts (s : Dev) : (settle s).mcasts = s.mcasts := settle_ind (P := fun t => t.mcasts = s.mcasts) s fun _ _ => rfl
@[simp] theorem settle_stalled (s : Dev) : (settle s).stalled = s.stalled := settle_ind (P := fun t => t.stalled = s.stalled) s fun _ _ => rfl
@[simp] theorem settle_ownAnswers (s : Dev) : (settle s).ownAnswers = s.ownAnswers := settle_ind (P := fun t => t.ownAnswers = s.ownAnswers) s fun _ _ => rfl
@[simp] theorem settle_allocs (s : Dev) : (settle s).allocs = s.allocs := settle_ind (P := fun t => t.allocs = s.allocs) s fun _ _ => rfl
@[simp] theorem settle_credit (s : Dev) : (settle s).credit = s.credit := settle_ind (P := fun t => t.credit = s.credit) s fun _ _ => rfl
@[simp] theorem settle_lost (s : Dev) : (settle s).lost = s.lost := settle_ind (P := fun t => t.lost = s.lost) s fun _ _ => rfl
@[simp] theorem settle_touched (s : Dev) : (settle s).touched = s.touched := settle_ind (P := fun t => t.touched = s.touched) s fun _ _ => rfl
@[simp] theorem settle_cfgErr (s : Dev) : (settle s).cfgErr = s.cfgErr := settle_ind (P := fun t => t.cfgErr = s.cfgErr) s fun _ _ => rfl
@[simp] theorem settle_uncharged (s : Dev) : (settle s).uncharged = s.uncharged := settle_ind (P := fun t => t.uncharged = s.uncharged) s fun _ _ => rfl
@[simp] theorem settle_parked (s : Dev) : (settle s).parked = s.parked := settle_ind (P := fun t => t.parked = s.parked) s fun _ _ => rfl
@[simp] theorem settle_groups (s : Dev) : (settle s).groups = s.groups := settle_ind (P := fun t => t.groups = s.groups) s fun _ _ => rfl
@[simp] theorem settle_ctxs (s : Dev) : (settle s).ctxs = s.ctxs := settle_ind (P := fun t => t.ctxs = s.ctxs) s fun _ _ => rfl
@[simp] theorem settle_released (s : Dev) : (settle s).released = s.released := settle_ind (P := fun t => t.released = s.released) s fun _ _ => rfl
@[simp] theorem settle_gotten (s : Dev) : (settle s).gotten = s.gotten := settle_ind (P := fun t => t.gotten = s.gotten) s fun _ _ => rfl
@[simp] theorem settle_lostNow (s : Dev) : (settle s).lostNow = s.lostNow := settle_ind (P := fun t => t.lostNow = s.lostNow) s fun _ _ => rfl
@[simp] theorem settle_replays (s : Dev) : (settle s).replays = s.replays := settle_ind (P := fun t => t.replays = s.replays) s fun _ _ => rfl
@[simp] theorem settle_inputs (s : Dev) : (settle s).inputs = s.inputs := settle_ind (P := fun t => t.inputs = s.inputs) s fun _ _ => rfl
@[simp] theorem settle_works (s : Dev) : (settle s).works = s.works := settle_ind (P := fun t => t.works = s.works) s fun _ _ => rfl
@[simp] theorem settle_routeInfo (s : Dev) : (settle s).routeInfo = s.routeInfo := settle_ind (P := fun t => t.routeInfo = s.routeInfo) s fun _ _ => rfl
@[simp] theorem settle_batches (s : Dev) : (settle s).batches = s.batches := settle_ind (P := fun t => t.batches = s.batches) s fun _ _ => rfl
@[simp] theorem settle_tableWorks (s : Dev) : (settle s).tableWorks = s.tableWorks := settle_ind (P := fun t => t.tableWorks = s.tableWorks) s fun _ _ => rfl
@[simp] theorem settle_gathers (s : Dev) : (settle s).gathers = s.gathers := settle_ind (P := fun t => t.gathers = s.gathers) s fun _ _ => rfl
@[simp] theorem settle_threads (s : Dev) : (settle s).threads = s.threads := settle_ind (P := fun t => t.threads = s.threads) s fun _ _ => rfl
@[simp] theorem settle_cores (s : Dev) : (settle s).cores = s.cores := settle_ind (P := fun t => t.cores = s.cores) s fun _ _ => rfl
@[simp] theorem settle_adapters (s : Dev) : (settle s).adapters = s.adapters := settle_ind (P := fun t => t.adapters = s.adapters) s fun _ _ => rfl
@[simp] theorem settle_collectors (s : Dev) : (settle s).collectors = s.collectors := settle_ind (P := fun t => t.collectors = s.collectors) s fun _ _ => rfl
@[simp] theorem settle_summary (s : Dev) : (settle s).summary = s.summary := settle_ind (P := fun t => t.summary = s.summary) s fun _ _ => rfl
@[simp] theorem settle_fatal (s : Dev) : (settle s).fatal = s.fatal := settle_ind (P := fun t => t.fatal = s.fatal) s fun _ _ => rfl
@[simp] theorem settle_tel (s : Dev) : (settle s).tel = s.tel := settle_ind (P := fun t => t.tel = s.tel) s fun _ _ => rfl
@[simp] theorem settle_sec (s : Dev) : (settle s).sec = s.sec := settle_ind (P := fun t => t.sec = s.sec) s fun _ _ => rfl
@[simp] theorem settle_ctl (s : Dev) : (settle s).ctl = s.ctl := settle_ind (P := fun t => t.ctl = s.ctl) s fun _ _ => rfl
@[simp] theorem settle_pwr (s : Dev) : (settle s).pwr = s.pwr := settle_ind (P := fun t => t.pwr = s.pwr) s fun _ _ => rfl
@[simp] theorem settle_nextId (s : Dev) : (settle s).nextId = s.nextId := settle_ind (P := fun t => t.nextId = s.nextId) s fun _ _ => rfl
@[simp] theorem settle_fresh (s : Dev) : (settle s).fresh = s.fresh := settle_ind (P := fun t => t.fresh = s.fresh) s fun _ _ => rfl

end Sys2Proof.Machine
end

