-- ==== Sys2Proof/Laws/Storage.lean ====
section
/-! SUPPORT. Laws of the sparse storage: reading after a write, and the canonical form that every operation keeps. -/

namespace Sys2Proof.Machine

/-! ### Maps -/

theorem Map.find_insert_same {α : Type} (m : Map α) (k : Nat) (v : α) : Map.find (Map.insert m k v) k = some v := by
  induction m with
  | nil => simp [Map.insert, Map.find]
  | cons x t ih =>
    obtain ⟨a, w⟩ := x
    simp only [Map.insert]
    split
    · simp [Map.find]
    · split
      · simp [Map.find]
      · have : a ≠ k := by omega
        simp [Map.find, this, ih]

theorem Map.find_insert_other {α : Type} (m : Map α) (k j : Nat) (v : α) (h : j ≠ k) :
    Map.find (Map.insert m k v) j = Map.find m j := by
  induction m with
  | nil => simp [Map.insert, Map.find, Ne.symm h]
  | cons x t ih =>
    obtain ⟨a, w⟩ := x
    simp only [Map.insert]
    split
    · simp [Map.find, Ne.symm h]
    · split
      · next e => subst e; simp [Map.find, Ne.symm h]
      · simp only [Map.find, ih]

theorem Map.find_erase_same {α : Type} (m : Map α) (k : Nat) : Map.find (Map.erase m k) k = none := by
  induction m with
  | nil => rfl
  | cons x t ih =>
    obtain ⟨a, w⟩ := x
    by_cases h : a = k
    · simp only [Map.erase, h, ne_eq, not_true_eq_false, decide_false, Bool.false_eq_true, not_false_eq_true,
        List.filter_cons_of_neg]
      exact ih
    · simp only [Map.erase, ne_eq, h, not_false_eq_true, decide_true, List.filter_cons_of_pos, Map.find, if_false]
      exact ih

theorem Map.find_erase_other {α : Type} (m : Map α) (k j : Nat) (h : j ≠ k) : Map.find (Map.erase m k) j = Map.find m j := by
  induction m with
  | nil => rfl
  | cons x t ih =>
    obtain ⟨a, w⟩ := x
    by_cases e : a = k
    · have hj : a ≠ j := by omega
      simp only [Map.erase, e, ne_eq, not_true_eq_false, decide_false, Bool.false_eq_true, not_false_eq_true,
        List.filter_cons_of_neg, Map.find]
      rw [if_neg (by omega)]
      exact ih
    · simp only [Map.erase, ne_eq, e, not_false_eq_true, decide_true, List.filter_cons_of_pos, Map.find]
      split
      · rfl
      · exact ih

/-- Reading after a store to the same key. -/
theorem Map.get_put_same {α : Type} [DecidableEq α] (m : Map α) (k : Nat) (v d : α) : Map.get (Map.put m k v d) k d = v := by
  unfold Map.put
  split
  · next e => simp [Map.get, Map.find_erase_same, e]
  · simp [Map.get, Map.find_insert_same]

/-- A store leaves every other key alone. -/
theorem Map.get_put_other {α : Type} [DecidableEq α] (m : Map α) (k j : Nat) (v d e : α) (h : j ≠ k) :
    Map.get (Map.put m k v d) j e = Map.get m j e := by
  unfold Map.put
  split
  · simp [Map.get, Map.find_erase_other _ _ _ h]
  · simp [Map.get, Map.find_insert_other _ _ _ _ h]

/-! ### The canonical form -/

/-- Every key of a map is above `k`. -/
def Map.above {α : Type} (k : Nat) (m : Map α) : Prop := ∀ x ∈ m, k < x.1

theorem Map.sorted_cons {α : Type} (x : Nat × α) (m : Map α) :
    Map.sorted (x :: m) = true ↔ Map.above x.1 m ∧ Map.sorted m = true := by
  induction m generalizing x with
  | nil => simp [Map.sorted, Map.above]
  | cons y t ih =>
    obtain ⟨a, v⟩ := x
    obtain ⟨b, w⟩ := y
    simp only [Map.sorted, Bool.and_eq_true, decide_eq_true_eq]
    constructor
    · rintro ⟨h, hs⟩
      refine ⟨?_, hs⟩
      intro z hz
      rcases List.mem_cons.mp hz with e | e
      · rw [e]; exact h
      · exact Nat.lt_trans h (((ih (b, w)).mp hs).1 z e)
    · rintro ⟨h, hs⟩
      exact ⟨h (b, w) (List.mem_cons_self ..), hs⟩

theorem Map.above_insert {α : Type} (m : Map α) (j k : Nat) (v : α) (h : Map.above j m) (hk : j < k) :
    Map.above j (Map.insert m k v) := by
  induction m with
  | nil => intro x hx; simp [Map.insert] at hx; rw [hx]; exact hk
  | cons y t ih =>
    obtain ⟨a, w⟩ := y
    have ht : Map.above j t := fun x hx => h x (List.mem_cons_of_mem _ hx)
    have ha : j < a := h (a, w) (List.mem_cons_self ..)
    simp only [Map.insert]
    intro x hx
    split at hx
    · rcases List.mem_cons.mp hx with e | e
      · rw [e]; exact hk
      · exact h x e
    · split at hx
      · rcases List.mem_cons.mp hx with e | e
        · rw [e]; exact hk
        · exact ht x e
      · rcases List.mem_cons.mp hx with e | e
        · rw [e]; exact ha
        · exact ih ht x e

theorem Map.sorted_insert {α : Type} (m : Map α) (k : Nat) (v : α) (h : Map.sorted m = true) :
    Map.sorted (Map.insert m k v) = true := by
  induction m with
  | nil => rfl
  | cons y t ih =>
    obtain ⟨a, w⟩ := y
    have hc := (Map.sorted_cons (a, w) t).mp h
    simp only [Map.insert]
    split
    · next hlt =>
      refine (Map.sorted_cons _ _).mpr ⟨?_, h⟩
      intro x hx
      rcases List.mem_cons.mp hx with e | e
      · rw [e]; exact hlt
      · exact Nat.lt_trans hlt (hc.1 x e)
    · split
      · next e => exact (Map.sorted_cons _ _).mpr ⟨by rw [e]; exact hc.1, hc.2⟩
      · exact (Map.sorted_cons _ _).mpr ⟨Map.above_insert t a k v hc.1 (by omega), ih hc.2⟩

theorem Map.sorted_filter {α : Type} (m : Map α) (p : Nat × α → Bool) (h : Map.sorted m = true) :
    Map.sorted (m.filter p) = true := by
  induction m with
  | nil => rfl
  | cons y t ih =>
    have hc := (Map.sorted_cons y t).mp h
    simp only [List.filter_cons]
    split
    · exact (Map.sorted_cons _ _).mpr ⟨fun x hx => hc.1 x (List.mem_filter.mp hx).1, ih hc.2⟩
    · exact ih hc.2

theorem Map.mem_insert {α : Type} (m : Map α) (k : Nat) (v : α) (x : Nat × α) (h : x ∈ Map.insert m k v) :
    x = (k, v) ∨ x ∈ m := by
  induction m with
  | nil => exact .inl (by simpa [Map.insert] using h)
  | cons y t ih =>
    obtain ⟨a, w⟩ := y
    simp only [Map.insert] at h
    split at h
    · rcases List.mem_cons.mp h with e | e
      · exact .inl e
      · exact .inr e
    · split at h
      · rcases List.mem_cons.mp h with e | e
        · exact .inl e
        · exact .inr (List.mem_cons_of_mem _ e)
      · rcases List.mem_cons.mp h with e | e
        · exact .inr (by rw [e]; exact List.mem_cons_self ..)
        · rcases ih e with e | e
          · exact .inl e
          · exact .inr (List.mem_cons_of_mem _ e)

/-! ### Memory -/

/-- Reading the byte just stored. -/
theorem Memory.read_write_same (m : Memory) (a : Nat) (b : Byte) : Memory.read (Memory.write m a b) a = b :=
  Map.get_put_same m a b 0

/-- A store leaves every other byte alone. -/
theorem Memory.read_write_other (m : Memory) (a c : Nat) (b : Byte) (h : c ≠ a) :
    Memory.read (Memory.write m a b) c = Memory.read m c := Map.get_put_other m a c b 0 0 h

theorem Memory.wf_iff (m : Memory) : Memory.wf m = true ↔ Map.sorted m = true ∧ ∀ x ∈ m, x.2 ≠ 0 := by
  simp [Memory.wf]

theorem Memory.wf_filter (m : Memory) (p : Host.Cell → Bool) (h : Memory.wf m = true) : Memory.wf (m.filter p) = true := by
  rw [Memory.wf_iff] at *
  exact ⟨Map.sorted_filter m p h.1, fun x hx => h.2 x (List.mem_filter.mp hx).1⟩

/-- A store keeps the canonical form. -/
theorem Memory.wf_write (m : Memory) (a : Nat) (b : Byte) (h : Memory.wf m = true) : Memory.wf (Memory.write m a b) = true := by
  unfold Memory.write Map.put
  split
  · exact Memory.wf_filter m _ h
  · next hb =>
    rw [Memory.wf_iff] at *
    refine ⟨Map.sorted_insert m a b h.1, fun x hx => ?_⟩
    rcases Map.mem_insert m a b x hx with e | e
    · rw [e]; exact hb
    · exact h.2 x e

theorem Memory.wf_writeBytes (l : List Byte) (m : Memory) (a : Nat) (h : Memory.wf m = true) :
    Memory.wf (Memory.writeBytes m a l) = true := by
  induction l generalizing m a with
  | nil => exact h
  | cons b t ih => exact ih _ _ (Memory.wf_write m a b h)

theorem Memory.wf_writeLE (m : Memory) (a n v : Nat) (h : Memory.wf m = true) : Memory.wf (Memory.writeLE m a n v) = true :=
  Memory.wf_writeBytes _ m a h

theorem Memory.wf_zero (m : Memory) (a n : Nat) (h : Memory.wf m = true) : Memory.wf (Memory.zero m a n) = true :=
  Memory.wf_filter m _ h

/-- Stores of several bytes leave what lies outside them alone. -/
theorem Memory.read_writeBytes_out (l : List Byte) (m : Memory) (a c : Nat) (h : c < a ∨ a + l.length ≤ c) :
    Memory.read (Memory.writeBytes m a l) c = Memory.read m c := by
  induction l generalizing m a with
  | nil => rfl
  | cons b t ih =>
    simp only [List.length_cons] at h
    rw [Memory.writeBytes, ih _ _ (by omega), Memory.read_write_other _ _ _ _ (by omega)]

/-- Each byte of a store of several bytes. -/
theorem Memory.read_writeBytes_in (l : List Byte) (m : Memory) (a i : Nat) (h : i < l.length) :
    Memory.read (Memory.writeBytes m a l) (a + i) = l[i] := by
  induction l generalizing m a i with
  | nil => exact absurd h (Nat.not_lt_zero _)
  | cons b t ih =>
    rw [Memory.writeBytes]
    cases i with
    | zero =>
      simp only [Nat.add_zero]
      rw [Memory.read_writeBytes_out _ _ _ _ (.inl (by omega)), Memory.read_write_same]
      rfl
    | succ j =>
      have hj : j < t.length := Nat.lt_of_succ_lt_succ h
      have := ih (Memory.write m a b) (a + 1) j hj
      rw [show a + (j + 1) = a + 1 + j by omega, this]
      rfl

/-! ### Register files -/

/-- Reading the word just stored. -/
@[simp] theorem RegFile.get_set_same (f : RegFile) (a : Nat) (v : Word) : RegFile.get (RegFile.set f a v) a = v :=
  Map.get_put_same f a v (resetWord a)

/-- A store leaves every other word alone. -/
theorem RegFile.get_set_other (f : RegFile) (a c : Nat) (v : Word) (h : c ≠ a) :
    RegFile.get (RegFile.set f a v) c = RegFile.get f c := Map.get_put_other f a c v (resetWord a) (resetWord c) h

theorem RegFile.wf_iff (f : RegFile) : RegFile.wf f = true ↔ Map.sorted f = true ∧ ∀ x ∈ f, x.2 ≠ resetWord x.1 := by
  simp [RegFile.wf]

/-- A store keeps the canonical form. -/
theorem RegFile.wf_set (f : RegFile) (a : Nat) (v : Word) (h : RegFile.wf f = true) : RegFile.wf (RegFile.set f a v) = true := by
  unfold RegFile.set Map.put
  rw [RegFile.wf_iff] at h
  split
  · rw [RegFile.wf_iff]
    exact ⟨Map.sorted_filter f _ h.1, fun x hx => h.2 x (List.mem_filter.mp hx).1⟩
  · next hb =>
    rw [RegFile.wf_iff]
    refine ⟨Map.sorted_insert f a v h.1, fun x hx => ?_⟩
    rcases Map.mem_insert f a v x hx with e | e
    · rw [e]; exact hb
    · exact h.2 x e

theorem RegFile.wf_putBytes (l : List Byte) (f : RegFile) (a : Nat) (h : RegFile.wf f = true) :
    RegFile.wf (RegFile.putBytes f a l) = true := by
  induction l generalizing f a with
  | nil => exact h
  | cons b t ih => exact ih _ _ (RegFile.wf_set f _ _ h)

end Sys2Proof.Machine
end

