-- ==== Sys2Proof/Laws/Bits.lean ====
section
/-! SUPPORT. Laws of bit fields: reading a field after it, or another, is set; and the same for the live registers. -/

namespace Sys2Proof.Machine

/-- A number with a field replaced stays within its width. -/
theorem setBits_lt (n hi lo v w : Nat) (hn : n < 2 ^ w) (hl : lo ≤ hi) (hw : hi < w) : setBits n hi lo v < 2 ^ w := by
  unfold setBits
  have h1 : v % 2 ^ (hi + 1 - lo) * 2 ^ lo + n % 2 ^ lo < 2 ^ (hi + 1) := by
    have ha : v % 2 ^ (hi + 1 - lo) < 2 ^ (hi + 1 - lo) := Nat.mod_lt _ (Nat.two_pow_pos _)
    have hb : n % 2 ^ lo < 2 ^ lo := Nat.mod_lt _ (Nat.two_pow_pos _)
    calc v % 2 ^ (hi + 1 - lo) * 2 ^ lo + n % 2 ^ lo
        < v % 2 ^ (hi + 1 - lo) * 2 ^ lo + 2 ^ lo := by omega
      _ = (v % 2 ^ (hi + 1 - lo) + 1) * 2 ^ lo := by rw [Nat.add_mul, Nat.one_mul]
      _ ≤ 2 ^ (hi + 1 - lo) * 2 ^ lo := Nat.mul_le_mul_right _ ha
      _ = 2 ^ (hi + 1) := by rw [← Nat.pow_add]; congr 1; omega
  have h2 : n / 2 ^ (hi + 1) < 2 ^ (w - (hi + 1)) := by
    apply Nat.div_lt_of_lt_mul
    rw [← Nat.pow_add]
    have : hi + 1 + (w - (hi + 1)) = w := by omega
    rw [this]; exact hn
  calc n / 2 ^ (hi + 1) * 2 ^ (hi + 1) + v % 2 ^ (hi + 1 - lo) * 2 ^ lo + n % 2 ^ lo
      < n / 2 ^ (hi + 1) * 2 ^ (hi + 1) + 2 ^ (hi + 1) := by omega
    _ = (n / 2 ^ (hi + 1) + 1) * 2 ^ (hi + 1) := by rw [Nat.add_mul, Nat.one_mul]
    _ ≤ 2 ^ (w - (hi + 1)) * 2 ^ (hi + 1) := Nat.mul_le_mul_right _ h2
    _ = 2 ^ w := by rw [← Nat.pow_add]; congr 1; omega

/-- The field that was set. -/
theorem bits_setBits_same (n hi lo v : Nat) (hl : lo ≤ hi) : bits (setBits n hi lo v) hi lo = v % 2 ^ (hi + 1 - lo) := by
  unfold bits setBits
  have hb : n % 2 ^ lo < 2 ^ lo := Nat.mod_lt _ (Nat.two_pow_pos _)
  have e : (2 : Nat) ^ (hi + 1) = 2 ^ (hi + 1 - lo) * 2 ^ lo := by rw [← Nat.pow_add]; congr 1; omega
  have h : (n / 2 ^ (hi + 1) * 2 ^ (hi + 1) + v % 2 ^ (hi + 1 - lo) * 2 ^ lo + n % 2 ^ lo) / 2 ^ lo
      = n / 2 ^ (hi + 1) * 2 ^ (hi + 1 - lo) + v % 2 ^ (hi + 1 - lo) := by
    have : n / 2 ^ (hi + 1) * 2 ^ (hi + 1) + v % 2 ^ (hi + 1 - lo) * 2 ^ lo + n % 2 ^ lo
        = n % 2 ^ lo + (n / 2 ^ (hi + 1) * 2 ^ (hi + 1 - lo) + v % 2 ^ (hi + 1 - lo)) * 2 ^ lo := by
      rw [Nat.add_mul, Nat.mul_assoc, ← e]; omega
    rw [this, Nat.add_mul_div_right _ _ (Nat.two_pow_pos _), Nat.div_eq_of_lt hb, Nat.zero_add]
  rw [h, Nat.mul_comm, Nat.mul_add_mod, Nat.mod_mod]

/-- A field above the one that was set. -/
theorem bits_setBits_above (n hi lo v h l : Nat) (hl : lo ≤ hi) (ha : hi < l) : bits (setBits n hi lo v) h l = bits n h l := by
  unfold bits
  congr 1
  have e : (2 : Nat) ^ l = 2 ^ (hi + 1) * 2 ^ (l - (hi + 1)) := by rw [← Nat.pow_add]; congr 1; omega
  rw [e, ← Nat.div_div_eq_div_mul, ← Nat.div_div_eq_div_mul]
  congr 1
  unfold setBits
  have hb : n % 2 ^ lo < 2 ^ lo := Nat.mod_lt _ (Nat.two_pow_pos _)
  have hv : v % 2 ^ (hi + 1 - lo) < 2 ^ (hi + 1 - lo) := Nat.mod_lt _ (Nat.two_pow_pos _)
  have e2 : (2 : Nat) ^ (hi + 1) = 2 ^ (hi + 1 - lo) * 2 ^ lo := by rw [← Nat.pow_add]; congr 1; omega
  have h1 : v % 2 ^ (hi + 1 - lo) * 2 ^ lo + n % 2 ^ lo < 2 ^ (hi + 1) := by
    have : (v % 2 ^ (hi + 1 - lo) + 1) * 2 ^ lo ≤ 2 ^ (hi + 1 - lo) * 2 ^ lo := Nat.mul_le_mul_right _ hv
    rw [Nat.add_mul, Nat.one_mul] at this
    omega
  rw [Nat.add_assoc, Nat.add_comm, Nat.add_mul_div_right _ _ (Nat.two_pow_pos _), Nat.div_eq_of_lt h1, Nat.zero_add]

/-- A field below the one that was set. -/
theorem bits_setBits_below (n hi lo v h l : Nat) (hl : lo ≤ hi) (hb : h < lo) : bits (setBits n hi lo v) h l = bits n h l := by
  by_cases hlh : l ≤ h
  · unfold bits
    have key : ∀ m : Nat, m / 2 ^ l % 2 ^ (h + 1 - l) = m % 2 ^ (h + 1) / 2 ^ l := by
      intro m
      have e : (2 : Nat) ^ (h + 1) = 2 ^ l * 2 ^ (h + 1 - l) := by rw [← Nat.pow_add]; congr 1; omega
      rw [e, Nat.mod_mul_right_div_self]
    rw [key, key]
    congr 1
    unfold setBits
    have d1 : (2 : Nat) ^ (hi + 1) = 2 ^ (h + 1) * 2 ^ (hi - h) := by rw [← Nat.pow_add]; congr 1; omega
    have d2 : (2 : Nat) ^ lo = 2 ^ (h + 1) * 2 ^ (lo - (h + 1)) := by rw [← Nat.pow_add]; congr 1; omega
    have : n / 2 ^ (hi + 1) * 2 ^ (hi + 1) + v % 2 ^ (hi + 1 - lo) * 2 ^ lo + n % 2 ^ lo
        = n % 2 ^ lo + 2 ^ (h + 1) * (n / 2 ^ (hi + 1) * 2 ^ (hi - h) + v % 2 ^ (hi + 1 - lo) * 2 ^ (lo - (h + 1))) := by
      have a1 : n / 2 ^ (hi + 1) * 2 ^ (hi + 1) = 2 ^ (h + 1) * (n / 2 ^ (hi + 1) * 2 ^ (hi - h)) := by
        rw [d1]; ac_rfl
      have a2 : v % 2 ^ (hi + 1 - lo) * 2 ^ lo = 2 ^ (h + 1) * (v % 2 ^ (hi + 1 - lo) * 2 ^ (lo - (h + 1))) := by
        rw [d2]; ac_rfl
      rw [Nat.mul_add, ← a1, ← a2]; omega
    rw [this, Nat.add_mul_mod_self_left, d2, Nat.mod_mul_right_mod]
  · unfold bits
    have : h + 1 - l = 0 := by omega
    rw [this, Nat.pow_zero, Nat.mod_one, Nat.mod_one]

/-- The field of a word that was set. -/
theorem fld_setFld_same (w : Word) (hi lo v : Nat) (hl : lo ≤ hi) (hw : hi < 64) :
    fld (setFld w hi lo v) hi lo = v % 2 ^ (hi + 1 - lo) := by
  unfold fld setFld
  rw [BitVec.toNat_ofNat, Nat.mod_eq_of_lt (setBits_lt _ _ _ _ 64 w.isLt hl hw), bits_setBits_same _ _ _ _ hl]

/-- Another field of a word. -/
theorem fld_setFld_other (w : Word) (hi lo v h l : Nat) (hl : lo ≤ hi) (hw : hi < 64) (hd : h < lo ∨ hi < l) :
    fld (setFld w hi lo v) h l = fld w h l := by
  unfold fld setFld
  rw [BitVec.toNat_ofNat, Nat.mod_eq_of_lt (setBits_lt _ _ _ _ 64 w.isLt hl hw)]
  rcases hd with hd | hd
  · exact bits_setBits_below _ _ _ _ _ _ hl hd
  · exact bits_setBits_above _ _ _ _ _ _ hl hd

/-! ### Live registers -/

theorem Dev.lv_setLv_same (s : Dev) (a hi lo v : Nat) (hl : lo ≤ hi) (hw : hi < 64) :
    (s.setLv a hi lo v).lv a hi lo = v % 2 ^ (hi + 1 - lo) := by
  unfold Dev.lv Dev.setLv
  dsimp only
  rw [RegFile.get_set_same, fld_setFld_same _ _ _ _ hl hw]

/-- Another field of the same register. -/
theorem Dev.lv_setLv_field (s : Dev) (a hi lo v h l : Nat) (hl : lo ≤ hi) (hw : hi < 64) (hd : h < lo ∨ hi < l) :
    (s.setLv a hi lo v).lv a h l = s.lv a h l := by
  unfold Dev.lv Dev.setLv
  dsimp only
  rw [RegFile.get_set_same, fld_setFld_other _ _ _ _ _ _ hl hw hd]

/-- Another register. -/
theorem Dev.lv_setLv_other (s : Dev) (a hi lo v b h l : Nat) (hb : b ≠ a) : (s.setLv a hi lo v).lv b h l = s.lv b h l := by
  unfold Dev.lv Dev.setLv
  dsimp only
  rw [RegFile.get_set_other _ _ _ _ hb]

theorem Dev.lv_putLv_same (s : Dev) (a v h l : Nat) : (s.putLv a v).lv a h l = fld (BitVec.ofNat 64 v) h l := by
  unfold Dev.lv Dev.putLv
  dsimp only
  rw [RegFile.get_set_same]

theorem Dev.lv_putLv_other (s : Dev) (a v b h l : Nat) (hb : b ≠ a) : (s.putLv a v).lv b h l = s.lv b h l := by
  unfold Dev.lv Dev.putLv
  dsimp only
  rw [RegFile.get_set_other _ _ _ _ hb]

/-- A counter counts one, up to its largest value. -/
theorem Dev.lv_count_same (s : Dev) (a : Nat) : (s.count a).lv a 63 0 = min (s.lv a 63 0 + 1) (2 ^ 64 - 1) := by
  unfold Dev.count Dev.addLv
  rw [Dev.lv_setLv_same _ _ _ _ _ (Nat.zero_le _) (by omega)]
  unfold satAdd
  apply Nat.mod_eq_of_lt
  have : 0 < (2 : Nat) ^ (63 + 1 - 0) := Nat.two_pow_pos _
  omega

theorem Dev.lv_count_other (s : Dev) (a b h l : Nat) (hb : b ≠ a) : (s.count a).lv b h l = s.lv b h l :=
  Dev.lv_setLv_other _ _ _ _ _ _ _ _ hb

end Sys2Proof.Machine
end

