-- ==== Sys2Proof/Laws/Run.lean ====
section
/-! SUPPORT. What every command does: `exec` is `run` of an effect, `run` answers a next state, leaves the queue alone and
drives the signals. Then the frame predicates of Safety.lean for a settled state. -/

namespace Sys2Proof.Machine

/-! ### `run` and `settle` -/

theorem run_next (f : Dev → Dev) (s : State) : run f s = .next { s with toDev := settle (f s.toDev) } := rfl

theorem settle_sig (s : Dev) : (settle s).sig = s.signalsNow := by
  unfold settle
  dsimp only

theorem with_sent_sig_signalsNow (s : Dev) (l : List Emit) (g : Signals) :
    ({ s with sent := l, sig := g } : Dev).signalsNow = s.signalsNow := rfl

theorem settle_signalsNow (s : Dev) : (settle s).signalsNow = s.signalsNow := by
  obtain ⟨l, e⟩ := settle_eq s
  rw [e]
  exact with_sent_sig_signalsNow _ _ _

/-- A settled state drives its signals. -/
theorem settle_driven (s : Dev) : (settle s).driven := by
  unfold Dev.driven
  rw [settle_sig, settle_signalsNow]

/-- What `settle` appends to the trace. -/
theorem settle_sent (s : Dev) :
    (settle s).sent = s.sent ++ (if s.signalsNow.health &&& ~~~s.sig.health ≠ 0 then [Emit.ibi s.signalsNow.health] else []) := by
  unfold settle Dev.emit
  dsimp only
  split <;> simp

/-- Every command is `run` of its effect. -/
theorem exec_run (c : Instr) : ∃ f : Dev → Dev, ∀ s, exec c s = run f s := by
  cases c <;> exact ⟨_, fun _ => rfl⟩

/-! ### Frames of a settled state -/

theorem sends_settle (l : List Emit) (s : State) (d : Dev) (hs : d.sent = s.sent ++ l) (hg : d.sig = s.sig) :
    sends l s { s with toDev := settle d } := by
  refine ⟨settle_driven d, ?_⟩
  show (settle d).sent = _
  rw [settle_sent, hs, hg]
  unfold risen
  dsimp only
  rw [settle_sig]

/-- Only live registers change, and the signals follow them. -/
theorem onlyRegs_settle (as : List Nat) (l : List Emit) (s : State) (d : Dev)
    (hd : d = { s.toDev with live := d.live, sent := d.sent }) (hs : d.sent = s.sent ++ l)
    (hr : ∀ a, a ∉ as → RegFile.get d.live a = RegFile.get s.live a) :
    onlyRegs as l s { s with toDev := settle d } := by
  have hg : d.sig = s.sig := by rw [hd]
  refine ⟨?_, ?_, sends_settle l s d hs hg⟩
  · obtain ⟨m, e⟩ := settle_eq d
    dsimp only
    rw [e]
    dsimp only
    rw [hd]
  · intro a ha
    dsimp only
    rw [settle_live]
    exact hr a ha

theorem unchanged_settle (s : State) : unchanged s { s with toDev := settle s.toDev } := by
  refine ⟨?_, sends_settle [] s s.toDev (by simp) rfl⟩
  obtain ⟨m, e⟩ := settle_eq s.toDev
  dsimp only
  rw [e]

theorem settle_lv (s : Dev) (a h l : Nat) : (settle s).lv a h l = s.lv a h l := by
  unfold Dev.lv
  rw [settle_live]

theorem Dev.get_setLv_other (s : Dev) (a hi lo v b : Nat) (hb : b ≠ a) :
    RegFile.get (s.setLv a hi lo v).live b = RegFile.get s.live b := by
  unfold Dev.setLv
  dsimp only
  exact RegFile.get_set_other _ _ _ _ hb

theorem Dev.get_putLv_other (s : Dev) (a v b : Nat) (hb : b ≠ a) :
    RegFile.get (s.putLv a v).live b = RegFile.get s.live b := by
  unfold Dev.putLv
  dsimp only
  exact RegFile.get_set_other _ _ _ _ hb

theorem Dev.get_count_other (s : Dev) (a b : Nat) (hb : b ≠ a) :
    RegFile.get (s.count a).live b = RegFile.get s.live b := Dev.get_setLv_other _ _ _ _ _ _ hb

/-- A command that sets one field. -/
theorem setsField_settle (a hi lo v : Nat) (s : State) (hl : lo ≤ hi) (hw : hi < 64) (hv : v < 2 ^ (hi + 1 - lo)) :
    setsField a hi lo v s { s with toDev := settle (s.setLv a hi lo v) } := by
  refine ⟨onlyRegs_settle [a] [] s _ (by unfold Dev.setLv; rfl) (by simp [Dev.setLv]) ?_, ?_, ?_⟩
  · intro b hb
    exact Dev.get_setLv_other _ _ _ _ _ _ (by simpa using hb)
  · intro h l hd
    show (settle _).lv a h l = _
    rw [settle_lv]
    exact Dev.lv_setLv_field _ _ _ _ _ _ _ hl hw hd
  · show (settle _).lv a hi lo = _
    rw [settle_lv, Dev.lv_setLv_same _ _ _ _ _ hl hw]
    exact Nat.mod_eq_of_lt hv

end Sys2Proof.Machine
end

