-- ==== Sys2Proof/WellFormed.lean ====
section
/-! DEFINITION. Well-formed commands: what the operands of a command must be for it to stand for one of the manual's events.
`exec` is total on the others as well. -/

namespace Sys2Proof

open Sys2Proof.Machine

/-- The packet has the bytes it claims: a payload that LENGTH can name (R213) and the trailer of a result only (R218). -/
def Packet.wf (p : Packet) : Bool :=
  decide (p.payload.length < 2 ^ 14) && p.trailer.length == if p.hasTrailer then 8 else 0

/-- A slot of a long word: one to eight slots are present (R554). -/
def SlotCtx.wf (sc : SlotCtx) : Bool := decide (1 ≤ sc.slots.val)

/-- What a port is handed: a flit of 256 bytes (R194), or codewords of 560 symbols, at most one for each of eight lanes (R178). -/
def Wire.wf : Wire → Bool
  | .flit f _ => f.length == 256
  | .words ws _ => decide (ws.length ≤ 8) && ws.all (·.length == 560)

/-- Well-formed: flits of 256 bytes (R194) carrying 244 (R197), a codeword counter for at most eight lanes (R179), eight credit counts (R208),
frames with both addresses and an Ethertype, SPI data of at most 256 bytes (R778), one reading for every sensor and rail (R803), and
a scrub read of each of a cluster's eight working SRAMs (R664). -/
def Instr.wf : Instr → Bool
  | .flitReceive _ w => w.wf
  | .lockAcquired l => decide (l.counters.length ≤ 8)
  | .retrainDone l => decide (l.counters.length ≤ 8)
  | .creditAll _ counts => counts.length == 8
  | .packetForward _ pkt => pkt.wf
  | .memReadReq _ pkt _ => pkt.wf
  | .memReadResp _ pkt => pkt.wf
  | .memWrite _ pkt => pkt.wf
  | .memWriteAcked _ pkt => pkt.wf
  | .memStatus _ pkt => pkt.wf
  | .doorbell _ pkt => pkt.wf
  | .completion _ pkt => pkt.wf
  | .contribution _ _ pkt => pkt.wf
  | .contributionFlit _ _ bytes => decide (bytes.length ≤ 244)
  | .collPartial _ pkt => pkt.wf
  | .collResult _ pkt => pkt.wf
  | .collAck _ pkt => pkt.wf
  | .faultSummary _ pkt => pkt.wf
  | .tableReq _ pkt _ => pkt.wf
  | .tableResp _ pkt => pkt.wf
  | .dispatchRows _ pkt => pkt.wf
  | .combineRows _ pkt => pkt.wf
  | .mgmt _ pkt => pkt.wf
  | .ethFrame _ pkt => pkt.wf
  | .ethFrameRx _ frame _ => decide (14 ≤ frame.length)
  | .slotReservedOp sc _ _ _ => sc.wf
  | .cset sc _ => sc.wf
  | .csethi sc _ => sc.wf
  | .cadd sc _ => sc.wf
  | .caddi sc _ => sc.wf
  | .cmuli sc _ => sc.wf
  | .cshl sc _ => sc.wf
  | .cshr sc _ => sc.wf
  | .cmpset sc _ => sc.wf
  | .cmprun sc _ => sc.wf
  | .setvl sc _ => sc.wf
  | .jmp sc _ => sc.wf
  | .jmpc sc _ => sc.wf
  | .waitobj sc _ => sc.wf
  | .waitbeat sc _ => sc.wf
  | .waitcnt sc _ => sc.wf
  | .signal sc _ => sc.wf
  | .launch sc _ => sc.wf
  | .desc sc _ => sc.wf
  | .sync sc _ => sc.wf
  | .halt sc _ => sc.wf
  | .cqhead sc _ => sc.wf
  | .vld sc _ => sc.wf
  | .vst sc _ => sc.wf
  | .ldc sc _ => sc.wf
  | .stc sc _ => sc.wf
  | .copy sc _ _ => sc.wf
  | .coll sc _ => sc.wf
  | .vadd sc _ _ => sc.wf
  | .vmul sc _ _ => sc.wf
  | .vfma sc _ _ => sc.wf
  | .vmin sc _ _ => sc.wf
  | .vmax sc _ _ => sc.wf
  | .vcmp sc _ _ => sc.wf
  | .vsel sc _ _ => sc.wf
  | .vred sc _ _ => sc.wf
  | .rsum sc _ _ => sc.wf
  | .rmin sc _ _ => sc.wf
  | .rmax sc _ _ => sc.wf
  | .rand sc _ _ => sc.wf
  | .ror sc _ _ => sc.wf
  | .rxor sc _ _ => sc.wf
  | .rargmin sc _ _ => sc.wf
  | .rargmax sc _ _ => sc.wf
  | .mma sc _ => sc.wf
  | .mmac sc _ => sc.wf
  | .mmaf sc _ => sc.wf
  | .mmacf sc _ => sc.wf
  | .senc sc _ => sc.wf
  | .sdec sc _ => sc.wf
  | .sgather sc _ => sc.wf
  | .sscatterAdd sc _ => sc.wf
  | .sort sc _ => sc.wf
  | .merge sc _ => sc.wf
  | .topk sc _ => sc.wf
  | .filter sc _ => sc.wf
  | .rmemScrubRead _ _ ws => ws.length == 8 && (ws.map (·.1)).eraseDups.length == 8
  | .mgmtEthRx _ frame _ => decide (14 ≤ frame.length)
  | .spiCmdDone data => decide (data.length ≤ 256)
  | .throttleWindow m => m.temps.length == 5 && m.mv.length == 12 && m.cur.length == 12
  | .registerWrite _ _ _ _ | .pairLowWrite _ _ _ | .pairHighWrite _ _ _ | .pairWrite64 _ _ _ | .arm _ | .armNow _
  | .cancel | .rollbackArm _ | .rollbackNow _ | .malformedCmd _ | .molt | .holdEnd | .retireRelease
  | .earlyTagExpire _ | .insSignStart | .insSignDone _ | .beatCtrlRoleWrite _ | .loadPulse | .checkPulse
  | .beatRefLoss | .beatRefReturn | .timeReqSend | .timeReq _ _ _ _ | .timeResp _ _ | .holdoverExpire
  | .alarmArm _ _ _ | .alarmDisarm _ _ | .alarmFire _ _ | .snapshotWriteDone _ | .beatLaunch _ | .release _ _ _ _
  | .beatRelease _ _ | .signalDetect _ | .trainDone _ | .trainTimeout _ _ | .param _ _
  | .mismatchRetry _ | .laneSignalLoss _ _ | .laneErrWindow _ _ | .width _ _ _ _
  | .lnkGroupReset _ _ | .replay _ _ | .contributionConfirm _ _ | .contributionFail _ _ | .roundingDone _
  | .retainExpire _ | .resendTimeout _ _ | .contextTimeout _ | .colGrpReset _ _ | .resetGuardEnd _
  | .tableGatherRead _ _ _ | .pfcFrameRx _ _ _ | .pfcPauseSend _ _ | .adpWrStart _ _ _ | .adpRetry _ _ _ | .adpCompletionWrite _ _
  | .packetSelect _ | .ageDrop _ _ | .escapeMove _ _ | .shaperTick | .flushEnd _ | .d2dPathMove _ _ | .d2dLinkUp _ _
  | .d2dLinkTimeout _ _ | .telWindowEnd | .telBlockWriteDone _ _ | .telRingConfigWrite _ _ _ | .congMapClose
  | .blockReturn _ _ _ _ | .creditGrant _ _ | .parkedOffer _ | .retainRetry _ | .spillPass _ | .laneSteal _ _
  | .segmentDone _ _ | .threadStart _ _ | .threadStop _ | .threadPendingRun _ | .wordSkip _ _ | .wordEmpty _ _
  | .wordMalformed _ _ | .waitTimeout _ | .syncPublish _ | .tileFeedSend _ | .asyncComplete _ _ | .cqEntryWrite _
  | .coreCtrlReset _ _ | .hbmScrubRead _ _ _ | .hbmErrWindow _ _ | .hbmGroupClearDone _ _ | .hbmTrainDone _ _
  | .hbmInitDone _ | .faultReport _ _ _ _ _ _ _ | .peerSilence _ | .noticeSend _ _ | .noticeWindowClose _ _
  | .summarySend | .quietEnd _ _ | .unitCheckDone _ _ _ | .recoveryDecay _ _ | .fltClearClear _ _
  | .fltClearFence _ _ | .fltClearForget _ _ | .fltClearReserved _ _ _ | .injectArm _ _ | .injectFire _ | .hartRun _
  | .hartCpEccError _ _ | .llcCarWrite | .mgmtTx _ | .mgmtEthPauseRx _ _ | .mgmtEthTx _ _ | .spiCmd _
  | .uartTxWrite _ | .uartRxByte _ | .uartDataRead | .i3cIndexWrite _ | .i3cRead _ | .resetReq _ | .i3cDynAddr _
  | .extest _ | .samplePreload _ | .idcode | .regAccess _ | .coreDebug _ | .bypass _ | .wdogKick _ | .wdogExpire _
  | .verify _ | .extend _ | .quote | .bootDone | .advanceSvn | .revokeKey | .advanceLifecycle | .fuseProgram _
  | .secCmdReserved _ | .secCmdDone | .newChallenge | .submit | .relock | .railStep _ | .railFault _ | .thermtrip _ _
  | .powerOnReset | .powerOnResetRelease _ | .warmResetN | .pwrResetCtrlWrite _ | .remoteRetry _ _
  | .mgmtEthLinkChange _ _ | .uartTxByte | .pfcPauseExpire _ _ | .mgmtEthPauseExpire _ | .hbmTempReport _ _ => true

end Sys2Proof
end

