-- ==== Sys2Proof/Tests/Slice0.lean ====
section
/-! SUPPORT. The model's own tests: an ill-formed command for each check of WellFormed, and for the statements of
Certificates/Slice0 states and operands that meet their hypotheses, each with a result of one command that the manual gives. -/

namespace Sys2Proof.Tests

set_option Elab.async false

open Sys2Proof Sys2Proof.Machine

/-! ### Small states -/

/-- Live register fields set: address, high bit, low bit, value. -/
def lvs (l : List (Nat × Nat × Nat × Nat)) (s : State) : State :=
  { s with toDev := l.foldl (fun t x => t.setLv x.1 x.2.1 x.2.2.1 x.2.2.2) s.toDev }

/-- Fields of the active instar set. -/
def cfgs (l : List (Nat × Nat × Nat × Nat)) (s : State) : State :=
  { s with active := l.foldl (fun f x => RegFile.set f x.1 (setFld (RegFile.get f x.1) x.2.1 x.2.2.1 x.2.2.2)) s.active }

/-- Out of reset. -/
def up : State := { State.reset with pwr := { State.reset.pwr with porLow := false } }

/-- The state a command leads to. -/
def does (c : Instr) (s : State) : State := after s (exec c s)

/-- Port `p`, 0 or 1, its logical number too, in a mode and a state of its bring-up. -/
def portAt (p mode st : Nat) (s : State) : State :=
  lvs [(lnkPg (p / 8) + 0x100, 4 * (p % 8) + 3, 4 * (p % 8), st)]
    (cfgs [(lnkPg (p / 8) + 0x1010 + 8 * (p % 8), 3, 0, mode)] s)

/-- A port that is UP, its peer reached by the tables. -/
def liveAt (p mode : Nat) (s : State) : State := lvs [(fwdAddr 0, 1 + 2 * p, 2 * p, 1)] (portAt p mode 5 s)

/-- A packet without an extension. -/
def pk (pt : BitVec 5) (vc : Nat) (dst src : Nat) (payload : List Byte) : Packet := mkPkt pt dst src 0 0 0 vc payload

/-- What a flit sent carries. -/
def Emit.body : Emit → Option FlitBody
  | .flit _ _ b => some b
  | _ => none

/-- A slot of thread 0 that is alone in its word, its guard P0. -/
def sc0 : SlotCtx := { thread := 0, pred := 0, neg := false, slots := 1, last := true }

/-- The unit of the instar block. -/
def blockOfIns : BitVec 32 := blockUnit 4 0x01 0
/-- Die 0's collector holds entries and fenced units. -/
def collected (l : List (Nat × FEntry)) (fenced : List (BitVec 32)) (s : State) : State :=
  { s with collectors := { Collector.reset with entries := l, fenced := fenced } :: List.replicate 3 Collector.reset }
def fEntry (u : BitVec 32) (st : Nat) : FEntry :=
  { unit := u, reporter := u, first := 0, last := 0, count := 1, state := st, cls := 1, injected := false, recov := 1, firstBit := 0, lastTick := 0, quietFrom := some 0,
    checking := none, decayFrom := 0, window := some (0, false, false), slotTick := 0 }

/-! ### Well-formed commands -/

def readReq : Packet := pk ptMemReadReq 0 0x80000000000 5 (readLen 64)

/-- A packet whose trailer is not the 8 bytes of a result, and one with too long a payload. -/
def badTrailer : Packet := { readReq with trailer := [0] }

theorem test_wf_flit : Instr.wf (.flitReceive 0 (.flit (List.replicate 256 0) 0)) = true ∧ Instr.wf (.flitReceive 0 (.flit [0, 1] 0)) = false := by decide +kernel
theorem test_wf_codewords : Instr.wf (.flitReceive 0 (.words [List.replicate 560 0] 0)) = true ∧ Instr.wf (.flitReceive 0 (.words [[0]] 0)) = false ∧
    Instr.wf (.flitReceive 0 (.words (List.replicate 9 (List.replicate 560 0)) 0)) = false := by decide +kernel
theorem test_wf_credit_all : Instr.wf (.creditAll 0 (List.replicate 8 0)) = true ∧ Instr.wf (.creditAll 0 [0]) = false := by decide
theorem test_wf_packet :
    Instr.wf (.memReadReq 0 readReq .clean) = true ∧
    [Instr.packetForward 0 badTrailer, .memReadReq 0 badTrailer .clean, .memReadResp 0 badTrailer, .memWrite 0 badTrailer,
     .memWriteAcked 0 badTrailer, .memStatus 0 badTrailer, .doorbell 0 badTrailer, .completion 0 badTrailer, .contribution 0 0 badTrailer,
     .collPartial 0 badTrailer, .collResult 0 badTrailer, .collAck 0 badTrailer, .faultSummary 0 badTrailer, .tableReq 0 badTrailer .clean,
     .tableResp 0 badTrailer, .dispatchRows 0 badTrailer, .combineRows 0 badTrailer, .mgmt 0 badTrailer, .ethFrame 0 badTrailer].all
       (fun c => c.wf == false) = true := by decide
theorem test_wf_payload : Packet.wf { readReq with payload := List.replicate 16384 0 } = false := by decide +kernel
theorem test_wf_contribution_flit :
    Instr.wf (.contributionFlit 0 0 (List.replicate 244 0)) = true ∧ Instr.wf (.contributionFlit 0 0 (List.replicate 245 0)) = false := by decide +kernel
theorem test_wf_frames :
    Instr.wf (.ethFrameRx 0 (List.replicate 13 0) true) = false ∧ Instr.wf (.mgmtEthRx 0 (List.replicate 13 0) true) = false ∧
    Instr.wf (.mgmtEthRx 0 (List.replicate 14 0) true) = true := by decide
theorem test_wf_counters : Instr.wf (.lockAcquired ⟨0, (List.replicate 8 0)⟩) = true ∧ Instr.wf (.lockAcquired ⟨0, (List.replicate 9 0)⟩) = false ∧
    Instr.wf (.retrainDone ⟨0, (List.replicate 8 0)⟩) = true ∧ Instr.wf (.retrainDone ⟨0, (List.replicate 9 0)⟩) = false := by decide
theorem test_wf_slot : Instr.wf (.cset sc0 0) = true ∧
    [Instr.slotReservedOp { sc0 with slots := 0 } .control 0 0, .halt { sc0 with slots := 0 } 0, .copy { sc0 with slots := 0 } 0 .clean,
     .vadd { sc0 with slots := 0 } false 0, .rsum { sc0 with slots := 0 } false 0, .filter { sc0 with slots := 0 } 0].all
      (fun c => c.wf == false) = true := by decide
theorem test_wf_scrub : Instr.wf (.rmemScrubRead 0 .clean ((List.range 8).map fun i => (Fin.ofNat 8 i, .clean))) = true ∧
    Instr.wf (.rmemScrubRead 0 .clean (List.replicate 8 (0, .clean))) = false ∧ Instr.wf (.rmemScrubRead 0 .clean []) = false := by decide
theorem test_wf_spi : Instr.wf (.spiCmdDone (List.replicate 256 0)) = true ∧ Instr.wf (.spiCmdDone (List.replicate 257 0)) = false := by decide +kernel

/-- Readings of a window: the same temperature on every die. -/
def window (watts : Nat) (t : Byte) : PowerWindow :=
  { watts := BitVec.ofNat 16 watts, temps := List.replicate 5 (some t), mv := List.replicate 12 0, cur := List.replicate 12 0 }

theorem test_wf_power : Instr.wf (.throttleWindow (window 0 0)) = true ∧ Instr.wf (.throttleWindow { window 0 0 with temps := [] }) = false ∧
    Instr.wf (.throttleWindow { window 0 0 with mv := [] }) = false ∧ Instr.wf (.throttleWindow { window 0 0 with cur := [] }) = false := by decide

/-! ### Step -/

theorem test_step_runs_front : (after up (step { up with pending := [.uartTxWrite 7, .uartTxByte] })).ctl.txFifo = [7] ∧
    (after up (step { up with pending := [.uartTxWrite 7, .uartTxByte] })).pending = [.uartTxByte] := by decide
theorem test_step_idle_in_reset : State.reset.pending = [] ∧ State.reset.pwr.porLow = true ∧ (after up (step State.reset)).ticks = 0 := by decide
theorem test_step_ends_beat : up.pending = [] ∧ up.pwr.porLow = false ∧ (after up (step up)).beat = 1 ∧ (after up (step up)).ticks = 1 := by decide
theorem test_reset_driven : State.reset.sig = State.reset.signalsNow := by decide
theorem test_step_keeps_driven : ok (step State.reset) = true ∧ (after up (step State.reset)).sig = (after up (step State.reset)).signalsNow := by decide
theorem test_reset_registers : State.reset.insState = 0 ∧ State.reset.number = 0 ∧ State.reset.bState = bsFree := by decide

/-! ### Molts -/

/-- Aligned at beat 5000. -/
def alignedAt : State := { lvs [(beatPg 0 + 0x108, 3, 0, 10)] up with beat := 5000, ticks := 5000 }
def withPrev (s : State) : State := { s with previous := some { number := 0, content := [] } }
def moltBeat (b : Nat) (s : State) : State := lvs [(insPg + 0x110, 63, 0, b)] s

theorem test_aligned : alignedAt.aligned = true ∧ alignedAt.bState = bsAligned ∧ alignedAt.fatal = false ∧ alignedAt.number = 0 := by decide
theorem test_arm : (moltBeat 6024 alignedAt).insState = 0 ∧ (does (.arm true) (moltBeat 6024 alignedAt)).insState = 1 ∧
    (does (.arm true) (moltBeat 6024 alignedAt)).molt = some { beat := 6024, drained := true, rollback := false, timed := true } := by decide
theorem test_arm_late : (moltBeat 6023 alignedAt).insState = 0 ∧ (does (.arm true) (moltBeat 6023 alignedAt)).lv (insPg + 0x108) 15 8 = 5 := by decide
theorem test_arm_not_aligned : up.aligned = false ∧ (does (.arm true) up).lv (insPg + 0x108) 15 8 = 6 := by decide
theorem test_arm_now : (does (.armNow false) up).molt = some { beat := 1024, drained := false, rollback := false, timed := false } := by decide
theorem test_arm_refused_fatal : (does (.armNow false) { up with fatal := true }).lv (insPg + 0x108) 15 8 = 0x0B := by decide
theorem test_arm_refused_busy : (lvs [(insPg + 0x108, 2, 0, 2)] up).insState = 2 ∧
    (does (.armNow false) (lvs [(insPg + 0x108, 2, 0, 2)] up)).lv (insPg + 0x108) 15 8 = 8 := by decide
theorem test_arm_refused_wrapped : (does (.armNow false) { up with number := 0xFFFFFFFF }).lv (insPg + 0x108) 15 8 = 9 := by decide
theorem test_rollback_arm : (withPrev (moltBeat 6024 alignedAt)).previous.isSome = true ∧
    (does (.rollbackArm false) (withPrev (moltBeat 6024 alignedAt))).insState = 1 := by decide
theorem test_rollback_now : (does (.rollbackNow false) (withPrev up)).insState = 1 ∧ (does (.rollbackNow false) up).lv (insPg + 0x108) 15 8 = 7 := by decide
theorem test_malformed_cmd : (does (.malformedCmd true) up).lv (insPg + 0x108) 15 8 = 0x0A := by decide

/-- A molt is armed for beat 10. -/
def armedFor (rollback : Bool) (b : Nat) : State :=
  { lvs [(insPg + 0x108, 2, 0, 1)] (withPrev up) with molt := some { beat := 10, drained := false, rollback := rollback, timed := false },
                                                      beat := BitVec.ofNat 64 b, staged := [(insPg + 0x1000, 5)] }

theorem test_cancel : (armedFor false 5).insState = 1 ∧ (does .cancel (armedFor false 5)).insState = 0 ∧
    (does .cancel (armedFor false 5)).lv (insPg + 0x108) 15 8 = 4 ∧ up.insState ≠ 1 ∧ (does .cancel up).insState = 0 := by decide
theorem test_molt : (armedFor false 10).molt.isSome = true ∧ (does .molt (armedFor false 9)).number = 0 ∧
    (does .molt (armedFor true 9)).molt.isSome = true ∧ (step { armedFor true 10 with pending := [.molt] } = exec .molt (armedFor true 10)) :=
  ⟨by decide, by decide, by decide, rfl⟩

/-- A retiring instar until tick 100. -/
def retiringIn (st ticks : Nat) : State :=
  { lvs [(insPg + 0x108, 2, 0, st)] up with retiring := some ({ number := 0, content := [] }, 100), ticks := ticks }

theorem test_retire_release : (retiringIn 3 100).insState = 3 ∧ (does .retireRelease (retiringIn 3 100)).retiring = none ∧
    (does .retireRelease (retiringIn 3 100)).insState = 0 ∧ (does .retireRelease (retiringIn 3 99)).retiring.isSome = true ∧
    (does .retireRelease (retiringIn 2 100)).retiring.isSome = true := by decide
theorem test_hold_end : (retiringIn 2 0).insState = 2 ∧ (retiringIn 2 0).inflightOld = 0 ∧ (does .holdEnd (retiringIn 2 0)).insState ≠ 2 ∧
    (does .holdEnd (retiringIn 3 0)).insState = 3 := by decide +kernel
theorem test_sign_start : up.signState ≠ 1 ∧ (does .insSignStart up).signState = 1 := by decide +kernel
def signing : State := { lvs [(insPg + 0x298, 1, 0, 1)] up with sec := { up.sec with signMsg := some [1], jobs := [(0, .sign)] } }
theorem test_sign_done : signing.signState = 1 ∧ (does .insSignStart signing).sec.signMsg = some [1] ∧
    (does (.insSignDone false) signing).signState = 3 := by decide
/-- The engine serves a token, or a command, before the signature. -/
def queuedFor (j : SecJob) : State := { up with sec := { up.sec with jobs := [(0, j)] } }
theorem test_sign_waits : (does .insSignStart (queuedFor .command)).sec.jobs = [(0, .sign), (0, .command)] ∧ signing.jobNow = some .sign ∧
    (queuedFor .command).jobNow ≠ some .sign ∧ (does (.insSignDone true) { queuedFor .command with sec := { (queuedFor .command).sec with signMsg := some [1] } }).sec.signMsg = some [1] := by
  decide +kernel

/-! ### Fabric time -/

/-- BEAT_STATUS.STATE `st` with ALIGNED `al`, and a role. -/
def timeAt (st al role : Nat) (s : State) : State := lvs [(beatPg 0 + 0x108, 2, 0, st), (beatPg 0 + 0x108, 3, 3, al), (beatPg 0 + 0x110, 1, 0, role)] s
def lost (s : State) : State := { s with time := { s.time with refLost := true } }

theorem test_time_states : (timeAt 2 1 1 up).bState = bsAligned ∧ (timeAt 2 1 1 up).aligned = true ∧ (timeAt 1 0 2 up).bState = bsAcquiring ∧
    (timeAt 1 0 2 up).role = 2 ∧ (timeAt 3 1 3 up).bState = bsHoldover ∧ (timeAt 4 0 2 up).bState = bsLost := by decide
theorem test_role_reference : (does (.beatCtrlRoleWrite 1) up).bState = bsAligned ∧ (does (.beatCtrlRoleWrite 1) up).aligned = true ∧ up.time.refLost = false := by decide
theorem test_role_acquiring : up.aligned = false ∧ (does (.beatCtrlRoleWrite 0x11) up).bState = bsAcquiring ∧ (does (.beatCtrlRoleWrite 3) up).bState = bsAcquiring ∧
    (does (.beatCtrlRoleWrite 0) up).bState = bsFree := by decide
theorem test_role_changed : (timeAt 2 1 1 up).aligned = true ∧ (does (.beatCtrlRoleWrite 2) (timeAt 2 1 1 up)).lv bsAddr 19 16 = 9 ∧
    (does (.beatCtrlRoleWrite 0) (timeAt 2 1 1 up)).lv bsAddr 19 16 = 9 := by decide +kernel
theorem test_role_lost : (does (.beatCtrlRoleWrite 2) (lost up)).bState = bsLost ∧ (does (.beatCtrlRoleWrite 2) (lost up)).lv bsAddr 19 16 = 7 := by decide +kernel

def loading (count load : Nat) : State := { lvs [(beatPg 0 + 0x118, 63, 0, load)] (timeAt 1 0 2 up) with beat := BitVec.ofNat 64 count }
theorem test_load_pulse : (loading 70 70).pinRole = true ∧ (loading 70 70).bState = bsAcquiring ∧ (does .loadPulse (loading 70 70)).bState = bsAligned ∧
    (does .loadPulse (loading 70 90)).beat = 90 ∧ (does .loadPulse (loading 70 90)).aligned = true := by decide +kernel
theorem test_load_pulse_none : (does .loadPulse (timeAt 1 0 3 up)).bState = bsAcquiring ∧ (does .loadPulse (lost (loading 70 70))).bState = bsAcquiring ∧
    (does .loadPulse (lvs [(insPg + 0x108, 2, 0, 1)] (loading 70 90))).beat = 70 ∧ (does .loadPulse (timeAt 2 1 2 up)).bState = bsAligned := by decide

/-- Aligned by pins, the check period 2^10 beats. -/
def checking (b : Nat) : State := { lvs [(beatPg 0 + 0x120, 5, 0, 10)] (timeAt 2 1 2 up) with beat := BitVec.ofNat 64 b }
theorem test_check_pulse : (checking 1026).syncPeriod = 10 ∧ (checking 1026).pinRole = true ∧ (does .checkPulse (checking 1026)).bState = bsAcquiring ∧
    (does .checkPulse (checking 1026)).lv bsAddr 19 16 = 6 := by decide +kernel
theorem test_check_pulse_near : (does .checkPulse (checking 1025)).bState = bsAligned ∧ (does .checkPulse (checking 1023)).bState = bsAligned ∧
    (does .checkPulse (checking 1024)).bState = bsAligned ∧ (does .checkPulse (timeAt 1 0 2 up)).bState = bsAcquiring := by decide

def limited (s : State) : State := { lvs [(beatPg 0 + 0x140, 31, 0, 50)] s with ticks := 1000 }
theorem test_ref_loss : (does .beatRefLoss (limited (timeAt 2 1 1 up))).bState = bsHoldover ∧
    (does .beatRefLoss (limited (timeAt 2 1 1 up))).time.holdoverEnd = some 1050 := by decide +kernel
theorem test_ref_loss_acquiring : (does .beatRefLoss (timeAt 1 0 2 up)).bState = bsLost ∧ (does .beatRefLoss (timeAt 1 0 2 up)).lv bsAddr 19 16 = 7 ∧
    (does .beatRefLoss up).time.refLost = true ∧ (does .beatRefLoss up).bState = bsFree ∧ (does .beatRefLoss (lost up)).bState = bsFree := by decide +kernel
theorem test_ref_return : (does .beatRefReturn (lost (timeAt 3 1 2 up))).bState = bsAligned ∧ (does .beatRefReturn (lost (timeAt 4 0 2 up))).bState = bsAcquiring ∧
    (does .beatRefReturn (lost (timeAt 4 0 1 up))).bState = bsAligned ∧ (timeAt 4 0 1 up).loadOnSync = false ∧
    (does .beatRefReturn (lost (timeAt 3 1 3 up))).time.refLost = false := by decide
def holding (ticks : Nat) : State := { timeAt 3 1 2 up with time := { up.time with holdoverEnd := some 50 }, ticks := ticks }
theorem test_holdover_expire : (does .holdoverExpire (holding 50)).bState = bsLost ∧ (does .holdoverExpire (holding 50)).lv bsAddr 19 16 = 8 ∧
    (does .holdoverExpire (holding 49)).bState = bsHoldover ∧ (holding 50).releases = [] ∧ (holding 50).threads = [] := by decide +kernel

/-- A follower whose upstream is the fabric port at place 0, which is ACTIVE. -/
def follower (st al : Nat) : State :=
  { lvs [(beatPg 0 + 0x148, 31, 0, 100), (beatPg 0 + 0x150, 3, 0, 8)] (timeAt st al 3 (portAt 0 1 5 up)) with
    ticks := 1000, beat := 1000 }
def asking (st al : Nat) : State := { follower st al with time := { up.time with t1 := some 256000, good := 15, bad := 1 } }

/-- The answer of an upstream whose count is equal, after a round trip of no time. -/
def answer (al : Bool) : TimeRespMsg := { aligned := al, replayed := false, domain := 0, hops := 0, t2 := 256000, t3 := 256000, t4frac := 0 }

theorem test_time_req_send : (follower 2 1).upPort = some 0 ∧ (follower 2 1).exchUp (some 0) = true ∧ (follower 2 1).exchPeriod = 100 ∧
    (does .timeReqSend (follower 2 1)).time.lastReq = 1000 ∧
    (does .timeReqSend { follower 2 1 with ticks := 99 }).time.lastReq = 0 := by decide +kernel
theorem test_time_req : (does (.timeReq 0 0 false 5) (follower 2 1)).sent.length = 1 ∧ (does (.timeReq 0 0 true 5) (follower 2 1)).sent.length = 0 ∧
    (does (.timeReq 0 0 false 5) (follower 1 0)).sent.map Emit.body = [some (.control [.timeResp false false 0 0 0 0])] := by decide +kernel
theorem test_time_resp : (does (.timeResp 0 (answer true)) (asking 2 1)).time.t1 = none ∧ (does (.timeResp 0 (answer true)) (asking 2 1)).time.bad = 0 ∧
    (does (.timeResp 0 (answer true)) (asking 2 1)).bState = bsAligned ∧ (does (.timeResp 0 (answer true)) (follower 2 1)).lv bsAddr 11 8 = 0 := by decide +kernel
theorem test_time_resp_acquires : (does (.timeResp 0 (answer true)) (asking 1 0)).bState = bsAligned ∧
    (does (.timeResp 0 (answer true)) { asking 1 0 with time := { up.time with t1 := some 256000, good := 14 } }).bState = bsAcquiring := by decide +kernel
theorem test_time_resp_not_aligned : (limited (asking 2 1)).altValid = false ∧ (does (.timeResp 0 (answer false)) (limited (asking 2 1))).bState = bsHoldover ∧
    (does (.timeResp 0 (answer false)) (limited (asking 2 1))).lv bsAddr 19 16 = 2 := by decide +kernel

/-- Alarm 3 of die 0 is to be armed for a beat. -/
def alarmBeat (b : Nat) (s : State) : State := lvs [(beatPg 0 + 0x430, 63, 0, b)] s
def anAlarm : Alarm := { die := 0, n := 3, atBeat := 5032, kind := 1, isLoc := false, target := 0 }

theorem test_alarm_arm : (does (.alarmArm 0 3 0x101) (alarmBeat 5032 alignedAt)).alarms = [anAlarm] ∧
    (does (.alarmArm 0 3 0x101) (alarmBeat 5032 alignedAt)).lv (alarmCtrl 0 3) 1 1 = 1 := by decide +kernel
theorem test_alarm_arm_refused : (does (.alarmArm 0 3 0x101) (alarmBeat 5031 alignedAt)).lv (alarmCtrl 0 3) 15 12 = 2 ∧
    (does (.alarmArm 0 3 0x101) (alarmBeat 5032 up)).lv (alarmCtrl 0 3) 15 12 = 3 ∧
    (does (.alarmArm 0 3 0x501) up).lv (alarmCtrl 0 3) 15 12 = 6 ∧ (does (.alarmArm 0 3 0x111) (alarmBeat 32 up)).alarms.length = 1 ∧
    (does (.alarmArm 0 3 0x001) up).alarms = [] := by decide +kernel
def alarmed (b : Nat) : State := { alignedAt with alarms := [anAlarm], beat := BitVec.ofNat 64 b }
theorem test_alarm_disarm : (does (.alarmDisarm 0 3) (alarmed 5000)).alarms = [] := by decide
theorem test_alarm_fire : (does (.alarmFire 0 3) (alarmed 5032)).lv (ctlPg + 0x260) 3 3 = 1 ∧ (does (.alarmFire 0 3) (alarmed 5032)).lv (alarmCtrl 0 3) 15 12 = 1 ∧
    (does (.alarmFire 0 3) (alarmed 5031)).alarms = [anAlarm] := by decide +kernel
/-- Alarm 3 of die 0 alone is armed for this beat, with a kind and a target. -/
def alarmedKind (kind target : Nat) (s : State) : State := { s with alarms := [{ anAlarm with kind := kind, target := BitVec.ofNat 24 target }], beat := 5032 }
theorem test_alarm_fire_post : ((does (.alarmFire 0 3) (alarmedKind 2 0 (cfgs [(corePg 0 + 0xC000, 63, 0, 2 ^ 63)] alignedAt))).obj 0).1 = 1 := by decide +kernel
theorem test_alarm_fire_snapshot : (does (.alarmFire 0 3) (alarmedKind 3 0 (lvs [(beatPg 0 + 0x180, 43, 0, 5)] alignedAt))).lv (beatPg 0 + 0x188) 1 0 = 3 := by decide +kernel
theorem test_alarm_fire_reset : groupValid (alarmedKind 4 7 alignedAt).active 7 = false ∧ (does (.alarmFire 0 3) (alarmedKind 4 7 alignedAt)).lv (alarmCtrl 0 3) 15 12 = 6 ∧
    ((alarmedKind 4 7 alignedAt).grp 7).resetAt = none := by decide +kernel
def snapping : State := { up with tel := { up.tel with snap := [true, false, false, false] } }
theorem test_snapshot_write_done : (does (.snapshotWriteDone 0) snapping).lv (beatPg 0 + 0x188) 1 0 = 2 ∧ snapping.snapBusy 0 = true ∧
    snapping.snapBusy 1 = false ∧ (does (.snapshotWriteDone 1) snapping).lv (beatPg 1 + 0x188) 1 0 = 0 := by decide
/-- Die 0's snapshot of two pages at 4 KiB is being written. -/
def snapTwo : State := { snapping with tel := { snapping.tel with snapAt := [(0, (4096, 2))] } }
theorem test_snapshot_counted : snapTwo.snapBusy 0 = true ∧ snapTwo.memSt.bad = [] ∧ (does (.snapshotWriteDone 0) snapTwo).mem = snapTwo.mem := by decide +kernel

/-! ### Releases of groups -/

def anEntry : GEntry :=
  { groupId := 7, valid := true, root := false, relBeat := true, slotValid := false, part := 0, slot := 0, weight := 1, salt := 0,
    parentSet := 0, childValid := false, childSet := 0, localBase := 0, localCount := 0, members := 1, rootRank := 0, keyLo := 0, keyHi := 0 }
def anEpoch (n : BitVec 16) : EpochSt :=
  { epoch := n, entry := anEntry, parents := [], children := [], slots := [], cores := [], arith := 0, seed := 0, detLock := false, lost := [], kids := [],
    arrivals := 0, ariths := [], partCores := [], seen := [], told := [] }

/-- Group 7 has epochs 1 and 2 open. -/
def grouped (s : State) : State :=
  { s with groups := [(7, { GroupSt.reset 7 with number := some 1, current := some (anEpoch 1), next := some (anEpoch 2) })] }

def held (b : Nat) : State := { grouped up with releases := [{ group := 7, epoch := 2, beat := 100 }], beat := BitVec.ofNat 64 b }

theorem test_release : (grouped (portAt 0 1 5 alignedAt)).epochOf 7 1 = some (anEpoch 1) ∧ (grouped (portAt 0 1 5 alignedAt)).guarded 7 = false ∧
    (does (.release 0 7 1 5001) (grouped (portAt 0 1 5 alignedAt))).releases = [{ group := 7, epoch := 1, beat := 5001 }] ∧
    ((does (.release 0 7 1 5000) (grouped (portAt 0 1 5 alignedAt))).grp 7).current = some (anEpoch 2) ∧
    (does (.release 0 7 1 5001) (grouped (portAt 0 1 4 alignedAt))).releases = [] := by decide +kernel
theorem test_release_again : (held 99).releaseHeld 7 2 = true ∧ (anEpoch 1).entry.root = false ∧ (anEpoch 1).children = [] ∧
    (does (.release 0 7 1 5001) { grouped (portAt 0 1 5 alignedAt) with releases := [{ group := 7, epoch := 1, beat := 5001 }] }).releases.length = 1 := by decide +kernel
theorem test_release_next : ((grouped (portAt 0 1 5 alignedAt)).grp 7).number = some (2 - 1) ∧
    ((does (.release 0 7 2 5000) (grouped (portAt 0 1 5 alignedAt))).grp 7).relHeld = true ∧ (does (.release 0 7 2 5000) (grouped (portAt 0 1 5 alignedAt))).lv (beatPg 0 + 0x1B0) 63 0 = 0 ∧
    (does (.release 0 7 2 4999) (grouped (portAt 0 1 5 alignedAt))).lv (beatPg 0 + 0x1B0) 63 0 = 1 := by decide +kernel
theorem test_beat_release : (does (.beatRelease 7 2) (held 100)).releases = [] ∧
    (does (.beatRelease 7 2) (held 100)).grp 7 = { (grouped up).grp 7 with relHeld := true } ∧ ((grouped up).grp 7).number = some 1 ∧
    (does (.beatRelease 7 2) (held 99)).releases.length = 1 ∧ (does (.beatRelease 7 2) { held 100 with fatal := true }).releases.length = 1 := by decide +kernel

/-- Epoch 1 is current and not open; epoch 2 is open. -/
def skipped : State :=
  { up with groups := [(7, { GroupSt.reset 7 with number := some 1, next := some (anEpoch 2) })], releases := [{ group := 7, epoch := 1, beat := 0 }] }
theorem test_beat_release_skipped : (skipped.grp 7).current = none ∧ (skipped.grp 7).relHeld = false ∧ skipped.fatal = false ∧
    ((does (.beatRelease 7 1) skipped).grp 7).number = some 2 ∧ ((does (.beatRelease 7 1) skipped).grp 7).current = some (anEpoch 2) := by decide +kernel

/-! ### Links -/

def goodParam : ParamMsg := { role := 0, lossless := 0, prev := 1, node := 9, maxp := 13 }

theorem test_signal_detect : (portAt 0 1 1 up).portState 0 = 1 ∧ ((portAt 0 1 1 up).cleanLanes 0 ((portAt 0 1 1 up).widest 0) fun _ => true).length = 4 ∧ (does (.signalDetect 0) (portAt 0 1 1 up)).portState 0 = 2 ∧
    (does (.signalDetect 0) (portAt 0 1 2 up)).portState 0 = 2 := by decide +kernel
theorem test_train_done : (does (.trainDone 0) (portAt 0 1 2 up)).portState 0 = 3 ∧ (does (.trainDone 0) (portAt 0 1 1 up)).portState 0 = 1 := by decide
theorem test_lock_acquired : (does (.lockAcquired ⟨0, []⟩) (portAt 0 1 3 up)).portState 0 = 4 ∧ (does (.lockAcquired ⟨0, []⟩) (portAt 0 4 3 up)).portState 0 = 5 ∧
    (does (.lockAcquired ⟨0, []⟩) (portAt 0 1 4 up)).portState 0 = 4 := by decide +kernel
/-- A port of four lanes in use. -/
def fourLanes (st : Nat) : State := { portAt 0 1 st up with ports := [(0, { Port.reset with lanes := [0, 1, 2, 3] })] }
theorem test_lock_lanes : ((does (.lockAcquired ⟨0, [7, 5, 0xFFFF, 7]⟩) (fourLanes 3)).port 0).skip = [0, 2, 8, 0] ∧ (does (.lockAcquired ⟨0, [7, 5, 7]⟩) (fourLanes 3)).portState 0 = 3 ∧
    isPorone ((fourLanes 3).portMode 0) = true ∧ isPorone ((portAt 0 4 3 up).portMode 0) = false := by decide +kernel
theorem test_lock_sends : (does (.lockAcquired ⟨0, [0, 0, 0, 0]⟩) (fourLanes 3)).sent.map Emit.body =
    [some (.control [.param ((fourLanes 3).ownParam 0), .creditAll (((does (.lockAcquired ⟨0, [0, 0, 0, 0]⟩) (fourLanes 3)).port 0).ours.map (BitVec.ofNat 20))])] := by decide +kernel
theorem test_param : (portAt 0 1 4 up).portCfg 0 15 8 = 0xCC ∧
    (does (.param 0 { goodParam with lossless := 0xCC }) (portAt 0 1 4 up)).portState 0 = 5 ∧
    (does (.param 0 { goodParam with lossless := 0xCC, prev := 0 }) (portAt 0 1 4 up)).portState 0 = 8 ∧
    (does (.param 0 { goodParam with lossless := 0xCC, maxp := 11 }) (portAt 0 1 4 up)).portState 0 = 8 := by decide +kernel
theorem test_param_other : (does (.param 0 goodParam) (portAt 0 1 5 up)).portState 0 = 5 := by decide
theorem test_mismatch_retry : (does (.mismatchRetry 0) { portAt 0 1 8 up with ticks := 390625 }).portState 0 = 4 ∧
    (does (.mismatchRetry 0) { portAt 0 1 8 up with ticks := 390624 }).portState 0 = 8 := by decide +kernel
theorem test_train_timeout : up.cfg (lnkPg 0 + 0x1050) 31 0 = 195312500 ∧ (does (.trainTimeout 0 0) { portAt 0 1 2 up with ticks := 195312500 }).portState 0 = 1 ∧
    (does (.trainTimeout 0 0) { portAt 0 1 2 up with ticks := 195312499 }).portState 0 = 2 := by decide
theorem test_width : (does (.width 0 false 2 3) (portAt 0 1 5 up)).portState 0 = 6 ∧ ((does (.width 0 false 2 3) (portAt 0 1 5 up)).port 0).newLanes = [0, 1] ∧
    ((does (.width 0 true 4 15) (portAt 0 1 6 up)).port 0).newLanes = [0, 1, 2, 3] ∧ (does (.width 0 false 3 7) (portAt 0 1 5 up)).portState 0 = 5 ∧
    (does (.width 0 false 8 255) (portAt 0 1 5 up)).portState 0 = 5 := by decide +kernel
theorem test_width_both : (portAt 0 1 5 up).cleanLanes 0 (min 4 ((portAt 0 1 5 up).widest 0)) (fun l => bit 15 (l % 4)) = [0, 1, 2, 3] ∧
    ((portAt 0 1 5 up).lanesOf 0).length = 4 ∧ (does (.width 0 false 4 0xE) (portAt 0 1 5 up)).portState 0 = 6 ∧ ((does (.width 0 false 4 0xE) (portAt 0 1 5 up)).port 0).newLanes = [2, 3] ∧
    (does (.width 0 false 4 0xF) (portAt 0 1 5 up)).sent.map Emit.body = [some (.control [.width true 4 0xF])] := by decide +kernel
def sentFlit : SentFlit := { seq := 4, vc := 0, eop := true, body := .data readReq 0 false, die := 0, alloc := 9, mcast := none }
def unackedAt (st : Nat) : State := { portAt 0 1 st up with ports := [(0, { Port.reset with unacked := [sentFlit], newLanes := [0, 1] })] }
theorem test_retrain_done : (does (.retrainDone ⟨0, [0, 0]⟩) (unackedAt 6)).sent.map Emit.body = [some sentFlit.body] ∧
    (does (.retrainDone ⟨0, [0, 0]⟩) (unackedAt 6)).portState 0 = 5 ∧
    (does (.retrainDone ⟨0, [0, 0]⟩) (unackedAt 6)).portWidth 0 = 2 ∧ (does (.retrainDone ⟨0, []⟩) (portAt 0 1 6 up)).portState 0 = 5 ∧
    (does (.retrainDone ⟨0, []⟩) (portAt 0 1 4 up)).portState 0 = 4 := by decide +kernel
theorem test_retrain_counters : (does (.retrainDone ⟨0, [0]⟩) (unackedAt 6)).portState 0 = 6 ∧ ((unackedAt 6).port 0).ctlWait = [] ∧
    ((does (.retrainDone ⟨0, [4, 5]⟩) (unackedAt 6)).port 0).skip = [1, 0] := by decide +kernel
theorem test_lane_signal_loss : (lvs [(lnkPg 0 + 0x108, 7, 0, 255)] up).groupPresent 0 = true ∧
    (does (.laneSignalLoss 0 ⟨2, false⟩) (lvs [(lnkPg 0 + 0x108, 7, 0, 255)] up)).lv (lnkPg 0 + 0x108) 7 0 = 251 := by decide
theorem test_lane_fault : (portAt 0 1 5 up).portState ((portAt 0 1 5 up).portOfLane 0 2) = 5 ∧ (portAt 0 1 5 up).laneFenced 0 2 = false ∧
    (does (.laneSignalLoss 0 ⟨2, false⟩) (portAt 0 1 5 up)).laneFenced 0 2 = true ∧ (does (.laneSignalLoss 0 ⟨2, true⟩) (portAt 0 1 5 up)).laneFenced 0 2 = true := by decide +kernel
theorem test_lane_lock_only : (does (.laneSignalLoss 0 ⟨2, true⟩) (lvs [(lnkPg 0 + 0x108, 7, 0, 255)] up)).lv (lnkPg 0 + 0x108) 7 0 = 255 ∧
    ({ portAt 0 1 5 up with ticks := 2 ^ 20 } : State).windowEnds 0 1 = true ∧ (portAt 0 1 5 up).windowEnds 0 1 = false := by decide +kernel
def smallGrade : State := { up with sec := { up.sec with grade := 3 } }
theorem test_absent_group : smallGrade.groupPresent 63 = false ∧ smallGrade.groupPresent 47 = true ∧
    (does (.laneSignalLoss 63 ⟨0, false⟩) smallGrade).live = [] ∧ (does (.lnkGroupReset 63 true) smallGrade).live = [] := by decide
theorem test_lane_err_window : (does (.laneErrWindow 0 1) { portAt 0 1 5 up with laneErr := [(1, 5), (2, 6)], ticks := 2 ^ 20 }).laneErr = [(2, 6)] ∧
    (does (.laneErrWindow 0 1) { portAt 0 1 5 up with laneErr := [(1, 5), (2, 6)], ticks := 2 ^ 20 - 1 }).laneErr = [(1, 5), (2, 6)] := by decide +kernel
theorem test_lnk_group_minima : natSum ((List.range 1024).map (up.portMin 0)) + natSum ((List.range 16).map (up.partMin 0)) ≤ regionCells 0 - up.lostCells 0 0 := by
  decide +kernel
theorem test_lnk_group_reset : (does (.lnkGroupReset 0 false) (lvs [(lnkPg 0 + 0x110, 0, 0, 1)] (portAt 0 1 0 up))).portState 0 = 1 ∧
    (does (.lnkGroupReset 0 true) (portAt 0 1 5 up)).portState 0 = 0 := by decide +kernel
theorem test_credit_all : ((does (.creditAll 0 [1, 2, 3, 4, 5, 6, 7, 8]) (portAt 0 1 4 up)).port 0).granted = [1, 2, 3, 4, 5, 6, 7, 8] ∧
    ((does (.creditAll 0 [1, 2, 3, 4, 5, 6, 7, 8]) (portAt 0 1 3 up)).port 0).granted = Port.reset.granted := by decide
theorem test_replay : seqCovered 3 4 = false ∧ (does (.replay 0 3) (unackedAt 5)).sent.map Emit.body = [some sentFlit.body] ∧ max 1 ((unackedAt 5).portCfg 0 27 20) = 8 ∧
    ((does (.replay 0 3) (unackedAt 5)).port 0).resends = 1 ∧ (does (.replay 0 3) (unackedAt 6)).sent = [] := by decide +kernel

/-- A flit of a header and data (R194, R195). -/
def mkFlit (hdr : Nat) (data : List Byte) : List Byte :=
  let l := leBytes 8 hdr ++ fit data 244
  l ++ leBytes 4 (crc32c l)
/-- The only flit of a packet, sequence 0. -/
def onlyFlit (pkt : Packet) : List Byte := mkFlit (2 ^ 62 + 2 ^ 58 + 2 ^ 57) (pkt.toBytes ++ leBytes 4 (crc32 pkt.toBytes))

theorem test_flit_fails : (portAt 0 1 5 up).fatal = false ∧ flitIntact (List.replicate 256 1) = false ∧
    (does (.flitReceive 0 (.flit (List.replicate 256 1) 0)) (portAt 0 1 5 up)).sent.length = 1 ∧
    (does (.flitReceive 0 (.flit (List.replicate 256 1) 0)) (portAt 0 1 6 up)).sent = [] := by decide +kernel
theorem test_flit_idle : flitIntact (mkFlit (2 ^ 20 + 5) []) = true ∧
    ((does (.flitReceive 0 (.flit (mkFlit (2 ^ 20 + 5) []) 0)) (portAt 0 1 5 up)).port 0).granted.getD 0 0 = 5 := by decide +kernel
theorem test_flit_whole : (portAt 0 1 5 up).hurtAny ((portAt 0 1 5 up).flitUnits 0) = false ∧ isPorone ((portAt 0 1 5 up).portMode 0) = true := by decide +kernel
theorem test_flit_packet : (does (.flitReceive 0 (.flit (onlyFlit readReq) 0)) { portAt 0 1 5 up with ports := [(0, { Port.reset with rxSeq := 0 })] }).arrived =
    [{ port := 0, pkt := readReq, sop := 0, frame := none }] := by
  decide +kernel

/-! ### Packets -/

/-- The packet has come in at a port, and its cells are held (the premise `heldIn`). -/
def comesIn (p : Nat) (pkt : Packet) (s : State) : Bool :=
  s.isOwn p pkt && match s.arrive p pkt false with | (w, some c) => (w.admitIn p none c.pkt).2.isSome | _ => false

/-- A transit port 0 that is UP, every VC lossless; a packet to node 3. -/
def inUp : State := cfgs [(lnkPg 0 + 0x1010, 15, 8, 255)] (liveAt 0 1 up)
def toOther (pt : BitVec 5) (l : List Byte) : Packet := pk pt 0 (3 * 2 ^ 44) 5 l

theorem test_forward_own : inUp.isOwn 0 readReq = true ∧ inUp.malformedAt 0 readReq = false ∧ (does (.packetForward 0 readReq) { inUp with arrived := [{ port := 0, pkt := readReq, sop := 0, frame := none }] }).arrived.length = 1 := by decide +kernel
theorem test_forward_down : inUp.isOwn 0 (toOther ptMemWrite [1]) = false ∧
    (does (.packetForward 0 (toOther ptMemWrite [1])) { portAt 0 1 4 up with
      arrived := [{ port := 0, pkt := toOther ptMemWrite [1], sop := 0, frame := none }] }).arrived = [] := by decide +kernel
theorem test_forward_malformed : (toOther ptMemWrite [1]).answered = false ∧ inUp.malformedAt 0 { toOther ptMemWrite [1] with length := 2 } = true ∧
    (does (.packetForward 0 { toOther ptMemWrite [1] with length := 2 }) inUp).lv (lnkPg 0 + 0x228) 63 0 = 1 := by decide +kernel
theorem test_forward_bad_id : isEndpointMode 2 = true ∧ (liveAt 0 2 up).malformedAt 0 (toOther ptMemWrite [1]) = false ∧
    (liveAt 0 2 up).portCfg 0 63 44 ≠ 5 ∧ (does (.packetForward 0 (toOther ptMemWrite [1])) (liveAt 0 2 up)).lv (lnkPg 0 + 0x120) 63 0 = 1 := by decide +kernel
/-- An endpoint of node 5 with every partition. -/
def endpointUp : State := cfgs [(lnkPg 0 + 0x1010, 63, 44, 5), (lnkPg 0 + 0x1010, 43, 28, 0xFFFF)] (liveAt 0 2 up)
theorem test_forward_instar_zero : endpointUp.number = 0 ∧ endpointUp.malformedAt 0 (toOther ptMemWrite [1]) = false ∧
    (does (.packetForward 0 (toOther ptMemWrite [1])) endpointUp).sent = [] := by decide +kernel
theorem test_forward_no_route : inUp.tagNow = 0 ∧ inUp.egress inUp.active 0 (some 0) (toOther ptMemWrite [1]) = .noRoute ∧
    (does (.packetForward 0 (toOther ptMemWrite [1])) inUp).lv (swcPg 0 + 0x100) 63 0 = 1 := by decide +kernel
theorem test_forward_tags : inUp.number = 0 ∧ inUp.retiring = none ∧ (does (.packetForward 0 { toOther ptMemWrite [1] with itag := 2 }) inUp).lv (insPg + 0x130) 63 0 = 1 ∧
    (does (.packetForward 0 { toOther ptMemWrite [1] with itag := 3 }) inUp).lv (insPg + 0x130) 63 0 = 1 ∧
    (inUp.admitIn 0 none { toOther ptMemWrite [1] with itag := 1 }).2.isSome = true := by decide +kernel

/-- The up entry leads to port 1, which is UP. -/
def routed : State := cfgs [(swcPg 0 + 0x1008, 23, 23, 1), (swcPg 0 + 0x8000, 1, 1, 1)] (liveAt 1 1 inUp)
theorem test_forward_queued : routed.egress routed.active 0 (some 0) (toOther ptMemWrite [1]) = .port 1 false ∧ (toOther ptMemWrite [1]).payload.length ≤ routed.peerMax 1 ∧
    routed.staticRefuses 0 1 (toOther ptMemWrite [1]) = false ∧ ((does (.packetForward 0 (toOther ptMemWrite [1])) routed).port 1).queue.length = 1 := by decide +kernel

/-- A transaction for this node at the working SRAM of core 0. -/
def toSram (pt : BitVec 5) (vc : Nat) (l : List Byte) : Packet := pk pt vc 0x80000000000 5 l

theorem test_mem_write : comesIn 0 (toSram ptMemWrite 0 [7, 8]) inUp = true ∧ regionOf 0x80000000000 = .wsram 0 ∧
    Memory.read (does (.memWrite 0 (toSram ptMemWrite 0 [7, 8])) inUp).mem 0x80000000001 = 8 := by decide +kernel
theorem test_mem_write_null : comesIn 0 (toSram ptMemWrite 0 []) inUp = true := by decide +kernel
theorem test_mem_write_acked : comesIn 0 (toSram ptMemWriteAcked 1 [7]) inUp = true ∧ comesIn 0 (toSram ptMemWriteAcked 1 []) inUp = true ∧
    comesIn 0 { toSram ptMemWriteAcked 1 [7] with part := 3 } inUp = true := by decide +kernel
theorem test_mem_verdicts : inUp.verdict (.part 0) true 0x80000000000 1 = .ok ∧ inUp.verdict (.part 3) true 0x80000000000 1 = .denyCore 0 ∧
    (Verdict.denyCore 0).status.isSome = true := by decide +kernel
theorem test_mem_read_req : comesIn 0 readReq inUp = true ∧ leAt readReq.payload 0 4 = 64 ∧ (inUp.verdict (.part 0) false 0x80000000000 64) = .ok ∧
    comesIn 0 { readReq with payload := readLen 0 } inUp = true ∧ comesIn 0 { readReq with part := 3 } inUp = true := by decide +kernel

/-- A transaction of thread 0 with node 5 under tag 9. -/
def remoteTx : RemoteTx := { tag := 9, held := false, handle := 0, pkt := { readReq with dst := 5 * 2 ^ 44, tag := 9 }, use := .copied, wrId := 0, tries := 0, tick := 0 }
def waitingRemote : State := { inUp with cores := [(0, { CoreSt.reset with remote := [(0, remoteTx)] })] }
theorem test_mem_resp : comesIn 0 { toSram ptMemReadResp 0 (List.replicate 64 1) with tag := 9 } waitingRemote = true ∧ waitingRemote.remoteOwner 9 5 = some (0, remoteTx) ∧
    inUp.remoteOwner 9 5 = none ∧ inUp.adpOwner 9 5 = none ∧ comesIn 0 { toSram ptMemReadResp 0 [1] with tag := 9 } inUp = true := by decide +kernel
def statusPkt (n : Nat) : Packet := { toSram ptMemStatus 1 (leBytes 4 n ++ leBytes 4 0) with tag := 9 }
theorem test_mem_status : comesIn 0 (statusPkt 4) waitingRemote = true ∧ waitingRemote.remoteOwner 8 5 = none ∧
    comesIn 0 (statusPkt 4) inUp = true := by decide +kernel
theorem test_completion : comesIn 0 (toSram ptCompletion 1 (leBytes 16 0x33)) inUp = true ∧ statusIn 0x33 = 8 ∧ statusIn 0x0D = 13 := by decide +kernel

/-- Object 0 of core 0 is valid, of partition 0, of a kind and with a target. -/
def objects (kind target : Nat) (s : State) : State := cfgs [(corePg 0 + 0xC000, 63, 0, 2 ^ 63 + kind * 2 ^ 58 + target)] s
def bell (o n : Nat) : Packet := pk ptDoorbell 1 o 5 (leBytes 4 n ++ leBytes 4 0)

theorem test_doorbell : comesIn 0 (bell 0 3) (objects 0 0 inUp) = true ∧ (objects 0 0 inUp).coreUp 0 = true ∧ objValid ((objects 0 0 inUp).objCfg 0) = true ∧
    objPart ((objects 0 0 inUp).objCfg 0) = 0 ∧ ((objects 0 0 inUp).postObj 0 3).obj 0 = (3, 0) := by decide +kernel
theorem test_doorbell_drops : comesIn 0 (bell 0 3) inUp = true ∧ objValid (inUp.objCfg 0) = false ∧ comesIn 0 (bell 65536 3) (objects 0 0 inUp) = true ∧
    comesIn 0 (bell 0 0) (objects 0 0 inUp) = true := by decide +kernel
theorem test_doorbell_absent : ({ inUp with sec := { inUp.sec with grade := 2 } } : State).corePresent 255 = false ∧
    comesIn 0 (bell 0xFF00 3) { inUp with sec := { inUp.sec with grade := 2 } } = true := by decide +kernel
theorem test_doorbell_adapter : comesIn 0 (bell 0 3) { liveAt 0 3 (cfgs [(lnkPg 0 + 0x1010, 63, 44, 5), (lnkPg 0 + 0x1010, 43, 28, 1), (lnkPg 0 + 0x1010, 15, 8, 255)] up) with
    number := 1 } = true := by decide +kernel

theorem test_verdict_regions : regionOf 0x90000000000 = .hole ∧ regionOf 0x80000000000 = .wsram 0 ∧ regionOf 0x81000000000 = .rmem 0 ∧
    regionOf (groupBase 0 4 + 0x3F8000000) = .hbm 0 4 ∧ inSpill (groupBase 0 4 + 0x3F8000000) = true ∧ inSpill (groupBase 0 4 + 0x3F7FFFFFF) = false ∧
    inControl 0 = true ∧ inControl (2 ^ 36) = false ∧ inSpill (2 ^ 36) = false := by decide
/-- Stack 0 is READY and its group 4 belongs to partition 0. -/
def ready (s : State) : State := lvs [(hbmPg 0 + 0x100, 2, 0, 3)] (cfgs [(hbmPg 0 + 0x4020, 5, 0, 0x10)] s)
theorem test_verdict_hbm : (ready up).stackState 0 = 3 ∧ (ready up).groupUp 0 4 = true ∧ (ready up).ownerAllows 0 4 0 = true ∧ (ready up).ownerAllows 0 4 20 = false ∧
    (ready up).verdictAt (.part 0) true (2 ^ 36) = .ok ∧ (ready up).verdictAt .device true (groupBase 0 4 + 0x3F8000000) = .denyStack 0 ∧
    (ready up).verdictAt (.part 0) false 0 = .denyStack 0 := by decide +kernel
theorem test_verdict_sram : up.fencedUnit (clusterUnit 0) = false ∧ up.verdictAt (.part 0) true 0x80000000000 = .ok ∧
    up.verdictAt (.part 1) true 0x80000000000 = .denyCore 0 ∧ up.verdictAt (.part 0) true 0x81000000000 = .silentRm 0 ∧
    up.verdictAt .device true 0x90000000000 = .silentTop := by decide +kernel
/-- The burst at 64 GiB, in partition 0's memory group, is known to be bad. -/
def badAt : State := { ready inUp with memSt := { up.memSt with bad := [2 ^ 36] } }
def toHbm (pt : BitVec 5) (vc a : Nat) (l : List Byte) : Packet := pk pt vc a 5 l
theorem test_bad_burst : comesIn 0 (toHbm ptMemWriteAcked 1 (2 ^ 36) [7]) badAt = true ∧ badAt.badMerge (2 ^ 36) 1 = some (2 ^ 36) ∧ badAt.badMerge (2 ^ 36) 64 = none ∧
    badAt.verdict (.part 0) true (2 ^ 36) 1 = .ok ∧ Memory.read (does (.memWriteAcked 0 (toHbm ptMemWriteAcked 1 (2 ^ 36) [7])) badAt).mem (2 ^ 36) = 0 := by decide +kernel
theorem test_bad_read : comesIn 0 (toHbm ptMemReadReq 0 (2 ^ 36 + 64) (readLen 64)) badAt = true ∧ badAt.badBurst (2 ^ 36) 64 = some (2 ^ 36) ∧
    comesIn 0 (toHbm ptMemReadReq 0 (2 ^ 36) (readLen 64)) badAt = true ∧ badAt.hurtAny (wordUnits (2 ^ 36)) = false ∧ badAt.badBurst (2 ^ 36 + 64) 64 = none := by decide +kernel
theorem test_silent_write : comesIn 0 (toHbm ptMemWriteAcked 1 0x81000000000 [7]) inUp = true ∧ (inUp.verdict (.part 0) true 0x81000000000 1).status = none := by decide +kernel
/-- Port 0's VC0 is lossy, and its owner may hold one cell. -/
def noCells : State := cfgs [(lnkPg 0 + 0x1010, 15, 8, 0), (bpmPg 0 + 0x4000, 19, 0, 0), (bpmPg 0 + 0x4000, 51, 32, 1)] (liveAt 0 1 up)
def threeCells : Packet := { toOther ptMemWrite (List.replicate 600 1) with itag := 1 }
theorem test_forward_early_refused : (noCells.admitIn 0 none threeCells).2 = none ∧
    (does (.packetForward 0 threeCells) noCells).lv (insPg + 0x140) 63 0 = 0 ∧
    (does (.packetForward 0 { toOther ptMemWrite [1] with itag := 1 }) inUp).lv (insPg + 0x140) 63 0 = 1 := by decide +kernel

/-! ### Collectives -/

/-- A contribution of rank 1 to chunk 4 of epoch 1 of group 7: ALLREDUCE, SUM of I32. -/
def contribExt : Ext :=
  { group := 7, epoch := 1, chunk := 4, rank := 1, pattern := 0, func := 0, fmt := 0x0E, form := 0, ckind := ckContribution, status := 0, sat := false, seg := 0 }
def contrib : Packet := { pk ptColl 2 0 5 (leBytes 4 3) with ext := some contribExt }
/-- The same on a VC that carries no streaming. -/
def plainContrib : Packet := { contrib with vc := 4 }
def anInput : Input :=
  { port := 0, sop := 9, pkt := { plainContrib with payload := [] }, src := none, key := none, data := leBytes 4 3, spec := 0, wait := false, passed := false, alloc := 1, tick := 0 }
def streaming (s : State) : State := { s with inputs := [anInput] }

theorem test_contribution : contrib.ext = some contribExt ∧ inUp.isOwn 0 contrib = true ∧ inUp.inputAt 0 9 = none ∧ inUp.isSummary contrib = false ∧
    (inUp.admitIn 0 none contrib).2.isSome = true ∧ (does (.contribution 0 9 { contrib with ext := none }) inUp).inputs = [] := by decide +kernel
theorem test_contribution_plain : ((inUp.admitIn 0 none plainContrib).2 = some 1) ∧
    ((does (.contribution 0 9 plainContrib) inUp).inputs.map fun i => (i.port, i.sop, i.alloc)) = [(0, 9, 1)] := by decide +kernel
theorem test_contribution_flit : (does (.contributionFlit 0 9 [5]) (streaming inUp)).inputs = [{ anInput with data := leBytes 4 3 ++ [5] }] ∧
    (does (.contributionFlit 0 8 [5]) (streaming inUp)).inputs = [anInput] := by decide +kernel
theorem test_contribution_fail : (streaming inUp).inputAt 0 9 = some anInput ∧ ((streaming inUp).port 0).nak = false ∧
    (does (.contributionFail 0 9) (streaming inUp)).inputs = [] ∧ (does (.contributionFail 0 8) (streaming inUp)).inputs = [anInput] ∧
    (does (.contributionFail 0 9) { streaming inUp with fatal := true }).inputs = [anInput] := by decide +kernel
theorem test_contribution_confirm : (streaming inUp).malformedAt 0 { contrib with vc := 2 } = false ∧ plainContrib.itag = inUp.tagNow ∧ inUp.portMode 0 = 1 ∧
    (does (.contributionConfirm 0 8) (streaming inUp)).inputs = [anInput] := by decide +kernel
def vc6Input : Input := { anInput with pkt := { contrib with vc := 6, payload := [] } }
theorem test_contribution_confirm_tree : ({ inUp with inputs := [vc6Input] } : State).malformedAt 0 { contrib with vc := 6 } = false ∧
    ((does (.contributionConfirm 0 9) { inUp with inputs := [vc6Input] }).lv (colPg 0 + 0x110) 63 0) = 1 := by decide +kernel
theorem test_contribution_confirm_endpoint : endpointUp.malformedAt 0 { contrib with vc := 6, src := 4 } = false ∧ endpointUp.portCfg 0 63 44 = 5 ∧
    (does (.contributionConfirm 0 9) { endpointUp with inputs := [{ vc6Input with pkt := { vc6Input.pkt with src := 4 } }] }).lv (lnkPg 0 + 0x120) 63 0 = 1 := by decide +kernel

/-- The group's reset guard runs until tick 50. -/
def guarded (s : State) : State := { s with groups := [(7, { GroupSt.reset 7 with guardEnd := some 50 })] }
/-- Group 7 has a valid entry, no root. -/
def tabled (root : Bool) (s : State) : State := { s with active := RegFile.set s.active (gtblKey 7 0) (BitVec.ofNat 64 (7 + 2 ^ 31 + if root then 2 ^ 30 else 0)) }

theorem test_offer_guarded : (guarded up).guarded 7 = true ∧ ((guarded up).offer 0 vc6Input).lv (colPg 0 + 0x170) 63 0 = 1 := by decide +kernel
theorem test_offer_no_group : groupValid (up.sees 0 (up.fileFor 0)) 7 = false ∧ (up.offer 0 vc6Input).lv (colPg 0 + 0x110) 63 0 = 1 := by decide +kernel
theorem test_offer_epochs : groupValid ((tabled false (grouped up)).sees 0 ((tabled false (grouped up)).fileFor 0)) 7 = true ∧
    ((grouped up).grp 7).number = some 1 ∧ (grouped up).epochOf 7 3 = none ∧
    ((tabled false (grouped up)).offer 0 { vc6Input with pkt := { vc6Input.pkt with ext := some { contribExt with epoch := 3 } } }).lv (colPg 0 + 0x118) 63 0 = 1 := by decide +kernel
/-- A context of chunk 4 in a phase, its one source confirmed. -/
def aSource : SrcSt := { SrcSt.of [] (.child 5) with conf := true }
def key4 : CtxKey := ⟨7, 1, 4⟩
def aCtx (ph : Phase) (s : Dev) : Ctx := { s.newCtx key4 (anEpoch 1) 0 .none none 0 with phase := ph, srcs := [aSource] }
def withCtx (ph : Phase) (s : State) : State := { grouped s with ctxs := [aCtx ph s.toDev] }
theorem test_offer_duplicate : (withCtx .open up).ctx key4 = some (aCtx .open up.toDev) ∧ (aCtx .open up.toDev).src (.child 5) = some aSource ∧
    ((withCtx .open up).offer 0 { vc6Input with src := some (.child 5) }).lv (colPg 0 + 0x120) 63 0 = 1 := by decide +kernel
/-- Chunk 4 is open under the contribution's parameters, its one source silent so far. -/
def kidEpoch : EpochSt := { anEpoch 1 with parents := [9], cores := [0], kids := [(5, .child 5)] }
def ctxParams : Params := { Params.none with pattern := 0, func := 0, fmt := 0x0E, sat := false, length := 4, fused := [] }
def openCtx (s : Dev) : Ctx := { s.newCtx key4 kidEpoch 0 (.resident 1) (some ctxParams) 0 with srcs := [SrcSt.of [] (.child 5)] }
def streamUp : State :=
  { inUp with groups := [(7, { GroupSt.reset 7 with number := some 1, current := some kidEpoch })], ctxs := [openCtx inUp.toDev] }
def wholeIn : Packet := { contrib with payload := fit (leBytes 4 3) contrib.length.toNat }
theorem test_stream_premises : streamUp.malformedAt 0 wholeIn = false ∧ streamUp.holdsIngress 0 = false ∧ contrib.itag = streamUp.tagNow ∧ streamUp.guarded 7 = false ∧
    paramsKnown contribExt contrib (leBytes 4 3) = true ∧ streamUp.epochOf 7 1 = some kidEpoch ∧ streamUp.srcOf kidEpoch 5 = some (.child 5) ∧
    streamUp.closedTo key4 (.child 5) contribExt = false ∧ streamUp.earlyStatus kidEpoch wholeIn contribExt = none ∧ streamUp.streaming key4 (.child 5) = false ∧
    Params.ofContribution wholeIn contribExt wholeIn.payload = ctxParams ∧ ctxParams.exact = true ∧ streamUp.inputAt 0 9 = none ∧ (streamUp.admitIn 0 none contrib).2.isSome = true := by
  decide +kernel
/-- The elements that the context holds. -/
def sums (s : State) : List (List Int) := s.ctxs.map fun c => c.recs.map fun r => r.sum 0x0E
def streamed : State := does (.contribution 0 9 contrib) streamUp
theorem test_stream_first : sums streamed = [[3, 0, 0, 0]] ∧ (streamed.inputAt 0 9).map (fun i => (i.src, i.spec)) = some (some (.child 5), 4) := by decide +kernel
/-- Three of the four bytes have come. -/
def streamed3 : State :=
  { streamed with inputs := streamed.inputs.map fun i => { i with data := i.data.take 3, spec := 3 }, ctxs := streamed.ctxs.map fun c => { c with recs := c.recs.take 3 } }
theorem test_stream_more : sums streamed3 = [[3, 0, 0]] ∧ sums (does (.contributionFlit 0 9 [7]) streamed3) = [[3, 0, 0, 7]] := by decide +kernel
theorem test_stream_passes : sums (does (.contributionConfirm 0 9) streamed) = [[]] ∧ (does (.contributionConfirm 0 9) streamed).ctxs.map (fun c => c.srcs.map (·.conf)) = [[true]] ∧
    (streamed.inputAt 0 9).map (fun i => (i.key, i.wait)) = some (some key4, false) := by decide +kernel
theorem test_stream_source_lost : (streamed.toDev.loseSource 7 1 (.child 5)).inputs = [] ∧ (streamed.toDev.loseSource 7 1 (.child 5)).lv (colPg 0 + 0x128) 63 0 = 1 := by
  decide +kernel
/-- With no input included an INT8 sum of four elements is a state of full size, and +0 at the root. -/
theorem test_empty_state : (emptyState false ctxParams).length = stateBytes ctxParams 4 ∧
    finishState ctxParams kidEpoch.cfg key4 0 (emptyState true ctxParams) = [0, 0, 0, 0] := by decide +kernel
def streamedFixed : State := { streamed with ctxs := streamed.ctxs.map fun c => { c with fixed := true } }
theorem test_stream_fails : sums (does (.contributionFail 0 9) streamedFixed) = [[0, 0, 0, 0]] ∧ (does (.contributionFail 0 9) streamedFixed).lv (colPg 0 + 0x128) 63 0 = 1 ∧
    (streamedFixed.port 0).nak = false ∧ (does (.contributionFail 0 9) streamedFixed).inputAt 0 9 = none := by decide +kernel

def collKind (k : BitVec 3) (n : Nat) (tr : List Byte) : Packet :=
  { pk ptColl 3 0 5 (List.replicate n 0) with ext := some { contribExt with ckind := k }, trailer := tr }
theorem test_partial : comesIn 0 (collKind ckPartial 8 []) inUp = true ∧ inUp.isSummary (collKind ckPartial 8 []) = false := by decide +kernel
theorem test_result : comesIn 0 (collKind ckResult 4 (List.replicate 8 0)) inUp = true ∧ comesIn 0 (collKind ckResult 4 (List.replicate 8 0)) (guarded inUp) = true ∧
    comesIn 0 (collKind ckResult 4 (List.replicate 8 0)) (tabled true inUp) = true ∧ comesIn 0 (collKind ckResult 4 (List.replicate 8 0)) (tabled false inUp) = true ∧
    inUp.groupHere 0 (inUp.fileFor 0) 7 1 = none ∧ ((tabled true inUp).groupHere 0 ((tabled true inUp).fileFor 0) 7 1).map (·.root) = some true := by decide +kernel
theorem test_result_waited : comesIn 0 (collKind ckResult 4 (List.replicate 8 0)) (withCtx .sentUp (tabled false inUp)) = true ∧ (withCtx .sentUp up).ctx key4 ≠ none ∧
    comesIn 0 (collKind ckResult 4 (List.replicate 8 0)) (withCtx .copyLost (tabled false inUp)) = true ∧
    ((withCtx .sentUp (tabled false inUp)).groupHere 0 inUp.active 7 1).map (·.root) = some false ∧
    comesIn 0 (collKind ckResult 4 (List.replicate 8 0)) (withCtx .retained (tabled false inUp)) = true := by decide +kernel
theorem test_result_lost : comesIn 0 (collKind ckResult 4 (List.replicate 8 0)) { withCtx .sentUp (tabled false inUp) with lostNow := [key4] } = true ∧
    (does (.collResult 0 (collKind ckResult 4 (List.replicate 8 0))) { withCtx .sentUp (tabled false inUp) with lostNow := [key4] }).lv (colPg 0 + 0x120) 63 0 = 1 := by decide +kernel
theorem test_ack : comesIn 0 (collKind ckAck 40 []) inUp = true ∧ comesIn 0 (collKind ckAck 40 []) (guarded inUp) = true ∧
    comesIn 0 (collKind ckAck 40 []) (withCtx .open inUp) = true ∧ (aCtx .open inUp.toDev).unacked = [] ∧
    comesIn 0 (collKind ckAck 40 []) (tabled false inUp) = true ∧ ((withCtx .open inUp).groupHere 0 inUp.active 7 1).isSome = true ∧
    ((tabled false inUp).groupHere 0 ((tabled false inUp).fileFor 0) 7 1).isSome = true := by decide +kernel
/-- The retained result's child at logical port 0 has not acknowledged. -/
def unackedCtx (s : State) : State :=
  { grouped s with ctxs := [{ aCtx .retained s.toDev with unacked := [(0, 0, 0)] }], ports := [(0, { Port.reset with peer := some { goodParam with node := 5 } })] }
theorem test_ack_mine : comesIn 0 (collKind ckAck 40 []) (unackedCtx inUp) = true ∧ (unackedCtx inUp).placeOf 0 = some 0 ∧ (unackedCtx inUp).peerNode 0 = 5 := by decide +kernel

theorem test_rounding_done : (withCtx .complete up).ctx key4 = some (aCtx .complete up.toDev) ∧ (aCtx .complete up.toDev).route = none ∧
    (does (.roundingDone key4) (withCtx .open up)).ctxs.length = 1 ∧ (does (.roundingDone key4) up).ctxs = [] := by decide +kernel
def retainedCtx (ticks : Nat) : State := { withCtx .retained up with groups := [], ticks := ticks }
theorem test_retain_expire : (retainedCtx 4000000).epochAny 7 1 = none ∧ (aCtx .retained up.toDev).retainedAt + up.retainBeats ≤ 4000000 ∧
    (does (.retainExpire key4) (retainedCtx 4000000)).ctx key4 = none ∧ (does (.retainExpire key4) (retainedCtx 0)).ctxs.length = 1 := by decide +kernel
theorem test_context_timeout : (cfgs [(colPg 0 + 0x1010, 31, 0, 100)] up).cfg (colPg 0 + 0x1010) 31 0 = 100 ∧
    (does (.contextTimeout key4) { withCtx .open (cfgs [(colPg 0 + 0x1010, 31, 0, 100)] up) with ticks := 99 }).ctxs.map (·.status) = [0] ∧
    (does (.contextTimeout key4) { withCtx .open (cfgs [(colPg 0 + 0x1010, 31, 0, 100)] up) with ticks := 100, groups := [] }).ctxs.map (·.status) ≠ [0] := by decide +kernel
theorem test_resend_timeout : max 1024 (up.cfg (colPg 0 + 0x1008) 31 0) ≤ 4000000 ∧ up.resendMax ≠ 0 ∧
    ((does (.resendTimeout key4 0) { unackedCtx up with ticks := 0 }).ctxs.map (·.unacked)) = [[(0, 0, 0)]] ∧
    (unackedCtx up).copyGood { aCtx .retained up.toDev with unacked := [(0, 0, 0)] } = false ∧
    (does (.resendTimeout key4 1) (unackedCtx up)).ctxs = (unackedCtx up).ctxs := by decide +kernel
/-- The retained result checks, and the child's port is live. -/
def copyCtx (s : Dev) : Ctx :=
  let c : Ctx := { aCtx .retained s with unacked := [(0, 0, 0)], params := some ctxParams, result := [1, 2, 3, 4] }
  { c with digest := chunkDigest c.key c.par c.result }
def copyUp : State := { unackedCtx inUp with ctxs := [copyCtx inUp.toDev], ticks := 4000000 }
theorem test_resend_again : copyUp.copyGood (copyCtx inUp.toDev) = true ∧ copyUp.logLive 0 = true ∧ copyUp.copyWaits key4 0 = false ∧
    (does (.resendTimeout key4 0) copyUp).ctxs.map (·.unacked) = [[(0, 4000000, 1)]] ∧ (does (.resendTimeout key4 0) copyUp).lv (colPg 0 + 0x130) 63 0 = 1 := by decide +kernel
theorem test_group_reset : ((does (.colGrpReset 0 7) (grouped up)).grp 7).current = none ∧ ((does (.colGrpReset 1 7) (grouped up)).grp 7).guardEnd.isSome = true := by decide +kernel
theorem test_guard_end : ((does (.resetGuardEnd 7) { guarded up with ticks := 50 }).grp 7).guardEnd = none ∧ (guarded up).works = [] ∧
    ((does (.resetGuardEnd 7) { guarded up with ticks := 49 }).grp 7).guardEnd = some 50 := by decide +kernel

/-! ### Tables and dispatch -/

def tablePkt (pt : BitVec 5) (vc : Nat) (k : BitVec 3) (pat : BitVec 3) (n : Nat) (tr : List Byte) : Packet :=
  { pk pt vc 0 5 (List.replicate n 0) with ext := some { contribExt with ckind := k, pattern := pat }, trailer := tr }

theorem test_table_req : comesIn 0 (tablePkt ptTableReq 4 0 5 16 []) inUp = true ∧ comesIn 0 (tablePkt ptTableReq 4 0 5 16 []) (guarded inUp) = true ∧
    (guarded inUp).guarded 7 = true ∧ inUp.guarded 7 = false ∧ inUp.epochOf 7 1 = none ∧ groupValid (inUp.fileFor 0) 7 = false := by decide +kernel
def tableWait (landed : List Nat) : Work :=
  { who := .thread 0, slot := 0, wrId := 0, localA := 0, remote := 0, length := 64, count := 4, group := 7, epoch := 1, first := 4, rank := 1, pattern := 5,
    func := 0, fmt := 0x0E, sat := false, landed := landed, moved := 0, expected := 4, cnt := 0, status := 0, reqs := [], prog := [], tiles := [], sentTiles := 0 }
theorem test_table_resp : comesIn 0 (tablePkt ptTableResp 4 2 5 0 (List.replicate 8 0)) inUp = true ∧
    comesIn 0 (tablePkt ptTableResp 4 2 5 0 (List.replicate 8 0)) { inUp with works := [tableWait [4]] } = true ∧
    comesIn 0 (tablePkt ptTableResp 4 2 5 0 (chunkDigest key4 { Params.none with pattern := 5, fmt := 0x0E } [])) { inUp with works := [tableWait []] } = true := by
  decide +kernel
def aGather : GatherWait := { key := key4, src := 5, port := 0, pkt := { tablePkt ptTableReq 4 0 5 0 [] with payload := leBytes 8 0 ++ leBytes 4 1 ++ leBytes 4 20 ++ leBytes 4 0 } }
def batched (s : State) : State := { s with batches := [{ table := 0, group := 7, epoch := 0, row := 0, recs := [] }] }
theorem test_gather_wait : ({ up with gathers := [aGather] } : State).gathers.find? (fun g => g.key == key4 && g.src == 5) = some aGather ∧
    (batched up).gatherWaits aGather.pkt contribExt = true ∧ (does (.tableGatherRead key4 5 .clean) (batched { up with gathers := [aGather] })).gathers.length = 1 ∧
    (does (.tableGatherRead key4 6 .clean) { up with gathers := [aGather] }).gathers.length = 1 := by decide +kernel
theorem test_gather_read : up.gatherWaits aGather.pkt contribExt = false ∧ (up.tableHdr (anEpoch 1) aGather.pkt .clean).2 = .inl 2 ∧
    (up.tableHdr { anEpoch 1 with cores := [0] } aGather.pkt .clean).2 = .inl 8 ∧
    (does (.tableGatherRead key4 5 .clean) { up with gathers := [aGather] }).gathers = [] := by decide +kernel
/-- A table of two rows of two I32 elements stands at 64 GiB, and its group's epoch is open. -/
def tableHere (s : State) : State :=
  { ready s with
    mem := Memory.writeBytes [] (2 ^ 36) (leBytes 4 2 ++ leBytes 2 2 ++ [0x12, 0x80] ++ leBytes 4 7 ++ leBytes 4 4 ++ leBytes 8 (2 ^ 36 + 4096) ++ leBytes 8 (2 ^ 36 + 64) ++
      leBytes 4 64 ++ List.replicate 28 0)
    groups := [(7, { GroupSt.reset 7 with number := some 1, current := some kidEpoch })] }
def tableAsk (func : BitVec 3) (n : Nat) (l : List Byte) : Packet :=
  { pk ptTableReq 4 (2 ^ 36) 5 (leBytes 8 (2 ^ 36) ++ leBytes 4 n ++ leBytes 4 (16 + l.length) ++ l) with
    ext := some { contribExt with pattern := 5, func := func, fmt := 0x12 } }
theorem test_table_served : comesIn 0 (tableAsk 0 1 (leBytes 4 1)) (tableHere inUp) = true ∧ (tableHere inUp).epochOf 7 1 = some kidEpoch ∧
    (match ((tableHere inUp).tableHdr kidEpoch (tableAsk 0 1 (leBytes 4 1)) .clean).2 with | .inr h => h.rows == 2 && h.group == 7 | .inl _ => false) = true ∧
    homeOf (kidEpoch.tableCores 0) 0 key4 = some 0 ∧ (tableHere inUp).gatherWaits (tableAsk 0 1 (leBytes 4 1)) contribExt = false ∧
    comesIn 0 (tableAsk 1 0 []) (tableHere inUp) = true ∧ comesIn 0 (tableAsk 1 1 (leBytes 4 1 ++ leBytes 8 9)) (tableHere inUp) = true := by decide +kernel
theorem test_table_null : (does (.tableReq 0 (tableAsk 1 0 []) .clean) (tableHere inUp)).lv (corePg 0 + 0x108) 63 0 = 1 := by decide +kernel
theorem test_table_waits : (does (.tableReq 0 (tableAsk 0 1 (leBytes 4 1)) .clean) { tableHere inUp with batches := [{ table := 2 ^ 36, group := 7, epoch := 0, row := 1, recs := [] }] }).gathers.length = 1 := by
  decide +kernel
/-- The gather that waits, and its table. -/
def askedWait : GatherWait := { key := key4, src := 5, port := 0, pkt := tableAsk 0 1 (leBytes 4 1) }
def waitsHere : State := { tableHere inUp with gathers := [askedWait] }
theorem test_gather_serves : waitsHere.epochAny 7 1 = some kidEpoch ∧ (gatherIdx askedWait.pkt).find? (fun r => decide (r < 2)) = some 1 ∧
    (waitsHere.hbmMeets (2 ^ 36 + 128) .clean).2 = false ∧ (does (.tableGatherRead key4 5 .clean) waitsHere).gathers = [] ∧ inUp.epochAny 7 1 = none := by decide +kernel
theorem test_rows : comesIn 0 (tablePkt ptDispatchRows 5 2 6 32 (List.replicate 8 0)) inUp = true ∧ comesIn 0 (tablePkt ptDispatchRows 5 3 6 32 []) inUp = true ∧
    comesIn 0 (tablePkt ptCombineRows 5 0 6 32 []) inUp = true ∧ comesIn 0 (tablePkt ptCombineRows 5 0 6 32 []) (guarded inUp) = true ∧
    (inUp.admitEpoch 0 (inUp.fileFor 0) 7 1).2 = none := by decide +kernel
theorem test_rows_epoch : ((tableHere inUp).admitEpoch 0 inUp.active 7 1).2 = some kidEpoch ∧ comesIn 0 (tablePkt ptDispatchRows 5 0 6 32 []) (tableHere inUp) = true ∧
    comesIn 0 (tablePkt ptCombineRows 5 0 6 32 []) (tableHere inUp) = true ∧ kidEpoch.entry.root = false := by decide +kernel

def seg (req row u : Nat) : Segment := { req := req, row := row, updates := u, recs := [] }
def laned (l : List (List Segment)) (s : State) : State := { s with cores := [(0, { CoreSt.reset with lanes := l ++ List.replicate (16 - l.length) [] })] }
theorem test_lane_steal : (cfgs [(corePg 0 + 0x1800, 16, 16, 1)] up).cfg (corePg 0 + 0x1800) 16 16 = 1 ∧
    ((does (.laneSteal 0 0) (laned [[], [seg 1 0 2, seg 1 1 2]] (cfgs [(corePg 0 + 0x1800, 16, 16, 1)] up))).core 0).lanes.take 2 = [[seg 1 1 2], [seg 1 0 2]] ∧
    ((does (.laneSteal 0 0) (laned [[], [seg 1 0 2, seg 1 1 2]] (cfgs [(corePg 0 + 0x1800, 16, 16, 0)] up))).core 0).lanes.take 1 = [[]] := by decide +kernel
def tableReq2 : TableWork := { id := 1, core := 0, left := 2, table := 0, group := 7, epoch := 1, fmt := 0x0E, adds := [(0, [])], resp := readReq }
theorem test_segment_done : ((does (.segmentDone 0 0) (laned [[seg 1 0 2]] { up with tableWorks := [tableReq2] })).tableWorks.map (·.left)) = [1] ∧
    ((does (.segmentDone 0 0) (laned [[seg 1 0 2]] { up with tableWorks := [tableReq2] })).core 0).lanes.take 1 = [[]] ∧
    ((does (.segmentDone 0 1) (laned [[seg 1 0 2]] { up with tableWorks := [tableReq2] })).core 0).lanes.take 1 = [[seg 1 0 2]] := by decide +kernel

/-! ### Register pages -/

def regW (s : State) (a : Nat) (wide : Bool) (v : Word) : State := does (.registerWrite (.hart 0 .m) (BitVec.ofNat 64 a) wide v) s
def regU (s : State) (a : Nat) (wide : Bool) (v : Word) : State := does (.registerWrite (.hart 0 .u) (BitVec.ofNat 64 a) wide v) s
/-- The page of an address may be reached (the premise `reachable`). -/
def reach (s : State) (a : Nat) : Bool := regionOf a == .regs && s.pagePresent (addrDie a) (addrBlk a) (addrInst a)

theorem test_write_staged : reach up (insPg + 0x1000) = true ∧ up.privileged (.hart 0 .m) = true ∧ up.insState = 0 ∧
    (writeReg 4 1 0 0x1000 4).isSome = true ∧ (regW up (insPg + 0x1000) false 0xFFF12345).staged = [(insPg + 0x1000, 0x12345)] := by decide +kernel
theorem test_write_staged_held : (regW (lvs [(insPg + 0x108, 2, 0, 1)] up) (insPg + 0x1000) false 5).staged = [] ∧
    (regW (lvs [(insPg + 0x108, 2, 0, 2)] up) (insPg + 0x1000) false 5).lv (insPg + 0x148) 63 0 = 1 := by decide +kernel
theorem test_write_table : reach up (swcPg 0 + 0x4000) = true ∧ (findTbl 4 0 0x4000).isSome = true ∧ (findTbl 4 0 0x4000).all (fun x => x.ro == false) = true ∧
    (regW up (swcPg 0 + 0x4004) false 0x80000001).staged = [(swcPg 0 + 0x4000, 0x8000000100000000)] := by decide +kernel
theorem test_write_owner_locked : reach up (pg 0 0x0B 0 + 0x4018) = true ∧ pg 0 0x0B 0 + 0x4018 = 0xF000B004018 ∧
    (regW up (pg 0 0x0B 0 + 0x4018) true 0x15).staged = [] ∧ resetWord (pg 0 0x0B 0 + 0x4018) = 0 ∧
    (regW up (pg 0 0x0B 0 + 0x4020) true 0x15).staged = [(pg 0 0x0B 0 + 0x4020, 0x15)] := by decide +kernel
theorem test_write_injection_page : (regW up (pg 0 0x0C 1 + 0x100) false 1).lv (topPg + 0x28) 63 0 = 1 ∧
    (up.busRead (.hart 0 .m) (pg 0 0x0C 1) 4).1.lv (topPg + 0x28) 63 0 = 1 := by decide +kernel
theorem test_write_live : writeReg 4 0 0 0x20 8 ≠ none ∧ RegFile.get (regW up (topPg + 0x20) true 1).live (topPg + 0x20) = 1 := by decide +kernel
theorem test_write_dropped : (regU up (insPg + 0x1000) false 1).lv (insPg + 0x28) 63 0 = 1 ∧ (regW up (insPg + 0x0F8) true 1).lv (insPg + 0x28) 63 0 = 1 ∧
    writeReg 4 1 0 0x0F8 8 = none ∧ (regU up 0x90000000000 true 1).lv (topPg + 0x28) 63 0 = 1 ∧ (regU { up with fatal := true } (insPg + 0x1000) false 1).live = [] := by
  decide +kernel
theorem test_write_no_page : up.pagePresent 4 2 0 = false ∧ (regW up (pg 4 2 0) true 1).lv (topPg + 0x28) 63 0 = 1 ∧
    findTbl 0x0E 0 0x4000 = none ∧ (regW up (ctlPg + 0x4000) true 1).lv (ctlPg + 0x28) 63 0 = 1 := by decide +kernel
theorem test_write_commands : (regW up (insPg + 0x118) false 2).insState = 1 ∧ (regW up (insPg + 0x118) false 6).lv (insPg + 0x108) 15 8 = 0x0A ∧
    (regW up (beatPg 0 + 0x110) false 1).bState = bsAligned ∧ (regW up (ctlPg + 0x500) false 0x41).ctl.txFifo = [0x41] ∧
    (regW up (ctlPg + 0x108) false 1).lv (ctlPg + 0x108) 15 0 = 1 := by decide +kernel

theorem test_pair_low : up.pairAt (.hart 0 .m) (telPg 0 + 0x100) = true ∧
    (does (.pairLowWrite (.hart 0 .m) (BitVec.ofNat 64 (telPg 0 + 0x100)) 0x100) up).latches = [(telPg 0 + 0x100, 0x100)] ∧
    (does (.pairLowWrite (.hart 0 .m) (BitVec.ofNat 64 (telPg 0 + 0x100)) 0x100) up).live = [] := by decide +kernel
theorem test_pair_high : (telPg 0 + 0x100) % 8 = 0 ∧
    (does (.pairHighWrite (.hart 0 .m) (BitVec.ofNat 64 (telPg 0 + 0x104)) 1) { up with latches := [(telPg 0 + 0x100, 0x100)] }).lv (telPg 0 + 0x100) 43 0 = 0x100000100 := by
  decide +kernel
theorem test_pair_write64 : (does (.pairWrite64 (.hart 0 .m) (BitVec.ofNat 64 (telPg 0 + 0x100)) 0x300000200) up).lv (telPg 0 + 0x100) 43 0 = 0x300000200 ∧
    (does (.pairWrite64 (.hart 0 .m) (BitVec.ofNat 64 (telPg 0 + 0x100)) 0x300000200) up).latches = [(telPg 0 + 0x100, 0x200)] := by decide +kernel
theorem test_pair_plain : up.pairAt (.hart 0 .m) (insPg + 0x110) = true ∧ addrBlk (insPg + 0x110) = 1 ∧ writeReg 4 1 0 0x110 8 ≠ none ∧
    up.pairAt (.hart 0 .m) (insPg + 0x118) = false ∧ up.pairAt (.hart 0 .m) (insPg + 0x290) = false ∧ up.pairAt (.hart 0 .m) (beatPg 0 + 0x128) = false ∧
    RegFile.get (does (.pairHighWrite (.hart 0 .m) (BitVec.ofNat 64 (insPg + 0x114)) 3) { up with latches := [(insPg + 0x110, 5)] }).live (insPg + 0x110) = 0x300000005 := by decide +kernel
theorem test_no_pair : up.pairAt (.hart 0 .m) (insPg + 0x118) = false ∧ (does (.pairLowWrite (.hart 0 .m) (BitVec.ofNat 64 (insPg + 0x118)) 2) up).insState = 1 ∧
    up.pairAt (.hart 0 .m) (insPg + 0x114) = false := by decide +kernel

def drOf (op a : Nat) (v : Nat) : BitVec 112 := BitVec.ofNat 112 (v + 2 ^ 65 + op * 2 ^ 66 + a * 2 ^ 68)
theorem test_reg_access : reach up (insPg + 0x100) = true ∧ up.ctl.rxFifo = [] ∧ (does (.regAccess (drOf 1 (insPg + 0x1000) 0)) up).ctl.ir = 0x11 ∧
    (does (.regAccess (drOf 1 (topPg + 0x28) 0)) (lvs [(topPg + 0x28, 63, 0, 5), (secPg + 0x118, 10, 8, 1)] up)).ctl.lastRead = 5 ∧ (does (.regAccess (drOf 0 0 0)) up).ctl.lastRead = 0 := by decide +kernel
theorem test_reg_access_write : (does (.regAccess (drOf 2 (topPg + 0x20) 1)) (lvs [(secPg + 0x118, 10, 8, 1)] up)).lv (topPg + 0x20) 0 0 = 1 := by decide +kernel

/-! ### Management plane -/

/-- The receive and the transmit ring lie at 16 KiB and 1 MiB in HBM stack 0, which is READY; 16 slots each. -/
def rings (s : State) : State :=
  lvs [(hbmPg 0 + 0x100, 2, 0, 3), (ctlPg + 0x118, 0, 0, 0), (ctlPg + 0x300, 63, 0, 4 * 2 ^ 44 + 0x4000), (ctlPg + 0x310, 63, 0, 4 * 2 ^ 44 + 0x100000)] s
def mgmtPkt : Packet := pk ptMgmt 7 0 5 [1]
theorem test_mgmt : comesIn 0 mgmtPkt inUp = true ∧ mgmtRingOn (inUp.lv (ctlPg + 0x300) 63 0) = none ∧ comesIn 0 mgmtPkt (rings inUp) = true ∧
    mgmtRingOn ((rings inUp).lv (ctlPg + 0x300) 63 0) = some 4 ∧ (rings inUp).verdict .device true 0x4000 65 = .ok := by decide +kernel
theorem test_mgmt_full : comesIn 0 mgmtPkt (lvs [(ctlPg + 0x308, 63, 32, 16)] (rings inUp)) = true ∧
    ((lvs [(ctlPg + 0x308, 63, 32, 16)] (rings inUp)).mgmtIn mgmtPkt 0).lv (ctlPg + 0x320) 63 0 = 1 ∧
    ((rings inUp).mgmtIn mgmtPkt 0).lv (ctlPg + 0x308) 63 32 = 1 ∧ Memory.read ((rings inUp).mgmtIn mgmtPkt 0).mem 0x4040 = 1 := by decide +kernel
/-- While CAR is 1 the ring lies in the LLC; without CAR it needs its stack. -/
theorem test_mgmt_ring : ((rings inUp).cpWrite 0x4000 [1]).2 = true ∧ ((lvs [(ctlPg + 0x118, 0, 0, 1)] (rings inUp)).cpWrite 0x4000 [1]).2 = true ∧
    Memory.read ((lvs [(ctlPg + 0x118, 0, 0, 1)] (rings inUp)).mgmtIn mgmtPkt 0).ctl.llc 0x4040 = 1 ∧
    ((lvs [(hbmPg 0 + 0x100, 2, 0, 2)] (rings inUp)).cpWrite 0x4000 [1]).2 = false := by decide +kernel
theorem test_mgmt_tx : (does (.mgmtTx 1) up).lv (ctlPg + 0x318) 63 32 = 1 ∧ (does (.mgmtTx 1) (rings up)).lv (ctlPg + 0x318) 31 0 = 1 ∧
    (does (.mgmtTx 1) (rings up)).lv (ctlPg + 0x328) 63 0 = 1 ∧ (does (.mgmtTx 0) (rings up)).lv (ctlPg + 0x328) 63 0 = 0 := by decide +kernel
/-- A MGMT packet for node 3 stands in transmit slot 0. -/
def mgmtOut (s : State) : State := { rings s with mem := Memory.writeBytes [] 0x100000 ({ mgmtPkt with dst := 3 * 2 ^ 44 } : Packet).toBytes }
theorem test_mgmt_tx_sends : (Packet.ofBytes ((mgmtOut up).rawBytes 0x100000 17)).ptype = ptMgmt ∧ (Packet.ofBytes ((mgmtOut up).rawBytes 0x100000 17)).vc = 7 ∧
    (Packet.ofBytes ((mgmtOut up).rawBytes 0x100000 17)).ext = none ∧ (Packet.ofBytes ((mgmtOut up).rawBytes 0x100000 17)).length = 1 ∧
    ((mgmtOut routed).form 0 { mgmtPkt with dst := 3 * 2 ^ 44 } .table).2 ≠ .own := by decide +kernel
theorem test_mgmt_tx_own : ((mgmtOut inUp).form 0 mgmtPkt .table).2 = .own ∧
    (does (.mgmtTx 1) { rings up with mem := Memory.writeBytes [] 0x100000 mgmtPkt.toBytes }).lv (ctlPg + 0x308) 63 32 = 1 := by decide +kernel

/-- Management port 0 is UP; rings of 64 descriptors at 32 KiB and 64 KiB, descriptor 0 naming the buffer at 256 KiB. -/
def ethOn (s : State) : State :=
  { lvs [(hbmPg 0 + 0x100, 2, 0, 3), (ctlPg + 0x118, 0, 0, 0), (ethReg 0 0x400, 1, 0, 1), (ethReg 0 0x408, 1, 0, 2), (ethReg 0 0x410, 63, 0, 6 * 2 ^ 44 + 0x8000),
         (ethReg 0 0x420, 63, 0, 6 * 2 ^ 44 + 0x10000), (ethReg 0 0x418, 63, 32, 1)] s with
    mem := Memory.writeLE (Memory.writeLE [] 0x8000 8 0x40000) 0x10000 10 (0x40000 + 60 * 2 ^ 64) }
def frame60 : List Byte := List.replicate 60 3
theorem test_eth_rx : (ethOn up).ethUp 0 = true ∧ descRing ((ethOn up).lv (ethReg 0 0x410) 63 0) = some (6, 0x8000) ∧ inControlAll 0x40000 9216 = true ∧
    (ethOn up).verdict .device true 0x40000 60 = .ok ∧ ((ethOn up).poke 0x40000 frame60).verdict .device true 0x8008 3 = .ok ∧
    Memory.read (does (.mgmtEthRx 0 frame60 true) (ethOn up)).mem 0x40000 = 3 ∧ (does (.mgmtEthRx 0 frame60 true) (ethOn up)).lv (ethReg 0 0x418) 31 0 = 1 := by decide +kernel
theorem test_eth_rx_counted : (does (.mgmtEthRx 0 frame60 false) (ethOn up)).lv (ethReg 0 0x430) 63 0 = 1 ∧
    (does (.mgmtEthRx 0 (frame60.take 59) true) (ethOn up)).lv (ethReg 0 0x430) 63 0 = 1 ∧
    (does (.mgmtEthRx 0 frame60 true) (lvs [(ethReg 0 0x418, 63, 32, 0)] (ethOn up))).lv (ethReg 0 0x430) 63 0 = 1 ∧ (does (.mgmtEthRx 0 frame60 true) up).live = [] := by
  decide +kernel
def badBuffer (s : State) : State := { ethOn s with mem := Memory.writeLE [] 0x8000 8 (2 ^ 36) }
theorem test_eth_rx_bad_buffer : inControlAll (2 ^ 36) 9216 = false ∧ Memory.read (does (.mgmtEthRx 0 frame60 true) (badBuffer up)).mem 0x800A = 1 := by decide +kernel
theorem test_eth_cp_writes : ((ethOn up).cpWrite 0x40000 frame60).2 = true ∧ (((ethOn up).cpWrite 0x40000 frame60).1.cpWrite 0x8008 (leBytes 2 60 ++ [0])).2 = true ∧
    ((badBuffer up).cpWrite 0x8008 (leBytes 2 60 ++ [1])).2 = true := by decide +kernel
theorem test_eth_tx : (ethOn up).ethMaySend 0 = true ∧ leNat ((ethOn up).rawBytes 0x10008 2) = 60 ∧
    (does (.mgmtEthTx 0 1) (ethOn up)).sent = [.mgmtFrame 0 (List.replicate 60 0)] ∧ (does (.mgmtEthTx 0 1) (ethOn up)).lv (ethReg 0 0x428) 31 0 = 1 ∧
    (does (.mgmtEthTx 0 1) up).sent = [] := by decide +kernel
theorem test_eth_tx_bad : leNat ((badBuffer up).rawBytes 0x10008 2) = 0 ∧ (does (.mgmtEthTx 0 1) (badBuffer up)).sent = [] ∧
    Memory.read (does (.mgmtEthTx 0 1) (badBuffer up)).mem 0x1000A = 1 := by decide +kernel
theorem test_eth_pause : (does (.mgmtEthPauseRx 0 3) (ethOn up)).ctl.pause = [some 6, none] ∧ (does (.mgmtEthPauseRx 0 3) up).ctl.pause = [none, none] := by decide
def paused (ticks : Nat) : State := { ethOn up with ctl := { up.ctl with pause := [some 6, none] }, ticks := ticks }
theorem test_eth_pause_expire : (paused 6).lv (ethReg 0 0x428) 31 0 = (paused 6).lv (ethReg 0 0x428) 63 32 ∧
    (does (.mgmtEthPauseExpire 0) (paused 6)).ctl.pause = [none, none] ∧ (does (.mgmtEthPauseExpire 0) (paused 5)).ctl.pause = [some 6, none] := by decide
theorem test_eth_link : (does (.mgmtEthLinkChange 0 0) (ethOn up)).lv (ethReg 0 0x408) 6 0 = 0x40 ∧
    (does (.mgmtEthLinkChange 0 2) (lvs [(ethReg 0 0x408, 1, 0, 1)] (ethOn up))).lv (ethReg 0 0x408) 1 0 = 2 ∧
    (does (.mgmtEthLinkChange 0 2) (lvs [(ethReg 0 0x408, 1, 0, 0), (ethReg 0 0x400, 1, 0, 0)] (ethOn up))).lv (ethReg 0 0x408) 1 0 = 0 := by decide

/-! ### Ethernet ports -/

/-- Ethernet port 0 is UP; its VLAN 1 belongs to tenant 0, whose frames go to node 3. -/
def etherUp (s : State) : State :=
  cfgs [(lnkPg 0 + 0x4000, 15, 8, 0x80), (lnkPg 0 + 0xC000, 63, 0, 3 * 2 ^ 44), (lnkPg 0 + 0xC008, 23, 23, 1), (lnkPg 0 + 0x1068, 15, 0, 0x9000)] (liveAt 0 4 s)
def ethBytes (tag : Nat) (ty : Nat) (body : List Byte) : List Byte := List.replicate 12 0 ++ [0x81, 0] ++ (leBytes 2 tag).reverse ++ (leBytes 2 ty).reverse ++ body
theorem test_ether_frame : (etherUp up).vlanEntry 0 1 = 0x80 ∧ (etherUp up).ethTenant 0 0 = (3 * 2 ^ 44, 0, true) ∧ (frameHead (ethBytes 1 0x800 [])).1 = 0x800 ∧
    (frameHead (ethBytes 1 0x800 [])).2.1 = some 1 ∧ (does (.ethFrameRx 0 (ethBytes 1 0x800 (List.replicate 50 0)) false) (etherUp up)).lv (lnkPg 0 + 0x500) 63 0 = 1 ∧
    (does (.ethFrameRx 0 (ethBytes 2 0x800 (List.replicate 50 0)) true) (etherUp up)).lv (lnkPg 0 + 0x508) 63 0 = 1 ∧
    (does (.ethFrameRx 0 (ethBytes 4095 0x800 (List.replicate 50 0)) true) (etherUp up)).lv (lnkPg 0 + 0x508) 63 0 = 1 := by decide +kernel
theorem test_ether_long : (does (.ethFrameRx 0 (ethBytes 1 0x800 (List.replicate 8175 0)) true) (etherUp up)).lv (lnkPg 0 + 0x510) 63 0 = 1 := by decide +kernel
theorem test_ether_packet : (does (.ethFrameRx 0 (ethBytes 1 0x9000 readReq.toBytes) true) (etherUp up)).arrived =
      [{ port := 0, pkt := readReq, sop := 0, frame := some 46 }] ∧
    (does (.ethFrameRx 0 (ethBytes 1 0x9000 ((toOther ptMemWrite [1, 2]).toBytes.take 17)) true) (etherUp up)).lv (lnkPg 0 + 0x228) 63 0 = 1 ∧
    (does (.ethFrameRx 0 frame60 true) inUp).live = inUp.live := by decide +kernel
def etherRouted : State := { cfgs [(swcPg 0 + 0x1008, 23, 23, 1), (swcPg 0 + 0x8000, 1, 1, 1), (lnkPg 0 + 0x1010, 15, 8, 255)] (liveAt 1 1 (etherUp up)) with number := 1 }
def plainFrame : List Byte := ethBytes 1 0x800 (List.replicate 50 0)
def framePkt : Packet := mkPkt ptEthFrame (3 * 2 ^ 44) 0 0 0 0 0 plainFrame
theorem test_ether_queued : (etherRouted.arrive 0 framePkt true).2.isSome = true ∧ etherRouted.isOwn 0 framePkt = false ∧
    etherRouted.egress etherRouted.active 0 (some 0) framePkt = .port 1 false ∧ (etherRouted.admitIn 0 (some 1) framePkt).2.isSome = true := by decide +kernel
def frameIn (lp : Nat) : Packet := pk ptEthFrame 0 lp 5 (List.replicate 64 0)
theorem test_eth_frame : (inUp.arrive 0 (frameIn 9) false).2.isSome = true ∧ inUp.isOwn 0 (frameIn 9) = true ∧ inUp.placeOf 9 = none ∧ (frameIn 9).answered = false ∧
    (liveAt 1 4 inUp).placeOf 1 = some 1 ∧ (liveAt 1 4 inUp).portLive 1 = true ∧ ((liveAt 1 4 inUp).admitIn 0 (some 1) (frameIn 1)).2.isSome = true ∧
    (liveAt 1 4 inUp).staticRefuses 0 1 (frameIn 1) = false := by decide +kernel
theorem test_pfc_rx : ((does (.pfcFrameRx 0 2 64) (etherUp up)).port 0).paused = [(2, 64)] ∧ ((does (.pfcFrameRx 0 2 64) inUp).port 0).paused = [] ∧
    ((does (.pfcFrameRx 0 2 0) { etherUp up with ports := [(0, { Port.reset with paused := [(2, 64)] })] }).port 0).paused = [] := by decide
theorem test_pfc_expire : ((does (.pfcPauseExpire 0 2) { up with ports := [(0, { Port.reset with paused := [(2, 64)] })], ticks := 64 }).port 0).paused = [] ∧
    ((does (.pfcPauseExpire 0 2) { up with ports := [(0, { Port.reset with paused := [(2, 64)] })], ticks := 63 }).port 0).paused = [(2, 64)] := by decide
def pausingAt (ticks : Nat) : State := { etherUp up with ports := [(0, { Port.reset with pausing := [(2, 10)] })], ticks := ticks }
theorem test_pfc_send : (pausingAt 10).pfcPressed 0 2 = false ∧ (does (.pfcPauseSend 0 2) (pausingAt 10)).sent = [.pause 0 2 0] ∧
    (does (.pfcPauseSend 0 2) (etherUp up)).sent = [] := by decide +kernel
/-- VC2 of port 0 presses its lossless minimum, the pool at level 2. -/
def pressed : State := lvs [(levelAddr 0 0, 1, 0, 2)] (cfgs [(bpmPg 0 + 0x4010, 19, 0, 0)] (etherUp up))
theorem test_pfc_send_pressed : (does (.pfcPauseSend 0 2) pressed).sent = [.pause 0 2 0xFFFF] ∧
    (does (.pfcPauseSend 0 2) { pressed with ports := [(0, { Port.reset with pausing := [(2, 0)] })], ticks := 4095 }).sent = [] := by decide +kernel

/-! ### Adapter queues -/

/-- Queue 0 of group 0 belongs to ADAPTER port 0, which is UP, and holds one work request. -/
def adapterUp (s : State) : State :=
  { cfgs [(lnkPg 0 + 0xD010, 63, 0, 0x8066)] (liveAt 0 3 s) with adapters := [(0, { AdpQ.reset with sqTail := 1 })] }
def aWr (op len : Nat) : List Byte := leBytes 8 op ++ leBytes 8 0x1000 ++ leBytes 8 (3 * 2 ^ 44) ++ leBytes 40 len
/-- The bytes of the next work request have been read. -/
def adpRead (l : List Byte) (s : State) : State := { adapterUp s with adapters := [(0, { AdpQ.reset with sqTail := 1, wr := l })] }
theorem test_adp_start : (adapterUp up).adpUp 0 = true ∧ (adapterUp up).adpCqFull 0 = false ∧ (adapterUp up).holdsIngress 0 = false ∧ (adapterUp up).adpWork 0 = none ∧
    (WrImg.read (aWr 1 64)).clean = true ∧ (WrImg.read (aWr 1 64)).length = 64 ∧ (WrImg.read (aWr 2 64)).remote.toNat / 2 ^ 44 ≠ up.own ∧
    (does (.adpWrStart 0 0 0) { adapterUp up with fatal := true }).adapters = (adapterUp up).adapters := by decide +kernel
theorem test_adp_start_fetch : ((does (.adpWrStart 0 0 0) (adapterUp up)).adp 0).txs.map (fun x => leAt x.pkt.payload 0 4) = [64] ∧
    ((does (.adpWrStart 0 0 0) (adapterUp up)).adp 0).cur = none := by decide +kernel
theorem test_adp_start_null : ((does (.adpWrStart 0 0 0) (adpRead (aWr 1 0) up)).adp 0).done = [(1, 0, 0, 0)] ∧
    (does (.adpWrStart 0 0 0) (adpRead (aWr 2 0) up)).lv (lnkPg 0 + 0x118) 63 0 = 1 ∧ ((does (.adpWrStart 0 0 0) (adpRead (aWr 3 0) up)).adp 0).done = [(8, 0, 0, 0)] ∧
    ((does (.adpWrStart 0 0 0) (adpRead (aWr 0x101 64) up)).adp 0).done = [(8, 0, 0, 0)] := by decide +kernel
theorem test_adp_start_moves : ((does (.adpWrStart 0 0 0) (adpRead (aWr 1 64) up)).adp 0).cur = some (1, 0, 0, 0) ∧
    ((does (.adpWrStart 0 0 0) (adpRead (aWr 2 64) up)).adp 0).cur = some (2, 0, 0, 0) := by decide +kernel
def adpTrans (tries : Nat) : AdpTx :=
  { tag := 9, pkt := readReq, status := 0, chunk := 0, landing := false, held := false, wid := 0, total := 0, rows := 0, counts := [], tries := tries, tick := 0 }
def adpWaiting (tries ticks : Nat) : State :=
  { adapterUp up with adapters := [(0, { AdpQ.reset with sqTail := 1, cur := some (1, 0x77, 0, 0), txs := [adpTrans tries] })], ticks := ticks }
theorem test_adp_retry : up.cfg (lnkPg 0 + 0x1060) 31 0 = 16384 ∧ up.cfg (lnkPg 0 + 0x1060) 39 32 = 4 ∧
    ((does (.adpRetry 0 0 9) (adpWaiting 4 16384)).adp 0).done = [(9, 0, 0x77, 0)] ∧ ((does (.adpRetry 0 0 9) (adpWaiting 4 16383)).adp 0).txs = [adpTrans 4] ∧
    ((does (.adpRetry 0 0 8) (adpWaiting 4 16384)).adp 0).txs = [adpTrans 4] := by decide +kernel
theorem test_adp_retry_again : ((does (.adpRetry 0 0 9) (adpWaiting 3 16384)).adp 0).txs.map (fun x => (x.tries, x.tick)) = [(4, 16384)] := by decide +kernel
def adpOwing (s : State) : State := { s with adapters := [(0, { AdpQ.reset with sqTail := 1, done := [(0, 0, 0x77, 64)] })] }
theorem test_adp_completion : (adpOwing (adapterUp up)).adpUp 0 = true ∧ (adpOwing (adapterUp up)).adpCqFull 0 = false ∧
    (does (.adpCompletionWrite 0 0) (adapterUp up)).adapters = (adapterUp up).adapters ∧ (does (.adpCompletionWrite 0 0) (adpOwing up)).adapters = (adpOwing up).adapters ∧
    (({ adapterUp up with adapters := [(0, { AdpQ.reset with cqTail := 64 })] } : State)).adpCqFull 0 = true := by decide +kernel

/-! ### Scheduling and what leaves -/

/-- A packet of 1 byte for node 3 stands in the queue of port 0. -/
def queued (vc : Nat) : QPkt :=
  { id := 1, pkt := { toOther ptMemWrite [1] with vc := BitVec.ofNat 3 vc }, die := 0, alloc := 1, ingress := none, tick := 0, mcast := none, since := none, escCnt := false, escaped := none, stomp := false }
def queueUp (vc : Nat) (s : State) : State := { s with ports := [(0, { Port.reset with queue := [queued vc], granted := List.replicate 8 4 })] }
def selOf (vc : Vc) : QueueSel := { vc := vc, cls := 0, part := 0, child := none }

theorem test_scheduler : (queueUp 0 inUp).heads 0 = [queued 0] ∧ (queueUp 0 inUp).eligible 0 (queued 0) = true ∧ ((queueUp 0 inUp).pickPacket 0).isSome = true := by decide +kernel
theorem test_packet_select : (queueUp 0 inUp).portLive 0 = true ∧ (does (.packetSelect 0) (queueUp 0 inUp)).sent.map Emit.body = [some (.data (queued 0).pkt 0 false)] ∧
    ((does (.packetSelect 0) (queueUp 0 inUp)).port 0).queue = [] ∧ ((does (.packetSelect 0) { queueUp 0 inUp with fatal := true }).port 0).queue = [queued 0] ∧
    (does (.packetSelect 0) inUp).sent = [] := by decide +kernel
theorem test_packet_select_flits : ((does (.packetSelect 0) (queueUp 0 inUp)).port 0).unacked.map (fun f => (f.seq, f.eop)) = [(0, true)] ∧
    (queued 0).pkt.payload.length ≤ (queueUp 0 inUp).peerMax 0 := by decide +kernel
theorem test_packet_select_frame : (queueUp 0 (etherUp up)).portMode 0 = 4 ∧ ((does (.packetSelect 0) (queueUp 0 (etherUp up))).sent.length) = 1 := by decide +kernel
def aged (limit ticks : Nat) : State := { queueUp 0 (cfgs [(swcPg 0 + 0x1040, 31, 0, limit)] (liveAt 0 1 up)) with ticks := ticks }
theorem test_age_drop : (aged 10 11).headAt 0 (selOf 0) = some (queued 0) ∧ (aged 10 11).lossless 0 0 = false ∧ (does (.ageDrop 0 (selOf 0)) (aged 10 11)).lv (swcPg 0 + 0x128) 63 0 = 1 ∧
    ((does (.ageDrop 0 (selOf 0)) (aged 10 10)).port 0).queue = [queued 0] ∧ (aged 10 11).headAt 0 (selOf 1) = none := by decide +kernel
/-- The head of port 0's VC0 has waited 100 beats for credit. -/
def waitedQ : QPkt := { queued 0 with since := some 0 }
def waitedUp (esc : Bool) (ticks : Nat) : State :=
  { cfgs ((swcPg 0 + 0x1018, 31, 0, 100) :: if esc then [(swcPg 0 + 0x1008, 55, 55, 1), (swcPg 0 + 0x1008, 63, 56, 1)] else []) (liveAt 1 1 inUp) with
    ports := [(0, { Port.reset with queue := [waitedQ] }), (1, { Port.reset with granted := List.replicate 8 4 })], ticks := ticks }
theorem test_escape_move : (waitedUp true 100).escapePort waitedQ = some 1 ∧ (waitedUp true 100).lacksCredit 0 waitedQ = true ∧ (waitedUp true 100).txCredit 1 6 = 4 ∧
    ((does (.escapeMove 0 (selOf 0)) (waitedUp true 100)).port 1).queue.map (fun q => (q.pkt.vc, q.escaped)) = [(6, some 0)] ∧
    ((does (.escapeMove 0 (selOf 0)) (waitedUp true 99)).port 0).queue = [waitedQ] := by decide +kernel
theorem test_escape_blocked : (waitedUp false 100).escapePort waitedQ = none ∧ (does (.escapeMove 0 (selOf 0)) (waitedUp false 100)).lv (swcPg 0 + 0x138) 63 0 = 1 ∧
    ((does (.escapeMove 0 (selOf 0)) { waitedUp true 100 with ports := [(0, { Port.reset with queue := [waitedQ] })] }).port 0).queue = [waitedQ] := by decide +kernel
/-- The head's flow has a packet on VC6 already, at port 1. -/
def escapedFirst : State :=
  { waitedUp true 99 with ports := [(0, { Port.reset with queue := [{ queued 0 with id := 2, since := some 0 }] }),
      (1, { Port.reset with granted := List.replicate 8 4, queue := [{ queued 6 with escaped := some 0 }] })] }
theorem test_escape_follows : escapedFirst.escapedAhead { queued 0 with id := 2, since := some 0 } = some 1 ∧
    ((does (.escapeMove 0 (selOf 0)) escapedFirst).port 1).queue.map (·.id) = [1, 2] := by decide +kernel
theorem test_shaper_words : fld (((cfgs [(schPg 0 + 0x5000, 23, 0, 3125), (schPg 0 + 0x5000, 55, 32, 9)] inUp)).shaperCfg 0 0) 23 0 = 3125 ∧
    bucketTick ((cfgs [(schPg 0 + 0x5000, 23, 0, 3125), (schPg 0 + 0x5000, 55, 32, 9)] inUp).shaperCfg 0 0) 0 = 65536 ∧
    bucketTick ((cfgs [(schPg 0 + 0x5000, 23, 0, 3125), (schPg 0 + 0x5000, 55, 32, 9)] inUp).shaperCfg 0 0) 589824 = 589824 := by decide +kernel
def flushed (l : List HeldPkt) : State := { inUp with ports := [(0, { Port.reset with flushing := true, flushHeld := l })] }
def heldOut : HeldPkt := { pkt := toOther ptMemWrite [1], port := 0, tick := 0, die := 0, alloc := 1, id := 0, via := .table }
theorem test_flush_end : ((does (.flushEnd 0) (flushed [])).port 0).flushing = false ∧ ((flushed [heldOut]).port 0).flushHeld = [heldOut] ∧
    ((does (.flushEnd 0) { flushed [] with fatal := true }).port 0).flushing = true ∧ (does (.flushEnd 0) inUp).ports = [] := by decide
def earlyAt (ticks : Nat) : State := { inUp with ports := [(0, { Port.reset with early := [heldOut] })], ticks := ticks }
theorem test_early_tag : inUp.lv (insPg + 0x120) 31 0 = 65536 ∧ ((does (.earlyTagExpire 0) (earlyAt 65536)).port 0).early = [] ∧
    ((does (.earlyTagExpire 0) (earlyAt 65535)).port 0).early = [heldOut] := by decide +kernel

/-! ### The mesh -/

def link (a b st : Nat) (s : State) : State := lvs [(swcPg a + 0xE00, 4 * b + 3, 4 * b, st), (swcPg b + 0xE00, 4 * a + 3, 4 * a, st)] s
theorem test_path_move : (link 0 1 2 up).linkState 0 1 = 2 ∧ (does (.d2dPathMove 0 1) (link 0 1 2 up)).lv (swcPg 0 + 0xE04) 7 4 = 8 ∧
    (does (.d2dPathMove 0 1) (link 0 1 3 (link 0 2 2 (link 1 2 2 up)))).lv (swcPg 0 + 0xE04) 7 4 = 2 ∧
    (does (.d2dPathMove 0 1) (link 0 1 3 (link 0 2 3 (link 0 3 3 up)))).lv (swcPg 0 + 0xE04) 7 4 = 0xA ∧ (does (.d2dPathMove 0 0) up).live = [] := by decide +kernel
theorem test_link_up : (link 0 1 1 up).linkState 0 1 = 1 ∧ (does (.d2dLinkUp 0 1) (link 0 1 1 up)).linkState 1 0 = 2 ∧ up.linkState 0 4 = 1 ∧
    (does (.d2dLinkUp 0 4) up).lv (swcPg 0 + 0xE00) 19 16 = 2 ∧ (does (.d2dLinkUp 0 1) (link 0 1 3 up)).linkState 0 1 = 3 := by decide +kernel
/-- The link of dies 0 and 1 trains again, under the check of a fence. -/
def linkChecked : State :=
  { link 0 1 1 up with collectors := { Collector.reset with entries := [(0, { fEntry (d2dUnit 0 1) 3 with checking := some true })], fenced := [d2dUnit 0 1] } ::
      { Collector.reset with fenced := [d2dUnit 1 0] } :: List.replicate 2 Collector.reset }
theorem test_link_check : linkChecked.linkOut 0 1 = true ∧ linkChecked.checking (d2dUnit 0 1) = true ∧ linkChecked.checkLate (d2dUnit 0 1) = false ∧
    (does (.d2dLinkUp 0 1) linkChecked).linkState 0 1 = 2 ∧ (does (.d2dLinkUp 0 1) linkChecked).linkOut 1 0 = false := by decide +kernel
theorem test_link_fenced_trains : ({ linkChecked with collectors := { Collector.reset with fenced := [d2dUnit 0 1] } :: List.replicate 3 Collector.reset } : State).linkOut 0 1 = true ∧
    (does (.d2dLinkUp 0 1) { linkChecked with collectors := { Collector.reset with fenced := [d2dUnit 0 1] } :: List.replicate 3 Collector.reset }).linkState 0 1 = 1 := by decide +kernel
theorem test_link_timeout : (does (.d2dLinkTimeout 0 1) { link 0 1 1 up with ticks := 781250 }).linkState 0 1 = 3 ∧
    (does (.d2dLinkTimeout 0 1) { link 0 1 1 up with ticks := 781249 }).linkState 0 1 = 1 := by decide +kernel

/-! ### Telemetry -/

/-- A window begins at this beat; die 0's ring has 4 blocks in stack 0, which is READY. -/
def windowAt (blocks : Nat) (beat : Nat) : State :=
  { lvs [(telPg 0 + 0x108, 31, 0, blocks), (hbmPg 0 + 0x100, 2, 0, 3)] up with beat := BitVec.ofNat 64 beat }
theorem test_window : up.winLen = 4096 ∧ (windowAt 0 4096).tel.winBeat ≠ (windowAt 0 4096).beat ∧ (windowAt 4 4096).lv (telPg 1 + 0x108) 31 0 = 0 ∧
    (does .telWindowEnd (windowAt 0 4096)).tel.winBeat = 4096 ∧ (does .telWindowEnd (windowAt 0 4095)).tel.winBeat = 0 := by decide +kernel
theorem test_window_full : (does .telWindowEnd { windowAt 4 4096 with tel := { up.tel with writing := [true, false, false, false] } }).lv (telPg 0 + 0x120) 63 0 = 1 := by
  decide +kernel
def blockWriting : State := { up with tel := { up.tel with writing := [true, false, false, false] } }
theorem test_block_done : (does (.telBlockWriteDone 0 true) blockWriting).lv (telPg 0 + 0x110) 63 0 = 1 ∧ (does (.telBlockWriteDone 1 true) blockWriting).live = [] ∧
    (does (.telBlockWriteDone 0 false) blockWriting).tel.skipped = [true, false, false, false] ∧ (does (.telBlockWriteDone 0 false) blockWriting).lv (telPg 0 + 0x18) 0 0 = 1 := by
  decide +kernel
theorem test_ring_config : (does (.telRingConfigWrite 0 true 5) (lvs [(telPg 0 + 0x110, 63, 0, 9)] up)).lv (telPg 0 + 0x110) 63 0 = 0 ∧
    (does (.telRingConfigWrite 0 true 5) up).lv (telPg 0 + 0x108) 31 0 = 5 ∧ (does (.telRingConfigWrite 0 false 0x100) up).lv (telPg 0 + 0x100) 43 0 = 0x100 := by decide +kernel
theorem test_map_close : (windowAt 0 4096).cfg (telPg 0 + 0x1018) 0 0 = 0 ∧ (windowAt 0 4096).tel.mapBeat = 0 ∧ (does .congMapClose (windowAt 0 4095)).tel.mapBeat = 0 ∧
    (cfgs [(telPg 0 + 0x1018, 1, 1, 1)] up).cfg (telPg 0 + 0x1018) 1 1 = 1 := by decide +kernel

/-! ### Buffer pools -/

theorem test_block_return : up.ptrReason 0 0xFFFFFFFF (.portVc 0) ≠ 0 ∧ (does (.blockReturn 0 0xFFFFFFFF 5 (.portVc 0)) up).lv (bpmPg 0 + 0x410) 63 0 = 1 ∧
    (does (.blockReturn 0 0xFFFFFFFF 5 (.portVc 0)) up).lv (bpmPg 0 + 0x418) 63 32 = 5 ∧
    (does (.blockReturn 0 0xFFFFFFFF 5 (.portVc 0)) (lvs [(bpmPg 0 + 0x420, 0, 0, 1)] up)).lv (bpmPg 0 + 0x418) 63 0 = 0 := by decide +kernel
def allocated : State := { up with allocs := [{ id := 1, die := 0, region := 0, owner := .portVc 0, blocks := [(0, 5)], esc := 0 }] }
theorem test_block_return_ok : allocated.ptrReason 0 5 (.portVc 0) = 0 ∧ allocated.stalled = [] := by decide +kernel
/-- A block of cluster 0's region, which is fenced, comes back. -/
def fencedRegion : State :=
  { collected [] [clusterUnit 0] up with allocs := [{ id := 1, die := 0, region := 1, owner := .rm 0 none 0, blocks := [(0, 5)], esc := 0 }] }
theorem test_block_return_out : fencedRegion.regionUp 0 = false ∧ (does (.blockReturn 0 (2 ^ 28 + 5) 5 (.rm 0 none 0)) fencedRegion).lv (bpmPg 0 + 0x410) 63 0 = 0 ∧
    (does (.blockReturn 0 (2 ^ 28 + 5) 5 (.rm 0 none 0)) fencedRegion).allocs.all (fun a => a.blocks.isEmpty) = true := by decide +kernel
theorem test_credit_grant : (does (.creditGrant 0 2) inUp).sent.length = 1 ∧ (does (.creditGrant 0 2) { inUp with fatal := true }).ports = [] := by decide +kernel
def aParked : Parked := { cluster := 0, die := 0, port := 0, pkt := contrib, alloc := 1, tick := 0, src := none }
theorem test_parked_offer : up.level 0 1 0 < 2 ∧ (does (.parkedOffer 0) up).parked = [] ∧ ({ up with parked := [aParked] } : State).parked.length = 1 ∧
    (does (.parkedOffer 1) { up with parked := [aParked] }).parked = [aParked] := by decide +kernel
def ctxOf (ph : Phase) (dg : List Byte) (q : List Input) (s : Dev) : Ctx :=
  { aCtx ph s with digest := dg, result := [1, 2], params := some { Params.none with length := 4, fmt := 0x0E }, passQ := q }
theorem test_retain_retry : (up.retainCells (ctxOf .retainWait [] [] up.toDev) 4).2.isSome = true ∧ (up.retainCells (ctxOf .retainWait [1] [] up.toDev) 2).2.isSome = true ∧
    (does (.retainRetry key4) { grouped up with ctxs := [ctxOf .complete [] [] up.toDev] }).ctxs = [ctxOf .complete [] [] up.toDev] := by decide +kernel
theorem test_spill_pass : ({ grouped up with ctxs := [ctxOf .open [] [vc6Input] up.toDev] } : State).epochAny 7 1 = some (anEpoch 1) ∧
    (ctxOf .open [] [vc6Input] up.toDev).route = none ∧
    (does (.spillPass key4) { grouped up with ctxs := [ctxOf .open [] [] up.toDev] }).ctxs = [ctxOf .open [] [] up.toDev] := by decide +kernel

/-! ### Threads -/

/-- Thread 0 runs at the start of its core's working SRAM; counters 1 and 2 hold 5 and 7. -/
def thr0 : Thread := { Thread.reset with state := 2, pc := 0x80000000000, word := 0x80000000000, ctrs := [0, 5, 7] ++ List.replicate 13 0, vl := 4 }
def busyWith (x : Thread) : State := { up with threads := [(0, x)] }
def busy : State := busyWith thr0
/-- The guard is 0. -/
def scOff : SlotCtx := { sc0 with neg := true }
/-- Operand bits of a control slot. -/
def ctlX (c a b k p imm : Nat) : BitVec 52 := BitVec.ofNat 52 (c * 2 ^ 48 + a * 2 ^ 44 + b * 2 ^ 40 + k * 2 ^ 37 + p * 2 ^ 34 + imm)
def thr (s : State) : Thread := s.thread 0
/-- What a control slot leaves in thread 0. -/
def ctl0 (c : SlotCtx → BitVec 52 → Instr) (x : BitVec 52) : Thread := thr (does (c sc0 x) busy)

theorem test_slot_premises : busy.canIssue 0 = true ∧ sc0.last = true ∧ thr0.pend = [] ∧ thr0.wait = none ∧ pcOk 0 thr0.pc.toNat = true ∧
    busy.verdict (.part (busy.corePart 0)) false thr0.pc.toNat 2 = .ok ∧ xor (thr0.pred 0) sc0.neg = true ∧ xor (thr0.pred 0) scOff.neg = false := by decide
theorem test_slot_idle : up.canIssue 0 = false ∧ (does (.cset sc0 5) up).threads = [] ∧ (does (.vadd sc0 false 5) up).threads = [] := by decide
theorem test_slot_bad_pc : pcOk 0 0x80000200000 = false ∧ (thr (does (.cset sc0 5) (busyWith { thr0 with pc := 0x80000200000 }))).state = 4 ∧
    (thr (does (.sort sc0 5) (busyWith { thr0 with pc := 0x80000200000 }))).reason = 3 := by decide
/-- The thread runs in HBM, where its second burst is bad; the fetch of a word there is counted. -/
def fetching (bad : List Nat) : State := { ready (busyWith { thr0 with pc := BitVec.ofNat 44 (2 ^ 36) }) with memSt := { up.memSt with bad := bad } }
theorem test_slot_fetch : pcOk 0 (2 ^ 36) = true ∧ (fetching [2 ^ 36 + 64]).badBurst (2 ^ 36) 10 = none ∧ (fetching [2 ^ 36]).badBurst (2 ^ 36) 10 = some (2 ^ 36) ∧
    (does (.cset sc0 (ctlX 1 0 0 0 0 9)) (fetching [])).lv (hbmPg 0 + 0x130) 63 0 = 10 ∧ (thr (does (.cset sc0 (ctlX 1 0 0 0 0 9)) (fetching [2 ^ 36]))).state = 4 := by decide +kernel
theorem test_slot_guard : (thr (does (.cset scOff (ctlX 1 0 0 0 0 9)) busy)).ctr 1 = 5 ∧ (thr (does (.cset scOff (ctlX 1 0 0 0 0 9)) busy)).pc = 0x8000000000A := by decide
theorem test_slot_reserved : (ctl0 .cset (BitVec.ofNat 52 (2 ^ 48 + 2 ^ 32))).last = 8 ∧ (ctl0 .cset (BitVec.ofNat 52 (2 ^ 48 + 2 ^ 32))).ctr 1 = 5 := by decide
theorem test_cset : (ctl0 .cset (ctlX 1 0 0 0 0 0xFFFFFFFF)).ctr 1 = 0xFFFFFFFFFFFFFFFF := by decide
theorem test_csethi : (ctl0 .csethi (ctlX 1 0 0 0 0 3)).ctr 1 = 0x300000005 := by decide
theorem test_cadd : (ctl0 .cadd (ctlX 3 1 2 0 0 0xFFFFFFFF)).ctr 3 = 11 := by decide
theorem test_caddi : (ctl0 .caddi (ctlX 1 2 0 0 0 1)).ctr 1 = 8 := by decide
theorem test_cmuli : (ctl0 .cmuli (ctlX 1 2 0 0 0 3)).ctr 1 = 21 := by decide
theorem test_cshl : (ctl0 .cshl (ctlX 1 2 0 0 0 65)).ctr 1 = 14 := by decide
theorem test_cshr : (ctl0 .cshr (ctlX 1 2 0 0 0 1)).ctr 1 = 3 := by decide
theorem test_cmpset : ((ctl0 .cmpset (ctlX 5 1 2 3 4 1)).cmp 3) = { a := 1, rel := 5, b := 2, imm := 1, target := 4 } ∧ (ctl0 .cmpset (ctlX 6 1 2 3 4 1)).last = 8 := by decide
theorem test_cmprun : (ctl0 .cmprun (ctlX 0 0 0 0 0 0)).last = 1 ∧ (ctl0 .cmprun (ctlX 0 0 0 0 0 256)).last = 8 ∧
    (thr (does (.cmprun sc0 255) (busyWith { thr0 with cmps := thr0.cmps.set 7 { a := 1, rel := 2, b := 2, imm := 0, target := 3 } }))).pend.length = 1 := by decide
theorem test_setvl : (ctl0 .setvl (ctlX 0 1 0 0 0 1000)).pend = [{ vis := 2, order := 0, w := .vl 256 }] := by decide
theorem test_jmp : (ctl0 .jmp (ctlX 0 0 0 0 0 0xFFFFFFFF)).pc = 0x80000000008 := by decide
theorem test_jmpc : (ctl0 .jmpc (ctlX 0 1 0 0 0 0)).pc = 4 := by decide

def objBusy (kind target val : Nat) (x : Thread) : State :=
  { objects kind target (busyWith x) with cores := [(0, { CoreSt.reset with objs := [(0, (BitVec.ofNat 32 val, 0))] })] }
/-- Counter 3 is 0: it names object 0. -/
theorem test_waitobj : (thr (does (.waitobj sc0 (ctlX 0 3 1 0 2 0)) (objBusy 0 0 5 thr0))).state = 2 ∧
    (thr (does (.waitobj sc0 (ctlX 0 3 1 0 2 0)) (objBusy 0 0 5 thr0))).pend = [{ vis := 2, order := 0, w := .pred 2 true }] ∧
    (thr (does (.waitobj sc0 (ctlX 0 3 1 0 2 0)) (objBusy 0 0 4 thr0))).state = 3 := by decide +kernel
theorem test_waitobj_take : ((does (.waitobj sc0 (ctlX 1 3 1 0 2 0)) (objBusy 1 0 9 thr0)).obj 0).1 = 4 ∧ objKind ((objBusy 1 0 9 thr0).objCfg 0) = 1 ∧
    (thr (does (.waitobj sc0 (ctlX 3 3 1 0 2 0)) (objBusy 1 0 9 thr0))).last = 8 ∧ (thr (does (.waitobj sc0 (ctlX 1 3 1 0 2 0)) (objBusy 0 0 9 thr0))).last = 8 := by decide +kernel
theorem test_waitobj_fenced : ({ busy with collectors := { Collector.reset with fenced := [coreUnit 1] } :: List.replicate 3 Collector.reset } : State).coreUp 1 = false := by decide
def alignedBusy (x : Thread) (beat : Nat) : State := { timeAt 2 1 1 (busyWith x) with beat := BitVec.ofNat 64 beat }
theorem test_waitbeat : (thr (does (.waitbeat sc0 (ctlX 0 1 0 0 2 0)) (alignedBusy thr0 4))).state = 3 ∧ (thr (does (.waitbeat sc0 (ctlX 0 1 0 0 2 0)) (alignedBusy thr0 5))).last = 0 ∧ (thr (does (.waitbeat sc0 (ctlX 0 1 0 0 2 0)) (alignedBusy thr0 6))).state = 2 ∧
    (does (.waitbeat sc0 (ctlX 0 1 0 0 2 0)) (alignedBusy thr0 6)).lv (beatPg 0 + 0x1B0) 63 0 = 1 ∧ (ctl0 .waitbeat (ctlX 0 1 0 0 2 0)).last = 9 := by decide +kernel
theorem test_waitbeat_now : (thr (does (.waitbeat sc0 (ctlX 0 1 0 0 2 0)) (alignedBusy thr0 5))).state = 2 ∧
    (does (.waitbeat sc0 (ctlX 0 1 0 0 2 0)) (alignedBusy thr0 5)).lv (beatPg 0 + 0x1B0) 63 0 = 0 := by decide +kernel
theorem test_waitcnt : (ctl0 .waitcnt (ctlX 0 2 1 0 2 2)).state = 2 ∧ (ctl0 .waitcnt (ctlX 0 2 1 0 2 3)).state = 3 := by decide +kernel
def waiting (on : Wait) (ticks : Nat) : State :=
  { cfgs [(corePg 0 + 0x1008, 31, 0, 100)] (busyWith { thr0 with state := 3, wait := some { on := on, p := 2, start := 0 } }) with ticks := ticks }
theorem test_wait_timeout : (thr (does (.waitTimeout 0) (waiting (.cnt 1 9) 100))).state = 2 ∧ (thr (does (.waitTimeout 0) (waiting (.cnt 1 9) 100))).last = 9 ∧
    (thr (does (.waitTimeout 0) (waiting (.cnt 1 9) 99))).state = 3 ∧ (thr (does (.waitTimeout 0) (waiting (.beat 9) 100))).state = 3 ∧ (thr (does (.waitTimeout 0) busy)).state = 2 := by
  decide +kernel
theorem test_signal : ((does (.signal sc0 (ctlX 0 3 0 0 0 4)) (objBusy 0 0 5 thr0)).obj 0) = (9, 0) ∧ ((does (.signal sc0 (ctlX 0 3 0 0 0 4)) (objBusy 2 9 5 thr0)).obj 0) = (0, 1) ∧
    ((does (.signal sc0 (ctlX 0 3 0 0 0 3)) (objBusy 2 9 5 thr0)).obj 0) = (8, 0) ∧ (thr (does (.signal sc0 (ctlX 0 3 0 0 0 0)) (objBusy 0 0 5 thr0))).last = 1 ∧
    (ctl0 .signal (ctlX 0 3 0 0 0 4)).last = 8 := by decide +kernel
theorem test_signal_away : (2 ^ 44 : Nat) / 2 ^ 44 ≠ busy.own ∧ bits (2 ^ 44) 43 16 = 0 ∧ (2 ^ 45 : Nat) / 2 ^ 44 = 2 := by decide +kernel
theorem test_launch : ((does (.launch sc0 (ctlX 0 1 2 0 0 1)) busy).thread 5).state = 1 ∧ ((does (.launch sc0 (ctlX 0 1 2 0 0 1)) busy).thread 5).pc = 6 ∧ busy.startable 5 = true ∧
    ((does (.launch sc0 (ctlX 0 1 2 0 0 0x20)) (alignedBusy thr0 6)).thread 5).launchAt = some 7 ∧ (ctl0 .launch (ctlX 0 1 2 0 0 2)).last = 8 ∧
    (thr (does (.launch sc0 (ctlX 0 3 2 0 0 1)) busy)).last = 8 := by decide +kernel
theorem test_launch_now : ((does (.launch sc0 (ctlX 0 1 2 0 0 0x20)) (alignedBusy thr0 7)).thread 5).launchAt = none ∧
    ((does (.launch sc0 (ctlX 0 1 2 0 0 0x20)) (alignedBusy thr0 7)).thread 5).state = 1 := by decide +kernel
def sramAt (a : Nat) (l : List Byte) (s : State) : State := { s with mem := Memory.writeBytes s.mem (0x80000000000 + a) l }
/-- A descriptor image of a format, with dimension sizes, at a base; valid. -/
def descImg (fmt base : Nat) (sizes : List Nat) (valid : Bool) : List Byte :=
  leBytes 8 base ++ [BitVec.ofNat 8 fmt, BitVec.ofNat 8 (sizes.length + if valid then 128 else 0)] ++ List.replicate 6 0 ++ fit (sizes.flatMap (leBytes 2)) 8 ++
    leBytes 40 ((2 ^ 16) * 0)
def pointer (a : Nat) : Thread := { thr0 with ctrs := [0, BitVec.ofNat 64 (0x80000000000 + a), 7] ++ List.replicate 13 0 }
theorem test_desc : busy.descStatus (descImg 0x0E 0x80000000000 [4] false) = 0 ∧ (Desc.read (descImg 0x0E 0x80000000000 [4] false)).valid = false ∧
    ((does (.desc sc0 (ctlX 0 1 0 0 0 3)) (sramAt 64 (descImg 0x0E 0x80000000000 [4] false) (busyWith (pointer 64)))).core 0).descPend.map (·.1) = [3] ∧
    (thr (does (.desc sc0 (ctlX 0 1 0 0 0 3)) (busyWith (pointer 8)))).last = 8 := by decide +kernel
theorem test_sync : (ctl0 .sync 0).syncing = true := by decide
theorem test_halt : (ctl0 .halt 0).state = 0 ∧ (ctl0 .halt 0).reason = 1 := by decide
theorem test_cqhead : (does (.cqhead sc0 (ctlX 0 1 0 0 0 0)) busy).lv (corePg 0 + 0x218) 31 0 = 5 := by decide

theorem test_thread_start : up.startable 0 = true ∧ (thr (does (.threadStart 0 0x80000000003) up)).pc = 0x80000000002 ∧ (thr (does (.threadStart 0 0x80000000002) up)).state = 2 ∧
    (thr (does (.threadStart 0 0x80000000002) { up with threads := [(0, { Thread.reset with outstanding := 1 })] })).state = 1 ∧ busy.startable 0 = false ∧
    (thr (does (.threadStart 0 2) busy)).pc = thr0.pc := by decide
theorem test_thread_stop : (thr (does (.threadStop 0) busy)).state = 0 ∧ (thr (does (.threadStop 0) busy)).reason = 2 ∧ (does (.threadStop 0) up).threads = [] := by decide
def pendingThr (l : Option (BitVec 64)) : State := { timeAt 2 1 1 up with threads := [(0, { Thread.reset with state := 1, launchAt := l })], beat := 50 }
theorem test_pending_run : (thr (does (.threadPendingRun 0) (pendingThr none))).state = 2 ∧ (thr (does (.threadPendingRun 0) (pendingThr (some 50)))).state = 1 := by decide
theorem test_beat_launch : (thr (does (.beatLaunch 0) (pendingThr (some 50)))).state = 2 ∧ (thr (does (.beatLaunch 0) (pendingThr (some 51)))).state = 1 ∧
    (thr (does (.beatLaunch 0) { timeAt 2 1 1 (waiting (.beat 9) 9) with beat := 9 })).state = 2 ∧ (thr (does (.beatLaunch 0) { timeAt 2 1 1 (waiting (.beat 9) 9) with beat := 8 })).state = 3 := by
  decide
theorem test_word_skip : (thr (does (.wordSkip 0 0x0803) busy)).pc = 0x80000000012 ∧ (thr (does (.wordSkip 0 0x0003) busy)).pc = thr0.pc ∧
    (thr (does (.wordSkip 0 0x0803) { busy with fatal := true })).pc = thr0.pc := by decide
theorem test_word_empty : (thr (does (.wordEmpty 0 0) busy)).pc = 0x80000000002 ∧ (thr (does (.wordEmpty 0 1) busy)).pc = thr0.pc := by decide
theorem test_word_malformed : (thr (does (.wordMalformed 0 0x1000) busy)).state = 4 ∧ (thr (does (.wordMalformed 0 0x0FFF) busy)).state = 2 := by decide
def syncingWith (l : List PendWrite) : State := busyWith { thr0 with syncing := true, pend := l }
theorem test_sync_publish : Memory.read (does (.syncPublish 0) (syncingWith [⟨9, 0, .mem 0x80000000040 [7]⟩])).mem 0x80000000040 = 7 ∧
    ((does (.syncPublish 0) { syncingWith [] with cores := [(0, { CoreSt.reset with descPend := [(3, (0, [1]))] })] }).core 0).descs = [(3, [1])] ∧
    (does (.syncPublish 0) busy).threads = busy.threads := by decide +kernel
theorem test_core_reset : (does (.coreCtrlReset 0 true) busy).lv (corePg 0 + 0x100) 0 0 = 1 ∧ (thr (does (.coreCtrlReset 0 true) busy)).state = 0 ∧
    ((does (.coreCtrlReset 0 false) { up with cores := [(0, { CoreSt.reset with inReset := true })] }).core 0).inReset = false := by decide +kernel

def anOp (st : Nat) (coll : Bool) : AsyncOp := { thread := 0, cnt := 1, status := st, wrId := 0, coll := coll, owed := false, remote := [] }
def opQueued (o : AsyncOp) (s : State) : State := { s with cores := [(0, { CoreSt.reset with queues := [[o], [], [], [], []] })], threads := [(0, { thr0 with outstanding := 1 })] }
theorem test_async_complete : (thr (does (.asyncComplete 0 .reduction) (opQueued (anOp 0 false) up))).ctr 1 = 6 ∧
    (thr (does (.asyncComplete 0 .reduction) (opQueued (anOp 0 false) up))).outstanding = 0 ∧
    (thr (does (.asyncComplete 0 .reduction) (opQueued (anOp 0 true) up))).outstanding = 1 ∧ (does (.asyncComplete 0 .sort) up).threads = [] := by decide +kernel
/-- Thread 0 has a completion queue of 16 entries at the start of its core's working SRAM. -/
def tcq (s : State) : State := lvs [(corePg 0 + 0x210, 47, 0, 4 * 2 ^ 44 + 0x80000000000)] s
theorem test_async_complete_owes : (tcq up).tcqRoom 0 = true ∧ (tcq up).tcqLog 0 = 4 ∧ (tcq up).tcqOwing 0 = false ∧
    ((does (.asyncComplete 0 .reduction) (opQueued (anOp 8 false) (tcq up))).core 0).cqWait.length = 1 := by decide +kernel
def owing (s : State) : State := { s with cores := [(0, { CoreSt.reset with cqWait := [(0, { bytes := cqEntry 8 0 0 5 0 })] })] }
theorem test_cq_entry : (owing (tcq up)).inOwnSram 0 (up.own * 2 ^ 44 + 0x80000000000) 16 = true ∧ (does (.cqEntryWrite 0) (tcq up)).lv (corePg 0 + 0x218) 63 32 = 0 ∧
    (does (.cqEntryWrite 0) (owing (tcq up))).lv (corePg 0 + 0x218) 63 32 = 1 ∧
    (owing (lvs [(corePg 0 + 0x218, 63, 32, 16)] (tcq up))).tcqRoom 0 = false := by decide +kernel
theorem test_reserved_op : opReserved .control 0xFF = true ∧ opReserved .reduction 0xFF = true ∧ (thr (does (.slotReservedOp sc0 .control 0xFF 0) busy)).last = 8 ∧
    ((does (.slotReservedOp sc0 .reduction 0xFF 0) busy).core 0).queues.getD 0 [] = [{ anOp 8 false with cnt := 0 }] ∧ opReserved .control 0x01 = false ∧
    (thr (does (.slotReservedOp sc0 .control 0x01 0) busy)).pc = thr0.pc := by decide +kernel

/-! ### Moves, vectors and engines -/

/-- A descriptor image: a format, a base in core 0's working SRAM, dimension sizes and strides. -/
def dsc (fmt base : Nat) (sizes strides : List Nat) : List Byte :=
  leBytes 8 (0x80000000000 + base) ++ [BitVec.ofNat 8 fmt, BitVec.ofNat 8 (sizes.length + 128)] ++ List.replicate 6 0 ++ fit (sizes.flatMap (leBytes 2)) 8 ++
    fit (strides.flatMap (leBytes 8)) 24 ++ List.replicate 16 0
/-- Thread 0 runs, the descriptors 1, 2, … of its core are set. -/
def holds (ds : List (List Byte)) (x : Thread) : State :=
  { busyWith x with cores := [(0, { CoreSt.reset with descs := ds.zipIdx.map fun y => (y.2 + 1, y.1) })] }
def fullQ (q : Nat) (s : State) : State :=
  { s with cores := s.cores.map fun y => (y.1, { y.2 with queues := y.2.queues.set q (List.replicate 16 (anOp 0 false)) }) }
/-- Operand bits of a move slot, and of an engine slot. -/
def mvX (v hd ha ca cb cnt : Nat) : BitVec 52 := BitVec.ofNat 52 (v * 2 ^ 47 + hd * 2 ^ 35 + ha * 2 ^ 23 + ca * 2 ^ 19 + cb * 2 ^ 15 + cnt * 2 ^ 11)
def enX (hd ha hb hc cnt : Nat) : BitVec 52 := BitVec.ofNat 52 (hd * 2 ^ 40 + ha * 2 ^ 28 + hb * 2 ^ 16 + hc * 2 ^ 4 + cnt)
def i32s (l : List Nat) : List Byte := l.flatMap (leBytes 4)
/-- Thread 0 as thr0, counter 1 at a byte of the SRAM. -/
def thrAt (a : Nat) : Thread := { thr0 with ctrs := [0, BitVec.ofNat 64 (0x80000000000 + a), 7] ++ List.replicate 13 0 }

/-- Three I32 elements at SRAM 64: 10, 11, 12. -/
def vec3 : State := sramAt 64 (i32s [10, 11, 12]) (holds [dsc 0x12 64 [3] [], dsc 0x12 64 [0] [], dsc 0x08 64 [32] [], dsc 0x12 0x1FFFFC [3] []] thr0)
def firstPend (s : State) : List PendWrite := (thr s).pend
/-- The first lanes of 4 bytes that a write to a vector register writes. -/
def lanesOf : WriteTo → List Nat
  | .vreg _ m w => (List.range 5).map fun i => laneOf 4 (w &&& m) i
  | _ => []
/-- Where a write goes in memory. -/
def memOf : WriteTo → Nat × Nat
  | .mem a l => (a, l.length)
  | _ => (0, 0)
theorem test_vld : (firstPend (does (.vld sc0 (mvX 3 0 1 0 0 0)) vec3)).map (fun p => (p.vis, lanesOf p.w)) = [(8, [10, 11, 12, 0, 0])] := by decide +kernel
theorem test_vst : (firstPend (does (.vst sc0 (mvX 3 0 1 0 0 0)) vec3)).map (fun p => (p.vis, memOf p.w)) =
    [(4, 0x80000000040, 4), (4, 0x80000000044, 4), (4, 0x80000000048, 4)] := by decide +kernel
theorem test_vld_ends : (thr (does (.vld sc0 (mvX 3 0 9 0 0 0)) vec3)).last = 8 ∧ (thr (does (.vst sc0 (mvX 3 0 2 0 0 0)) vec3)).last = 1 ∧
    (thr (does (.vld sc0 (mvX 3 0 3 0 0 0)) vec3)).last = 8 ∧ (thr (does (.vst sc0 (mvX 3 0 4 0 0 0)) vec3)).last = 8 := by decide +kernel
theorem test_ldc : firstPend (does (.ldc sc0 (mvX 0 0 0 1 2 0)) (sramAt 64 (leBytes 8 77) (busyWith (thrAt 64)))) = [{ vis := 8, order := 0, w := .counter 2 77 }] ∧
    (thr (does (.ldc sc0 (mvX 0 0 0 1 2 0)) (busyWith (thrAt 60)))).last = 8 := by decide +kernel
theorem test_stc : firstPend (does (.stc sc0 (mvX 0 0 0 1 2 0)) (busyWith (thrAt 64))) = [{ vis := 4, order := 0, w := .mem 0x80000000040 (leBytes 8 7) }] ∧
    (thr (does (.stc sc0 (mvX 0 0 1 1 2 0)) (busyWith (thrAt 64)))).last = 8 := by decide +kernel

def copying : State := sramAt 64 (i32s [10, 11, 12]) (holds [dsc 0x12 64 [3] [], dsc 0x12 128 [3] [], dsc 0x12 128 [2] [], dsc 0x12 64 [0] []] thr0)
def opsOf (q : Nat) (s : State) : List (Nat × Nat) := ((s.core 0).queues.getD q []).map fun o => (o.status, o.cnt)
def sram (s : State) (a : Nat) : Nat := (Memory.read s.mem (0x80000000000 + a)).toNat
theorem test_copy : opsOf 4 (does (.copy sc0 (mvX 0 2 1 0 0 5) .clean) copying) = [(0, 5)] ∧
    [sram (does (.copy sc0 (mvX 0 2 1 0 0 5) .clean) copying) 128, sram (does (.copy sc0 (mvX 0 2 1 0 0 5) .clean) copying) 136] = [10, 12] := by decide +kernel
theorem test_copy_ends : opsOf 4 (does (.copy sc0 (mvX 0 9 1 0 0 5) .clean) copying) = [(8, 5)] ∧ opsOf 4 (does (.copy sc0 (mvX 0 3 1 0 0 5) .clean) copying) = [(8, 5)] ∧
    opsOf 4 (does (.copy sc0 (mvX 0 4 4 0 0 5) .clean) copying) = [(1, 5)] ∧ (thr (does (.copy sc0 (mvX 0 2 1 0 0 5) .clean) (fullQ 4 copying))).pc = thr0.pc := by decide +kernel
/-- A COLL image: ALLREDUCE SUM of I32 over group 7, epoch 1, rank 0, with CNT chunks of 4 bytes at SRAM 64. -/
def collImg (cnt : Nat) : List Byte :=
  [3, 0, 0, 0] ++ leBytes 4 0x55 ++ leBytes 8 0x80000000040 ++ leBytes 8 0x80000000080 ++ leBytes 4 4 ++ leBytes 4 cnt ++ leBytes 4 7 ++ leBytes 4 1 ++
    leBytes 4 0 ++ leBytes 4 0 ++ [0, 0x12] ++ List.replicate 14 0
def epochOfThread : EpochSt := { anEpoch 1 with slots := [(0, BitVec.ofNat 64 (2 ^ 63 + 2 ^ 60))] }
def collState (cnt : Nat) (member : Bool) : State :=
  { sramAt 256 (collImg cnt) (holds [dsc 0x1A 256 [64] []] thr0) with groups := if member then [(7, { GroupSt.reset 7 with number := some 1, current := some epochOfThread })] else [] }
theorem test_coll : (WrImg.read (collImg 2)).wrId = 0x55 ∧ ((collState 2 true).collCheck 0 (WrImg.read (collImg 2))) = .inr (0, (anEpoch 1).entry) ∧
    (collState 2 true).inOwnSram 0 (0x80000000000 + 256) 64 = true ∧ (WrImg.read (collImg 2)).expected (anEpoch 1).entry = 2 := by decide +kernel
theorem test_coll_ends : opsOf 4 (does (.coll sc0 (mvX 0 0 2 0 0 5)) (collState 2 true)) = [(8, 5)] ∧ opsOf 4 (does (.coll sc0 (mvX 0 1 1 0 0 5)) (collState 2 true)) = [(8, 5)] ∧
    opsOf 4 (does (.coll sc0 (mvX 0 0 1 0 0 5)) (collState 2 false)) = [(8, 5)] ∧ opsOf 4 (does (.coll sc0 (mvX 0 0 1 0 0 5)) (collState 0 true)) = [(1, 5)] := by decide +kernel
def aRemote (tries : Nat) : RemoteTx := { tag := 3, held := false, handle := 3, pkt := pk ptMemReadReq 0 5 0 [], use := .copied, wrId := 0, tries := tries, tick := 0 }
def remotely (tries ticks : Nat) : State :=
  { cfgs [(corePg 0 + 0x1010, 39, 32, 2)] (busyWith thr0) with cores := [(0, { CoreSt.reset with remote := [(0, aRemote tries)], queues := [[], [], [], [], [{ anOp 0 false with remote := [3] }]] })], ticks := ticks }
theorem test_remote_retry : max 1024 ((remotely 1 0).cfg (corePg 0 + 0x1010) 31 0) = 16384 ∧ (remotely 1 16384).cfg (corePg 0 + 0x1010) 39 32 = 2 ∧
    ((does (.remoteRetry 0 3) (remotely 1 16384)).core 0).remote.map (fun r => (r.2.tries, r.2.tick)) = [(2, 16384)] ∧
    ((does (.remoteRetry 0 3) (remotely 1 16383)).core 0).remote.map (fun r => r.2.tries) = [1] ∧ opsOf 4 (does (.remoteRetry 0 3) (remotely 2 16384)) = [(9, 1)] ∧
    opsOf 4 (does (.remoteRetry 0 4) (remotely 2 16384)) = [(0, 1)] := by decide +kernel

/-- Thread 0, its vector registers 1 to 3 set, VL 4, in I32. -/
def vecThr : Thread := { thr0 with vregs := ([0, 5 + 2 * 2 ^ 32 + 7 * 2 ^ 96, 3 + 2 * 2 ^ 32 + (2 ^ 32 - 1) * 2 ^ 64, 2 ^ 32] : List Nat).map (BitVec.ofNat 2048 ·) ++ List.replicate 28 0 }
def vX (vd va vb vc fmt md : Nat) : BitVec 52 := BitVec.ofNat 52 (vd * 2 ^ 47 + va * 2 ^ 42 + vb * 2 ^ 37 + vc * 2 ^ 32 + fmt * 2 ^ 27 + md)
/-- The lanes that a vector slot writes. -/
def lanes (c : SlotCtx → Bool → BitVec 52 → Instr) (x : BitVec 52) : List (Nat × List Nat) :=
  (firstPend (does (c sc0 false x) (busyWith vecThr))).map fun p => (p.vis, lanesOf p.w)
theorem test_vadd : lanes .vadd (vX 4 1 2 0 0x12 0) = [(4, [8, 4, 2 ^ 32 - 1, 7, 0])] := by decide +kernel
theorem test_vadd_negb : lanes .vadd (vX 4 1 2 0 0x12 0x100000) = [(4, [2, 0, 1, 7, 0])] := by decide +kernel
theorem test_vmul : lanes .vmul (vX 4 1 2 0 0x12 0) = [(4, [15, 4, 0, 0, 0])] := by decide +kernel
theorem test_vfma : lanes .vfma (vX 4 1 2 3 0x12 0) = [(6, [15, 5, 0, 0, 0])] := by decide +kernel
theorem test_vmin : lanes .vmin (vX 4 1 2 0 0x12 0) = [(4, [3, 2, 2 ^ 32 - 1, 0, 0])] := by decide +kernel
theorem test_vmax : lanes .vmax (vX 4 1 2 0 0x12 0) = [(4, [5, 2, 0, 7, 0])] := by decide +kernel
theorem test_vcmp : lanes .vcmp (vX 4 1 2 0 0x12 0) = [(4, [0, 2 ^ 32 - 1, 0, 0, 0])] := by decide +kernel
theorem test_vsel : lanes .vsel (vX 4 1 2 3 0x12 0) = [(4, [3, 2, 2 ^ 32 - 1, 0, 0])] := by decide +kernel
theorem test_vred : lanes .vred (vX 4 1 0 0 0x12 0) = [(8, [14, 14, 14, 14, 0])] := by decide +kernel
theorem test_vector_ends : (thr (does (.vadd sc0 false (vX 4 1 2 0 0x08 0)) busy)).last = 8 ∧ (thr (does (.vred sc0 false (vX 4 1 0 0 0x12 0xC00000)) busy)).last = 8 ∧
    (thr (does (.vmin sc0 true (vX 4 1 2 1 0x12 0)) busy)).last = 8 ∧
    ({ busy with collectors := { Collector.reset with fenced := [engineUnit 0 1] } :: List.replicate 3 Collector.reset } : State).engineUp 0 1 = false := by decide +kernel

/-- A row of I32 values reduced, with the queue of reductions empty or full. -/
def reducing : State := sramAt 64 (i32s [10, 11, 2 ^ 32 - 1]) (holds [dsc 0x12 64 [1, 3] [4], dsc 0x12 128 [1] [], dsc 0x15 128 [1] [], dsc 0x12 64 [1, 0] [4]] thr0)
theorem test_engine_waits : (thr (does (.rsum sc0 false (enX 2 1 0 0 5)) (fullQ 0 reducing))).pc = thr0.pc ∧ opsOf 0 (does (.rsum sc0 false (enX 9 1 0 0 5)) reducing) = [(8, 5)] ∧
    opsOf 0 (does (.rmax sc0 false (enX 2 4 0 0 5)) reducing) = [(1, 5)] := by decide +kernel
theorem test_rsum : opsOf 0 (does (.rsum sc0 false (enX 2 1 0 0 5)) reducing) = [(0, 5)] ∧ sram (does (.rsum sc0 false (enX 2 1 0 0 5)) reducing) 128 = 20 := by decide +kernel
theorem test_rmin : sram (does (.rmin sc0 false (enX 2 1 0 0 5)) reducing) 131 = 255 := by decide +kernel
theorem test_rmax : sram (does (.rmax sc0 false (enX 2 1 0 0 5)) reducing) 128 = 11 := by decide +kernel
theorem test_rand : sram (does (.rand sc0 false (enX 2 1 0 0 5)) reducing) 128 = 10 := by decide +kernel
theorem test_ror : sram (does (.ror sc0 false (enX 2 1 0 0 5)) reducing) 131 = 255 := by decide +kernel
theorem test_rxor : sram (does (.rxor sc0 false (enX 2 1 0 0 5)) reducing) 128 = 254 := by decide +kernel
theorem test_rargmin : (List.range 8).map (fun i => sram (does (.rargmin sc0 false (enX 3 1 0 0 5)) reducing) (128 + i)) = [255, 255, 255, 255, 2, 0, 0, 0] := by decide +kernel
theorem test_rargmax : (List.range 8).map (fun i => sram (does (.rargmax sc0 false (enX 3 1 0 0 5)) reducing) (128 + i)) = [11, 0, 0, 0, 1, 0, 0, 0] := by decide +kernel

/-- One BF16 row times one BF16 row: 1·2 + 2·3, and 1 added. -/
def multiplying : State :=
  sramAt 96 (i32s [0x3F800000]) (sramAt 80 [0, 0x40, 0x40, 0x40] (sramAt 64 [0x80, 0x3F, 0, 0x40]
    (holds [dsc 0x04 64 [2, 1] [4], dsc 0x04 80 [2, 1] [4], dsc 0x03 96 [1, 1] [4], dsc 0x03 128 [1, 1] [4]] thr0)))
theorem test_mma : opsOf 1 (does (.mma sc0 (enX 4 1 2 0 5)) multiplying) = [(0, 5)] ∧
    (List.range 4).map (fun i => sram (does (.mma sc0 (enX 4 1 2 0 5)) multiplying) (128 + i)) = [0, 0, 0, 0x41] := by decide +kernel
theorem test_mmac : (List.range 4).map (fun i => sram (does (.mmac sc0 (enX 4 1 2 3 5)) multiplying) (128 + i)) = [0, 0, 0x10, 0x41] := by decide +kernel

/-- A dense row of I8 with one element set. -/
def encoding : State := sramAt 64 (List.replicate 5 0 ++ [7] ++ List.replicate 26 0) (holds [dsc 0x0E 64 [32] [], dsc 0x1A 256 [64] []] thr0)
theorem test_senc : opsOf 2 (does (.senc sc0 (enX 2 1 0 0 5)) encoding) = [(0, 5)] ∧ (List.range 5).map (fun i => sram (does (.senc sc0 (enX 2 1 0 0 5)) encoding) (256 + i)) = [2, 31, 1, 5, 7] := by decide +kernel
def decoding : State := sramAt 64 [2, 3, 1, 2, 7] (holds [dsc 0x1A 64 [5] [], dsc 0x0E 128 [4] []] thr0)
theorem test_sdec : opsOf 2 (does (.sdec sc0 (enX 2 1 0 0 5)) decoding) = [(0, 5)] ∧ (List.range 4).map (sram (does (.sdec sc0 (enX 2 1 0 0 5)) decoding) <| 128 + ·) = [0, 0, 7, 0] := by decide +kernel
/-- A table of two rows of two I16 elements; a row of indices. -/
def gathering (ix : List Nat) : State :=
  sramAt 96 [1, 0, 2, 0] (sramAt 80 (i32s ix) (sramAt 64 [10, 0, 11, 0, 20, 0, 21, 0] (holds [dsc 0x10 64 [2, 2] [4], dsc 0x13 80 [1] [], dsc 0x10 128 [2] [], dsc 0x10 96 [2] []] thr0)))
theorem test_sgather : (List.range 4).map (sram (does (.sgather sc0 (enX 3 1 2 0 5)) (gathering [1])) <| 128 + ·) = [20, 0, 21, 0] ∧
    opsOf 2 (does (.sgather sc0 (enX 3 1 2 0 5)) (gathering [2])) = [(6, 5)] ∧ (does (.sgather sc0 (enX 3 1 2 0 5)) (gathering [2])).lv (corePg 0 + 0x800) 63 0 = 1 := by decide +kernel
theorem test_sscatter_add : (List.range 8).map (sram (does (.sscatterAdd sc0 (enX 1 4 2 0 5)) (gathering [1])) <| 64 + ·) = [10, 0, 11, 0, 21, 0, 23, 0] ∧
    opsOf 2 (does (.sscatterAdd sc0 (enX 1 4 2 0 5)) (gathering [2])) = [(6, 5)] := by decide +kernel

/-- Key and payload of FMT 0x17, keys of 4 bytes. -/
def kp (k v : Nat) : List Byte := leBytes (keyBytes 0x16) k ++ leBytes (8 - keyBytes 0x16) v
def sorting (n : Nat) : State :=
  sramAt 512 (leBytes 8 2 ++ leBytes 8 3) (sramAt 128 (kp 2 7) (sramAt 64 (kp 3 1 ++ kp 2 2 ++ kp 3 3)
    (holds [dsc 0x16 64 [3] [], dsc 0x16 256 [n] [], dsc 0x16 128 [1] [], dsc 0x15 512 [2] [], dsc 0x15 544 [1] []] thr0)))
/-- The keys and the payloads' low bytes of the first elements at HD. -/
def sorted (s : State) (n : Nat) : List (Nat × Nat) := (List.range n).map fun i => (sram s (256 + 8 * i), sram s (256 + 8 * i + keyBytes 0x16))
theorem test_sort : sorted (does (.sort sc0 (enX 2 1 0 0 5)) (sorting 3)) 3 = [(2, 2), (3, 1), (3, 3)] ∧ opsOf 3 (does (.sort sc0 (enX 2 1 0 0 5)) (sorting 2)) = [(8, 5)] := by decide +kernel
theorem test_topk : sorted (does (.topk sc0 (enX 2 1 0 0 5)) (sorting 2)) 2 = [(3, 1), (3, 3)] := by decide +kernel
theorem test_merge : sorted (does (.merge sc0 (enX 2 1 3 0 5)) (sorting 4)) 4 = [(2, 7), (3, 1), (2, 2), (3, 3)] := by decide +kernel
theorem test_filter : sorted (does (.filter sc0 (enX 2 1 4 5 5)) (sorting 2)) 2 = [(3, 1), (2, 2)] ∧ opsOf 3 (does (.filter sc0 (enX 2 1 4 5 5)) (sorting 2)) = [(10, 5)] ∧
    sram (does (.filter sc0 (enX 2 1 4 5 5)) (sorting 2)) 544 = 3 := by decide +kernel

/-- A feed of one tile: A and B have 32 rows of one BF16 element. -/
def feedImg : List Byte := [3, 0, 0, 0] ++ leBytes 4 0x55 ++ leBytes 8 0x80000001000 ++ leBytes 8 0x80000000080 ++ leBytes 4 2048 ++ leBytes 4 1 ++ leBytes 4 7 ++ leBytes 4 1 ++
    leBytes 4 0 ++ leBytes 4 0 ++ [0, 0x04] ++ List.replicate 14 0
def feeding (img : List Byte) : State :=
  { sramAt 256 img (holds [dsc 0x1A 256 [64] [], dsc 0x04 512 [1, 32] [2], dsc 0x04 1024 [1, 32] [2], dsc 0x03 2048 [32, 32] [128]] thr0) with
    groups := [(7, { GroupSt.reset 7 with number := some 1, current := some epochOfThread })] }
theorem test_mmaf : opsOf 1 (does (.mmaf sc0 (enX 1 2 3 0 5)) (feeding feedImg)) = [(0, 5)] ∧
    (does (.mmaf sc0 (enX 1 2 3 0 5)) (feeding feedImg)).works.map (fun w => w.tiles.map List.length) = [[2048]] ∧
    opsOf 1 (does (.mmaf sc0 (enX 1 2 3 0 5)) (feeding (collImg 2))) = [(8, 5)] := by decide +kernel
theorem test_mmacf : opsOf 1 (does (.mmacf sc0 (enX 1 2 3 4 5)) (feeding feedImg)) = [(0, 5)] := by decide +kernel
def feedsOne : State := { busy with works := [{ tableWait [] with tiles := [[1, 2]], localA := 0x80000001000, length := 2, pattern := 0, epoch := 1 }] }
theorem test_tile_feed_send : (does (.tileFeedSend 0) feedsOne).works.map (fun w => (w.tiles, w.sentTiles)) = [([], 1)] ∧
    (does (.tileFeedSend 0) busy).works = [] ∧ sram (does (.tileFeedSend 0) feedsOne) 0x1001 = 2 := by decide +kernel

theorem test_sparse_tile : tileUnits 0x0E ≥ 4 ∧ encodeUnits 0x0E [0, 0, 7, 0] = [2, 3, 1, 2, 7] ∧ encodeUnits 0x0E [1, 2, 3, 4] = [0, 3, 1, 2, 3, 4] := by decide
theorem test_exact_sum : ((Rec.zero.enter 0x0E (vecNum 0x0E 5)).enter 0x0E (vecNum 0x0E 0xFE)).fix = ((Rec.zero.enter 0x0E (vecNum 0x0E 0xFE)).enter 0x0E (vecNum 0x0E 5)).fix ∧
    ((Rec.zero.enter 0x0E (vecNum 0x0E 5)).enter 0x0E (vecNum 0x0E 0xFE)).sum 0x0E = 3 ∧ Rec.zero.fix < 2 ^ fixBits 0x0E := by decide

/-! ### Memory -/

/-- Stack 1 in a state. -/
def stack1 (st : Nat) (s : State) : State := lvs [(hbmPg 1 + 0x100, 2, 0, st)] s
theorem test_hbm_address : regionOf (2 ^ 37 + 5 * 2 ^ 34 + 0x312) = .hbm 1 5 ∧ pcOf (2 ^ 37 + 5 * 2 ^ 34 + 0x312) = 23 ∧ burstAddr 1 23 4 = 2 ^ 37 + 5 * 2 ^ 34 + 0x700 := by decide
theorem test_hbm_scrub : (stack1 3 up).cfg (hbmPg 1 + 0x1000) 15 0 ≠ 0 ∧ (does (.hbmScrubRead 1 2 .clean) (stack1 3 up)).memSt.hbmScrub = [(34, 1)] ∧
    (does (.hbmScrubRead 1 2 .clean) (stack1 2 up)).memSt.hbmScrub = [] ∧ (does (.hbmScrubRead 1 2 .corrected) (stack1 3 up)).lv (hbmPg 1 + 0x108) 63 0 = 1 := by decide +kernel
theorem test_hbm_scrub_off : (does (.hbmScrubRead 1 2 .clean) { stack1 3 up with fatal := true }).memSt.hbmScrub = [] ∧
    (does (.hbmScrubRead 1 2 .clean) (cfgs [(hbmPg 1 + 0x1000, 15, 0, 0)] (stack1 3 up))).memSt.hbmScrub = [] := by decide +kernel
def lastScrub : State := { stack1 3 up with memSt := { up.memSt with hbmScrub := (List.range 32).map fun pc => (32 + pc, 2 ^ 26 - if pc = 2 then 1 else 0) } }
theorem test_hbm_scrub_pass : lastScrub.stackPasses 1 = 0 ∧ (does (.hbmScrubRead 1 2 .clean) lastScrub).lv (hbmPg 1 + 0x128) 63 0 = 1 := by decide +kernel
theorem test_rmem_scrub : up.cfg (rmemPg 3 + 0x1000) 15 0 ≠ 0 ∧ (does (.rmemScrubRead 3 .clean []) up).memSt.rmScrub = [(3, 1)] ∧
    (does (.rmemScrubRead 3 .clean []) { up with memSt := { up.memSt with rmScrub := [(3, 2 ^ 19 - 1)] } }).lv (rmemPg 3 + 0x128) 63 0 = 1 ∧
    (does (.rmemScrubRead 3 .clean []) { up with fatal := true }).memSt.rmScrub = [] := by decide +kernel
def windowed (ticks : Nat) : State := { stack1 3 up with ticks := ticks, memSt := { up.memSt with ready := [(1, 5)], pcErr := [(34, 6)] } }
theorem test_hbm_err_window : (does (.hbmErrWindow 1 2) (windowed (5 + 2 ^ 24))).memSt.pcErr = [] ∧ (does (.hbmErrWindow 1 2) (windowed (6 + 2 ^ 24))).memSt.pcErr = [(34, 6)] ∧
    (does (.hbmErrWindow 1 2) (windowed 5)).memSt.pcErr = [(34, 6)] := by decide +kernel
theorem test_hbm_train : (does (.hbmTrainDone 1 true) (stack1 1 up)).stackState 1 = 2 ∧ (does (.hbmTrainDone 1 true) (stack1 3 up)).stackState 1 = 3 ∧
    (does (.hbmTrainDone 1 false) (stack1 1 up)).fencedUnit (stackUnit 1) = true := by decide +kernel
theorem test_hbm_init : (does (.hbmInitDone 1) (stack1 2 up)).stackState 1 = 3 ∧ (does (.hbmInitDone 1) (stack1 1 up)).stackState 1 = 1 := by decide +kernel
def clearing : State := { lvs [(hbmPg 1 + 0x100, 27, 26, 2)] (stack1 3 up) with mem := Memory.writeBytes [] (2 ^ 37 + 5 * 2 ^ 34 - 1) [1, 2] }
theorem test_hbm_group_clear : clearing.groupState 1 5 = 2 ∧ (does (.hbmGroupClearDone 1 5) clearing).groupState 1 5 = 0 ∧
    Memory.read (does (.hbmGroupClearDone 1 5) clearing).mem (2 ^ 37 + 5 * 2 ^ 34) = 0 ∧ Memory.read (does (.hbmGroupClearDone 1 5) clearing).mem (2 ^ 37 + 5 * 2 ^ 34 - 1) = 1 ∧
    (does (.hbmGroupClearDone 1 4) clearing).groupState 1 5 = 2 := by decide +kernel
/-- A stack that cools never becomes hot, whatever temperature is the hot one. -/
theorem test_hbm_temp : (does (.hbmTempReport 1 20) (lvs [(hbmPg 1 + 0x100, 15, 8, 90)] up)).lv (hbmPg 1 + 0x100) 15 8 = 20 := by
  have was : (lvs [(hbmPg 1 + 0x100, 15, 8, 90)] up).lv (hbmPg 1 + 0x100) 15 8 = 90 := by decide +kernel
  have cool : hbmTempReportEffect 1 20 (lvs [(hbmPg 1 + 0x100, 15, 8, 90)] up).toDev = (lvs [(hbmPg 1 + 0x100, 15, 8, 90)] up).setLv (hbmPg 1 + 0x100) 15 8 20 := by
    unfold hbmTempReportEffect
    refine if_neg fun h => ?_
    have both := (Bool.and_eq_true _ _).mp h
    have low := of_decide_eq_true both.1
    have up' := of_decide_eq_true both.2
    have w : (lvs [(hbmPg 1 + 0x100, 15, 8, 90)] up).lv (hbmPg (1 : StackNo).val + 0x100) 15 8 = 90 := was
    have t : (20 : Byte).toNat = 20 := by decide
    omega
  show (after (lvs [(hbmPg 1 + 0x100, 15, 8, 90)] up) (run (hbmTempReportEffect 1 20) (lvs [(hbmPg 1 + 0x100, 15, 8, 90)] up))).lv (hbmPg 1 + 0x100) 15 8 = 20
  unfold run
  rw [cool]
  decide +kernel

/-! ### Faults -/

def entriesOf (s : State) : List (Nat × Nat × Nat) := (s.collector 0).entries.map fun y => (y.1, y.2.state, y.2.count)
def insFault (b : Fin 64) (u : BitVec 32) : Instr := .faultReport 4 0x01 0 b u blockOfIns 0

theorem test_fault_report : up.pagePresent 4 1 0 = true ∧ (up.unitPage blockOfIns).isSome = true ∧ entriesOf (does (insFault 0 blockOfIns) up) = [(0, 2, 1)] ∧
    (does (insFault 0 blockOfIns) up).lv (insPg + 0x18) 0 0 = 1 ∧ entriesOf (does (insFault 5 blockOfIns) up) = [] := by decide +kernel
theorem test_fault_report_again : entriesOf (does (insFault 0 blockOfIns) (collected [(0, fEntry blockOfIns 2)] [] up)) = [(0, 2, 2)] ∧
    entriesOf (does (insFault 0 blockOfIns) (lvs [(insPg + 0x20, 0, 0, 1)] up)) = [] ∧ (does (insFault 0 blockOfIns) (lvs [(insPg + 0x20, 0, 0, 1)] up)).lv (insPg + 0x18) 0 0 = 1 := by
  decide +kernel
def windowOf (s : State) : List (Option (Nat × Bool × Bool)) := (s.collector 0).entries.map (·.2.window)
/-- Two units report the instar block in one beat, the higher-numbered one first (R703). -/
def reportBy (r : BitVec 32) (b : Fin 64) : Instr := .faultReport 4 0x01 0 b blockOfIns r 0
def twoReports : State := does (reportBy (clusterUnit 0) 1) (does (reportBy (clusterUnit 1) 0) { up with ticks := 5 })
theorem test_fault_reports_of_a_beat : entriesOf twoReports = [(0, 5, 2)] ∧ (twoReports.collector 0).entries.map (fun y => (y.2.reporter, y.2.firstBit)) = [(clusterUnit 0, 1)] ∧
    ((does (reportBy (clusterUnit 1) 0) { up with ticks := 5 }).collector 0).heardAt = 5 ∧
    ((does (reportBy (clusterUnit 1) 0) { up with ticks := 5 }).collector 0).heard.map (·.1) = [blockOfIns] := by decide +kernel
theorem test_fault_report_fresh : Collector.reset.heardAt = 0 ∧ ({ up with ticks := 5 } : State).ticks ≠ 0 ∧
    windowOf (does (insFault 0 blockOfIns) { collected [(0, { fEntry blockOfIns 2 with window := some (0, true, false) })] [] (cfgs [(fltPg 0 + 0x1038, 31, 0, 100)] up) with ticks := 100 }) = [some (100, false, false)] ∧
    windowOf (does (insFault 0 blockOfIns) { collected [(0, { fEntry blockOfIns 2 with window := some (0, true, false) })] [] (cfgs [(fltPg 0 + 0x1038, 31, 0, 100)] up) with ticks := 99 }) = [some (0, true, true)] ∧
    windowOf (does (insFault 0 blockOfIns) { collected [(0, { fEntry blockOfIns 2 with window := none })] [] up with ticks := 5 }) = [some (5, false, false)] := by decide +kernel
/-- Every slot of the table holds an entry that is not CLEAR. -/
def fullTable : Collector := { Collector.reset with entries := (List.range 4096).map fun k => (k, fEntry (BitVec.ofNat 32 (2 ^ 30 + k)) 2) }
theorem test_fault_table_full : fullTable.slotOf blockOfIns = none ∧ fullTable.newSlot = none := by decide +kernel

theorem test_peer_silence : entriesOf (does (.peerSilence 0) { liveAt 0 1 up with ticks := 256 }) = [(0, 3, 1)] ∧ entriesOf (does (.peerSilence 0) { liveAt 0 1 up with ticks := 255 }) = [] ∧
    entriesOf (does (.peerSilence 0) { liveAt 0 4 up with ticks := 256 }) = [] := by decide +kernel
def noticeAt (ticks : Nat) (w : Option (Nat × Bool × Bool)) : State := { collected [(0, { fEntry blockOfIns 2 with window := w })] [] (cfgs [(fltPg 0 + 0x1028, 1, 1, 1), (fltPg 0 + 0x1038, 31, 0, 100)] up) with ticks := ticks }
theorem test_notice_send : (does (.noticeSend 0 blockOfIns) (noticeAt 64 (some (0, false, false)))).lv (fltPg 0 + 0x128) 63 0 = 1 ∧
    windowOf (does (.noticeSend 0 blockOfIns) (noticeAt 64 (some (0, false, false)))) = [some (0, true, false)] ∧ windowOf (does (.noticeSend 0 blockOfIns) (noticeAt 100 (some (0, false, false)))) = [none] ∧
    windowOf (does (.noticeSend 0 blockOfIns) (noticeAt 63 (some (0, false, false)))) = [some (0, false, false)] ∧
    (does (.noticeSend 0 blockOfIns) (noticeAt 64 (some (0, false, false)))).lv (fltPg 0 + 0x218) 0 0 = 1 := by decide +kernel
theorem test_notice_close : windowOf (does (.noticeWindowClose 0 blockOfIns) (noticeAt 100 (some (0, true, false)))) = [none] ∧
    windowOf (does (.noticeWindowClose 0 blockOfIns) (noticeAt 100 (some (0, true, true)))) = [some (100, true, false)] ∧
    windowOf (does (.noticeWindowClose 0 blockOfIns) (noticeAt 99 (some (0, true, true)))) = [some (0, true, true)] ∧
    (does (.noticeWindowClose 0 blockOfIns) (noticeAt 100 (some (0, true, true)))).lv (fltPg 0 + 0x128) 63 0 = 1 := by decide +kernel

/-- The fault summary is on, its group 7; periods of 2^16 beats, 10 beats of waiting. -/
def summing (beat : Nat) (s : State) : State := { cfgs [(fltPg 0 + 0x1040, 63, 63, 1), (fltPg 0 + 0x1040, 52, 48, 16), (fltPg 0 + 0x1040, 47, 24, 7), (fltPg 0 + 0x1040, 23, 0, 10)] s with beat := BitVec.ofNat 64 beat }
def summaryPkt : Packet := { collKind ckPartial 0 [] with vc := 7, payload := mapBytes [], length := 4096, ext := some { contribExt with func := 4, fmt := 0xF, ckind := ckPartial, epoch := 0, rank := 0 } }
theorem test_fault_summary : (summing 0 up).isSummary summaryPkt = true ∧ up.isSummary summaryPkt = false ∧ (mapBytes []).length = 4096 ∧ (does (.faultSummary 0 summaryPkt) up).summary.kids = [] := by
  decide +kernel
theorem test_summary_send : (summing 65546 up).sumDue = some 0 ∧ (summing 65545 up).sumDue = none ∧ (does .summarySend (summing 65546 up)).summary.last = some 65536 ∧
    (does .summarySend (summing 65546 up)).lv (fltPg 0 + 0x218) 4 4 = 0 ∧ (does .summarySend (summing 65545 up)).summary.last = none := by decide +kernel
theorem test_summary_root : groupValid (tabled true (summing 65546 up)).active 7 = true ∧ (GEntry.read (tabled true (summing 65546 up)).active 7).root = true ∧
    (GEntry.read (tabled false (summing 65546 up)).active 7).root = false ∧ (GEntry.read (tabled true (summing 65546 up)).active 7).childValid = false := by decide +kernel

def quieted (st : Nat) (u : BitVec 32) (ticks : Nat) : State := { collected [(0, fEntry u st)] (if st = 2 then [] else [u]) (cfgs [(fltPg 0 + 0x1000, 31, 0, 100)] up) with ticks := ticks }
def statesOf (s : State) : List (Nat × Nat × Option Bool) := (s.collector 0).entries.map fun y => (y.2.state, y.2.recov, y.2.checking)
theorem test_quiet_end : statesOf (does (.quietEnd 0 blockOfIns) (quieted 2 blockOfIns 100)) = [(1, 1, none)] ∧ statesOf (does (.quietEnd 0 blockOfIns) (quieted 2 blockOfIns 99)) = [(2, 1, none)] ∧
    statesOf (does (.quietEnd 0 blockOfIns) { quieted 2 blockOfIns 100 with fatal := true }) = [(2, 1, none)] ∧ statesOf (does (.quietEnd 0 blockOfIns) (quieted 5 blockOfIns 100)) = [(5, 1, none)] := by
  decide +kernel
theorem test_quiet_end_fenced : statesOf (does (.quietEnd 0 (clusterUnit 0)) (cfgs [(fltPg 0 + 0x1018, 6, 6, 0)] (quieted 3 (clusterUnit 0) 100))) = [(4, 1, none)] ∧
    statesOf (does (.quietEnd 0 (clusterUnit 0)) (cfgs [(fltPg 0 + 0x1018, 6, 6, 1), (fltPg 0 + 0x1008, 7, 0, 2)] (quieted 3 (clusterUnit 0) 100))) = [(3, 2, some true)] := by decide +kernel
def checkingEntry : State := collected [(0, { fEntry (clusterUnit 0) 3 with checking := some true })] [clusterUnit 0] up
theorem test_unit_check : checkingEntry.checking (clusterUnit 0) = true ∧ (does (.unitCheckDone 0 (clusterUnit 0) true) checkingEntry).fencedUnit (clusterUnit 0) = false ∧
    statesOf (does (.unitCheckDone 0 (clusterUnit 0) true) checkingEntry) = [(1, 1, none)] ∧ (does (.unitCheckDone 0 (clusterUnit 0) true) checkingEntry).lv (fltPg 0 + 0x138) 63 0 = 1 ∧
    statesOf (does (.unitCheckDone 0 (clusterUnit 1) true) checkingEntry) = [(3, 1, some true)] := by decide +kernel
theorem test_unit_check_failed : (does (.unitCheckDone 0 (clusterUnit 0) false) checkingEntry).fencedUnit (clusterUnit 0) = true ∧
    statesOf (does (.unitCheckDone 0 (clusterUnit 0) false) checkingEntry) = [(3, 1, none)] := by decide +kernel
/-- A port's check, and one that has outlasted its time. -/
def portChecked (st start ticks : Nat) : State :=
  { portAt 0 1 st (collected [(0, { fEntry (portUnit 0 0) 3 with checking := some true })] [portUnit 0 0] up) with
    ticks := ticks
    collectors := { (collected [(0, { fEntry (portUnit 0 0) 3 with checking := some true })] [portUnit 0 0] up).collector 0 with trials := [(portUnit 0 0, start)] } ::
      List.replicate 3 Collector.reset }
theorem test_port_check : (portChecked 5 0 1).unitPorts (portUnit 0 0) = [0] ∧ (portChecked 5 0 1).checkLate (portUnit 0 0) = false ∧
    (does (.unitCheckDone 0 (portUnit 0 0) true) (portChecked 5 0 1)).fencedUnit (portUnit 0 0) = false ∧
    (does (.unitCheckDone 0 (portUnit 0 0) true) (portChecked 4 0 1)).fencedUnit (portUnit 0 0) = true ∧ (does (.unitCheckDone 0 (portUnit 0 0) true) (portChecked 4 0 1)).checking (portUnit 0 0) = true := by
  decide +kernel
theorem test_port_check_late : (portChecked 5 0 (2 ^ 40)).checkLate (portUnit 0 0) = true ∧ (does (.unitCheckDone 0 (portUnit 0 0) true) (portChecked 5 0 (2 ^ 40))).fencedUnit (portUnit 0 0) = true ∧
    (does (.unitCheckDone 0 (portUnit 0 0) true) (portChecked 5 0 (2 ^ 40))).checking (portUnit 0 0) = false ∧ (does (.unitCheckDone 0 (portUnit 0 0) false) (portChecked 5 0 1)).portState 0 = 7 := by
  decide +kernel
def decaying (ticks : Nat) : State := { collected [(0, fEntry blockOfIns 2)] [] (cfgs [(fltPg 0 + 0x1010, 31, 0, 1)] up) with ticks := ticks }
theorem test_recovery_decay : statesOf (does (.recoveryDecay 0 blockOfIns) (decaying (2 ^ 20))) = [(2, 0, none)] ∧ statesOf (does (.recoveryDecay 0 blockOfIns) (decaying (2 ^ 20 - 1))) = [(2, 1, none)] := by
  decide +kernel

def resultOf (c : Instr) (s : State) : Nat := (does c s).lv (fltPg 0 + 0x210) 2 0
theorem test_flt_clear_clear : resultOf (.fltClearClear 0 blockOfIns) up = 1 ∧ resultOf (.fltClearClear 0 blockOfIns) { up with fatal := true } = 4 ∧
    resultOf (.fltClearClear 0 (blockUnit 1 1 0)) up = 5 ∧ statesOf (does (.fltClearClear 0 blockOfIns) (collected [(0, fEntry blockOfIns 2)] [] up)) = [(1, 1, none)] ∧
    statesOf (does (.fltClearClear 0 blockOfIns) (collected [(0, fEntry blockOfIns 5)] [] up)) = [(5, 1, none)] := by decide +kernel
theorem test_flt_clear_held : statesOf (does (.fltClearClear 0 (clusterUnit 0)) (collected [(0, fEntry (clusterUnit 0) 4)] [clusterUnit 0] up)) = [(4, 0, some false)] ∧
    statesOf (does (.fltClearClear 0 (clusterUnit 0)) (collected [] [clusterUnit 0] up)) = [(4, 0, some false)] := by decide +kernel
theorem test_flt_clear_fence : resultOf (.fltClearFence 0 blockOfIns) up = 3 ∧ resultOf (.fltClearFence 0 (clusterUnit 0)) { up with fatal := true } = 4 ∧
    (does (.fltClearFence 0 (clusterUnit 0)) up).fencedUnit (clusterUnit 0) = true ∧ statesOf (does (.fltClearFence 0 (clusterUnit 0)) up) = [(4, 0, none)] := by decide +kernel
/-- A FENCE on a link: both dies show it, and both collectors hold it. -/
theorem test_flt_clear_fence_link : (does (.fltClearFence 0 (d2dUnit 0 1)) (link 0 1 2 up)).linkState 1 0 = 3 ∧
    ((does (.fltClearFence 0 (d2dUnit 0 1)) (link 0 1 2 up)).collectors.map fun c => c.entries.map fun y => (y.2.unit, y.2.state)) =
      [[(d2dUnit 0 1, 4)], [(d2dUnit 1 0, 4)], [], []] := by decide +kernel
theorem test_flt_clear_forget : resultOf (.fltClearForget 0 blockOfIns) up = 2 ∧ resultOf (.fltClearForget 0 blockOfIns) (collected [(0, fEntry blockOfIns 2)] [] up) = 2 ∧
    statesOf (does (.fltClearForget 0 blockOfIns) (collected [(0, fEntry blockOfIns 1)] [] up)) = [] := by decide +kernel
theorem test_flt_clear_reserved : resultOf (.fltClearReserved 0 4 blockOfIns) up = 6 ∧ resultOf (.fltClearReserved 0 3 blockOfIns) up = 0 := by decide +kernel

/-- In factory test, INJ_UNIT the instar block, INJ_BEAT 100. -/
def injecting (beat : Nat) : State := { lvs [(secPg + 0x118, 10, 8, 2), (injPg 0 + 0x100, 31, 0, blockOfIns.toNat), (injPg 0 + 0x108, 63, 0, 100)] up with beat := BitVec.ofNat 64 beat }
theorem test_inject_arm : (injecting 68).factoryTest = true ∧ (does (.injectArm 0 0x100) (injecting 68)).lv (injPg 0 + 0x110) 9 9 = 1 ∧
    (does (.injectArm 0 0x100) (injecting 69)).lv (injPg 0 + 0x110) 11 10 = 2 ∧ ((does (.injectArm 0 0x180) (injecting 68)).collector 0).inj = some (blockOfIns, 100, 0, true) := by decide +kernel
theorem test_inject_arm_off : ((does (.injectArm 0 0x100) up).collector 0).inj = none ∧ (does (.injectArm 0 0x05) (injecting 68)).lv (injPg 0 + 0x110) 5 0 = 5 ∧
    (does (.injectArm 0 0x05) (injecting 68)).lv (injPg 0 + 0x110) 11 10 = 0 := by decide +kernel
def injected (b beat : Nat) : State := { injecting beat with collectors := { Collector.reset with inj := some (blockOfIns, 100, b, false) } :: List.replicate 3 Collector.reset }
theorem test_inject_fire : entriesOf (does (.injectFire 0) (injected 0 100)) = [(0, 2, 1)] ∧ ((does (.injectFire 0) (injected 0 100)).collector 0).entries.map (·.2.injected) = [true] ∧
    entriesOf (does (.injectFire 0) (injected 0 99)) = [] ∧ (does (.injectFire 0) (injected 0 100)).lv (injPg 0 + 0x110) 11 10 = 1 ∧ entriesOf (does (.injectFire 0) up) = [] := by decide +kernel
/-- The next protected word of core 0 is corrupt (R723). -/
def hurtCore : State := { up with collectors := { Collector.reset with hurt := [coreUnit 0] } :: List.replicate 3 Collector.reset }
theorem test_inject_data : ((does (.injectFire 0) { injected 0 100 with collectors := { Collector.reset with inj := some (blockOfIns, 100, 0, true) } :: List.replicate 3 Collector.reset }).collector 0).hurt =
    [blockOfIns] ∧ hurtCore.hurtAny [coreUnit 0] = true ∧ up.hurtAny [coreUnit 0] = false := by decide +kernel

/-! ### The control complex -/

def ctlUp (f : CtlSt → CtlSt) : State := { up with ctl := f up.ctl }
theorem test_hart_run : ((does (.hartRun 0x0002) (lvs [(ctlPg + 0x110, 63, 0, 64)] up)).ctl.harts.getD 1 ⟨false, 0, false⟩) = { run := true, start := 64, fault := false } ∧
    (does (.hartRun 0x0002) up).lv (ctlPg + 0x108) 15 0 = 2 ∧ up.ctl.harts.length = 16 ∧
    ((does (.hartRun 0) (ctlUp fun c => { c with harts := c.harts.set 1 ⟨true, 5, true⟩ })).ctl.harts.getD 1 ⟨true, 0, false⟩) = { run := false, start := 0, fault := false } := by decide +kernel
theorem test_hart_keeps_running : ((does (.hartRun 0x0002) (lvs [(ctlPg + 0x108, 15, 0, 2)] (ctlUp fun c => { c with harts := c.harts.set 1 ⟨true, 5, true⟩ }))).ctl.harts.getD 1 ⟨false, 0, false⟩) =
    { run := true, start := 5, fault := true } := by decide +kernel
theorem test_hart_start_faults : ((does (.hartRun 2) (lvs [(ctlPg + 0x110, 63, 0, 2 ^ 44), (ctlPg + 0x100, 8, 8, 1)] up)).ctl.harts.getD 1 ⟨false, 0, false⟩).fault = true ∧
    ((does (.hartRun 2) (lvs [(ctlPg + 0x110, 63, 0, 2 ^ 44), (ctlPg + 0x100, 8, 8, 0)] up)).ctl.harts.getD 1 ⟨false, 0, true⟩).fault = false ∧
    ((does (.hartRun 2) (lvs [(ctlPg + 0x110, 63, 0, 2 ^ 44 + 2 ^ 18)] up)).ctl.harts.getD 1 ⟨false, 0, false⟩).fault = true ∧
    ((does (.hartRun 2) (lvs [(ctlPg + 0x110, 63, 0, 2 ^ 44 + 2 ^ 28)] up)).ctl.harts.getD 1 ⟨false, 0, true⟩).fault = false := by decide +kernel
def running : State := ctlUp fun c => { c with harts := c.harts.set 1 ⟨true, 5, false⟩ }
theorem test_hart_ecc : ((does (.hartCpEccError 1 0x2000045) running).ctl.harts.getD 1 ⟨false, 0, false⟩).fault = true ∧ (does (.hartCpEccError 1 0x2000045) running).lv (ctlPg + 0x288) 63 0 = 1 ∧
    RegFile.get (does (.hartCpEccError 1 0x2000045) running).live (ctlPg + 0x280) = 0x8000000002000040 ∧ ((does (.hartCpEccError 1 0x45) running).ctl.harts.getD 1 ⟨true, 0, true⟩).fault = false ∧
    ((does (.hartCpEccError 1 0x1000000000) running).ctl.harts.getD 1 ⟨true, 0, true⟩).fault = false := by decide +kernel
def carred (st : Nat) : State := lvs [(hbmPg 0 + 0x100, 2, 0, st)] (ctlUp fun c => { c with llc := Memory.writeBytes [] 64 [9] })
theorem test_car : (carred 3).carOn = true ∧ Memory.read (does .llcCarWrite (carred 3)).mem 64 = 9 ∧ (does .llcCarWrite (carred 3)).carOn = false ∧
    (does .llcCarWrite (carred 3)).ctl.llc = [] ∧ (does .llcCarWrite (carred 2)).carOn = true := by decide +kernel
theorem test_spi_cmd : (does (.spiCmd 0x0000000000000A04) up).ctl.spi = none ∧ RegFile.get (does (.spiCmd 0x0000000000000A04) up).live (ctlPg + 0x600) = 0xA04 ∧
    (does (.spiCmd 0x0105) up).ctl.spi = some 0x0105 ∧ (does (.spiCmd 3) (ctlUp fun c => { c with spi := some 5 })).ctl.spi = some 5 := by decide +kernel
theorem test_spi_done : (does (.spiCmdDone [7, 8]) (ctlUp fun c => { c with spi := some 0x0201 })).ctl.spi = none ∧
    (RegFile.bytes (does (.spiCmdDone [7, 8]) (ctlUp fun c => { c with spi := some 0x0201 })).live (ctlPg + 0x700) 2) = [7, 8] ∧
    (RegFile.bytes (does (.spiCmdDone [7, 8]) (ctlUp fun c => { c with spi := some 0x0205 })).live (ctlPg + 0x700) 2) = [0, 0] := by decide +kernel
theorem test_uart : (does (.uartTxWrite 65) up).ctl.txFifo = [65] ∧ (does (.uartTxWrite 65) (ctlUp fun c => { c with txFifo := List.replicate 64 0 })).ctl.txFifo.length = 64 ∧
    (does (.uartRxByte 65) up).ctl.rxFifo = [65] ∧ (does (.uartRxByte 65) (ctlUp fun c => { c with rxFifo := List.replicate 64 0 })).ctl.rxFifo.length = 64 := by decide +kernel
theorem test_uart_leave : (does .uartDataRead (ctlUp fun c => { c with rxFifo := [1, 2] })).ctl.rxFifo = [2] ∧ (does .uartTxByte (ctlUp fun c => { c with txFifo := [1, 2] })).ctl.txFifo = [2] ∧
    (does .uartTxByte (ctlUp fun c => { c with txFifo := [1, 2] })).sent = [.uart 1] := by decide +kernel

theorem test_i3c_index : (does (.i3cIndexWrite 2) (ctlUp fun c => { c with i3cArm := true })).ctl.i3cIdx = 2 ∧ (does (.i3cIndexWrite 2) (ctlUp fun c => { c with i3cArm := true })).ctl.i3cArm = false := by decide +kernel
theorem test_i3c_read : (does (.i3cRead 2) up).sent = [.i3c [0x59, 0xA0]] ∧ (does (.i3cRead 3) (ctlUp fun c => { c with i3cIdx := 0xFE })).sent = [.i3c [0, 0, 0]] := by decide +kernel
theorem test_reset_req : (does (.resetReq 0xA5) up).ctl.i3cArm = true ∧ (does (.resetReq 0x5B) (ctlUp fun c => { c with i3cArm := true })).ctl.i3cArm = false ∧
    (does (.resetReq 0x5A) up).number = up.number := by decide +kernel
theorem test_i3c_dyn_addr : (does (.i3cDynAddr 0x12) up).lv (ctlPg + 0x900) 15 8 = 0x92 := by decide +kernel
theorem test_idcode : (does .idcode up).sent = [.jtag 0x0C512A6B] ∧ (does .idcode up).ctl.ir = 2 := by decide +kernel
theorem test_bypass : (does (.bypass 0xFF) up).sent = [.jtag 0] ∧ (does (.bypass 0xFF) up).ctl.ir = 0xFF ∧ (does (.bypass 0x11) up).sent = [] := by decide +kernel
theorem test_core_debug : up.debugLevel = 0 ∧ (does (.coreDebug 5) up).sent = [.jtag 0] ∧ (lvs [(secPg + 0x118, 10, 8, 1)] up).debugLevel = 1 := by decide +kernel
/-- What the boundary cells answer is free; the scan is latched. -/
theorem test_extest : (does (.extest [true]) up).ctl.scan = [true] := by decide +kernel
theorem test_sample : (does (.samplePreload [true]) up).ctl.scan = [true] := by decide +kernel

def dogs (ticks : Nat) (late : Bool) (action : Nat) : State :=
  { lvs [(ctlPg + 0x208, 63, 32, 100), (ctlPg + 0x208, 1, 0, action)] (ctlUp fun c => { c with wdog := c.wdog.set 1 (0, late) }) with ticks := ticks }
theorem test_wdog_kick : (does (.wdogKick 1) (dogs 50 true 1)).ctl.wdog.getD 1 (0, true) = (50, false) := by decide +kernel
theorem test_wdog_expire : (does (.wdogExpire 1) (dogs 100 false 1)).lv (ctlPg + 0x208) 4 4 = 1 ∧ (does (.wdogExpire 1) (dogs 100 false 1)).ctl.wdog.getD 1 (0, false) = (100, true) ∧
    (does (.wdogExpire 1) (dogs 99 false 1)).lv (ctlPg + 0x208) 4 4 = 0 ∧ (does (.wdogExpire 1) (dogs 100 true 0)).lv (ctlPg + 0x208) 4 4 = 1 := by decide +kernel
theorem test_wdog_reset : (dogs 100 true 1).warmRunning = false ∧ ((dogs 100 true 1).afterWarm 8).lv (pwrPg + 0x188) 4 0 = 8 ∧ (dogs 100 true 1).pwr.porLow = false := by decide +kernel

/-! ### Security -/

def secUp (arg : Nat) (f : SecSt → SecSt) : State := lvs [(secPg + 0x108, 63, 0, arg)] { up with sec := f up.sec }
def outcome (c : Instr) (s : State) : Option (Nat × Nat) := (does c s).sec.run.map fun r => (r.op, r.res)
/-- The SEC commands, each with its opcode. -/
def secAll : List (Instr × Nat) :=
  [(.verify .clean, 1), (.extend .clean, 2), (.quote, 3), (.bootDone, 4), (.advanceSvn, 5), (.revokeKey, 6), (.advanceLifecycle, 7), (.fuseProgram .clean, 8)]
def busySec : State := lvs [(secPg + 0x110, 1, 0, 1)] up
theorem test_sec_busy : busySec.secState = 1 ∧ secAll.map (fun i => outcome i.1 busySec) = List.replicate 8 none := by decide +kernel
/-- A command runs, its result and data prepared. -/
def ending (op res arg : Nat) (data : List Byte) : State := { up with sec := { up.sec with jobs := [(0, .command)], run := some { op := op, arg := BitVec.ofNat 64 arg, res := res, data := data } } }
/-- A request of another kind is served before the command; a token of the command's own beat comes after it. -/
def servingFirst (j : SecJob) : State := { up with sec := { up.sec with jobs := [(0, j)] } }
theorem test_sec_jobs : (does .quote (servingFirst .sign)).sec.jobs = [(0, .sign), (0, .command)] ∧
    (does .quote (servingFirst (.token [] none))).sec.jobs = [(0, .command), (0, .token [] none)] ∧
    (does .secCmdDone { ending 5 0 9 [] with sec := { (ending 5 0 9 []).sec with jobs := [(0, .sign), (0, .command)] } }).sec.fuses.svn = 0 := by decide +kernel
theorem test_sec_fatal : secAll.map (fun i => if i.2 = 3 then some (3, 6) else outcome i.1 { up with fatal := true }) = (List.range 8).map fun i => some (i + 1, 6) := by decide +kernel
theorem test_sec_reserved : outcome (.secCmdReserved 9) up = some (9, 7) ∧ outcome (.secCmdReserved 0) up = some (0, 7) ∧ outcome (.secCmdReserved 8) up = none := by decide +kernel
theorem test_quote : outcome .quote up = some (3, 0) ∧ (does .quote up).secState = 1 := by decide +kernel
def booted' (arg : Nat) (f : SecSt → SecSt) : State := lvs [(secPg + 0x118, 4, 4, 1)] (secUp arg f)
theorem test_boot_done : outcome .bootDone up = some (4, 0) ∧ outcome .bootDone (booted' 0 id) = some (4, 6) := by decide +kernel
theorem test_advance_svn : outcome .advanceSvn (secUp 5 id) = some (5, 0) ∧ outcome .advanceSvn (secUp 65 id) = some (5, 7) ∧ outcome .advanceSvn (secUp 0 id) = some (5, 7) ∧
    outcome .advanceSvn (booted' 5 id) = some (5, 6) := by decide +kernel
theorem test_revoke_key : outcome .revokeKey (secUp 1 id) = some (6, 0) ∧ outcome .revokeKey (secUp 6 id) = some (6, 7) ∧ outcome .revokeKey (secUp 1 fun c => { c with bootSlot := some 1 }) = some (6, 6) ∧
    outcome .revokeKey (secUp 1 fun c => { c with fuses := { c.fuses with keyRevoke := 13 } }) = some (6, 6) := by decide +kernel
theorem test_advance_lifecycle : outcome .advanceLifecycle (secUp 1 id) = some (7, 0) ∧ outcome .advanceLifecycle (secUp 2 id) = some (7, 7) ∧ outcome .advanceLifecycle (secUp 3 id) = some (7, 0) ∧
    outcome .advanceLifecycle (booted' 1 id) = some (7, 6) := by decide +kernel
theorem test_extend : outcome (.extend .clean) (secUp 64 id) = some (2, 0) ∧ outcome (.extend .clean) (secUp (2 ^ 36 - 63) id) = some (2, 5) ∧
    outcome (.extend .uncorrectable) (secUp (2 ^ 25) id) = some (2, 8) ∧ outcome (.extend .uncorrectable) (secUp 64 id) = some (2, 0) := by decide +kernel
/-- The word that the command's input lies in is about to be corrupt. -/
theorem test_extend_hurt : outcome (.extend .clean) { secUp (2 ^ 25) id with collectors := { Collector.reset with hurt := [pcUnit 0 (pcOf (2 ^ 25))] } :: List.replicate 3 Collector.reset } = some (2, 8) ∧
    (wordUnits (2 ^ 25)).contains (pcUnit 0 (pcOf (2 ^ 25))) = true ∧ outcome (.extend .corrected) (secUp (2 ^ 25) id) = some (2, 0) := by decide +kernel
def factory (arg : Nat) : State := lvs [(secPg + 0x118, 10, 8, 2)] (secUp arg fun c => { c with latched := 0, fuses := { c.fuses with uds := some [] } })
theorem test_fuse_program : outcome (.fuseProgram .clean) (factory 64) = some (8, 0) ∧ outcome (.fuseProgram .clean) (factory (2 ^ 36 - 511)) = some (8, 5) ∧
    outcome (.fuseProgram .clean) (secUp 64 id) = some (8, 6) := by decide +kernel

/-- A key, its secret 57 bytes of 1, and the SHAKE256 of its 57 bytes. -/
def aKey : List Byte := leBytes 57 93413225224724126707995305638535254166434639150892437272172310129850809330613571471008141085588014207350576465414238734099023664385783264
def aKeyHash : List Byte := leBytes 64 13031340144026840248133568315199378754901654576088886791340726765642848424359807198883365258977125300449885058587837883310680913044004006765226093158815702
def keyedFuses (s : SecSt) : SecSt := { s with fuses := { s.fuses with keyHash := [aKeyHash], dbgHash := [aKeyHash] }, secret := List.replicate 57 1, challenge := true }
theorem test_key_hash : shake256 aKey 64 = aKeyHash := by decide +kernel
theorem test_key_public : edPublic (List.replicate 57 1) = aKey := by decide +kernel
/-- The header of an image of one byte. -/
def header (slot svn len : Nat) : List Byte :=
  leBytes 4 0x49425159 ++ leBytes 2 1 ++ [BitVec.ofNat 8 slot, 2] ++ leBytes 4 svn ++ leBytes 4 0 ++ leBytes 8 0 ++ leBytes 8 0 ++ leBytes 4 len ++ List.replicate 28 0 ++ aKey ++
    List.replicate 7 0 ++ leBytes 114 26451427392062784748853867230246719522325849928803084543597173636504774575044125531267978025541176940098500361800173361005194655809297066494762588958777840525622572371008538133413882167628201183135892910467890777812730276310415568843402793489828150619493277693510141209352 ++ List.replicate 14 0
def imaged (h : List Byte) (svn : Nat) : State :=
  { secUp 0 (fun c => { keyedFuses c with fuses := { (keyedFuses c).fuses with svn := svn } }) with ctl := { up.ctl with llc := Memory.writeBytes [] 0 (h ++ [7]) } }
theorem test_verify_format : outcome (.verify .clean) (imaged (header 4 5 1) 0) = some (1, 1) ∧ outcome (.verify .clean) (imaged (header 0 5 0) 0) = some (1, 5) := by decide +kernel
theorem test_verify_image : (header 0 5 1).length = 256 ∧ edVerify aKey (imgDigest (header 0 5 1) [7]) (slice (header 0 5 1) 128 114) = true := by decide +kernel
theorem test_verify_key : imgHeader (imaged (header 0 5 1) 0).sec.fuses (header 0 5 1) true true = 0 ∧ imgHeader (imaged (header 0 5 1) 6).sec.fuses (header 0 5 1) true true = 4 := by decide +kernel

def secStatus (s : State) : Nat × Nat := (s.lv (secPg + 0x110) 15 8, s.lv (secPg + 0x110) 1 0)
theorem test_sec_done : secStatus (does .secCmdDone (ending 5 0 9 [])) = (0, 2) ∧ (does .secCmdDone (ending 5 0 9 [])).sec.fuses.svn = 9 ∧
    secStatus (does .secCmdDone (ending 5 7 9 [])) = (7, 3) ∧ (does .secCmdDone (ending 5 7 9 [])).sec.fuses.svn = 0 ∧ (does .secCmdDone (ending 5 0 9 [])).sec.run = none ∧
    (does .secCmdDone busySec).secState = 1 := by decide +kernel
theorem test_sec_done_blows : (does .secCmdDone (ending 6 0 2 [])).sec.fuses.keyRevoke = 4 ∧ (does .secCmdDone (ending 6 0 5 [])).sec.fuses.dbgRevoke = 2 ∧
    (does .secCmdDone (ending 7 0 2 [])).sec.fuses.lifecycle = 3 ∧ (does .secCmdDone (ending 7 0 3 [])).sec.fuses.lifecycle = 7 ∧ (does .secCmdDone (ending 4 0 0 [])).bootIsDone = true := by decide +kernel

theorem test_new_challenge : (newChallengeEffect up.toDev).sec.challenge = true := by decide +kernel
/-- A token, its fields apart from the key: magic, level, device, challenge. -/
def token (magic level : Nat) (device : List Byte) (challenge : Nat) : List Byte :=
  leBytes 4 magic ++ [BitVec.ofNat 8 level, 0, 0, 0] ++ device ++ leBytes 32 challenge ++ aKey ++ List.replicate 7 0
def aDevice : List Byte := leBytes 64 7127859503257870628408210020658131319544841622860474863220467879334651290958666878498662455427017061934018126003330999194704499053201353212410564805003674
/-- What R769's checks say of a token, its signature zeros. -/
def tokenSays (tok : List Byte) (f : SecSt → SecSt) : Nat := ({ up with sec := f up.sec } : State).tokenResult (tok ++ List.replicate (288 - tok.length) 0)
    ({ up with sec := f up.sec } : State).challengeNow
theorem test_token_checks : tokenSays (token 0x54445159 1 aDevice 0) (fun c => { c with fuses := { c.fuses with debugDisable := true } }) = 2 ∧
    tokenSays (token 0x54445159 1 aDevice 0) id = 3 ∧ tokenSays (token 0x54445159 3 aDevice 0) keyedFuses = 4 ∧ tokenSays (token 0x54445158 1 aDevice 0) keyedFuses = 4 := by decide +kernel
def challenged : State := { up with sec := { up.sec with challenge := true } }
theorem test_submit : (does .submit up).lv (secPg + 0x780) 15 8 = 3 ∧ (does .submit challenged).lv (secPg + 0x780) 15 8 = 4 ∧ (does .submit challenged).sec.challenge = false := by decide +kernel
theorem test_submit_waits : ({ challenged with sec := { challenged.sec with jobs := [(0, .command)] } } : State).sec.jobs ≠ [] ∧
    (does .submit { challenged with sec := { challenged.sec with jobs := [(0, .command)] } }).sec.jobs.length = 2 ∧
    (does .submit { challenged with sec := { challenged.sec with jobs := [(0, .command)] } }).lv (secPg + 0x780) 15 8 = 0 := by decide +kernel
theorem test_token_sound : (token 0x54445159 1 aDevice 0).length = 168 ∧ shake256 (fit aKey 64) 64 = aDevice ∧
    edVerify aKey (token 0x54445159 1 aDevice 0) (leBytes 114 13856613900036557461780268003262751523481314347061350336373011261519853979407860798713948583082306130445588800973925870555510415495782254103242298388717177053298758817174432081351742278983055173533477131461315281303130713917729052370684885939068041497786276148336999877820) = true := by decide +kernel
theorem test_relock : (does .relock (lvs [(secPg + 0x118, 10, 8, 2)] up)).debugLevel = 0 ∧ ((does .relock (injected 0 9)).collector 0).inj = none := by decide +kernel

/-! ### Power, reset and boot -/

def low (step : Nat) : State := { up with pwr := { up.pwr with porLow := true, railStep := step } }
theorem test_rail_step : (does (.railStep 3) (low 2)).pwr.railStep = 3 ∧ (does (.railStep 1) (low 2)).pwr.railStep = 1 ∧ (does (.railStep 4) (low 2)).pwr.railStep = 2 ∧
    (does (.railStep 1) up).pwr.railStep = up.pwr.railStep := by decide +kernel
theorem test_rail_fault : (does (.railFault 2) up).fatal = true ∧ (does (.railFault 2) (low 4)).fatal = false := by decide +kernel
theorem test_thermtrip : (does (.thermtrip 1 115) up).fatal = true ∧ (does (.thermtrip 1 115) up).pwr.tripLow = true ∧ (does (.thermtrip 1 114) up).fatal = false ∧
    (does (.thermtrip 1 115) (low 4)).pwr.tripLow = false := by decide +kernel
/-- A window of the given power, every die at a temperature. -/
def powerWin (watts t : Nat) : PowerWindow := { watts := BitVec.ofNat 16 watts, temps := List.replicate 5 (some (BitVec.ofNat 8 t)), mv := [], cur := [] }
def leveled (n : Nat) : State := { cfgs [(pwrPg + 0x1000, 15, 0, 1000), (pwrPg + 0x1008, 15, 8, 100)] up with pwr := { up.pwr with level := n }, ticks := 1024 }
def levelAfter (n watts t : Nat) : Nat × Nat × Nat :=
  let s := does (.throttleWindow (powerWin watts t)) (leveled n)
  (s.pwr.level, s.lv (pwrPg + 0x170) 3 2, s.lv (pwrPg + 0x170) 1 0)
theorem test_throttle_up : levelAfter 0 1001 50 = (1, 1, 1) ∧ levelAfter 12 900 100 = (13, 2, 2) ∧ levelAfter 16 900 100 = (16, 2, 0) := by decide +kernel
theorem test_throttle_down : levelAfter 1 969 97 = (0, 0, 0) ∧ levelAfter 1 970 97 = (1, 1, 0) ∧ levelAfter 1 969 98 = (1, 1, 0) ∧ levelAfter 1 1000 50 = (1, 1, 0) := by decide +kernel
theorem test_throttle_shown : (does (.throttleWindow (powerWin 700 60)) (leveled 0)).lv (pwrPg + 0x160) 15 0 = 700 ∧
    (does (.throttleWindow (powerWin 700 60)) (leveled 0)).lv (pwrPg + 0x168) 15 8 = 60 ∧ (does (.throttleWindow (powerWin 700 60)) up).lv (pwrPg + 0x160) 15 0 = 0 ∧
    (does (.throttleWindow { powerWin 700 60 with temps := [none] }) (leveled 0)).lv (pwrPg + 0x168) 7 0 = 0xFF ∧ (does (.throttleWindow (powerWin 700 60)) (low 4)).lv (pwrPg + 0x160) 15 0 = 0 := by decide +kernel
theorem test_power_on_reset : (does .powerOnReset running).pwr.porLow = true ∧ (does .powerOnReset { running with number := 5 }).number = 0 ∧
    (does .powerOnReset running).ctl.harts = (CtlSt.reset []).harts := by decide +kernel
theorem test_release_early : (does (.powerOnResetRelease 1) (low 3)).pwr.porLow = true ∧ (low 4).pwr.railStep = 4 ∧ (does (.powerOnResetRelease 1) up).pwr.straps = up.pwr.straps := by decide +kernel
/-- The fuses of a scrapped part, none blown before. -/
def scrapped : State := { low 4 with sec := { up.sec with fuses := { up.sec.fuses with lifecycle := 7 } } }
theorem test_release_trains : (scrapped.toDev.senseFuses).sec.latched = 3 ∧ (scrapped.toDev.senseFuses).sec.secret = [] ∧ (up.toDev.trainStacks).stackState 5 = 1 ∧
    ((collected [] [stackUnit 1] up).toDev.trainStacks).stackState 1 = up.stackState 1 := by decide +kernel
theorem test_rom_blank : up.romCheck 0 = 1 ∧ up.romCheck 0x1000000 = 1 ∧ (up.toDev.bootCode 0x80).lv (ctlPg + 0x100) 7 0 = 0x80 := by decide +kernel
/-- Bytes in HBM and in an SRAM, and a fenced pseudo-channel. -/
def worn : State := { collected [] [pcUnit 1 2] running with mem := Memory.writeBytes (Memory.writeBytes [] 64 [3]) 0x80000000040 [4], number := 9 }
theorem test_warm : worn.warmRunning = false ∧ (worn.afterWarm 2).number = 10 ∧ Memory.read (worn.afterWarm 2).mem 64 = 3 ∧ Memory.read (worn.afterWarm 2).mem 0x80000000040 = 0 ∧
    ((worn.afterWarm 2).collector 0).fenced = [pcUnit 1 2] ∧ (worn.afterWarm 2).lv (pwrPg + 0x188) 4 0 = 2 ∧ (worn.afterWarm 2).stackState 5 = 1 := by decide +kernel
/-- A molt of the warm reset's own beat is discarded, and a fuse command leaves what it was blowing. -/
def molted : State :=
  { up with number := 9, previous := some { number := 8, content := [] },
            audit := [{ kind := 1, instar := 9, source := 0, seq := 0, beat := 0, content := [] }] }
theorem test_warm_molt : (molted.afterWarm 2).number = 9 ∧ (molted.afterWarm 2).audit.length = 1 ∧ (({ molted with beat := 1 } : State).afterWarm 2).number = 10 := by decide +kernel
theorem test_warm_fuses : ((ending 5 7 9 []).afterWarm 2).sec.fuses = (ending 5 7 9 []).sec.fuses ∧ ((ending 3 0 9 []).afterWarm 2).sec.fuses = up.sec.fuses := by decide +kernel
/-- A warm reset runs since tick 0. -/
def warming (ticks : Nat) : State := { up with pwr := { up.pwr with warmAt := some 0 }, ticks := ticks, number := 9 }
theorem test_warm_running : (warming 0).warmRunning = true ∧ (does .warmResetN (warming 0)).lv (pwrPg + 0x188) 4 0 = 3 ∧ (does .warmResetN (warming 1)).lv (pwrPg + 0x188) 4 0 = 1 ∧
    (does .warmResetN (low 4)).lv (pwrPg + 0x188) 4 0 = 1 := by decide +kernel
theorem test_reset_ctrl : (does (.pwrResetCtrlWrite 0x5A01) (warming 0)).lv (pwrPg + 0x188) 4 0 = 0x11 ∧ (does (.pwrResetCtrlWrite 0x5A00) (warming 0)).lv (pwrPg + 0x188) 4 0 = 1 ∧
    (does (.pwrResetCtrlWrite 0x5901) (warming 0)).lv (pwrPg + 0x188) 4 0 = 1 := by decide +kernel
end Sys2Proof.Tests
end

section
/-! PROOF. Sparse tiles decode to what was encoded (R489 to R493). First bytes, masks and cut payloads; then what the encoder
writes and the reader reads, an equation for each of R491's three bodies; then one tile, and the tiles of a row. -/

namespace Sys2Proof.Machine

/-! ### Little-endian bytes -/

@[simp] theorem leBytes_length (n v : Nat) : (leBytes n v).length = n := by
  induction n generalizing v with
  | zero => rfl
  | succ n ih => simp [leBytes, ih]

/-- Bytes read as a number and written again are the same bytes. -/
theorem leBytes_leNat (l : List Byte) : leBytes l.length (leNat l) = l := by
  induction l with
  | nil => rfl
  | cons b t ih =>
    have hb : b.toNat < 256 := b.isLt
    have hlow : BitVec.ofNat 8 (b.toNat + 256 * leNat t) = b := by
      apply BitVec.eq_of_toNat_eq
      rw [BitVec.toNat_ofNat]
      omega
    have hhigh : (b.toNat + 256 * leNat t) / 256 = leNat t := by omega
    simp [leBytes, leNat, hlow, hhigh, ih]

theorem leBytes_leNat_leBytes (n v : Nat) : leBytes n (leNat (leBytes n v)) = leBytes n v := by
  simpa using leBytes_leNat (leBytes n v)

theorem leNat_leBytes (n v : Nat) : leNat (leBytes n v) = v % 256 ^ n := by
  induction n generalizing v with
  | zero => simp [leBytes, leNat, Nat.mod_one]
  | succ n ih =>
    have hstep : v % 256 ^ (n + 1) = v % 256 + 256 * (v / 256 % 256 ^ n) := by
      rw [Nat.pow_succ, Nat.mul_comm, Nat.mod_mul]
    simp [leBytes, leNat, ih, hstep]

@[simp] theorem length_flatMap_leBytes {α : Type} (e : Nat) (f : α → Nat) (l : List α) :
    (l.flatMap fun a => leBytes e (f a)).length = l.length * e := by
  induction l with
  | nil => simp only [List.flatMap_nil, List.length_nil, Nat.zero_mul]
  | cons a t ih =>
    rw [List.flatMap_cons, List.length_append, ih, leBytes_length, List.length_cons, Nat.succ_mul, Nat.add_comm]

theorem length_dense (e : Nat) (us : List Nat) : (us.flatMap (leBytes e)).length = us.length * e :=
  length_flatMap_leBytes e id us

/-- A field that the bytes hold whole. -/
theorem leAt_append (l r : List Byte) (n : Nat) (h : l.length = n) : leAt (l ++ r) 0 n = leNat l := by
  subst h
  simp [leAt, slice]

theorem leAt_cons_zero (b : Byte) (l : List Byte) : leAt (b :: l) 0 1 = b.toNat := by
  simp [leAt, slice, leNat]

theorem leAt_cons_one (a b : Byte) (l : List Byte) : leAt (a :: b :: l) 1 1 = b.toNat := by
  simp [leAt, slice, leNat]

/-! ### Masks -/

theorem bit_eq_testBit (n i : Nat) : bit n i = n.testBit i := by
  rw [bit, Nat.testBit_eq_decide_div_mod_eq]
  rfl

theorem testBit_foldl_or_pow (l : List Nat) (m i : Nat) :
    (l.foldl (fun m i => m ||| 2 ^ i) m).testBit i = (m.testBit i || decide (i ∈ l)) := by
  induction l generalizing m with
  | nil => simp
  | cons a t ih =>
    rw [List.foldl_cons, ih, Nat.testBit_or, Nat.testBit_two_pow, Bool.or_assoc]
    simp [eq_comm]

theorem testBit_listMask (l : List Nat) (i : Nat) : (listMask l).testBit i = decide (i ∈ l) := by
  simp [listMask, testBit_foldl_or_pow]

theorem listMask_lt (l : List Nat) (n : Nat) (h : ∀ i ∈ l, i < n) : listMask l < 2 ^ n := by
  apply Nat.lt_pow_two_of_testBit
  intro i hi
  rw [testBit_listMask, decide_eq_false]
  exact fun hm => absurd (h i hm) (by omega)

/-- An ascending list of positions is read back from its mask. -/
theorem maskList_listMask (l : List Nat) (n : Nat) (hs : l.Pairwise (· < ·)) (h : ∀ i ∈ l, i < n) :
    maskList n (listMask l) = l := by
  have hrange : (maskList n (listMask l)).Pairwise (· < ·) :=
    List.pairwise_lt_range.sublist List.filter_sublist
  have hmem : ∀ i, i ∈ maskList n (listMask l) ↔ i ∈ l := by
    intro i
    simp only [maskList, setOf, List.mem_filter, List.mem_range, bit_eq_testBit, testBit_listMask, decide_eq_true_eq]
    exact ⟨And.right, fun hm => ⟨h i hm, hm⟩⟩
  have hperm := (List.perm_ext_iff_of_nodup (hrange.imp Nat.ne_of_lt) (hs.imp Nat.ne_of_lt)).mpr hmem
  exact hperm.eq_of_pairwise (fun a b _ _ hab hba => absurd hab (Nat.lt_asymm hba)) hrange hs

/-! ### Elements with their offsets -/

/-- The elements of a tile that `q` holds of, each with its offset: the present ones for the sparse forms, all for DENSE. -/
def entries (q : Nat → Bool) (us : List Nat) : List (Nat × Nat) := us.zipIdx.filter fun p => q p.1

/-- What reading the bytes of entries gives: offsets with values. -/
def readBack (e : Nat) (ps : List (Nat × Nat)) : List (Nat × Nat) := ps.map fun p => (p.2, leNat (leBytes e p.1))

theorem entries_true (us : List Nat) : entries (fun _ => true) us = us.zipIdx := by
  simp [entries]

theorem entries_length (q : Nat → Bool) (us : List Nat) : (entries q us).length = (us.filter q).length := by
  have h : (entries q us).map Prod.fst = us.filter q := by
    have hq : us.zipIdx.filter (fun p => q p.1) = us.zipIdx.filter (q ∘ Prod.fst) := rfl
    rw [entries, hq, ← List.filter_map, List.zipIdx_map_fst]
  rw [← h, List.length_map]

/-- The offsets of entries ascend. -/
theorem entries_offsets_ascend (q : Nat → Bool) (us : List Nat) : ((entries q us).map Prod.snd).Pairwise (· < ·) := by
  have hall : (us.zipIdx.map Prod.snd).Pairwise (· < ·) := by
    rw [List.zipIdx_map_snd]
    exact List.pairwise_lt_range'
  exact hall.sublist (List.filter_sublist.map _)

theorem entries_offset_lt (q : Nat → Bool) (us : List Nat) : ∀ i ∈ (entries q us).map Prod.snd, i < us.length := by
  intro i hi
  obtain ⟨p, hp, rfl⟩ := List.mem_map.mp hi
  simpa using List.snd_lt_of_mem_zipIdx (List.mem_filter.mp hp).1

/-- Elements written one after another are cut apart again. -/
theorem cut_flatMap_leBytes (e : Nat) (he : 0 < e) (ps : List (Nat × Nat)) (rest : List Byte) :
    cut e ps.length ((ps.flatMap fun p => leBytes e p.1) ++ rest) = ps.map fun p => leBytes e p.1 := by
  induction ps with
  | nil => rfl
  | cons p ps ih =>
    rw [List.flatMap_cons, List.length_cons, cut, List.append_assoc, if_neg (by simp only [List.length_append, leBytes_length]; omega)]
    simp [ih]

theorem pairVals_flatMap_leBytes (e : Nat) (he : 0 < e) (ps : List (Nat × Nat)) (rest : List Byte) :
    pairVals e (ps.map Prod.snd) ((ps.flatMap fun p => leBytes e p.1) ++ rest) = readBack e ps := by
  rw [pairVals, List.length_map, cut_flatMap_leBytes e he, List.map_map, List.zip_map']
  rfl

/-! ### Spreading entries over a tile -/

theorem filter_zipIdx_at (us : List Nat) (s i : Nat) (h : i < us.length) :
    (us.zipIdx s).filter (fun p => p.2 == s + i) = [(us[i], s + i)] := by
  induction us generalizing s i with
  | nil => simp at h
  | cons u t ih =>
    rw [List.zipIdx_cons]
    cases i with
    | zero =>
      have hnone : (t.zipIdx (s + 1)).filter (fun p => p.2 == s) = [] := by
        rw [List.filter_eq_nil_iff]
        intro p hp
        have := List.le_snd_of_mem_zipIdx hp
        simp only [beq_iff_eq]
        omega
      simp [hnone]
    | succ i =>
      have := ih (s + 1) i (by simpa using h)
      simp only [show s + (i + 1) = s + 1 + i by omega] at *
      rw [List.filter_cons_of_neg (by simp only [beq_iff_eq]; omega), this]
      rfl

/-- At each offset of the tile stands its own value when it is an entry, and none when it is not. -/
theorem filter_readBack_entries (q : Nat → Bool) (e : Nat) (us : List Nat) (i : Nat) (h : i < us.length) :
    ((readBack e (entries q us)).filter fun v => v.1 == i).map Prod.snd =
      if q us[i] then [leNat (leBytes e us[i])] else [] := by
  have hat := filter_zipIdx_at us 0 i h
  rw [Nat.zero_add] at hat
  have hcomm : (entries q us).filter (fun p => p.2 == i) = [(us[i], i)].filter fun p => q p.1 := by
    rw [← hat, entries, List.filter_filter, List.filter_filter]
    exact List.filter_congr fun p _ => Bool.and_comm _ _
  rw [readBack, List.filter_map]
  change List.map Prod.snd (List.map _ ((entries q us).filter fun p => p.2 == i)) = _
  rw [hcomm]
  cases hq : q us[i] <;> simp [hq]

theorem firstVals_spread_entries (q : Nat → Bool) (e : Nat) (us : List Nat) :
    firstVals (spread us.length (readBack e (entries q us))) = us.map fun u => if q u then leNat (leBytes e u) else 0 := by
  apply List.ext_getElem
  · simp [firstVals, spread]
  · intro i hi hj
    have hlen : i < us.length := by simpa using hj
    simp only [firstVals, spread, List.getElem_map, List.getElem_range, filter_readBack_entries q e us i hlen]
    cases q us[i] <;> rfl

/-- What was left out was zero, so that the tile's bytes come back. -/
theorem flatMap_firstVals_spread (q : Nat → Bool) (e : Nat) (us : List Nat) (hq : ∀ u, q u = false → u = 0) :
    (firstVals (spread us.length (readBack e (entries q us)))).flatMap (leBytes e) = us.flatMap (leBytes e) := by
  rw [firstVals_spread_entries, List.flatMap_map]
  congr 1
  funext u
  cases hu : q u with
  | true => exact leBytes_leNat_leBytes e u
  | false => rw [hq u hu]; rfl

/-! ### The form of a tile (R493) -/

/-- The elements of a tile that are present (R490). -/
def isPresent (u : Nat) : Bool := u != 0

/-- The form that the encoder gives a tile. -/
def tileForm (fmt : Nat) (us : List Nat) : Nat :=
  if sparseFmt fmt then chooseForm us.length (elemBytes fmt) (entries isPresent us).length else 0

theorem chooseForm_eq (n e k : Nat) :
    chooseForm n e k =
      if n * e ≤ min (32 + k * e) (1 + k * (1 + e)) then 0 else if 32 + k * e ≤ 1 + k * (1 + e) then 1 else 2 := rfl

theorem chooseForm_cases (n e k : Nat) :
    (chooseForm n e k = 0 ∧ n * e ≤ min (32 + k * e) (1 + k * (1 + e))) ∨
    (chooseForm n e k = 1 ∧ 32 + k * e ≤ 1 + k * (1 + e) ∧ 32 + k * e < n * e) ∨
    (chooseForm n e k = 2 ∧ 1 + k * (1 + e) < 32 + k * e ∧ 1 + k * (1 + e) < n * e) := by
  rw [chooseForm_eq]
  by_cases hdense : n * e ≤ min (32 + k * e) (1 + k * (1 + e))
  · exact .inl ⟨if_pos hdense, hdense⟩
  · rw [if_neg hdense]
    by_cases hbitmap : 32 + k * e ≤ 1 + k * (1 + e)
    · exact .inr (.inl ⟨if_pos hbitmap, hbitmap, by omega⟩)
    · exact .inr (.inr ⟨if_neg hbitmap, by omega, by omega⟩)

/-- The three forms that a tile can have, each with what its choice says of the body's length. -/
theorem tileForm_cases (fmt : Nat) (us : List Nat) :
    let e := elemBytes fmt
    let k := (entries isPresent us).length
    tileForm fmt us = 0 ∨
    (tileForm fmt us = 1 ∧ sparseFmt fmt = true ∧ 32 + k * e < us.length * e) ∨
    (tileForm fmt us = 2 ∧ sparseFmt fmt = true ∧ 1 + k + k * e < us.length * e ∧ k ≤ 30) := by
  intro e k
  cases hs : sparseFmt fmt with
  | false => exact .inl (by simp [tileForm, hs])
  | true =>
    have hform : tileForm fmt us = chooseForm us.length e k := by simp [tileForm, hs, e, k]
    have hindex : 1 + k * (1 + e) = 1 + k + k * e := by rw [Nat.mul_add, Nat.mul_one, Nat.add_assoc]
    rw [hform]
    rcases chooseForm_cases us.length e k with ⟨h, -⟩ | ⟨h, -, hd⟩ | ⟨h, hb, hd⟩
    · exact .inl h
    · exact .inr (.inl ⟨h, rfl, hd⟩)
    · exact .inr (.inr ⟨h, rfl, by omega, by omega⟩)

/-! ### What the encoder writes (R491, R492) -/

/-- `tileForm` as the encoder computes it. -/
theorem tileForm_eq (fmt : Nat) (us : List Nat) :
    tileForm fmt us = if sparseFmt fmt then chooseForm us.length (elemBytes fmt) (us.zipIdx.filter fun p => p.1 != 0).length else 0 :=
  rfl

theorem encodeTile_dense (fmt : Nat) (us : List Nat) (h : tileForm fmt us = 0) :
    encodeTile fmt us = 0 :: BitVec.ofNat 8 (us.length - 1) :: us.flatMap (leBytes (elemBytes fmt)) := by
  rw [tileForm_eq] at h
  simp only [encodeTile, h]
  rfl

theorem encodeTile_bitmap (fmt : Nat) (us : List Nat) (h : tileForm fmt us = 1) :
    encodeTile fmt us = 1 :: BitVec.ofNat 8 (us.length - 1) ::
      (leBytes 32 (listMask ((entries isPresent us).map Prod.snd)) ++
        (entries isPresent us).flatMap fun p => leBytes (elemBytes fmt) p.1) := by
  rw [tileForm_eq] at h
  simp only [encodeTile, h]
  rfl

theorem encodeTile_index (fmt : Nat) (us : List Nat) (h : tileForm fmt us = 2) :
    encodeTile fmt us = 2 :: BitVec.ofNat 8 (us.length - 1) :: BitVec.ofNat 8 (entries isPresent us).length ::
      (((entries isPresent us).map fun p => BitVec.ofNat 8 p.2) ++
        (entries isPresent us).flatMap fun p => leBytes (elemBytes fmt) p.1) := by
  rw [tileForm_eq] at h
  simp only [encodeTile, h]
  rfl

/-- An encoded tile is its tag, its length and the body that its form gives. -/
theorem encodeTile_length (fmt : Nat) (us : List Nat) :
    let e := elemBytes fmt
    let k := (entries isPresent us).length
    (encodeTile fmt us).length =
      2 + if tileForm fmt us = 0 then us.length * e else if tileForm fmt us = 1 then 32 + k * e else 1 + k + k * e := by
  intro e k
  rcases tileForm_cases fmt us with h | ⟨h, -⟩ | ⟨h, -⟩
  · rw [encodeTile_dense fmt us h, h, if_pos rfl]
    simp only [List.length_cons, length_dense, e]
    omega
  · rw [encodeTile_bitmap fmt us h, h, if_neg (by decide), if_pos rfl]
    simp only [List.length_cons, List.length_append, leBytes_length, length_flatMap_leBytes, e, k]
    omega
  · rw [encodeTile_index fmt us h, h, if_neg (by decide), if_neg (by decide)]
    simp only [List.length_cons, List.length_append, List.length_map, length_flatMap_leBytes, e, k]
    omega

/-- The tag in byte 0. -/
theorem leAt_encodeTile (fmt : Nat) (us : List Nat) : leAt (encodeTile fmt us) 0 1 = tileForm fmt us := by
  rcases tileForm_cases fmt us with h | ⟨h, -⟩ | ⟨h, -⟩
  · rw [encodeTile_dense fmt us h, leAt_cons_zero, h]; rfl
  · rw [encodeTile_bitmap fmt us h, leAt_cons_zero, h]; rfl
  · rw [encodeTile_index fmt us h, leAt_cons_zero, h]; rfl

/-! ### What the reader reads (R491, R492, R500) -/

/-- How the reader takes a compressed body: `m` bytes of metadata that name the offsets, then the values. -/
def readSparse (e n : Nat) (body : List Byte) (offs : List Nat) (m : Nat) : TileOut :=
  let sz := m + offs.length * e
  if sz ≥ n * e then .malformed
  else if body.length < sz then .short n
  else .tile { n := n, vals := (pairVals e offs (body.drop m)).filter fun v => decide (v.1 < n),
               drops := (offs.filter (n ≤ ·)).length, size := 2 + sz }

theorem readTile_dense (fmt : Nat) (b : Byte) (body : List Byte) :
    readTile fmt (0 :: b :: body) =
      if body.length < (b.toNat + 1) * elemBytes fmt then .short (b.toNat + 1)
      else .tile { n := b.toNat + 1, vals := pairVals (elemBytes fmt) (List.range (b.toNat + 1)) body, drops := 0,
                   size := 2 + (b.toNat + 1) * elemBytes fmt } := by
  have hlen : ¬ body.length + 1 + 1 < 2 := by omega
  simp [readTile, leAt_cons_zero, leAt_cons_one, bits, hlen]

theorem readTile_bitmap (fmt : Nat) (b : Byte) (body : List Byte) (hs : sparseFmt fmt = true) (hb : 32 ≤ body.length) :
    readTile fmt (1 :: b :: body) = readSparse (elemBytes fmt) (b.toNat + 1) body (maskList 256 (leAt body 0 32)) 32 := by
  have hlen : ¬ body.length + 1 + 1 < 2 := by omega
  simp [readTile, leAt_cons_zero, leAt_cons_one, bits, hlen, hs, Nat.not_lt.mpr hb, readSparse]

theorem readTile_index (fmt : Nat) (b k : Byte) (t : List Byte) (hs : sparseFmt fmt = true) (hk : k.toNat ≤ t.length) :
    readTile fmt (2 :: b :: k :: t) =
      readSparse (elemBytes fmt) (b.toNat + 1) (k :: t) ((t.take k.toNat).map (·.toNat)) (1 + k.toNat) := by
  have hlen : ¬ t.length + 1 + 1 + 1 < 2 := by omega
  simp [readTile, leAt_cons_zero, leAt_cons_one, bits, hlen, hs, Nat.not_lt.mpr hk, readSparse]

/-- A body whose metadata names entries of the tile, shorter than the dense one, is read whole. -/
theorem readSparse_entries (e : Nat) (q : Nat → Bool) (us : List Nat) (head rest : List Byte)
    (h : head.length + (entries q us).length * e < us.length * e) :
    readSparse e us.length (head ++ ((entries q us).flatMap fun p => leBytes e p.1) ++ rest)
        ((entries q us).map Prod.snd) head.length =
      .tile { n := us.length, vals := readBack e (entries q us), drops := 0,
              size := 2 + (head.length + (entries q us).length * e) } := by
  have he : 0 < e := Nat.pos_of_ne_zero (by rintro rfl; simp at h)
  have hlt := entries_offset_lt q us
  have hvals : (readBack e (entries q us)).filter (fun v => decide (v.1 < us.length)) = readBack e (entries q us) := by
    rw [List.filter_eq_self]
    intro v hv
    obtain ⟨p, hp, rfl⟩ := List.mem_map.mp hv
    exact decide_eq_true (hlt p.2 (List.mem_map_of_mem hp))
  have hdrops : ((entries q us).map Prod.snd).filter (us.length ≤ ·) = [] := by
    rw [List.filter_eq_nil_iff]
    intro i hi
    simpa using hlt i hi
  have hread := pairVals_flatMap_leBytes e he (entries q us) rest
  rw [readSparse]
  simp only [List.length_map]
  rw [if_neg (by omega), if_neg (by simp only [List.length_append, length_flatMap_leBytes]; omega), List.append_assoc,
    List.drop_left, hread, hvals, hdrops]
  rfl

/-! ### One tile -/

/-- The length byte: a tile of 256 fits it. -/
theorem toNat_ofNat_pred (n : Nat) (h1 : 1 ≤ n) (h2 : n ≤ 256) : (BitVec.ofNat 8 (n - 1)).toNat + 1 = n := by
  rw [BitVec.toNat_ofNat]
  omega

/-- What follows the encoded tile `us` is left, and values were read from it that decode to its elements. -/
def ReadsBack (fmt : Nat) (us : List Nat) (rest : List Byte) : Prop :=
  ∃ vals, readTile fmt (encodeTile fmt us ++ rest) =
      .tile { n := us.length, vals := vals, drops := 0, size := (encodeTile fmt us).length } ∧
    (firstVals (spread us.length vals)).flatMap (leBytes (elemBytes fmt)) = us.flatMap (leBytes (elemBytes fmt))

section
variable (fmt : Nat) (us : List Nat) (rest : List Byte) (h1 : 1 ≤ us.length) (h2 : us.length ≤ 256)
include h1 h2

theorem readsBack_dense (h : tileForm fmt us = 0) : ReadsBack fmt us rest := by
  have hn := toNat_ofNat_pred us.length h1 h2
  have hlen := encodeTile_length fmt us
  simp only [h, if_true] at hlen
  refine ⟨pairVals (elemBytes fmt) (List.range us.length) (us.flatMap (leBytes (elemBytes fmt)) ++ rest), ?_, ?_⟩
  · rw [hlen, encodeTile_dense fmt us h, List.cons_append, List.cons_append, readTile_dense, hn, if_neg]
    simp only [List.length_append, length_dense]
    omega
  · rcases Nat.eq_zero_or_pos (elemBytes fmt) with he | he
    · have hnil : ∀ l : List Nat, l.flatMap (leBytes 0) = [] := fun l => List.flatMap_eq_nil_iff.mpr fun _ _ => rfl
      rw [he, hnil, hnil]
    · have hoffs : us.zipIdx.map Prod.snd = List.range us.length := by rw [List.zipIdx_map_snd, List.range_eq_range']
      have hbytes : us.flatMap (leBytes (elemBytes fmt)) = us.zipIdx.flatMap fun p => leBytes (elemBytes fmt) p.1 := by
        calc us.flatMap (leBytes (elemBytes fmt))
            = (us.zipIdx.map Prod.fst).flatMap (leBytes (elemBytes fmt)) := by rw [List.zipIdx_map_fst]
          _ = us.zipIdx.flatMap fun p => leBytes (elemBytes fmt) p.1 := List.flatMap_map _ _ _
      rw [← hoffs, hbytes, pairVals_flatMap_leBytes _ he, ← hbytes, ← entries_true]
      exact flatMap_firstVals_spread _ _ us (by simp)

theorem readsBack_bitmap (h : tileForm fmt us = 1) (hs : sparseFmt fmt = true)
    (hd : 32 + (entries isPresent us).length * elemBytes fmt < us.length * elemBytes fmt) : ReadsBack fmt us rest := by
  have hn := toNat_ofNat_pred us.length h1 h2
  have hlen := encodeTile_length fmt us
  have hlt : ∀ i ∈ (entries isPresent us).map Prod.snd, i < 256 := fun i hi =>
    Nat.lt_of_lt_of_le (entries_offset_lt isPresent us i hi) h2
  have hmask : leNat (leBytes 32 (listMask ((entries isPresent us).map Prod.snd))) =
      listMask ((entries isPresent us).map Prod.snd) := by
    rw [leNat_leBytes, Nat.mod_eq_of_lt]
    simpa [← Nat.pow_mul] using listMask_lt _ 256 hlt
  refine ⟨readBack (elemBytes fmt) (entries isPresent us), ?_, flatMap_firstVals_spread _ _ us (by simp [isPresent])⟩
  have hread := readSparse_entries (elemBytes fmt) isPresent us
    (leBytes 32 (listMask ((entries isPresent us).map Prod.snd))) rest (by simpa using hd)
  rw [leBytes_length] at hread
  simp only [h] at hlen
  rw [hlen, encodeTile_bitmap fmt us h, List.cons_append, List.cons_append, readTile_bitmap fmt _ _ hs (by simp), hn,
    List.append_assoc, leAt_append _ _ 32 (leBytes_length _ _), hmask,
    maskList_listMask _ 256 (entries_offsets_ascend isPresent us) hlt, ← List.append_assoc, hread]
  rfl

theorem readsBack_index (h : tileForm fmt us = 2) (hs : sparseFmt fmt = true)
    (hd : 1 + (entries isPresent us).length + (entries isPresent us).length * elemBytes fmt < us.length * elemBytes fmt)
    (hk : (entries isPresent us).length ≤ 30) : ReadsBack fmt us rest := by
  have hn := toNat_ofNat_pred us.length h1 h2
  have hlen := encodeTile_length fmt us
  have hcount : (BitVec.ofNat 8 (entries isPresent us).length).toNat = (entries isPresent us).length := by
    rw [BitVec.toNat_ofNat]
    omega
  have hoffs : ((entries isPresent us).map fun p => BitVec.ofNat 8 p.2).map (·.toNat) = (entries isPresent us).map Prod.snd := by
    rw [List.map_map]
    apply List.map_congr_left
    intro p hp
    have := entries_offset_lt isPresent us p.2 (List.mem_map_of_mem hp)
    rw [Function.comp_apply, BitVec.toNat_ofNat]
    omega
  refine ⟨readBack (elemBytes fmt) (entries isPresent us), ?_, flatMap_firstVals_spread _ _ us (by simp [isPresent])⟩
  have hread := readSparse_entries (elemBytes fmt) isPresent us
    (BitVec.ofNat 8 (entries isPresent us).length :: (entries isPresent us).map fun p => BitVec.ofNat 8 p.2) rest
    (by simp only [List.length_cons, List.length_map]; omega)
  simp only [h] at hlen
  rw [hlen, encodeTile_index fmt us h]
  simp only [List.cons_append]
  rw [readTile_index fmt _ _ _ hs (by simp [hcount]), hn, hcount, List.append_assoc,
    List.take_left' (by simp), hoffs]
  simpa [Nat.add_comm 1] using hread

theorem readsBack_encodeTile : ReadsBack fmt us rest := by
  rcases tileForm_cases fmt us with h | ⟨h, hs, hd⟩ | ⟨h, hs, hd, hk⟩
  · exact readsBack_dense fmt us rest h1 h2 h
  · exact readsBack_bitmap fmt us rest h1 h2 h hs hd
  · exact readsBack_index fmt us rest h1 h2 h hs hd hk

end

/-! ### The tiles of a row -/

/-- What decoding gives when nothing was wrong with the bytes: the elements of `us`. -/
def decoded (fmt : Nat) (us : List Nat) : Dec := { out := us.flatMap (leBytes (elemBytes fmt)), drops := 0, whole := false, bad := false }

theorem decodeTile_encodeTile (fmt : Nat) (us : List Nat) (rest : List Byte) (hmx : isMx fmt = false)
    (h1 : 1 ≤ us.length) (h2 : us.length ≤ 256) :
    decodeTile fmt us.length (encodeTile fmt us ++ rest) = (decoded fmt us, rest) := by
  obtain ⟨vals, hread, hvals⟩ := readsBack_encodeTile fmt us rest h1 h2
  simp [decodeTile, hmx, hread, hvals, decoded]

/-- A tile of MX blocks is its tag, its length and its blocks. -/
theorem encodeUnits_mx (fmt : Nat) (us : List Nat) (hmx : isMx fmt = true) :
    encodeUnits fmt us = 0 :: BitVec.ofNat 8 (32 * us.length - 1) :: us.flatMap (leBytes (elemBytes fmt)) := by
  simp [encodeUnits, hmx]

theorem encodeUnits_not_mx (fmt : Nat) (us : List Nat) (hmx : isMx fmt = false) : encodeUnits fmt us = encodeTile fmt us := by
  simp [encodeUnits, hmx]

theorem decodeTile_mx (fmt : Nat) (us : List Nat) (rest : List Byte) (hmx : isMx fmt = true)
    (h1 : 1 ≤ us.length) (h2 : us.length ≤ 8) :
    decodeTile fmt us.length (encodeUnits fmt us ++ rest) = (decoded fmt us, rest) := by
  have hn := toNat_ofNat_pred (32 * us.length) (by omega) (by omega)
  have hlen := length_dense (elemBytes fmt) us
  rw [encodeUnits_mx fmt us hmx, List.cons_append, List.cons_append, decodeTile, if_pos hmx]
  simp only [leAt_cons_zero, leAt_cons_one, hn]
  rw [if_neg (by decide), if_neg (by simp only [List.length_cons, List.length_append, hlen]; omega)]
  rw [← hlen, Nat.add_comm 2]
  simp [decoded]

/-- Decoding an encoded tile gives its elements, drops none and leaves what follows. -/
theorem decodeTile_encodeUnits (fmt : Nat) (us : List Nat) (rest : List Byte) (h1 : 1 ≤ us.length)
    (h2 : us.length ≤ tileUnits fmt) :
    decodeTile fmt us.length (encodeUnits fmt us ++ rest) = (decoded fmt us, rest) := by
  cases hmx : isMx fmt with
  | true => exact decodeTile_mx fmt us rest hmx h1 (by simpa [tileUnits, hmx] using h2)
  | false =>
    rw [encodeUnits_not_mx fmt us hmx]
    exact decodeTile_encodeTile fmt us rest hmx h1 (by simpa [tileUnits, hmx] using h2)

theorem decodeTiles_encodeUnits (fmt : Nat) (tiles : List (List Nat))
    (h : ∀ us ∈ tiles, 1 ≤ us.length ∧ us.length ≤ tileUnits fmt) :
    decodeTiles fmt (tiles.map List.length) (tiles.flatMap (encodeUnits fmt)) = decoded fmt tiles.flatten := by
  induction tiles with
  | nil => rfl
  | cons us t ih =>
    obtain ⟨h1, h2⟩ := h us List.mem_cons_self
    have ht := ih fun vs hv => h vs (List.mem_cons_of_mem us hv)
    rw [List.map_cons, List.flatMap_cons, decodeTiles, decodeTile_encodeUnits fmt us _ h1 h2]
    simp [ht, decoded]

/-! ### The form and the length of an encoded tile -/

theorem not_sparse_of_mx (fmt : Nat) (hmx : isMx fmt = true) : sparseFmt fmt = false := by
  rw [Bool.eq_false_iff]
  intro hs
  simp only [isMx, sparseFmt, Bool.or_eq_true, Bool.and_eq_true, decide_eq_true_eq] at hmx hs
  omega

theorem not_mx_of_sparse (fmt : Nat) (hs : sparseFmt fmt = true) : isMx fmt = false := by
  cases hmx : isMx fmt with
  | false => rfl
  | true => simp [not_sparse_of_mx fmt hmx] at hs

/-- A format without sparse forms travels DENSE. -/
theorem encodeUnits_not_sparse (fmt : Nat) (us : List Nat) (hs : sparseFmt fmt = false) :
    (encodeUnits fmt us).length = 2 + us.length * elemBytes fmt ∧ leAt (encodeUnits fmt us) 0 1 = 0 := by
  cases hmx : isMx fmt with
  | true =>
    rw [encodeUnits_mx fmt us hmx, leAt_cons_zero, List.length_cons, List.length_cons, length_dense]
    exact ⟨by omega, rfl⟩
  | false =>
    have hform : tileForm fmt us = 0 := by simp [tileForm, hs]
    rw [encodeUnits_not_mx fmt us hmx, encodeTile_length, leAt_encodeTile, hform]
    exact ⟨rfl, rfl⟩

/-- A tile of a sparse format takes R493's form, and with it the shortest of the three bodies. -/
theorem encodeUnits_sparse (fmt : Nat) (us : List Nat) (hs : sparseFmt fmt = true) :
    let k := (us.filter (· ≠ 0)).length
    let dense := us.length * elemBytes fmt
    let bitmap := 32 + k * elemBytes fmt
    let index := 1 + k * (1 + elemBytes fmt)
    (encodeUnits fmt us).length = 2 + min dense (min bitmap index) ∧
      leAt (encodeUnits fmt us) 0 1 = if dense ≤ min bitmap index then 0 else if bitmap ≤ index then 1 else 2 := by
  intro k dense bitmap index
  have hk : (entries isPresent us).length = k := by
    rw [entries_length]
    congr 1
    exact List.filter_congr fun u _ => Bool.eq_iff_iff.mpr (by simp only [isPresent, bne_iff_ne, decide_eq_true_eq])
  have hform : tileForm fmt us = chooseForm us.length (elemBytes fmt) k := by rw [tileForm, if_pos hs, hk]
  have hindex : index = 1 + k + k * elemBytes fmt := by simp only [index, Nat.mul_add, Nat.mul_one, Nat.add_assoc]
  have hlen := encodeTile_length fmt us
  rw [encodeUnits_not_mx fmt us (not_mx_of_sparse fmt hs), leAt_encodeTile, hform]
  refine ⟨?_, chooseForm_eq _ _ _⟩
  simp only [hk, hform] at hlen
  rw [hlen]
  rcases chooseForm_cases us.length (elemBytes fmt) k with ⟨h, hd⟩ | ⟨h, hb, hd⟩ | ⟨h, hb, hd⟩
  · rw [h, if_pos rfl]
    omega
  · rw [h, if_neg (by decide), if_pos rfl]
    omega
  · rw [h, if_neg (by decide), if_neg (by decide)]
    omega

/-- No encoded tile is longer than its dense form. -/
theorem encodeUnits_length_le (fmt : Nat) (us : List Nat) :
    (encodeUnits fmt us).length ≤ 2 + us.length * elemBytes fmt := by
  cases hs : sparseFmt fmt with
  | true =>
    rw [(encodeUnits_sparse fmt us hs).1]
    exact Nat.add_le_add_left (Nat.min_le_left _ _) 2
  | false => exact (encodeUnits_not_sparse fmt us hs).1 |> Nat.le_of_eq

/-- Settles O45: each tile is decoded to its elements whatever its form is, so that the row's tiles are, one after another; and the
form that the encoder computes is R493's choice. -/
theorem sparseTilesRoundTrip : Obligations.SparseTilesRoundTrip := by
  unfold Obligations.SparseTilesRoundTrip
  intro fmt tiles h
  refine ⟨decodeTiles_encodeUnits fmt tiles h, fun us hus => ?_⟩
  obtain ⟨h1, h2⟩ := h us hus
  exact ⟨fun rest => decodeTile_encodeUnits fmt us rest h1 h2, encodeUnits_length_le fmt us, encodeUnits_sparse fmt us,
    encodeUnits_not_sparse fmt us⟩

end Sys2Proof.Machine
end

section
/-! PROOF. Sorts, merges, top-k and filters (R634). First `sortBy` by an integer key, so that rising and falling order
(the negated key) are one argument; then that a stable sorted list is the only one of its kind; then the two-pointer merge. -/

namespace Sys2Proof.Machine

/-! ### Sorting by a key -/

theorem insertBy_perm {α : Type} (before : α → α → Bool) (a : α) (l : List α) : (insertBy before a l).Perm (a :: l) := by
  induction l with
  | nil => exact .refl _
  | cons b t ih =>
    rw [insertBy]
    split
    · exact .refl _
    · exact (ih.cons b).trans (.swap a b t)

/-- `sortBy` inserts one element after another, from the first on. -/
theorem foldl_insertBy_perm {α : Type} (before : α → α → Bool) (l acc : List α) :
    (l.foldl (fun acc a => insertBy before a acc) acc).Perm (acc ++ l) := by
  induction l generalizing acc with
  | nil => rw [List.append_nil]; exact .refl _
  | cons a t ih => exact (ih _).trans (((insertBy_perm before a acc).append_right t).trans List.perm_middle.symm)

theorem sortBy_perm {α : Type} (before : α → α → Bool) (l : List α) : (sortBy before l).Perm l :=
  foldl_insertBy_perm before l []

/-- In rising order of their keys. -/
def Rising {α : Type} (key : α → Int) (l : List α) : Prop := l.Pairwise fun a b => key a ≤ key b

section
variable {α : Type} {key : α → Int}

theorem rising_cons {a : α} {l : List α} : Rising key (a :: l) ↔ (∀ b ∈ l, key a ≤ key b) ∧ Rising key l :=
  List.pairwise_cons

theorem filter_key_cons_eq {b : α} {k : Int} (hk : key b = k) (l : List α) :
    (b :: l).filter (fun x => key x = k) = b :: l.filter fun x => key x = k :=
  List.filter_cons_of_pos (decide_eq_true hk)

theorem filter_key_cons_ne {b : α} {k : Int} (hk : key b ≠ k) (l : List α) :
    (b :: l).filter (fun x => key x = k) = l.filter fun x => key x = k :=
  List.filter_cons_of_neg fun h => hk (of_decide_eq_true h)

/-- A bound of the head's key bounds every key of a rising list. -/
theorem le_key_of_le_head {b : α} {l : List α} {k : Int} (hl : Rising key (b :: l)) (hk : k ≤ key b) : ∀ x ∈ b :: l, k ≤ key x :=
  List.forall_mem_cons.mpr ⟨hk, fun x hx => Int.le_trans hk ((rising_cons.mp hl).1 x hx)⟩

/-- Behind a greater head nothing has the key. -/
theorem filter_key_eq_nil {b : α} {l : List α} {k : Int} (hl : Rising key (b :: l)) (hk : k < key b) :
    (b :: l).filter (fun x => key x = k) = [] := by
  refine List.filter_eq_nil_iff.mpr fun x hx => ?_
  have hbx : key b ≤ key x := le_key_of_le_head hl (Int.le_refl _) x hx
  rw [decide_eq_true_iff]
  omega

end

section
variable {α : Type} {key : α → Int} {before : α → α → Bool} (hb : ∀ a b, before a b = true ↔ key a < key b)
include hb

theorem rising_insertBy (a : α) {l : List α} (hl : Rising key l) : Rising key (insertBy before a l) := by
  induction l with
  | nil => exact List.pairwise_singleton _ a
  | cons b t ih =>
    obtain ⟨hbt, ht⟩ := rising_cons.mp hl
    rw [insertBy]
    split
    next hab => exact rising_cons.mpr ⟨le_key_of_le_head hl (Int.le_of_lt ((hb a b).mp hab)), hl⟩
    next hab =>
      have hba : key b ≤ key a := Int.not_lt.mp fun h => hab ((hb a b).mpr h)
      have hle : ∀ x ∈ a :: t, key b ≤ key x := List.forall_mem_cons.mpr ⟨hba, hbt⟩
      exact rising_cons.mpr ⟨fun x hx => hle x ((insertBy_perm before a t).mem_iff.mp hx), ih ht⟩

/-- An element is inserted behind those that have its key. -/
theorem filter_insertBy (a : α) {l : List α} (hl : Rising key l) (k : Int) :
    (insertBy before a l).filter (fun x => key x = k) = (l ++ [a]).filter fun x => key x = k := by
  induction l with
  | nil => rfl
  | cons b t ih =>
    rw [insertBy]
    split
    next hab =>
      rw [List.filter_append]
      by_cases hk : key a = k
      · rw [filter_key_cons_eq hk, filter_key_cons_eq hk, filter_key_eq_nil hl (hk ▸ (hb a b).mp hab), List.nil_append, List.filter_nil]
      · rw [filter_key_cons_ne hk, filter_key_cons_ne hk, List.filter_nil, List.append_nil]
    next => rw [List.cons_append, List.filter_cons, List.filter_cons, ih (rising_cons.mp hl).2]

theorem rising_foldl_insertBy (l : List α) {acc : List α} (hacc : Rising key acc) :
    Rising key (l.foldl (fun acc a => insertBy before a acc) acc) := by
  induction l generalizing acc with
  | nil => exact hacc
  | cons a t ih => exact ih (rising_insertBy hb a hacc)

theorem filter_foldl_insertBy (l : List α) {acc : List α} (hacc : Rising key acc) (k : Int) :
    (l.foldl (fun acc a => insertBy before a acc) acc).filter (fun x => key x = k) = (acc ++ l).filter fun x => key x = k := by
  induction l generalizing acc with
  | nil => rw [List.append_nil, List.foldl_nil]
  | cons a t ih =>
    rw [List.foldl_cons, ih (rising_insertBy hb a hacc), List.filter_append, filter_insertBy hb a hacc, ← List.filter_append,
      List.append_assoc, List.singleton_append]

theorem rising_sortBy (l : List α) : Rising key (sortBy before l) := rising_foldl_insertBy hb l .nil

/-- Sorting is stable: the elements of one key stay in their order of input. -/
theorem filter_sortBy (l : List α) (k : Int) :
    (sortBy before l).filter (fun x => key x = k) = l.filter fun x => key x = k :=
  filter_foldl_insertBy hb l .nil k

end

/-! ### Rising lists with the same elements of each key -/

section
variable {α : Type} {key : α → Int}

theorem mem_of_filter_key_eq {l m : List α} (h : ∀ k, l.filter (fun x => key x = k) = m.filter fun x => key x = k)
    {a : α} (ha : a ∈ l) : a ∈ m := by
  have hmem : a ∈ m.filter fun x => key x = key a := h (key a) ▸ List.mem_filter.mpr ⟨ha, decide_eq_true rfl⟩
  exact (List.mem_filter.mp hmem).1

/-- The least key stands first: a rising list's head has at most the key of the other list's head. -/
theorem key_head_le {a b : α} {t u : List α} (hm : Rising key (b :: u))
    (h : ∀ k, (a :: t).filter (fun x => key x = k) = (b :: u).filter fun x => key x = k) : key b ≤ key a :=
  le_key_of_le_head hm (Int.le_refl _) a (mem_of_filter_key_eq h List.mem_cons_self)

/-- Rising order and the order within each key determine a list. -/
theorem eq_of_rising_of_filter_key_eq {l m : List α} (hl : Rising key l) (hm : Rising key m)
    (h : ∀ k, l.filter (fun x => key x = k) = m.filter fun x => key x = k) : l = m := by
  induction l generalizing m with
  | nil => exact (List.eq_nil_iff_forall_not_mem.mpr fun a ha =>
      List.not_mem_nil (mem_of_filter_key_eq (fun k => (h k).symm) ha)).symm
  | cons a t ih =>
    cases m with
    | nil => exact absurd (mem_of_filter_key_eq h List.mem_cons_self) List.not_mem_nil
    | cons b u =>
      have hkey : key b = key a := Int.le_antisymm (key_head_le hm h) (key_head_le hl fun k => (h k).symm)
      have hab : a = b := by
        have hheads := h (key a)
        rw [filter_key_cons_eq rfl, filter_key_cons_eq hkey] at hheads
        exact (List.cons.inj hheads).1
      subst hab
      congr 1
      refine ih (rising_cons.mp hl).2 (rising_cons.mp hm).2 fun k => ?_
      have htails := h k
      by_cases hk : key a = k
      · rw [filter_key_cons_eq hk, filter_key_cons_eq hk] at htails
        exact (List.cons.inj htails).2
      · rwa [filter_key_cons_ne hk, filter_key_cons_ne hk] at htails

end

/-! ### The keys of the two directions -/

/-- The key by which `sortAsc` rises. -/
def upKey (fmt : Nat) (a : List Byte) : Int := elemKey fmt a

/-- The key by which `sortDesc` rises. -/
def downKey (fmt : Nat) (a : List Byte) : Int := -elemKey fmt a

theorem upKey_le_upKey {fmt : Nat} {a b : List Byte} : upKey fmt a ≤ upKey fmt b ↔ elemKey fmt a ≤ elemKey fmt b := Int.ofNat_le

theorem downKey_le_downKey {fmt : Nat} {a b : List Byte} : downKey fmt a ≤ downKey fmt b ↔ elemKey fmt b ≤ elemKey fmt a := by
  rw [downKey, downKey]
  omega

theorem sortAsc_before {fmt : Nat} (a b : List Byte) :
    decide (elemKey fmt a < elemKey fmt b) = true ↔ upKey fmt a < upKey fmt b := by
  rw [decide_eq_true_iff, upKey, upKey]
  omega

theorem sortDesc_before {fmt : Nat} (a b : List Byte) :
    decide (elemKey fmt b < elemKey fmt a) = true ↔ downKey fmt a < downKey fmt b := by
  rw [decide_eq_true_iff, downKey, downKey]
  omega

theorem filter_upKey (fmt k : Nat) (l : List (List Byte)) :
    l.filter (fun a => upKey fmt a = (k : Int)) = l.filter fun a => elemKey fmt a = k :=
  List.filter_congr fun a _ => decide_eq_decide.mpr (by rw [upKey]; omega)

theorem filter_downKey (fmt k : Nat) (l : List (List Byte)) :
    l.filter (fun a => downKey fmt a = -(k : Int)) = l.filter fun a => elemKey fmt a = k :=
  List.filter_congr fun a _ => decide_eq_decide.mpr (by rw [downKey]; omega)

theorem rising_upKey {fmt : Nat} {l : List (List Byte)} :
    Rising (upKey fmt) l ↔ l.Pairwise fun a b => elemKey fmt a ≤ elemKey fmt b :=
  ⟨.imp upKey_le_upKey.mp, .imp upKey_le_upKey.mpr⟩

/-! ### The two-pointer merge -/

theorem mergeRuns_cons_cons (fmt n : Nat) (a b : List Byte) (l m : List (List Byte)) :
    mergeRuns fmt (n + 1) (a :: l) (b :: m) =
      if elemKey fmt a ≤ elemKey fmt b then a :: mergeRuns fmt n l (b :: m) else b :: mergeRuns fmt n (a :: l) m := rfl

theorem mem_of_mem_mergeRuns {fmt n : Nat} {l m : List (List Byte)} {x : List Byte} (hx : x ∈ mergeRuns fmt n l m) :
    x ∈ l ++ m := by
  fun_induction mergeRuns fmt n l m with
  | case1 => cases hx
  | case2 n bs => exact hx
  | case3 n as => rwa [List.append_nil]
  | case4 n a as b bs _ ih => exact List.mem_cons.mpr ((List.mem_cons.mp hx).imp_right ih)
  | case5 n a as b bs _ ih => exact List.perm_middle.mem_iff.mpr (List.mem_cons.mpr ((List.mem_cons.mp hx).imp_right ih))

theorem rising_mergeRuns {fmt n : Nat} {l m : List (List Byte)} (hl : Rising (upKey fmt) l) (hm : Rising (upKey fmt) m) :
    Rising (upKey fmt) (mergeRuns fmt n l m) := by
  fun_induction mergeRuns fmt n l m with
  | case1 => exact .nil
  | case2 n bs => exact hm
  | case3 n as => exact hl
  | case4 n a as b bs hab ih =>
    obtain ⟨ha, has⟩ := rising_cons.mp hl
    have hle : ∀ x ∈ as ++ b :: bs, upKey fmt a ≤ upKey fmt x :=
      List.forall_mem_append.mpr ⟨ha, le_key_of_le_head hm (upKey_le_upKey.mpr hab)⟩
    exact rising_cons.mpr ⟨fun x hx => hle x (mem_of_mem_mergeRuns hx), ih has hm⟩
  | case5 n a as b bs hab ih =>
    obtain ⟨hb, hbs⟩ := rising_cons.mp hm
    have hba : upKey fmt b ≤ upKey fmt a := upKey_le_upKey.mpr (Nat.le_of_not_le hab)
    have hle : ∀ x ∈ a :: as ++ bs, upKey fmt b ≤ upKey fmt x := List.forall_mem_append.mpr ⟨le_key_of_le_head hl hba, hb⟩
    exact rising_cons.mpr ⟨fun x hx => hle x (mem_of_mem_mergeRuns hx), ih hl hbs⟩

/-- A merge that runs to its end puts the first run's elements before equal ones of the second. -/
theorem filter_mergeRuns {fmt n : Nat} {l m : List (List Byte)} (hn : l.length + m.length ≤ n) (hl : Rising (upKey fmt) l) (k : Int) :
    (mergeRuns fmt n l m).filter (fun x => upKey fmt x = k) = (l ++ m).filter fun x => upKey fmt x = k := by
  fun_induction mergeRuns fmt n l m with
  | case1 l m =>
    obtain ⟨hl0, hm0⟩ : l.length = 0 ∧ m.length = 0 := by omega
    rw [List.length_eq_zero_iff.mp hl0, List.length_eq_zero_iff.mp hm0, List.append_nil]
  | case2 n bs => rfl
  | case3 n as => rw [List.append_nil]
  | case4 n a as b bs _ ih =>
    rw [List.cons_append, List.filter_cons, List.filter_cons,
      ih (by simp only [List.length_cons] at hn ⊢; omega) (rising_cons.mp hl).2]
  | case5 n a as b bs hab ih =>
    have ih := ih (by simp only [List.length_cons] at hn ⊢; omega) hl
    rw [List.filter_append] at ih ⊢
    by_cases hk : upKey fmt b = k
    · have hlt : k < upKey fmt a := hk ▸ Int.not_le.mp fun h => hab (upKey_le_upKey.mp h)
      rw [filter_key_eq_nil hl hlt, List.nil_append] at ih ⊢
      rw [filter_key_cons_eq hk, filter_key_cons_eq hk, ih]
    · rw [filter_key_cons_ne hk, filter_key_cons_ne hk, ih]

/-! ### The model's sorts and filter -/

section
variable (fmt : Nat) (l : List (List Byte))

theorem rising_sortAsc : Rising (upKey fmt) (sortAsc fmt l) := rising_sortBy sortAsc_before l

theorem filter_sortAsc (k : Nat) :
    (sortAsc fmt l).filter (fun a => elemKey fmt a = k) = l.filter fun a => elemKey fmt a = k := by
  rw [← filter_upKey, ← filter_upKey, sortAsc, filter_sortBy sortAsc_before]

theorem falling_sortDesc : (sortDesc fmt l).Pairwise fun a b => elemKey fmt b ≤ elemKey fmt a :=
  (rising_sortBy sortDesc_before l).imp downKey_le_downKey.mp

theorem filter_sortDesc (k : Nat) :
    (sortDesc fmt l).filter (fun a => elemKey fmt a = k) = l.filter fun a => elemKey fmt a = k := by
  rw [← filter_downKey, ← filter_downKey, sortDesc, filter_sortBy sortDesc_before]

/-- Merging two sorted runs to the end sorts them. -/
theorem mergeRuns_eq_sortAsc {m : List (List Byte)} (hl : Rising (upKey fmt) l) (hm : Rising (upKey fmt) m) :
    mergeRuns fmt (l.length + m.length) l m = sortAsc fmt (l ++ m) :=
  eq_of_rising_of_filter_key_eq (rising_mergeRuns hl hm) (rising_sortAsc fmt _) fun k =>
    (filter_mergeRuns (Nat.le_refl _) hl k).trans (filter_sortBy sortAsc_before _ k).symm

theorem mem_passing_iff {lo hi : Nat} {a : List Byte} (ha : a ∈ l) :
    a ∈ passing fmt lo hi l ↔ lo ≤ elemKey fmt a ∧ elemKey fmt a ≤ hi := by
  rw [passing, List.mem_filter, Bool.and_eq_true, decide_eq_true_iff, decide_eq_true_iff, and_iff_right ha]

/-- What a TOPK leaves out exceeds nothing that it takes. -/
theorem key_drop_le_key_take (k : Nat) :
    ∀ a ∈ (sortDesc fmt l).take k, ∀ b ∈ (sortDesc fmt l).drop k, elemKey fmt b ≤ elemKey fmt a := by
  have h := falling_sortDesc fmt l
  rw [← List.take_append_drop k (sortDesc fmt l)] at h
  exact (List.pairwise_append.mp h).2.2

end

/-- Settles O44: `sortBy` is a stable sort by key in either direction, and a merge of sorted runs is the stable sorted list of their
elements, of which there is only one. -/
theorem sortsAreStableAndComplete : Obligations.SortsAreStableAndComplete := by
  unfold Obligations.SortsAreStableAndComplete
  intro fmt l key
  exact ⟨sortBy_perm _ l, sortBy_perm _ l, rising_upKey.mp (rising_sortAsc fmt l), falling_sortDesc fmt l,
    fun k => ⟨filter_sortAsc fmt l k, filter_sortDesc fmt l k⟩,
    fun m hl hm => mergeRuns_eq_sortAsc fmt l (rising_upKey.mpr hl) (rising_upKey.mpr hm),
    fun n a b m => mergeRuns_cons_cons fmt n a b l m,
    fun lo hi => ⟨List.filter_sublist, fun a ha => mem_passing_iff fmt l ha⟩,
    key_drop_le_key_take fmt l⟩

end Sys2Proof.Machine
end

section
/-! PROOF. HBM addresses and the order of scrubbing (R656, R663). The burst number within a pseudo-channel is read off an address;
`burstAddr` and that reading are inverse to each other, and the three parts of O47 follow from it. -/

namespace Sys2Proof.Machine

/-! ### Pseudo-channels -/

theorem pcOf_eq_bits (a : Nat) : pcOf a = 4 * bits a 36 34 + bits a 9 8 := by
  simp only [pcOf, bits]
  omega

theorem pcOf_div_four (a : Nat) : pcOf a / 4 = a / 2 ^ 34 % 8 := by
  simp only [pcOf]
  omega

theorem pcOf_mod_four (a : Nat) : pcOf a % 4 = a / 256 % 4 := by
  simp only [pcOf]
  omega

theorem bits_stack {a : Nat} (ha : a < 2 ^ 41) : bits a 40 37 = a / 2 ^ 37 :=
  Nat.mod_eq_of_lt (Nat.div_lt_of_lt_mul ha)

theorem regionOf_hbm {a : Nat} (ha : a < 2 ^ 41) : regionOf a = .hbm (bits a 40 37) (bits a 36 34) := by
  rw [regionOf, if_pos ha, bits_stack ha]
  rfl

/-! ### Burst numbers -/

/-- Number of the burst of an HBM address within its pseudo-channel: the address bits below the channel group and above the byte of
the burst, without the two that choose the pseudo-channel (R656, R663). -/
def burstIndex (a : Nat) : Nat := bits a 33 10 * 4 + bits a 7 6

theorem burstIndex_lt (a : Nat) : burstIndex a < 2 ^ 26 := by
  simp only [burstIndex, bits]
  omega

/-- A burst's address as the sum of R656's fields: stack, group, block, pseudo-channel of the group and burst of the block. -/
theorem burstAddr_eq_sum (st pc i : Nat) : burstAddr st pc i =
    st * 2 ^ 37 + pc / 4 * 2 ^ 34 + i % 2 ^ 26 / 4 * 1024 + pc % 4 * 256 + i % 2 ^ 26 % 4 * 64 := by
  simp only [burstAddr, groupBase, pcBursts]
  omega

theorem burstAddr_mod (st pc i : Nat) : burstAddr st pc (i % 2 ^ 26) = burstAddr st pc i := by
  simp only [burstAddr, pcBursts, Nat.mod_mod]

/-- An HBM address is its burst's address and the byte within the burst. -/
theorem burstAddr_burstIndex_add (a : Nat) : burstAddr (a / 2 ^ 37) (pcOf a) (burstIndex a) + a % 64 = a := by
  rw [burstAddr_eq_sum, pcOf_div_four, pcOf_mod_four, Nat.mod_eq_of_lt (burstIndex_lt a)]
  simp only [burstIndex, bits]
  omega

section
variable {st pc : Nat} (i : Nat)

theorem burstAddr_mod_64 : burstAddr st pc i % 64 = 0 := by
  rw [burstAddr_eq_sum]
  omega

theorem burstAddr_lt (hst : st < 16) (hpc : pc < 32) : burstAddr st pc i < 2 ^ 41 := by
  rw [burstAddr_eq_sum]
  omega

theorem burstAddr_div_group : burstAddr st pc i / 2 ^ 34 = st * 8 + pc / 4 := by
  rw [burstAddr_eq_sum]
  omega

theorem stack_burstAddr (hpc : pc < 32) : burstAddr st pc i / 2 ^ 37 = st := by
  have h := burstAddr_div_group (st := st) (pc := pc) i
  omega

theorem group_burstAddr (hpc : pc < 32) : burstAddr st pc i / 2 ^ 34 % 8 = pc / 4 := by
  rw [burstAddr_div_group]
  omega

theorem regionOf_burstAddr (hst : st < 16) (hpc : pc < 32) : regionOf (burstAddr st pc i) = .hbm st (pc / 4) := by
  rw [regionOf, if_pos (burstAddr_lt i hst hpc), stack_burstAddr i hpc, group_burstAddr i hpc]

theorem pcOf_burstAddr (hpc : pc < 32) : pcOf (burstAddr st pc i) = pc := by
  have hlow : burstAddr st pc i / 256 % 4 = pc % 4 := by
    rw [burstAddr_eq_sum]
    omega
  rw [pcOf, group_burstAddr i hpc, hlow, Nat.div_add_mod']

theorem burstIndex_burstAddr : burstIndex (burstAddr st pc i) = i % 2 ^ 26 := by
  rw [burstAddr_eq_sum]
  simp only [burstIndex, bits]
  omega

theorem burstAddr_eq_iff (j : Nat) : burstAddr st pc i = burstAddr st pc j ↔ i % 2 ^ 26 = j % 2 ^ 26 := by
  constructor
  · intro h
    rw [← burstIndex_burstAddr i, h, burstIndex_burstAddr j]
  · intro h
    rw [← burstAddr_mod st pc i, h, burstAddr_mod]

end

/-- Two HBM addresses of the same stack and pseudo-channel, block and byte of the block are one: they have the same burst and the
same byte within it. -/
theorem hbm_addr_ext {a b : Nat} (hst : b / 2 ^ 37 = a / 2 ^ 37) (hpc : pcOf b = pcOf a)
    (hblock : bits b 33 10 = bits a 33 10) (hbyte : bits b 7 0 = bits a 7 0) : b = a := by
  simp only [bits] at hbyte
  have hin : b % 64 = a % 64 := by omega
  have hburst : burstIndex b = burstIndex a := by
    simp only [burstIndex, hblock]
    simp only [bits]
    omega
  rw [← burstAddr_burstIndex_add b, hst, hpc, hburst, hin, burstAddr_burstIndex_add]

/-- Settles O47: an address is burst `burstIndex` of its pseudo-channel and a byte below 64, and `burstAddr` and `burstIndex` are inverse to
each other. -/
theorem hbmAddressesAndTheirScrubbing : Obligations.HbmAddressesAndTheirScrubbing := by
  unfold Obligations.HbmAddressesAndTheirScrubbing
  refine ⟨fun a ha => ⟨regionOf_hbm ha, pcOf_eq_bits a, fun b hb hst => ?_⟩, fun st pc i hst hpc => ?_, fun a _ => ?_⟩
  · rw [bits_stack ha, bits_stack hb] at hst
    exact hbm_addr_ext hst
  · exact ⟨regionOf_burstAddr i hst hpc, pcOf_burstAddr i hpc, burstAddr_mod_64 i, burstAddr_eq_iff i⟩
  · exact ⟨burstIndex a, burstIndex_lt a, Nat.eq_sub_of_add_eq (burstAddr_burstIndex_add a)⟩

end Sys2Proof.Machine
end

section
/-! PROOF. Watchdogs (R751), and the warm reset that an expiry with ACTION 1 begins. First what the boot ROM, an abandoned fuse command and
the HBM stacks' training leave alone; then the device after a warm reset, field by field; then the four parts of O55. -/

namespace Sys2Proof.Machine

/-! ### Bytes stored in register files -/

theorem RegFile.get_putBytes_out (l : List Byte) (f : RegFile) (a c : Nat) (h : c < a - a % 8 ∨ a + l.length ≤ c) :
    RegFile.get (RegFile.putBytes f a l) c = RegFile.get f c := by
  induction l generalizing f a with
  | nil => rfl
  | cons b t ih =>
    rw [List.length_cons] at h
    rw [RegFile.putBytes, ih _ _ (by omega), RegFile.get_set_other _ _ _ _ (by omega)]

theorem length_shake256_le (msg : List Byte) (n : Nat) : (shake256 msg n).length ≤ n := by
  unfold shake256
  exact List.length_take_le _ _

/-- A byte that the filter's bound lets through is read as before, any other as 0. -/
theorem Memory.read_filter_lt (m : Memory) (n a : Nat) :
    Memory.read (m.filter fun c => decide (c.1 < n)) a = if a < n then Memory.read m a else 0 := by
  unfold Memory.read Map.get
  induction m with
  | nil => simp [Map.find]
  | cons x t ih =>
    obtain ⟨k, b⟩ := x
    by_cases hk : k < n
    · by_cases hka : k = a
      · subst hka
        simp [Map.find, hk]
      · simpa [Map.find, hk, hka] using ih
    · by_cases hka : k = a
      · subst hka
        simpa [hk] using ih
      · simpa [Map.find, hk, hka] using ih

/-! ### Free values -/

theorem drawMany_eq (n : Nat) (s : Dev) : ∃ k, (drawMany n s).2 = { s with fresh := k } := by
  induction n generalizing s with
  | zero => exact ⟨s.fresh, rfl⟩
  | succ n ih =>
    obtain ⟨k, hk⟩ := ih s.draw.2
    exact ⟨k, hk⟩

theorem drawBytes_eq (n : Nat) (s : Dev) : ∃ k, (drawBytes n s).2 = { s with fresh := k } := drawMany_eq _ s

/-! ### The boot ROM -/

/-- `t` is `s` but for free values, the control complex without its flash, the boot slot, and the registers that the boot ROM writes:
CTL_BOOT and the boot measurement (R754, R758). -/
structure BootFrame (s t : Dev) : Prop where
  dev : t = { s with live := t.live, fresh := t.fresh, ctl := t.ctl, sec := { s.sec with bootSlot := t.sec.bootSlot } }
  flash : t.ctl.flash = s.ctl.flash
  regs : ∀ a, a ≠ ctlPg + 0x100 → a < secMeasBoot ∨ secMeasBoot + 64 ≤ a → RegFile.get t.live a = RegFile.get s.live a

namespace BootFrame

theorem trans {s t u : Dev} (h : BootFrame s t) (k : BootFrame t u) : BootFrame s u where
  dev := by rw [k.dev, h.dev]
  flash := k.flash.trans h.flash
  regs a hc hm := (k.regs a hc hm).trans (h.regs a hc hm)

theorem setLv_boot (s : Dev) (hi lo v : Nat) : BootFrame s (s.setLv (ctlPg + 0x100) hi lo v) where
  dev := rfl
  flash := rfl
  regs a hc _ := Dev.get_setLv_other s _ _ _ _ a hc

theorem with_ctl (s : Dev) (c : CtlSt) (h : c.flash = s.ctl.flash) : BootFrame s { s with ctl := c } where
  dev := rfl
  flash := h
  regs _ _ _ := rfl

theorem with_fresh (s : Dev) (k : Nat) : BootFrame s { s with fresh := k } where
  dev := rfl
  flash := rfl
  regs _ _ _ := rfl

theorem with_llc_bootSlot (s : Dev) (m : Memory) (n : Option Nat) :
    BootFrame s { s with ctl := { s.ctl with llc := m }, sec := { s.sec with bootSlot := n } } where
  dev := rfl
  flash := rfl
  regs _ _ _ := rfl

theorem extendMeas_boot (s : Dev) (x : List Byte) : BootFrame s (s.extendMeas secMeasBoot x) where
  dev := rfl
  flash := rfl
  regs a _ hm := by
    refine RegFile.get_putBytes_out _ _ _ _ (hm.imp id fun h => ?_)
    exact Nat.le_trans (Nat.add_le_add_left (length_shake256_le _ 64) _) h

theorem haltHart0 (s : Dev) : BootFrame s s.haltHart0 := with_ctl s _ rfl

theorem startHart (s : Dev) (n a : Nat) : BootFrame s (s.startHart n a) := with_ctl s _ rfl

theorem bootCode (s : Dev) (code : Nat) : BootFrame s (s.bootCode code) := setLv_boot s _ _ _

theorem bootLine (s : Dev) (code : Nat) : BootFrame s (s.bootLine code) := by
  obtain ⟨k, hk⟩ := drawBytes_eq (s.draw.1.toNat / 2 % 24) s.draw.2
  obtain ⟨j, hj⟩ := drawBytes_eq (s.draw.1.toNat / 64 % 24) (drawBytes (s.draw.1.toNat / 2 % 24) s.draw.2).2
  unfold Dev.bootLine
  dsimp only
  rw [hj, hk]
  exact (with_fresh s j).trans (with_ctl _ _ rfl)

theorem bootImage (s : Dev) (off code : Nat) : BootFrame s (s.bootImage off code) := by
  unfold Dev.bootImage
  refine trans (trans ?_ (with_llc_bootSlot _ _ _)) (startHart _ _ _)
  exact (extendMeas_boot s _).trans ((setLv_boot _ _ _ _).trans ((setLv_boot _ _ _ _).trans (bootCode _ code)))

theorem bootRom (s : Dev) : BootFrame s s.bootRom := by
  unfold Dev.bootRom
  split
  · exact ((bootCode s _).trans (haltHart0 _)).trans (bootLine _ _)
  · split
    · exact (bootImage s _ _).trans (bootLine _ _)
    · split
      · exact (bootImage s _ _).trans (bootLine _ _)
      · exact ((bootCode s _).trans (haltHart0 _)).trans (bootLine _ _)

/-- A warm reset ends with the boot ROM on hart 0. -/
theorem startHart0_bootRom (s : Dev) : BootFrame s s.startHart0.bootRom := (startHart s 0 romBase).trans (bootRom _)

theorem lv {s t : Dev} (h : BootFrame s t) (a hi lo : Nat) (hc : a ≠ ctlPg + 0x100) (hm : a < secMeasBoot ∨ secMeasBoot + 64 ≤ a) :
    t.lv a hi lo = s.lv a hi lo := by
  unfold Dev.lv
  rw [h.regs a hc hm]

end BootFrame

/-! ### Abandoned fuse commands and dropped molts -/

theorem setFuses_makeUds_eq (s : Dev) (g : Fuses) :
    ∃ k f, (s.setFuses g).makeUds = { s with fresh := k, sec := { s.sec with fuses := f } } := by
  unfold Dev.makeUds
  split
  · exact ⟨s.fresh, g, rfl⟩
  · obtain ⟨k, hk⟩ := drawBytes_eq 64 (s.setFuses g)
    dsimp only
    rw [hk]
    exact ⟨k, _, rfl⟩

/-- Only free values and fuses change. -/
theorem abandonFuses_eq (s : Dev) : ∃ k f, s.abandonFuses = { s with fresh := k, sec := { s.sec with fuses := f } } := by
  unfold Dev.abandonFuses
  dsimp only
  split
  · exact ⟨s.fresh, s.sec.fuses, rfl⟩
  · split
    · exact ⟨s.fresh, s.sec.fuses, rfl⟩
    · split
      · exact ⟨_, _, rfl⟩
      · split
        · exact ⟨_, s.sec.fuses, rfl⟩
        · split
          · exact ⟨_, _, rfl⟩
          · exact ⟨_, _, rfl⟩
      · exact ⟨_, _, rfl⟩
      · obtain ⟨k, hk⟩ := drawBytes_eq 512 s.draw.2
        rw [hk]
        split
        · exact setFuses_makeUds_eq _ _
        · exact ⟨k, _, rfl⟩
      · exact ⟨s.fresh, s.sec.fuses, rfl⟩

/-- Nothing changes where no fuse command runs, or only one that would fail. -/
theorem abandonFuses_of_none (s : Dev) (h : ∀ r, s.sec.run = some r → r.res ≠ 0 ∨ r.op < 5 ∨ 8 < r.op) : s.abandonFuses = s := by
  unfold Dev.abandonFuses
  dsimp only
  split
  · rfl
  · next r hr =>
    have hop := h r hr
    split
    · rfl
    · split
      · omega
      · omega
      · omega
      · omega
      · rfl

theorem dropMolt_eq (s : Dev) : s.dropMolt = { s with audit := s.dropMolt.audit, number := s.dropMolt.number } := by
  unfold Dev.dropMolt
  split
  · split
    · rfl
    · rfl
  · rfl

/-! ### Fences shown and stacks that train -/

theorem foldl_live_only {α : Type} (f : Dev → α → Dev) (hf : ∀ s x, ∃ l, f s x = { s with live := l }) (xs : List α) (s : Dev) :
    ∃ l, xs.foldl f s = { s with live := l } := by
  induction xs generalizing s with
  | nil => exact ⟨s.live, rfl⟩
  | cons x xs ih =>
    obtain ⟨l, hl⟩ := hf s x
    obtain ⟨m, hm⟩ := ih (f s x)
    exact ⟨m, by rw [List.foldl_cons, hm, hl]⟩

theorem setLv_live_only (s : Dev) (a hi lo v : Nat) : ∃ l, s.setLv a hi lo v = { s with live := l } := ⟨_, rfl⟩

theorem putLv_live_only (s : Dev) (a v : Nat) : ∃ l, s.putLv a v = { s with live := l } := ⟨_, rfl⟩

theorem live_only_trans {s t u : Dev} (h : ∃ l, t = { s with live := l }) (k : ∃ l, u = { t with live := l }) :
    ∃ l, u = { s with live := l } := by
  obtain ⟨l, rfl⟩ := h
  exact k

theorem showFence_live_only (s : Dev) (u : BitVec 32) : ∃ l, s.showFence u = { s with live := l } := by
  unfold Dev.showFence
  dsimp only
  split
  · exact live_only_trans (setLv_live_only _ _ _ _ _) (setLv_live_only _ _ _ _ _)
  · exact live_only_trans (setLv_live_only _ _ _ _ _) (foldl_live_only _ (fun _ _ => setLv_live_only _ _ _ _ _) _ _)

/-- One stack begins to train, unless it is fenced. -/
def Dev.trainStack (s : Dev) (st : Nat) : Dev := if s.fencedUnit (stackUnit st) then s else s.setStackState st 1

theorem trainStacks_eq (s : Dev) : s.trainStacks = (List.range 16).foldl Dev.trainStack s := rfl

theorem trainStack_live_only (s : Dev) (st : Nat) : ∃ l, s.trainStack st = { s with live := l } := by
  unfold Dev.trainStack
  split
  · exact ⟨s.live, rfl⟩
  · exact ⟨_, rfl⟩

theorem trainStacks_live_only (s : Dev) : ∃ l, s.trainStacks = { s with live := l } :=
  foldl_live_only _ trainStack_live_only _ s

theorem trainStack_fencedUnit (s : Dev) (st : Nat) (u : BitVec 32) : (s.trainStack st).fencedUnit u = s.fencedUnit u := by
  obtain ⟨l, hl⟩ := trainStack_live_only s st
  rw [hl]
  rfl

theorem hbmPg_inj {a b : Nat} (h : hbmPg a = hbmPg b) : a = b := by
  simp only [hbmPg, pg] at h
  omega

theorem hbmPg_add_lt_secPg {st : Nat} (hst : st < 16) : hbmPg st + 0x100 < secPg := by
  simp only [hbmPg, secPg, pg]
  omega

theorem secPg_lt_pwrPg : secPg + 0x240 < pwrPg := by decide

theorem trainStack_lv_other (s : Dev) {st : Nat} (hst : st < 16) (a hi lo : Nat) (ha : secPg ≤ a) :
    (s.trainStack st).lv a hi lo = s.lv a hi lo := by
  have hlt := hbmPg_add_lt_secPg hst
  unfold Dev.trainStack
  split
  · rfl
  · exact Dev.lv_setLv_other s _ _ _ _ a hi lo (by omega)

theorem stackState_trainStack_same (s : Dev) (st : Nat) (h : s.fencedUnit (stackUnit st) = false) :
    (s.trainStack st).stackState st = 1 := by
  rw [Dev.trainStack, h]
  exact Dev.lv_setLv_same s _ 2 0 1 (by omega) (by omega)

/-- A stack in training stays so while the others begin. -/
theorem stackState_trainStack_one (s : Dev) {st x : Nat} (h : s.stackState st = 1) :
    (s.trainStack x).stackState st = 1 := by
  by_cases he : st = x
  · subst he
    unfold Dev.trainStack
    split
    · exact h
    · exact Dev.lv_setLv_same s _ 2 0 1 (by omega) (by omega)
  · have hne : hbmPg st + 0x100 ≠ hbmPg x + 0x100 := fun e => he (hbmPg_inj (Nat.add_right_cancel e))
    unfold Dev.trainStack
    split
    · exact h
    · exact (Dev.lv_setLv_other s _ 2 0 1 _ 2 0 hne).trans h

theorem foldl_trainStack_lv_other (xs : List Nat) (hxs : ∀ x ∈ xs, x < 16) (s : Dev) (a hi lo : Nat) (ha : secPg ≤ a) :
    (xs.foldl Dev.trainStack s).lv a hi lo = s.lv a hi lo := by
  induction xs generalizing s with
  | nil => rfl
  | cons x xs ih =>
    rw [List.forall_mem_cons] at hxs
    rw [List.foldl_cons, ih hxs.2, trainStack_lv_other s hxs.1 a hi lo ha]

/-- A stack that is among those to train, and not fenced, or that trains already, trains in the end. -/
theorem stackState_foldl_trainStack (xs : List Nat) (s : Dev) {st : Nat}
    (h : s.stackState st = 1 ∨ st ∈ xs ∧ s.fencedUnit (stackUnit st) = false) :
    (xs.foldl Dev.trainStack s).stackState st = 1 := by
  induction xs generalizing s with
  | nil => simpa using h
  | cons x xs ih =>
    rw [List.foldl_cons]
    apply ih
    rcases h with htrains | ⟨hmem, hfree⟩
    · exact .inl (stackState_trainStack_one s htrains)
    · rcases List.mem_cons.mp hmem with rfl | hmem
      · exact .inl (stackState_trainStack_same s st hfree)
      · exact .inr ⟨hmem, by rw [trainStack_fencedUnit, hfree]⟩

theorem trainStacks_lv_other (s : Dev) (a hi lo : Nat) (ha : secPg ≤ a) : s.trainStacks.lv a hi lo = s.lv a hi lo :=
  foldl_trainStack_lv_other _ (fun _ => List.mem_range.mp) s a hi lo ha

theorem stackState_trainStacks (s : Dev) {st : Nat} (hst : st < 16) (h : s.fencedUnit (stackUnit st) = false) :
    s.trainStacks.stackState st = 1 :=
  stackState_foldl_trainStack _ s (.inr ⟨List.mem_range.mpr hst, h⟩)

/-! ### The device after a warm reset -/

/-- What a warm reset keeps of a device, once abandoned fuses and a dropped molt are settled: everything but the registers it writes and
the audit record it appends. -/
def Dev.warmKept (s : Dev) : Dev :=
  let t := Dev.powerOn s.sec.fuses s.ctl.flash
  { t with
    beat := s.beat, ticks := s.ticks, audit := s.audit, number := if s.number = 0xFFFFFFFF then 1 else s.number + 1,
    mem := s.mem.filter fun c => decide (c.1 < 2 ^ 41), memSt := { t.memSt with bad := s.memSt.bad },
    collectors := (List.range 4).map s.warmCollector, nextId := s.nextId, fresh := s.fresh, sent := s.sent, sig := s.sig,
    time := { t.time with refLost := s.time.refLost },
    sec := { t.sec with latched := s.sec.latched, grade := s.sec.grade, secret := s.sec.secret },
    pwr := { t.pwr with porLow := false, tripLow := s.pwr.tripLow, straps := s.pwr.straps, railStep := s.pwr.railStep,
                        resetAt := s.ticks, warmAt := some s.ticks, winAt := s.ticks } }

/-- The fault and fence registers that a warm reset carries over from `s`. -/
def Dev.warmFaults (s t : Dev) : Dev :=
  (List.range 4).foldl (fun u d =>
    (s.hbmFences d).foldl Dev.showFence
      ((u.putLv (fltPg d + 0x228) (s.lv (fltPg d + 0x228) 63 0)).putLv (fltPg d + 0x230) (s.lv (fltPg d + 0x230) 63 0))) t

/-- The registers of a device after a warm reset, before the stacks train. -/
def Dev.warmShown (s : Dev) (cause : Nat) : Dev :=
  ((s.warmFaults s.warmKept).putLv (secPg + 0x120) (satAdd 32 (s.lv (secPg + 0x120) 31 0) 1)).setLv (pwrPg + 0x188) 4 0 cause

theorem afterWarm_eq (s : Dev) (cause : Nat) :
    s.afterWarm cause =
      (s.abandonFuses.dropMolt.warmShown cause).trainStacks.auditAppend 3 (s.abandonFuses.dropMolt.warmShown cause).trainStacks.number := by
  unfold Dev.afterWarm Dev.warmShown Dev.warmFaults Dev.warmKept
  rfl

theorem warmFaults_live_only (s t : Dev) : ∃ l, s.warmFaults t = { t with live := l } := by
  unfold Dev.warmFaults
  exact foldl_live_only _ (fun u d => live_only_trans (live_only_trans (putLv_live_only u _ _) (putLv_live_only _ _ _))
    (foldl_live_only Dev.showFence showFence_live_only _ _)) _ t

theorem warmShown_live_only (s : Dev) (cause : Nat) : ∃ l, s.warmShown cause = { s.warmKept with live := l } :=
  live_only_trans (live_only_trans (warmFaults_live_only s s.warmKept) (putLv_live_only _ _ _)) (setLv_live_only _ _ _ _ _)

/-- The instar number and the audit log once a molt of the present beat is dropped. -/
theorem dropMolt_number_audit (s : Dev) :
    (s.dropMolt.number, s.dropMolt.audit) =
      match s.audit.getLast?, s.previous with
      | some r, some i =>
        if (r.kind = 1 ∨ r.kind = 2) ∧ r.beat = s.beat ∧ r.instar = s.number then (i.number, s.audit.dropLast) else (s.number, s.audit)
      | _, _ => (s.number, s.audit) := by
  unfold Dev.dropMolt
  cases s.audit.getLast? with
  | none => rfl
  | some r =>
    cases s.previous with
    | none => rfl
    | some i =>
      dsimp only
      split
      · rfl
      · rfl

/-- Beyond what the log and the fuses lose, a device comes to its warm reset as it stood. -/
theorem abandonFuses_dropMolt_eq (s : Dev) : ∃ k f,
    s.abandonFuses.dropMolt =
      { s with fresh := k, sec := { s.sec with fuses := f }, audit := s.abandonFuses.dropMolt.audit,
               number := s.abandonFuses.dropMolt.number } ∧
      (s.abandonFuses.dropMolt.number, s.abandonFuses.dropMolt.audit) = (s.dropMolt.number, s.dropMolt.audit) ∧
      ((∀ r, s.sec.run = some r → r.res ≠ 0 ∨ r.op < 5 ∨ 8 < r.op) → f = s.sec.fuses) := by
  obtain ⟨k, f, h⟩ := abandonFuses_eq s
  refine ⟨k, f, ?_, ?_, fun hrun => ?_⟩
  · rw [dropMolt_eq s.abandonFuses, h]
  · rw [dropMolt_number_audit, dropMolt_number_audit, h]
  · have hfuses := congrArg (fun d => d.sec.fuses) (h.symm.trans (abandonFuses_of_none s hrun))
    exact hfuses

theorem abandonFuses_dropMolt_live (s : Dev) : s.abandonFuses.dropMolt.live = s.live := by
  obtain ⟨k, f, h, -, -⟩ := abandonFuses_dropMolt_eq s
  rw [h]

theorem abandonFuses_dropMolt_collectors (s : Dev) : s.abandonFuses.dropMolt.collectors = s.collectors := by
  obtain ⟨k, f, h, -, -⟩ := abandonFuses_dropMolt_eq s
  rw [h]

theorem afterWarm_eq_warmKept (s : Dev) (cause : Nat) : ∃ l r,
    s.afterWarm cause = { s.abandonFuses.dropMolt.warmKept with live := l, audit := s.abandonFuses.dropMolt.audit ++ [r] } := by
  obtain ⟨l, hl⟩ := live_only_trans (warmShown_live_only s.abandonFuses.dropMolt cause) (trainStacks_live_only _)
  rw [afterWarm_eq, hl]
  exact ⟨l, _, rfl⟩

theorem auditAppend_lv (s : Dev) (kind : Fin 4) (source : BitVec 32) (a hi lo : Nat) :
    (s.auditAppend kind source).lv a hi lo = s.lv a hi lo := rfl

/-- Registers at and above the SEC page are as they are shown before the stacks train. -/
theorem afterWarm_lv (s : Dev) (cause a hi lo : Nat) (ha : secPg ≤ a) :
    (s.afterWarm cause).lv a hi lo = (s.abandonFuses.dropMolt.warmShown cause).lv a hi lo := by
  rw [afterWarm_eq, auditAppend_lv, trainStacks_lv_other _ a hi lo ha]

theorem afterWarm_lv_cause (s : Dev) {cause : Nat} (hcause : cause < 2 ^ 5) : (s.afterWarm cause).lv (pwrPg + 0x188) 4 0 = cause := by
  rw [afterWarm_lv _ _ _ _ _ (by decide), Dev.warmShown, Dev.lv_setLv_same _ _ _ _ _ (by omega) (by omega)]
  exact Nat.mod_eq_of_lt hcause

theorem afterWarm_lv_warmCount (s : Dev) (cause : Nat) :
    (s.afterWarm cause).lv (secPg + 0x120) 31 0 = min (s.lv (secPg + 0x120) 31 0 + 1) (2 ^ 32 - 1) := by
  have hlive : s.abandonFuses.dropMolt.lv (secPg + 0x120) 31 0 = s.lv (secPg + 0x120) 31 0 := by
    rw [Dev.lv, abandonFuses_dropMolt_live, Dev.lv]
  rw [afterWarm_lv _ _ _ _ _ (by decide), Dev.warmShown, Dev.lv_setLv_other _ _ _ _ _ _ _ _ (by decide), Dev.lv_putLv_same, hlive, satAdd]
  simp only [fld, bits, BitVec.toNat_ofNat]
  omega

theorem afterWarm_fenced (s : Dev) (cause : Nat) {d : Nat} (hd : d < 4) :
    ((s.afterWarm cause).collector d).fenced = (s.collector d).fenced.filter fun u => unitClass u = 7 ∨ unitClass u = 8 := by
  obtain ⟨l, r, h⟩ := afterWarm_eq_warmKept s cause
  have hcollectors : (s.afterWarm cause).collectors = (List.range 4).map s.abandonFuses.dropMolt.warmCollector :=
    congrArg Dev.collectors h
  have hfilter : s.abandonFuses.dropMolt.hbmFences d = (s.collector d).fenced.filter fun u => unitClass u = 7 ∨ unitClass u = 8 := by
    rw [Dev.hbmFences, Dev.collector, abandonFuses_dropMolt_collectors, ← Dev.collector]
    simp only [Bool.decide_or]
    rfl
  rw [← hfilter, Dev.collector, hcollectors, List.getD_eq_getElem?_getD, List.getElem?_map, List.getElem?_range hd]
  rfl

theorem fencedUnit_stackUnit (s : Dev) {st : Nat} (hst : st < 16) :
    s.fencedUnit (stackUnit st) = (s.collector (st / 4)).fenced.contains (stackUnit st) := by
  have hdie : collectorOf (unitDie (stackUnit st)) = st / 4 := by
    simp only [collectorOf, unitDie, stackUnit, unitId, bits, BitVec.toNat_ofNat]
    split
    · omega
    · omega
  rw [Dev.fencedUnit, hdie, Dev.collector]

theorem warmShown_collectors (s : Dev) (cause : Nat) :
    (s.abandonFuses.dropMolt.warmShown cause).collectors = (s.afterWarm cause).collectors := by
  obtain ⟨l, r, h⟩ := afterWarm_eq_warmKept s cause
  obtain ⟨l', h'⟩ := warmShown_live_only s.abandonFuses.dropMolt cause
  exact (congrArg Dev.collectors h').trans (congrArg Dev.collectors h).symm

theorem afterWarm_stackState (s : Dev) (cause : Nat) {st : Nat} (hst : st < 16) (h : stackUnit st ∉ (s.collector (st / 4)).fenced) :
    (s.afterWarm cause).stackState st = 1 := by
  rw [afterWarm_eq, Dev.stackState, auditAppend_lv]
  refine stackState_trainStacks _ hst ?_
  have hfenced := afterWarm_fenced s cause (d := st / 4) (by omega)
  rw [fencedUnit_stackUnit _ hst, Dev.collector, warmShown_collectors, ← Dev.collector, hfenced]
  simp [h]

/-! ### Warm resets begun by a command -/

theorem warmReset_of_idle {s : Dev} (cause : Nat) (hpor : s.pwr.porLow = false) (hrun : s.warmRunning = false) :
    s.warmReset cause = (s.afterWarm cause).startHart0.bootRom := by
  simp [Dev.warmReset, hpor, hrun]

/-- What a warm reset leaves of a device, by what it kept of it and by what the boot ROM then writes. -/
theorem warmReset_eq (s : Dev) (cause : Nat) (hpor : s.pwr.porLow = false) (hrun : s.warmRunning = false) : ∃ k f r,
    s.warmReset cause =
      { Dev.warmKept { s with fresh := k, sec := { s.sec with fuses := f }, audit := s.dropMolt.audit, number := s.dropMolt.number } with
        live := (s.warmReset cause).live, audit := s.dropMolt.audit ++ [r], fresh := (s.warmReset cause).fresh,
        ctl := (s.warmReset cause).ctl,
        sec := { SecSt.reset f with latched := s.sec.latched, grade := s.sec.grade, secret := s.sec.secret,
                                    bootSlot := (s.warmReset cause).sec.bootSlot } } ∧
      (s.warmReset cause).ctl.flash = s.ctl.flash ∧
      ((∀ r, s.sec.run = some r → r.res ≠ 0 ∨ r.op < 5 ∨ 8 < r.op) → f = s.sec.fuses) := by
  have hboot := BootFrame.startHart0_bootRom (s.afterWarm cause)
  obtain ⟨live, r, hkept⟩ := afterWarm_eq_warmKept s cause
  obtain ⟨k, f, hm, hlog, hfuses⟩ := abandonFuses_dropMolt_eq s
  obtain ⟨hnumber, haudit⟩ := Prod.mk.inj hlog
  rw [hnumber, haudit] at hm
  rw [hm] at hkept
  rw [← warmReset_of_idle cause hpor hrun] at hboot
  have hdev := hboot.dev
  have hflash := hboot.flash
  rw [hkept] at hdev hflash
  exact ⟨k, f, r, hdev, hflash, hfuses⟩

theorem warmReset_lv (s : Dev) (cause a hi lo : Nat) (hpor : s.pwr.porLow = false) (hrun : s.warmRunning = false)
    (hc : a ≠ ctlPg + 0x100) (hm : a < secMeasBoot ∨ secMeasBoot + 64 ≤ a) :
    (s.warmReset cause).lv a hi lo = (s.afterWarm cause).lv a hi lo := by
  rw [warmReset_of_idle cause hpor hrun]
  exact (BootFrame.startHart0_bootRom _).lv a hi lo hc hm

theorem warmReset_stackState (s : Dev) (cause : Nat) (hpor : s.pwr.porLow = false) (hrun : s.warmRunning = false) {st : Nat}
    (hst : st < 16) (h : stackUnit st ∉ (s.collector (st / 4)).fenced) : (s.warmReset cause).stackState st = 1 := by
  have hlt := hbmPg_add_lt_secPg hst
  have hctl : secPg < ctlPg := by decide
  have hmeas : secPg < secMeasBoot := by decide
  rw [Dev.stackState, warmReset_lv s cause _ 2 0 hpor hrun (by omega) (.inl (by omega))]
  exact afterWarm_stackState s cause hst h

theorem warmReset_fenced (s : Dev) (cause : Nat) (hpor : s.pwr.porLow = false) (hrun : s.warmRunning = false) {d : Nat} (hd : d < 4) :
    ((s.warmReset cause).collector d).fenced = (s.collector d).fenced.filter fun u => unitClass u = 7 ∨ unitClass u = 8 := by
  have hcollectors : (s.warmReset cause).collectors = (s.afterWarm cause).collectors := by
    rw [warmReset_of_idle cause hpor hrun, (BootFrame.startHart0_bootRom _).dev]
  rw [Dev.collector, hcollectors]
  exact afterWarm_fenced s cause hd

/-- A command that begins a warm reset, after no more than a change of registers and of the control complex that the reset does not
keep. -/
theorem warmed_warmReset {s : State} {d : Dev} {cause : Nat} (hcause : cause < 2 ^ 5)
    (hd : d = { s.toDev with live := d.live, ctl := d.ctl }) (hflash : d.ctl.flash = s.ctl.flash)
    (hcount : d.lv (secPg + 0x120) 31 0 = s.lv (secPg + 0x120) 31 0)
    (hpor : s.pwr.porLow = false) (hrun : s.warmRunning = false) (hrun' : d.warmRunning = false) :
    warmed cause s { s with toDev := settle (d.warmReset cause) } := by
  have hpor' : d.pwr.porLow = false := by rw [hd]; exact hpor
  have hcollector : ∀ x, d.collector x = s.collector x := fun x => by rw [hd]; rfl
  have hcauseNow := (warmReset_lv d cause (pwrPg + 0x188) 4 0 hpor' hrun' (by decide) (.inr (by decide))).trans (afterWarm_lv_cause d hcause)
  have hcountNow := (warmReset_lv d cause (secPg + 0x120) 31 0 hpor' hrun' (by decide) (.inl (by decide))).trans
    (afterWarm_lv_warmCount d cause)
  rw [hcount] at hcountNow
  have hstacks := fun st => warmReset_stackState d cause hpor' hrun' (st := st)
  have hfences := fun x => warmReset_fenced d cause hpor' hrun' (d := x)
  simp only [hcollector] at hstacks hfences
  obtain ⟨k, f, r, ht, hflashNow, hfuses⟩ := warmReset_eq d cause hpor' hrun'
  generalize d.warmReset cause = t at *
  have hlog : (d.dropMolt.number, d.dropMolt.audit) = (s.dropMolt.number, s.dropMolt.audit) := by
    rw [dropMolt_number_audit, dropMolt_number_audit, hd]
  have hsec : d.sec = s.sec := by rw [hd]
  obtain ⟨hnumber, haudit⟩ := Prod.mk.inj hlog
  rw [hnumber, haudit, hsec, hd] at ht
  rw [hsec] at hfuses
  obtain ⟨sent, hsettle⟩ := settle_eq t
  rw [hsettle]
  refine ⟨fun h => absurd (hpor.symm.trans h) Bool.false_ne_true, fun _ h => absurd (hrun.symm.trans h) Bool.false_ne_true,
    fun _ h => absurd (hrun.symm.trans h) Bool.false_ne_true, fun _ _ => ⟨fun n l hnl => ?_, ?_⟩⟩
  · obtain ⟨rfl, rfl⟩ := Prod.mk.inj (hnl.trans (dropMolt_number_audit s.toDev).symm)
    have haudit : t.audit = s.dropMolt.audit ++ [r] := (congrArg Dev.audit ht :)
    refine ⟨(congrArg Dev.number ht :), ?_, ?_⟩
    · exact haudit ▸ List.take_left
    · exact haudit ▸ List.length_append
  · have hmem : t.mem = s.mem.filter fun c => decide (c.1 < 2 ^ 41) := (congrArg Dev.mem ht :)
    have hactive : t.active = [] := (congrArg Dev.active ht :)
    have hstaged : t.staged = [] := (congrArg Dev.staged ht :)
    have hreg : ∀ a, RegFile.get [] a = resetWord a := fun _ => rfl
    exact ⟨(congrArg Dev.beat ht :), (congrArg Dev.ticks ht :), rfl, fun a => hmem ▸ Memory.read_filter_lt s.mem (2 ^ 41) a,
      fun h => (congrArg (fun x => x.sec.fuses) ht :).trans (hfuses h), (congrArg (fun x => x.sec.latched) ht :),
      (congrArg (fun x => x.sec.secret) ht :), hflashNow.trans hflash, (congrArg Dev.fatal ht :), (congrArg Dev.molt ht :),
      (congrArg Dev.threads ht :), (congrArg Dev.cores ht :), (congrArg Dev.adapters ht :), (congrArg Dev.groups ht :),
      (congrArg Dev.ctxs ht :), (congrArg Dev.works ht :), (congrArg Dev.ports ht :), hfences,
      fun a => ⟨hactive ▸ hreg a, hstaged ▸ hreg a⟩, hcauseNow, hcountNow, hstacks, (congrArg (fun x => x.pwr.warmAt) ht :)⟩

/-! ### Watchdogs (R751) -/

/-- A device whose control complex and live registers alone have changed, its signals driven. -/
theorem settle_with_live_ctl {s : State} {d : Dev} (hd : d = { s.toDev with live := d.live, ctl := d.ctl }) :
    ({ s with toDev := settle d } : State) =
      { s with live := d.live, ctl := d.ctl, sent := (settle d).sent, sig := (settle d).sig } := by
  obtain ⟨l, hl⟩ := settle_eq d
  rw [hl, hd]

/-- A watchdog's period has passed since its count began. -/
def Dev.wdogDue (s : Dev) (w : Nat) : Prop := s.wdogPeriod w ≠ 0 ∧ (s.wdogSt w).1 + s.wdogPeriod w ≤ s.ticks

/-- A watchdog shows EXPIRED and starts again. -/
def Dev.wdogExpired (s : Dev) (w : Nat) : Dev := (s.setLv (wdogReg w) 4 4 1).setWdog w (s.ticks, true)

theorem wdogExpired_eq (s : Dev) (w : Nat) :
    s.wdogExpired w = { s with live := (s.wdogExpired w).live, ctl := { s.ctl with wdog := s.ctl.wdog.set w (s.ticks, true) } } := rfl

theorem wdogExpired_lv_field (s : Dev) (w h l : Nat) (hd : h < 4 ∨ 4 < l) :
    (s.wdogExpired w).lv (wdogReg w) h l = s.lv (wdogReg w) h l :=
  Dev.lv_setLv_field s _ 4 4 1 h l (by omega) (by omega) hd

theorem wdogExpired_lv_expired (s : Dev) (w : Nat) : (s.wdogExpired w).lv (wdogReg w) 4 4 = 1 :=
  Dev.lv_setLv_same s _ 4 4 1 (by omega) (by omega)

theorem wdogExpired_get_other (s : Dev) (w a : Nat) (ha : a ≠ wdogReg w) :
    RegFile.get (s.wdogExpired w).live a = RegFile.get s.live a := Dev.get_setLv_other s _ _ _ _ a ha

theorem wdogExpired_lv_other (s : Dev) (w a h l : Nat) (ha : a ≠ wdogReg w) : (s.wdogExpired w).lv a h l = s.lv a h l := by
  rw [Dev.lv, wdogExpired_get_other s w a ha, Dev.lv]

/-- No stack's state moves, so a warm reset runs after an expiry just if one ran before. -/
theorem wdogExpired_warmRunning (s : Dev) (w : Nat) : (s.wdogExpired w).warmRunning = s.warmRunning := by
  have hstack : ∀ st ∈ List.range 16, (s.wdogExpired w).stackState st = s.stackState st := fun st hst => by
    have hlt := hbmPg_add_lt_secPg (List.mem_range.mp hst)
    have hctl : secPg < ctlPg := by decide
    exact wdogExpired_lv_other s w _ 2 0 (by rw [wdogReg]; omega)
  have hany : (List.range 16).any (fun st => decide ((s.wdogExpired w).stackState st < 3)) =
      (List.range 16).any fun st => decide (s.stackState st < 3) := by
    rw [Bool.eq_iff_iff, List.any_eq_true, List.any_eq_true]
    exact exists_congr fun st => and_congr_right fun hst => by rw [hstack st hst]
  exact congrArg (s.pwr.warmAt.isSome && ·) hany

theorem wdogExpireEffect_of_not_due {s : Dev} {w : Fin 4} (h : ¬ s.wdogDue w.val) : wdogExpireEffect w s = s := by
  unfold Dev.wdogDue at h
  exact if_pos (by omega)

theorem wdogExpireEffect_of_due {s : Dev} {w : Fin 4} (h : s.wdogDue w.val) :
    wdogExpireEffect w s =
      if (s.wdogSt w.val).2 = true ∧ s.lv (wdogReg w.val) 1 0 = 1 then (s.wdogExpired w.val).warmReset 0x08 else s.wdogExpired w.val := by
  rw [← wdogExpired_lv_field s w.val 1 0 (.inl (by omega))]
  obtain ⟨hperiod, hpassed⟩ := h
  exact if_neg (by omega)

theorem exec_wdogExpire (w : Fin 4) (s : State) :
    exec (.wdogExpire w) s = .next { s with toDev := settle (wdogExpireEffect w s.toDev) } := rfl

theorem exec_wdogKick (w : Fin 4) (s : State) :
    exec (.wdogKick w) s = .next { s with toDev := settle (s.toDev.setWdog w.val (s.ticks, false)) } := rfl

theorem wdogKick_restarts (s : State) (w : Fin 4) : ∃ t, exec (.wdogKick w) s = .next t ∧
    t = { s with ctl := { s.ctl with wdog := s.ctl.wdog.set w.val (s.ticks, false) }, sent := t.sent, sig := t.sig } ∧
    sends [] s t := by
  refine ⟨_, exec_wdogKick w s, settle_with_live_ctl rfl, sends_settle [] s _ ?_ rfl⟩
  exact (List.append_nil _).symm

theorem wdogExpire_early (s : State) (w : Fin 4) (h : ¬ s.wdogDue w.val) :
    ∃ t, exec (.wdogExpire w) s = .next t ∧ unchanged s t := by
  refine ⟨_, exec_wdogExpire w s, ?_⟩
  rw [wdogExpireEffect_of_not_due h]
  exact unchanged_settle s

theorem wdogExpire_shows_expired (s : State) (w : Fin 4) (h : s.wdogDue w.val)
    (hstays : (s.wdogSt w.val).2 = false ∨ s.lv (wdogReg w.val) 1 0 ≠ 1) :
    ∃ t, exec (.wdogExpire w) s = .next t ∧ t.lv (wdogReg w.val) 4 4 = 1 ∧ sameRegs [wdogReg w.val] s t ∧
      sameBits (wdogReg w.val) 4 4 s t ∧
      t = { s with ctl := { s.ctl with wdog := s.ctl.wdog.set w.val (s.ticks, true) }, live := t.live, sent := t.sent, sig := t.sig } ∧
      sends [] s t := by
  have heffect : wdogExpireEffect w s.toDev = s.wdogExpired w.val := by
    rw [wdogExpireEffect_of_due h, if_neg]
    rintro ⟨hagain, haction⟩
    exact hstays.elim (fun hfirst => absurd (hfirst.symm.trans hagain) Bool.false_ne_true) (fun hne => hne haction)
  refine ⟨_, exec_wdogExpire w s, ?_⟩
  rw [heffect]
  refine ⟨?_, fun a ha => ?_, fun h l hd => ?_, ?_, sends_settle [] s _ (List.append_nil _).symm rfl⟩
  · exact (settle_lv _ _ _ _).trans (wdogExpired_lv_expired s.toDev w.val)
  · rw [settle_live, wdogExpired_get_other _ _ _ (by simpa using ha)]
  · exact (settle_lv _ _ _ _).trans (wdogExpired_lv_field s.toDev w.val h l hd)
  · rw [settle_live]
    exact settle_with_live_ctl rfl

theorem wdogExpire_again_resets (s : State) (w : Fin 4) (h : s.wdogDue w.val) (hagain : (s.wdogSt w.val).2 = true)
    (haction : s.lv (wdogReg w.val) 1 0 = 1) (hpor : s.pwr.porLow = false) (hrun : s.warmRunning = false) :
    ∃ t, exec (.wdogExpire w) s = .next t ∧ warmed 0x08 s t := by
  have hcount : (s.wdogExpired w.val).lv (secPg + 0x120) 31 0 = s.lv (secPg + 0x120) 31 0 := by
    have hlt : secPg + 0x120 < ctlPg := by decide
    exact wdogExpired_lv_other s.toDev w.val _ 31 0 (by rw [wdogReg]; omega)
  refine ⟨_, exec_wdogExpire w s, ?_⟩
  rw [wdogExpireEffect_of_due h, if_pos ⟨hagain, haction⟩]
  exact warmed_warmReset (by decide) (wdogExpired_eq s.toDev w.val) rfl hcount hpor hrun
    ((wdogExpired_warmRunning s.toDev w.val).trans hrun)

/-- Settles O55: a kick and an expiry change the watchdog's count and EXPIRED alone, and the registers and the count that an expiry
changes are none of those that `warmed` tells of. -/
theorem watchdogsExpire : Obligations.WatchdogsExpire := by
  unfold Obligations.WatchdogsExpire
  intro s w
  exact ⟨wdogKick_restarts s w, wdogExpire_early s w, wdogExpire_shows_expired s w, wdogExpire_again_resets s w⟩

end Sys2Proof.Machine
end

section
/-! PROOF. Rails, THERMTRIP and the throttle level (R788, R790 to R794, R803). First what a FATAL report does to the power state and to
FATAL; then the registers that a throttle window shows; then the level it sets; then the parts of O58. -/

namespace Sys2Proof.Machine

/-! ### Reports and the power state -/

theorem foldl_pwr {α : Type} (f : Dev → α → Dev) (hf : ∀ s x, (f s x).pwr = s.pwr) (xs : List α) (s : Dev) :
    (xs.foldl f s).pwr = s.pwr :=
  List.foldlRecOn (motive := fun t => t.pwr = s.pwr) xs f rfl fun t ht x _ => (hf t x).trans ht

@[simp] theorem putReport_pwr (s : Dev) (d slot : Nat) (old : Option FEntry) (u : BitVec 32) (r : Report) :
    (s.putReport d slot old u r).pwr = s.pwr := by
  simp only [Dev.putReport]
  split
  · rfl
  · simp [apply_ite Dev.pwr]

@[simp] theorem markSummary_pwr (s : Dev) (u : BitVec 32) : (s.markSummary u).pwr = s.pwr := by
  simp [Dev.markSummary, apply_ite Dev.pwr]

@[simp] theorem fltOverflow_pwr (s : Dev) (d n : Nat) : (s.fltOverflow d n).pwr = s.pwr := by
  simp only [Dev.fltOverflow]
  split
  · simp
  · rw [foldl_pwr]
    · simp
    · intro t _
      split
      · simp
      · simp

@[simp] theorem logFatal_pwr (s : Dev) (d : Nat) (u reporter : BitVec 32) (bit : Nat) : (s.logFatal d u reporter bit).pwr = s.pwr := by
  simp [Dev.logFatal]

@[simp] theorem logFatal_fatal (s : Dev) (d : Nat) (u reporter : BitVec 32) (bit : Nat) : (s.logFatal d u reporter bit).fatal = s.fatal := by
  simp [Dev.logFatal]

/-- What the first FATAL report does to a molt that waits (R808). -/
def Dev.dropPending (s : Dev) : Dev :=
  match s.molt with
  | none => s
  | some _ => (({ s with molt := none } : Dev).setInsState (if s.retiring.isSome then 3 else 0)).setMoltResult 0x0B

@[simp] theorem dropPending_pwr (s : Dev) : s.dropPending.pwr = s.pwr := by
  unfold Dev.dropPending
  split
  · rfl
  · simp

@[simp] theorem dropPending_fatal (s : Dev) : s.dropPending.fatal = s.fatal := by
  unfold Dev.dropPending
  split
  · rfl
  · simp

/-- The first FATAL report is logged, makes the device FATAL and cancels a molt that waits (R719, R808). -/
theorem goFatal_of_not_fatal {s : Dev} (hfatal : ¬ s.fatal = true) (d : Nat) (u reporter : BitVec 32) (bit : Nat) :
    s.goFatal d u reporter bit = ({ s.logFatal d u reporter bit with fatal := true } : Dev).dropPending := by
  rw [Dev.goFatal, if_neg hfatal]
  generalize ({ s.logFatal d u reporter bit with fatal := true } : Dev) = t
  rfl

/-- A later FATAL report is logged at most (R703, R720). -/
theorem goFatal_of_fatal {s : Dev} (hfatal : s.fatal = true) (d : Nat) (u reporter : BitVec 32) (bit : Nat) :
    s.goFatal d u reporter bit = s.logFatal d u reporter bit ∨ s.goFatal d u reporter bit = s := by
  rw [Dev.goFatal, if_pos hfatal]
  split
  · split
    · exact .inl rfl
    · exact .inr rfl
  · exact .inr rfl

@[simp] theorem goFatal_pwr (s : Dev) (d : Nat) (u reporter : BitVec 32) (bit : Nat) : (s.goFatal d u reporter bit).pwr = s.pwr := by
  by_cases hfatal : s.fatal = true
  · obtain h | h := goFatal_of_fatal hfatal d u reporter bit
    · rw [h, logFatal_pwr]
    · rw [h]
  · rw [goFatal_of_not_fatal hfatal, dropPending_pwr, logFatal_pwr]

theorem goFatal_fatal (s : Dev) (d : Nat) (u reporter : BitVec 32) (bit : Nat) : (s.goFatal d u reporter bit).fatal = true := by
  by_cases hfatal : s.fatal = true
  · obtain h | h := goFatal_of_fatal hfatal d u reporter bit
    · rw [h, logFatal_fatal, hfatal]
    · rw [h, hfatal]
  · rw [goFatal_of_not_fatal hfatal, dropPending_fatal]

@[simp] theorem reportAt_pwr (s : Dev) (d : Nat) (u reporter : BitVec 32) (bit cls : Nat) (inj : Bool) :
    (s.reportAt d u reporter bit cls inj).pwr = s.pwr := by
  simp only [Dev.reportAt, apply_ite Dev.pwr, goFatal_pwr, ite_self]
  split
  · simp [apply_ite Dev.pwr]
  · split
    · simp [apply_ite Dev.pwr]
    · split
      · simp [apply_ite Dev.pwr]
      · simp [apply_ite Dev.pwr]

theorem reportAt_fatal (s : Dev) (d : Nat) (u reporter : BitVec 32) (bit : Nat) (inj : Bool) :
    (s.reportAt d u reporter bit 3 inj).fatal = true := by
  simp only [Dev.reportAt, if_true, goFatal_fatal]

/-- A fault of the PWR page is of class FATAL and fences nothing (R801). -/
theorem faultOwn_pwrUnit (s : Dev) {bit : Nat} (hbit : bit < 3) :
    s.faultOwn 4 0x0F 0 bit pwrUnit = (s.setLv (pwrPg + 0x18) bit bit 1).reportAt 0 pwrUnit pwrUnit bit 3 false := by
  have hpeer : peerUnit pwrUnit = none := by decide
  have hcls : faultClass 0x0F bit = some 3 := by
    match bit, hbit with
    | 0, _ => rfl
    | 1, _ => rfl
    | 2, _ => rfl
  simp only [Dev.faultOwn, Dev.fault, Dev.raise, hpeer, hcls]
  rfl

/-! ### Little-endian bytes as register fields -/

theorem leNat_lt (l : List Byte) : leNat l < 256 ^ l.length := by
  induction l with
  | nil => exact Nat.one_pos
  | cons b t ih =>
    have hb : b.toNat < 256 := b.isLt
    rw [leNat, List.length_cons, Nat.pow_succ]
    omega

/-- Byte `i` of a little-endian number is its `i`-th byte. -/
theorem bits_leNat (l : List Byte) (i : Nat) : bits (leNat l) (8 * i + 7) (8 * i) = (l.getD i 0).toNat := by
  have hwidth : 8 * i + 7 + 1 - 8 * i = 8 := by omega
  rw [bits, hwidth]
  induction l generalizing i with
  | nil => simp [leNat]
  | cons b t ih =>
    have hb : b.toNat < 256 := b.isLt
    cases i with
    | zero =>
      rw [leNat, List.getD_cons_zero]
      omega
    | succ i =>
      have hpow : 2 ^ (8 * (i + 1)) = 256 * 2 ^ (8 * i) := by
        rw [Nat.mul_succ, Nat.pow_add, Nat.mul_comm]
      have htail : (b.toNat + 256 * leNat t) / 256 = leNat t := by omega
      have hstep : (b.toNat + 256 * leNat t) / 2 ^ (8 * (i + 1)) = leNat t / 2 ^ (8 * i) := by
        rw [hpow, ← Nat.div_div_eq_div_mul, htail]
      rw [leNat, hstep, List.getD_cons_succ]
      exact ih i (by omega)

/-- The bytes of a register word. -/
theorem fld_leNat (l : List Byte) (hl : l.length ≤ 8) (i : Nat) :
    fld (BitVec.ofNat 64 (leNat l)) (8 * i + 7) (8 * i) = (l.getD i 0).toNat := by
  have hlt : leNat l < 2 ^ 64 := calc
    leNat l < 256 ^ l.length := leNat_lt l
    _ ≤ 256 ^ 8 := Nat.pow_le_pow_right (by omega) hl
    _ = 2 ^ 64 := by decide
  rw [fld, BitVec.toNat_ofNat, Nat.mod_eq_of_lt hlt, bits_leNat]

/-! ### Runs of registers -/

section
variable (addr val : Nat → Nat)

/-- A register outside a run of registers that are set. -/
theorem lv_foldl_putLv_other (xs : List Nat) (s : Dev) (b h l : Nat) (hb : ∀ x ∈ xs, b ≠ addr x) :
    (xs.foldl (fun t x => t.putLv (addr x) (val x)) s).lv b h l = s.lv b h l := by
  induction xs generalizing s with
  | nil => rfl
  | cons x xs ih =>
    rw [List.forall_mem_cons] at hb
    rw [List.foldl_cons, ih _ hb.2, Dev.lv_putLv_other _ _ _ _ _ _ hb.1]

/-- A register of a run of registers that are set. -/
theorem lv_foldl_putLv_mem (haddr : Function.Injective addr) (xs : List Nat) (s : Dev) {x : Nat} (hx : x ∈ xs) (h l : Nat) :
    (xs.foldl (fun t x => t.putLv (addr x) (val x)) s).lv (addr x) h l = fld (BitVec.ofNat 64 (val x)) h l := by
  induction xs generalizing s with
  | nil => exact absurd hx List.not_mem_nil
  | cons y ys ih =>
    rw [List.foldl_cons]
    by_cases hys : x ∈ ys
    · exact ih _ hys
    · obtain rfl : x = y := (List.mem_cons.mp hx).resolve_right hys
      rw [lv_foldl_putLv_other _ _ _ _ _ _ _ fun z hz he => hys (by rwa [haddr he]), Dev.lv_putLv_same]

end

/-! ### The measured registers (R803) -/

theorem length_dieTemps (m : PowerWindow) : (dieTemps m).length = 5 := rfl

/-- PWR_RAIL_i: its address, and its word after a window. -/
def railReg (i : Nat) : Nat := pwrPg + 0x100 + 8 * i
def railWord (m : PowerWindow) (i : Nat) : Nat := (m.mv.getD i 0).toNat * 2 ^ 32 + (m.cur.getD i 0).toNat

theorem railReg_injective : Function.Injective railReg := fun a b h => by
  unfold railReg at h
  omega

theorem railReg_lt {i : Nat} (hi : i < 12) : railReg i < pwrPg + 0x160 := by
  unfold railReg
  omega

/-- The state once the voltages and currents of the rails are shown. -/
def Dev.measureRails (s : Dev) (m : PowerWindow) : Dev := (List.range 12).foldl (fun t i => t.putLv (railReg i) (railWord m i)) s

/-- The state once the power and the temperatures are shown as well. -/
def Dev.measureTemps (s : Dev) (m : PowerWindow) : Dev :=
  ((s.measureRails m).setLv (pwrPg + 0x160) 15 0 m.watts.toNat).putLv (pwrPg + 0x168) (leNat ((dieTemps m).map fun t => t.getD 0xFF))

/-- Beyond the rails, the power and the temperatures a window sets SENSOR_LOST and WARN of PWR_STATUS alone. -/
theorem measure_eq (s : Dev) (m : PowerWindow) : ∃ lost warn,
    s.measure m = ((s.measureTemps m).setLv (pwrPg + 0x170) 12 8 lost).setLv (pwrPg + 0x170) 4 4 warn := ⟨_, _, rfl⟩

theorem measure_live_only (s : Dev) (m : PowerWindow) : ∃ l, s.measure m = { s with live := l } := by
  obtain ⟨lost, warn, h⟩ := measure_eq s m
  rw [h]
  exact live_only_trans (live_only_trans (live_only_trans (live_only_trans
    (foldl_live_only _ (fun t _ => putLv_live_only t _ _) _ s) (setLv_live_only _ _ _ _ _)) (putLv_live_only _ _ _))
    (setLv_live_only _ _ _ _ _)) (setLv_live_only _ _ _ _ _)

/-- The other registers hold what the rails, the power and the temperatures left there. -/
theorem measure_lv (s : Dev) (m : PowerWindow) (a h l : Nat) (ha : a ≠ pwrPg + 0x170) :
    (s.measure m).lv a h l = (s.measureTemps m).lv a h l := by
  obtain ⟨lost, warn, hm⟩ := measure_eq s m
  rw [hm, Dev.lv_setLv_other _ _ _ _ _ _ _ _ ha, Dev.lv_setLv_other _ _ _ _ _ _ _ _ ha]

theorem measure_lv_watts (s : Dev) (m : PowerWindow) : (s.measure m).lv (pwrPg + 0x160) 15 0 = m.watts.toNat := by
  rw [measure_lv _ _ _ _ _ (by decide), Dev.measureTemps, Dev.lv_putLv_other _ _ _ _ _ _ (by decide),
    Dev.lv_setLv_same _ _ _ _ _ (by omega) (by omega)]
  exact Nat.mod_eq_of_lt m.watts.isLt

theorem measure_lv_temp (s : Dev) (m : PowerWindow) {d : Nat} (hd : d < 5) :
    (s.measure m).lv (pwrPg + 0x168) (8 * d + 7) (8 * d) = ((m.temps.getD d none).getD 0xFF).toNat := by
  have hlength : ((dieTemps m).map fun t => t.getD 0xFF).length ≤ 8 := by simp [length_dieTemps]
  have hget : ((dieTemps m).map fun t => t.getD 0xFF).getD d 0 = (m.temps.getD d none).getD 0xFF := by
    rw [dieTemps, List.getD_eq_getElem?_getD, List.getElem?_map, List.getElem?_map, List.getElem?_range hd]
    rfl
  rw [measure_lv _ _ _ _ _ (by decide), Dev.measureTemps, Dev.lv_putLv_same, fld_leNat _ hlength, hget]

theorem measure_lv_rail (s : Dev) (m : PowerWindow) {i : Nat} (hi : i < 12) (h l : Nat) :
    (s.measure m).lv (railReg i) h l = fld (BitVec.ofNat 64 (railWord m i)) h l := by
  have hlt := railReg_lt hi
  rw [measure_lv _ _ _ _ _ (by omega), Dev.measureTemps, Dev.lv_putLv_other _ _ _ _ _ _ (by omega),
    Dev.lv_setLv_other _ _ _ _ _ _ _ _ (by omega), Dev.measureRails,
    lv_foldl_putLv_mem _ _ railReg_injective _ _ (List.mem_range.mpr hi)]

/-- The millivolts of a rail stand above its current. -/
theorem fld_railWord (m : PowerWindow) (i : Nat) :
    fld (BitVec.ofNat 64 (railWord m i)) 47 32 = (m.mv.getD i 0).toNat ∧
      fld (BitVec.ofNat 64 (railWord m i)) 15 0 = (m.cur.getD i 0).toNat := by
  have hmv : (m.mv.getD i 0).toNat < 2 ^ 16 := (m.mv.getD i 0).isLt
  have hcur : (m.cur.getD i 0).toNat < 2 ^ 16 := (m.cur.getD i 0).isLt
  unfold railWord
  simp only [fld, bits, BitVec.toNat_ofNat]
  omega

/-! ### The throttle level (R791, R793) -/

/-- A die is at THROTTLE, the power is above its limit, every die is well below THROTTLE: what a window's level turns on. -/
def Dev.hotIn (s : Dev) (m : PowerWindow) : Bool := ((dieTemps m).map s.tempOf).any fun t => decide (s.throttleAt ≤ t)
def Dev.aboveIn (s : Dev) (m : PowerWindow) : Bool := decide (s.powerCap < m.watts.toNat)
def Dev.coolIn (s : Dev) (m : PowerWindow) : Bool := ((dieTemps m).map s.tempOf).all fun t => decide (t + 3 ≤ s.throttleAt)

theorem hotIn_iff (s : Dev) (m : PowerWindow) : s.hotIn m = true ↔ ∃ d, d < 5 ∧ s.throttleAt ≤ s.tempOf (m.temps.getD d none) := by
  simp [Dev.hotIn, dieTemps]

theorem aboveIn_iff (s : Dev) (m : PowerWindow) : s.aboveIn m = true ↔ s.powerCap < m.watts.toNat := decide_eq_true_iff

theorem coolIn_iff (s : Dev) (m : PowerWindow) : s.coolIn m = true ↔ ∀ d, d < 5 → s.tempOf (m.temps.getD d none) + 3 ≤ s.throttleAt := by
  simp [Dev.coolIn, dieTemps]

/-- The level that a window sets. -/
def Dev.nextLevel (s : Dev) (m : PowerWindow) : Nat :=
  if s.hotIn m || s.aboveIn m then min 16 (s.pwr.level + 1)
  else if decide (m.watts.toNat * 100 < 97 * s.powerCap) && s.coolIn m then s.pwr.level - 1 else s.pwr.level

theorem nextLevel_rises {s : Dev} {m : PowerWindow} (h : s.hotIn m = true ∨ s.aboveIn m = true) :
    s.nextLevel m = min 16 (s.pwr.level + 1) := if_pos (Bool.or_eq_true_iff.mpr h)

theorem nextLevel_of_not_hot_of_not_above {s : Dev} {m : PowerWindow} (hhot : ¬ s.hotIn m = true) (habove : ¬ s.aboveIn m = true) :
    s.nextLevel m = if m.watts.toNat * 100 < 97 * s.powerCap ∧ s.coolIn m = true then s.pwr.level - 1 else s.pwr.level := by
  simp [Dev.nextLevel, hhot, habove]

/-! ### A window's end -/

/-- The state of a window's end before the level changes: on a rise PWR_STATUS names its causes. -/
def Dev.windowShown (s : Dev) (m : PowerWindow) : Dev :=
  if s.pwr.level < s.nextLevel m then
    ((s.measure m).setLv (pwrPg + 0x170) 1 1 (b2n (s.hotIn m))).setLv (pwrPg + 0x170) 0 0 (b2n (s.aboveIn m))
  else s.measure m

/-- The state of a window's end. -/
def Dev.windowEnded (s : Dev) (m : PowerWindow) : Dev :=
  ({ s.windowShown m with pwr := { s.pwr with level := s.nextLevel m, winAt := s.ticks } } : Dev).setLv (pwrPg + 0x170) 3 2
    (stageOf (s.nextLevel m))

theorem windowShown_live_only (s : Dev) (m : PowerWindow) : ∃ l, s.windowShown m = { s with live := l } := by
  unfold Dev.windowShown
  split
  · exact live_only_trans (live_only_trans (measure_live_only s m) (setLv_live_only _ _ _ _ _)) (setLv_live_only _ _ _ _ _)
  · exact measure_live_only s m

theorem throttleWindowEffect_of_due {s : Dev} (m : PowerWindow) (hpor : s.pwr.porLow = false) (hdue : s.pwr.winAt + 1024 ≤ s.ticks) :
    throttleWindowEffect m s = s.windowEnded m := by
  obtain ⟨l, hl⟩ := windowShown_live_only s m
  have hpwr : (s.windowShown m).pwr = s.pwr := by rw [hl]
  have hticks : (s.windowShown m).ticks = s.ticks := by rw [hl]
  have hrun : ¬ (s.pwr.porLow = true ∨ s.ticks < s.pwr.winAt + 1024) := by
    simp only [hpor, Bool.false_eq_true, false_or]
    omega
  calc throttleWindowEffect m s
      = ({ s.windowShown m with pwr := { (s.windowShown m).pwr with level := s.nextLevel m, winAt := (s.windowShown m).ticks } } :
          Dev).setLv (pwrPg + 0x170) 3 2 (stageOf (s.nextLevel m)) := if_neg hrun
    _ = s.windowEnded m := by rw [hpwr, hticks, Dev.windowEnded]

theorem throttleWindowEffect_of_not_due {s : Dev} (m : PowerWindow) (h : s.pwr.porLow = true ∨ s.ticks < s.pwr.winAt + 1024) :
    throttleWindowEffect m s = s := if_pos h

theorem windowEnded_eq (s : Dev) (m : PowerWindow) :
    s.windowEnded m = { s with pwr := { s.pwr with level := s.nextLevel m, winAt := s.ticks }, live := (s.windowEnded m).live } := by
  obtain ⟨l, hl⟩ := windowShown_live_only s m
  rw [Dev.windowEnded, hl]
  rfl

theorem with_pwr_lv (s : Dev) (x : PwrSt) (a h l : Nat) : ({ s with pwr := x } : Dev).lv a h l = s.lv a h l := rfl

/-- Registers other than PWR_STATUS are as the window measured them. -/
theorem windowEnded_lv_other (s : Dev) (m : PowerWindow) (a h l : Nat) (ha : a ≠ pwrPg + 0x170) :
    (s.windowEnded m).lv a h l = (s.measure m).lv a h l := by
  rw [Dev.windowEnded, Dev.lv_setLv_other _ _ _ _ _ _ _ _ ha, with_pwr_lv]
  unfold Dev.windowShown
  split
  · rw [Dev.lv_setLv_other _ _ _ _ _ _ _ _ ha, Dev.lv_setLv_other _ _ _ _ _ _ _ _ ha]
  · rfl

theorem windowEnded_lv_watts (s : Dev) (m : PowerWindow) : (s.windowEnded m).lv (pwrPg + 0x160) 15 0 = m.watts.toNat := by
  rw [windowEnded_lv_other _ _ _ _ _ (by decide), measure_lv_watts]

theorem windowEnded_lv_temp (s : Dev) (m : PowerWindow) {d : Nat} (hd : d < 5) :
    (s.windowEnded m).lv (pwrPg + 0x168) (8 * d + 7) (8 * d) = ((m.temps.getD d none).getD 0xFF).toNat := by
  rw [windowEnded_lv_other _ _ _ _ _ (by decide), measure_lv_temp _ _ hd]

theorem windowEnded_lv_rail (s : Dev) (m : PowerWindow) {i : Nat} (hi : i < 12) :
    (s.windowEnded m).lv (railReg i) 47 32 = (m.mv.getD i 0).toNat ∧ (s.windowEnded m).lv (railReg i) 15 0 = (m.cur.getD i 0).toNat := by
  have hlt := railReg_lt hi
  have hother := fun h l => windowEnded_lv_other s m (railReg i) h l (by omega)
  rw [hother, hother, measure_lv_rail _ _ hi, measure_lv_rail _ _ hi]
  exact fld_railWord m i

theorem windowEnded_lv_stage (s : Dev) (m : PowerWindow) : (s.windowEnded m).lv (pwrPg + 0x170) 3 2 = stageOf (s.nextLevel m) := by
  rw [Dev.windowEnded, Dev.lv_setLv_same _ _ _ _ _ (by omega) (by omega)]
  apply Nat.mod_eq_of_lt
  unfold stageOf
  split
  · omega
  · split
    · omega
    · omega

theorem b2n_mod_two (b : Bool) : b2n b % 2 = 1 ↔ b = true := by
  cases b
  · simp [b2n]
  · simp [b2n]

/-- A rise of the level names its causes (R803). -/
theorem windowEnded_lv_causes {s : Dev} {m : PowerWindow} (hrise : s.pwr.level < s.nextLevel m) :
    ((s.windowEnded m).lv (pwrPg + 0x170) 1 1 = 1 ↔ s.hotIn m = true) ∧
      ((s.windowEnded m).lv (pwrPg + 0x170) 0 0 = 1 ↔ s.aboveIn m = true) := by
  have hshown : ∀ b, b < 2 → (s.windowEnded m).lv (pwrPg + 0x170) b b =
      (((s.measure m).setLv (pwrPg + 0x170) 1 1 (b2n (s.hotIn m))).setLv (pwrPg + 0x170) 0 0 (b2n (s.aboveIn m))).lv (pwrPg + 0x170) b b := by
    intro b hb
    rw [Dev.windowEnded, Dev.lv_setLv_field _ _ _ _ _ _ _ (by omega) (by omega) (by omega), with_pwr_lv, Dev.windowShown, if_pos hrise]
  rw [hshown 1 (by omega), hshown 0 (by omega), Dev.lv_setLv_same _ _ _ _ _ (by omega) (by omega),
    Dev.lv_setLv_field _ _ _ _ _ _ _ (by omega) (by omega) (by omega), Dev.lv_setLv_same _ _ _ _ _ (by omega) (by omega)]
  exact ⟨b2n_mod_two _, b2n_mod_two _⟩

/-! ### The commands -/

/-- A command whose effect leaves the device as it is. -/
theorem unchanged_of_effect_eq {f : Dev → Dev} {s : State} (h : f s.toDev = s.toDev) : ∃ t, run f s = .next t ∧ unchanged s t := by
  refine ⟨_, run_next f s, ?_⟩
  rw [h]
  exact unchanged_settle s

theorem exec_railStep (step : Fin 5) (s : State) : exec (.railStep step) s = run (railStepEffect step) s := rfl
theorem exec_railFault (i : Fin 12) (s : State) : exec (.railFault i) s = run (railFaultEffect i) s := rfl
theorem exec_thermtrip (d : AnyDie) (c : Byte) (s : State) : exec (.thermtrip d c) s = run (thermtripEffect d c) s := rfl
theorem exec_throttleWindow (m : PowerWindow) (s : State) : exec (.throttleWindow m) s = run (throttleWindowEffect m) s := rfl

/-- A step of the rails that may come (R788): the first, or the one after the last that came, while PWR_ON_RESET_N is low. -/
def Dev.mayStep (s : Dev) (step : Fin 5) : Prop :=
  s.pwr.porLow = true ∧ (step.val = 1 ∨ step.val ≠ 0 ∧ step.val = s.pwr.railStep + 1)

theorem railStep_early {s : State} {step : Fin 5} (h : ¬ s.mayStep step) : ∃ t, exec (.railStep step) s = .next t ∧ unchanged s t := by
  rw [exec_railStep]
  exact unchanged_of_effect_eq (if_neg h)

theorem railStep_next {s : State} {step : Fin 5} (h : s.mayStep step) : ∃ t, exec (.railStep step) s = .next t ∧
    t = { s with pwr := { s.pwr with railStep := step.val }, sent := t.sent, sig := t.sig } ∧ sends [] s t := by
  have heffect : railStepEffect step s.toDev = { s.toDev with pwr := { s.pwr with railStep := step.val } } := if_pos h
  refine ⟨_, run_next _ s, ?_⟩
  rw [heffect]
  refine ⟨?_, sends_settle [] s _ (List.append_nil _).symm rfl⟩
  obtain ⟨l, hl⟩ := settle_eq { s.toDev with pwr := { s.pwr with railStep := step.val } }
  rw [hl]

theorem power_events_unchanged_of_porLow {s : State} (h : s.pwr.porLow = true) :
    (∀ i, ∃ t, exec (.railFault i) s = .next t ∧ unchanged s t) ∧ (∀ d c, ∃ t, exec (.thermtrip d c) s = .next t ∧ unchanged s t) ∧
      ∀ m, ∃ t, exec (.throttleWindow m) s = .next t ∧ unchanged s t :=
  ⟨fun i => exec_railFault i s ▸ unchanged_of_effect_eq (if_pos h),
   fun d c => exec_thermtrip d c s ▸ unchanged_of_effect_eq (if_pos (.inl h)),
   fun m => exec_throttleWindow m s ▸ unchanged_of_effect_eq (throttleWindowEffect_of_not_due m (.inl h))⟩

theorem throttleWindow_early {s : State} (h : s.ticks < s.pwr.winAt + 1024) (m : PowerWindow) :
    ∃ t, exec (.throttleWindow m) s = .next t ∧ unchanged s t := by
  rw [exec_throttleWindow]
  exact unchanged_of_effect_eq (throttleWindowEffect_of_not_due m (.inr h))

theorem railFault_fatal {s : State} (hpor : s.pwr.porLow = false) (i : Fin 12) :
    ∃ t, exec (.railFault i) s = .next t ∧ became (s.faultOwn 4 0x0F 0 0 pwrUnit) s t := by
  have heffect : railFaultEffect i s.toDev = s.faultOwn 4 0x0F 0 0 pwrUnit := if_neg (by simp [hpor])
  refine ⟨_, run_next _ s, ?_⟩
  rw [heffect, became]

theorem thermtrip_below {s : State} {c : Byte} (h : c.toNat < 115) (d : AnyDie) : ∃ t, exec (.thermtrip d c) s = .next t ∧ unchanged s t := by
  rw [exec_thermtrip]
  exact unchanged_of_effect_eq (if_pos (.inr h))

theorem thermtrip_fatal {s : State} (hpor : s.pwr.porLow = false) {c : Byte} (h : 115 ≤ c.toNat) (d : AnyDie) :
    ∃ t, exec (.thermtrip d c) s = .next t ∧ t.fatal = true ∧ t.pwr = { s.pwr with tripLow := true } := by
  have heffect : thermtripEffect d c s.toDev =
      ({ s.toDev with pwr := { s.pwr with tripLow := true } } : Dev).faultOwn 4 0x0F 0 1 pwrUnit := by
    refine if_neg ?_
    simp only [hpor, Bool.false_eq_true, false_or]
    omega
  refine ⟨_, run_next _ s, ?_⟩
  dsimp only
  rw [heffect, faultOwn_pwrUnit _ (by omega), settle_fatal, settle_pwr, reportAt_fatal, reportAt_pwr, setLv_pwr]
  exact ⟨rfl, rfl⟩

/-- The state a window ends in. -/
theorem throttleWindow_due {s : State} (m : PowerWindow) (hpor : s.pwr.porLow = false) (hdue : s.pwr.winAt + 1024 ≤ s.ticks) :
    exec (.throttleWindow m) s = .next { s with toDev := settle (s.windowEnded m) } := by
  rw [exec_throttleWindow, run_next, throttleWindowEffect_of_due m hpor hdue]

theorem windowEnded_state (s : State) (m : PowerWindow) :
    ({ s with toDev := settle (s.windowEnded m) } : State) =
      { s with pwr := { s.pwr with level := s.nextLevel m, winAt := s.ticks }, live := (settle (s.windowEnded m)).live,
               sent := (settle (s.windowEnded m)).sent, sig := (settle (s.windowEnded m)).sig } := by
  obtain ⟨l, hl⟩ := settle_eq (s.windowEnded m)
  rw [hl, windowEnded_eq]

theorem windowEnded_sends (s : State) (m : PowerWindow) : sends [] s { s with toDev := settle (s.windowEnded m) } := by
  refine sends_settle [] s _ ?_ ?_
  · rw [windowEnded_eq, List.append_nil]
  · rw [windowEnded_eq]

/-- Settles O58: no event of the power page acts while PWR_ON_RESET_N is low but a step of the rails; its faults are FATAL and leave
the power state alone; and a window that has run its 1,024 beats ends in `windowEnded`, whose level is `nextLevel`. -/
theorem railsAndThrottleFollowTheirRules : Obligations.RailsAndThrottleFollowTheirRules := by
  unfold Obligations.RailsAndThrottleFollowTheirRules
  intro s
  refine ⟨fun step => ⟨railStep_early, railStep_next⟩, power_events_unchanged_of_porLow, throttleWindow_early, fun hpor =>
    ⟨railFault_fatal hpor, fun d c h => thermtrip_below h d, fun d c h => thermtrip_fatal hpor h d, ?_⟩⟩
  intro m cap throttle temp watts hot above low level hdue
  have hhot : s.hotIn m = true ↔ hot := hotIn_iff s.toDev m
  have habove : s.aboveIn m = true ↔ above := aboveIn_iff s.toDev m
  have hlow : watts * 100 < 97 * s.powerCap ∧ s.coolIn m = true ↔ low := and_congr_right fun _ => coolIn_iff s.toDev m
  have hstay : ¬ hot → ¬ above → s.nextLevel m = if watts * 100 < 97 * s.powerCap ∧ s.coolIn m = true then level - 1 else level :=
    fun hh ha => nextLevel_of_not_hot_of_not_above (fun h => hh (hhot.mp h)) fun h => ha (habove.mp h)
  have hlevel : (settle (s.windowEnded m)).pwr.level = s.nextLevel m := by
    rw [settle_pwr, windowEnded_eq]
  refine ⟨_, throttleWindow_due m hpor hdue, windowEnded_sends s m, ?_⟩
  simp only [settle_lv, hlevel]
  refine ⟨windowEnded_state s m, ?_, ?_, ?_, windowEnded_lv_stage s.toDev m, ?_, ?_, ?_, ?_⟩
  · exact fun h => nextLevel_rises (h.imp hhot.mpr habove.mpr)
  · exact fun hh ha hl => (hstay hh ha).trans (if_pos (hlow.mpr hl))
  · exact fun hh ha hl => (hstay hh ha).trans (if_neg (mt hlow.mp hl))
  · rw [← hhot, ← habove]
    exact windowEnded_lv_causes
  · exact windowEnded_lv_watts s.toDev m
  · intro d hd
    rw [windowEnded_lv_temp _ _ hd]
    cases m.temps.getD d none with
    | none => rfl
    | some b => rfl
  · exact fun i hi => windowEnded_lv_rail s.toDev m hi

end Sys2Proof.Machine
end
